-- ==== Sys2Proof/Word.lean ====
section
/-! DEFINITION. The words of the machine: bytes, 32-bit lane words, 64-bit addresses, 32-lane masks. -/

namespace Sys2Proof

/-- A byte (00 R1). -/
abbrev Byte := BitVec 8
/-- A 32-bit word: one lane of a vector register, a scalar register, an instruction word. -/
abbrev Word := BitVec 32
/-- A 64-bit value: an address, or an even-odd register pair (02 R36). -/
abbrev DWord := BitVec 64
/-- A set of the 32 lanes of a flue; bit L stands for lane L (00 R10). -/
abbrev LaneMask := BitVec 32

end Sys2Proof
end

