-- ==== Sys2Proof/Syntax.lean ====
section
/-! DEFINITION. The instructions of the machine: one constructor of `Instr` for each row of spec/opcode_table.json
(Imcor long, short, control and system words; the enclave words; and the event rows, which have no encoding and are
named by a turn of the schedule). Raw encodings end here: register specifiers, types, rounding modes and conditions
are data types. -/

namespace Sys2Proof

/-- The type field TY (03 R67). Value 15 is reserved and has no constructor. -/
inductive Ty where
  | b32 | i32 | z32 | i64 | z64 | f32 | f64 | f16x2 | bf16x2 | f16 | bf16 | i16x2 | z16x2 | i8x4 | z8x4
  deriving DecidableEq, Repr

/-- The rounding field RM (03 R68, 02 R30). Value 7 is reserved and has no constructor. -/
inductive Rm where
  | rne | rtz | rup | rdn | rna | ef | dyn
  deriving DecidableEq, Repr

/-- A comparison condition of ICMP and FCMP (06 R136). -/
inductive Cond where
  | eq | ne | lt | le | gt | ge | ord | uno | qlt | qle | qgt | qge
  deriving DecidableEq, Repr

/-- What a 7-bit field of an instruction word names: an operand (03 R62), a predicate where the instruction's chapter
says the field names one (03 R63), or a condition code (06 R136). -/
inductive Opnd where
  | v (n : BitVec 6)
  | o (n : BitVec 4)
  | s (n : BitVec 5)
  | latch
  | zero
  | one
  | lane
  | flue
  | lit
  | pred (n : BitVec 5)
  | cond (c : Cond)
  deriving DecidableEq, Repr

/-- A guard: a predicate number and whether it is negated (03 R57, R59, R66). -/
structure Guard where
  neg : Bool
  p : BitVec 4
  deriving DecidableEq, Repr

/-- The flag selection F (03 R59); value 11 is illegal and has no constructor. -/
inductive FSel where
  | none | a | b
  deriving DecidableEq, Repr

/-- Arguments of a long-form instruction (03 R59). MODX is read through named accessors. -/
structure LArgs where
  guard : Guard
  d : Opnd
  a : Opnd
  b : Opnd
  c : Opnd
  f : FSel
  ty : Ty
  rm : Rm
  modx : BitVec 11
  lit : Option Word
  deriving DecidableEq, Repr

/-- Arguments of a short-form instruction (03 R57). -/
structure SArgs where
  guard : Guard
  d : Opnd
  a : Opnd
  b : Opnd
  deriving DecidableEq, Repr

/-- Arguments of a control instruction (03 R77, R78). -/
structure CArgs where
  guard : Guard
  d : Opnd
  a : Opnd
  b : Opnd
  dem : BitVec 3
  ofs : BitVec 22
  lit : Option Word
  deriving DecidableEq, Repr

/-- Arguments of a system instruction (03 R80, R81). -/
structure YArgs where
  guard : Guard
  d : Opnd
  a : Opnd
  b : Opnd
  idx : BitVec 16
  lit : Option Word
  deriving DecidableEq, Repr

/-- Arguments of an enclave instruction of the application cores (14 R333). -/
structure RArgs where
  rd : BitVec 5
  rs1 : BitVec 5
  rs2 : BitVec 5
  deriving DecidableEq, Repr

/-! ### What an event row carries -/

/-- A flue: its stove (package-wide: 16 x physical hearth + position, 21 R431, R432) and its slot (01 R23). -/
structure FlueRef where
  stove : Nat
  slot : Nat
  deriving DecidableEq, Repr

/-- The four classes of engine operation, in the order of CLS (10 R226, R245). -/
inductive EngClass where
  | cp | mx | gt | cl
  deriving DecidableEq, Repr

/-- The status codes of an engine operation (10 R228). -/
inductive EngStatus where
  | ok | xlate | ptrsv | perm | owner | roster | uncorr | mismatch | memberLost | aborted
  deriving DecidableEq, Repr

/-- Who called a page service (19 R410): an entry of a partition's system-call ring, or a CPU thread on a hart. -/
inductive Caller where
  | ring (part seq : Nat)
  | hart (h : Nat)
  deriving DecidableEq, Repr

/-- A sealed page image as the host presents it (19 R412). -/
structure SealedImage where
  cid : Nat
  va : DWord
  perm : BitVec 4
  seq : Word
  data : List Byte
  tag : BitVec 128
  deriving DecidableEq, Repr

/-- A host request over a chimney (12 R297, 20 R424). -/
structure HostReq where
  chimney : Nat
  cid : Nat
  va : DWord
  tag : Nat
  deriving DecidableEq, Repr

/-- A DMA of a device interface (20 R425). -/
structure Dma where
  write : Bool
  va : DWord
  len : Nat
  bytes : List Byte
  deriving DecidableEq, Repr

/-- A sealed packet of the on-chip network (14 R330, R331): flow identifier, flow counter, ciphertext and tag. -/
structure Packet where
  flow : Word
  ctr : DWord
  body : List Byte
  tag : Word
  deriving DecidableEq, Repr

/-- A flit as it arrives (20 R420), its fields already separated. -/
structure Flit where
  vc : Byte
  kind : Byte
  sid : BitVec 16
  seq : Word
  ackSeq : Word
  hold : Byte
  tagId : BitVec 16
  ctr : DWord
  addr : DWord
  payload : List Byte
  gtag : DWord
  crc : DWord
  deriving DecidableEq, Repr

/-- What a keying exchange learnt of the peer (20 R429). -/
structure PeerId where
  ok : Bool
  idHash : BitVec 256
  measH : BitVec 128
  pcid : BitVec 16
  deriving DecidableEq, Repr

/-- The algorithms a requester offers (14 R340). -/
structure SpdmAlgs where
  xmssmt : Bool
  sha384 : Bool
  p384 : Bool
  gcm : Bool
  deriving DecidableEq, Repr

/-- What a partition is formed with (21 R430, R433). Shares name the resource and the sixty-fourths. -/
structure PartSpec where
  hearths : List Nat
  straits : List (Nat × Nat)
  chimneys : List (Nat × Nat)
  hbms : List (Nat × Nat)
  cshare : Nat
  ways : BitVec 16
  qslots : Nat
  slice : Nat
  deriving DecidableEq, Repr

/-- What a start-up stage found (22 R441-R443): the parts that failed, and whether its signature or test failed. -/
structure StageReport where
  ok : Bool
  hearths : List Nat
  hbms : List Nat
  ports : List Nat
  parts : List Nat
  deriving DecidableEq, Repr

/-- A firmware image offered through the management port (22 R448). -/
structure FwImage where
  version : Nat
  measurement : BitVec 512
  signature : List Byte
  deriving DecidableEq, Repr

/-- The operations of an AMO of an application core (12 R296). -/
inductive AmoOp where
  | swap | add | xor | and | or | min | max | minu | maxu
  deriving DecidableEq, Repr

/-- An application core's memory operation (12 R296); a load with `sx` sign-extends. -/
inductive CoreOp where
  | load (rd : BitVec 5) (va : DWord) (size : Nat) (sx : Bool)
  | store (va : DWord) (size : Nat) (val : DWord)
  | amo (rd : BitVec 5) (op : AmoOp) (va : DWord) (size : Nat) (val : DWord) (aq rl : Bool)
  | lr (rd : BitVec 5) (va : DWord) (size : Nat) (aq rl : Bool)
  | sc (rd : BitVec 5) (va : DWord) (size : Nat) (val : DWord) (aq rl : Bool)
  | fence (pred succ : BitVec 4)
  deriving DecidableEq, Repr

/-- One constructor for each row of spec/opcode_table.json, in the table's order. -/
inductive Instr where
  | clauseIssue (r : FlueRef) (pc : BitVec 64)
  | pcGroupPromotion (r : FlueRef) (pc : BitVec 64)
  | iadd (x : LArgs)
  | iaddI32Short (x : SArgs)
  | isub (x : LArgs)
  | isubI32Short (x : SArgs)
  | imul (x : LArgs)
  | imulI32Short (x : SArgs)
  | imulh (x : LArgs)
  | imad (x : LArgs)
  | imadw (x : LArgs)
  | ineg (x : LArgs)
  | iabs (x : LArgs)
  | imin (x : LArgs)
  | iminI32Short (x : SArgs)
  | imax (x : LArgs)
  | imaxI32Short (x : SArgs)
  | andBits (x : LArgs)
  | andShort (x : SArgs)
  | orBits (x : LArgs)
  | orShort (x : SArgs)
  | xorBits (x : LArgs)
  | xorShort (x : SArgs)
  | andn (x : LArgs)
  | andnShort (x : SArgs)
  | notBits (x : LArgs)
  | shl (x : LArgs)
  | shlShort (x : SArgs)
  | shr (x : LArgs)
  | shrShort (x : SArgs)
  | sar (x : LArgs)
  | sarShort (x : SArgs)
  | rotl (x : LArgs)
  | bfx (x : LArgs)
  | bfi (x : LArgs)
  | popc (x : LArgs)
  | clz (x : LArgs)
  | brev (x : LArgs)
  | lea (x : LArgs)
  | leaShort (x : SArgs)
  | mov (x : LArgs)
  | movShort (x : SArgs)
  | sel (x : LArgs)
  | icmp (x : LArgs)
  | fadd (x : LArgs)
  | faddF32Short (x : SArgs)
  | faddF16x2Short (x : SArgs)
  | faddBf16x2Short (x : SArgs)
  | fsub (x : LArgs)
  | fsubF32Short (x : SArgs)
  | fmul (x : LArgs)
  | fmulF32Short (x : SArgs)
  | fmulF16x2Short (x : SArgs)
  | fmulBf16x2Short (x : SArgs)
  | ffma (x : LArgs)
  | fmin (x : LArgs)
  | fminF32Short (x : SArgs)
  | fmax (x : LArgs)
  | fmaxF32Short (x : SArgs)
  | fcmp (x : LArgs)
  | fclass (x : LArgs)
  | frnd (x : LArgs)
  | fcvt (x : LArgs)
  | icvtf (x : LArgs)
  | fcvti (x : LArgs)
  | fdot2 (x : LArgs)
  | fscale (x : LArgs)
  | cvtn (x : LArgs)
  | cvtw (x : LArgs)
  | bscale (x : LArgs)
  | pack (x : LArgs)
  | packI4x (x : LArgs)
  | unpack (x : LArgs)
  | resrd (x : LArgs)
  | reswr (x : LArgs)
  | rcp (x : LArgs)
  | rsq (x : LArgs)
  | sqrt (x : LArgs)
  | fdiv (x : LArgs)
  | exp2 (x : LArgs)
  | log2 (x : LArgs)
  | sin (x : LArgs)
  | cos (x : LArgs)
  | tanh (x : LArgs)
  | gori2 (x : LArgs)
  | gori3 (x : LArgs)
  | ginc (x : LArgs)
  | gins (x : LArgs)
  | gsegx (x : LArgs)
  | geomEscalationComplete (stove : Nat)
  | plop (x : LArgs)
  | pmovGet (x : LArgs)
  | pmovSet (x : LArgs)
  | pcnt (x : LArgs)
  | pmask (x : LArgs)
  | mpred (x : LArgs)
  | peek (x : LArgs)
  | vote (x : LArgs)
  | voteBal (x : LArgs)
  | matchLanes (x : LArgs)
  | redux (x : LArgs)
  | scan (x : LArgs)
  | conv (x : LArgs)
  | rendezvousResultWrite (r : FlueRef) (pc : BitVec 64)
  | bra (x : CArgs)
  | bru (x : CArgs)
  | jmpi (x : CArgs)
  | call (x : CArgs)
  | calli (x : CArgs)
  | ret (x : CArgs)
  | unwind (x : CArgs)
  | spawn (x : CArgs)
  | join (x : CArgs)
  | bar (x : CArgs)
  | bara (x : CArgs)
  | barw (x : CArgs)
  | yield (x : CArgs)
  | exitLanes (x : CArgs)
  | nop (x : CArgs)
  | tilerel (x : CArgs)
  | launch (x : CArgs)
  | commit (x : CArgs)
  | ld (x : LArgs)
  | st (x : LArgs)
  | ldc (x : LArgs)
  | atom (x : LArgs)
  | red (x : LArgs)
  | fence (x : LArgs)
  | pfenceGen (x : LArgs)
  | pfenceConst (x : LArgs)
  | pfenceTile (x : LArgs)
  | pref (x : LArgs)
  | cinv (x : LArgs)
  | awset (x : LArgs)
  | awwait (x : LArgs)
  | awadd (x : LArgs)
  | awwaitReturn (r : FlueRef) (lane : Nat)
  | postedWriteApply (stove idx : Nat)
  | tidset (x : LArgs)
  | tidclr (x : LArgs)
  | tcopy (x : LArgs)
  | gather (x : LArgs)
  | scatter (x : LArgs)
  | stream (x : LArgs)
  | collAllred (x : LArgs)
  | collRedsc (x : LArgs)
  | collAllga (x : LArgs)
  | collA2a (x : LArgs)
  | collBcast (x : LArgs)
  | waitc (x : LArgs)
  | ectlStat (x : LArgs)
  | ectlClr (x : LArgs)
  | ectlCncl (x : LArgs)
  | ectlCnt (x : LArgs)
  | engineUnitComplete (r : FlueRef) (cls : EngClass) (peers : List (Nat × List Byte))
  | engineOperationComplete (r : FlueRef) (cls : EngClass) (ext : EngStatus)
  | gang (x : LArgs)
  | osclaim (x : LArgs)
  | osrel (x : LArgs)
  | mma (x : LArgs)
  | mmaH (x : LArgs)
  | mmas (x : LArgs)
  | mmab (x : LArgs)
  | accz (x : LArgs)
  | accld (x : LArgs)
  | accst (x : LArgs)
  | accmvRd (x : LArgs)
  | accmvWr (x : LArgs)
  | trap (x : YArgs)
  | rth (x : YArgs)
  | syscall (x : YArgs)
  | syscallResult (part seq : Nat) (val : Word)
  | rdsr (x : YArgs)
  | rdsrCyclo (x : YArgs)
  | wrsr (x : YArgs)
  | wrsrYdl (x : YArgs)
  | bkpt (x : YArgs)
  | causeDelivery (r : FlueRef)
  | handlerTimeout (r : FlueRef)
  | frameGrant (stove : Nat)
  | refillComplete (r : FlueRef)
  | escapeSpillStart (stove : Nat)
  | escapeSpillFrameDone (stove : Nat)
  | flueDrainComplete (r : FlueRef)
  | flueRecall (stove group gflue : Nat)
  | sliceEnd (part : Nat)
  | yieldDeadlineExpiry (r : FlueRef)
  | slotPreemption (part : Nat)
  | wholeGroupSwitchOut (stove group : Nat)
  | stovePop (stove : Nat)
  | affinityLapse (part kslot entry : Nat)
  | gridRecordFormation (part kslot : Nat)
  | kernelTake (cid q : Nat)
  | kernelStart (part kslot : Nat)
  | kernelRetire (part kslot : Nat)
  | kick (cid q : Nat) (tail : Word)
  | queueReset (cid q : Nat) (val : Word)
  | kickPageIgnoredWrite (cid q off size : Nat) (val : BitVec 64)
  | queueBind (cid q : Nat)
  | queueUnbind (cid q : Nat)
  | watchdogExpiry (cid q : Nat)
  | grant (cid : Nat) (mask : BitVec 64)
  | encnew (x : RArgs)
  | encin (x : RArgs)
  | encout (x : RArgs)
  | encsealSeal (x : RArgs)
  | encsealUnseal (x : RArgs)
  | encsealDestroy (x : RArgs)
  | threadHostInterrupt (hart : Nat)
  | networkTagFailure (p : Packet)
  | mapPage (c : Caller)
  | unmap (c : Caller)
  | protect (c : Caller)
  | freePage (c : Caller)
  | sharePage (c : Caller)
  | unshare (c : Caller)
  | attach (c : Caller)
  | walk (c : Caller)
  | demandZeroFill (cid : Nat) (va : BitVec 64) (stove : Nat)
  | pageMigration (cid : Nat) (va : BitVec 64) (frame : Nat)
  | pageout (cid : Nat) (va : BitVec 64)
  | pagein (cid : Nat) (img : SealedImage)
  | hostWrite (req : HostReq) (bytes : List Byte)
  | hostRead (req : HostReq) (len : Nat)
  | deviceDma (port iface : Nat) (dma : Dma)
  | tdispBind (port iface cid index : Nat) (ownerSession : Bool)
  | flitReceive (port : Nat) (flit : Flit)
  | keyUpdate (cid roster : Nat)
  | keyingComplete (cid roster : Nat) (peer : PeerId)
  | keyingTimeout (cid roster : Nat)
  | keyingRetry (cid roster : Nat)
  | peerReset (cid roster : Nat)
  | readmit (cid roster : Nat) (meash : BitVec 128) (ownerSession : Bool)
  | getVersion (conn : Nat)
  | getCapabilities (conn : Nat) (caps : Word)
  | negotiateAlgorithms (conn : Nat) (offer : SpdmAlgs)
  | getDigests (conn : Nat)
  | getCertificate (conn off len : Nat)
  | challenge (conn : Nat) (nonce : BitVec 256) (cid : Nat)
  | getMeasurements (conn cid : Nat)
  | keyExchange (conn : Nat) (share : List Byte)
  | finish (conn : Nat) (verify : List Byte)
  | keyUpdateRequest (conn : Nat)
  | endSession (conn : Nat)
  | pmuForward (cid : Nat)
  | formPartition (part : Nat) (spec : PartSpec)
  | partitionTestComplete (part : Nat) (failed : Bool)
  | drainPartition (part : Nat)
  | drainComplete (part : Nat)
  | resetComplete (part : Nat) (failed : Bool)
  | setclk (part hearth mhz : Nat)
  | powerExcessPredicted
  | powerRecoveryStep
  | junctionOvertemp (die : Nat)
  | thermalReturnStep (die : Nat)
  | thermalTrip
  | packageReset
  | stageComplete (rep : StageReport)
  | stageTimeout (rep : StageReport)
  | heartbeatTimeout
  | serviceMachineCheck
  | recover
  | lockstepMismatch
  | recoveryTimeout
  | firmwareLoad (fw : FwImage)
  | testmode (sig : List Byte)
  | instructionComplete (r : FlueRef) (idx : Nat)
  | applicationCoreAccess (hart : Nat) (op : CoreOp)
  | threadFault (hart : Nat)
  | hearthVoltageSettled (hearth : Nat)
  | cidPurgeComplete (cid : Nat)
  deriving DecidableEq, Repr

/-- One turn of the schedule (the model's own: R8 says what an event does, and this list says which comes next).
`issue` lets a burner of a stove take its issue opportunity, `cycle` advances a clock island by one cycle,
`hart` lets an application core fetch, and `event` is an event row with its inputs. -/
inductive Turn where
  | issue (stove burner : Nat)
  | cycle (island : Nat)
  | hart (h : Nat)
  | event (i : Instr)
  deriving DecidableEq, Repr, Inhabited

end Sys2Proof
end

