-- ==== Sys2Proof/WellFormed.lean ====
section
/-! DEFINITION. Which instructions are well formed: for every row the operand kinds, types, rounding modes and options
that the spec's instruction chapters accept (03 R57-R69, R77-R82, 04 R90-R95). A check that fails names the fault
(`DecodeError`) and so the word that holds it (04 R94). Faults that need the clause header or the current frame
(R54, R71, R96) are checked by the machine. -/

namespace Sys2Proof

/-! ### Names of decode faults -/

/-- An operand field of an instruction. -/
inductive Field where
  | d | a | b | c
  deriving DecidableEq, Repr

/-- Why a word or an instruction is refused (04 R95). -/
inductive DecodeError where
  /-- A long instruction or its literal runs past the words given (R94: recorded against word 0). -/
  | truncated
  /-- A long opcode that R91 does not assign (R92). -/
  | unassignedOpcode
  /-- SOP 0x17-0x3F (R57). -/
  | unassignedShort
  /-- F = 11, or F other than 00 on a control or system instruction (R59, R82). -/
  | reservedF
  /-- F selected on an instruction outside R71. -/
  | flagNotAllowed
  /-- A specifier that the field's kind does not admit (R62, R63, R225 and the chapters). -/
  | operand (f : Field)
  /-- X and the 0x7F specifiers do not agree (R60). -/
  | literalPairing
  /-- A scalar destination with a per-lane source (R64). -/
  | scalarDest
  /-- The two destination predicates are the same and not p0 (R138, R148). -/
  | samePredicate
  /-- TY that the operation does not accept (R61, R67). -/
  | badTy
  /-- RM that the operation does not accept (R61, R68, R69). -/
  | badRm
  /-- A MODX value that the operation does not define (R61). -/
  | badModx
  /-- DEM or OFS of a control word (R78, R95). -/
  | badControl
  /-- Reserved bits or IDX of a system word (R80, R81). -/
  | badSystem
  /-- A custom-0 word that is not one of the four enclave instructions (14 R333). -/
  | notEnclave
  deriving DecidableEq, Repr

/-- The word of the instruction that the fault is recorded against (04 R94): a fault in one field against its word, a
fault that spans words against word 0. -/
def DecodeError.word : DecodeError → Nat
  | .truncated => 0
  | .unassignedOpcode => 0
  | .unassignedShort => 0
  | .reservedF => 0
  | .flagNotAllowed => 0
  | .operand .d => 0
  | .operand .a => 0
  | .operand .b => 1
  | .operand .c => 1
  | .literalPairing => 0
  | .scalarDest => 0
  | .samePredicate => 0
  | .badTy => 1
  | .badRm => 1
  | .badModx => 1
  | .badControl => 1
  | .badSystem => 1
  | .notEnclave => 0

/-! ### Types and operands -/

/-- Registers that a value of the type takes (02 R36). -/
def Ty.regs : Ty → Nat
  | .i64 => 2
  | .z64 => 2
  | .f64 => 2
  | _ => 1

/-- A source that gives the same value in every lane (03 R62, R64). -/
def Opnd.uniform : Opnd → Bool
  | .s _ => true
  | .zero => true
  | .one => true
  | .flue => true
  | .lit => true
  | _ => false

/-- A per-lane source in the sense of 03 R64: predicates and conditions are not operand sources. -/
def Opnd.perLane : Opnd → Bool
  | .v _ => true
  | .o _ => true
  | .latch => true
  | .lane => true
  | _ => false

/-- The registers of a run starting at the operand exist and start where the alignment asks (03 R63, 09 R200). -/
def Opnd.runOk (n align : Nat) : Opnd → Bool
  | .v k => k.toNat % align == 0 && k.toNat + n ≤ 64
  | .o k => k.toNat % align == 0 && k.toNat + n ≤ 16
  | .s k => k.toNat % align == 0 && k.toNat + n ≤ 32
  | _ => true

/-- How many registers a field names and on what multiple they start, from TY and MODX. -/
structure Width where
  regs : Ty → BitVec 11 → Nat
  align : Ty → BitVec 11 → Nat

/-- One register. -/
def w1 : Width := ⟨fun _ _ => 1, fun _ _ => 1⟩
/-- An even-odd pair. -/
def w2 : Width := ⟨fun _ _ => 2, fun _ _ => 2⟩
/-- As wide as TY. -/
def wTy : Width := ⟨fun ty _ => ty.regs, fun ty _ => ty.regs⟩
/-- As wide as the FROM type of FCVT, ICVTF and FCVTI (06 R145). -/
def fromW : Width :=
  let w := fun m : BitVec 11 => if m.extractLsb' 0 4 == 3#4 || m.extractLsb' 0 4 == 4#4 || m.extractLsb' 0 4 == 6#4 then 2 else 1
  ⟨fun _ m => w m, fun _ m => w m⟩
/-- As wide as SIZE of a memory access (09 R200). -/
def sizeW : Width :=
  let w := fun m : BitVec 11 => if m.extractLsb' 2 3 == 3#3 then 2 else if m.extractLsb' 2 3 == 4#3 then 4 else 1
  ⟨fun _ m => w m, fun _ m => w m⟩
/-- An address: 64-bit in the GEN space, 32-bit in the others (09 R201). -/
def spaceW : Width :=
  let w := fun m : BitVec 11 => if m.extractLsb' 0 2 == 0#2 then 2 else 1
  ⟨fun _ m => w m, fun _ m => w m⟩
/-- A run of coordinates: `n` values, twice as many registers in F64 (07 R163, R164). -/
def geo (n : Nat) : Width :=
  ⟨fun ty _ => if ty = .f64 then 2 * n else n, fun ty _ => if ty = .f64 then 2 else 1⟩
/-- The run of ACCMV: n registers (10 R260). -/
def accW : Width := ⟨fun _ m => (m.extractLsb' 0 3).toNat + 1, fun _ _ => 1⟩

/-- What a field may hold. -/
inductive Kind where
  /-- Holds 0x71 (03 R61). -/
  | unused
  /-- A destination: v, o, s or zero. -/
  | dst (w : Width)
  /-- A destination that may not be scalar: v, o or zero. -/
  | dstV (w : Width)
  /-- A source operand of any kind (03 R62). -/
  | src (w : Width)
  /-- A source when MODX says so, otherwise unused. -/
  | srcIf (w : Width) (p : BitVec 11 → Bool)
  /-- A uniform operand: a scalar, zero, one or lit (08 R184, 10 R225, 11 R264). -/
  | uni (w : Width)
  /-- A member mask: a scalar or lit (08 R175). -/
  | mask
  /-- The first scalar of an operand block of the length MODX gives (10 R225). -/
  | block (n : BitVec 11 → Nat)
  /-- A register run of a geometric predicate: v, o or s (07 R164). -/
  | run (w : Width)
  /-- A register run of an accumulator transfer: v or o (10 R260). -/
  | runV (w : Width)
  /-- A predicate number 0-31 (03 R63). -/
  | pred
  /-- A condition code of ICMP (06 R136). -/
  | condI
  /-- A condition code of FCMP (06 R136). -/
  | condF

/-- The operand is one that a source field of the machine can name. -/
def Opnd.isSrc : Opnd → Bool
  | .pred _ => false
  | .cond _ => false
  | _ => true

/-- The operand of a field fits the field's kind. -/
def Kind.ok (k : Kind) (ty : Ty) (m : BitVec 11) (o : Opnd) : Bool :=
  match k with
  | .unused => o == .zero
  | .dst w => (match o with | .v _ | .o _ | .s _ | .zero => true | _ => false) && o.runOk (w.regs ty m) (w.align ty m)
  | .dstV w => (match o with | .v _ | .o _ | .zero => true | _ => false) && o.runOk (w.regs ty m) (w.align ty m)
  | .src w => o.isSrc && o.runOk (w.regs ty m) (w.align ty m)
  | .srcIf w p => if p m then o.isSrc && o.runOk (w.regs ty m) (w.align ty m) else o == .zero
  | .uni w => (match o with | .s _ | .zero | .one | .lit => true | _ => false) && o.runOk (w.regs ty m) (w.align ty m)
  | .mask => match o with | .s _ | .lit => true | _ => false
  | .block n => match o with | .s k => k.toNat + n m ≤ 32 | _ => false
  | .run w => (match o with | .v _ | .o _ | .s _ => true | _ => false) && o.runOk (w.regs ty m) (w.align ty m)
  | .runV w => (match o with | .v _ | .o _ => true | _ => false) && o.runOk (w.regs ty m) (w.align ty m)
  | .pred => match o with | .pred _ => true | _ => false
  | .condI => match o with | .cond c => c == .eq || c == .ne || c == .lt || c == .le || c == .gt || c == .ge | _ => false
  | .condF => match o with | .cond _ => true | _ => false

/-- A field whose operand counts as an operand source under 03 R60 and R64. -/
def Kind.isSource : Kind → Bool
  | .src _ => true
  | .srcIf _ _ => true
  | .uni _ => true
  | .mask => true
  | .run _ => true
  | .runV _ => true
  | _ => false

/-- A destination field. -/
def Kind.isDest : Kind → Bool
  | .dst _ => true
  | _ => false

/-- Which rounding modes an operation accepts: none (RM = 0), every mode but EF (R69), or every mode. -/
inductive RmRule where
  | zero | all | withEf
  deriving DecidableEq, Repr

def RmRule.ok : RmRule → Rm → Bool
  | .zero, rm => rm == .rne
  | .all, rm => rm != .ef
  | .withEf, _ => true

/-! ### MODX rules -/

/-- Only bits of the mask may be set. -/
def mxBits (mask : BitVec 11) : Ty → Rm → BitVec 11 → Bool := fun _ _ m => m &&& ~~~mask == 0#11
/-- MODX is zero. -/
def mxZero : Ty → Rm → BitVec 11 → Bool := mxBits 0
/-- MODX is the value. -/
def mxIs (v : BitVec 11) : Ty → Rm → BitVec 11 → Bool := fun _ _ m => m == v
/-- LEA (06 R134). -/
def mxLea : Ty → Rm → BitVec 11 → Bool := fun ty _ m =>
  m.extractLsb' 4 7 == 0#7 && (m.extractLsb' 0 3).toNat ≤ 4 && (!m.getLsbD 3 || ty == .z64)
/-- ICMP and FCMP (06 R137). -/
def mxCmp : Ty → Rm → BitVec 11 → Bool := fun _ _ m => m.extractLsb' 5 2 != 3#2
/-- TY code of a FROM field (06 R145). -/
def tyOfCode : BitVec 4 → Option Ty
  | 0#4 => some .b32 | 1#4 => some .i32 | 2#4 => some .z32 | 3#4 => some .i64 | 4#4 => some .z64 | 5#4 => some .f32
  | 6#4 => some .f64 | 7#4 => some .f16x2 | 8#4 => some .bf16x2 | 9#4 => some .f16 | 10#4 => some .bf16
  | 11#4 => some .i16x2 | 12#4 => some .z16x2 | 13#4 => some .i8x4 | 14#4 => some .z8x4 | _ => none
/-- The TY code of a type (03 R67). -/
def Ty.code : Ty → BitVec 4
  | .b32 => 0 | .i32 => 1 | .z32 => 2 | .i64 => 3 | .z64 => 4 | .f32 => 5 | .f64 => 6 | .f16x2 => 7 | .bf16x2 => 8
  | .f16 => 9 | .bf16 => 10 | .i16x2 => 11 | .z16x2 => 12 | .i8x4 => 13 | .z8x4 => 14
/-- The FROM type of a conversion; B32 stands for a code with no type, which no rule accepts. -/
def fromTy (m : BitVec 11) : Ty := (tyOfCode (m.extractLsb' 0 4)).getD .b32
/-- A scalar floating type: F32, F64, F16 or BF16. -/
def Ty.isFloat4 : Ty → Bool
  | .f32 => true | .f64 => true | .f16 => true | .bf16 => true | _ => false
/-- A widening FCVT pair (06 R145). -/
def fcvtWidens (ty frm : Ty) : Bool :=
  ((frm == .f16 || frm == .bf16) && (ty == .f32 || ty == .f64)) || (frm == .f32 && ty == .f64)
def mxFcvt : Ty → Rm → BitVec 11 → Bool := fun ty rm m =>
  m.extractLsb' 4 7 == 0#7 && (fromTy m).isFloat4 && fromTy m != ty && (!fcvtWidens ty (fromTy m) || rm == .rne)
def mxIcvtf : Ty → Rm → BitVec 11 → Bool := fun _ _ m =>
  m.extractLsb' 4 7 == 0#7 && (fromTy m == .i32 || fromTy m == .z32 || fromTy m == .i64 || fromTy m == .z64)
def mxFcvti : Ty → Rm → BitVec 11 → Bool := fun _ _ m => m.extractLsb' 4 7 == 0#7 && (fromTy m).isFloat4
/-- POS fits the format (07 R150, R151). -/
def posOk (m : BitVec 11) : Bool := !(m.extractLsb' 0 3 == 2#3 || m.extractLsb' 0 3 == 3#3) || !m.getLsbD 5
/-- CVTN (07 R150, R152). -/
def mxCvtn : Ty → Rm → BitVec 11 → Bool := fun _ rm m =>
  !m.getLsbD 10 && (m.extractLsb' 0 3).toNat ≤ 4 && posOk m && (rm == .ef || m.extractLsb' 6 3 == 0#3) &&
    !(m.getLsbD 3 && m.extractLsb' 0 3 == 4#3)
def mxCvtw : Ty → Rm → BitVec 11 → Bool := fun _ _ m =>
  m &&& ~~~0x037#11 == 0#11 && (m.extractLsb' 0 3).toNat ≤ 4 && posOk m
def mxBscale : Ty → Rm → BitVec 11 → Bool := fun _ _ m => m &&& ~~~0x00F#11 == 0#11 && (m.extractLsb' 0 3).toNat ≤ 5
def mxPack : Ty → Rm → BitVec 11 → Bool := fun _ _ m =>
  m &&& ~~~0x00F#11 == 0#11 && (m.extractLsb' 0 3 == 2#3 || m.extractLsb' 0 3 == 3#3)
def mxFmtI4x : Ty → Rm → BitVec 11 → Bool := mxIs 5
def mxVote : Ty → Rm → BitVec 11 → Bool := fun _ _ m => m.toNat ≤ 2
/-- OPC, type and rounding of REDUX and SCAN agree (08 R183). -/
def reduxOk (ty : Ty) (rm : Rm) (opc : BitVec 3) : Bool :=
  match opc with
  | 0#3 => ((ty == .i32 || ty == .z32) && rm == .rne) || ty == .f32
  | 1#3 => (ty == .i32 || ty == .z32 || ty == .f32) && rm == .rne
  | 2#3 => (ty == .i32 || ty == .z32 || ty == .f32) && rm == .rne
  | 3#3 => ty == .b32 && rm == .rne
  | 4#3 => ty == .b32 && rm == .rne
  | 5#3 => ty == .b32 && rm == .rne
  | _ => false
def mxRedux : Ty → Rm → BitVec 11 → Bool := fun ty rm m => m &&& ~~~0x007#11 == 0#11 && reduxOk ty rm (m.extractLsb' 0 3)
def mxScan : Ty → Rm → BitVec 11 → Bool := fun ty rm m => m &&& ~~~0x00F#11 == 0#11 && reduxOk ty rm (m.extractLsb' 0 3)
/-- Fields of a memory MODX (09 R199). -/
def mxSpace (m : BitVec 11) : BitVec 2 := m.extractLsb' 0 2
def mxSize (m : BitVec 11) : BitVec 3 := m.extractLsb' 2 3
def mxOrder (m : BitVec 11) : BitVec 2 := m.extractLsb' 5 2
def mxScope (m : BitVec 11) : BitVec 2 := m.extractLsb' 7 2
def mxSx (m : BitVec 11) : Bool := m.getLsbD 9
def mxDcl (m : BitVec 11) : Bool := m.getLsbD 10
/-- SCOPE is legal and is zero when ORDER is relaxed (09 R199). -/
def scopeOk (m : BitVec 11) : Bool := mxScope m != 3#2 && (mxOrder m != 0#2 || mxScope m == 0#2)
def mxLd : Ty → Rm → BitVec 11 → Bool := fun _ _ m =>
  scopeOk m && !mxDcl m && (mxSize m).toNat ≤ 4 && (!mxSx m || (mxSize m).toNat ≤ 1) && (mxOrder m).toNat ≤ 1
def mxSt : Ty → Rm → BitVec 11 → Bool := fun _ _ m =>
  scopeOk m && !mxSx m && (mxSize m).toNat ≤ 4 && (mxOrder m == 0#2 || mxOrder m == 2#2) && (!mxDcl m || mxSpace m == 0#2)
def mxLdc : Ty → Rm → BitVec 11 → Bool := fun _ _ m =>
  m &&& ~~~0x21C#11 == 0#11 && (mxSize m).toNat ≤ 4 && (!mxSx m || (mxSize m).toNat ≤ 1)
/-- AOP and type of an atomic agree (09 R214). -/
def aopOk (ty : Ty) (aop : BitVec 3) : Bool :=
  if aop.toNat ≤ 2 then ty == .i32 || ty == .z32 || ty == .i64 || ty == .z64 || ty == .f32 else ty == .b32 || ty == .z64
def mxAtom : Ty → Rm → BitVec 11 → Bool := fun ty _ m =>
  scopeOk m && !mxSx m && (!mxDcl m || mxSpace m == 0#2) && mxSpace m != 1#2 && aopOk ty (mxSize m)
def mxRed : Ty → Rm → BitVec 11 → Bool := fun ty _ m =>
  scopeOk m && !mxSx m && (!mxDcl m || mxSpace m == 0#2) && mxSpace m != 1#2 && aopOk ty (mxSize m) &&
    (mxSize m).toNat ≤ 5 && (mxOrder m == 0#2 || mxOrder m == 2#2)
def mxFence : Ty → Rm → BitVec 11 → Bool := fun _ _ m =>
  m &&& ~~~0x1E0#11 == 0#11 && mxScope m != 3#2 && mxOrder m != 0#2
def mxTcopy : Ty → Rm → BitVec 11 → Bool := fun _ _ m => m &&& ~~~0x007#11 == 0#11 && !(m.getLsbD 0 && m.getLsbD 1)
/-- KIND, ROP and X of COLL (10 R242). -/
def mxColl (kind : Nat) : Ty → Rm → BitVec 11 → Bool := fun _ _ m =>
  m &&& ~~~0x03F#11 == 0#11 && (m.extractLsb' 0 3).toNat == kind &&
    (if kind ≤ 1 then m.extractLsb' 3 2 != 3#2 else m.extractLsb' 3 2 == 0#2) &&
    (!m.getLsbD 5 || (kind == 0 && m.extractLsb' 3 2 == 0#2))
def mxEctl (op : Nat) : Ty → Rm → BitVec 11 → Bool := fun _ _ m =>
  m &&& ~~~0x00F#11 == 0#11 && (m.extractLsb' 2 2).toNat == op
/-- The legal type pairs of a matrix product (10 R253): codes 0 E4M3, 1 E5M2, 2 FP16, 3 BF16, 4 INT8, 5 I4X. -/
def mmaPair (m : BitVec 11) : Bool :=
  let a := (m.extractLsb' 0 3).toNat
  let b := (m.extractLsb' 3 3).toNat
  (a ≤ 1 && b ≤ 1) || (a == b && a ≤ 5) || (a == 5 && b ≤ 1) || (a ≤ 1 && b == 5)
/-- A pair that holds I4X on exactly one side takes two slots on the other (10 R253). -/
def mmaMixed (m : BitVec 11) : Bool := (m.extractLsb' 0 3 == 5#3) != (m.extractLsb' 3 3 == 5#3)
def mxMma : Ty → Rm → BitVec 11 → Bool := fun _ _ m => m &&& ~~~0x13F#11 == 0#11 && mmaPair m
def mxMmaH : Ty → Rm → BitVec 11 → Bool := fun _ _ m => m &&& ~~~0x1BF#11 == 0#11 && m.getLsbD 7 && mmaPair m
def mxMmas : Ty → Rm → BitVec 11 → Bool := fun _ _ m =>
  m &&& ~~~0x17F#11 == 0#11 && mmaPair m && m.extractLsb' 0 3 != 5#3 && m.extractLsb' 3 3 != 5#3
def mxMmab : Ty → Rm → BitVec 11 → Bool := fun _ _ m => m &&& ~~~0x13F#11 == 0#11 && mmaPair m && !mmaMixed m
def mxAccWr : Ty → Rm → BitVec 11 → Bool := fun _ _ m => m &&& ~~~0x00F#11 == 0#11 && m.getLsbD 3
/-- Lengths of operand blocks (10 R236, R237, R240). -/
def blkTcopy (m : BitVec 11) : Nat := (if m.getLsbD 0 || m.getLsbD 1 then 5 else 10) + (if m.getLsbD 2 then 1 else 0)
def blkGather (m : BitVec 11) : Nat := (if m.getLsbD 1 then 3 else 8) + (if m.getLsbD 2 then 1 else 0)
def blkScatter (m : BitVec 11) : Nat := (if m.getLsbD 0 then 3 else 8) + (if m.getLsbD 2 then 1 else 0)
def blkStream (m : BitVec 11) : Nat := 2 * ((m.extractLsb' 0 3).toNat + 1)

/-! ### Forms -/

/-- The form of a long row: opcode, field kinds, accepted types (none: TY = 0), rounding, MODX, and whether it may
select a completion flag (03 R71). -/
structure LForm where
  op : BitVec 9
  d : Kind
  a : Kind
  b : Kind
  c : Kind
  types : List Ty
  rm : RmRule
  modx : Ty → Rm → BitVec 11 → Bool
  flag : Bool

/-- What OFS holds in a control row (03 R78). -/
inductive OfsKind where
  | none | target | barrier
  deriving DecidableEq, Repr

structure CForm where
  op : BitVec 9
  d : Kind
  a : Kind
  b : Kind
  dem : Bool
  ofs : OfsKind

structure YForm where
  op : BitVec 9
  d : Kind
  a : Kind
  b : Kind

/-! ### Special registers (11 R269) -/

/-- A special register written to or from a register pair. -/
def srWide (idx : BitVec 16) : Bool := idx == 0x0F#16 || idx == 0x17#16
/-- A special register with a value per lane. -/
def srLane (idx : BitVec 16) : Bool := idx == 0x00#16 || idx == 0x13#16
/-- An index of the table (11 R269). -/
def srNamed (idx : BitVec 16) : Bool := idx.toNat ≤ 0x27
/-- An index that the table does not list asks nothing of the operands: the fault is in IDX alone (04 R94). -/
def srModx (idx : BitVec 16) : BitVec 11 := if srNamed idx then idx.setWidth 11 else 0
/-- RDSR and WRSR: the width comes from IDX, carried here in MODX's place by its low 11 bits. -/
def srW : Width :=
  let w := fun m : BitVec 11 => if srWide (m.setWidth 16) then 2 else 1
  ⟨fun _ m => w m, fun _ m => w m⟩

/-- The long-form rows of the table. -/
inductive LRow where
  | iadd | isub | imul | imulh | imad | imadw | ineg | iabs
  | imin | imax | andBits | orBits | xorBits | andn | notBits | shl
  | shr | sar | rotl | bfx | bfi | popc | clz | brev
  | lea | mov | sel | icmp | fadd | fsub | fmul | ffma
  | fmin | fmax | fcmp | fclass | frnd | fcvt | icvtf | fcvti
  | fdot2 | fscale | cvtn | cvtw | bscale | pack | packI4x | unpack
  | resrd | reswr | rcp | rsq | sqrt | fdiv | exp2 | log2
  | sin | cos | tanh | gori2 | gori3 | ginc | gins | gsegx
  | plop | pmovGet | pmovSet | pcnt | pmask | mpred | peek | vote
  | voteBal | matchLanes | redux | scan | conv | ld | st | ldc
  | atom | red | fence | pfenceGen | pfenceConst | pfenceTile | pref | cinv
  | awset | awwait | awadd | tidset | tidclr | tcopy | gather | scatter
  | stream | collAllred | collRedsc | collAllga | collA2a | collBcast | waitc | ectlStat
  | ectlClr | ectlCncl | ectlCnt | gang | osclaim | osrel | mma | mmaH
  | mmas | mmab | accz | accld | accst | accmvRd | accmvWr
  deriving DecidableEq, Repr

/-- The control rows. -/
inductive CRow where
  | bra | bru | jmpi | call | calli | ret | unwind | spawn
  | join | bar | bara | barw | yield | exitLanes | nop | tilerel
  | launch | commit
  deriving DecidableEq, Repr

/-- The system rows. -/
inductive YRow where
  | trap | rth | syscall | rdsr | rdsrCyclo | wrsr | wrsrYdl | bkpt
  deriving DecidableEq, Repr

/-- The short-form rows. -/
inductive SRow where
  | iaddI32Short | isubI32Short | imulI32Short | iminI32Short | imaxI32Short | andShort | orShort | xorShort
  | andnShort | shlShort | shrShort | sarShort | leaShort | movShort | faddF32Short | faddF16x2Short
  | faddBf16x2Short | fsubF32Short | fmulF32Short | fmulF16x2Short | fmulBf16x2Short | fminF32Short | fmaxF32Short
  deriving DecidableEq, Repr

structure SForm where
  sop : BitVec 6
  row : LRow
  ty : Ty

/-- How an instruction is encoded. The enclave form carries funct3. -/
inductive Code where
  | long (r : LRow) (x : LArgs)
  | short (r : SRow) (x : SArgs)
  | control (r : CRow) (x : CArgs)
  | system (r : YRow) (x : YArgs)
  | enclave (funct3 : BitVec 3) (x : RArgs)
  | event
  deriving DecidableEq, Repr

/-- The form of each long row (04 R91 and the instruction chapters). -/
def LRow.form : LRow → LForm
  | .iadd => { op := 0x000, d := .dst wTy, a := .src wTy, b := .src wTy, c := .unused, types := [.i32, .z32, .i64, .z64, .i16x2, .z16x2, .i8x4, .z8x4], rm := .zero, modx := (mxBits 0x001), flag := false }
  | .isub => { op := 0x001, d := .dst wTy, a := .src wTy, b := .src wTy, c := .unused, types := [.i32, .z32, .i64, .z64, .i16x2, .z16x2, .i8x4, .z8x4], rm := .zero, modx := (mxBits 0x001), flag := false }
  | .imul => { op := 0x002, d := .dst wTy, a := .src wTy, b := .src wTy, c := .unused, types := [.i32, .z32, .i64, .z64, .i16x2, .z16x2], rm := .zero, modx := mxZero, flag := false }
  | .imulh => { op := 0x003, d := .dst wTy, a := .src wTy, b := .src wTy, c := .unused, types := [.i32, .z32, .i64, .z64], rm := .zero, modx := mxZero, flag := false }
  | .imad => { op := 0x004, d := .dst wTy, a := .src wTy, b := .src wTy, c := .src wTy, types := [.i32, .z32, .i64, .z64], rm := .zero, modx := mxZero, flag := false }
  | .imadw => { op := 0x005, d := .dst w2, a := .src w1, b := .src w1, c := .src w2, types := [.i32, .z32], rm := .zero, modx := mxZero, flag := false }
  | .ineg => { op := 0x006, d := .dst wTy, a := .src wTy, b := .unused, c := .unused, types := [.i32, .i64, .i16x2, .i8x4], rm := .zero, modx := (mxBits 0x001), flag := false }
  | .iabs => { op := 0x007, d := .dst wTy, a := .src wTy, b := .unused, c := .unused, types := [.i32, .i64, .i16x2, .i8x4], rm := .zero, modx := (mxBits 0x001), flag := false }
  | .imin => { op := 0x008, d := .dst wTy, a := .src wTy, b := .src wTy, c := .unused, types := [.i32, .z32, .i64, .z64, .i16x2, .z16x2, .i8x4, .z8x4], rm := .zero, modx := mxZero, flag := false }
  | .imax => { op := 0x009, d := .dst wTy, a := .src wTy, b := .src wTy, c := .unused, types := [.i32, .z32, .i64, .z64, .i16x2, .z16x2, .i8x4, .z8x4], rm := .zero, modx := mxZero, flag := false }
  | .andBits => { op := 0x00A, d := .dst wTy, a := .src wTy, b := .src wTy, c := .unused, types := [.b32, .z64], rm := .zero, modx := mxZero, flag := false }
  | .orBits => { op := 0x00B, d := .dst wTy, a := .src wTy, b := .src wTy, c := .unused, types := [.b32, .z64], rm := .zero, modx := mxZero, flag := false }
  | .xorBits => { op := 0x00C, d := .dst wTy, a := .src wTy, b := .src wTy, c := .unused, types := [.b32, .z64], rm := .zero, modx := mxZero, flag := false }
  | .andn => { op := 0x00D, d := .dst wTy, a := .src wTy, b := .src wTy, c := .unused, types := [.b32, .z64], rm := .zero, modx := mxZero, flag := false }
  | .notBits => { op := 0x00E, d := .dst wTy, a := .src wTy, b := .unused, c := .unused, types := [.b32, .z64], rm := .zero, modx := mxZero, flag := false }
  | .shl => { op := 0x00F, d := .dst wTy, a := .src wTy, b := .src w1, c := .unused, types := [.b32, .z64], rm := .zero, modx := mxZero, flag := false }
  | .shr => { op := 0x010, d := .dst wTy, a := .src wTy, b := .src w1, c := .unused, types := [.b32, .z64], rm := .zero, modx := mxZero, flag := false }
  | .sar => { op := 0x011, d := .dst wTy, a := .src wTy, b := .src w1, c := .unused, types := [.b32, .i64], rm := .zero, modx := mxZero, flag := false }
  | .rotl => { op := 0x012, d := .dst wTy, a := .src wTy, b := .src w1, c := .unused, types := [.b32, .z64], rm := .zero, modx := mxZero, flag := false }
  | .bfx => { op := 0x013, d := .dst wTy, a := .src wTy, b := .src wTy, c := .unused, types := [.i32, .z32], rm := .zero, modx := mxZero, flag := false }
  | .bfi => { op := 0x014, d := .dst wTy, a := .src wTy, b := .src wTy, c := .src wTy, types := [.b32], rm := .zero, modx := mxZero, flag := false }
  | .popc => { op := 0x015, d := .dst w1, a := .src wTy, b := .unused, c := .unused, types := [.b32, .z64], rm := .zero, modx := mxZero, flag := false }
  | .clz => { op := 0x016, d := .dst w1, a := .src wTy, b := .unused, c := .unused, types := [.b32, .z64], rm := .zero, modx := mxZero, flag := false }
  | .brev => { op := 0x017, d := .dst wTy, a := .src wTy, b := .unused, c := .unused, types := [.b32, .z64], rm := .zero, modx := mxZero, flag := false }
  | .lea => { op := 0x018, d := .dst wTy, a := .src wTy, b := .src w1, c := .unused, types := [.b32, .z64], rm := .zero, modx := mxLea, flag := false }
  | .mov => { op := 0x019, d := .dst wTy, a := .src wTy, b := .unused, c := .unused, types := [.b32, .z64], rm := .zero, modx := mxZero, flag := false }
  | .sel => { op := 0x01A, d := .dst wTy, a := .src wTy, b := .src wTy, c := .unused, types := [.b32, .z64], rm := .zero, modx := (mxBits 0x01F), flag := false }
  | .icmp => { op := 0x01B, d := .pred, a := .src wTy, b := .src wTy, c := .condI, types := [.i32, .z32, .i64, .z64], rm := .zero, modx := mxCmp, flag := false }
  | .fadd => { op := 0x020, d := .dst wTy, a := .src wTy, b := .src wTy, c := .unused, types := [.f32, .f64, .f16, .bf16, .f16x2, .bf16x2], rm := .all, modx := mxZero, flag := false }
  | .fsub => { op := 0x021, d := .dst wTy, a := .src wTy, b := .src wTy, c := .unused, types := [.f32, .f64, .f16, .bf16, .f16x2, .bf16x2], rm := .all, modx := mxZero, flag := false }
  | .fmul => { op := 0x022, d := .dst wTy, a := .src wTy, b := .src wTy, c := .unused, types := [.f32, .f64, .f16, .bf16, .f16x2, .bf16x2], rm := .all, modx := mxZero, flag := false }
  | .ffma => { op := 0x023, d := .dst wTy, a := .src wTy, b := .src wTy, c := .src wTy, types := [.f32, .f64, .f16, .bf16, .f16x2, .bf16x2], rm := .all, modx := mxZero, flag := false }
  | .fmin => { op := 0x024, d := .dst wTy, a := .src wTy, b := .src wTy, c := .unused, types := [.f32, .f64, .f16, .bf16, .f16x2, .bf16x2], rm := .zero, modx := mxZero, flag := false }
  | .fmax => { op := 0x025, d := .dst wTy, a := .src wTy, b := .src wTy, c := .unused, types := [.f32, .f64, .f16, .bf16, .f16x2, .bf16x2], rm := .zero, modx := mxZero, flag := false }
  | .fcmp => { op := 0x026, d := .pred, a := .src wTy, b := .src wTy, c := .condF, types := [.f32, .f64, .f16, .bf16], rm := .zero, modx := mxCmp, flag := false }
  | .fclass => { op := 0x027, d := .dst w1, a := .src wTy, b := .unused, c := .unused, types := [.f32, .f64, .f16, .bf16], rm := .zero, modx := mxZero, flag := false }
  | .frnd => { op := 0x028, d := .dst wTy, a := .src wTy, b := .unused, c := .unused, types := [.f32, .f64, .f16, .bf16, .f16x2, .bf16x2], rm := .all, modx := (mxBits 0x001), flag := false }
  | .fcvt => { op := 0x029, d := .dst wTy, a := .src fromW, b := .unused, c := .unused, types := [.f32, .f64, .f16, .bf16], rm := .all, modx := mxFcvt, flag := false }
  | .icvtf => { op := 0x02A, d := .dst wTy, a := .src fromW, b := .unused, c := .unused, types := [.f32, .f64, .f16, .bf16], rm := .all, modx := mxIcvtf, flag := false }
  | .fcvti => { op := 0x02B, d := .dst wTy, a := .src fromW, b := .unused, c := .unused, types := [.i32, .z32, .i64, .z64], rm := .all, modx := mxFcvti, flag := false }
  | .fdot2 => { op := 0x02C, d := .dst w1, a := .src w1, b := .src w1, c := .src w1, types := [.f16x2, .bf16x2], rm := .all, modx := mxZero, flag := false }
  | .fscale => { op := 0x02D, d := .dst wTy, a := .src wTy, b := .src w1, c := .unused, types := [.f32, .f64, .f16, .bf16], rm := .all, modx := mxZero, flag := false }
  | .cvtn => { op := 0x030, d := .dst w1, a := .src w1, b := .src w1, c := .srcIf w1 (fun m => m.getLsbD 9), types := [.f32], rm := .withEf, modx := mxCvtn, flag := false }
  | .cvtw => { op := 0x031, d := .dst w1, a := .src w1, b := .src w1, c := .unused, types := [.f32], rm := .all, modx := mxCvtw, flag := false }
  | .bscale => { op := 0x032, d := .dst w1, a := .src w1, b := .unused, c := .unused, types := [.f32], rm := .zero, modx := mxBscale, flag := false }
  | .pack => { op := 0x033, d := .dst w1, a := .src w1, b := .src w1, c := .unused, types := [], rm := .all, modx := mxPack, flag := false }
  | .packI4x => { op := 0x033, d := .dstV w1, a := .src w1, b := .uni w1, c := .unused, types := [], rm := .zero, modx := mxFmtI4x, flag := false }
  | .unpack => { op := 0x034, d := .dstV w1, a := .src w1, b := .unused, c := .unused, types := [], rm := .zero, modx := mxFmtI4x, flag := false }
  | .resrd => { op := 0x035, d := .dstV w1, a := .unused, b := .unused, c := .unused, types := [], rm := .zero, modx := (mxBits 0x1C0), flag := false }
  | .reswr => { op := 0x036, d := .unused, a := .src w1, b := .unused, c := .unused, types := [], rm := .zero, modx := (mxBits 0x1C0), flag := false }
  | .rcp => { op := 0x040, d := .dst wTy, a := .src wTy, b := .unused, c := .unused, types := [.f32, .f16, .bf16], rm := .zero, modx := mxZero, flag := true }
  | .rsq => { op := 0x041, d := .dst wTy, a := .src wTy, b := .unused, c := .unused, types := [.f32, .f16, .bf16], rm := .zero, modx := mxZero, flag := true }
  | .sqrt => { op := 0x042, d := .dst wTy, a := .src wTy, b := .unused, c := .unused, types := [.f32, .f64, .f16, .bf16], rm := .all, modx := mxZero, flag := true }
  | .fdiv => { op := 0x043, d := .dst wTy, a := .src wTy, b := .src wTy, c := .unused, types := [.f32, .f64, .f16, .bf16], rm := .all, modx := mxZero, flag := true }
  | .exp2 => { op := 0x044, d := .dst wTy, a := .src wTy, b := .unused, c := .unused, types := [.f32, .f16, .bf16], rm := .zero, modx := mxZero, flag := true }
  | .log2 => { op := 0x045, d := .dst wTy, a := .src wTy, b := .unused, c := .unused, types := [.f32, .f16, .bf16], rm := .zero, modx := mxZero, flag := true }
  | .sin => { op := 0x046, d := .dst wTy, a := .src wTy, b := .unused, c := .unused, types := [.f32, .f16, .bf16], rm := .zero, modx := mxZero, flag := true }
  | .cos => { op := 0x047, d := .dst wTy, a := .src wTy, b := .unused, c := .unused, types := [.f32, .f16, .bf16], rm := .zero, modx := mxZero, flag := true }
  | .tanh => { op := 0x048, d := .dst wTy, a := .src wTy, b := .unused, c := .unused, types := [.f32, .f16, .bf16], rm := .zero, modx := mxZero, flag := true }
  | .gori2 => { op := 0x050, d := .dstV w1, a := .run (geo 4), b := .run (geo 2), c := .unused, types := [.f32, .f64], rm := .zero, modx := (mxBits 0x003), flag := true }
  | .gori3 => { op := 0x051, d := .dstV w1, a := .run (geo 9), b := .run (geo 3), c := .unused, types := [.f32, .f64], rm := .zero, modx := (mxBits 0x003), flag := true }
  | .ginc => { op := 0x052, d := .dstV w1, a := .run (geo 6), b := .run (geo 2), c := .unused, types := [.f32, .f64], rm := .zero, modx := (mxBits 0x003), flag := true }
  | .gins => { op := 0x053, d := .dstV w1, a := .run (geo 12), b := .run (geo 3), c := .unused, types := [.f32, .f64], rm := .zero, modx := (mxBits 0x003), flag := true }
  | .gsegx => { op := 0x054, d := .dstV w1, a := .run (geo 4), b := .run (geo 4), c := .unused, types := [.f32, .f64], rm := .zero, modx := (mxBits 0x003), flag := true }
  | .plop => { op := 0x060, d := .pred, a := .pred, b := .pred, c := .pred, types := [], rm := .zero, modx := (mxBits 0x0FF), flag := false }
  | .pmovGet => { op := 0x061, d := .dstV w1, a := .unused, b := .unused, c := .unused, types := [], rm := .zero, modx := mxZero, flag := false }
  | .pmovSet => { op := 0x061, d := .unused, a := .src w1, b := .src w1, c := .unused, types := [], rm := .zero, modx := (mxIs 0x001), flag := false }
  | .pcnt => { op := 0x062, d := .dst w1, a := .pred, b := .unused, c := .unused, types := [], rm := .zero, modx := mxZero, flag := false }
  | .pmask => { op := 0x063, d := .dst w1, a := .pred, b := .unused, c := .unused, types := [], rm := .zero, modx := mxZero, flag := false }
  | .mpred => { op := 0x064, d := .pred, a := .src w1, b := .unused, c := .unused, types := [], rm := .zero, modx := (mxBits 0x01F), flag := false }
  | .peek => { op := 0x070, d := .dstV wTy, a := .src wTy, b := .src w1, c := .mask, types := [.b32, .z64], rm := .zero, modx := (mxBits 0x003), flag := true }
  | .vote => { op := 0x071, d := .pred, a := .pred, b := .unused, c := .mask, types := [], rm := .zero, modx := mxVote, flag := true }
  | .voteBal => { op := 0x071, d := .dst w1, a := .pred, b := .unused, c := .mask, types := [], rm := .zero, modx := (mxIs 0x003), flag := true }
  | .matchLanes => { op := 0x072, d := .dstV w1, a := .src wTy, b := .unused, c := .mask, types := [.b32, .z64], rm := .zero, modx := (mxBits 0x001), flag := true }
  | .redux => { op := 0x073, d := .dstV w1, a := .src w1, b := .unused, c := .mask, types := [.i32, .z32, .f32, .b32], rm := .all, modx := mxRedux, flag := true }
  | .scan => { op := 0x074, d := .dstV w1, a := .src w1, b := .unused, c := .mask, types := [.i32, .z32, .f32, .b32], rm := .all, modx := mxScan, flag := true }
  | .conv => { op := 0x075, d := .unused, a := .unused, b := .unused, c := .mask, types := [], rm := .zero, modx := mxZero, flag := false }
  | .ld => { op := 0x080, d := .dst sizeW, a := .src spaceW, b := .src w1, c := .unused, types := [], rm := .zero, modx := mxLd, flag := true }
  | .st => { op := 0x081, d := .unused, a := .src spaceW, b := .src w1, c := .src sizeW, types := [], rm := .zero, modx := mxSt, flag := false }
  | .ldc => { op := 0x082, d := .dst sizeW, a := .src w2, b := .src w1, c := .unused, types := [], rm := .zero, modx := mxLdc, flag := true }
  | .atom => { op := 0x083, d := .dst wTy, a := .src spaceW, b := .src wTy, c := .srcIf wTy (fun m => m.extractLsb' 2 3 == 7#3), types := [.i32, .z32, .i64, .z64, .f32, .b32], rm := .zero, modx := mxAtom, flag := true }
  | .red => { op := 0x084, d := .unused, a := .src spaceW, b := .src wTy, c := .unused, types := [.i32, .z32, .i64, .z64, .f32, .b32], rm := .zero, modx := mxRed, flag := false }
  | .fence => { op := 0x085, d := .unused, a := .unused, b := .unused, c := .unused, types := [], rm := .zero, modx := mxFence, flag := false }
  | .pfenceGen => { op := 0x086, d := .unused, a := .unused, b := .unused, c := .unused, types := [], rm := .zero, modx := mxZero, flag := false }
  | .pfenceConst => { op := 0x086, d := .unused, a := .unused, b := .unused, c := .unused, types := [], rm := .zero, modx := (mxIs 0x001), flag := false }
  | .pfenceTile => { op := 0x086, d := .unused, a := .unused, b := .unused, c := .unused, types := [], rm := .zero, modx := (mxIs 0x002), flag := false }
  | .pref => { op := 0x087, d := .unused, a := .src w2, b := .src w1, c := .unused, types := [], rm := .zero, modx := (mxBits 0x001), flag := false }
  | .cinv => { op := 0x088, d := .unused, a := .srcIf w2 (fun m => !m.getLsbD 1), b := .unused, c := .unused, types := [], rm := .zero, modx := (mxBits 0x003), flag := false }
  | .awset => { op := 0x089, d := .unused, a := .src w1, b := .src w1, c := .unused, types := [], rm := .zero, modx := mxZero, flag := false }
  | .awwait => { op := 0x08A, d := .dstV w1, a := .src w1, b := .src w1, c := .unused, types := [], rm := .zero, modx := mxZero, flag := true }
  | .awadd => { op := 0x08B, d := .unused, a := .src w1, b := .src w1, c := .unused, types := [], rm := .zero, modx := mxZero, flag := false }
  | .tidset => { op := 0x0A0, d := .unused, a := .uni w2, b := .uni w1, c := .unused, types := [], rm := .zero, modx := mxZero, flag := false }
  | .tidclr => { op := 0x0A1, d := .unused, a := .uni w1, b := .unused, c := .unused, types := [], rm := .zero, modx := mxZero, flag := false }
  | .tcopy => { op := 0x0A2, d := .unused, a := .uni w1, b := .uni w1, c := .block blkTcopy, types := [], rm := .zero, modx := mxTcopy, flag := false }
  | .gather => { op := 0x0A3, d := .unused, a := .uni w1, b := .uni w1, c := .block blkGather, types := [], rm := .zero, modx := (mxBits 0x006), flag := false }
  | .scatter => { op := 0x0A4, d := .unused, a := .uni w1, b := .uni w1, c := .block blkScatter, types := [], rm := .zero, modx := (mxBits 0x005), flag := false }
  | .stream => { op := 0x0A5, d := .unused, a := .uni w1, b := .uni w1, c := .block blkStream, types := [], rm := .zero, modx := (mxBits 0x00F), flag := false }
  | .collAllred => { op := 0x0A6, d := .unused, a := .uni w1, b := .uni w1, c := .block (fun _ => 2), types := [], rm := .zero, modx := (mxColl 0), flag := false }
  | .collRedsc => { op := 0x0A6, d := .unused, a := .uni w1, b := .uni w1, c := .block (fun _ => 2), types := [], rm := .zero, modx := (mxColl 1), flag := false }
  | .collAllga => { op := 0x0A6, d := .unused, a := .uni w1, b := .uni w1, c := .block (fun _ => 2), types := [], rm := .zero, modx := (mxColl 2), flag := false }
  | .collA2a => { op := 0x0A6, d := .unused, a := .uni w1, b := .uni w1, c := .block (fun _ => 2), types := [], rm := .zero, modx := (mxColl 3), flag := false }
  | .collBcast => { op := 0x0A6, d := .unused, a := .uni w1, b := .uni w1, c := .block (fun _ => 2), types := [], rm := .zero, modx := (mxColl 4), flag := false }
  | .waitc => { op := 0x0A7, d := .unused, a := .unused, b := .unused, c := .unused, types := [], rm := .zero, modx := (mxBits 0x0FF), flag := false }
  | .ectlStat => { op := 0x0A8, d := .dst w1, a := .unused, b := .unused, c := .unused, types := [], rm := .zero, modx := (mxEctl 0), flag := true }
  | .ectlClr => { op := 0x0A8, d := .dst w1, a := .unused, b := .unused, c := .unused, types := [], rm := .zero, modx := (mxEctl 1), flag := true }
  | .ectlCncl => { op := 0x0A8, d := .dst w1, a := .unused, b := .unused, c := .unused, types := [], rm := .zero, modx := (mxEctl 2), flag := true }
  | .ectlCnt => { op := 0x0A8, d := .dst w1, a := .unused, b := .unused, c := .unused, types := [], rm := .zero, modx := (mxEctl 3), flag := true }
  | .gang => { op := 0x0C0, d := .unused, a := .uni w1, b := .unused, c := .unused, types := [], rm := .zero, modx := mxZero, flag := false }
  | .osclaim => { op := 0x0C1, d := .pred, a := .uni w1, b := .unused, c := .unused, types := [], rm := .zero, modx := mxZero, flag := true }
  | .osrel => { op := 0x0C2, d := .unused, a := .uni w1, b := .unused, c := .unused, types := [], rm := .zero, modx := mxZero, flag := false }
  | .mma => { op := 0x0C3, d := .unused, a := .uni w1, b := .uni w1, c := .unused, types := [], rm := .zero, modx := mxMma, flag := false }
  | .mmaH => { op := 0x0C3, d := .unused, a := .uni w1, b := .uni w1, c := .uni w1, types := [], rm := .zero, modx := mxMmaH, flag := false }
  | .mmas => { op := 0x0C4, d := .unused, a := .uni w1, b := .uni w1, c := .unused, types := [], rm := .zero, modx := mxMmas, flag := false }
  | .mmab => { op := 0x0C5, d := .unused, a := .uni w1, b := .uni w1, c := .unused, types := [], rm := .zero, modx := mxMmab, flag := false }
  | .accz => { op := 0x0C6, d := .unused, a := .uni w1, b := .unused, c := .unused, types := [], rm := .zero, modx := mxZero, flag := false }
  | .accld => { op := 0x0C7, d := .unused, a := .uni w1, b := .uni w1, c := .block (fun _ => 5), types := [], rm := .zero, modx := (mxBits 0x001), flag := false }
  | .accst => { op := 0x0C8, d := .unused, a := .uni w1, b := .uni w1, c := .block (fun _ => 6), types := [], rm := .all, modx := (mxBits 0x007), flag := false }
  | .accmvRd => { op := 0x0C9, d := .runV accW, a := .uni w1, b := .unused, c := .unused, types := [], rm := .zero, modx := (mxBits 0x007), flag := true }
  | .accmvWr => { op := 0x0C9, d := .unused, a := .uni w1, b := .runV accW, c := .unused, types := [], rm := .zero, modx := mxAccWr, flag := false }

/-- The form of each control row (03 R78, 08 R184). -/
def CRow.form : CRow → CForm
  | .bra => { op := 0x100, d := .unused, a := .unused, b := .unused, dem := false, ofs := .target }
  | .bru => { op := 0x101, d := .unused, a := .unused, b := .unused, dem := false, ofs := .target }
  | .jmpi => { op := 0x102, d := .unused, a := .src w2, b := .unused, dem := false, ofs := .none }
  | .call => { op := 0x103, d := .unused, a := .unused, b := .unused, dem := true, ofs := .target }
  | .calli => { op := 0x104, d := .unused, a := .src w2, b := .unused, dem := true, ofs := .none }
  | .ret => { op := 0x105, d := .unused, a := .unused, b := .unused, dem := false, ofs := .none }
  | .unwind => { op := 0x106, d := .unused, a := .uni w1, b := .unused, dem := false, ofs := .none }
  | .spawn => { op := 0x107, d := .dst w1, a := .src w2, b := .src w1, dem := false, ofs := .target }
  | .join => { op := 0x108, d := .unused, a := .src w1, b := .unused, dem := false, ofs := .none }
  | .bar => { op := 0x109, d := .unused, a := .uni w1, b := .unused, dem := false, ofs := .barrier }
  | .bara => { op := 0x10A, d := .unused, a := .uni w1, b := .unused, dem := false, ofs := .barrier }
  | .barw => { op := 0x10B, d := .unused, a := .unused, b := .unused, dem := false, ofs := .barrier }
  | .yield => { op := 0x10C, d := .unused, a := .unused, b := .unused, dem := false, ofs := .none }
  | .exitLanes => { op := 0x10D, d := .unused, a := .unused, b := .unused, dem := false, ofs := .none }
  | .nop => { op := 0x10E, d := .unused, a := .unused, b := .unused, dem := false, ofs := .none }
  | .tilerel => { op := 0x10F, d := .unused, a := .uni w1, b := .unused, dem := false, ofs := .none }
  | .launch => { op := 0x110, d := .unused, a := .uni w2, b := .uni w1, dem := false, ofs := .none }
  | .commit => { op := 0x111, d := .unused, a := .unused, b := .unused, dem := false, ofs := .none }

/-- The form of each system row (03 R81, 11 R264). -/
def YRow.form : YRow → YForm
  | .trap => { op := 0x140, d := .unused, a := .src w1, b := .unused }
  | .rth => { op := 0x141, d := .unused, a := .unused, b := .unused }
  | .syscall => { op := 0x142, d := .dst w1, a := .uni w1, b := .uni w1 }
  | .rdsr => { op := 0x143, d := .dst srW, a := .unused, b := .unused }
  | .rdsrCyclo => { op := 0x143, d := .dst w1, a := .unused, b := .unused }
  | .wrsr => { op := 0x144, d := .unused, a := .src srW, b := .unused }
  | .wrsrYdl => { op := 0x144, d := .unused, a := .uni w1, b := .unused }
  | .bkpt => { op := 0x145, d := .unused, a := .unused, b := .unused }

/-- Short opcode, long row and type of each short row (04 R93). -/
def SRow.form : SRow → SForm
  | .iaddI32Short => { sop := 0x00, row := .iadd, ty := .i32 }
  | .isubI32Short => { sop := 0x01, row := .isub, ty := .i32 }
  | .imulI32Short => { sop := 0x02, row := .imul, ty := .i32 }
  | .iminI32Short => { sop := 0x0A, row := .imin, ty := .i32 }
  | .imaxI32Short => { sop := 0x0B, row := .imax, ty := .i32 }
  | .andShort => { sop := 0x03, row := .andBits, ty := .b32 }
  | .orShort => { sop := 0x04, row := .orBits, ty := .b32 }
  | .xorShort => { sop := 0x05, row := .xorBits, ty := .b32 }
  | .andnShort => { sop := 0x06, row := .andn, ty := .b32 }
  | .shlShort => { sop := 0x07, row := .shl, ty := .b32 }
  | .shrShort => { sop := 0x08, row := .shr, ty := .b32 }
  | .sarShort => { sop := 0x09, row := .sar, ty := .b32 }
  | .leaShort => { sop := 0x16, row := .lea, ty := .b32 }
  | .movShort => { sop := 0x0C, row := .mov, ty := .b32 }
  | .faddF32Short => { sop := 0x0D, row := .fadd, ty := .f32 }
  | .faddF16x2Short => { sop := 0x12, row := .fadd, ty := .f16x2 }
  | .faddBf16x2Short => { sop := 0x14, row := .fadd, ty := .bf16x2 }
  | .fsubF32Short => { sop := 0x0E, row := .fsub, ty := .f32 }
  | .fmulF32Short => { sop := 0x0F, row := .fmul, ty := .f32 }
  | .fmulF16x2Short => { sop := 0x13, row := .fmul, ty := .f16x2 }
  | .fmulBf16x2Short => { sop := 0x15, row := .fmul, ty := .bf16x2 }
  | .fminF32Short => { sop := 0x10, row := .fmin, ty := .f32 }
  | .fmaxF32Short => { sop := 0x11, row := .fmax, ty := .f32 }

/-- The instruction a long row and its arguments stand for. -/
def LRow.instr (r : LRow) (x : LArgs) : Instr :=
  match r with
  | .iadd => .iadd x
  | .isub => .isub x
  | .imul => .imul x
  | .imulh => .imulh x
  | .imad => .imad x
  | .imadw => .imadw x
  | .ineg => .ineg x
  | .iabs => .iabs x
  | .imin => .imin x
  | .imax => .imax x
  | .andBits => .andBits x
  | .orBits => .orBits x
  | .xorBits => .xorBits x
  | .andn => .andn x
  | .notBits => .notBits x
  | .shl => .shl x
  | .shr => .shr x
  | .sar => .sar x
  | .rotl => .rotl x
  | .bfx => .bfx x
  | .bfi => .bfi x
  | .popc => .popc x
  | .clz => .clz x
  | .brev => .brev x
  | .lea => .lea x
  | .mov => .mov x
  | .sel => .sel x
  | .icmp => .icmp x
  | .fadd => .fadd x
  | .fsub => .fsub x
  | .fmul => .fmul x
  | .ffma => .ffma x
  | .fmin => .fmin x
  | .fmax => .fmax x
  | .fcmp => .fcmp x
  | .fclass => .fclass x
  | .frnd => .frnd x
  | .fcvt => .fcvt x
  | .icvtf => .icvtf x
  | .fcvti => .fcvti x
  | .fdot2 => .fdot2 x
  | .fscale => .fscale x
  | .cvtn => .cvtn x
  | .cvtw => .cvtw x
  | .bscale => .bscale x
  | .pack => .pack x
  | .packI4x => .packI4x x
  | .unpack => .unpack x
  | .resrd => .resrd x
  | .reswr => .reswr x
  | .rcp => .rcp x
  | .rsq => .rsq x
  | .sqrt => .sqrt x
  | .fdiv => .fdiv x
  | .exp2 => .exp2 x
  | .log2 => .log2 x
  | .sin => .sin x
  | .cos => .cos x
  | .tanh => .tanh x
  | .gori2 => .gori2 x
  | .gori3 => .gori3 x
  | .ginc => .ginc x
  | .gins => .gins x
  | .gsegx => .gsegx x
  | .plop => .plop x
  | .pmovGet => .pmovGet x
  | .pmovSet => .pmovSet x
  | .pcnt => .pcnt x
  | .pmask => .pmask x
  | .mpred => .mpred x
  | .peek => .peek x
  | .vote => .vote x
  | .voteBal => .voteBal x
  | .matchLanes => .matchLanes x
  | .redux => .redux x
  | .scan => .scan x
  | .conv => .conv x
  | .ld => .ld x
  | .st => .st x
  | .ldc => .ldc x
  | .atom => .atom x
  | .red => .red x
  | .fence => .fence x
  | .pfenceGen => .pfenceGen x
  | .pfenceConst => .pfenceConst x
  | .pfenceTile => .pfenceTile x
  | .pref => .pref x
  | .cinv => .cinv x
  | .awset => .awset x
  | .awwait => .awwait x
  | .awadd => .awadd x
  | .tidset => .tidset x
  | .tidclr => .tidclr x
  | .tcopy => .tcopy x
  | .gather => .gather x
  | .scatter => .scatter x
  | .stream => .stream x
  | .collAllred => .collAllred x
  | .collRedsc => .collRedsc x
  | .collAllga => .collAllga x
  | .collA2a => .collA2a x
  | .collBcast => .collBcast x
  | .waitc => .waitc x
  | .ectlStat => .ectlStat x
  | .ectlClr => .ectlClr x
  | .ectlCncl => .ectlCncl x
  | .ectlCnt => .ectlCnt x
  | .gang => .gang x
  | .osclaim => .osclaim x
  | .osrel => .osrel x
  | .mma => .mma x
  | .mmaH => .mmaH x
  | .mmas => .mmas x
  | .mmab => .mmab x
  | .accz => .accz x
  | .accld => .accld x
  | .accst => .accst x
  | .accmvRd => .accmvRd x
  | .accmvWr => .accmvWr x

def CRow.instr (r : CRow) (x : CArgs) : Instr :=
  match r with
  | .bra => .bra x
  | .bru => .bru x
  | .jmpi => .jmpi x
  | .call => .call x
  | .calli => .calli x
  | .ret => .ret x
  | .unwind => .unwind x
  | .spawn => .spawn x
  | .join => .join x
  | .bar => .bar x
  | .bara => .bara x
  | .barw => .barw x
  | .yield => .yield x
  | .exitLanes => .exitLanes x
  | .nop => .nop x
  | .tilerel => .tilerel x
  | .launch => .launch x
  | .commit => .commit x

def YRow.instr (r : YRow) (x : YArgs) : Instr :=
  match r with
  | .trap => .trap x
  | .rth => .rth x
  | .syscall => .syscall x
  | .rdsr => .rdsr x
  | .rdsrCyclo => .rdsrCyclo x
  | .wrsr => .wrsr x
  | .wrsrYdl => .wrsrYdl x
  | .bkpt => .bkpt x

def SRow.instr (r : SRow) (x : SArgs) : Instr :=
  match r with
  | .iaddI32Short => .iaddI32Short x
  | .isubI32Short => .isubI32Short x
  | .imulI32Short => .imulI32Short x
  | .iminI32Short => .iminI32Short x
  | .imaxI32Short => .imaxI32Short x
  | .andShort => .andShort x
  | .orShort => .orShort x
  | .xorShort => .xorShort x
  | .andnShort => .andnShort x
  | .shlShort => .shlShort x
  | .shrShort => .shrShort x
  | .sarShort => .sarShort x
  | .leaShort => .leaShort x
  | .movShort => .movShort x
  | .faddF32Short => .faddF32Short x
  | .faddF16x2Short => .faddF16x2Short x
  | .faddBf16x2Short => .faddBf16x2Short x
  | .fsubF32Short => .fsubF32Short x
  | .fmulF32Short => .fmulF32Short x
  | .fmulF16x2Short => .fmulF16x2Short x
  | .fmulBf16x2Short => .fmulBf16x2Short x
  | .fminF32Short => .fminF32Short x
  | .fmaxF32Short => .fmaxF32Short x

/-- How an instruction is encoded: which row of which format, or an event, which has no words. -/
def Instr.code : Instr → Code
  | .clauseIssue _ _ => .event
  | .pcGroupPromotion _ _ => .event
  | .iadd x => .long .iadd x
  | .iaddI32Short x => .short .iaddI32Short x
  | .isub x => .long .isub x
  | .isubI32Short x => .short .isubI32Short x
  | .imul x => .long .imul x
  | .imulI32Short x => .short .imulI32Short x
  | .imulh x => .long .imulh x
  | .imad x => .long .imad x
  | .imadw x => .long .imadw x
  | .ineg x => .long .ineg x
  | .iabs x => .long .iabs x
  | .imin x => .long .imin x
  | .iminI32Short x => .short .iminI32Short x
  | .imax x => .long .imax x
  | .imaxI32Short x => .short .imaxI32Short x
  | .andBits x => .long .andBits x
  | .andShort x => .short .andShort x
  | .orBits x => .long .orBits x
  | .orShort x => .short .orShort x
  | .xorBits x => .long .xorBits x
  | .xorShort x => .short .xorShort x
  | .andn x => .long .andn x
  | .andnShort x => .short .andnShort x
  | .notBits x => .long .notBits x
  | .shl x => .long .shl x
  | .shlShort x => .short .shlShort x
  | .shr x => .long .shr x
  | .shrShort x => .short .shrShort x
  | .sar x => .long .sar x
  | .sarShort x => .short .sarShort x
  | .rotl x => .long .rotl x
  | .bfx x => .long .bfx x
  | .bfi x => .long .bfi x
  | .popc x => .long .popc x
  | .clz x => .long .clz x
  | .brev x => .long .brev x
  | .lea x => .long .lea x
  | .leaShort x => .short .leaShort x
  | .mov x => .long .mov x
  | .movShort x => .short .movShort x
  | .sel x => .long .sel x
  | .icmp x => .long .icmp x
  | .fadd x => .long .fadd x
  | .faddF32Short x => .short .faddF32Short x
  | .faddF16x2Short x => .short .faddF16x2Short x
  | .faddBf16x2Short x => .short .faddBf16x2Short x
  | .fsub x => .long .fsub x
  | .fsubF32Short x => .short .fsubF32Short x
  | .fmul x => .long .fmul x
  | .fmulF32Short x => .short .fmulF32Short x
  | .fmulF16x2Short x => .short .fmulF16x2Short x
  | .fmulBf16x2Short x => .short .fmulBf16x2Short x
  | .ffma x => .long .ffma x
  | .fmin x => .long .fmin x
  | .fminF32Short x => .short .fminF32Short x
  | .fmax x => .long .fmax x
  | .fmaxF32Short x => .short .fmaxF32Short x
  | .fcmp x => .long .fcmp x
  | .fclass x => .long .fclass x
  | .frnd x => .long .frnd x
  | .fcvt x => .long .fcvt x
  | .icvtf x => .long .icvtf x
  | .fcvti x => .long .fcvti x
  | .fdot2 x => .long .fdot2 x
  | .fscale x => .long .fscale x
  | .cvtn x => .long .cvtn x
  | .cvtw x => .long .cvtw x
  | .bscale x => .long .bscale x
  | .pack x => .long .pack x
  | .packI4x x => .long .packI4x x
  | .unpack x => .long .unpack x
  | .resrd x => .long .resrd x
  | .reswr x => .long .reswr x
  | .rcp x => .long .rcp x
  | .rsq x => .long .rsq x
  | .sqrt x => .long .sqrt x
  | .fdiv x => .long .fdiv x
  | .exp2 x => .long .exp2 x
  | .log2 x => .long .log2 x
  | .sin x => .long .sin x
  | .cos x => .long .cos x
  | .tanh x => .long .tanh x
  | .gori2 x => .long .gori2 x
  | .gori3 x => .long .gori3 x
  | .ginc x => .long .ginc x
  | .gins x => .long .gins x
  | .gsegx x => .long .gsegx x
  | .geomEscalationComplete _ => .event
  | .plop x => .long .plop x
  | .pmovGet x => .long .pmovGet x
  | .pmovSet x => .long .pmovSet x
  | .pcnt x => .long .pcnt x
  | .pmask x => .long .pmask x
  | .mpred x => .long .mpred x
  | .peek x => .long .peek x
  | .vote x => .long .vote x
  | .voteBal x => .long .voteBal x
  | .matchLanes x => .long .matchLanes x
  | .redux x => .long .redux x
  | .scan x => .long .scan x
  | .conv x => .long .conv x
  | .rendezvousResultWrite _ _ => .event
  | .bra x => .control .bra x
  | .bru x => .control .bru x
  | .jmpi x => .control .jmpi x
  | .call x => .control .call x
  | .calli x => .control .calli x
  | .ret x => .control .ret x
  | .unwind x => .control .unwind x
  | .spawn x => .control .spawn x
  | .join x => .control .join x
  | .bar x => .control .bar x
  | .bara x => .control .bara x
  | .barw x => .control .barw x
  | .yield x => .control .yield x
  | .exitLanes x => .control .exitLanes x
  | .nop x => .control .nop x
  | .tilerel x => .control .tilerel x
  | .launch x => .control .launch x
  | .commit x => .control .commit x
  | .ld x => .long .ld x
  | .st x => .long .st x
  | .ldc x => .long .ldc x
  | .atom x => .long .atom x
  | .red x => .long .red x
  | .fence x => .long .fence x
  | .pfenceGen x => .long .pfenceGen x
  | .pfenceConst x => .long .pfenceConst x
  | .pfenceTile x => .long .pfenceTile x
  | .pref x => .long .pref x
  | .cinv x => .long .cinv x
  | .awset x => .long .awset x
  | .awwait x => .long .awwait x
  | .awadd x => .long .awadd x
  | .awwaitReturn _ _ => .event
  | .postedWriteApply _ _ => .event
  | .tidset x => .long .tidset x
  | .tidclr x => .long .tidclr x
  | .tcopy x => .long .tcopy x
  | .gather x => .long .gather x
  | .scatter x => .long .scatter x
  | .stream x => .long .stream x
  | .collAllred x => .long .collAllred x
  | .collRedsc x => .long .collRedsc x
  | .collAllga x => .long .collAllga x
  | .collA2a x => .long .collA2a x
  | .collBcast x => .long .collBcast x
  | .waitc x => .long .waitc x
  | .ectlStat x => .long .ectlStat x
  | .ectlClr x => .long .ectlClr x
  | .ectlCncl x => .long .ectlCncl x
  | .ectlCnt x => .long .ectlCnt x
  | .engineUnitComplete _ _ _ => .event
  | .engineOperationComplete _ _ _ => .event
  | .gang x => .long .gang x
  | .osclaim x => .long .osclaim x
  | .osrel x => .long .osrel x
  | .mma x => .long .mma x
  | .mmaH x => .long .mmaH x
  | .mmas x => .long .mmas x
  | .mmab x => .long .mmab x
  | .accz x => .long .accz x
  | .accld x => .long .accld x
  | .accst x => .long .accst x
  | .accmvRd x => .long .accmvRd x
  | .accmvWr x => .long .accmvWr x
  | .trap x => .system .trap x
  | .rth x => .system .rth x
  | .syscall x => .system .syscall x
  | .syscallResult _ _ _ => .event
  | .rdsr x => .system .rdsr x
  | .rdsrCyclo x => .system .rdsrCyclo x
  | .wrsr x => .system .wrsr x
  | .wrsrYdl x => .system .wrsrYdl x
  | .bkpt x => .system .bkpt x
  | .causeDelivery _ => .event
  | .handlerTimeout _ => .event
  | .frameGrant _ => .event
  | .refillComplete _ => .event
  | .escapeSpillStart _ => .event
  | .escapeSpillFrameDone _ => .event
  | .flueDrainComplete _ => .event
  | .flueRecall _ _ _ => .event
  | .sliceEnd _ => .event
  | .yieldDeadlineExpiry _ => .event
  | .slotPreemption _ => .event
  | .wholeGroupSwitchOut _ _ => .event
  | .stovePop _ => .event
  | .affinityLapse _ _ _ => .event
  | .gridRecordFormation _ _ => .event
  | .kernelTake _ _ => .event
  | .kernelStart _ _ => .event
  | .kernelRetire _ _ => .event
  | .kick _ _ _ => .event
  | .queueReset _ _ _ => .event
  | .kickPageIgnoredWrite _ _ _ _ _ => .event
  | .queueBind _ _ => .event
  | .queueUnbind _ _ => .event
  | .watchdogExpiry _ _ => .event
  | .grant _ _ => .event
  | .encnew x => .enclave 0 x
  | .encin x => .enclave 1 x
  | .encout x => .enclave 2 x
  | .encsealSeal x => .enclave 3 x
  | .encsealUnseal x => .enclave 3 x
  | .encsealDestroy x => .enclave 3 x
  | .threadHostInterrupt _ => .event
  | .networkTagFailure _ => .event
  | .mapPage _ => .event
  | .unmap _ => .event
  | .protect _ => .event
  | .freePage _ => .event
  | .sharePage _ => .event
  | .unshare _ => .event
  | .attach _ => .event
  | .walk _ => .event
  | .demandZeroFill _ _ _ => .event
  | .pageMigration _ _ _ => .event
  | .pageout _ _ => .event
  | .pagein _ _ => .event
  | .hostWrite _ _ => .event
  | .hostRead _ _ => .event
  | .deviceDma _ _ _ => .event
  | .tdispBind _ _ _ _ _ => .event
  | .flitReceive _ _ => .event
  | .keyUpdate _ _ => .event
  | .keyingComplete _ _ _ => .event
  | .keyingTimeout _ _ => .event
  | .keyingRetry _ _ => .event
  | .peerReset _ _ => .event
  | .readmit _ _ _ _ => .event
  | .getVersion _ => .event
  | .getCapabilities _ _ => .event
  | .negotiateAlgorithms _ _ => .event
  | .getDigests _ => .event
  | .getCertificate _ _ _ => .event
  | .challenge _ _ _ => .event
  | .getMeasurements _ _ => .event
  | .keyExchange _ _ => .event
  | .finish _ _ => .event
  | .keyUpdateRequest _ => .event
  | .endSession _ => .event
  | .pmuForward _ => .event
  | .formPartition _ _ => .event
  | .partitionTestComplete _ _ => .event
  | .drainPartition _ => .event
  | .drainComplete _ => .event
  | .resetComplete _ _ => .event
  | .setclk _ _ _ => .event
  | .powerExcessPredicted => .event
  | .powerRecoveryStep => .event
  | .junctionOvertemp _ => .event
  | .thermalReturnStep _ => .event
  | .thermalTrip => .event
  | .packageReset => .event
  | .stageComplete _ => .event
  | .stageTimeout _ => .event
  | .heartbeatTimeout => .event
  | .serviceMachineCheck => .event
  | .recover => .event
  | .lockstepMismatch => .event
  | .recoveryTimeout => .event
  | .firmwareLoad _ => .event
  | .testmode _ => .event
  | .instructionComplete _ _ => .event
  | .applicationCoreAccess _ _ => .event
  | .threadFault _ => .event
  | .hearthVoltageSettled _ => .event
  | .cidPurgeComplete _ => .event

/-! ### The checks -/

/-- A list of checks, each a condition and the fault it names: the first condition that fails names the fault. -/
def firstFault : List (Bool × DecodeError) → Option DecodeError
  | [] => none
  | (ok, e) :: rest => if ok then firstFault rest else some e

/-- X and the 0x7F specifiers agree (03 R60): a literal word is given exactly when a source names it. -/
def litOk (srcs : List (Kind × Opnd)) (lit : Option Word) : Bool :=
  (srcs.any fun p => p.1.isSource && p.2 == .lit) == lit.isSome

/-- A scalar destination has no per-lane source (03 R64). -/
def scalarOk (dk : Kind) (d : Opnd) (srcs : List (Kind × Opnd)) : Bool :=
  !(dk.isDest && (match d with | .s _ => true | _ => false)) || !(srcs.any fun p => p.1.isSource && p.2.perLane)

/-- The second predicate of a two-predicate row, where it has one, differs from the first unless it is p0. -/
def predsOk (r : LRow) (x : LArgs) : Bool :=
  match r with
  | .icmp => x.d != .pred (x.modx.extractLsb' 0 5) || x.d == .pred 0
  | .fcmp => x.d != .pred (x.modx.extractLsb' 0 5) || x.d == .pred 0
  | .mpred => x.d != .pred (x.modx.extractLsb' 0 5) || x.d == .pred 0
  | _ => true

/-- Rows that need one more look: a residue of CVTN is per lane, so RM = EF takes no scalar D (07 R152, R157); ATOM
selects a flag only when it returns a value (03 R71). -/
def extraOk (r : LRow) (x : LArgs) : Bool :=
  match r with
  | .cvtn => !(x.rm == .ef && (match x.d with | .s _ => true | _ => false))
  | .atom => !(x.d == .zero && x.f != .none)
  | _ => true

/-- The first fault of a long instruction, word 0 before word 1 (04 R94). -/
def LRow.check (r : LRow) (x : LArgs) : Option DecodeError :=
  let f := r.form
  let srcs := [(f.a, x.a), (f.b, x.b), (f.c, x.c)]
  firstFault [
    (f.d.ok x.ty x.modx x.d, .operand .d),
    (f.a.ok x.ty x.modx x.a, .operand .a),
    (litOk srcs x.lit, .literalPairing),
    (x.f == .none || f.flag, .flagNotAllowed),
    (scalarOk f.d x.d srcs, .scalarDest),
    (predsOk r x, .samePredicate),
    (extraOk r x, .operand .d),
    (f.b.ok x.ty x.modx x.b, .operand .b),
    (f.c.ok x.ty x.modx x.c, .operand .c),
    (if f.types.isEmpty then x.ty == .b32 else f.types.contains x.ty, .badTy),
    (f.rm.ok x.rm, .badRm),
    (f.modx x.ty x.rm x.modx, .badModx)]

/-- The long form that a short form stands for (03 R58): RM = RNE, C = 0x71, MODX = 0, F = 00, X = 0. -/
def SRow.toLong (r : SRow) (x : SArgs) : LArgs :=
  { guard := x.guard, d := x.d, a := x.a, b := x.b, c := .zero, f := .none, ty := r.form.ty, rm := .rne, modx := 0, lit := none }

/-- A short instruction is checked as its long form; its guard lies in p0-p7 (03 R57). The one fault of a literal
specifier is R60's. -/
def SRow.check (r : SRow) (x : SArgs) : Option DecodeError := r.form.row.check (r.toLong x)

def CRow.check (r : CRow) (x : CArgs) : Option DecodeError :=
  let f := r.form
  let srcs := [(f.a, x.a), (f.b, x.b)]
  firstFault [
    (f.d.ok .b32 0 x.d, .operand .d),
    (f.a.ok .b32 0 x.a, .operand .a),
    (litOk srcs x.lit, .literalPairing),
    (scalarOk f.d x.d srcs, .scalarDest),
    (f.b.ok .b32 0 x.b, .operand .b),
    (f.dem || x.dem == 0#3, .badControl),
    (match f.ofs with | .none => x.ofs == 0#22 | .target => true | .barrier => x.ofs.toNat < 16, .badControl)]

/-- IDX of a system row (03 R81, 11 R264, R269). -/
def YRow.idxOk (r : YRow) (idx : BitVec 16) : Bool :=
  match r with
  | .trap => idx.toNat < 256
  | .rth => idx == 0
  | .syscall => true
  | .rdsr => srNamed idx && idx != 0x11#16
  | .rdsrCyclo => idx == 0x11#16
  | .wrsr => srNamed idx && idx != 0x15#16
  | .wrsrYdl => idx == 0x15#16
  | .bkpt => idx.toNat < 256

/-- RDSR of a Lane register takes no scalar D; WRSR of a Flue register takes a uniform A (11 R270). -/
def YRow.srOk (r : YRow) (x : YArgs) : Bool :=
  match r with
  | .rdsr => !(srLane x.idx && (match x.d with | .s _ => true | _ => false))
  | .wrsr => srLane x.idx || !srNamed x.idx || (match x.a with | .s _ | .zero | .one | .lit => true | _ => false)
  | _ => true

def YRow.check (r : YRow) (x : YArgs) : Option DecodeError :=
  let f := r.form
  let m := srModx x.idx
  let srcs := [(f.a, x.a), (f.b, x.b)]
  firstFault [
    (f.d.ok .b32 m x.d, .operand .d),
    (f.a.ok .b32 m x.a, .operand .a),
    (r.srOk x, if r = .rdsr then .operand .d else .operand .a),
    (litOk srcs x.lit, .literalPairing),
    (scalarOk f.d x.d srcs, .scalarDest),
    (f.b.ok .b32 m x.b, .operand .b),
    (r.idxOk x.idx, .badSystem)]

/-- The zero fields of an enclave instruction (14 R333). -/
def enclaveOk (funct3 : BitVec 3) (x : RArgs) : Bool :=
  match funct3 with
  | 0#3 => x.rs2 == 0
  | 1#3 => true
  | 2#3 => x.rd == 0 && x.rs2 == 0
  | 3#3 => true
  | _ => false

/-- An instruction that the hardware's encodings can hold and that the decode of 03 R56 does not refuse. Event rows have
no encoding; every one of them is well formed. -/
def Instr.wf (i : Instr) : Bool :=
  match i.code with
  | .long r x => (r.check x).isNone
  | .short r x => (r.check x).isNone && x.guard.p.toNat < 8
  | .control r x => (r.check x).isNone
  | .system r x => (r.check x).isNone
  | .enclave f x => enclaveOk f x
  | .event => true

end Sys2Proof
end

