-- ==== Sys2Proof/Decode.lean ====
section
/-! DEFINITION. From words to instructions and back (03 R57-R63, R67, R68, R77-R81, 04 R90-R95, 14 R333). `decodeWords`
is total: it gives the instruction and the words that follow it, or the name of the fault. `encode` writes the words of
a well-formed instruction from the same tables. -/

namespace Sys2Proof

/-! ### Fields -/

/-- The operand that a 7-bit specifier names (03 R62); 0x75-0x7E name none. -/
def opndOf (x : BitVec 7) : Option Opnd :=
  if x.toNat < 0x40 then some (.v (x.setWidth 6))
  else if x.toNat < 0x50 then some (.o (x.setWidth 4))
  else if x.toNat < 0x70 then some (.s ((x - 0x50#7).setWidth 5))
  else match x with
    | 0x70#7 => some .latch
    | 0x71#7 => some .zero
    | 0x72#7 => some .one
    | 0x73#7 => some .lane
    | 0x74#7 => some .flue
    | 0x7F#7 => some .lit
    | _ => none

/-- The condition that a C field names (06 R136). -/
def condOf (x : BitVec 7) : Option Cond :=
  match x with
  | 0x00#7 => some .eq | 0x01#7 => some .ne | 0x02#7 => some .lt | 0x03#7 => some .le | 0x04#7 => some .gt
  | 0x05#7 => some .ge | 0x06#7 => some .ord | 0x07#7 => some .uno | 0x08#7 => some .qlt | 0x09#7 => some .qle
  | 0x0A#7 => some .qgt | 0x0B#7 => some .qge | _ => none

/-- The code of a condition (06 R136). -/
def Cond.enc : Cond → BitVec 7
  | .eq => 0x00 | .ne => 0x01 | .lt => 0x02 | .le => 0x03 | .gt => 0x04 | .ge => 0x05 | .ord => 0x06 | .uno => 0x07
  | .qlt => 0x08 | .qle => 0x09 | .qgt => 0x0A | .qge => 0x0B

/-- The 7-bit field of an operand (03 R62, R63). -/
def Opnd.enc : Opnd → BitVec 7
  | .v n => n.setWidth 7
  | .o n => 0x40#7 ||| n.setWidth 7
  | .s n => 0x50#7 + n.setWidth 7
  | .latch => 0x70
  | .zero => 0x71
  | .one => 0x72
  | .lane => 0x73
  | .flue => 0x74
  | .lit => 0x7F
  | .pred n => n.setWidth 7
  | .cond c => c.enc

/-- What a field of the kind reads (03 R62, R63, 06 R136). -/
def Kind.dec (k : Kind) (x : BitVec 7) : Option Opnd :=
  match k with
  | .pred => if x.toNat < 32 then some (.pred (x.setWidth 5)) else none
  | .condI => (condOf x).map .cond
  | .condF => (condOf x).map .cond
  | _ => opndOf x

/-- RM (03 R68). -/
def rmOf (x : BitVec 3) : Option Rm :=
  match x with
  | 0#3 => some .rne | 1#3 => some .rtz | 2#3 => some .rup | 3#3 => some .rdn | 4#3 => some .rna | 5#3 => some .ef
  | 6#3 => some .dyn | _ => none

def Rm.enc : Rm → BitVec 3
  | .rne => 0 | .rtz => 1 | .rup => 2 | .rdn => 3 | .rna => 4 | .ef => 5 | .dyn => 6

/-- F (03 R59). -/
def fselOf (x : BitVec 2) : Option FSel :=
  match x with
  | 0#2 => some .none | 1#2 => some .a | 2#2 => some .b | _ => none

def FSel.enc : FSel → BitVec 2
  | .none => 0 | .a => 1 | .b => 2

/-! ### Opcode tables -/

/-- The long row of an opcode; rows that share one are told apart by MODX (04 R91 and the chapters). -/
def LRow.ofOp (op : BitVec 9) (m : BitVec 11) : Option LRow :=
  match op with
  | 0x000#9 => some .iadd
  | 0x001#9 => some .isub
  | 0x002#9 => some .imul
  | 0x003#9 => some .imulh
  | 0x004#9 => some .imad
  | 0x005#9 => some .imadw
  | 0x006#9 => some .ineg
  | 0x007#9 => some .iabs
  | 0x008#9 => some .imin
  | 0x009#9 => some .imax
  | 0x00A#9 => some .andBits
  | 0x00B#9 => some .orBits
  | 0x00C#9 => some .xorBits
  | 0x00D#9 => some .andn
  | 0x00E#9 => some .notBits
  | 0x00F#9 => some .shl
  | 0x010#9 => some .shr
  | 0x011#9 => some .sar
  | 0x012#9 => some .rotl
  | 0x013#9 => some .bfx
  | 0x014#9 => some .bfi
  | 0x015#9 => some .popc
  | 0x016#9 => some .clz
  | 0x017#9 => some .brev
  | 0x018#9 => some .lea
  | 0x019#9 => some .mov
  | 0x01A#9 => some .sel
  | 0x01B#9 => some .icmp
  | 0x020#9 => some .fadd
  | 0x021#9 => some .fsub
  | 0x022#9 => some .fmul
  | 0x023#9 => some .ffma
  | 0x024#9 => some .fmin
  | 0x025#9 => some .fmax
  | 0x026#9 => some .fcmp
  | 0x027#9 => some .fclass
  | 0x028#9 => some .frnd
  | 0x029#9 => some .fcvt
  | 0x02A#9 => some .icvtf
  | 0x02B#9 => some .fcvti
  | 0x02C#9 => some .fdot2
  | 0x02D#9 => some .fscale
  | 0x030#9 => some .cvtn
  | 0x031#9 => some .cvtw
  | 0x032#9 => some .bscale
  | 0x033#9 => some (if m.extractLsb' 0 3 == 5#3 then .packI4x else .pack)
  | 0x034#9 => some .unpack
  | 0x035#9 => some .resrd
  | 0x036#9 => some .reswr
  | 0x040#9 => some .rcp
  | 0x041#9 => some .rsq
  | 0x042#9 => some .sqrt
  | 0x043#9 => some .fdiv
  | 0x044#9 => some .exp2
  | 0x045#9 => some .log2
  | 0x046#9 => some .sin
  | 0x047#9 => some .cos
  | 0x048#9 => some .tanh
  | 0x050#9 => some .gori2
  | 0x051#9 => some .gori3
  | 0x052#9 => some .ginc
  | 0x053#9 => some .gins
  | 0x054#9 => some .gsegx
  | 0x060#9 => some .plop
  | 0x061#9 => some (if m.getLsbD 0 then .pmovSet else .pmovGet)
  | 0x062#9 => some .pcnt
  | 0x063#9 => some .pmask
  | 0x064#9 => some .mpred
  | 0x070#9 => some .peek
  | 0x071#9 => some (if m.extractLsb' 0 2 == 3#2 then .voteBal else .vote)
  | 0x072#9 => some .matchLanes
  | 0x073#9 => some .redux
  | 0x074#9 => some .scan
  | 0x075#9 => some .conv
  | 0x080#9 => some .ld
  | 0x081#9 => some .st
  | 0x082#9 => some .ldc
  | 0x083#9 => some .atom
  | 0x084#9 => some .red
  | 0x085#9 => some .fence
  | 0x086#9 => some (if m.extractLsb' 0 2 == 1#2 then .pfenceConst else if m.extractLsb' 0 2 == 2#2 then .pfenceTile else .pfenceGen)
  | 0x087#9 => some .pref
  | 0x088#9 => some .cinv
  | 0x089#9 => some .awset
  | 0x08A#9 => some .awwait
  | 0x08B#9 => some .awadd
  | 0x0A0#9 => some .tidset
  | 0x0A1#9 => some .tidclr
  | 0x0A2#9 => some .tcopy
  | 0x0A3#9 => some .gather
  | 0x0A4#9 => some .scatter
  | 0x0A5#9 => some .stream
  | 0x0A6#9 => some (if m.extractLsb' 0 3 == 1#3 then .collRedsc else if m.extractLsb' 0 3 == 2#3 then .collAllga else
      if m.extractLsb' 0 3 == 3#3 then .collA2a else if m.extractLsb' 0 3 == 4#3 then .collBcast else .collAllred)
  | 0x0A7#9 => some .waitc
  | 0x0A8#9 => some (if m.extractLsb' 2 2 == 0#2 then .ectlStat else if m.extractLsb' 2 2 == 1#2 then .ectlClr else
      if m.extractLsb' 2 2 == 2#2 then .ectlCncl else .ectlCnt)
  | 0x0C0#9 => some .gang
  | 0x0C1#9 => some .osclaim
  | 0x0C2#9 => some .osrel
  | 0x0C3#9 => some (if m.getLsbD 7 then .mmaH else .mma)
  | 0x0C4#9 => some .mmas
  | 0x0C5#9 => some .mmab
  | 0x0C6#9 => some .accz
  | 0x0C7#9 => some .accld
  | 0x0C8#9 => some .accst
  | 0x0C9#9 => some (if m.getLsbD 3 then .accmvWr else .accmvRd)
  | _ => none

/-- The control row of an opcode (04 R91). -/
def CRow.ofOp (op : BitVec 9) : Option CRow :=
  match op with
  | 0x100#9 => some .bra
  | 0x101#9 => some .bru
  | 0x102#9 => some .jmpi
  | 0x103#9 => some .call
  | 0x104#9 => some .calli
  | 0x105#9 => some .ret
  | 0x106#9 => some .unwind
  | 0x107#9 => some .spawn
  | 0x108#9 => some .join
  | 0x109#9 => some .bar
  | 0x10A#9 => some .bara
  | 0x10B#9 => some .barw
  | 0x10C#9 => some .yield
  | 0x10D#9 => some .exitLanes
  | 0x10E#9 => some .nop
  | 0x10F#9 => some .tilerel
  | 0x110#9 => some .launch
  | 0x111#9 => some .commit
  | _ => none

/-- The system row of an opcode; sr.cyclo and sr.ydl have rows of their own (04 R91). -/
def YRow.ofOp (op : BitVec 9) (idx : BitVec 16) : Option YRow :=
  match op with
  | 0x140#9 => some .trap
  | 0x141#9 => some .rth
  | 0x142#9 => some .syscall
  | 0x143#9 => some (if idx == 0x11#16 then .rdsrCyclo else .rdsr)
  | 0x144#9 => some (if idx == 0x15#16 then .wrsrYdl else .wrsr)
  | 0x145#9 => some .bkpt
  | _ => none

/-- The short row of an opcode (04 R93). -/
def SRow.ofSop (sop : BitVec 6) : Option SRow :=
  match sop with
  | 0x00#6 => some .iaddI32Short
  | 0x01#6 => some .isubI32Short
  | 0x02#6 => some .imulI32Short
  | 0x0A#6 => some .iminI32Short
  | 0x0B#6 => some .imaxI32Short
  | 0x03#6 => some .andShort
  | 0x04#6 => some .orShort
  | 0x05#6 => some .xorShort
  | 0x06#6 => some .andnShort
  | 0x07#6 => some .shlShort
  | 0x08#6 => some .shrShort
  | 0x09#6 => some .sarShort
  | 0x16#6 => some .leaShort
  | 0x0C#6 => some .movShort
  | 0x0D#6 => some .faddF32Short
  | 0x12#6 => some .faddF16x2Short
  | 0x14#6 => some .faddBf16x2Short
  | 0x0E#6 => some .fsubF32Short
  | 0x0F#6 => some .fmulF32Short
  | 0x13#6 => some .fmulF16x2Short
  | 0x15#6 => some .fmulBf16x2Short
  | 0x10#6 => some .fminF32Short
  | 0x11#6 => some .fmaxF32Short
  | _ => none

/-! ### Decoding -/

/-- The literal word, when X is set, and the words after the instruction. -/
def takeLit (x : Bool) (rest : List Word) : Except DecodeError (Option Word × List Word) :=
  match x, rest with
  | false, _ => .ok (none, rest)
  | true, l :: rest' => .ok (some l, rest')
  | true, [] => .error .truncated

/-- Fields of word 0 that every long, control and system instruction has. -/
structure Word0 where
  op : BitVec 9
  guard : Guard
  d : BitVec 7
  a : BitVec 7
  x : Bool
  f : BitVec 2

/-- The fields of a long word 0 (03 R59). -/
def word0Of (w : Word) : Word0 :=
  { op := w.extractLsb' 22 9, guard := { neg := w.getLsbD 21, p := w.extractLsb' 17 4 }
    d := w.extractLsb' 10 7, a := w.extractLsb' 3 7, x := w.getLsbD 2, f := w.extractLsb' 0 2 }

/-- The first fault: one in word 0, then an unreadable field of word 1, then the rest. -/
def pickFault (chk : Option DecodeError) (parse : Option DecodeError) : Option DecodeError :=
  match chk with
  | some e => if e.word = 0 then some e else some (parse.getD e)
  | none => parse

/-- Decode a long instruction of a row (03 R59). -/
def decodeLong (r : LRow) (w0 : Word0) (w1 : Word) (rest : List Word) : Except DecodeError (Instr × List Word) :=
  match fselOf w0.f, r.form.d.dec w0.d, r.form.a.dec w0.a, takeLit w0.x rest with
  | none, _, _, _ => .error .reservedF
  | _, none, _, _ => .error (.operand .d)
  | _, _, none, _ => .error (.operand .a)
  | _, _, _, .error e => .error e
  | some f, some d, some a, .ok (lit, rest') =>
    let b? := r.form.b.dec (w1.extractLsb' 25 7)
    let c? := r.form.c.dec (w1.extractLsb' 18 7)
    let ty? := tyOfCode (w1.extractLsb' 14 4)
    let rm? := rmOf (w1.extractLsb' 11 3)
    let x : LArgs :=
      { guard := w0.guard, d := d, a := a, b := b?.getD .zero, c := c?.getD .zero, f := f
        ty := ty?.getD .b32, rm := rm?.getD .rne, modx := w1.extractLsb' 0 11, lit := lit }
    let parse := firstFault [(b?.isSome, .operand .b), (c?.isSome, .operand .c), (ty?.isSome, .badTy), (rm?.isSome, .badRm)]
    match pickFault (r.check x) parse with
    | some e => .error e
    | none => .ok (r.instr x, rest')

/-- Decode a control instruction (03 R77, R82). -/
def decodeControl (r : CRow) (w0 : Word0) (w1 : Word) (rest : List Word) : Except DecodeError (Instr × List Word) :=
  match r.form.d.dec w0.d, r.form.a.dec w0.a, takeLit w0.x rest with
  | none, _, _ => .error (.operand .d)
  | _, none, _ => .error (.operand .a)
  | _, _, .error e => .error e
  | some d, some a, .ok (lit, rest') =>
    if w0.f != 0#2 then .error .reservedF else
    let b? := r.form.b.dec (w1.extractLsb' 25 7)
    let x : CArgs :=
      { guard := w0.guard, d := d, a := a, b := b?.getD .zero, dem := w1.extractLsb' 22 3, ofs := w1.extractLsb' 0 22, lit := lit }
    match pickFault (r.check x) (firstFault [(b?.isSome, .operand .b)]) with
    | some e => .error e
    | none => .ok (r.instr x, rest')

/-- Decode a system instruction (03 R80, R82). -/
def decodeSystem (r : YRow) (w0 : Word0) (w1 : Word) (rest : List Word) : Except DecodeError (Instr × List Word) :=
  match r.form.d.dec w0.d, r.form.a.dec w0.a, takeLit w0.x rest with
  | none, _, _ => .error (.operand .d)
  | _, none, _ => .error (.operand .a)
  | _, _, .error e => .error e
  | some d, some a, .ok (lit, rest') =>
    if w0.f != 0#2 then .error .reservedF else
    let b? := r.form.b.dec (w1.extractLsb' 25 7)
    let x : YArgs :=
      { guard := w0.guard, d := d, a := a, b := b?.getD .zero, idx := w1.extractLsb' 0 16, lit := lit }
    match pickFault (r.check x) (firstFault [(b?.isSome, .operand .b), (w1.extractLsb' 16 9 == 0#9, .badSystem)]) with
    | some e => .error e
    | none => .ok (r.instr x, rest')

/-- Decode a short instruction (03 R57). -/
def decodeShort (w : Word) (rest : List Word) : Except DecodeError (Instr × List Word) :=
  match SRow.ofSop (w.extractLsb' 25 6) with
  | none => .error .unassignedShort
  | some r =>
    match r.form.row.form.d.dec (w.extractLsb' 14 7), r.form.row.form.a.dec (w.extractLsb' 7 7), r.form.row.form.b.dec (w.extractLsb' 0 7) with
    | none, _, _ => .error (.operand .d)
    | _, none, _ => .error (.operand .a)
    | _, _, none => .error (.operand .b)
    | some d, some a, some b =>
      let x : SArgs := { guard := { neg := w.getLsbD 24, p := (w.extractLsb' 21 3).setWidth 4 }, d := d, a := a, b := b }
      match r.check x with
      | some e => .error e
      | none => .ok (r.instr x, rest)

/-- Decode one Imcor instruction from the words of a clause that follow (03 R56): the instruction and the words after it,
or the fault. An empty list is a long instruction cut short. -/
def decodeWords : List Word → Except DecodeError (Instr × List Word)
  | [] => .error .truncated
  | w :: rest =>
    if w.getLsbD 31 then
      let w0 := word0Of w
      match rest with
      | [] => if (LRow.ofOp w0.op 0).isSome || (CRow.ofOp w0.op).isSome || (YRow.ofOp w0.op 0).isSome then .error .truncated
              else .error .unassignedOpcode
      | w1 :: rest' =>
        match LRow.ofOp w0.op (w1.extractLsb' 0 11), CRow.ofOp w0.op, YRow.ofOp w0.op (w1.extractLsb' 0 16) with
        | some r, _, _ => decodeLong r w0 w1 rest'
        | _, some r, _ => decodeControl r w0 w1 rest'
        | _, _, some r => decodeSystem r w0 w1 rest'
        | none, none, none => .error .unassignedOpcode
    else decodeShort w rest

/-- Number of words of an Imcor instruction that starts with these words (03 R57, R59), read from word 0 alone. -/
def wordCount (w : Word) : Nat := if w.getLsbD 31 then (if w.getLsbD 2 then 3 else 2) else 1

/-- Decode an enclave instruction (14 R333). The three rows of ENCSEAL share one encoding; the operation is the value that
rs2 holds, `sel`, and a value above 2 is left to the meaning of SEAL, which answers BADARG (14 R334). -/
def decodeEnclave (sel : DWord) (w : Word) : Except DecodeError Instr :=
  let f := w.extractLsb' 12 3
  let x : RArgs := { rd := w.extractLsb' 7 5, rs1 := w.extractLsb' 15 5, rs2 := w.extractLsb' 20 5 }
  if w.extractLsb' 0 7 == 0x0B#7 && w.extractLsb' 25 7 == 0#7 && enclaveOk f x then
    match f with
    | 0#3 => .ok (.encnew x)
    | 1#3 => .ok (.encin x)
    | 2#3 => .ok (.encout x)
    | _ => .ok (if sel == 1#64 then .encsealUnseal x else if sel == 2#64 then .encsealDestroy x else .encsealSeal x)
  else .error .notEnclave

/-! ### Encoding -/

/-- Word 0 of a long, control or system instruction (03 R59). -/
def encWord0 (op : BitVec 9) (g : Guard) (d a : Opnd) (lit : Option Word) (f : FSel) : Word :=
  1#1 ++ op ++ (BitVec.ofBool g.neg) ++ g.p ++ d.enc ++ a.enc ++ (BitVec.ofBool lit.isSome) ++ f.enc

/-- The words of a long instruction (03 R59). -/
def encLong (r : LRow) (x : LArgs) : List Word :=
  [encWord0 r.form.op x.guard x.d x.a x.lit x.f, x.b.enc ++ x.c.enc ++ x.ty.code ++ x.rm.enc ++ x.modx] ++ x.lit.toList

/-- The words of a control instruction (03 R77). -/
def encControl (r : CRow) (x : CArgs) : List Word :=
  [encWord0 r.form.op x.guard x.d x.a x.lit .none, x.b.enc ++ x.dem ++ x.ofs] ++ x.lit.toList

/-- The words of a system instruction (03 R80). -/
def encSystem (r : YRow) (x : YArgs) : List Word :=
  [encWord0 r.form.op x.guard x.d x.a x.lit .none, x.b.enc ++ 0#9 ++ x.idx] ++ x.lit.toList

/-- The word of a short instruction (03 R57). -/
def encShort (r : SRow) (x : SArgs) : List Word :=
  [0#1 ++ r.form.sop ++ (BitVec.ofBool x.guard.neg) ++ x.guard.p.setWidth 3 ++ x.d.enc ++ x.a.enc ++ x.b.enc]

/-- The word of an enclave instruction (14 R333). -/
def encEnclave (f : BitVec 3) (x : RArgs) : Word := 0#7 ++ x.rs2 ++ x.rs1 ++ f ++ x.rd ++ 0x0B#7

/-- The words of an instruction, first word first; an event row has none. -/
def encode (i : Instr) : List Word :=
  match i.code with
  | .long r x => encLong r x
  | .short r x => encShort r x
  | .control r x => encControl r x
  | .system r x => encSystem r x
  | .enclave f x => [encEnclave f x]
  | .event => []

/-! ### Bytes -/

/-- The word at the start of a list of bytes, little-endian (00 R1); bytes that are missing read zero. -/
def wordOfBytes (bs : List Byte) : Word := bs.getD 3 0 ++ bs.getD 2 0 ++ bs.getD 1 0 ++ bs.getD 0 0

/-- `n` words from a list of bytes. -/
def wordsOfBytes : Nat → List Byte → List Word
  | 0, _ => []
  | n + 1, bs => wordOfBytes bs :: wordsOfBytes n (bs.drop 4)

/-- The bytes of a word, little-endian (00 R1). -/
def bytesOfWord (w : Word) : List Byte := [w.extractLsb' 0 8, w.extractLsb' 8 8, w.extractLsb' 16 8, w.extractLsb' 24 8]

/-- Decode from bytes: every byte string has an answer. -/
def decodeBytes (bs : List Byte) : Except DecodeError (Instr × List Word) := decodeWords (wordsOfBytes (bs.length / 4) bs)

/-- The words of an instruction given as a number whose bit 0 is bit 0 of the first word (the opcode table's numbering);
every instruction here has at most three words, and the bits above `nbits` are zero. -/
def tableWords (nbits w : Nat) : List Word :=
  let w := w % 2 ^ nbits
  [BitVec.ofNat 32 w, BitVec.ofNat 32 (w / 2 ^ 32), BitVec.ofNat 32 (w / 2 ^ 64)]

/-- The instruction that the decoder reads from a table word: an enclave word of an application core where it is one
(its rs2 read as zero, so ENCSEAL is SEAL), otherwise an Imcor instruction. -/
def decodeTableWord (nbits w : Nat) : Option Instr :=
  let ws := tableWords nbits w
  match decodeEnclave 0 (ws.headD 0) with
  | .ok i => some i
  | .error _ =>
    match decodeBytes (ws.flatMap bytesOfWord) with
    | .ok (i, _) => some i
    | .error _ => none

end Sys2Proof
end

