-- ==== Sys2Proof/Machine/State.lean ====
section
/-! DEFINITION. The state of the machine: everything the spec gives the package, as plain data, and the state right after
reset. INVENTORY.md, heading State, lists each piece with the rule that names it and its reset value. -/

namespace Sys2Proof.Machine

/-- Data by key: pairs in strictly rising order of key, each key at most once. -/
abbrev Tab (α : Type) := List (Nat × α)
/-- Words by key, a key that is not listed reading zero and no listed word being zero. -/
abbrev SMap (w : Nat) := List (Nat × BitVec w)
/-- Bytes by address in the same canonical form (assumption 1: an unlisted byte reads zero). -/
abbrev Memory := List Host.Cell

/-! ### Why a step stops -/

/-- Why the machine stops with a fault. -/
inductive Fault where
  /-- Raised by the meaning of an Imcor instruction run outside an issue (`State.issue` is none, or its flue has left its
  slot), and by that of an enclave instruction when no hart is executing (`State.core` is none). Safe: no burner and no
  application core executes an instruction that it has not issued. -/
  | noIssue
  deriving DecidableEq, Repr

/-- Why the machine refuses an instruction. -/
inductive Refusal where
  /-- Raised by an arm of `exec` whose instruction has no meaning yet. Safe. -/
  | notModelled (mnemonic : String)
  /-- Raised by a hart that fetches a word of the base RV64GCH instruction set, whose meaning no file of the spec gives
  (01 R12 names it only). Safe: the model says nothing of what follows. -/
  | baseInstruction (word : Word)
  deriving DecidableEq, Repr

/-! ### Flues -/

/-- Life of a flue (05 R99); EMPTY is the absence of a flue in the slot. -/
inductive Phase where
  | run | frameWait | refillWait | handler | drain
  deriving DecidableEq, Repr

/-- A frame (05 R113, R114): demand, registers (key 32 n + lane), return address, whether it is in the spill stack. `uid`
tells a frame from a later one at the same depth (03 R74). -/
structure Frame where
  uid : Nat := 0
  demand : Nat := 8
  regs : SMap 32 := []
  ret : DWord := 0
  spilled : Bool := false
  deriving DecidableEq, Repr

/-- A register that a result is written to; `v` names the frame that was current at issue (03 R74). -/
inductive RegLoc where
  | v (uid n : Nat)
  | h (n : Nat)
  | o (n : Nat)
  | s (n : Nat)
  | p (n : Nat)
  | none
  deriving DecidableEq, Repr

/-- One element of a result: register, lane, value, and whether it also updates the latch (05 R111). -/
structure LaneWrite where
  loc : RegLoc
  lane : Nat
  val : Word
  toLatch : Bool := false
  deriving DecidableEq, Repr

/-- Lanes whose part of an access awaits the answer of a peer, and its address (20 R427). -/
structure PeerLane where
  lanes : LaneMask
  roster : Nat
  ea : DWord
  deriving DecidableEq, Repr

/-- A result still to arrive (03 R70-R75): which flag counts it, the lanes that the interlock of R72 holds at their next
clause, and the writes it will make. `seed` is the number of the instruction, by which `Flue.lown` knows it; `more` are further
flags that it counts on: a rendezvous counts once for each issue that arrived (08 R175). `peers` are its lanes that a peer answers. -/
structure Outstanding where
  flag : Option Nat := none
  held : LaneMask := 0
  writes : List LaneWrite := []
  seed : Nat := 0
  more : List Nat := []
  peers : List PeerLane := []
  deriving DecidableEq, Repr

/-- A cause held pending (13 R300): lanes, fault address, resume address, and for TRAP and BKPT the code, the
arguments and the address of the instruction that gave the code. -/
structure Pending where
  lanes : LaneMask := 0
  faddr : DWord := 0
  resume : DWord := 0
  code : Byte := 0
  args : SMap 32 := []
  codeAt : DWord := 0
  deriving DecidableEq, Repr

/-- A member's capture at a rendezvous (08 R175). -/
structure RvMember where
  a : DWord := 0
  b : Word := 0
  guard : Bool := false
  pred : Bool := false
  deriving DecidableEq, Repr

/-- An open rendezvous, or one that is complete with F = 00 (`done`), its writes waiting for its latency (08 R175, R176). `flags`
are the flags that its arrivals raised at issue (03 R70). `keepL`: the instruction leaves the latch as it is (OSCLAIM, 05 R111). -/
structure Rendezvous where
  pc : DWord
  depth : Nat
  next : DWord
  mask : LaneMask
  members : Tab RvMember := []
  done : Bool := false
  writes : List LaneWrite := []
  flags : List Nat := []
  keepL : Bool := false
  deriving DecidableEq, Repr

/-- A lane waiting at AWWAIT (09 R221, R222): the scratchpad address of the word, the generation it waits to leave, where
the result goes, the flag, the number of the instruction (its lanes share it), and the lanes that the interlock of 03 R72 holds
at their next clause (its PC group, with F = 00). With F = 00 the lane is not ready. -/
structure AwWait where
  lane : Nat
  addr : Nat
  expect : Word
  loc : RegLoc
  toLatch : Bool
  flag : Option Nat
  seed : Nat
  held : LaneMask := 0
  deriving DecidableEq, Repr

/-- A clause that the flue has issued (03 R56, 04 R98): its header address and word, and the words after the header as they
were decoded when it last issued. `lanes` are the lanes whose most recent clause it is, `hlanes` those of the handler. -/
structure OpenClause where
  header : DWord
  word : Word
  words : List Word
  lanes : LaneMask := 0xFFFFFFFF#32
  hlanes : LaneMask := 0xFFFFFFFF#32
  deriving DecidableEq, Repr

/-- The tensor descriptor of an identifier (10 R231). -/
structure Descriptor where
  base : DWord := 0
  sbase : DWord := 0
  ext : List Nat := []
  str : List Nat := []
  box : List Nat := []
  fmt : Nat := 0
  rank : Nat := 0
  tr : Bool := false
  sblk : Nat := 0
  space : Nat := 0
  deriving DecidableEq, Repr

/-- What an operation may read of a slot that another operation fills without being ordered against it (10 R238): every byte that
lies in row `done` or above of the box filled. -/
structure SlotMix where
  slot : Nat
  box : Descriptor
  done : Nat
  deriving DecidableEq, Repr

/-- A rectangle of accumulator elements of a group: first row, rows, first column, columns. -/
structure AccRect where
  row : Nat
  m : Nat
  col : Nat
  n : Nat
  deriving DecidableEq, Repr

/-- How far an arrival word has counted an operation's units (10 R239): its scratchpad address, its generation as the last unit was
counted, and the units counted before that generation began. -/
structure CountMark where
  addr : Nat
  gen : Word
  older : Nat
  deriving DecidableEq, Repr

/-- An engine operation (10 R226-R229): the instruction, the scalars captured at issue, the descriptors read at issue,
units in all, the progress index and the status it has met. `members` are the gflue numbers that count it, `slots` the
operand slots that it names (10 R250), `rm` the rounding mode of ACCST. ACCMV holds its lanes and its flag here until it runs
(10 R260): `writes` are its register elements, each value naming an accumulator element, and `puts` what it stores; `seed` is the
number of its instruction. `mixed` and `mixedAcc` are what it reads of slots and accumulators in any values (10 R238, 12 R275);
`peers` are the identities of the other members of a collective (10 R244). `sure` is the number of its units that an arrival word has
ordered before what follows, `mark` how far its own word has counted them (10 R238, R239, 12 R275). -/
structure EngineOp where
  uid : Nat := 0
  instr : Instr
  a : DWord := 0
  b : DWord := 0
  c : Word := 0
  block : List Word := []
  dst : Option Descriptor := none
  src : Option Descriptor := none
  aux : List Descriptor := []
  units : Nat := 0
  progress : Nat := 0
  status : EngStatus := .ok
  flags : BitVec 6 := 0
  members : List Nat := []
  started : Bool := true
  slots : List Nat := []
  rm : Rm := .rne
  flag : Option Nat := none
  held : LaneMask := 0
  writes : List LaneWrite := []
  puts : List (Nat × Word) := []
  seed : Nat := 0
  mixed : List SlotMix := []
  mixedAcc : List AccRect := []
  peers : List (BitVec 256) := []
  sure : Nat := 0
  mark : Option CountMark := none
  deriving DecidableEq, Repr

/-- ESTAT of a class (10 R229). -/
structure EStat where
  code : Byte := 0
  flags : BitVec 6 := 0
  deriving DecidableEq, Repr

/-- A system call posted and not yet answered (11 R267, R268). `result` holds an answer that came while the flue was
switched out. -/
structure InService where
  part : Nat
  seq : Nat
  dest : List LaneWrite
  lanes : LaneMask
  next : DWord
  result : Option Word := none
  deriving DecidableEq, Repr

/-- A call that waits for frame room (05 R114, R117): lanes that move with their targets, other lanes of the group, the
return address and the demand. -/
structure FrameCall where
  targets : SMap 64
  movers : LaneMask
  others : LaneMask
  ret : DWord
  demand : Nat
  deriving DecidableEq, Repr

/-- A sector of a region buffer (09 R209): space, sector address, and the 16 bytes with those written. -/
structure Sector where
  space : Nat
  addr : Nat
  cid : Nat
  bytes : List (Option Byte)
  deriving DecidableEq, Repr

/-- A flue (05). Defaults are the values at dispatch (05 R100). Per-lane data is keyed by lane; registers by
32 n + lane. `lown` names, for a lane, the outstanding instruction that is the lane's most recent one to write a `v` or `o`
destination, whose result the latch still has to take (05 R111); `later` the address that a parked lane steps to once the
current depth falls to its own (05 R102); `halt` stops the flue for a switch-out of its whole group (14 R335); `stays` tells that
a flue that waits found no save room and keeps its slot (13 R322); `acquired` are the generations that its AWWAITs found last, by the
address of the word (09 R222, 10 R238). -/
structure Flue where
  phase : Phase := .run
  cid : Nat := 0
  part : Nat := 0
  kslot : Nat := 0
  group : Nat := 0
  gflue : Nat := 0
  prio : Nat := 0
  stamp : Nat := 0
  lastIssue : Nat := 0
  pc : SMap 64 := []
  depth : SMap 8 := []
  live : LaneMask := 0xFFFFFFFF#32
  frames : List Frame := []
  nextUid : Nat := 1
  hframe : SMap 32 := []
  o : SMap 32 := []
  s : SMap 32 := []
  p : SMap 32 := []
  e : SMap 32 := []
  l : SMap 32 := []
  lown : Tab Nat := []
  later : Tab DWord := []
  flags : SMap 6 := []
  fpst : SMap 6 := []
  fpmode : BitVec 3 := 0
  ydl : Word := 0
  ycount : Nat := 0
  overrun : Bool := false
  sliceEnd : Bool := false
  preempt : Bool := false
  halt : Bool := false
  hlimit : Nat := 0
  estat : Tab EStat := []
  prog : Word := 0xFFFFFFFF#32
  gang : Word := 0
  cycLatch : Word := 0
  cause : Word := 0
  clanes : LaneMask := 0
  faddr : DWord := 0
  hpc : DWord := 0
  hpcWritten : Bool := false
  entry : DWord := 0
  pending : Tab Pending := []
  regionOpen : Bool := false
  restart : LaneMask := 0
  sectors : List Sector := []
  outs : List Outstanding := []
  rvs : List Rendezvous := []
  awaits : List AwWait := []
  escLanes : LaneMask := 0
  escs : Nat := 0
  clauses : List OpenClause := []
  passed : SMap 7 := []
  promoted : Tab Nat := []
  ops : Tab (List EngineOp) := []
  service : List InService := []
  call : Option FrameCall := none
  waitStamp : Nat := 0
  granted : Bool := false
  pageWait : Option DWord := none
  ringWait : Bool := false
  stays : Bool := false
  mmahWait : LaneMask := 0
  acquired : Tab Word := []
  deriving DecidableEq, Repr

/-! ### Groups, barriers, kernels -/

/-- Per-flue fields of a barrier (18 R388). `next` is where a lane of WAIT steps to; `hlanes` and `hpc` are the lanes and the instruction of
the held arrival. -/
structure BarFlue where
  lmask : LaneMask := 0
  la : Word := 0
  arr : Bool := false
  pend : Bool := false
  held : Bool := false
  ha : Word := 0
  hlanes : LaneMask := 0
  hpc : DWord := 0
  wait : LaneMask := 0
  next : SMap 64 := []
  deriving DecidableEq, Repr

/-- A barrier (18 R388). -/
structure Barrier where
  count : Nat := 0
  target : Nat := 0
  gen : Word := 0
  wake : Word := 0
  flues : Tab BarFlue := []
  deriving DecidableEq, Repr

/-- A continuation record (17 R372). AFFIN is the hearth that the hint names, when it is valid (17 R377). -/
structure Record where
  code : DWord := 0
  frame : DWord := 0
  join : Word := 0
  kslot : Nat := 0
  spawned : Bool := false
  ready : Bool := false
  affLost : Bool := false
  index : Word := 0
  affin : Option Nat := none
  deriving DecidableEq, Repr

/-- Why a flue was switched out alone (13 R311, R314, R315, 11 R268, 18 R394). -/
inductive OutWhy where
  | pre | page (va : DWord) | ring | barrier (b : Nat)
  deriving DecidableEq, Repr

/-- A flue's save image (13 R318): the state saved, whether its recall has come due, the run of save pages it takes. -/
structure SavedFlue where
  flue : Flue
  why : OutWhy := .pre
  due : Bool := false
  run : Nat × Nat := (0, 0)
  deriving DecidableEq, Repr

/-- A group that is resident on a stove or switched out whole (17 R386, R387). `loose` are its completed engine operations, with their
classes, that no WAITC has ordered before what follows (10 R238, 12 R275). -/
structure Group where
  uid : Nat := 0
  part : Nat := 0
  kslot : Nat := 0
  cid : Nat := 0
  queue : Nat := 0
  prio : Nat := 0
  record : Record := {}
  nflue : Nat := 1
  window : Nat := 0
  accRow0 : Nat := 0
  accN : Nat := 0
  sharedSize : Nat := 0
  shared : Memory := []
  barriers : Tab Barrier := []
  drained : Word := 0
  saved : Tab SavedFlue := []
  headerRun : Option (Nat × Nat) := none
  tiles : DWord := 0
  mmah : Bool := false
  stove : Nat := 0
  loose : List (Nat × EngineOp) := []
  deriving DecidableEq, Repr

/-- The holder of an operand slot (10 R250): the group and gang mask (0: a gang of one, flue `solo`). A slot that is
`releasing` is free once no outstanding operation names it. -/
structure Claim where
  held : Bool := false
  group : Nat := 0
  gang : Word := 0
  solo : Nat := 0
  cid : Nat := 0
  releasing : Bool := false
  deriving DecidableEq, Repr

/-- A group switched out whole, waiting for restore (13 R316, 17 R383): its flues, and the images of its slots and
accumulator rows. `age` counts control-island cycles. -/
structure SwitchedGroup where
  group : Group
  flues : Tab Flue
  claims : Tab Claim := []
  slots : Memory := []
  acc : SMap 32 := []
  runs : List (Nat × Nat) := []
  age : Nat := 0
  deriving DecidableEq, Repr

/-- A launch record (15 R345), its fields separated. -/
structure Launch where
  code : DWord := 0
  args : DWord := 0
  gx : Nat := 0
  gy : Nat := 0
  gz : Nat := 0
  flues : Nat := 0
  demand : Nat := 0
  prio : Byte := 0
  fdom : Byte := 0
  shared : Nat := 0
  spill : Nat := 0
  privsz : Nat := 0
  accRows : Nat := 0
  scpBlk : Nat := 0
  privBase : DWord := 0
  pgtab : DWord := 0
  deps : DWord := 0
  handler : DWord := 0
  done : DWord := 0
  flags : Word := 0
  maxStoves : Nat := 0
  share : Nat := 0
  tag : Word := 0
  wq : Nat := 0
  wseq : Word := 0
  deriving DecidableEq, Repr

/-- What a map needs of the producer that it was linked to (16 R366, R371): grid, tiles of a group, share, and where the tiles lie (16
R364, R365). -/
structure ProdShape where
  gx : Nat
  gy : Nat
  gz : Nat
  ntiles : Nat
  gfirst : Nat
  gcount : Nat
  tbase : DWord
  gstride : Nat
  tstride : Nat
  deriving DecidableEq, Repr

/-- A dependence map (16 R366), the producer it is linked to (16 R369) and that kernel's shape, which stands when the producer has
retired. -/
structure DepMap where
  pbmap : DWord := 0
  mul : List Int := []
  sh : List Nat := []
  w : List Nat := []
  ofs : List Int := []
  tfirst : Nat := 0
  tcount : Nat := 0
  producer : Option Nat := none
  satisfied : Bool := false
  shape : Option ProdShape := none
  deriving DecidableEq, Repr

/-- A record of a kernel's record array and its age in a ready pool (17 R373, R379). -/
structure RecEntry where
  record : Record
  age : Nat := 0
  deriving DecidableEq, Repr

/-- Kernel states (16 R360); FREE is the absence of a kernel in the slot. -/
inductive KState where
  | waiting | running | retiring
  deriving DecidableEq, Repr

/-- A kernel control block with its record array and spawn windows (16 R360, 17 R373, 15 R493). `bits` are released tiles whose bits wait
for their page in memory (16 R368). -/
structure Kernel where
  uid : Nat := 0
  cid : Nat := 0
  queue : Nat := 0
  launch : Launch := {}
  state : KState := .waiting
  status : Nat := 0
  faultCause : Nat := 0
  prio : Nat := 0
  fdom : Nat := 0
  maxStoves : Nat := 0
  share : Nat := 1
  handler : DWord := 0
  seq : Word := 0
  nextIdx : Nat := 0
  live : Nat := 0
  stoves : Nat := 0
  overrun : Nat := 0
  dropped : Nat := 0
  ntiles : Nat := 1
  srank : Nat := 0
  obmap : DWord := 0
  tbase : DWord := 0
  gstride : Nat := 0
  tstride : Nat := 0
  tlen : Nat := 0
  gfirst : Nat := 0
  gcount : Nat := 0
  npg : Nat := 0
  pgmask : BitVec 16 := 0
  maps : List DepMap := []
  waitMask : BitVec 5 := 0
  scp : Tab (List Nat) := []
  records : Tab RecEntry := []
  gens : SMap 19 := []
  windows : List Nat := []
  bits : List Nat := []
  deriving DecidableEq, Repr

/-! ### Stoves -/

/-- What a posted write does at its home slice (09 R208, R213). A RED carries the operands of all its lanes that name the location, in
ascending order of lanes: they act as one. -/
inductive PostedKind where
  | store (bytes : List Byte)
  | red (aop : BitVec 3) (ty : Ty) (vals : List DWord)
  deriving DecidableEq, Repr

/-- A cached line (12 R278). -/
structure Line where
  cid : Nat
  data : List Byte
  deriving DecidableEq, Repr

/-- A line of the LLC (01 R12, 12 R278): the CID that filled it, its way, whether it differs from the line in HBM, and whether its tag failed
when it was read from there (19 R416). -/
structure LlcLine where
  cid : Nat
  way : Nat := 0
  dirty : Bool := false
  bad : Bool := false
  deriving DecidableEq, Repr

/-- A write that a stove has accepted and that has not yet been applied (09 R208). -/
structure Posted where
  cid : Nat
  pa : Nat
  kind : PostedKind
  deriving DecidableEq, Repr

/-- States of a physical page (19 R407). -/
inductive OState where
  | free | owned | sharedClear | service | transit
  deriving DecidableEq, Repr

/-- A translation held in a TLB (19 R404, R405): covers `span` bytes from virtual address `va`. `used` rises with each use: the entry
with the least is the least recently used. -/
structure TlbEntry where
  cid : Nat
  va : Nat
  span : Nat
  pa : Nat
  r : Bool
  w : Bool
  x : Bool
  own : Nat
  state : OState
  version : BitVec 16
  used : Nat := 0
  deriving DecidableEq, Repr

/-- A walk-cache entry: a non-leaf entry read at a level (19 R405). -/
structure WalkEntry where
  cid : Nat
  level : Nat
  key : Nat
  next : Nat
  deriving DecidableEq, Repr

/-- A member's arrival at a gang rendezvous (10 R248). -/
structure GangArrival where
  slot : Nat
  lanes : LaneMask
  active : LaneMask
  deriving DecidableEq, Repr

/-- A gang rendezvous in the stove's latch (10 R248): identity, the operands of the first arrival and the rounding mode of
its flue. -/
structure GangRv where
  group : Nat
  mask : Word
  pc : DWord
  depth : Nat
  next : DWord
  instr : Instr
  flag : Option Nat
  a : DWord
  b : DWord
  c : Word
  block : List Word
  dyn : BitVec 3 := 0
  arrivals : Tab GangArrival := []
  deriving DecidableEq, Repr

/-- A lane in the escalation unit (07 R171, R172): what its completion writes, the flag that then falls (the last lane of an
instruction with F not 00), and the address it steps to when it waits at the instruction (F = 00). `key` is the cycle of the
hearth's island in which stage 0 completes for it: the unit serves in the order of key, slot, lane. `seed` numbers the instruction
whose other lanes' results are under way with its flag. -/
structure EscEntry where
  slot : Nat
  lane : Nat
  writes : List LaneWrite
  flag : Option Nat
  step : Option DWord
  key : Nat := 0
  seed : Nat := 0
  deriving DecidableEq, Repr

/-- A stove (01 R14). `idle` is the count of R118, `spill` the slot that the escape spill engine works for (05 R119). -/
structure Stove where
  flues : Tab Flue := []
  groups : Tab Group := []
  l1 : Tab Line := []
  kcache : Tab Line := []
  posted : List Posted := []
  tlb : List TlbEntry := []
  idCache : List (Nat × Nat) := []
  slots : Memory := []
  claims : Tab Claim := []
  acc : SMap 32 := []
  latch : List GangRv := []
  esc : List EscEntry := []
  idle : Nat := 0
  spill : Option Nat := none
  deriving DecidableEq, Repr

/-! ### Hearths, dies, partitions -/

/-- A gang that has arrived at a hearth rendezvous (10 R256): its stove, its N, and its first B slot. -/
structure HArrival where
  stove : Nat
  n : Nat
  b : Nat
  deriving DecidableEq, Repr

/-- A hearth rendezvous of MMA.H (10 R256), its arrivals by operation. -/
structure HearthRv where
  part : Nat
  kslot : Nat
  pc : DWord
  next : DWord
  mask : Word
  arrivals : Tab HArrival := []
  running : Bool := false
  deriving DecidableEq, Repr

/-- A physical hearth: clock and target in MHz, cycle counter, translation caches, hearth rendezvous (01 R15, 21 R437,
R438, 19 R405, 10 R256). Clock and target after reset: assumption 3. -/
structure Hearth where
  clock : Nat := 1500
  target : Nat := 1500
  powerCap : Nat := 1500
  thermalCap : Nat := 1500
  raisePending : Bool := false
  cycles : DWord := 0
  tlb : List TlbEntry := []
  walk : List WalkEntry := []
  hrvs : List HearthRv := []
  deriving DecidableEq, Repr

/-- A compute die: its scratchpad, the owners of the blocks, and the thermal hold (12 R274, 01 R21). -/
structure Die where
  scp : Memory := []
  blocks : Tab Nat := []
  hot : Bool := false
  deriving DecidableEq, Repr

/-- PART and LHEARTH of the remap-table entry of a hearth with ASSIGNED set (21 R431); SMASK is a fuse (`Config.smask`), and
`State.remapEntry` is the whole entry of any hearth. -/
structure Remap where
  part : Nat
  lhearth : Nat
  deriving DecidableEq, Repr

/-- Partition states (21 R439). -/
inductive PState where
  | forming | running | draining | resetting | failed
  deriving DecidableEq, Repr

/-- An ownership record (19 R407). `cmp` tells whether the lines of the page are compressed (19 R414), as its leaf says. -/
structure Own where
  owner : Nat := 0
  state : OState := .free
  version : BitVec 16 := 0
  cmp : Bool := false
  deriving DecidableEq, Repr

/-- An entry of a system-call ring (11 R267). `pages` are the pages whose buffered sectors the answer of a page service waits
for, `freeing` those that are freed with it (19 R406, R410); `undoMem` and `undoOwn` are the bytes and the ownership records that the
service has changed, as they were, until its result is posted (22 R446). -/
structure RingEntry where
  seq : Nat
  cid : Nat
  stove : Nat
  slot : Nat
  group : Nat
  gflue : Nat
  svc : BitVec 16
  a : Word
  b : Word
  answer : Option Word := none
  pages : List Nat := []
  freeing : List Nat := []
  gen : Nat := 0
  undoMem : List (Nat × Byte) := []
  undoOwn : List (Nat × Option Own) := []
  deriving DecidableEq, Repr

/-- An entry of a ready pool: a record of a kernel's array, or a group that is switched out (17 R379). -/
inductive PoolKey where
  | record (kernel entry : Nat)
  | group (uid : Nat)
  deriving DecidableEq, Repr

/-- The stove that a slot pre-emption freed room on, and the entry that takes it (17 R382). -/
structure Chosen where
  stove : Nat
  key : PoolKey
  prio : Nat
  deriving DecidableEq, Repr

/-- A partition (21 R433, R435, R439) with its kernel table and ready pools' switched-out groups (16 R359, 17 R379). `sliceAge` counts the
control-island cycles of the running slice; `popNext` is the least logical stove that may still pop in this control-island cycle (17
R380), `chosen` the entry that a slot pre-emption was made for and the stove that is to take it (17 R382). -/
structure Partition where
  state : PState := .forming
  hearths : List Nat := []
  straits : Tab Nat := []
  chimneys : Tab Nat := []
  hbms : Tab Nat := []
  cshare : Nat := 0
  ways : BitVec 16 := 0
  qslots : Nat := 0
  slice : Nat := 0
  current : Option Nat := none
  drainFor : List Nat := []
  ring : List RingEntry := []
  ringSeq : Nat := 0
  kernels : Tab Kernel := []
  switched : List SwitchedGroup := []
  rounds : Tab Nat := []
  sliceAge : Nat := 0
  popNext : Nat := 0
  chosen : Option Chosen := none
  deriving DecidableEq, Repr

/-! ### Contexts and queues -/

/-- Context states (14 R324). -/
inductive CState where
  | building | ready | running | suspended | faulted | destroyed
  deriving DecidableEq, Repr

/-- Queue states (15 R343). -/
inductive QState where
  | unbound | pending | bound | stopped | faulted
  deriving DecidableEq, Repr

/-- A queue control block (15 R343) with its binding and watchdog (15 R495, R354). `kicks` are notifies whose release is not complete yet
(15 R349, 12 R298). -/
structure Queue where
  ring : DWord := 0
  size : Nat := 2
  head : Word := 0
  tail : Word := 0
  state : QState := .unbound
  prio : Byte := 0
  fdom : Byte := 0
  pin : Bool := false
  lfeed : Bool := false
  wdog : Nat := 0
  maxStoves : Nat := 0
  share : Nat := 0
  slot : Nat := 0xFFFF
  handler : DWord := 0
  kickva : DWord := 0
  retired : Word := 0
  badKick : Bool := false
  wdx : Bool := false
  fdomLast : Nat := 0
  fcount : Nat := 0
  part : Nat := 0
  wcount : Nat := 0
  waited : Nat := 0
  kicks : List Word := []
  deriving DecidableEq, Repr

/-- Stream states (20 R419). -/
inductive LState where
  | idle | keying | active | suspended | lost | excluded
  deriving DecidableEq, Repr

/-- A write to a peer that is not acknowledged yet (20 R427): the TAGID of its flit, the address at the peer, and what it writes. -/
structure Held where
  tag : BitVec 16
  addr : Nat
  kind : PostedKind
  deriving DecidableEq, Repr

/-- A flit of a stream that has not gone out yet: virtual channel, KIND, TAGID, address and data (20 R420-R423). -/
structure OutFlit where
  vc : Byte
  kind : Byte
  tag : BitVec 16
  addr : Nat
  data : List Byte
  deriving DecidableEq, Repr

/-- A part of an atomic of the peer that came in several flits under one TAGID (20 R420, R423). -/
structure AtomPart where
  tag : BitVec 16
  vals : List (DWord × DWord)
  deriving DecidableEq, Repr

/-- A roster entry and its streams (20 R419, R426, R427). `held` are writes accepted and not yet acknowledged, `asked` the tags of the
reads and atomics not yet answered, `out` the flits that no port has taken yet, `replay` the pages of its replay buffer (20 R423);
`keyGen` and `rxGen` count the KEY_UPDATEs of the two directions; `tried` tells that a keying has started since the session was lost;
`parts` are atomics of the peer that have arrived in part. -/
structure Peer where
  idHash : BitVec 256 := 0
  measH : BitVec 128 := 0
  path : Nat := 0
  lstate : LState := .idle
  pcid : BitVec 16 := 0
  sepoch : Word := 0
  keyed : Bool := false
  ctrTx : Nat := 0
  ctrRx : Nat := 0
  keyGen : Nat := 0
  rxGen : Nat := 0
  nextTag : BitVec 16 := 0
  held : List Held := []
  asked : List (BitVec 16) := []
  out : List OutFlit := []
  replay : List Nat := []
  tried : Bool := false
  parts : List AtomPart := []
  deriving DecidableEq, Repr

/-- Privilege modes of an application core: M, HS, VS, VU (14 R333). U completes the family's list. -/
inductive HMode where
  | m | hs | u | vs | vu
  deriving DecidableEq, Repr

/-- A CPU thread (14 R326): inside ENCIN while `hart` is some hart; its registers and its mode are in the save area. -/
structure Thread where
  pc : DWord := 0
  atp : DWord := 0
  mode : HMode := .vs
  hart : Option Nat := none
  x : SMap 64 := []
  f : SMap 64 := []
  deriving DecidableEq, Repr

/-- Where an ENCSEAL stands (14 R333, R335, R337): none; a SEAL going on, or ended without having been retired yet; a DESTROY that waits
for region buffers. -/
inductive Seal where
  | none | going | reached | ending
  deriving DecidableEq, Repr

/-- A context: its control block (14 R324), nonce, measurement in progress, queues, roster, threads, identifier table,
grant and performance counters. `moves` tells, for each of its pages in transit, whether a migration moves it; `named` are the pages
that its manifest names and ENCNEW took. -/
structure Context where
  state : CState := .building
  sealing : Seal := .none
  named : List Nat := []
  ccb : Nat := 0
  epoch : Word := 0
  manifest : Nat := 0
  nitems : Nat := 0
  bprog : Nat := 0
  saveBase : Nat := 0
  saveSize : Nat := 0
  qtable : Nat := 0
  nqueues : Nat := 0
  rosterPa : Nat := 0
  meas : List Byte := []
  absorbed : List Byte := []
  nonce : List Byte := []
  keyed : Bool := false
  maxStoves : Nat := 0
  share : Nat := 0
  prio : Nat := 0
  fdom : Nat := 0
  handler : DWord := 0
  ptroot : Nat := 0
  fkind : Nat := 0
  fhearth : Nat := 0
  fdetail : Nat := 0
  pmval : SMap 32 := []
  pmsel : SMap 32 := []
  threads : Tab Thread := []
  queues : Tab Queue := []
  pendingBits : BitVec 256 := 0
  roster : Tab Peer := []
  tids : Tab Descriptor := []
  grant : DWord := 0
  grantWant : DWord := 0
  saveRuns : List (Nat × Nat) := []
  pageSeqs : SMap 32 := []
  moves : Tab Bool := []
  iface : Tab Nat := []
  deriving DecidableEq, Repr

/-! ### Application cores, links, root of trust, firmware -/

/-- An application core (01 R12, 14 R333, 12 R296). `inside` names the context and thread that it runs; `host` is what
ENCIN saved; `fenced` tells that a release fence of the hart still waits for peers (12 R298). Values after reset: assumption 6. -/
structure Hart where
  x : SMap 64 := []
  f : SMap 64 := []
  pc : DWord := 0
  mode : HMode := .m
  vsatp : DWord := 0
  inside : Option (Nat × Nat) := none
  hostX : SMap 64 := []
  hostF : SMap 64 := []
  hostPc : DWord := 0
  hostMode : HMode := .m
  hostVsatp : DWord := 0
  exitRd : BitVec 5 := 0
  resv : Option Nat := none
  resvVal : DWord := 0
  fenced : Bool := false
  illegal : Nat := 0
  deriving DecidableEq, Repr

/-- A flit in a replay buffer, with the stream and the line that it belongs to (the line chooses its port, 20 R423) and how often it was
replayed (20 R422). -/
structure Sent where
  cid : Nat
  roster : Nat
  line : Nat
  flit : Flit
  replays : Nat := 0
  deriving DecidableEq, Repr

/-- A strait (0-63) or chimney (64-79) port (20 R420-R423): the last SEQ sent, the next SEQ expected, the last ACKSEQ, the HOLD
received, and the flits not yet acknowledged. `slots` are the response slots that its requests have reserved (20 R421), each by context,
roster index and TAGID. -/
structure Port where
  up : Bool := false
  sendSeq : Word := 0
  expect : Word := 1
  acked : Word := 0
  hold : Byte := 0
  replay : List Sent := []
  slots : List (Nat × Nat × BitVec 16) := []
  deriving DecidableEq, Repr

/-- TDISP interface states that the spec names (20 R425). -/
inductive TState where
  | unlocked | configLocked | run | error
  deriving DecidableEq, Repr

/-- A device interface bound to a context at an index (20 R425). -/
structure Tdisp where
  state : TState := .unlocked
  cid : Nat := 0
  index : Nat := 0
  deriving DecidableEq, Repr

/-- A host attachment's send window, which the service firmware sets: outstanding tags and bytes of unacknowledged writes
(20 R424). `waiting` are its requests that have not been answered yet, each tag with its bytes of write data. -/
structure HostWin where
  tags : Nat := 0
  bytes : Nat := 0
  waiting : List (Nat × Nat) := []
  deriving DecidableEq, Repr

/-- The root of trust (14 R339, 22 R441, R448); `image` is the generation that the operator loaded last, which the boot ROM verifies
instead of the one the module was made with. Monotonic values after the first start: assumption 8. -/
structure Rot where
  monoLeaf : Nat := 0
  monoVersion : Nat := 0
  nextLeaf : Nat := 0
  leafEnd : Nat := 0
  nonces : Nat := 0
  trusted : Bool := false
  image : Option FwImage := none
  deriving DecidableEq, Repr

/-- The service firmware (22 R445-R449): the running generation and its measurement, the older one while it still answers,
the switch sequence of each ring, whether a recovery has the schedulers frozen and for how many control-island cycles, and
the cycles since the last heartbeat. `hearth` is the hearth that the service firmware uses alone from stage 2 on (R441). -/
structure Firmware where
  gen : Nat := 0
  measurement : BitVec 512 := 0
  old : Option (Nat × BitVec 512) := none
  switchAt : Tab Nat := []
  frozen : Bool := false
  heartbeat : Nat := 0
  recoverAge : Nat := 0
  hearth : Option Nat := none
  deriving DecidableEq, Repr

/-- An SPDM connection (14 R340). -/
structure Spdm where
  versioned : Bool := false
  caps : Option Word := none
  algs : Bool := false
  keyed : Bool := false
  session : Bool := false
  keyGen : Nat := 0
  owner : Option Nat := none
  deriving DecidableEq, Repr

/-- What the machine has answered to an agent outside it. -/
inductive Reply where
  | mmioWrite (cid index offset : Nat) (bytes : List Byte)
  | mmioAtomic (cid index offset : Nat) (aop : BitVec 3) (ty : Ty) (vals : List (DWord × DWord))
  | hostData (tag : Nat) (bytes : List Byte)
  | hostDone (tag : Nat)
  | hostError (tag : Nat)
  | deviceData (port iface : Nat) (bytes : List Byte)
  | deviceDropped (port iface : Nat)
  | pageImage (img : SealedImage)
  | status (code : Nat)
  | badImage
  | refused
  | flit (port : Nat) (f : Flit)
  | pageInRequest (cid : Nat) (va : DWord)
  | slotPressure (part cid q : Nat)
  | report (stage : Nat) (parts : List Nat)
  | spdm (conn : Nat) (code : Nat) (data : List Byte)
  | keyExchange (cid roster : Nat)
  | keyUpdate (cid roster : Nat)
  | trip
  | memberLost (cid roster : Nat)
  deriving DecidableEq, Repr

/-- The instruction that a burner is issuing (05 R103-R105, 06 R129): the flue, the PC group's lanes, the address of
word 0 and of the word after, the clause header and its word, whether the instruction is its clause's last, the number that
its free values go by (assumption 9), and the flue as it stood before any instruction of this issue opportunity wrote
(`view`). -/
structure Issue where
  stove : Nat
  slot : Nat
  lanes : LaneMask
  pc : DWord
  next : DWord
  header : DWord
  word : Word
  last : Bool
  seed : Nat
  view : Flue
  deriving DecidableEq, Repr

/-- The package. `stage` is the stage of the start that works (5 complete is stage 6, 22 R441), `halted` that a failure keeps
the start where it is (R442), `badHearths` the hearths that failed test, `core` the application core that executes an
enclave instruction. `llc` holds the lines of the LLC (12 R278), `side` the side-table entries of lines written back to HBM (19
R415), `flows` the flow counters of the on-chip network by flow identifier (14 R330), `counts` the events that the units have counted
and not yet forwarded, counter n of a CID under 16 CID + n (14 R342), `hits` the accesses to each page (19 R405), `islands` the cycles
that the clock islands other than the hearths' have counted: 64 control, 65 to 72 fabric, 73 to 76 I/O (01 R15). -/
structure State where
  stage : Nat
  halted : Bool
  badHearths : List Nat
  testMode : Bool
  testPending : Bool
  mem : Memory
  own : Tab Own
  uncorr : Tab Byte
  llc : Tab LlcLine
  side : Tab DWord
  flows : SMap 64
  counts : SMap 32
  hits : Tab Nat
  islands : SMap 64
  stoves : Tab Stove
  hearths : Tab Hearth
  dies : Tab Die
  remap : Tab Remap
  parts : Tab Partition
  ctxs : Tab Context
  purge : List Nat
  powerSteps : List Nat
  harts : Tab Hart
  ports : Tab Port
  tdisp : Tab Tdisp
  hosts : Tab HostWin
  rot : Rot
  fw : Firmware
  spdm : Tab Spdm
  outbox : List Reply
  turns : List Turn
  turnIdx : Nat
  freeIdx : Nat
  stamp : Nat
  issue : Option Issue
  core : Option Nat
  deriving DecidableEq, Repr

/-- The package right after reset (22 R441): no stage complete, nothing listed in memory, no partition, no context, every
object that the spec creates later absent. Values the spec does not give: assumptions 1, 3, 5-9. -/
def State.reset : State where
  stage := 0
  halted := false
  badHearths := []
  testMode := false
  testPending := false
  mem := []
  own := []
  uncorr := []
  llc := []
  side := []
  flows := []
  counts := []
  hits := []
  islands := []
  stoves := []
  hearths := []
  dies := []
  remap := []
  parts := []
  ctxs := []
  purge := []
  powerSteps := []
  harts := []
  ports := []
  tdisp := []
  hosts := []
  rot := {}
  fw := {}
  spdm := []
  outbox := []
  turns := []
  turnIdx := 0
  freeIdx := 0
  stamp := 0
  issue := none
  core := none

end Sys2Proof.Machine
end

