-- ==== Sys2Proof/Machine/Tab.lean ====
section
/-! DEFINITION. Tables by key and words by key: reading and writing. A write keeps keys strictly rising; a word map lists
no zero word, so equal contents are equal data. -/

namespace Sys2Proof.Machine

/-- The entry at a key. -/
def Tab.get? {α : Type} : Tab α → Nat → Option α
  | [], _ => none
  | (k', a) :: t, k => if k' = k then some a else Tab.get? t k

/-- The table with the entry at the key. -/
def Tab.put {α : Type} : Tab α → Nat → α → Tab α
  | [], k, a => [(k, a)]
  | (k', a') :: t, k, a =>
    if k < k' then (k, a) :: (k', a') :: t
    else if k = k' then (k, a) :: t
    else (k', a') :: Tab.put t k a

/-- The table without the key. -/
def Tab.del {α : Type} : Tab α → Nat → Tab α
  | [], _ => []
  | (k', a') :: t, k => if k' = k then Tab.del t k else (k', a') :: Tab.del t k

/-- Keys rise strictly. -/
def Tab.sorted {α : Type} : Tab α → Bool
  | [] => true
  | [_] => true
  | (k, _) :: (k', a) :: t => k < k' && Tab.sorted ((k', a) :: t)

/-- The entry at a key, or a default. -/
def Tab.getD {α : Type} (t : Tab α) (k : Nat) (d : α) : α := (Tab.get? t k).getD d

/-- Apply a function to the entry at a key, if there is one. -/
def Tab.modify {α : Type} (t : Tab α) (k : Nat) (f : α → α) : Tab α :=
  match Tab.get? t k with
  | some a => Tab.put t k (f a)
  | none => t

/-- Apply a function to every entry. -/
def Tab.mapVals {α : Type} (f : α → α) (t : Tab α) : Tab α := t.map fun p => (p.1, f p.2)

/-- The word at a key; a key that is not listed reads zero. -/
def SMap.get {w : Nat} (m : SMap w) (k : Nat) : BitVec w := (Tab.get? m k).getD 0#w

/-- Write a word; a zero word is not listed. -/
def SMap.set {w : Nat} (m : SMap w) (k : Nat) (v : BitVec w) : SMap w := if v = 0#w then Tab.del m k else Tab.put m k v

/-- The canonical form: keys strictly rising and no zero word. -/
def SMap.wf {w : Nat} (m : SMap w) : Bool := Tab.sorted m && m.all fun p => p.2 != 0#w

/-- Write a list of words. -/
def SMap.setAll {w : Nat} (m : SMap w) (l : List (Nat × BitVec w)) : SMap w := l.foldl (fun m p => SMap.set m p.1 p.2) m

/-- The canonical form of a memory (12 R273; an unlisted byte reads zero, assumption 1). -/
def Memory.wf (m : Memory) : Bool := SMap.wf m

/-- Read one byte. -/
def Memory.byte (m : Memory) (a : Nat) : Byte := SMap.get m a

/-- Write one byte. -/
def Memory.setByte (m : Memory) (a : Nat) (b : Byte) : Memory := SMap.set m a b

/-- Read `n` bytes from an address, lowest address first (00 R1). -/
def Memory.read (m : Memory) : Nat → Nat → List Byte
  | _, 0 => []
  | a, n + 1 => Memory.byte m a :: Memory.read m (a + 1) n

/-- Write bytes from an address upward. -/
def Memory.write : Memory → Nat → List Byte → Memory
  | m, _, [] => m
  | m, a, b :: bs => Memory.write (Memory.setByte m a b) (a + 1) bs

/-- Clear `n` bytes from an address: none of them stays listed. -/
def Memory.clear (m : Memory) (a n : Nat) : Memory := m.filter fun p => !(a ≤ p.1 && p.1 < a + n)

/-- The lanes of a mask, ascending. -/
def lanesOf (m : LaneMask) : List Nat := (List.range 32).filter fun l => m.getLsbD l

/-- The mask of one lane. -/
def laneBit (l : Nat) : LaneMask := if l < 32 then BitVec.ofNat 32 (2 ^ l) else 0

/-- The mask of the lanes for which a condition holds. -/
def maskOf (f : Nat → Bool) : LaneMask := (List.range 32).foldl (fun m l => if f l then m ||| laneBit l else m) 0

/-- The number of lanes of a mask. -/
def laneCount (m : LaneMask) : Nat := (lanesOf m).length

/-- A little-endian number from bytes (00 R1). -/
def leNat : List Byte → Nat
  | [] => 0
  | b :: bs => b.toNat + 256 * leNat bs

/-- `n` little-endian bytes of a number. -/
def leBytes : Nat → Nat → List Byte
  | 0, _ => []
  | n + 1, v => BitVec.ofNat 8 v :: leBytes n (v / 256)

end Sys2Proof.Machine
end

