-- ==== Sys2Proof/Machine/Keccak.lean ====
section
/-! DEFINITION. SHAKE256 (14 R328, R329: measurement and key derivation), the extendable-output function of FIPS 202, whose
steps the spec names and does not print (assumption 21). A state is 25 words, word x + 5 y. -/

namespace Sys2Proof.Machine

/-- Round constants. -/
def keccakRc : List DWord :=
  [0x0000000000000001, 0x0000000000008082, 0x800000000000808A, 0x8000000080008000, 0x000000000000808B, 0x0000000080000001,
   0x8000000080008081, 0x8000000000008009, 0x000000000000008A, 0x0000000000000088, 0x0000000080008009, 0x000000008000000A] ++
  [0x000000008000808B, 0x800000000000008B, 0x8000000000008089, 0x8000000000008003, 0x8000000000008002, 0x8000000000000080,
   0x000000000000800A, 0x800000008000000A, 0x8000000080008081, 0x8000000000008080, 0x0000000080000001, 0x8000000080008008]

/-- Rotation of the word x + 5 y. -/
def keccakRot : List Nat :=
  [0, 1, 62, 28, 27, 36, 44, 6, 55, 20, 3, 10, 43, 25, 39, 41, 45, 15, 21, 8, 18, 2, 61, 56, 14]

/-- One round. -/
def keccakRound (a : List DWord) (rc : DWord) : List DWord :=
  let at' := fun (l : List DWord) (n : Nat) => l.getD n 0
  let c := (List.range 5).map fun x => at' a x ^^^ at' a (x + 5) ^^^ at' a (x + 10) ^^^ at' a (x + 15) ^^^ at' a (x + 20)
  let d := (List.range 5).map fun x => at' c ((x + 4) % 5) ^^^ (at' c ((x + 1) % 5)).rotateLeft 1
  let t := (List.range 25).map fun n => at' a n ^^^ at' d (n % 5)
  let b := (List.range 25).map fun n =>
    let src := (n % 5 + 3 * (n / 5)) % 5 + 5 * (n % 5)
    (at' t src).rotateLeft (keccakRot.getD src 0)
  (List.range 25).map fun n =>
    let row := n / 5 * 5
    let v := at' b n ^^^ (~~~(at' b (row + (n + 1) % 5)) &&& at' b (row + (n + 2) % 5))
    if n = 0 then v ^^^ rc else v

/-- The permutation. -/
def keccakF (a : List DWord) : List DWord := keccakRc.foldl keccakRound a

/-- The words of a 136-byte block. -/
def blockWords (bs : List Byte) : List DWord :=
  (List.range 17).map fun j => BitVec.ofNat 64 (leNat ((bs.drop (8 * j)).take 8))

/-- Absorb blocks of 136 bytes. The fuel bounds the blocks. -/
def keccakAbsorb : Nat → List DWord → List Byte → List DWord
  | 0, a, _ => a
  | n + 1, a, bs =>
    if bs.isEmpty then a
    else
      let w := blockWords (bs.take 136)
      keccakAbsorb n (keccakF ((List.range 25).map fun j => a.getD j 0 ^^^ w.getD j 0)) (bs.drop 136)

/-- Squeeze blocks of 136 bytes. -/
def keccakSqueeze : Nat → List DWord → List Byte
  | 0, _ => []
  | n + 1, a => ((a.take 17).map fun w => leBytes 8 w.toNat).flatten ++ keccakSqueeze n (keccakF a)

/-- A message with its suffix and padding. -/
def shakePad (m : List Byte) : List Byte :=
  let z := 136 - (m.length + 1) % 136
  if z = 136 then m ++ [0x9F#8] else m ++ [0x1F#8] ++ List.replicate (z - 1) 0#8 ++ [0x80#8]

/-- SHAKE256 of a message, `n` bytes. -/
def shake256 (m : List Byte) (n : Nat) : List Byte :=
  let p := shakePad m
  (keccakSqueeze (n / 136 + 1) (keccakAbsorb (p.length / 136 + 1) (List.replicate 25 0) p)).take n

/-- The bytes of an ASCII string. -/
def ascii (t : String) : List Byte := t.toList.map fun c => BitVec.ofNat 8 c.toNat

end Sys2Proof.Machine
end

