-- ==== Sys2Proof/Config.lean ====
section
/-! DEFINITION. What the spec leaves open or what one module fixes: the free values (opaque constants with no body, so
that nothing can be proved of a value of theirs), the schedule that an empty list of turns falls back on, and the keys,
ciphers and signatures whose values no agent of the model can compute. Each is named in the assumption log. -/

namespace Sys2Proof.Config

/-! ### The schedule and free values -/

/-- The n-th turn taken when no turn is given (assumption 2): any turn may come next. -/
opaque turn : Nat → Turn
/-- A free 32-bit value (assumption 9): the n-th value that the spec leaves open. -/
opaque freeWord : Nat → Word
/-- A free choice (assumption 9), such as whether a cached line has been evicted meanwhile. -/
opaque freeBool : Nat → Bool
/-- The upper half of the latch read as a 64-bit operand (assumption 9: R111 gives it 32 bits): by the number of the issue,
the lane and the 32 bits. -/
opaque latchHigh : Nat → Nat → Word → Word
/-- Which of the results within the error bound a special function delivers (07 R160): the index among the
candidates, a function of the operation and its input alone, because every stove gives the same bits. -/
opaque sfuPick : Nat → Word → Nat

/-- The byte that a peer or a device answers for an address, to the ask with a number (assumption 13: what it holds is its own). -/
opaque peerByte : Nat → Nat → Byte
/-- The port that a peer line goes by: a hash of the line address over the ports that may be taken (20 R423; assumption 26). -/
opaque portHash : Nat → Nat
/-- Along which row the stages of a geometric predicate expand a determinant (07 R170, assumption 16): by the number of
rows. -/
opaque geomRow : Nat → Nat

/-! ### What one module fixes -/

/-- SMASK of each physical hearth, written by fuses at manufacture (21 R431). -/
opaque smask : Nat → BitVec 17
/-- The one-time-programmable device secret (14 R329). -/
opaque deviceSecret : List Byte
/-- SHAKE256, 32 bytes, of the device identity public key (16 R370). -/
opaque identity : BitVec 256
/-- The n-th 32-byte nonce drawn from the root of trust (14 R325). -/
opaque nonce : Nat → List Byte

/-- The send window that the service firmware sets for a chimney (20 R424): request tags and bytes of write data, before its bounds. -/
opaque hostWindow : Nat → Nat × Nat
/-- Whether a firmware generation implements a service number other than those of 19 R410 (11 R267: the spec lists no other). -/
opaque firmwareServes : Nat → BitVec 16 → Bool

/-! ### Ciphers, tags and signatures -/

/-- AES-256-GCM under a key, with IV and additional data: the ciphertext of a plaintext (19 R412, R413). -/
opaque gcmSeal : List Byte → BitVec 96 → List Byte → List Byte → List Byte
/-- The plaintext of a ciphertext under AES-256-GCM. -/
opaque gcmOpen : List Byte → BitVec 96 → List Byte → List Byte → List Byte
/-- The tag of AES-256-GCM over additional data and ciphertext. -/
opaque gcmTag : List Byte → BitVec 96 → List Byte → List Byte → BitVec 128
/-- AES-256-XTS (19 R414): the data key and the tweak key, the physical line address that is the tweak, the plaintext. -/
opaque xts : List Byte → Nat → List Byte → List Byte
/-- A line of a compressed page in its compressed form (19 R414), whose method the spec does not give (assumption 49). -/
opaque compressed : List Byte → List Byte
/-- The stage-1 firmware that the module is made with (22 R441): version, measurement, signature. -/
opaque bootImage : Nat × BitVec 512 × List Byte
/-- Whether a firmware image's XMSS^MT signature verifies (22 R441, R448). -/
opaque fwVerify : FwImage → Bool
/-- Whether a TESTMODE request is signed by the vendor's manufacturing key (22 R450). -/
opaque testmodeVerify : List Byte → Bool
/-- The bytes of the XMSS^MT signature of a report with a leaf, after the leaf index: randomiser and layers (14 R339). -/
opaque xmssByte : Nat → List Byte → Nat → Byte
/-- The certificate chain of the device (14 R340). -/
opaque certChain : List Byte
/-- The device's key-exchange share in an SPDM session (14 R340, secp384r1). -/
opaque spdmShare : Nat → List Byte → List Byte
/-- The context whose owner holds an SPDM session, by connection and key generation (14 R340: how the device knows the owner is
not said, assumption 24). -/
opaque spdmOwner : Nat → Nat → Option Nat
/-- Whether an SPDM FINISH verifies in its session (14 R340). -/
opaque spdmFinish : Nat → List Byte → Bool
/-- SHA3-384 of a byte string (14 R340). -/
opaque sha3x384 : List Byte → BitVec 384
/-- The key of a stream in one direction, the application data key of an SPDM session (20 R426): the context's nonce, CID, roster
index, epoch, key generation, and whether the package sends. -/
opaque streamKey : List Byte → Nat → Nat → Word → Nat → Bool → List Byte

end Sys2Proof.Config
end

