-- ==== Sys2Proof/Machine/Flags.lean ====
section
/-! DEFINITION. The sticky flags of sr.fpst (02 R33) and what raises them in a rounding (02 R30-R32). -/

namespace Sys2Proof.Machine

/-- The six sticky flags of a lane, in the layout of `sr.fpst` bits 5:0 (02 R33). -/
abbrev FlagSet := BitVec 6

/-- Invalid operation. -/
def flagNV : FlagSet := 0x01
/-- Division by zero. -/
def flagDZ : FlagSet := 0x02
/-- Overflow. -/
def flagOF : FlagSet := 0x04
/-- Underflow. -/
def flagUF : FlagSet := 0x08
/-- Inexact. -/
def flagNX : FlagSet := 0x10
/-- I4X overflow (02 R39). -/
def flagXO : FlagSet := 0x20

/-- A flag raised on a condition. -/
def flagIf (c : Bool) (f : FlagSet) : FlagSet := if c then f else 0

/-- The flags of a rounding that did not overflow: underflow when the result is tiny and inexact, inexact when it differs
from the exact value (02 R32). -/
def roundFlags (tiny inexact : Bool) : FlagSet := flagIf (tiny && inexact) flagUF ||| flagIf inexact flagNX

/-- The flags of an overflow (02 R32). -/
def overflowFlags : FlagSet := flagOF ||| flagNX

end Sys2Proof.Machine
end

