-- ==== Sys2Proof/Machine/Operands.lean ====
section
/-! DEFINITION. Operands: registers of a flue, sources by type and lane, guards, predicates, and the writing of results
with the latch (00 R10, 02 R36, 03 R62-R66, 05 R109-R111, 06 R126-R130). -/

namespace Sys2Proof

/-- A destination whose write updates the latch: `v` or `o` (05 R111). -/
def Opnd.latches : Opnd → Bool
  | .v _ => true
  | .o _ => true
  | _ => false

/-- The operand is a scalar register. -/
def Opnd.isScalar : Opnd → Bool
  | .s _ => true
  | _ => false

/-- `one` in a type (03 R65, 06 R126). -/
def Ty.one : Ty → DWord
  | .f32 => 0x3F800000
  | .f64 => 0x3FF0000000000000
  | .f16x2 => 0x3C003C00
  | .bf16x2 => 0x3F803F80
  | .f16 => 0x3C00
  | .bf16 => 0x3F80
  | .i16x2 => 0x00010001
  | .z16x2 => 0x00010001
  | .i8x4 => 0x01010101
  | .z8x4 => 0x01010101
  | .b32 => 1
  | .i32 => 1
  | .z32 => 1
  | .i64 => 1
  | .z64 => 1

/-- An FP32 encoding widened exactly to FP64 (03 R65); a NaN keeps its sign and payload. -/
def widen32 (w : Word) : DWord :=
  let e := (w.extractLsb' 23 8).toNat
  let m := (w.extractLsb' 0 23).toNat
  let s : Nat := if w.getLsbD 31 then 2 ^ 63 else 0
  if e = 255 then BitVec.ofNat 64 (s + 0x7FF * 2 ^ 52 + m * 2 ^ 29)
  else if e = 0 then
    if m = 0 then BitVec.ofNat 64 s
    else
      let k := Nat.log2 m
      BitVec.ofNat 64 (s + (k + 874) * 2 ^ 52 + (m - 2 ^ k) * 2 ^ (52 - k))
  else BitVec.ofNat 64 (s + (e + 896) * 2 ^ 52 + m * 2 ^ 29)

/-- The literal word in a type (03 R65). -/
def Ty.litVal (ty : Ty) (w : Word) : DWord :=
  match ty with
  | .i64 => w.signExtend 64
  | .f64 => widen32 w
  | _ => w.setWidth 64

end Sys2Proof

namespace Sys2Proof.Machine

/-! ### Frames and depths -/

/-- The current depth of the flue: its last frame (05 R102, R115). -/
def Flue.curDepth (f : Flue) : Nat := f.frames.length - 1
/-- The frame at the current depth. -/
def Flue.top (f : Flue) : Frame := f.frames.getLastD {}
/-- The depth of a lane. -/
def Flue.depthOf (f : Flue) (lane : Nat) : Nat := (SMap.get f.depth lane).toNat
/-- The program counter of a lane. -/
def Flue.pcOf (f : Flue) (lane : Nat) : DWord := SMap.get f.pc lane

/-- The frame with the given identity. -/
def frameOf : List Frame → Nat → Option Frame
  | [], _ => none
  | fr :: t, uid => if fr.uid = uid then some fr else frameOf t uid

/-- Write one register of the frame with the given identity; with no such frame nothing is written (03 R74). -/
def writeFrames (fs : List Frame) (uid key : Nat) (v : Word) : List Frame :=
  fs.map fun fr => if fr.uid = uid then { fr with regs := SMap.set fr.regs key v } else fr

/-! ### Registers -/

/-- The key of a lane of a vector register. -/
def regKey (n lane : Nat) : Nat := 32 * n + lane

/-- Where the `j`-th register of an operand stands for this flue: `v` names the current frame, or the handler frame in
handler mode (05 R110). -/
def Flue.loc (f : Flue) (o : Opnd) (j : Nat) : RegLoc :=
  match o with
  | .v n => if f.phase = .handler then .h (n.toNat + j) else .v f.top.uid (n.toNat + j)
  | .o n => .o (n.toNat + j)
  | .s n => .s (n.toNat + j)
  | .pred n => .p n.toNat
  | .latch => .none
  | .zero => .none
  | .one => .none
  | .lane => .none
  | .flue => .none
  | .lit => .none
  | .cond _ => .none

/-- A scalar register. -/
def RegLoc.isScalar : RegLoc → Bool
  | .s _ => true
  | _ => false

/-- The predicate `n` in every lane; `p0` is true (05 R109). -/
def Flue.predMask (f : Flue) (n : Nat) : LaneMask := if n = 0 then 0xFFFFFFFF#32 else SMap.get f.p n
/-- The predicate `n` in one lane. -/
def Flue.pred (f : Flue) (n lane : Nat) : Bool := (f.predMask n).getLsbD lane

/-- Read a register element. -/
def Flue.readLoc (f : Flue) (r : RegLoc) (lane : Nat) : Word :=
  match r with
  | .v uid n => match frameOf f.frames uid with
    | some fr => SMap.get fr.regs (regKey n lane)
    | none => 0
  | .h n => SMap.get f.hframe (regKey n lane)
  | .o n => SMap.get f.o (regKey n lane)
  | .s n => SMap.get f.s n
  | .p n => if f.pred n lane then 1 else 0
  | .none => 0

/-- Set a predicate in the lanes of a mask to the bits given; a write to `p0` has no effect (00 R10). -/
def Flue.setPred (f : Flue) (n : Nat) (lanes bits : LaneMask) : Flue :=
  if n = 0 then f else { f with p := SMap.set f.p n ((SMap.get f.p n &&& ~~~lanes) ||| (bits &&& lanes)) }

/-- Write a register element. -/
def Flue.writeLoc (f : Flue) (r : RegLoc) (lane : Nat) (v : Word) : Flue :=
  match r with
  | .v uid n => { f with frames := writeFrames f.frames uid (regKey n lane) v }
  | .h n => { f with hframe := SMap.set f.hframe (regKey n lane) v }
  | .o n => { f with o := SMap.set f.o (regKey n lane) v }
  | .s n => { f with s := SMap.set f.s n v }
  | .p n => f.setPred n (laneBit lane) (if v.getLsbD 0 then laneBit lane else 0)
  | .none => f

/-- Make one element of a result, with the latch where it goes along; no older result reaches the latch after it (05 R111). -/
def Flue.write1 (f : Flue) (w : LaneWrite) : Flue :=
  let g := f.writeLoc w.loc w.lane w.val
  if w.toLatch then { g with l := SMap.set g.l w.lane w.val, lown := Tab.del g.lown w.lane } else g

/-- Make the elements of a result. -/
def Flue.writeAll (f : Flue) (ws : List LaneWrite) : Flue := ws.foldl Flue.write1 f

/-- The elements of a late result as they are written: the latch of a lane takes one only while its instruction is still the
lane's most recent to write a `v` or `o` destination (05 R111). -/
def Flue.stillLatched (f : Flue) (seed : Nat) (ws : List LaneWrite) : List LaneWrite :=
  ws.map fun w => { w with toLatch := w.toLatch && Tab.get? f.lown w.lane == some seed }

/-- Make the elements of a late result of the instruction numbered `seed`. -/
def Flue.writeLate (f : Flue) (seed : Nat) (ws : List LaneWrite) : Flue := f.writeAll (f.stillLatched seed ws)

/-- The instruction numbered `seed` is from now the most recent one for the latches of its lanes (05 R111). -/
def Flue.claimLatch (f : Flue) (seed : Nat) (ws : List LaneWrite) : Flue :=
  { f with lown := (ws.filter fun w => w.toLatch).foldl (fun t w => Tab.put t w.lane seed) f.lown }

/-- The elements that write a run of words to a destination in one lane: word `j` to the `j`-th register; the latch takes
the first (06 R130) unless the instruction selects a flag (05 R111). -/
def destWrites (view : Flue) (d : Opnd) (latch : Bool) (lane : Nat) (j : Nat) : List Word → List LaneWrite
  | [] => []
  | w :: ws => ⟨view.loc d j, lane, w, latch && d.latches && j == 0⟩ :: destWrites view d latch lane (j + 1) ws

/-- The 32-bit words of a value that takes `n` registers. -/
def wordsOf (n : Nat) (v : DWord) : List Word := if n = 2 then [v.setWidth 32, (v >>> 32).setWidth 32] else [v.setWidth 32]

/-! ### Sources -/

/-- What a source is read from: the flue as it stood before the issue opportunity (06 R129), the slot, the number for free
values, and the literal word. -/
structure Src where
  view : Flue
  slot : Nat
  seed : Nat
  lit : Word

/-- The sources of an instruction that is issuing. -/
def Issue.src (i : Issue) (lit : Option Word) : Src := ⟨i.view, i.slot, i.seed, lit.getD 0⟩

/-- `Read(op, lane)`: the operand at a type, zero-extended to 64 bits when the type takes one register (00 R10, 03 R62,
R65). -/
def Src.read (c : Src) (o : Opnd) (ty : Ty) (lane : Nat) : DWord :=
  match o with
  | .v _ | .o _ | .s _ =>
    if ty.regs = 2 then c.view.readLoc (c.view.loc o 1) lane ++ c.view.readLoc (c.view.loc o 0) lane
    else (c.view.readLoc (c.view.loc o 0) lane).setWidth 64
  | .latch =>
    let l := SMap.get c.view.l lane
    if ty.regs = 2 then Config.latchHigh c.seed lane l ++ l else l.setWidth 64
  | .zero => 0
  | .one => ty.one
  | .lane => BitVec.ofNat 64 lane
  | .flue => BitVec.ofNat 64 c.slot
  | .lit => ty.litVal c.lit
  | .pred n => if c.view.pred n.toNat lane then 1 else 0
  | .cond _ => 0

/-- A 32-bit source. -/
def Src.word (c : Src) (o : Opnd) (lane : Nat) : Word := (c.read o .b32 lane).setWidth 32

/-- The words of a run of `n` registers in one lane. -/
def Src.run (c : Src) (o : Opnd) (n lane : Nat) : List Word := (List.range n).map fun j => c.view.readLoc (c.view.loc o j) lane

/-! ### Guards and lanes -/

/-- The lanes of the flue in which a guard holds (03 R66). -/
def Flue.guard (f : Flue) (g : Guard) : LaneMask :=
  let m := f.predMask g.p.toNat
  if g.neg then ~~~m else m

/-- `Active(G)`: the lanes that take the instruction and whose guard holds (00 R10). -/
def Issue.active (i : Issue) (g : Guard) : LaneMask := i.lanes &&& i.view.guard g

/-- The lowest lane of a mask (0 when it is empty). -/
def lowLane (m : LaneMask) : Nat := (lanesOf m).headD 0

/-! ### Results -/

/-- The result of a lane and the sticky flags it raises. -/
structure LaneRes where
  val : DWord
  flags : FlagSet := 0

/-- Flags ORed into `sr.fpst` of a lane (06 R128). -/
def Flue.raiseFlags (f : Flue) (lane : Nat) (x : FlagSet) : Flue :=
  if x = 0 then f else { f with fpst := SMap.set f.fpst lane (SMap.get f.fpst lane ||| x) }

/-- Flags of each lane of a mask. -/
def Flue.raiseAll (f : Flue) (lanes : List Nat) (x : Nat → FlagSet) : Flue := lanes.foldl (fun g l => g.raiseFlags l (x l)) f

/-- The elements that a result of `n` registers writes: one per active lane, or one in all for a scalar destination, taken
in the lowest active lane (03 R64: every source is uniform there). -/
def resultWrites (view : Flue) (d : Opnd) (n : Nat) (latch : Bool) (lanes : List Nat) (v : Nat → DWord) : List LaneWrite :=
  if d.isScalar then
    match lanes with
    | [] => []
    | l :: _ => destWrites view d latch 0 0 (wordsOf n (v l))
  else (lanes.map fun l => destWrites view d latch l 0 (wordsOf n (v l))).flatten

end Sys2Proof.Machine
end

