-- ==== Sys2Proof/Machine/Lens.lean ====
section
/-! DEFINITION. Reaching the parts of the package: stoves, flues, hearths, dies, partitions, kernels, groups, contexts, and
the logical numbers that programs see (01 R22, R23, 21 R431, R432). A stove index is 16 x physical hearth + position. -/

namespace Sys2Proof.Machine

/-- The outcome of a meaning. -/
abbrev Res := Host.Outcome State Fault Refusal

/-- The stove at an index. -/
def State.stove (s : State) (n : Nat) : Stove := Tab.getD s.stoves n {}
/-- Put a stove. -/
def State.setStove (s : State) (n : Nat) (st : Stove) : State := { s with stoves := Tab.put s.stoves n st }
/-- The flue in a slot, if the slot is not EMPTY. -/
def State.flue? (s : State) (stove slot : Nat) : Option Flue := Tab.get? (s.stove stove).flues slot
/-- Put a flue in a slot. -/
def State.setFlue (s : State) (stove slot : Nat) (f : Flue) : State :=
  s.setStove stove { s.stove stove with flues := Tab.put (s.stove stove).flues slot f }
/-- Empty a slot. -/
def State.dropFlue (s : State) (stove slot : Nat) : State :=
  s.setStove stove { s.stove stove with flues := Tab.del (s.stove stove).flues slot }
/-- Change the flue in a slot, if there is one. -/
def State.modFlue (s : State) (stove slot : Nat) (k : Flue → Flue) : State :=
  match s.flue? stove slot with
  | some f => s.setFlue stove slot (k f)
  | none => s

/-- The physical hearth of a stove. -/
def hearthOf (stove : Nat) : Nat := stove / 16
/-- The compute die of a stove (21 R431). -/
def dieOf (stove : Nat) : Nat := stove / 128
/-- A hearth. -/
def State.hearth (s : State) (h : Nat) : Hearth := Tab.getD s.hearths h {}
/-- Put a hearth. -/
def State.setHearth (s : State) (h : Nat) (x : Hearth) : State := { s with hearths := Tab.put s.hearths h x }
/-- A compute die. -/
def State.die (s : State) (d : Nat) : Die := Tab.getD s.dies d {}
/-- Put a compute die. -/
def State.setDie (s : State) (d : Nat) (x : Die) : State := { s with dies := Tab.put s.dies d x }
/-- A partition. -/
def State.part? (s : State) (p : Nat) : Option Partition := Tab.get? s.parts p
/-- Put a partition. -/
def State.setPart (s : State) (p : Nat) (x : Partition) : State := { s with parts := Tab.put s.parts p x }
/-- A kernel control block in a partition's kernel table (16 R359). -/
def State.kernel? (s : State) (p k : Nat) : Option Kernel :=
  match s.part? p with
  | some x => Tab.get? x.kernels k
  | none => none
/-- Put a kernel control block. -/
def State.setKernel (s : State) (p k : Nat) (x : Kernel) : State :=
  match s.part? p with
  | some pt => s.setPart p { pt with kernels := Tab.put pt.kernels k x }
  | none => s
/-- Free a kernel control block. -/
def State.dropKernel (s : State) (p k : Nat) : State :=
  match s.part? p with
  | some pt => s.setPart p { pt with kernels := Tab.del pt.kernels k }
  | none => s
/-- A context. -/
def State.ctx? (s : State) (c : Nat) : Option Context := Tab.get? s.ctxs c
/-- Put a context. -/
def State.setCtx (s : State) (c : Nat) (x : Context) : State := { s with ctxs := Tab.put s.ctxs c x }
/-- Change a context, if it exists. -/
def State.modCtx (s : State) (c : Nat) (k : Context → Context) : State :=
  match s.ctx? c with
  | some x => s.setCtx c (k x)
  | none => s
/-- A resident group. -/
def State.group? (s : State) (stove g : Nat) : Option Group := Tab.get? (s.stove stove).groups g
/-- Put a resident group. -/
def State.setGroup (s : State) (stove g : Nat) (x : Group) : State :=
  s.setStove stove { s.stove stove with groups := Tab.put (s.stove stove).groups g x }
/-- Free a resident group. -/
def State.dropGroup (s : State) (stove g : Nat) : State :=
  s.setStove stove { s.stove stove with groups := Tab.del (s.stove stove).groups g }
/-- A hart. -/
def State.hart (s : State) (h : Nat) : Hart := Tab.getD s.harts h {}
/-- Put a hart. -/
def State.setHart (s : State) (h : Nat) (x : Hart) : State := { s with harts := Tab.put s.harts h x }

/-- The physical stoves of a hearth that passed test, by number (21 R431). -/
def workingStoves (smask : BitVec 17) : List Nat := (List.range 17).filter fun p => smask.getLsbD p
/-- The physical stove at a position of a hearth (21 R432): the stove index 16 h + j stands for stove `physicalStove (Config.smask h) j`
of hearth h. Every hearth of a module has 16 working stoves at least (01 R13). -/
def physicalStove (smask : BitVec 17) (position : Nat) : Nat := (workingStoves smask).getD position 0
/-- The spare of a hearth all of whose stoves passed test: the highest (01 R13, 21 R432). -/
def spareStove (smask : BitVec 17) : Option Nat := (workingStoves smask)[16]?
/-- The 32-bit entry of the remap table for a hearth (21 R431): PART and LHEARTH of a hearth that is not assigned read zero. -/
def remapWord (smask : BitVec 17) (r : Option Remap) : Word :=
  match r with
  | some r => BitVec.ofNat 6 r.part ++ BitVec.ofNat 6 r.lhearth ++ 1#1 ++ 0#2 ++ smask
  | none => smask.setWidth 32
/-- The entry of a hearth. -/
def State.remapEntry (s : State) (h : Nat) : Word := remapWord (Config.smask h) (Tab.get? s.remap h)

/-- The logical hearth of a physical hearth (21 R432; 0 when it is not assigned). -/
def State.lhearth (s : State) (h : Nat) : Nat :=
  match Tab.get? s.remap h with
  | some r => r.lhearth
  | none => 0
/-- The logical number of a stove (01 R22). -/
def State.lstove (s : State) (stove : Nat) : Nat := 16 * s.lhearth (hearthOf stove) + stove % 16
/-- The partition that a stove belongs to. -/
def State.partOf (s : State) (stove : Nat) : Option Nat := (Tab.get? s.remap (hearthOf stove)).map (·.part)
/-- The stoves of a partition, in ascending logical order (21 R432: the partition's hearths in ascending physical order). -/
def State.partStoves (s : State) (p : Nat) : List Nat :=
  match s.part? p with
  | some x => (x.hearths.map fun h => (List.range 16).map fun j => 16 * h + j).flatten
  | none => []
/-- The physical stove with a logical number in a partition. -/
def State.physStove (s : State) (p l : Nat) : Option Nat := (s.partStoves p)[l]?

/-- Apply a function to every stove that the state lists. -/
def State.mapStoves (s : State) (k : Nat → Stove → Stove) : State :=
  { s with stoves := s.stoves.map fun x => (x.1, k x.1 x.2) }

/-- Run a meaning on the issuing flue (`Fault.noIssue` when no instruction is issuing). -/
def onIssue (s : State) (k : Issue → Flue → State) : Res :=
  match s.issue with
  | none => .fault .noIssue
  | some i =>
    match s.flue? i.stove i.slot with
    | none => .fault .noIssue
    | some f => .next (k i f)

/-- Run a meaning that changes only the issuing flue. -/
def onFlue (s : State) (k : Issue → Flue → Flue) : Res := onIssue s fun i f => s.setFlue i.stove i.slot (k i f)

/-- Take the next free word (assumption 9). -/
def State.takeFree (s : State) : Word × State := (Config.freeWord s.freeIdx, { s with freeIdx := s.freeIdx + 1 })
/-- Take the next free choice (assumption 9). -/
def State.takeBool (s : State) : Bool × State := (Config.freeBool s.freeIdx, { s with freeIdx := s.freeIdx + 1 })
/-- Take `n` free bytes (assumption 9). -/
def State.takeBytes (s : State) : Nat → List Byte × State
  | 0 => ([], s)
  | n + 1 =>
    let r := ({ s with freeIdx := s.freeIdx + 1 } : State).takeBytes n
    ((Config.freeWord s.freeIdx).setWidth 8 :: r.1, r.2)

/-- Add an answer to an agent outside the package. -/
def State.say (s : State) (r : Reply) : State := { s with outbox := s.outbox ++ [r] }

end Sys2Proof.Machine
end

