-- ==== Sys2Proof/Machine/Keys.lean ====
section
/-! DEFINITION. The keys of a context (14 R329, 19 R409, R415), the sealed packets of the on-chip network (14 R330), and the counting of
events (14 R341). -/

namespace Sys2Proof.Machine

/-! ### Keys -/

/-- What every key of a context is derived from. -/
def Context.secret (c : Context) : List Byte := Config.deviceSecret ++ c.nonce ++ c.meas
/-- Kmem: data key, then tweak key. -/
def Context.kmem (c : Context) : List Byte := shake256 (ascii "MEM" ++ c.secret) 64
/-- Kworld at the context's EPOCH. -/
def Context.kworld (c : Context) : List Byte := shake256 (ascii "WORLD" ++ c.secret ++ leBytes 4 c.epoch.toNat) 32
/-- Kseal, of sealed images and save areas. -/
def Context.kseal (c : Context) : List Byte := shake256 (ascii "SEAL" ++ c.secret) 32
/-- Kclr, of shared-clear pages (19 R409). -/
def kclr : List Byte := shake256 (ascii "CLEAR" ++ Config.deviceSecret) 64
/-- The integrity key that goes with a memory key (19 R415). -/
def integrityKey (k : List Byte) : List Byte := shake256 (ascii "TAG" ++ k) 32

/-- A number with its length in bytes before it and after it (SP 800-185). -/
def beBytes (n : Nat) : List Byte :=
  let k := (List.range 8).foldl (fun m j => if 256 ^ (j + 1) ≤ n then j + 2 else m) 1
  (leBytes k n).reverse
def leftEncode (n : Nat) : List Byte := BitVec.ofNat 8 (beBytes n).length :: beBytes n
def rightEncode (n : Nat) : List Byte := beBytes n ++ [BitVec.ofNat 8 (beBytes n).length]
/-- A string with its length in bits. -/
def encodeString (s : List Byte) : List Byte := leftEncode (8 * s.length) ++ s
/-- Fill up to whole blocks of 136 bytes. -/
def bytePad (s : List Byte) : List Byte :=
  let t := leftEncode 136 ++ s
  t ++ List.replicate ((136 - t.length % 136) % 136) 0
/-- A message of cSHAKE256 with its suffix and padding. -/
def cshakePad (m : List Byte) : List Byte :=
  let z := 136 - (m.length + 1) % 136
  if z = 136 then m ++ [0x84#8] else m ++ [0x04#8] ++ List.replicate (z - 1) 0#8 ++ [0x80#8]
/-- KMAC256 of SP 800-185, which 19 R415 names and does not print (assumption 21): key, message, bytes of the tag, with no
customization string. -/
def kmac256 (k m : List Byte) (n : Nat) : List Byte :=
  let p := cshakePad (bytePad (encodeString (ascii "KMAC") ++ encodeString []) ++ bytePad (encodeString k) ++ m ++ rightEncode (8 * n))
  (keccakSqueeze (n / 136 + 1) (keccakAbsorb (p.length / 136 + 1) (List.replicate 25 0) p)).take n

/-! ### Events that are counted -/

/-- Count `n` events of a code on the counters of a context that select it (14 R341): the unit counts them, and forwards them
later. -/
def State.countN (s : State) (cid code n : Nat) : State :=
  match s.ctx? cid with
  | some c => { s with counts := ((c.pmsel.filter fun p => p.2.toNat == code).foldl
      (fun m p => SMap.set m (16 * cid + p.1) (SMap.get m (16 * cid + p.1) + BitVec.ofNat 32 n)) s.counts) }
  | none => s

/-- Count one event. -/
def State.count (s : State) (cid code : Nat) : State := s.countN cid code 1

/-- What the units have counted for a counter of a context and not yet forwarded. -/
def State.counted (s : State) (cid n : Nat) : Word := SMap.get s.counts (16 * cid + n)

/-- PMVAL of a counter of a context (14 R341, R342): what the units have forwarded; while the context is SUSPENDED, exact. -/
def State.pmVal (s : State) (cid n : Nat) : Word :=
  match s.ctx? cid with
  | some c => SMap.get c.pmval n + (if c.state = .suspended then s.counted cid n else 0)
  | none => 0

/-- The units forward what they have counted for a context (14 R342). -/
def State.forward (s : State) (cid : Nat) : State :=
  match s.ctx? cid with
  | some c => ({ s with counts := s.counts.filter fun p => p.1 / 16 != cid } : State).setCtx cid { c with
      pmval := SMap.setAll [] ((List.range 16).map fun n => (n, SMap.get c.pmval n + s.counted cid n)) }
  | none => s

/-! ### The on-chip network (14 R330, R331)

An access to a slice or to a die scratchpad is one packet that asks and one that answers, whatever its size (DESIGN CHOICE, assumption
50). -/

/-- Port numbers: memory slices, scratchpads, I/O dies, the control die. Hearths have their own numbers. Of the eight numbers of I/O dies
the four dies of 01 R12 take the first four. -/
def portSlice (n : Nat) : Nat := 64 + n
def portScp (die : Nat) : Nat := 128 + die
def portIo (die : Nat) : Nat := 136 + die
def portControl : Nat := 144

/-- A flow identifier: CID, SRC, DST, CLS. -/
def flowId (cid src dst cls : Nat) : Word := BitVec.ofNat 12 cid ++ BitVec.ofNat 8 src ++ BitVec.ofNat 8 dst ++ BitVec.ofNat 4 cls
/-- The IV of a packet. -/
def packetIv (flow : Word) (ctr : DWord) : BitVec 96 := flow ++ ctr
/-- The 32-bit tag of a packet under Kworld: the first bits of the GCM tag (assumption 50). -/
def packetTag (key : List Byte) (flow : Word) (ctr : DWord) (body : List Byte) : Word :=
  (Config.gcmTag key (packetIv flow ctr) [] body).extractLsb' 96 32
/-- The packet that a context's next message on a flow becomes. -/
def State.packet (s : State) (c : Context) (flow : Word) (text : List Byte) : Packet :=
  let ctr := SMap.get s.flows flow.toNat
  let body := Config.gcmSeal c.kworld (packetIv flow ctr) [] text
  ⟨flow, ctr, body, packetTag c.kworld flow ctr body⟩
/-- The tag of a packet matches. -/
def packetGenuine (p : Packet) (c : Context) : Bool := p.tag == packetTag c.kworld p.flow p.ctr p.body

/-- A packet of a context goes from a port to another in a class: its flow counter rises. -/
def State.sendPacket (s : State) (cid src dst cls : Nat) : State :=
  let k := (flowId cid src dst cls).toNat
  ({ s with flows := SMap.set s.flows k (SMap.get s.flows k + 1) } : State).count cid 9

/-- A request of a class and its response. -/
def State.exchange (s : State) (cid src dst cls : Nat) : State := (s.sendPacket cid src dst cls).sendPacket cid dst src 1

/-- The flow counters of a context start at zero: Kworld of an epoch is loaded. -/
def State.zeroFlows (s : State) (cid : Nat) : State := { s with flows := s.flows.filter fun p => p.1 / 2 ^ 20 != cid % 4096 }

end Sys2Proof.Machine
end

