-- ==== Sys2Proof/Machine/Flit.lean ====
section
/-! DEFINITION. Flits and ports (20 R420-R423, R426): what a flit's CRC and tag cover, the port that a line goes by, sending and replay.
What chapter 20 leaves open of flits is in assumption 26. -/

namespace Sys2Proof.Machine

/-- Change a roster entry of a context. -/
def State.modPeer (s : State) (cid r : Nat) (k : Peer → Peer) : State :=
  s.modCtx cid fun c => { c with roster := Tab.modify c.roster r k }
/-- A roster entry of a context. -/
def State.peer? (s : State) (cid r : Nat) : Option Peer := (s.ctx? cid).bind fun c => Tab.get? c.roster r

/-! ### A flit -/

/-- CRC-64/ECMA-182 of bytes: polynomial 0x42F0E1EBA9EA3693, most significant bit first. -/
def crc64 (bs : List Byte) : DWord :=
  bs.foldl (fun (c : DWord) (b : Byte) =>
    (List.range 8).foldl (fun (c : DWord) _ => if c.getLsbD 63 then (c <<< 1) ^^^ 0x42F0E1EBA9EA3693 else c <<< 1)
      (c ^^^ (BitVec.setWidth 64 b <<< (56 : Nat)))) 0

/-- The 208 bytes of a flit's payload. -/
def fullPayload (f : Flit) : List Byte := (f.payload ++ List.replicate 208 0).take 208
/-- Data in a payload: a byte that tells how many bytes follow, the bytes, and zeros (assumption 26). -/
def payloadOf (data : List Byte) : List Byte := (BitVec.ofNat 8 data.length :: data ++ List.replicate 208 0).take 208
/-- The data that a payload holds. -/
def dataOf (payload : List Byte) : List Byte := payload.tail.take (payload.headD 0).toNat

/-- Bytes +0 to +247 of a flit (20 R420). -/
def flitBytes (f : Flit) : List Byte :=
  [f.vc, f.kind] ++ leBytes 2 f.sid.toNat ++ leBytes 4 f.seq.toNat ++ leBytes 4 f.ackSeq.toNat ++ [f.hold, 0] ++
  leBytes 2 f.tagId.toNat ++ leBytes 8 f.ctr.toNat ++ leBytes 8 f.addr.toNat ++
  fullPayload f ++ leBytes 8 f.gtag.toNat

/-- The IV of a flit (20 R426): CID, roster index, direction, eleven zero bits, CTR. Whose CID and index, and which direction is 1, is in
assumption 26. -/
def flitIv (cid r : Nat) (sending : Bool) (ctr : DWord) : BitVec 96 :=
  BitVec.ofNat 12 cid ++ BitVec.ofNat 8 r ++ BitVec.ofBool sending ++ 0#11 ++ ctr
/-- The bytes of a flit that are authenticated and not encrypted (20 R420): +1 to +3 and +16 to +23. -/
def flitAad (f : Flit) : List Byte := f.kind :: leBytes 2 f.sid.toNat ++ leBytes 8 f.ctr.toNat
/-- Bytes +24 to +239 of a flit, which are encrypted (20 R420). -/
def flitText (f : Flit) : List Byte := leBytes 8 f.addr.toNat ++ fullPayload f
/-- The 64-bit AES-256-GCM tag of a flit (20 R420). -/
def flitTag (key : List Byte) (iv : BitVec 96) (f : Flit) : DWord := (Config.gcmTag key iv (flitAad f) (flitText f)).extractLsb' 64 64
/-- The key of a stream of a context (20 R426). -/
def State.streamKey (s : State) (cid r : Nat) (sepoch : Word) (gen : Nat) (sending : Bool) : List Byte :=
  Config.streamKey (match s.ctx? cid with
    | some c => c.nonce
    | none => []) cid r sepoch gen sending

/-- A port. -/
def State.port (s : State) (n : Nat) : Port := Tab.getD s.ports n {}
/-- Put a port. -/
def State.setPort (s : State) (n : Nat) (p : Port) : State := { s with ports := Tab.put s.ports n p }

/-- A link-level flit: KIND 0, with the highest SEQ received in order. No virtual channel is held: the model takes each flit as it comes, so
that all 256 slots of every channel are free (20 R422; assumption 26). -/
def ackFlit (p : Port) : Flit :=
  let f : Flit := { vc := 0, kind := 0, sid := 0xFFFF, seq := p.sendSeq, ackSeq := p.expect - 1, hold := 0, tagId := 0, ctr := 0,
                    addr := 0, payload := [], gtag := 0, crc := 0 }
  { f with crc := crc64 (flitBytes f) }

/-! ### Sending -/

/-- A stream may use a port: it is up, and PATH allows straits (0-63) or chimneys (20 R419). -/
def Peer.mayUse (p : Peer) (n : Nat) : Bool := if n < 64 then p.path % 2 == 1 else p.path / 2 % 2 == 1

/-- The port that a stream's flits to a peer line take: a hash of the line over the ports that are up and that PATH allows (20
R423; the hash: assumption 26). -/
def State.linkPort (s : State) (cid r line : Nat) : Option Nat :=
  match s.peer? cid r with
  | none => none
  | some p =>
    let ps := (List.range 80).filter fun n => (s.port n).up && p.mayUse n
    ps[Config.portHash line % max 1 ps.length]?

/-- Response slots that satisfy a test are free. -/
def State.freeSlots (s : State) (which : Nat × Nat × BitVec 16 → Bool) : State :=
  { s with ports := s.ports.map fun (x : Nat × Port) => (x.1, { x.2 with slots := x.2.slots.filter fun t => !which t }) }
/-- A request or write reserves the slot of its response on the port that it takes (20 R421); the flits of one tag reserve one. -/
def State.reserve (s : State) (port : Nat) (x : Sent) : State :=
  let t := (x.cid, x.roster, x.flit.tagId)
  if 1 < x.flit.vc.toNat then s
  else
    let s1 := s.freeSlots (· == t)
    s1.setPort port { s1.port port with slots := (s1.port port).slots ++ [t] }

/-- Put a flit on a port: it takes the port's next SEQ, and stays in the replay buffer (20 R422). -/
def State.putFlit (s : State) (port : Nat) (x : Sent) : State :=
  let s := s.reserve port x
  let q := s.port port
  let f0 : Flit := { x.flit with seq := q.sendSeq + 1, ackSeq := q.expect - 1 }
  let f := { f0 with crc := crc64 (flitBytes f0) }
  (s.setPort port { q with sendSeq := q.sendSeq + 1, replay := q.replay ++ [{ x with flit := f }] }).say (.flit port f)

/-- The flit that a message of a stream becomes: sealed under the stream's key with its next CTR (20 R420, R426). -/
def State.sealFlit (s : State) (cid r : Nat) (p : Peer) (o : OutFlit) : Flit :=
  let ctr := BitVec.ofNat 64 p.ctrTx
  let key := s.streamKey cid r p.sepoch p.keyGen true
  let iv := flitIv cid r true ctr
  let f0 : Flit := { vc := o.vc, kind := o.kind, sid := BitVec.ofNat 16 r, seq := 0, ackSeq := 0, hold := 0, tagId := o.tag,
                     ctr := ctr, addr := BitVec.ofNat 64 o.addr, payload := payloadOf o.data, gtag := 0, crc := 0 }
  let body := Config.gcmSeal key iv (flitAad f0) (flitText f0)
  let f1 := { f0 with addr := BitVec.ofNat 64 (leNat (body.take 8)), payload := body.drop 8 }
  { f1 with gtag := flitTag key iv f1 }

/-- A message of a stream goes out on a port: it takes the next CTR, and counts at its port (20 R426, 14 R341). -/
def State.sendNext (s : State) (port cid r : Nat) (o : OutFlit) : State :=
  match s.peer? cid r with
  | none => s
  | some p =>
    let s1 := s.modPeer cid r fun p => { p with ctrTx := p.ctrTx + 1 }
    (s1.putFlit port ⟨cid, r, o.addr / 128, s.sealFlit cid r p o, 0⟩).count cid (if port < 64 then 7 else 8)

/-- A message of a stream that has no key yet: nothing of it is encrypted (DESIGN CHOICE, assumption 26). -/
def plainFlit (r : Nat) (o : OutFlit) : Flit :=
  { vc := o.vc, kind := o.kind, sid := BitVec.ofNat 16 r, seq := 0, ackSeq := 0, hold := 0, tagId := o.tag, ctr := 0
    addr := BitVec.ofNat 64 o.addr, payload := payloadOf o.data, gtag := 0, crc := 0 }

/-- The SPDM codes of the two messages that streams exchange on channel 4 (20 R421, R426): KEY_EXCHANGE and KEY_UPDATE. -/
def spdmKeyExchange : Byte := 0xE4
def spdmKeyUpdate : Byte := 0xE9
/-- Such a message: version 1.3, its code, two parameters. -/
def keyFlit (code : Byte) : OutFlit := ⟨4, 8, 0, 0, [0x13, code, 0, 0]⟩

/-- SPDM KEY_EXCHANGE with the peer of a roster entry starts (20 R429), on channel 4 of a port when one is up. -/
def State.sayKeyExchange (s : State) (cid r : Nat) : State :=
  (match s.linkPort cid r 0 with
    | some n => (s.putFlit n ⟨cid, r, 0, plainFlit r (keyFlit spdmKeyExchange), 0⟩).count cid (if n < 64 then 7 else 8)
    | none => s).say (.keyExchange cid r)

/-- The sender issues KEY_UPDATE and restarts CTR under the next key (20 R426). The message itself goes under the key that ends. -/
def State.keyUpdate (s : State) (port cid r : Nat) : State :=
  ((s.sendNext port cid r (keyFlit spdmKeyUpdate)).modPeer cid r fun p => { p with ctrTx := 0, keyGen := p.keyGen + 1 }).say
    (.keyUpdate cid r)

/-- The CTR of a stream has reached 2^48 (20 R426). -/
def State.ctrFull (s : State) (cid r : Nat) : Bool :=
  match s.peer? cid r with
  | some p => decide (2 ^ 48 ≤ p.ctrTx)
  | none => false

/-- Send a message of a stream on a port, after a KEY_UPDATE when its CTR has reached 2^48 (20 R426). -/
def State.sendFlit (s : State) (port cid r : Nat) (o : OutFlit) : State :=
  (if s.ctrFull cid r then s.keyUpdate port cid r else s).sendNext port cid r o

/-- How many flits of a stream on a channel its chimneys have sent and not had acknowledged. -/
def State.inWindow (s : State) (cid r : Nat) (vc : Byte) : Nat :=
  s.ports.foldl (fun n x => if x.1 < 64 then n
    else n + (x.2.replay.filter fun y => y.cid == cid && y.roster == r && y.flit.vc == vc).length) 0

/-- No response slot is left for a request or a write (20 R421): of the 256 of a strait, or of a stream's 16,384 on a chimney. -/
def State.noSlot (s : State) (port cid r : Nat) (vc : Byte) : Bool :=
  decide (vc.toNat ≤ 1) && (if port < 64 then decide (256 ≤ (s.port port).slots.length)
    else decide (16384 ≤ ((s.port port).slots.filter fun t => t.1 == cid && t.2.1 == r).length))

/-- A port that takes no flit of a stream on a channel now: no response slot is left; on a strait the receiver holds the channel, or the
replay buffer of 256 flits is full (20 R422); on a chimney the window of 16,384 flits is used up (R423). -/
def State.portHolds (s : State) (port cid r : Nat) (vc : Byte) : Bool :=
  s.noSlot port cid r vc ||
  (if port < 64 then (s.port port).hold.getLsbD vc.toNat || decide (256 ≤ (s.port port).replay.length)
   else decide (16384 ≤ s.inWindow cid r vc))

/-- A flit to a line waits at a port that is down for a port with room. -/
def State.stranded (s : State) (cid r line : Nat) : Bool :=
  s.ports.any fun x => !x.2.up && x.2.replay.any fun y => y.cid == cid && y.roster == r && y.line == line

/-- An earlier flit keeps a later one back: one of its channel, or a request or write to its line (20 R422, R423). -/
def OutFlit.keepsBack (x o : OutFlit) : Bool := x.vc == o.vc || (x.vc.toNat ≤ 1 && o.vc.toNat ≤ 1 && x.addr / 128 == o.addr / 128)

/-- Flits of a stream go out in order, those that a held one keeps back staying behind it (20 R422, R423). -/
def State.pump (s : State) (cid r : Nat) : State :=
  match s.peer? cid r with
  | none => s
  | some p =>
    if p.lstate ≠ .active then s
    else
      let q := p.out.foldl (fun (a : State × List OutFlit) o =>
        match a.1.linkPort cid r (o.addr / 128) with
        | none => (a.1, a.2 ++ [o])
        | some n =>
          if a.2.any (fun x => x.keepsBack o) || a.1.portHolds n cid r o.vc || a.1.stranded cid r (o.addr / 128) then (a.1, a.2 ++ [o])
          else (a.1.sendFlit n cid r o, a.2)) (s, [])
      q.1.modPeer cid r fun p => { p with out := q.2 }

/-- Messages of a stream under one new tag join those to be sent; a request is paired with its response by the tag. -/
def State.request (s : State) (cid r : Nat) (vc kind : Byte) (addr : Nat) (parts : List (List Byte)) : State :=
  (s.modPeer cid r fun p => { p with
    out := p.out ++ parts.map (fun d => ⟨vc, kind, p.nextTag, addr, d⟩), nextTag := p.nextTag + 1,
    asked := if vc = 0 then p.asked ++ [p.nextTag] else p.asked }).pump cid r

/-- The data of an atomic's flit: AOP with a mark in bit 7 that more values follow in the next flit of its tag, the type's code, and B and
C of each value (assumption 26). -/
def atomData (aop : BitVec 3) (ty : Ty) (more : Bool) (vals : List (DWord × DWord)) : List Byte :=
  (aop.setWidth 8 ||| (if more then 0x80#8 else 0)) :: ty.code.setWidth 8 :: (vals.map fun v => leBytes 8 v.1.toNat ++ leBytes 8 v.2.toNat).flatten

/-- The data of the flits of an atomic: at most 12 values fit in one (20 R420). -/
def atomParts (aop : BitVec 3) (ty : Ty) : Nat → List (DWord × DWord) → List (List Byte)
  | 0, _ => []
  | n + 1, vs => if vs.length ≤ 12 then [atomData aop ty false vs] else atomData aop ty true (vs.take 12) :: atomParts aop ty n (vs.drop 12)

/-- The flits that a write to a peer is: a write on channel 1, or an atomic on channel 0 (20 R421). -/
def Held.flits (h : Held) : List OutFlit :=
  match h.kind with
  | .store bs => [⟨1, 3, h.tag, h.addr, bs⟩]
  | .red aop ty vs => (atomParts aop ty vs.length (vs.map fun v => (v, 0))).map fun d => ⟨0, 4, h.tag, h.addr, d⟩

/-- A write to a peer is held until the peer acknowledges it, and goes out in its turn (20 R427). -/
def State.hold (s : State) (cid r a : Nat) (k : PostedKind) : State :=
  (s.modPeer cid r fun p =>
    let h : Held := ⟨p.nextTag, a, k⟩
    { p with held := p.held ++ [h], out := p.out ++ h.flits, nextTag := p.nextTag + 1 }).pump cid r

/-- The I/O die of a port (01 R12, R24): each carries 16 straits and 4 chimneys. -/
def ioDie (port : Nat) : Nat := if port < 64 then port / 16 else (port - 64) / 4
/-- The network port by which messages to a peer line leave: that of the I/O die of the line's port, the first when none is up. -/
def State.peerPort (s : State) (cid r addr : Nat) : Nat := portIo (((s.linkPort cid r (addr / 128)).map ioDie).getD 0)
/-- The network port of a device interface of a context: each I/O die carries one PCIe port. -/
def State.devicePort (s : State) (cid i : Nat) : Nat :=
  portIo ((((s.ctx? cid).bind fun c => Tab.get? c.iface i).map fun k => k / 65536).getD 0)

/-! ### Replay -/

/-- Drop the flits that an ACKSEQ covers. -/
def Port.ack (p : Port) (a : Word) : Port :=
  { p with replay := p.replay.filter fun x => BitVec.slt 0 (x.flit.seq - a), acked := a }

/-- Send the unacknowledged flits of a port that is down again, in SEQ order, on the ports that the hash now chooses (20 R422, R423); what
no port has room for stays. -/
def State.resend (s : State) (port : Nat) : State :=
  let p := s.port port
  p.replay.foldl (fun (s : State) x =>
    let stay := s.setPort port { s.port port with replay := (s.port port).replay ++ [x] }
    match s.linkPort x.cid x.roster x.line with
    | some n => if s.portHolds n x.cid x.roster x.flit.vc || s.stranded x.cid x.roster x.line then stay else s.putFlit n { x with replays := 0 }
    | none => stay) (s.setPort port { p with replay := [] })

/-- A port goes down, and its traffic moves. -/
def State.portDown (s : State) (port : Nat) : State := (s.setPort port { s.port port with up := false }).resend port

/-- Send every unacknowledged flit again, in SEQ order; a port that would replay one flit a sixteenth time goes down (20 R422). -/
def State.replayAll (s : State) (port : Nat) : State :=
  let p := s.port port
  if p.replay.isEmpty then s
  else if p.replay.any fun x => 15 ≤ x.replays then s.portDown port
  else p.replay.foldl (fun (s : State) x => s.say (.flit port x.flit))
    (s.setPort port { p with replay := p.replay.map fun x => { x with replays := x.replays + 1 } })

/-- Every stream sends what it may, what waits at ports that are down first. -/
def State.pumpAll (s : State) : State :=
  let s1 := s.ports.foldl (fun (s : State) x => if x.2.up || x.2.replay.isEmpty then s else s.resend x.1) s
  s1.ctxs.foldl (fun (s : State) (x : Nat × Context) => x.2.roster.foldl (fun (s : State) p => s.pump x.1 p.1) s) s1

/-- What stands for a discarded flit in a replay buffer, so that the port's SEQ has no gap: a management flit of no stream, with nothing in
it (DESIGN CHOICE, assumption 26). -/
def voidFlit (f : Flit) : Flit :=
  let g : Flit := { f with vc := 4, kind := 8, sid := 0xFFFF, tagId := 0, ctr := 0, addr := 0, payload := [], gtag := 0 }
  { g with crc := crc64 (flitBytes g) }

/-- The flits of a stream whose session ends are discarded from the replay buffers, and its response slots are free (20 R429). -/
def State.dropSent (s : State) (cid r : Nat) : State :=
  let s1 := s.freeSlots fun t => t.1 == cid && t.2.1 == r
  let void := fun (y : Sent) => if y.cid = cid ∧ y.roster = r then { y with flit := voidFlit y.flit } else y
  { s1 with ports := s1.ports.map fun (x : Nat × Port) => (x.1, { x.2 with replay := x.2.replay.map void }) }

end Sys2Proof.Machine
end

