-- ==== Sys2Proof/Machine/Num.lean ====
section
/-! DEFINITION. Numbers (02): the floating formats, exact values as fractions, rounding once, and the narrow and block
formats. Every operation computes the exact value and narrows it once, as R9 and R35 ask. -/

namespace Sys2Proof.Machine

/-! ### Exact values -/

/-- An exact fraction num / den, den positive. -/
structure Q where
  num : Int
  den : Nat
  deriving DecidableEq, Repr

def Q.ofInt (n : Int) : Q := ⟨n, 1⟩

/-- Sum. Denominators are mostly powers of two, so one divides the other. -/
def Q.add (a b : Q) : Q :=
  if b.den % a.den = 0 then ⟨a.num * ((b.den / a.den : Nat) : Int) + b.num, b.den⟩
  else if a.den % b.den = 0 then ⟨a.num + b.num * ((a.den / b.den : Nat) : Int), a.den⟩
  else ⟨a.num * (b.den : Int) + b.num * (a.den : Int), a.den * b.den⟩

def Q.neg (a : Q) : Q := ⟨-a.num, a.den⟩
def Q.sub (a b : Q) : Q := a.add b.neg
def Q.mul (a b : Q) : Q := ⟨a.num * b.num, a.den * b.den⟩
/-- Quotient by a non-zero value. -/
def Q.div (a b : Q) : Q := ⟨a.num * (b.den : Int) * b.num.sign, a.den * b.num.natAbs⟩
def Q.abs (a : Q) : Q := ⟨(a.num.natAbs : Int), a.den⟩
def Q.isNeg (a : Q) : Bool := decide (a.num < 0)
def Q.isZero (a : Q) : Bool := decide (a.num = 0)
def Q.lt (a b : Q) : Bool := decide (a.num * (b.den : Int) < b.num * (a.den : Int))
def Q.eqv (a b : Q) : Bool := decide (a.num * (b.den : Int) = b.num * (a.den : Int))
/-- 2 to an integer power. -/
def Q.pow2 (e : Int) : Q := if 0 ≤ e then ⟨((2 ^ e.toNat : Nat) : Int), 1⟩ else ⟨1, 2 ^ (-e).toNat⟩

/-- floor(log2 (num / den)) of a positive fraction. -/
def flog2 (num den : Nat) : Int :=
  let k : Int := (Nat.log2 num : Int) - (Nat.log2 den : Int)
  let below : Bool := if 0 ≤ k then decide (num < den * 2 ^ k.toNat) else decide (num * 2 ^ (-k).toNat < den)
  if below then k - 1 else k

/-- floor(log2 |a|) of a non-zero value. -/
def Q.flog2 (a : Q) : Int := Machine.flog2 a.num.natAbs a.den

/-! ### Formats -/

/-- A floating-point format (02 R25): width, fraction bits, bias, whether it has infinities, the bits of the largest
finite value and of the canonical NaN (02 R28). -/
structure Fmt where
  width : Nat
  mant : Nat
  bias : Nat
  hasInf : Bool
  maxBits : Nat
  nan : Nat
  deriving DecidableEq, Repr

def fp64 : Fmt := ⟨64, 52, 1023, true, 0x7FEFFFFFFFFFFFFF, 0x7FF8000000000000⟩
def fp32 : Fmt := ⟨32, 23, 127, true, 0x7F7FFFFF, 0x7FC00000⟩
def fp16 : Fmt := ⟨16, 10, 15, true, 0x7BFF, 0x7E00⟩
def bf16 : Fmt := ⟨16, 7, 127, true, 0x7F7F, 0x7FC0⟩
def e4m3 : Fmt := ⟨8, 3, 7, false, 0x7E, 0x7F⟩
def e5m2 : Fmt := ⟨8, 2, 15, true, 0x7B, 0x7E⟩

/-- Exponent of the smallest normal value. -/
def Fmt.emin (f : Fmt) : Int := 1 - (f.bias : Int)
/-- Bits of +infinity in a format that has it. -/
def Fmt.inf (f : Fmt) : Nat := f.maxBits + 1
/-- The sign bit as a number. -/
def Fmt.signBit (f : Fmt) (neg : Bool) : Nat := if neg then 2 ^ (f.width - 1) else 0

/-- A decoded floating value (02 R26, R28): a NaN with whether it signals, an infinity, or a finite value with the sign
that a zero keeps. -/
inductive FVal where
  | nan (signals : Bool)
  | inf (neg : Bool)
  | fin (neg : Bool) (q : Q)
  deriving DecidableEq, Repr

/-- Decode an encoding (02 R26). E4M3 and E5M2 NaNs never signal (02 R28). -/
def Fmt.decode (f : Fmt) (bits : Nat) : FVal :=
  let neg := decide (bits / 2 ^ (f.width - 1) % 2 = 1)
  let e := bits / 2 ^ f.mant % 2 ^ (f.width - 1 - f.mant)
  let fr := bits % 2 ^ f.mant
  let ones := 2 ^ (f.width - 1 - f.mant) - 1
  let mk := fun (m : Nat) (x : Int) => FVal.fin neg (let q := Q.mul (Q.ofInt m) (Q.pow2 x); if neg then q.neg else q)
  if f.hasInf && e == ones then
    if fr == 0 then .inf neg else .nan (decide (f.width > 8) && decide (fr < 2 ^ (f.mant - 1)))
  else if !f.hasInf && e == ones && fr == 2 ^ f.mant - 1 then .nan false
  else if e == 0 then mk fr (f.emin - (f.mant : Int))
  else mk (2 ^ f.mant + fr) ((e : Int) - (f.bias : Int) - (f.mant : Int))

def FVal.isNan : FVal → Bool | .nan _ => true | _ => false
def FVal.isSnan : FVal → Bool | .nan s => s | _ => false
def FVal.isInf : FVal → Bool | .inf _ => true | _ => false
def FVal.isZero : FVal → Bool | .fin _ q => q.isZero | _ => false
def FVal.negSign : FVal → Bool | .nan _ => false | .inf n => n | .fin n _ => n
/-- The exact value of a finite operand; zero for the others. -/
def FVal.q : FVal → Q | .fin _ q => q | _ => Q.ofInt 0

/-- A result and its flags. -/
structure FRes where
  bits : Nat
  flags : FlagSet := 0
  deriving DecidableEq, Repr

/-! ### Rounding (02 R30-R32) -/

/-- Round a non-negative fraction to an integer by a mode; `neg` is the sign of the value. The second part says whether
the result differs from the fraction. -/
def roundNat (rm : Rm) (neg : Bool) (num den : Nat) : Nat × Bool :=
  let fl := num / den
  let r := num % den
  let up : Bool := match rm with
    | .rne => decide (2 * r > den) || (decide (2 * r = den) && decide (fl % 2 = 1))
    | .ef => decide (2 * r > den) || (decide (2 * r = den) && decide (fl % 2 = 1))
    | .dyn => decide (2 * r > den) || (decide (2 * r = den) && decide (fl % 2 = 1))
    | .rtz => false
    | .rup => decide (r > 0) && !neg
    | .rdn => decide (r > 0) && neg
    | .rna => decide (2 * r ≥ den)
  (if up then fl + 1 else fl, decide (r ≠ 0))

/-- Round to a multiple of 2^q: the multiple and whether it is inexact. -/
def roundAt (rm : Rm) (neg : Bool) (num den : Nat) (q : Int) : Nat × Bool :=
  if 0 ≤ q then roundNat rm neg num (den * 2 ^ q.toNat) else roundNat rm neg (num * 2 ^ (-q).toNat) den

/-- What an overflow delivers (02 R30, R31). -/
def overflowBits (f : Fmt) (rm : Rm) (sat neg : Bool) : Nat :=
  let toInf : Bool := match rm with
    | .rtz => false | .rup => !neg | .rdn => neg | _ => true
  if sat then f.signBit neg + f.maxBits
  else if toInf then (if f.hasInf then f.signBit neg + f.inf else f.nan)
  else f.signBit neg + f.maxBits

/-- RoundTo of an exact value that is not zero, or of a zero with the sign given (02 R30-R32). -/
def roundTo (f : Fmt) (rm : Rm) (sat : Bool) (zeroNeg : Bool) (x : Q) : FRes :=
  if x.isZero then { bits := f.signBit zeroNeg }
  else
    let neg := x.isNeg
    let num := x.num.natAbs
    let e := Machine.flog2 num x.den
    let q := e - (f.mant : Int)
    let qmin := f.emin - (f.mant : Int)
    let unb := roundAt rm neg num x.den q
    -- bits that the value rounded with unbounded exponent would have, when it is not below the normal range
    let ovf : Bool := decide (q ≥ qmin) && decide (((q - qmin).toNat * 2 ^ f.mant + unb.1 : Nat) > f.maxBits)
    if ovf then { bits := overflowBits f rm sat neg, flags := overflowFlags }
    else
      let tiny : Bool := decide (e < f.emin) && !(decide (e = f.emin - 1) && decide (unb.1 = 2 ^ (f.mant + 1)))
      let q' := if q < qmin then qmin else q
      let r := roundAt rm neg num x.den q'
      { bits := f.signBit neg + ((q' - qmin).toNat * 2 ^ f.mant + r.1), flags := roundFlags tiny r.2 }

/-- The canonical NaN, with invalid when it is due. -/
def nanRes (f : Fmt) (invalid : Bool) : FRes := { bits := f.nan, flags := flagIf invalid flagNV }

/-- An infinite value delivered into a format (02 R31): it is never an overflow. -/
def infRes (f : Fmt) (sat neg : Bool) : FRes :=
  if f.hasInf then { bits := f.signBit neg + f.inf }
  else if sat then { bits := f.signBit neg + f.maxBits }
  else { bits := f.nan, flags := flagNV }

/-- A decoded value narrowed or widened into a format (02 R31, R35, 06 R145). -/
def convertTo (f : Fmt) (rm : Rm) (sat : Bool) (x : FVal) : FRes :=
  match x with
  | .nan s => nanRes f s
  | .inf n => infRes f sat n
  | .fin n q => roundTo f rm sat n q

/-! ### Arithmetic (06 R139-R144) -/

/-- The sign of an exact zero sum of values of the given signs (02 R32, IEEE 754-2019). -/
def zeroSumNeg (rm : Rm) (a b : Bool) : Bool := if a == b then a else rm == .rdn

/-- A + B. -/
def fAdd (f : Fmt) (rm : Rm) (x y : FVal) : FRes :=
  match x, y with
  | .nan s, v => nanRes f (s || v.isSnan)
  | u, .nan s => nanRes f (s || u.isSnan)
  | .inf a, .inf b => if a == b then infRes f false a else nanRes f true
  | .inf a, .fin _ _ => infRes f false a
  | .fin _ _, .inf b => infRes f false b
  | .fin a p, .fin b q => roundTo f rm false (zeroSumNeg rm a b) (p.add q)

/-- The value with the other sign. -/
def FVal.negate : FVal → FVal
  | .nan s => .nan s
  | .inf n => .inf (!n)
  | .fin n q => .fin (!n) q.neg

/-- A - B. -/
def fSub (f : Fmt) (rm : Rm) (x y : FVal) : FRes := fAdd f rm x y.negate

/-- A x B. -/
def fMul (f : Fmt) (rm : Rm) (x y : FVal) : FRes :=
  match x, y with
  | .nan s, v => nanRes f (s || v.isSnan)
  | u, .nan s => nanRes f (s || u.isSnan)
  | .inf a, v => if v.isZero then nanRes f true else infRes f false (a != v.negSign)
  | u, .inf b => if u.isZero then nanRes f true else infRes f false (u.negSign != b)
  | .fin a p, .fin b q => roundTo f rm false (a != b) (p.mul q)

/-- A x B + C, rounded once (06 R140). -/
def fFma (f : Fmt) (rm : Rm) (x y z : FVal) : FRes :=
  let bad := (x.isInf && y.isZero) || (x.isZero && y.isInf)
  if x.isNan || y.isNan || z.isNan then nanRes f (x.isSnan || y.isSnan || z.isSnan || bad)
  else if bad then nanRes f true
  else if x.isInf || y.isInf then
    let n := x.negSign != y.negSign
    if z.isInf && z.negSign != n then nanRes f true else infRes f false n
  else if z.isInf then infRes f false z.negSign
  else roundTo f rm false (zeroSumNeg rm (x.negSign != y.negSign) z.negSign) ((x.q.mul y.q).add z.q)

/-- A / B (07 R160: IEEE 754-2019 division). -/
def fDiv (f : Fmt) (rm : Rm) (x y : FVal) : FRes :=
  let n := x.negSign != y.negSign
  if x.isNan || y.isNan then nanRes f (x.isSnan || y.isSnan)
  else if x.isInf && y.isInf then nanRes f true
  else if x.isZero && y.isZero then nanRes f true
  else if x.isInf then infRes f false n
  else if y.isInf then { bits := f.signBit n }
  else if y.isZero then { bits := f.signBit n + f.inf, flags := flagDZ }
  else roundTo f rm false n (x.q.div y.q)

/-- x < y among values that are not NaN; -0 is not less than +0. -/
def FVal.lt (x y : FVal) : Bool :=
  match x, y with
  | .inf a, .inf b => a && !b
  | .inf a, .fin _ _ => a
  | .fin _ _, .inf b => !b
  | .fin _ p, .fin _ q => p.lt q
  | _, _ => false

/-- x = y among values that are not NaN; -0 equals +0. -/
def FVal.eqv (x y : FVal) : Bool :=
  match x, y with
  | .inf a, .inf b => a == b
  | .fin _ p, .fin _ q => p.eqv q
  | _, _ => false

/-- minimumNumber (`max` false) or maximumNumber (`max` true) of two encodings (06 R141): -0 is less than +0. -/
def fMinMax (f : Fmt) (max : Bool) (a b : Nat) : FRes :=
  let x := f.decode a
  let y := f.decode b
  let fl := flagIf (x.isSnan || y.isSnan) flagNV
  if x.isNan && y.isNan then { bits := f.nan, flags := fl }
  else if x.isNan then { bits := b, flags := fl }
  else if y.isNan then { bits := a, flags := fl }
  else
    let aLess := x.lt y || (x.eqv y && x.negSign && !y.negSign)
    { bits := if max then (if aLess then b else a) else (if aLess then a else b), flags := fl }

/-- A comparison of two encodings (06 R136): its truth and flags. -/
def fCmp (f : Fmt) (c : Cond) (a b : Nat) : Bool × FlagSet :=
  let x := f.decode a
  let y := f.decode b
  let un := x.isNan || y.isNan
  let sn := x.isSnan || y.isSnan
  let lt := !un && x.lt y
  let gt := !un && y.lt x
  let eq := !un && x.eqv y
  let quiet := flagIf sn flagNV
  let loud := flagIf un flagNV
  match c with
  | .eq => (eq, quiet)
  | .ne => (!eq, quiet)
  | .lt => (lt, loud)
  | .le => (lt || eq, loud)
  | .gt => (gt, loud)
  | .ge => (gt || eq, loud)
  | .ord => (!un, quiet)
  | .uno => (un, quiet)
  | .qlt => (lt, quiet)
  | .qle => (lt || eq, quiet)
  | .qgt => (gt, quiet)
  | .qge => (gt || eq, quiet)

/-- The class mask (06 R142). -/
def fClass (f : Fmt) (a : Nat) : Nat :=
  match f.decode a with
  | .nan true => 2 ^ 8
  | .nan false => 2 ^ 9
  | .inf n => if n then 1 else 2 ^ 7
  | .fin n q =>
    if q.isZero then (if n then 2 ^ 3 else 2 ^ 4)
    else if q.flog2 < f.emin then (if n then 2 ^ 2 else 2 ^ 5)
    else if n then 2 ^ 1 else 2 ^ 6

/-- An exact value rounded to an integer by a mode, and whether it changed. -/
def roundInt (rm : Rm) (x : Q) : Int × Bool :=
  let r := roundNat rm x.isNeg x.num.natAbs x.den
  (if x.isNeg then -(r.1 : Int) else (r.1 : Int), r.2)

/-- FRND (06 R143). -/
def fRnd (f : Fmt) (rm : Rm) (nx : Bool) (a : Nat) : FRes :=
  match f.decode a with
  | .nan s => nanRes f s
  | .inf _ => { bits := a }
  | .fin n q =>
    let r := roundInt rm q
    { bits := (roundTo f .rne false n (Q.ofInt r.1)).bits, flags := flagIf (nx && r.2) flagNX }

/-- FSCALE (06 R143). An exponent beyond 5000 in magnitude rounds as 5000 does, in every format and mode. -/
def fScale (f : Fmt) (rm : Rm) (a : Nat) (b : Int) : FRes :=
  match f.decode a with
  | .nan s => nanRes f s
  | .inf _ => { bits := a }
  | .fin n q =>
    let b := if b > 5000 then 5000 else if b < -5000 then -5000 else b
    if q.isZero then { bits := a } else roundTo f rm false n (q.mul (Q.pow2 b))

/-- A product of two values is an infinity. -/
def infTerm (a b : FVal) : Bool := (a.isInf && !b.isNan && !b.isZero) || (b.isInf && !a.isNan && !a.isZero)

/-- FDOT2 (06 R144): the exact sum of two products and an FP32 addend, rounded once. Three exact zeros of one sign keep it, as the
zero results of R140 do (DEDUCED, assumption 44). -/
def fDot2 (rm : Rm) (a0 b0 a1 b1 c : FVal) : FRes :=
  let anyNan := a0.isNan || b0.isNan || a1.isNan || b1.isNan || c.isNan
  let sn := a0.isSnan || b0.isSnan || a1.isSnan || b1.isSnan || c.isSnan
  let bad := (a0.isInf && b0.isZero) || (a0.isZero && b0.isInf) || (a1.isInf && b1.isZero) || (a1.isZero && b1.isInf)
  let t0 := a0.negSign != b0.negSign
  let t1 := a1.negSign != b1.negSign
  let inf0 := infTerm a0 b0
  let inf1 := infTerm a1 b1
  let pos := (inf0 && !t0) || (inf1 && !t1) || (c.isInf && !c.negSign)
  let neg := (inf0 && t0) || (inf1 && t1) || (c.isInf && c.negSign)
  if anyNan then nanRes fp32 (sn || bad || (pos && neg))
  else if bad || (pos && neg) then nanRes fp32 true
  else if pos || neg then infRes fp32 false neg
  else
    let p0 := a0.q.mul b0.q
    let p1 := a1.q.mul b1.q
    let allZeroNeg := p0.isZero && p1.isZero && c.isZero && t0 && t1 && c.negSign
    let allZeroPos := p0.isZero && p1.isZero && c.isZero && !t0 && !t1 && !c.negSign
    roundTo fp32 rm false (allZeroNeg || (!allZeroPos && rm == .rdn)) ((p0.add p1).add c.q)

/-- FCVTI (02 R35, 06 R146): the integer, clamped to a range, and the flags. -/
def fToInt (rm : Rm) (lo hi : Int) (x : FVal) : Int × FlagSet :=
  match x with
  | .nan _ => (0, flagNV)
  | .inf n => (if n then lo else hi, flagNV)
  | .fin _ q =>
    let r := roundInt rm q
    if r.1 < lo then (lo, flagNV) else if r.1 > hi then (hi, flagNV) else (r.1, flagIf r.2 flagNX)

/-- ICVTF (02 R35). -/
def intToF (f : Fmt) (rm : Rm) (x : Int) : FRes := roundTo f rm false false (Q.ofInt x)

/-- DYN resolved by the mode of sr.fpmode (02 R34). -/
def resolveRm (drm : BitVec 3) (rm : Rm) : Rm :=
  match rm with
  | .dyn => match drm with
    | 1#3 => .rtz | 2#3 => .rup | 3#3 => .rdn | 4#3 => .rna | _ => .rne
  | r => r

/-! ### Narrowing by a scale (02 R42, R43) -/

/-- x / s as a value, with the flags of the division itself (02 R42). -/
def quotient (x s : FVal) : FVal × FlagSet :=
  let n := x.negSign != s.negSign
  if x.isNan || s.isNan then (.nan false, flagIf (x.isSnan || s.isSnan) flagNV)
  else if (x.isInf && s.isInf) || (x.isZero && s.isZero) then (.nan false, flagNV)
  else if x.isInf then (.inf n, 0)
  else if s.isInf then (.fin n (Q.ofInt 0), 0)
  else if s.isZero then (.inf n, flagDZ)
  else (.fin n (x.q.div s.q), 0)

/-- x / s rounded once into a floating format (02 R42). -/
def narrow (f : Fmt) (rm : Rm) (sat : Bool) (x s : FVal) : FRes :=
  let t := quotient x s
  let r := convertTo f rm sat t.1
  { bits := r.bits, flags := r.flags ||| t.2 }

/-- x / s into an integer range (02 R35, R42). -/
def narrowInt (rm : Rm) (lo hi : Int) (x s : FVal) : Int × FlagSet :=
  let t := quotient x s
  let r := fToInt rm lo hi t.1
  (r.1, r.2 ||| t.2)

/-- The residue rounded into FP32; an overflow gives the largest finite value (02 R43). -/
def residue (d : Q) : FRes := roundTo fp32 .rne true false d

/-- The exact sum of a quotient and a residue (02 R43, 07 R152). -/
def addResidue (t e : FVal) : FVal × FlagSet :=
  match t, e with
  | .nan _, _ => (.nan false, flagIf e.isSnan flagNV)
  | _, .nan s => (.nan false, flagIf s flagNV)
  | .inf a, .inf b => if a = b then (.inf a, 0) else (.nan false, flagNV)
  | .inf a, _ => (.inf a, 0)
  | _, .inf b => (.inf b, 0)
  | .fin n p, .fin m q => (.fin (n && m) (p.add q), 0)

/-- Error-feedback narrowing (02 R43): the result and the new residue. Where the sum, the scale or the residue is infinite, R42 narrows
x / s, and where one of the three is NaN the result is NaN (DEDUCED, assumption 29). -/
def narrowEf (f : Fmt) (sat : Bool) (x s e : FVal) : FRes × FRes :=
  let q := quotient x s
  let t := addResidue q.1 e
  match t.1, e with
  | .fin n v, _ =>
    if s.isInf then (narrow f .rne sat x s, { bits := 0 })
    else
      let y := roundTo f .rne sat n v
      let y' : FRes := { bits := y.bits, flags := y.flags ||| q.2 ||| t.2 }
      match f.decode y.bits with
      | .fin _ yq => (y', residue (v.sub yq))
      | _ => (y', { bits := 0 })
  | _, .nan _ =>
    let y := convertTo f .rne sat t.1
    ({ bits := y.bits, flags := y.flags ||| q.2 ||| t.2 }, { bits := 0 })
  | _, _ => (narrow f .rne sat x s, { bits := 0 })

/-! ### Scales and I4X (02 R37-R41) -/

/-- The largest binade of a narrow format, by FMT code (07 R154). -/
def emaxOf (fmt : Nat) : Int :=
  match fmt with
  | 0 => 8 | 1 => 15 | 2 => 15 | 3 => 127 | 4 => 6 | _ => 2

/-- The E8M0 code of an absolute maximum (07 R154). -/
def bscaleCode (fmt : Nat) (a : FVal) : Nat :=
  match a with
  | .nan _ => 0xFF
  | .inf _ => 0xFF
  | .fin _ q =>
    if q.isZero then 0
    else
      let c := q.flog2 - emaxOf fmt + 127
      if c < 0 then 0 else if c > 254 then 254 else c.toNat

/-- A 4-bit two's complement number. -/
def sext4 (n : Nat) : Int := if n % 16 ≥ 8 then (n % 16 : Int) - 16 else (n % 16 : Int)

/-- An element of a decoded block: a NaN or an exact value, whose zero keeps the sign of an outlier 0x80, and whether it was a third or
later marker. -/
structure I4Elem where
  val : FVal
  xo : Bool := false
  deriving DecidableEq, Repr

/-- The value of an outlier: E4M3 of the high nibble and the neighbour's nibble (02 R39). -/
def outlier (h nb : Nat) : FVal := e4m3.decode (h * 16 + nb)

/-- A value times a power of two, exactly (02 R39). -/
def FVal.scale (x : FVal) (k : Int) : FVal :=
  match x with
  | .fin n q => .fin n (q.mul (Q.pow2 k))
  | y => y

/-- Decode the pairs of a block from pair k on, with the outlier nibbles used so far (02 R39). -/
def i4Pairs (nib : List Nat) (h0 h1 : Nat) : Nat → Nat → Nat → List I4Elem
  | 0, _, _ => []
  | fuel + 1, k, used =>
    let a := nib.getD (2 * k) 0
    let b := nib.getD (2 * k + 1) 0
    let plain := fun (v : Int) => ({ val := .fin (decide (v < 0)) (Q.ofInt v) } : I4Elem)
    let zero : I4Elem := plain 0
    let mark := fun (nb : Nat) =>
      if used < 2 then ({ val := outlier (if used = 0 then h0 else h1) nb : I4Elem }, used + 1)
      else ({ zero with xo := true }, used)
    if a = 8 ∧ b = 8 then zero :: zero :: i4Pairs nib h0 h1 fuel (k + 1) used
    else if a = 8 then let m := mark b; m.1 :: zero :: i4Pairs nib h0 h1 fuel (k + 1) m.2
    else if b = 8 then let m := mark a; zero :: m.1 :: i4Pairs nib h0 h1 fuel (k + 1) m.2
    else plain (sext4 a) :: plain (sext4 b) :: i4Pairs nib h0 h1 fuel (k + 1) used

/-- Decode an 18-byte block: 32 elements, NaN where none, at their exact values (02 R38, R39). -/
def i4Decode (block : List Byte) : List I4Elem :=
  let scale := (block.getD 0 0).toNat
  let hi := (block.getD 1 0).toNat
  let nib := ((List.range 16).map fun k => [(block.getD (2 + k) 0).toNat % 16, (block.getD (2 + k) 0).toNat / 16]).flatten
  (i4Pairs nib (hi % 16) (hi / 16) 16 0 0).map fun x =>
    if scale = 0xFF then { x with val := .nan false } else { x with val := x.val.scale ((scale : Int) - 127) }

/-- Flag sets raised while encoding, one for each element. -/
structure I4Enc where
  block : List Byte
  flags : List FlagSet
  deriving DecidableEq, Repr

/-- Whether element i of the candidates comes before j: larger magnitude first, then lower number (02 R41). -/
def i4Before (xs : List FVal) (i j : Nat) : Bool :=
  let a := xs.getD i (.fin false (Q.ofInt 0))
  let b := xs.getD j (.fin false (Q.ofInt 0))
  match a.isInf, b.isInf with
  | true, false => true
  | false, true => false
  | true, true => decide (i < j)
  | false, false => b.q.abs.lt a.q.abs || (b.q.abs.eqv a.q.abs && decide (i < j))

/-- The first candidate in the order of 02 R41. -/
def i4First (xs : List FVal) : List Nat → Option Nat
  | [] => none
  | i :: rest => match i4First xs rest with
    | none => some i
    | some j => if i4Before xs i j then some i else some j

/-- At most two outliers (02 R41). -/
def i4Pick (xs : List FVal) (cand : List Nat) : List Nat :=
  match i4First xs cand with
  | none => []
  | some i =>
    let cand' := cand.filter fun j => j != i && j != (i ^^^ 1)
    match i4First xs cand' with
    | none => [i]
    | some j => if i < j then [i, j] else [j, i]

/-- Encode 32 FP32 values under scale code c (02 R41). An infinite input has no finite quotient: it is a candidate beyond
every finite one, and clamps or saturates. With c = 0xFF there is no quotient, and a NaN alone raises a flag. An outlier whose
E4M3 low nibble is 8 leaves two markers in its pair, which R41's pseudocode writes and its last sentence denies: the model
follows the pseudocode (DESIGN CHOICE, assumption 45). -/
def i4Encode (xs : List FVal) (c : Nat) : I4Enc :=
  if c = 0xFF then { block := 0xFF#8 :: List.replicate 17 0#8, flags := xs.map fun x => flagIf x.isNan flagNV }
  else
    let s := Q.pow2 ((c : Int) - 127)
    let q := xs.map fun x => roundInt .rne (x.q.div s)
    let big := fun i => let x := xs.getD i (.nan false)
      x.isInf || (!x.isNan && decide ((q.getD i (0, false)).1.natAbs > 7))
    let cand := (List.range 32).filter big
    let pick := i4Pick xs cand
    let y := fun i => match xs.getD i (.nan false) with
      | .fin n v => roundTo e4m3 .rne true n (v.div s)
      | x => convertTo e4m3 .rne true x
    let h0 := match pick with | i :: _ => (y i).bits / 16 | _ => 0
    let h1 := match pick with | _ :: j :: _ => (y j).bits / 16 | _ => 0
    let nib := fun i =>
      let x := xs.getD i (.nan false)
      if pick.contains i then 8
      else if pick.contains (i ^^^ 1) then (y (i ^^^ 1)).bits % 16
      else if x.isNan then 0
      else
        let v : Int := if x.isInf then (if x.negSign then -7 else 7) else (q.getD i (0, false)).1
        let v : Int := if v > 7 then 7 else if v < -7 then -7 else v
        (v % 16).toNat
    let fl := fun i =>
      let x := xs.getD i (.nan false)
      let near := pick.contains (i ^^^ 1)
      if pick.contains i then (y i).flags
      else flagIf x.isNan flagNV ||| flagIf (big i) (flagOF ||| flagNX) ||| flagIf (near && !x.isZero) flagNX |||
        flagIf (!near && !x.isNan && !x.isInf && (q.getD i (0, false)).2) flagNX
    { block := BitVec.ofNat 8 c :: BitVec.ofNat 8 (h0 + 16 * h1) ::
        (List.range 16).map fun k => BitVec.ofNat 8 (nib (2 * k) + 16 * nib (2 * k + 1))
      flags := (List.range 32).map fl }

/-! ### Matrix sums (02 R44-R46) -/

/-- A matrix element: NaN, an infinity or an exact value. -/
abbrev Elem := FVal

/-- The sum of a group of products (02 R45). -/
def groupSum (ps : List (Elem × Elem)) : FVal :=
  let prod := ps.map fun p =>
    if p.1.isNan || p.2.isNan then FVal.nan false
    else if (p.1.isInf && p.2.isZero) || (p.1.isZero && p.2.isInf) then FVal.nan false
    else if p.1.isInf || p.2.isInf then FVal.inf (p.1.negSign != p.2.negSign)
    else FVal.fin false (p.1.q.mul p.2.q)
  if prod.any FVal.isNan then .nan false
  else
    let pos := prod.any fun x => x.isInf && !x.negSign
    let neg := prod.any fun x => x.isInf && x.negSign
    if pos && neg then .nan false
    else if pos then .inf false
    else if neg then .inf true
    else .fin false (prod.foldl (fun a x => a.add x.q) (Q.ofInt 0))

/-- One group applied to an FP32 accumulator element (02 R45); no sticky flag comes of it. -/
def accFloat (acc : Word) (ps : List (Elem × Elem)) : Word :=
  let s := (convertTo fp32 .rne false (groupSum ps)).bits
  BitVec.ofNat 32 (fAdd fp32 .rne (fp32.decode acc.toNat) (fp32.decode s)).bits

/-- Saturation to INT32 (02 R46). -/
def sat32 (x : Int) : Int := if x > 2147483647 then 2147483647 else if x < -2147483648 then -2147483648 else x

/-- One group applied to an INT32 accumulator element (02 R46). -/
def accInt (acc : Word) (ps : List (Int × Int)) : Word :=
  BitVec.ofInt 32 (sat32 (ps.foldl (fun a p => a + p.1 * p.2) acc.toInt))

end Sys2Proof.Machine
end

