-- ==== Sys2Proof/Machine/Mem.lean ====
section
/-! DEFINITION. Memory: translation and ownership (19 R399-R408), the checks of an access (09 R203, R204), the caches and
posted writes on the way to a home slice (09 R208, R223, 12 R276-R278), the spaces (12 R273, 09 R201) and the region buffer
(09 R209, R210). -/

namespace Sys2Proof.Machine

/-! ### Causes by bit number (13 R299) -/

def cILLEGAL : Nat := 0
def cPRIV : Nat := 1
def cALIGN : Nat := 2
def cBOUND : Nat := 3
def cXLATE : Nat := 4
def cPTRSV : Nat := 5
def cPERM : Nat := 6
def cOWNER : Nat := 7
def cROSTER : Nat := 8
def cUNCORR : Nat := 9
def cGEOMNF : Nat := 10
def cREGOVF : Nat := 11
def cSPILLF : Nat := 12
def cOSLOT : Nat := 13
def cENGINE : Nat := 14
def cTRAPI : Nat := 15
def cBKPT : Nat := 16

/-! ### Addresses and page-table entries -/

/-- A 57-bit canonical address (19 R399). -/
def canonical (va : DWord) : Bool := va.extractLsb' 56 8 == 0#8 || va.extractLsb' 56 8 == 0xFF#8

/-- The first physical address that is not local HBM (19 R399). -/
def localTop : Nat := 2 ^ 41
/-- An HBM stack and the offset in it (19 R399). -/
def stackOf (pa : Nat) : Nat := pa / 2 ^ 37
def stackOffset (pa : Nat) : Nat := pa % 2 ^ 37
/-- The home memory slice of a local address (19 R399). -/
def sliceOf (pa : Nat) : Nat := 8 * (stackOf pa / 2) + pa / 128 % 8
/-- An address where context pages may lie (19 R400). -/
def pageArea (pa : Nat) : Bool :=
  pa < localTop && stackOffset pa < 90 * 2 ^ 30 && !(stackOf pa == 0 && stackOffset pa < 3 * 2 ^ 29)

/-- The regions that hold the side tables and the ownership table (19 R400): in the service state, owned by no context. -/
def reservedRegion (pa : Nat) : Bool :=
  pa < localTop && ((90 * 2 ^ 30 ≤ stackOffset pa && stackOffset pa < 96 * 2 ^ 30) || (stackOf pa == 0 && stackOffset pa < 3 * 2 ^ 29))

/-- The ownership record of a page (19 R407). -/
def State.ownOf (s : State) (pa : Nat) : Own :=
  Tab.getD s.own (pa / 4096) (if reservedRegion pa then { state := .service } else {})

/-! ### Lines in HBM (19 R414-R416) -/

/-- An address lies in the save area of a context (14 R319, R324). -/
def Context.inSaveArea (c : Context) (pa : Nat) : Bool := c.saveBase ≤ pa && pa < c.saveBase + c.saveSize

/-- The key under which a line is encrypted: the owner's Kmem, Kseal for its save area with the thread registers (14 R332), or Kclr for
a shared-clear page. -/
def State.lineKey (s : State) (line : Nat) : List Byte :=
  let o := s.ownOf (128 * line)
  if o.state = .sharedClear then kclr
  else match s.ctx? o.owner with
    | some c => if o.state = .service && c.inSaveArea (128 * line) then c.kseal else c.kmem
    | none => []

/-- The bytes of a line that HBM holds before encryption: 128, or for a compressed page the fewest of 32, 64, 96 and 128 that hold it. -/
def State.lineForm (s : State) (line : Nat) : List Byte :=
  let d := Memory.read s.mem (128 * line) 128
  let z := Config.compressed d
  if (s.ownOf (128 * line)).cmp && z.length ≤ 96 then z ++ List.replicate (max 1 ((z.length + 31) / 32) * 32 - z.length) 0 else d

/-- The 64-byte transfers that a line takes. -/
def State.lineBursts (s : State) (line : Nat) : Nat := ((s.lineForm line).length + 63) / 64

/-- The address of the side-table entry of a line, in its stack's reserved region (19 R400). -/
def sideAddr (line : Nat) : Nat := stackOf (128 * line) * 2 ^ 37 + 90 * 2 ^ 30 + 8 * (stackOffset (128 * line) / 128)

/-- The side-table entry of a line before its encryption (19 R415): SIZE, and the tag over ciphertext, physical line address, VERSION and
SIZE. The form of what the tag covers: DESIGN CHOICE, assumption 49. -/
def State.sideText (s : State) (line : Nat) : DWord :=
  let k := s.lineKey line
  let d := s.lineForm line
  let size := d.length / 32 - 1
  let m := Config.xts k (128 * line) d ++ leBytes 8 (128 * line) ++ leBytes 2 (s.ownOf (128 * line)).version.toNat ++ leBytes 1 size
  BitVec.ofNat 2 size ++ 0#6 ++ BitVec.ofNat 56 (leNat ((kmac256 (integrityKey k) m 32).take 7))

/-- The side-table entry of a line as the table holds it: encrypted under the same key as its line (19 R415; the mode: DESIGN CHOICE,
assumption 49). -/
def State.sideEntry (s : State) (line : Nat) : DWord :=
  BitVec.ofNat 64 (leNat ((Config.xts (s.lineKey line) (sideAddr line) (leBytes 8 (s.sideText line).toNat)).take 8))

/-- The tag of a line that was written back to HBM does not match (19 R416). A line with no entry here has the one that matches. -/
def State.tagFails (s : State) (line : Nat) : Bool :=
  (Tab.get? s.llc line).isNone && match Tab.get? s.side line with
    | some e => e != s.sideEntry line
    | none => false

/-- A line of the LLC whose tag failed when it was read. -/
def State.llcBad (s : State) (line : Nat) : Bool := ((Tab.get? s.llc line).map fun l => l.bad).getD false

/-- A line that reads as uncorrectable (09 R223, 19 R416). -/
def State.bad (s : State) (pa : Nat) : Bool :=
  (Tab.get? s.uncorr (pa / 128)).isSome || s.llcBad (pa / 128) || s.tagFails (pa / 128)

/-- The firmware has written lines anew: their entries match. -/
def State.resealed (s : State) (which : Nat → Bool) : State :=
  let clean := fun (x : Nat × LlcLine) => if which x.1 then (x.1, { x.2 with bad := false }) else x
  { s with side := s.side.filter (fun x => !which x.1), llc := s.llc.map clean }

/-- The key, the record or the form of lines changes: entries that match are written anew, one that does not match stays as it is. -/
def State.rekeyed (s : State) (which : Nat → Bool) : State :=
  { s with side := s.side.filter fun x => !which x.1 || s.tagFails x.1 }

/-- The firmware writes bytes of memory. -/
def State.poke (s : State) (a : Nat) (bs : List Byte) : State :=
  { s.resealed fun l => a / 128 ≤ l && 128 * l < a + bs.length with mem := Memory.write s.mem a bs }

/-! ### Page-table entries -/

/-- Fields of a page-table entry (19 R402). -/
def pteV (e : DWord) : Bool := e.getLsbD 0
def pteLeaf (e : DWord) : Bool := e.getLsbD 1
def pteCont (e : DWord) : Bool := e.getLsbD 2
def pteX (e : DWord) : Bool := e.getLsbD 3
def pteW (e : DWord) : Bool := e.getLsbD 4
def pteR (e : DWord) : Bool := e.getLsbD 5
def ptePa (e : DWord) : Nat := (e.extractLsb' 12 40).toNat * 4096

/-- The firmware's own records in an invalid leaf (19 R402, R411, R412): bit 8 marks a demand-zero page, bit 9 a page that
is paged out (the places of the two marks: DESIGN CHOICE, assumption 10). -/
def pteDemand (e : DWord) : Bool := !pteV e && e.getLsbD 8
def ptePaged (e : DWord) : Bool := !pteV e && e.getLsbD 9

/-- A condition of R402 or R403 is broken at the level. -/
def pteBroken (lvl : Nat) (e : DWord) : Bool :=
  e.extractLsb' 52 12 != 0#12 || e.extractLsb' 8 4 != 0#4 || e.getLsbD 6 ||
  (if pteLeaf e then decide (2 ≤ lvl) || (pteW e && !pteR e) || (lvl == 1 && e.extractLsb' 12 9 != 0#9)
   else lvl == 0 || e.getLsbD 7 || e.extractLsb' 2 4 != 0#4)

/-- The end of a walk (19 R403): the leaf with its level and the address of its entry, or the first failing level. -/
inductive WalkRes where
  | leaf (lvl addr : Nat) (e : DWord)
  | miss (lvl addr : Nat) (e : DWord)
  | rsv (lvl : Nat)
  | uncorr (lvl : Nat)
  deriving DecidableEq, Repr

/-- Read a little-endian 64-bit word of memory. -/
def Memory.read8 (m : Memory) (a : Nat) : DWord := BitVec.ofNat 64 (leNat (Memory.read m a 8))
/-- Read a little-endian 32-bit word of memory. -/
def Memory.read4 (m : Memory) (a : Nat) : Word := BitVec.ofNat 32 (leNat (Memory.read m a 4))

/-- The walk of R403 from a level's table, with the non-leaf entries that the walk cache holds used in place of reads
(19 R405). The second result lists the non-leaf entries that it went by. The first argument is the level plus one. -/
def walkFrom (m : Memory) (bad : Nat → Bool) (cid : Nat) (cache : List WalkEntry) (va : Nat) :
    Nat → Nat → List WalkEntry → WalkRes × List WalkEntry
  | 0, _, seen => (.rsv 0, seen)
  | lvl + 1, a, seen =>
    let key := va / 2 ^ (12 + 9 * lvl)
    match cache.find? fun w => w.cid == cid && w.level == lvl && w.key == key with
    | some w => walkFrom m bad cid cache va lvl w.next (seen ++ [w])
    | none =>
      let addr := a + 8 * (key % 512)
      if bad (addr / 128) then (.uncorr lvl, seen)
      else
        let e := Memory.read8 m addr
        if !pteV e then (.miss lvl addr e, seen)
        else if pteBroken lvl e then (.rsv lvl, seen)
        else if pteLeaf e then (.leaf lvl addr e, seen)
        else walkFrom m bad cid cache va lvl (ptePa e) (seen ++ [⟨cid, lvl, key, ptePa e⟩])

/-- The lines of the entries that such a walk reads. -/
def walkReads (m : Memory) (bad : Nat → Bool) (cid : Nat) (cache : List WalkEntry) (va : Nat) : Nat → Nat → List Nat
  | 0, _ => []
  | lvl + 1, a =>
    let key := va / 2 ^ (12 + 9 * lvl)
    match cache.find? fun w => w.cid == cid && w.level == lvl && w.key == key with
    | some w => walkReads m bad cid cache va lvl w.next
    | none =>
      let addr := a + 8 * (key % 512)
      let e := Memory.read8 m addr
      addr / 128 :: (if bad (addr / 128) || !pteV e || pteBroken lvl e || pteLeaf e then [] else walkReads m bad cid cache va lvl (ptePa e))

/-- The walk of a context's tables without caches (the WALK service of R410 and the firmware). -/
def State.walk (s : State) (cid : Nat) (va : DWord) : WalkRes :=
  match s.ctx? cid with
  | some c => (walkFrom s.mem (fun l => s.bad (128 * l)) cid [] (va.toNat % 2 ^ 57) 5 c.ptroot []).1
  | none => .miss 4 0 0

/-! ### Translation -/

/-- What an access does at its page. -/
inductive Acc where
  | load | store | atom | fetch
  deriving DecidableEq, Repr

/-- A translation's end: an address, a cause, or a page that the firmware makes resident (13 R311). -/
inductive Xl where
  | ok (pa : Nat)
  | cause (c : Nat)
  | wait
  deriving DecidableEq, Repr

/-- Steps 5 and 6 of R203 (with R204 and R408) for an access through an entry. -/
def judge (cid : Nat) (k : Acc) (dcl : Bool) (e : TlbEntry) (pa : Nat) : Xl :=
  let allowed := match k with
    | .load => e.r
    | .store => e.w
    | .atom => e.r && e.w
    | .fetch => e.x
  if !allowed then .cause cPERM
  else match e.state with
    | .owned => if e.own = cid then .ok pa else .cause cOWNER
    | .sharedClear =>
      if e.own = cid || k == .load || k == .fetch || dcl then .ok pa else .cause cOWNER
    | .transit => if e.own = cid then .wait else .cause cOWNER
    | .free => .cause cOWNER
    | .service => .cause cOWNER

/-- The sixteen entries of a CONT group can be merged (19 R404): `m` is read at the line that holds the entry. -/
def contGroup (m : Memory) (own : Nat → Own) (addr : Nat) : Bool :=
  let line := addr / 128 * 128
  let es := (List.range 16).map fun j => Memory.read8 m (line + 8 * j)
  let e0 := es.headD 0
  let r0 := own (ptePa e0)
  (es.zipIdx.all fun x =>
    pteV x.1 && pteLeaf x.1 && pteCont x.1 && !pteBroken 0 x.1 && ptePa x.1 / 4096 % 16 == x.2 &&
    ptePa x.1 / 65536 == ptePa e0 / 65536 && x.1.extractLsb' 3 3 == e0.extractLsb' 3 3 && x.1.getLsbD 7 == e0.getLsbD 7 &&
    (own (ptePa x.1)).owner == r0.owner && (own (ptePa x.1)).state == r0.state)

/-- The TLB entry that a leaf gives (19 R404, R408). A page of a peer or device window has no local record (20 R418). -/
def State.entryOf (s : State) (cid : Nat) (va : Nat) (lvl addr : Nat) (e : DWord) : TlbEntry :=
  let span := if lvl = 1 then 2 ^ 21 else 4096
  let page := ptePa e + va % span / 4096 * 4096
  let r : Own := if page < localTop then s.ownOf page else { owner := cid, state := .owned }
  let whole := lvl = 1 && (List.range 512).all fun j =>
    (s.ownOf (ptePa e + 4096 * j)).owner == r.owner && (s.ownOf (ptePa e + 4096 * j)).state == r.state
  let cont := lvl = 0 && pteCont e && contGroup s.mem s.ownOf addr
  let size := if whole then 2 ^ 21 else if cont then 65536 else 4096
  { cid := cid, va := va / size * size, span := size, pa := page - (va / 4096 * 4096 - va / size * size),
    r := pteR e, w := pteW e, x := pteX e, own := r.owner, state := r.state, version := r.version }

/-- The entry of a TLB that covers an address under a CID. -/
def tlbFind (t : List TlbEntry) (cid va : Nat) : Option TlbEntry :=
  t.find? fun e => e.cid == cid && e.va ≤ va && va < e.va + e.span

/-- A use later than every use so far. -/
def tlbNow (t : List TlbEntry) : Nat := t.foldl (fun m x => max m x.used) 0 + 1
/-- An entry of a TLB is used (24 R467). -/
def tlbUse (t : List TlbEntry) (e : TlbEntry) : List TlbEntry := t.map fun x => if x = e then { x with used := tlbNow t } else x
/-- The least recently used entry leaves. -/
def tlbEvict (t : List TlbEntry) : List TlbEntry :=
  let m := t.foldl (fun m x => min m x.used) (tlbNow t)
  t.eraseP fun x => x.used == m
/-- Put an entry in a TLB of `n` entries: when it is full, the least recently used one leaves (24 R467). -/
def tlbFill (n : Nat) (t : List TlbEntry) (e : TlbEntry) : List TlbEntry :=
  let u := t.filter fun x => !(x.cid == e.cid && x.va == e.va && x.span == e.span)
  { e with used := tlbNow t } :: (if u.length < n then u else tlbEvict u)

/-! ### Windows of peers and devices (20 R418, R425) -/

/-- What lies at a physical address. -/
inductive PaKind where
  | hbm
  | peer (roster addr : Nat)
  | device (index offset : Nat)
  | hole
  deriving DecidableEq, Repr

/-- Decode a physical address (19 R399, 20 R418). -/
def paKind (pa : Nat) : PaKind :=
  if pa < localTop then (if stackOffset pa < 96 * 2 ^ 30 then .hbm else .hole)
  else if pa / 2 ^ 49 = 1 then .peer (pa / 2 ^ 41 % 256) (pa % 2 ^ 41)
  else if pa / 2 ^ 49 = 2 then .device (pa / 2 ^ 44 % 32) (pa % 2 ^ 44)
  else .hole

/-- A roster entry that is on the roster (20 R419). -/
def Context.onRoster (c : Context) (r : Nat) : Bool :=
  match Tab.get? c.roster r with
  | some p => p.lstate == .active
  | none => false

/-- Step 7 of R203, and the devices' windows: an interface that is not bound and running maps nothing (20 R425). -/
def State.windowCause (s : State) (cid pa : Nat) : Option Nat :=
  match paKind pa with
  | .hbm => none
  | .peer r _ => match s.ctx? cid with
    | some c => if c.onRoster r then none else some cROSTER
    | none => some cROSTER
  | .device i _ => match s.ctx? cid with
    | some c => match Tab.get? c.iface i with
      | some t => if (Tab.getD s.tdisp t {}).state == .run then none else some cXLATE
      | none => some cXLATE
    | none => some cXLATE
  | .hole => some cXLATE

/-! ### Home slices -/

/-- Drop the lines of a cache that carry a CID (12 R278, 09 R217). -/
def dropCid (t : Tab Line) (cid : Nat) : Tab Line := t.filter fun x => x.2.cid != cid

/-- The set of a line in its slice: 2048 sets of 16 ways of 128 bytes are 4 MiB (01 R12). Which set: DESIGN CHOICE, assumption 12. -/
def llcSet (line : Nat) : Nat := line / 8 % 2048

/-- The ways that a sending port fills: those of its partition's mask (12 R278); any for a port that is no hearth. -/
def State.waysOf (s : State) (src : Nat) : List Nat :=
  let m : BitVec 16 := match (Tab.get? s.remap src).bind fun r => s.part? r.part with
    | some p => if src < 64 && p.ways != 0 then p.ways else 0xFFFF#16
    | none => 0xFFFF#16
  (List.range 16).filter fun w => m.getLsbD w

/-- A line leaves the LLC: written back when it differs, with an entry that does not verify while it is uncorrectable (09 R223). -/
def State.writeBack (s : State) (line : Nat) (l : LlcLine) : State :=
  if l.dirty then
    let e := s.sideEntry line
    let e1 := if (Tab.get? s.uncorr line).isSome || l.bad then e ^^^ 1 else e
    ({ s with side := Tab.put s.side line e1 } : State).countN l.cid 6 (s.lineBursts line)
  else s

/-- Lines leave the LLC. -/
def State.llcDrop (s : State) (which : Nat → LlcLine → Bool) : State :=
  let out := s.llc.filter fun x => which x.1 x.2
  let s1 := out.foldl (fun (s : State) x => s.writeBack x.1 x.2) s
  { s1 with llc := s1.llc.filter fun x => !which x.1 x.2 }

/-- A miss: the line is read from HBM and put in a way of the mask, another line leaving when all of them are taken: a free choice
(assumption 12). -/
def State.llcFill (s : State) (cid line src : Nat) : State :=
  let ways := s.waysOf src
  let mates := s.llc.filter fun x => x.1 != line && sliceOf (128 * x.1) == sliceOf (128 * line) && llcSet x.1 == llcSet line
  let s1 := (s.count cid 4).countN cid 5 (s.lineBursts line)
  match ways.find? fun w => !mates.any fun x => x.2.way == w with
  | some w => { s1 with llc := Tab.put s1.llc line ⟨cid, w, false, s.llcBad line || s.tagFails line⟩ }
  | none =>
    let w := ways.getD ((Config.freeWord s.freeIdx).toNat % ways.length) 0
    let s2 := s1.llcDrop fun l x => l != line && sliceOf (128 * l) == sliceOf (128 * line) && llcSet l == llcSet line && x.way == w
    { s2 with llc := Tab.put s2.llc line ⟨cid, w, false, s.llcBad line || s.tagFails line⟩, freeIdx := s2.freeIdx + 1 }

/-- A lookup of a line at its home slice under a CID, for a sending port: when the slice holds it under another CID, every L1 and
constant-cache copy tagged with that CID goes, and the line is filled anew (12 R278). The page's access count rises (19 R405). -/
def State.touch (s : State) (cid line : Nat) (src : Nat := portControl) (cls : Nat := 0) : State :=
  let s0 := (s.exchange cid src (portSlice (sliceOf (128 * line))) cls).count cid 3
  let s1 := match Tab.get? s0.llc line with
    | some old =>
      if old.cid = cid then s0
      else
        let s2 := s0.writeBack line old
        ({ s2 with stoves := s2.stoves.map fun (x : Nat × Stove) =>
            (x.1, { x.2 with l1 := x.2.l1.filter fun (y : Nat × Line) => !(y.1 == line && y.2.cid == old.cid),
                             kcache := x.2.kcache.filter fun (y : Nat × Line) => !(y.1 == line && y.2.cid == old.cid) }) } : State).llcFill
          cid line src
    | none => s0.llcFill cid line src
  { s1 with hits := Tab.put s1.hits (line / 32) (Tab.getD s1.hits (line / 32) 0 + 1) }

/-- Translate and judge an access of a stove (`none`: an engine, which misses in the hearth TLB, 19 R405). A walk's reads are lookups at the home slices
(R403). -/
def State.translate (s : State) (hearth : Nat) (stove : Option Nat) (cid : Nat) (va : DWord) (k : Acc) (dcl : Bool) :
    Xl × State :=
  let a := va.toNat % 2 ^ 57
  let fillStove := fun (s : State) (e : TlbEntry) =>
    match stove with
    | some n => s.setStove n { s.stove n with tlb := tlbFill 64 (s.stove n).tlb e }
    | none => s
  let useStove := fun (s : State) (e : TlbEntry) =>
    match stove with
    | some n => s.setStove n { s.stove n with tlb := tlbUse (s.stove n).tlb e }
    | none => s
  let local1 := match stove with
    | some n => tlbFind (s.stove n).tlb cid a
    | none => none
  match local1 with
  | some e => (judge cid k dcl e (e.pa + (a - e.va)), useStove s e)
  | none =>
    match tlbFind (s.hearth hearth).tlb cid a with
    | some e =>
      let h := s.hearth hearth
      (judge cid k dcl e (e.pa + (a - e.va)), fillStove (s.setHearth hearth { h with tlb := tlbUse h.tlb e }) e)
    | none =>
      match s.ctx? cid with
      | none => (.cause cXLATE, s)
      | some c =>
        let r := walkFrom s.mem (fun l => s.bad (128 * l)) cid (s.hearth hearth).walk a 5 c.ptroot []
        let lines := walkReads s.mem (fun l => s.bad (128 * l)) cid (s.hearth hearth).walk a 5 c.ptroot
        let s0 := lines.foldl (fun (s : State) l => s.touch cid l hearth) s
        let h := s0.hearth hearth
        let s1 := s0.setHearth hearth { h with walk := (r.2 ++ h.walk.filter fun w => !r.2.contains w).take 256 }
        match r.1 with
        | .uncorr _ => (.cause cUNCORR, s1)
        | .rsv _ => (.cause cPTRSV, s1)
        | .miss _ _ e => (if pteDemand e || ptePaged e then .wait else .cause cXLATE, s1)
        | .leaf lvl addr e =>
          let t := s1.entryOf cid a lvl addr e
          match judge cid k dcl t (t.pa + (a - t.va)) with
          | .ok pa =>
            let h1 := s1.hearth hearth
            (.ok pa, fillStove (s1.setHearth hearth { h1 with tlb := tlbFill 4096 h1.tlb t }) t)
          | x => (x, s1)

/-- The sectors of a line that a write of `n` bytes covers whole. -/
def wholeSectors (pa n : Nat) : Byte :=
  (List.range 8).foldl (fun m j =>
    let b := pa / 128 * 128 + 16 * j
    if pa ≤ b && b + 16 ≤ pa + n then m ||| BitVec.ofNat 8 (2 ^ j) else m) 0

/-- The reservations that application cores hold on a line end (12 R296: AMO, LR and SC are single-copy atomic at the slice). -/
def State.breakResv (s : State) (line : Nat) : State :=
  { s with harts := s.harts.map fun (x : Nat × Hart) => (x.1, if x.2.resv = some line then { x.2 with resv := none } else x.2) }

/-- The reservations on the lines of a range end. -/
def State.breakRange (s : State) (pa n : Nat) : State :=
  (List.range ((pa + n + 127) / 128 - pa / 128)).foldl (fun (s : State) j => s.breakResv (pa / 128 + j)) s

/-- Apply a write within one line at its home slice (09 R223): on an uncorrectable line a write of whole sectors is kept and
any other is dropped; with the eighth sector overwritten the line is whole again. -/
def State.applyAt (s : State) (cid pa : Nat) (bytes : List Byte) (src : Nat := portControl) (cls : Nat := 0) : State :=
  let s0 := (s.touch cid (pa / 128) src cls).breakResv (pa / 128)
  let s : State := { s0 with llc := Tab.modify s0.llc (pa / 128) fun l => { l with dirty := true } }
  match if s.llcBad (pa / 128) then some (Tab.getD s.uncorr (pa / 128) 0) else Tab.get? s.uncorr (pa / 128) with
  | none => { s with mem := Memory.write s.mem pa bytes }
  | some done =>
    if pa % 16 = 0 && bytes.length % 16 = 0 && bytes.length != 0 then
      let d := done ||| wholeSectors pa bytes.length
      { s with mem := Memory.write s.mem pa bytes,
               llc := Tab.modify s.llc (pa / 128) fun l => { l with bad := false },
               uncorr := if d = 0xFF#8 then Tab.del s.uncorr (pa / 128) else Tab.put s.uncorr (pa / 128) d }
    else s

/-- Invalidate the L1 copies of a line on every stove but one (12 R277). -/
def State.invalidateL1 (s : State) (keep : Option Nat) (line : Nat) : State :=
  { s with stoves := s.stoves.map fun (x : Nat × Stove) => if some x.1 = keep then x else (x.1, { x.2 with l1 := Tab.del x.2.l1 line }) }

/-- The number of bytes of an atomic's type. -/
def atomBytes (ty : Ty) : Nat := 4 * ty.regs

/-- The new value of an atomic (09 R214). -/
def atomNew (aop : Nat) (ty : Ty) (old b c : DWord) : DWord :=
  let o32 := old.setWidth 32
  let b32 := b.setWidth 32
  let pick32 (x : Bool) : DWord := if x then old else b
  match aop with
  | 0 => match ty with
    | .f32 => BitVec.ofNat 64 (fAdd fp32 .rne (fp32.decode o32.toNat) (fp32.decode b32.toNat)).bits
    | .i64 | .z64 => old + b
    | _ => (o32 + b32).setWidth 64
  | 1 => match ty with
    | .f32 => BitVec.ofNat 64 (fMinMax fp32 false o32.toNat b32.toNat).bits
    | .i32 => pick32 (BitVec.slt o32 b32)
    | .z32 => pick32 (BitVec.ult o32 b32)
    | .i64 => pick32 (BitVec.slt old b)
    | _ => pick32 (BitVec.ult old b)
  | 2 => match ty with
    | .f32 => BitVec.ofNat 64 (fMinMax fp32 true o32.toNat b32.toNat).bits
    | .i32 => pick32 (BitVec.slt b32 o32)
    | .z32 => pick32 (BitVec.ult b32 o32)
    | .i64 => pick32 (BitVec.slt b old)
    | _ => pick32 (BitVec.ult b old)
  | 3 => old &&& b
  | 4 => old ||| b
  | 5 => old ^^^ b
  | 6 => b
  | _ => if old == c then b else old

/-- What a posted write leaves in the bytes it covers. -/
def PostedKind.result (k : PostedKind) (old : List Byte) : List Byte :=
  match k with
  | .store bs => bs
  | .red aop ty vs => leBytes (atomBytes ty) (vs.foldl (fun o v => atomNew aop.toNat ty o v 0) (BitVec.ofNat 64 (leNat old))).toNat

/-- How many bytes a posted write covers. -/
def PostedKind.size : PostedKind → Nat
  | .store bs => bs.length
  | .red _ ty _ => atomBytes ty

/-- A posted write is a RED. -/
def PostedKind.isRed : PostedKind → Bool
  | .store _ => false
  | .red _ _ _ => true

/-- Apply a posted write at its home slice as a generic write (12 R277). The issuing stove's L1 has a store's bytes already; a RED's
result it has not, and its copy goes as well. -/
def State.applyPosted (s : State) (stove : Nat) (p : Posted) : State :=
  let v := p.kind.result (Memory.read s.mem p.pa p.kind.size)
  let line := p.pa / 128
  if p.kind.isRed && s.bad p.pa then (s.touch p.cid line (hearthOf stove)).invalidateL1 none line
  else (s.applyAt p.cid p.pa v (hearthOf stove)).invalidateL1 (if p.kind.isRed then none else some stove) line

/-- Take the posted writes of a stove that satisfy a test, in order, and apply them. -/
def State.drainPosted (s : State) (stove : Nat) (which : Posted → Bool) : State :=
  let ps := (s.stove stove).posted
  let s1 := s.setStove stove { s.stove stove with posted := ps.filter fun p => !which p }
  (ps.filter which).foldl (fun s p => s.applyPosted stove p) s1

/-- A release of any scope by a flue of the stove makes every write that the stove has accepted visible (12 R283, R285;
assumption 11: the model does the same at every scope). -/
def State.release (s : State) (stove : Nat) : State := s.drainPosted stove fun _ => true

/-- A line as the stove's generic path sees it: the slice's bytes with the stove's own posted writes over them. -/
def State.lineSeen (s : State) (stove line : Nat) : List Byte :=
  let m := ((s.stove stove).posted.filter fun p => p.pa / 128 == line).foldl
    (fun (m : Memory) p => Memory.write m p.pa (p.kind.result (Memory.read m p.pa p.kind.size)))
    (Memory.write [] (line * 128) (Memory.read s.mem (line * 128) 128))
  Memory.read m (line * 128) 128

/-- A line that a cache of a stove misses: with a posted RED on it the stove's posted writes to it act first, because only the slice
knows its result (12 R281); its posted stores are seen over the slice's bytes (09 R207, 12 R289). -/
def State.fetchLine (s : State) (stove cid line : Nat) : List Byte × State :=
  let on := fun (p : Posted) => p.pa / 128 == line
  let s0 := if (s.stove stove).posted.any fun p => on p && p.kind.isRed then s.drainPosted stove on else s
  let s1 := s0.touch cid line (hearthOf stove)
  (s1.lineSeen stove line, s1)

/-- Put a line in a cache that has room for `cap` lines (01 R14); when it is full another one leaves, a free choice (assumption 12). -/
def cachePut (cap : Nat) (t : Tab Line) (line : Nat) (l : Line) (n : Nat) : Tab Line :=
  if (Tab.get? t line).isSome || t.length < cap then Tab.put t line l
  else Tab.put (t.eraseIdx ((Config.freeWord n).toNat % t.length)) line l

/-- Read `n` bytes that lie in one line through a stove's L1 of 256 KiB (01 R14, 12 R276, R277). A copy that the stove holds may have been
evicted meanwhile: a free choice (assumption 12). -/
def State.loadL1 (s : State) (stove cid pa n : Nat) : List Byte × State :=
  let line := pa / 128
  let miss := fun (s : State) =>
    let r := s.fetchLine stove cid line
    let st := r.2.stove stove
    ((r.1.drop (pa % 128)).take n,
      { r.2.setStove stove { st with l1 := cachePut 2048 st.l1 line ⟨cid, r.1⟩ r.2.freeIdx } with freeIdx := r.2.freeIdx + 1 })
  match Tab.get? (s.stove stove).l1 line with
  | none => miss s
  | some l =>
    if l.cid = cid then
      let r := s.takeBool
      if r.1 then miss r.2 else ((l.data.drop (pa % 128)).take n, r.2)
    else miss s

/-- Read `n` bytes that lie in one line through a stove's constant cache of 64 KiB (01 R14, 09 R205, 12 R276). -/
def State.loadConst (s : State) (stove cid pa n : Nat) : List Byte × State :=
  let line := pa / 128
  let miss := fun (s : State) =>
    let r := s.fetchLine stove cid line
    let st := r.2.stove stove
    ((r.1.drop (pa % 128)).take n,
      { r.2.setStove stove { st with kcache := cachePut 512 st.kcache line ⟨cid, r.1⟩ r.2.freeIdx } with freeIdx := r.2.freeIdx + 1 })
  match Tab.get? (s.stove stove).kcache line with
  | none => miss s
  | some l =>
    if l.cid = cid then
      let r := s.takeBool
      if r.1 then miss r.2 else ((l.data.drop (pa % 128)).take n, r.2)
    else miss s

/-- Replace bytes of a cached line. -/
def patchLine (d : List Byte) (off : Nat) (bs : List Byte) : List Byte :=
  d.take off ++ bs ++ d.drop (off + bs.length)

/-- A write to a peer: parts of a line are held each until the peer acknowledges them (20 R420, R427). The fuel bounds the parts. A RED
is held whole: its values act as one (09 R213). -/
def State.holdParts (s : State) (cid r : Nat) : Nat → Nat → List Byte → State
  | 0, _, _ => s
  | _ + 1, _, [] => s
  | n + 1, a, b :: bs =>
    let k := 128 - a % 128
    (s.hold cid r a (.store ((b :: bs).take k))).holdParts cid r n (a + k) ((b :: bs).drop k)

/-- The address of a peer's byte in this package (20 R418). -/
def peerPa (r a : Nat) : Nat := 2 ^ 49 + r * 2 ^ 41 + a

/-- A write to a peer from a port. Reservations of this package on its lines end (12 R296). -/
def State.toPeer (s : State) (cid r a : Nat) (k : PostedKind) (src : Nat) (cls : Nat := 0) : State :=
  let s1 := (s.sendPacket cid src (s.peerPort cid r a) cls).breakRange (peerPa r a) k.size
  match k with
  | .store bs => s1.holdParts cid r bs.length a bs
  | .red aop ty vs => s1.hold cid r a (.red aop ty vs)

/-- What a peer or a device answers for `n` bytes: free values, the same for every lane of one instruction (09 R207, assumption 13). -/
def freeAt (seed pa n : Nat) : List Byte := (List.range n).map fun j => Config.peerByte seed (pa + j)

/-- The request for bytes at a peer goes out, and is answered. -/
def State.askPeer (s : State) (cid r a src cls : Nat) : State :=
  (s.exchange cid src (s.peerPort cid r a) cls).request cid r 0 1 a [[]]

/-- Read `n` bytes at a peer, of which the answer is a free value (assumption 13). -/
def State.readPeer (s : State) (cid pa r a n src cls : Nat) : List Byte × State :=
  (freeAt s.freeIdx pa n, { s.askPeer cid r a src cls with freeIdx := s.freeIdx + 1 })

/-- Some write of a context to a peer is not acknowledged yet. -/
def State.unacked (s : State) (cid : Nat) : Bool :=
  match s.ctx? cid with
  | some c => c.roster.any fun p => !p.2.held.isEmpty
  | none => false
/-- A write to a peer that has left the roster is still unacknowledged. -/
def State.peerLost (s : State) (cid : Nat) : Bool :=
  match s.ctx? cid with
  | some c => c.roster.any fun p => !p.2.held.isEmpty && p.2.lstate != .active
  | none => false
/-- A peer on the roster has writes of the context to acknowledge (12 R298). -/
def State.ackDue (s : State) (cid : Nat) : Bool :=
  match s.ctx? cid with
  | some c => c.roster.any fun p => !p.2.held.isEmpty && p.2.lstate == .active
  | none => false

/-- Accept a generic write from a flue of a stove (09 R208, 12 R277): the stove's own L1 copy follows, and the write is
posted. A write to a peer is held until the peer acknowledges it (20 R427), a write to a device goes out (20 R425). -/
def State.post (s : State) (stove cid pa : Nat) (k : PostedKind) : State :=
  match paKind pa with
  | .peer r a => s.toPeer cid r a k (hearthOf stove)
  | .device i o => (s.sendPacket cid (hearthOf stove) (s.devicePort cid i) 0).say (match k with
      | .store bs => .mmioWrite cid i o bs
      | .red aop ty vs => .mmioAtomic cid i o aop ty (vs.map fun v => (v, 0)))
  | .hole => s
  | .hbm =>
    let st := s.stove stove
    let l1 := match k with
      | .store bs => Tab.modify st.l1 (pa / 128) fun l =>
          if l.cid = cid then { l with data := patchLine l.data (pa % 128) bs } else l
      | .red _ _ _ => Tab.del st.l1 (pa / 128)
    s.setStove stove { st with l1 := l1, posted := st.posted ++ [⟨cid, pa, k⟩] }

/-! ### The spaces -/

/-- Where a checked access lands. -/
inductive Loc where
  | gen (pa : Nat)
  | shr (a : Nat)
  | scp (a : Nat)
  deriving DecidableEq, Repr

/-- The space number of a location, and its address: GEN and PRIV have the same bytes, by physical address. -/
def Loc.space : Loc → Nat
  | .gen _ => 0
  | .shr _ => 2
  | .scp _ => 3
def Loc.addr : Loc → Nat
  | .gen a => a
  | .shr a => a
  | .scp a => a

/-- The start of a flue's PRIV window, its spill base (15 R345, R493). -/
def privBase (k : Kernel) (window gflue : Nat) : DWord :=
  k.launch.privBase + BitVec.ofNat 64 ((window * k.launch.flues + gflue) * k.launch.privsz)

/-- The scratchpad address on a die that an SCP offset of a kernel names (16 R363). -/
def scpAddr (k : Kernel) (die off : Nat) : Option Nat :=
  match Tab.get? k.scp die with
  | some bs => match bs[off / 65536]? with
    | some b => some (b * 65536 + off % 65536)
    | none => none
  | none => none

/-- The end of the checks of R203 on one lane. -/
inductive Chk where
  | ok (l : Loc)
  | cause (c : Nat)
  | wait (va : DWord)
  deriving DecidableEq, Repr

/-- A kick page of a queue of the context lies at the address (15 R348). -/
def Context.kickPage (c : Context) (va : DWord) : Bool :=
  c.queues.any fun q => q.2.kickva.toNat / 4096 == va.toNat / 4096

/-- The ownership check of an access to a peer page is the peer's, and so is the check of the data read (09 R203, 20 R418): which
cause comes back is a free choice (assumption 13). -/
def peerSays (k : Acc) (pa : Nat) (s : State) : Chk × State :=
  let b := s.takeBool
  let c := b.2.takeBool
  (if b.1 then .cause cOWNER else if c.1 && (k == .load || k == .atom) then .cause cUNCORR else .ok (.gen pa), c.2)

/-- Steps 4 to 8 of R203 on a virtual address. An uncorrectable line raises UNCORR also when the region's buffer holds every byte that a LD
reads of it (DESIGN CHOICE: 09 R210 and R223 do not say; assumption 56). -/
def State.checkVa (s : State) (stove cid : Nat) (va : DWord) (k : Acc) (dcl : Bool) : Chk × State :=
  if (match s.ctx? cid with | some c => c.kickPage va | none => false) then (.cause cPERM, s)
  else
    let r := s.translate (hearthOf stove) (some stove) cid va k dcl
    match r.1 with
    | .wait => (.wait va, r.2)
    | .cause c => (.cause c, r.2)
    | .ok pa =>
      match r.2.windowCause cid pa with
      | some c => (.cause c, r.2)
      | none =>
        if (k == .load || k == .atom) && r.2.bad pa then (.cause cUNCORR, r.2)
        else match paKind pa with
          | .peer _ _ => peerSays k pa r.2
          | _ => (.ok (.gen pa), r.2)

/-- The checks of R203 on one lane's effective address in a space (0 GEN, 1 PRIV, 2 SHR, 3 SCP; 09 R201). -/
def State.check (s : State) (stove : Nat) (f : Flue) (space : Nat) (ea : DWord) (size : Nat) (k : Acc) (dcl : Bool) :
    Chk × State :=
  let off := (ea.setWidth 32).toNat
  let kern := s.kernel? f.part f.kslot
  match space with
  | 0 =>
    if !canonical ea then (.cause cXLATE, s)
    else if ea.toNat % size != 0 then (.cause cALIGN, s)
    else s.checkVa stove f.cid ea k dcl
  | 1 =>
    if off % size != 0 then (.cause cALIGN, s)
    else match kern with
      | some kn =>
        if kn.launch.privsz < off + size then (.cause cBOUND, s)
        else
          let w := (Tab.getD (s.stove stove).groups f.group {}).window
          let va := privBase kn w f.gflue + BitVec.ofNat 64 off
          if !canonical va then (.cause cXLATE, s) else s.checkVa stove f.cid va k dcl
      | none => (.cause cBOUND, s)
  | 2 =>
    if off % size != 0 then (.cause cALIGN, s)
    else if (Tab.getD (s.stove stove).groups f.group {}).sharedSize < off + size then (.cause cBOUND, s)
    else (.ok (.shr off), s)
  | _ =>
    if off % size != 0 then (.cause cALIGN, s)
    else if 2 ^ 26 < off + size then (.cause cBOUND, s)
    else match kern with
      | some kn => match scpAddr kn (dieOf stove) off with
        | some a => (.ok (.scp a), s)
        | none => (.cause cOWNER, s)
      | none => (.cause cOWNER, s)

/-! ### The region buffer -/

/-- Two spaces whose bytes are the same: each with itself, and PRIV with GEN, where its window lies. -/
def sameBytes (a b : Nat) : Bool := a == b || (a ≤ 1 && b ≤ 1)

/-- The byte that the buffer holds at an address of a space: a sector of GEN and one of PRIV may hold bytes of one place, and each byte
is held by the later store's. -/
def bufferedByte (t : List Sector) (space a : Nat) : Option Byte :=
  t.findSome? fun x => if sameBytes x.space space && x.addr == a / 16 then (x.bytes[a % 16]?).join else none

/-- Bytes read at a location with the buffered bytes over them (09 R210). -/
def overlay (t : List Sector) (space : Nat) : Nat → List Byte → List Byte
  | _, [] => []
  | a, b :: bs => (bufferedByte t space a).getD b :: overlay t space (a + 1) bs

/-- Buffer one byte in the entry of its space and sector (09 R209). Sector addresses of GEN and PRIV are physical (R212 makes the
checks at entry; assumption 51). -/
def bufferByte (t : List Sector) (space cid a : Nat) (b : Byte) : List Sector :=
  let u := t.map fun x =>
    if x.space != space && sameBytes x.space space && x.addr == a / 16 then { x with bytes := x.bytes.set (a % 16) none } else x
  if u.any fun x => x.space == space && x.addr == a / 16 then
    u.map fun x => if x.space == space && x.addr == a / 16 then { x with bytes := x.bytes.set (a % 16) (some b) } else x
  else u ++ [⟨space, a / 16, cid, (List.replicate 16 none).set (a % 16) (some b)⟩]

/-- Buffer bytes from an address upward; entries merge by sector (09 R209). -/
def bufferBytes (t : List Sector) (space cid : Nat) : Nat → List Byte → List Sector
  | _, [] => t
  | a, b :: bs => bufferBytes (bufferByte t space cid a b) space cid (a + 1) bs

/-- The maximal runs of buffered bytes of a sector, as writes. -/
def sectorWrites : Nat → List (Option Byte) → List (Nat × List Byte)
  | _, [] => []
  | a, none :: t => sectorWrites (a + 1) t
  | a, some b :: t =>
    match sectorWrites (a + 1) t with
    | (a', bs) :: r => if a' = a + 1 then (a, b :: bs) :: r else (a, [b]) :: (a', bs) :: r
    | [] => [(a, [b])]

/-! ### Loads, stores and atomics at a location -/

/-- The locations of an access, by lane, in their lines of GEN, each line once in the order of its lowest lane. -/
def linesOf (ls : List (Nat × Loc)) : List Nat :=
  ls.foldl (fun t p => match p.2 with
    | .gen pa => if t.contains (pa / 128) then t else t ++ [pa / 128]
    | _ => t) []

/-- A line as one LD or LDC reads it: through a cache of the stove, or at a peer or device, whose answer is a free value. -/
def State.lineFor (s : State) (stove cid seed : Nat) (const : Bool) (line : Nat) : List Byte × State :=
  match paKind (128 * line) with
  | .hbm => if const then s.loadConst stove cid (128 * line) 128 else s.loadL1 stove cid (128 * line) 128
  | .peer r a => (freeAt seed (128 * line) 128, s.askPeer cid r a (hearthOf stove) 0)
  | .device i _ => (freeAt seed (128 * line) 128, s.exchange cid (hearthOf stove) (s.devicePort cid i) 0)
  | .hole => (freeAt seed (128 * line) 128, s)

/-- Read lines one after another. -/
def readLines (k : State → Nat → List Byte × State) : List Nat → State → Tab (List Byte) × State
  | [], s => ([], s)
  | l :: ls, s =>
    let r := k s l
    let t := readLines k ls r.2
    (Tab.put t.1 l r.1, t.2)

/-- The bytes at a location, those of GEN taken from the lines that were read. -/
def State.bytesAt (s : State) (stove : Nat) (f : Flue) (lines : Tab (List Byte)) (n : Nat) : Loc → List Byte
  | .gen pa => ((Tab.getD lines (pa / 128) []).drop (pa % 128)).take n
  | .shr a => Memory.read (Tab.getD (s.stove stove).groups f.group {}).shared a n
  | .scp a => Memory.read (s.die (dieOf stove)).scp a n

/-- An access to the scratchpad is an exchange on the network. -/
def State.scpExchange (s : State) (stove cid : Nat) (l : Loc) : State :=
  match l with
  | .scp _ => s.exchange cid (hearthOf stove) (portScp (dieOf stove)) 0
  | _ => s

/-- Read `n` bytes for each lane of one instruction, without the region buffer: lanes that read the same byte read the same value (09
R207). -/
def State.readLanes (s : State) (stove : Nat) (f : Flue) (const : Bool) (n : Nat) (ls : List (Nat × Loc)) :
    List (Nat × Loc × List Byte) × State :=
  let q := readLines (fun t l => t.lineFor stove f.cid s.freeIdx const l) (linesOf ls) { s with freeIdx := s.freeIdx + 1 }
  (ls.map fun p => (p.1, p.2, q.2.bytesAt stove f q.1 n p.2), ls.foldl (fun t p => t.scpExchange stove f.cid p.2) q.2)

/-- Store bytes at a location outside a region. -/
def State.storeLoc (s : State) (stove : Nat) (f : Flue) (l : Loc) (bs : List Byte) : State :=
  match l with
  | .gen pa => s.post stove f.cid pa (.store bs)
  | .shr a => match s.group? stove f.group with
    | some g => s.setGroup stove f.group { g with shared := Memory.write g.shared a bs }
    | none => s
  | .scp a =>
    let d := s.die (dieOf stove)
    (s.exchange f.cid (hearthOf stove) (portScp (dieOf stove)) 0).setDie (dieOf stove) { d with scp := Memory.write d.scp a bs }

/-- An atomic of one lane at its one place in this package (09 R213, R215): the old bytes, and the location changed. The stove's own posted
writes to the line come first (09 R207). -/
def State.atomLoc (s : State) (stove : Nat) (f : Flue) (l : Loc) (aop : Nat) (ty : Ty) (b c : DWord) : DWord × State :=
  let n := atomBytes ty
  match l with
  | .gen pa =>
    let s1 := s.drainPosted stove fun p => p.pa / 128 == pa / 128
    let old := BitVec.ofNat 64 (leNat (Memory.read s1.mem pa n))
    let s2 := (s1.applyAt f.cid pa (leBytes n (atomNew aop ty old b c).toNat) (hearthOf stove)).invalidateL1 none (pa / 128)
    (old, s2)
  | _ =>
    let old := BitVec.ofNat 64 (leNat (s.bytesAt stove f [] n l))
    (old, (s.scpExchange stove f.cid l).storeLoc stove f l (leBytes n (atomNew aop ty old b c).toNat))

/-- The old values that lanes find one after another at one location (09 R213). -/
def chainOlds (aop : Nat) (ty : Ty) : DWord → List (Nat × DWord × DWord) → List (Nat × DWord)
  | _, [] => []
  | old, (l, b, c) :: t => (l, old) :: chainOlds aop ty (atomNew aop ty old b c) t

/-- Lanes of an ATOM at one location of this package, in ascending order. -/
def State.atomLanes (s : State) (stove : Nat) (f : Flue) (l : Loc) (aop : Nat) (ty : Ty) : List (Nat × DWord × DWord) → List (Nat × DWord) × State
  | [] => ([], s)
  | (n, b, c) :: t =>
    let r := s.atomLoc stove f l aop ty b c
    let q := r.2.atomLanes stove f l aop ty t
    ((n, r.1) :: q.1, q.2)

/-- The lanes of an ATOM at one location, as one indivisible sequence (09 R213): here one after another in one step; at a peer or a device
by one request, where the value found first is a free value (assumption 13). -/
def State.atomAt (s : State) (stove : Nat) (f : Flue) (aop : Nat) (ty : Ty) (p : Loc × List (Nat × DWord × DWord)) :
    List (Nat × DWord) × State :=
  let vals := p.2.map fun v => v.2
  let outside := fun (pa : Nat) (k : State → State) =>
    let old := BitVec.ofNat 64 (leNat (freeAt s.freeIdx pa (atomBytes ty)))
    (chainOlds aop ty old p.2, k { s with freeIdx := s.freeIdx + 1 })
  match p.1 with
  | .gen pa => match paKind pa with
    | .hbm => s.atomLanes stove f p.1 aop ty p.2
    | .peer r a => outside pa fun s => (s.exchange f.cid (hearthOf stove) (s.peerPort f.cid r a) 0).request f.cid r 0 4 a
        (atomParts (BitVec.ofNat 3 aop) ty vals.length vals) |>.breakRange pa (atomBytes ty)
    | .device j o => outside pa fun s => (s.exchange f.cid (hearthOf stove) (s.devicePort f.cid j) 0).say
        (.mmioAtomic f.cid j o (BitVec.ofNat 3 aop) ty vals)
    | .hole => outside pa id
  | _ => s.atomLanes stove f p.1 aop ty p.2

/-- Write the buffered sectors of a flue to memory (09 R210). -/
def State.commitSectors (s : State) (stove : Nat) (f : Flue) : State :=
  f.sectors.foldl (fun s x =>
    (sectorWrites (16 * x.addr) x.bytes).foldl (fun s w =>
      let l : Loc := if x.space ≤ 1 then .gen w.1 else if x.space = 2 then .shr w.1 else .scp w.1
      s.storeLoc stove f l w.2) s) s

/-! ### Accesses of other agents at the slices -/

/-- A read of `n` bytes at the slices, no cache in front (12 R276), for a sending port in a traffic class. -/
def State.tileRead (s : State) (cid pa n : Nat) (src : Nat := portControl) (cls : Nat := 2) : List Byte × State :=
  match paKind pa with
  | .hbm => (Memory.read s.mem pa n, s.touch cid (pa / 128) src cls)
  | .peer r a => s.readPeer cid pa r a n src cls
  | .device i _ => (freeAt s.freeIdx pa n, { s.exchange cid src (s.devicePort cid i) cls with freeIdx := s.freeIdx + 1 })
  | .hole => s.takeBytes n

/-- Split a write at line boundaries and apply each part on the tile path (12 R276, R297). -/
def State.tileWriteFuel (s : State) (cid src cls : Nat) : Nat → Nat → List Byte → State
  | 0, _, _ => s
  | _ + 1, _, [] => s
  | n + 1, pa, b :: bs =>
    let k := 128 - pa % 128
    let part := (b :: bs).take k
    (s.applyAt cid pa part src cls).tileWriteFuel cid src cls n (pa + k) ((b :: bs).drop k)

/-- A tile-path write (12 R277): no L1 or constant-cache copy is invalidated. -/
def State.tileWrite (s : State) (cid pa : Nat) (bs : List Byte) (src : Nat := portControl) (cls : Nat := 2) : State :=
  match paKind pa with
  | .hbm => s.tileWriteFuel cid src cls bs.length pa bs
  | .peer r a => s.toPeer cid r a (.store bs) src cls
  | .device i o => (s.sendPacket cid src (s.devicePort cid i) cls).say (.mmioWrite cid i o bs)
  | .hole => s

/-- A generic write of an application or service core at the slices (12 R277, R296). -/
def State.coreWrite (s : State) (cid pa : Nat) (bs : List Byte) : State :=
  match paKind pa with
  | .hbm => (s.applyAt cid pa bs).invalidateL1 none (pa / 128)
  | _ => s.tileWrite cid pa bs

/-! ### Pages (19 R406, R407, R417) -/

/-- A region buffer holds a sector of one of the pages (19 R406, step 5). -/
def State.buffered (s : State) (pages : List Nat) : Bool :=
  s.stoves.any fun (x : Nat × Stove) => x.2.flues.any fun (f : Nat × Flue) =>
    f.2.sectors.any fun c => c.space ≤ 1 && pages.contains (c.addr * 16 / 4096)

/-- Apply the posted writes of every stove that lie in one of the pages. -/
def State.settlePages (s : State) (pages : List Nat) : State :=
  s.stoves.foldl (fun (s : State) (x : Nat × Stove) => s.drainPosted x.1 fun p => pages.contains (p.pa / 4096)) s

/-- Write zero to every byte of the pages, as a generic write: no line of them is uncorrectable any more. -/
def State.scrubPages (s : State) (pages : List Nat) : State :=
  let inPage := fun (line : Nat) => pages.contains (line / 32)
  { s.resealed inPage with
           mem := pages.foldl (fun m p => Memory.clear m (p * 4096) 4096) s.mem
           uncorr := s.uncorr.filter fun (x : Nat × Byte) => !inPage x.1
           stoves := s.stoves.map fun (x : Nat × Stove) =>
             (x.1, { x.2 with l1 := x.2.l1.filter fun (y : Nat × Line) => !inPage y.1 }) }

/-- Give the pages a record, each keeping its VERSION. -/
def State.ownPages (s : State) (pages : List Nat) (cid : Nat) (st : OState) : State :=
  let put := fun (t : Tab Own) (p : Nat) => Tab.put t p { Tab.getD t p {} with owner := cid, state := st }
  { s.rekeyed fun l => pages.contains (l / 32) with own := pages.foldl put s.own }

/-- The lines of pages are compressed or not, as their leaf says (19 R414). -/
def State.markCmp (s : State) (pages : List Nat) (on : Bool) : State :=
  let put := fun (t : Tab Own) (p : Nat) => Tab.put t p { Tab.getD t p {} with cmp := on }
  { s.rekeyed fun l => pages.contains (l / 32) with own := pages.foldl put s.own }

/-- Scrub and free the pages, their VERSION raised (19 R407, R417). -/
def State.freePages (s : State) (pages : List Nat) : State :=
  let put := fun (t : Tab Own) (p : Nat) =>
    Tab.put t p { owner := 0, state := .free, version := (Tab.getD t p {}).version + 1 }
  let s1 := (s.settlePages pages).scrubPages pages
  { s1 with own := pages.foldl put s1.own }

/-- Drop the translations of a CID for a range, its walk-cache entries, and every translation to one of the pages (19 R406,
step 2); the writes that stoves have accepted to those pages are applied (step 4). -/
def State.shootdown (s : State) (cid va span : Nat) (pages : List Nat) : State :=
  let keep := fun (e : TlbEntry) =>
    !(e.cid == cid && e.va < va + span && va < e.va + e.span) &&
    !pages.any fun p => e.pa < p * 4096 + 4096 && p * 4096 < e.pa + e.span
  let s1 := s.settlePages pages
  { s1 with stoves := s1.stoves.map fun (x : Nat × Stove) => (x.1, { x.2 with tlb := x.2.tlb.filter keep })
            hearths := s1.hearths.map fun (x : Nat × Hearth) =>
              (x.1, { x.2 with tlb := x.2.tlb.filter keep, walk := x.2.walk.filter fun w => w.cid != cid }) }

end Sys2Proof.Machine
end

