-- ==== Sys2Proof/Machine/Ops.lean ====
section
/-! DEFINITION. Operations on a flue: stepping and transfers (05 R108, R111), causes, taking an exception and returning from
one (13 R300-R305, 11 R265, R266), results that arrive late (03 R70-R75), regions (13 R306-R309), frames (05 R113-R116). -/

namespace Sys2Proof.Machine

/-! ### Clauses that a flue has issued (03 R56, 04 R98) -/

/-- The positions of the words at which instructions of a clause start; `pos` is that of the first word given. -/
def startsFrom : Nat → Nat → List Word → List Nat
  | 0, _, _ => []
  | _ + 1, _, [] => []
  | fuel + 1, pos, w :: ws => pos :: startsFrom fuel (pos + wordCount w) ((w :: ws).drop (wordCount w))
/-- Those of an open clause. -/
def OpenClause.starts (c : OpenClause) : List Nat := startsFrom 15 1 c.words
/-- The word of a clause that a program counter names as the start of an instruction. -/
def OpenClause.startAt (c : OpenClause) (pc : DWord) : Option Nat := c.starts.find? fun k => c.header + BitVec.ofNat 64 (4 * k) == pc

/-- The first of some clauses that a program counter stands inside, with the position of its word. A counter at the header of a clause is
not inside it. -/
def inClause : List OpenClause → DWord → Option (OpenClause × Nat)
  | [], _ => none
  | c :: cs, pc =>
    match c.startAt pc with
    | some k => some (c, k)
    | none => inClause cs pc

/-- The lanes whose most recent clause it is: in handler mode those of the handler. -/
def OpenClause.members (c : OpenClause) (handler : Bool) : LaneMask := if handler then c.hlanes else c.lanes
/-- Lanes leave a clause. -/
def OpenClause.leave (c : OpenClause) (handler : Bool) (m : LaneMask) : OpenClause :=
  if handler then { c with hlanes := c.hlanes &&& ~~~m } else { c with lanes := c.lanes &&& ~~~m }
/-- Lanes take a clause. -/
def OpenClause.join (c : OpenClause) (handler : Bool) (m : LaneMask) : OpenClause :=
  if handler then { c with hlanes := c.hlanes ||| m } else { c with lanes := c.lanes ||| m }
/-- Lanes leave every clause. -/
def leaveAll (cs : List OpenClause) (handler : Bool) (m : LaneMask) : List OpenClause := cs.map fun c => c.leave handler m

/-- Lanes that a handler returns to an address take the clause that it lies in: one of their own when there is one, else the most recently
issued. -/
def returnTo (cs : List OpenClause) (m : LaneMask) (pc : DWord) : List OpenClause :=
  let own := inClause (cs.filter fun c => c.lanes &&& m != 0) pc
  match (own <|> inClause cs pc) with
  | some (c, _) => cs.map fun d => if d = c then d.join false m else d.leave false m
  | none => leaveAll cs false m

/-- Two clauses share a word. -/
def OpenClause.overlaps (c d : OpenClause) : Bool :=
  c.header.toNat < d.header.toNat + 4 * (d.words.length + 1) && d.header.toNat < c.header.toNat + 4 * (c.words.length + 1)

/-! ### Program counters -/

/-- Set the program counter of the lanes of a mask. -/
def Flue.setPc (f : Flue) (lanes : LaneMask) (pc : DWord) : Flue :=
  { f with pc := SMap.setAll f.pc ((lanesOf lanes).map fun l => (l, pc)) }

/-- Clear the latch in the lanes of a mask; no result under way reaches it (05 R111). -/
def Flue.clearL (f : Flue) (lanes : LaneMask) : Flue :=
  { f with l := SMap.setAll f.l ((lanesOf lanes).map fun l => (l, 0)), lown := f.lown.filter fun t => !lanes.getLsbD t.1 }

/-- The live, unparked lanes of a flue (05 R102). -/
def Flue.unparked (f : Flue) : LaneMask := f.live &&& maskOf fun l => f.depthOf l == f.curDepth

/-- The lanes that move when they step: the unparked ones, and those that a handler runs, whatever their depth (13 R302). -/
def Flue.mayStep (f : Flue) : LaneMask := f.unparked ||| (if f.phase = .handler then f.live &&& f.clanes else 0)

/-- Lanes that have waited at an instruction step to an address each. A lane that is parked meanwhile does not move until the
current depth falls to its own (05 R102): its step is kept. -/
def Flue.stepLanes (f : Flue) (ts : List (Nat × DWord)) : Flue :=
  { f with
    pc := SMap.setAll f.pc (ts.filter fun t => f.mayStep.getLsbD t.1)
    later := (ts.filter fun t => f.live.getLsbD t.1 && !f.mayStep.getLsbD t.1).foldl (fun m t => Tab.put m t.1 t.2) f.later }

/-- Lanes that have waited step to one address. -/
def Flue.stepAll (f : Flue) (lanes : LaneMask) (pc : DWord) : Flue := f.stepLanes ((lanesOf lanes).map fun l => (l, pc))

/-- The steps kept of lanes that are parked no longer are made (05 R102). -/
def Flue.stepKept (f : Flue) : Flue :=
  { f with pc := SMap.setAll f.pc (f.later.filter fun t => f.unparked.getLsbD t.1),
           later := f.later.filter fun t => f.live.getLsbD t.1 && !f.unparked.getLsbD t.1 }

/-- Lanes are moved whatever they were waiting for, out of the clause that they were in: a step that was kept for them is void. -/
def Flue.place (f : Flue) (lanes : LaneMask) (pc : DWord) : Flue :=
  { f.setPc lanes pc with later := f.later.filter fun t => !lanes.getLsbD t.1,
                          clauses := leaveAll f.clauses (f.phase == .handler) lanes }

/-- A taken transfer: the lanes move and their latch reads zero (05 R111, 08 R186). -/
def Flue.transfer (f : Flue) (lanes : LaneMask) (pc : DWord) : Flue := (f.setPc lanes pc).clearL lanes

/-- Lanes that may issue by phase and depth: live and unparked, and in handler mode the lanes of `sr.clanes` (05 R102,
13 R302). -/
def Flue.eligible (f : Flue) : LaneMask :=
  if f.phase = .handler then f.live &&& f.clanes else f.live &&& maskOf fun l => f.depthOf l == f.curDepth

/-- The clause that lanes at a program counter are inside of, with the position of its word (03 R56, 04 R98): the most recently issued one
that holds it among the clauses of the lanes that stand there, those that may issue before those that may not. -/
def Flue.inside (f : Flue) (pc : DWord) : Option (OpenClause × Nat) :=
  let at' := maskOf fun l => f.pcOf l == pc
  let m := if f.eligible &&& at' = 0 then f.live &&& at' else f.eligible &&& at'
  inClause (f.clauses.filter fun c => c.members (f.phase == .handler) &&& m != 0) pc

/-- Lanes of a clause stand inside it, or will resume there: at the handler's return address, or from a pending cause. -/
def Flue.uses (f : Flue) (c : OpenClause) : Bool :=
  (lanesOf (f.live &&& (c.lanes ||| c.hlanes))).any (fun l => (c.startAt (f.pcOf l)).isSome) ||
    (f.phase == .handler && c.lanes &&& f.clanes != 0 && (c.startAt f.hpc).isSome) ||
    f.pending.any fun p => c.lanes &&& p.2.lanes != 0 && (c.startAt p.2.resume).isSome

/-- The PC group of a lane: the eligible lanes with its program counter (05 R103). -/
def Flue.groupOf (f : Flue) (lane : Nat) : LaneMask := f.eligible &&& maskOf fun l => f.pcOf l == f.pcOf lane

/-- Clear the latch of every lane whose PC group has changed (05 R111). -/
def Flue.settle (before after : Flue) : Flue :=
  after.clearL (maskOf fun l => after.eligible.getLsbD l && after.groupOf l != before.groupOf l)

/-- The flue issues nothing to lanes in the mask and the others step past the instruction. In handler mode a lane that
raised a cause steps past as well (13 R300, R304). -/
def Flue.finish (f : Flue) (i : Issue) (stay : LaneMask) : Flue :=
  if f.phase = .handler then f.setPc i.lanes i.next else f.setPc (i.lanes &&& ~~~stay) i.next

/-! ### Causes -/

/-- Hold a cause pending (13 R300): a cause already pending takes the union of the lanes and keeps its addresses. The code
of TRAP and BKPT is that of the lower-addressed instruction (11 R265). -/
def Flue.pend (f : Flue) (c : Nat) (lanes : LaneMask) (faddr resume : DWord) (code : Byte := 0) (args : SMap 32 := []) : Flue :=
  if lanes = 0 then f
  else match Tab.get? f.pending c with
    | none => { f with pending := Tab.put f.pending c ⟨lanes, faddr, resume, code, args, faddr⟩ }
    | some p =>
      let q : Pending := { p with
        lanes := p.lanes ||| lanes, args := SMap.setAll p.args ((lanesOf lanes).map fun l => (l, SMap.get args l)),
        code := if faddr.toNat < p.codeAt.toNat then code else p.code,
        codeAt := if faddr.toNat < p.codeAt.toNat then faddr else p.codeAt }
      { f with pending := Tab.put f.pending c q }

/-- The resume address of a cause raised now: the instruction, or `sr.hpc` in handler mode (13 R300, R304). -/
def Flue.resumeAt (f : Flue) (pc : DWord) : DWord := if f.phase = .handler then f.hpc else pc

/-- `Raise(cause, lanes)` by the issuing instruction, with the address of its word 0 (00 R10, 13 R299, R300). -/
def Flue.raise (f : Flue) (i : Issue) (c : Nat) (lanes : LaneMask) : Flue := f.pend c lanes i.pc (f.resumeAt i.pc)

/-- `Raise` with an address of its own in `sr.faddrlo`/`sr.faddrhi` (09 R203). -/
def Flue.raiseAt (f : Flue) (i : Issue) (c : Nat) (lanes : LaneMask) (faddr : DWord) : Flue :=
  f.pend c lanes faddr (f.resumeAt i.pc)

/-- The pending causes as the PEND field (11 R271). -/
def pendBits (t : Tab Pending) : Word := t.foldl (fun m p => m ||| BitVec.ofNat 32 (2 ^ p.1)) 0

/-- `sr.cause` of a delivery (11 R271): CODE, DELIV and the causes still pending. -/
def causeWord (c : Nat) (code : Byte) (rest : Tab Pending) : Word :=
  (code.setWidth 32 <<< 24) ||| (BitVec.ofNat 32 c <<< 19) ||| (pendBits rest &&& 0x1FFFF#32)

/-- Taking an exception on a flue: the lowest pending cause is removed and delivered to the handler address (13 R301 steps
4-6). The status goes to `sr.cause`, the lanes to `sr.clanes`, the fault address to `sr.faddr`, the resume address to
`sr.hpc`; the handler frame reads zero but for `v0` of TRAP's lanes (11 R265); `l` reads zero; the lanes of `sr.clanes` stand
at the handler. A choice of the flue for slot pre-emption is void: a flue in HANDLER is none of its victims (13 R313). -/
def Flue.deliver (f : Flue) (handler : DWord) : Flue :=
  match f.pending with
  | [] => f
  | (c, p) :: rest =>
    let v0 := (lanesOf p.lanes).map fun l => (regKey 0 l, SMap.get p.args l)
    { f with
      pending := rest
      cause := causeWord c p.code rest
      clanes := p.lanes
      faddr := p.faddr
      hpc := p.resume
      hpcWritten := false
      hframe := if c = cTRAPI then SMap.setAll [] v0 else []
      l := []
      lown := []
      phase := .handler
      call := none
      preempt := f.preempt && f.sliceEnd
      pc := SMap.setAll f.pc ((lanesOf p.lanes).map fun l => (l, handler)) }

/-- The program counters that RTH sets (13 R304): a lane of `sr.clanes` resumes at `sr.hpc`, or at `sr.entry` when it lies
in the region-restart mask and the handler has not written `sr.hpc`; every other live lane of the mask takes `sr.entry`.
Lanes sent to a written `sr.hpc` leave the mask (DEDUCED from the worked example of chapter 13, assumption 14). A lane that resumes at
`sr.hpc` is inside the clause that the address lies in, when the flue has issued one (04 R98). -/
def Flue.resume (f : Flue) : Flue :=
  let toEntry := if f.hpcWritten then f.live &&& f.restart &&& ~~~f.clanes else f.live &&& f.restart
  let toHpc := f.clanes &&& ~~~toEntry
  { (f.setPc toHpc f.hpc).setPc toEntry f.entry with
    later := f.later.filter fun t => !(toHpc ||| toEntry).getLsbD t.1
    clauses := leaveAll (returnTo f.clauses toHpc f.hpc) false toEntry
    restart := if f.hpcWritten then f.restart &&& ~~~f.clanes else f.restart }

/-- The return from an exception (11 R266, 13 R304): the next pending cause is delivered at once, and with none pending the
flue returns to RUN. `l` reads zero in every lane; a rendezvous that handler lanes opened is dropped with its flags (08 R178).
REGOVF is never delivered to a handler (13 R305): it stays pending for its fault domain. -/
def Flue.rth (f : Flue) (handler : DWord) : Flue :=
  let g := { f.resume with rvs := [], flags := [] }
  match g.pending with
  | [] => { g with phase := .run, restart := 0, l := [], lown := [] }
  | (c, _) :: _ => if c = cREGOVF then { g with phase := .run, l := [], lown := [] } else g.deliver handler

/-! ### Results that arrive late -/

/-- The flag number that F selects: SETA or SETB of the header (03 R52, R59). -/
def Issue.flag (i : Issue) (x : FSel) : Option Nat :=
  match x with
  | .none => none
  | .a => some (i.word.extractLsb' 19 4).toNat
  | .b => some (i.word.extractLsb' 23 4).toNat

/-- How many outstanding instructions count on a flag. -/
def Flue.flagCount (f : Flue) (n : Nat) : Nat := (SMap.get f.flags n).toNat

/-- Make a flag count one more (03 R70). -/
def Flue.setFlag (f : Flue) (fl : Option Nat) : Flue :=
  match fl with
  | none => f
  | some n => { f with flags := SMap.set f.flags n (SMap.get f.flags n + 1) }

/-- Make a flag count one less. -/
def Flue.clearFlag (f : Flue) (fl : Option Nat) : Flue :=
  match fl with
  | none => f
  | some n => { f with flags := SMap.set f.flags n (SMap.get f.flags n - 1) }

/-- Issue an instruction of R71: its result is held until it arrives, from peers for the lanes that `peers` lists. With no lane acting it is
complete at issue (03 R70); without a flag the interlock holds its acting lanes at their next clause (R72). -/
def Flue.await (f : Flue) (i : Issue) (x : FSel) (acting : LaneMask) (ws : List LaneWrite) (peers : List PeerLane := []) : Flue :=
  if acting = 0 then f
  else
    let fl := i.flag x
    { (f.setFlag fl).claimLatch i.seed ws with
      outs := f.outs ++ [{ flag := fl, held := (if fl.isNone then i.lanes else 0), writes := ws, seed := i.seed, peers := peers }] }

/-- Make several flag counts one less each. -/
def Flue.clearFlags (f : Flue) (ns : List Nat) : Flue := ns.foldl (fun g n => g.clearFlag (some n)) f

/-- A result arrives: its elements are written and its flag falls (03 R70, R74). -/
def Flue.arrive (f : Flue) (n : Nat) : Flue :=
  match f.outs[n]? with
  | none => f
  | some o => ((({ f with outs := f.outs.eraseIdx n } : Flue).writeLate o.seed o.writes).clearFlag o.flag).clearFlags o.more

/-- The result under way of the instruction numbered `seed` arrives. -/
def Flue.arriveSeed (f : Flue) (seed : Nat) : Flue :=
  match f.outs.findIdx? fun o => o.seed == seed with
  | some n => f.arrive n
  | none => f

/-- A peer's stream is lost while lanes await its answer (20 R427): they raise ROSTER with the address of their access, and write nothing
more of it; the others' results still arrive. Where they resume: DESIGN CHOICE, assumption 52. -/
def Flue.loseAnswers (f : Flue) (roster : Nat) : Flue :=
  let hit := fun (o : Outstanding) => o.peers.filter fun p => p.roster == roster
  let mask := fun (o : Outstanding) => (hit o).foldl (fun m p => m ||| p.lanes) (0 : LaneMask)
  let g := { f with outs := f.outs.map fun o =>
    { o with writes := o.writes.filter fun w => !((mask o).getLsbD w.lane || (mask o != 0 && w.loc.isScalar)), peers := o.peers.filter fun p => p.roster != roster } }
  (f.outs.map hit).flatten.foldl (fun (g : Flue) p => g.pend cROSTER p.lanes p.ea (g.resumeAt (g.pcOf (lowLane p.lanes)))) g

/-- One element of an outstanding result is written ahead of the rest (03 R74: until the flag is waited on, each element holds its
earlier value or the arriving result). -/
def Flue.trickle (f : Flue) (n k : Nat) : Flue :=
  match f.outs[n]? with
  | none => f
  | some o => match o.writes[k]? with
    | none => f
    | some w => ({ f with outs := f.outs.set n { o with writes := o.writes.eraseIdx k } } : Flue).writeLate o.seed [w]

/-- The outstanding engine operations of a flue, class by class (10 R226). -/
def Flue.allOps (f : Flue) : List EngineOp := (f.ops.map (·.2)).flatten

/-- An MMA.H of the flue's gang is in progress (10 R256). -/
def Flue.inMmah (f : Flue) : Bool := f.allOps.any fun o => match o.instr with
  | .mmaH _ => true
  | _ => false

/-- The lanes that an interlock holds at their next clause (03 R72; AWWAIT, 09 R198, and ACCMV, 10 R260, among them). -/
def Flue.heldLanes (f : Flue) : LaneMask :=
  f.awaits.foldl (fun m a => m ||| a.held) (f.allOps.foldl (fun m o => m ||| o.held) (f.outs.foldl (fun m o => m ||| o.held) 0))

/-- Frames that an outstanding instruction has still to write (05 R119). -/
def Flue.busyUids (f : Flue) : List Nat :=
  ((f.awaits.map (·.loc)) ++ (((f.outs.map (·.writes)).flatten ++ (f.rvs.map (·.writes)).flatten ++
      (f.allOps.map (·.writes)).flatten ++ (f.service.map (·.dest)).flatten).map (·.loc))).filterMap fun r => match r with
    | .v u _ => some u
    | _ => none

/-! ### Rendezvous (08 R175-R178) -/

/-- Lanes that have arrived at a rendezvous. -/
def Rendezvous.lanes (rv : Rendezvous) : LaneMask := maskOf fun l => (Tab.get? rv.members l).isSome
/-- Lanes that stand at some rendezvous of the flue. -/
def Flue.rvLanes (f : Flue) : LaneMask := f.rvs.foldl (fun m rv => m ||| rv.lanes) 0

/-- A cause for lanes at an instruction; in handler mode they step past (13 R300, R304). -/
def Flue.fail (f : Flue) (c : Nat) (lanes : LaneMask) (pc next : DWord) : Flue :=
  let g := f.pend c lanes pc (f.resumeAt pc)
  if f.phase = .handler then g.setPc lanes next else g

/-- A broken rendezvous: it goes, its lanes raise ILLEGAL (08 R177), and they count as arrived: the flags fall. -/
def Flue.breakRv (f : Flue) (rv : Rendezvous) : Flue :=
  (({ f with rvs := f.rvs.filter fun r => r != rv } : Flue).clearFlags rv.flags).fail cILLEGAL rv.lanes rv.pc rv.next

/-- Lanes that exit break every open rendezvous that names them (08 R177). -/
def Flue.breakExited (f : Flue) (gone : LaneMask) : Flue :=
  (f.rvs.filter fun rv => !rv.done && rv.mask &&& gone != 0).foldl Flue.breakRv f

/-- The open rendezvous of the current depth: those whose lanes are not parked. -/
def Flue.openRvs (f : Flue) : List Rendezvous := f.rvs.filter fun rv => !rv.done && rv.depth == f.curDepth

/-- Every instruction of the flue is complete in the sense of R76: no result is under way, no lane escalates, no completed
rendezvous waits. A posted SYSCALL, a waiting AWWAIT and engine operations are looked at apart. -/
def Flue.quiet (f : Flue) : Bool :=
  f.outs.isEmpty && f.escs == 0 && f.allOps.all (fun o => o.writes.isEmpty) && f.rvs.all fun rv => !rv.done

/-- The flue has no outstanding instruction at all: no posted SYSCALL and no waiting AWWAIT either. -/
def Flue.idle (f : Flue) : Bool := f.quiet && f.service.isEmpty && f.awaits.isEmpty

/-- Every open rendezvous of the unparked lanes breaks when each of these lanes has arrived at one and nothing is outstanding
(08 R177, last row): no lane is left that could complete one. -/
def Flue.checkStuck (f : Flue) : Flue :=
  if f.eligible != 0 && f.eligible &&& ~~~(f.openRvs.foldl (fun m rv => m ||| rv.lanes) 0) == 0 && f.idle then
    f.openRvs.foldl Flue.breakRv f
  else f

/-! ### The plain vector instruction (06 R124-R130) -/

/-- Run a per-lane operation with a destination of `n` registers: every active lane writes its value and raises its flags,
and every lane of the group steps past. -/
def runLanes (i : Issue) (f : Flue) (g : Guard) (d : Opnd) (n : Nat) (op : Nat → LaneRes) : Flue :=
  let act := lanesOf (i.active g)
  let f1 := f.writeAll (resultWrites i.view d n true act fun l => (op l).val)
  (f1.raiseAll act fun l => (op l).flags).finish i 0

/-- Run a per-lane operation whose result arrives later (03 R70, R71): flags are raised at issue. -/
def runLate (i : Issue) (f : Flue) (x : FSel) (g : Guard) (d : Opnd) (n : Nat) (op : Nat → LaneRes) : Flue :=
  let m := i.active g
  let act := lanesOf m
  let ws := resultWrites i.view d n (x == .none) act fun l => (op l).val
  ((f.await i x m ws).raiseAll act fun l => (op l).flags).finish i 0

/-! ### Regions -/

/-- Commit the open region of a flue (09 R210): its sectors go to memory and the region closes. -/
def State.commit (s : State) (stove slot : Nat) : State :=
  match s.flue? stove slot with
  | some f =>
    if f.regionOpen then
      (s.commitSectors stove f).setFlue stove slot { f with regionOpen := false, sectors := [], restart := 0 }
    else s
  | none => s

/-- Discard the open region of a flue (09 R210, 13 R309). The region-restart mask stands until the flue resumes. -/
def Flue.discard (f : Flue) : Flue := { f with regionOpen := false, sectors := [] }

/-- A region discard with its count (14 R341). -/
def State.discard (s : State) (stove slot : Nat) : State :=
  match s.flue? stove slot with
  | some f => if f.regionOpen then (s.count f.cid 12).setFlue stove slot f.discard else s
  | none => s

/-- After a discard without a handler, the lanes of the region-restart mask stand at `sr.entry` (13 R309, R311). -/
def Flue.toEntry (f : Flue) : Flue := { f.place (f.live &&& f.restart) f.entry with restart := 0 }

/-! ### Frames -/

/-- Granules of the frame pool that a flue holds (05 R113): spilled frames hold none until their refill is granted. -/
def Flue.granules (f : Flue) : Nat :=
  (f.frames.foldl (fun n fr => if fr.spilled then n else n + fr.demand / 8) 0) +
    (if f.granted && f.top.spilled then f.top.demand / 8 else 0)

/-- Free granules of a stove's frame pool (05 R113: 448 in all). -/
def Stove.freeGranules (st : Stove) : Nat := 448 - st.flues.foldl (fun n p => n + p.2.granules) 0

/-- The greatest depth of a live lane. -/
def Flue.maxDepth (f : Flue) : Nat := (lanesOf f.live).foldl (fun m l => max m (f.depthOf l)) 0

/-- The current depth follows the live lanes (05 R115): frames above it are freed; a spilled frame there puts the flue in
REFILL_WAIT, and a flue with no live lane drains. Lanes that are parked no longer make the steps kept for them (R102). -/
def Flue.fall (f : Flue) (stamp : Nat) : Flue :=
  if f.live = 0 then { f with phase := .drain }
  else
    let g := Flue.stepKept { f with frames := f.frames.take (f.maxDepth + 1) }
    if g.top.spilled then { g with phase := .refillWait, waitStamp := stamp, granted := false } else g

/-- A call takes effect (05 R114): the new frame, the callers at their targets, the others at the return address. -/
def Flue.callNow (f : Flue) (c : FrameCall) : Flue :=
  let d := f.curDepth
  let fr : Frame := { uid := f.nextUid, demand := c.demand, ret := c.ret }
  let g := { f with frames := f.frames ++ [fr], nextUid := f.nextUid + 1, phase := .run, call := none,
                    depth := SMap.setAll f.depth ((lanesOf c.movers).map fun l => (l, BitVec.ofNat 8 (d + 1))),
                    pc := SMap.setAll f.pc ((lanesOf c.movers).map fun l => (l, SMap.get c.targets l)) }
  (g.setPc c.others c.ret).clearL (c.movers ||| c.others)

/-- Move lanes to a lower depth at the return address of the frame above it (05 R115, R116). -/
def Flue.dropLanes (f : Flue) (lanes : LaneMask) (n : Nat) : Flue :=
  let ret := (f.frames.getD (n + 1) {}).ret
  { (f.place lanes ret).clearL lanes with depth := SMap.setAll f.depth ((lanesOf lanes).map fun l => (l, BitVec.ofNat 8 n)) }

/-- The next stamp of order. -/
def State.tick (s : State) : State := { s with stamp := s.stamp + 1 }

/-! ### Addresses of code -/

/-- The target that OFS names (03 R79). -/
def ofsTarget (header : DWord) (ofs : BitVec 22) : DWord := (header &&& ~~~63#64) + (ofs.signExtend 64 <<< 6)

/-- The cause of a target address taken from a register (03 R79). -/
def targetCause (a : DWord) : Option Nat :=
  if a.extractLsb' 0 6 != 0#6 then some cILLEGAL else if !canonical a then some cXLATE else none

/-- The address of the clause after a clause of COUNT words (03 R55): a header never stands at line offset 60. -/
def nextClause (header : DWord) (count : Nat) : DWord :=
  let n := header + BitVec.ofNat 64 (4 * (count + 1))
  if n.extractLsb' 0 6 == 60#6 then n + 4 else n

end Sys2Proof.Machine
end

