-- ==== Sys2Proof/Machine/Int.lean ====
section
/-! DEFINITION. Integer, address and logic instructions (06 R131-R138). Each is class 0: it reads its sources, writes its
destination and the latch in the active lanes, and its group steps past (R124). -/

namespace Sys2Proof.Machine

/-- Run a per-lane operation with a destination of `n` registers. -/
def alu (x : LArgs) (n : Nat) (op : Src → Nat → LaneRes) (s : State) : Res :=
  onFlue s fun i f => runLanes i f x.guard x.d n (op (i.src x.lit))

/-! ### Elements of integer types (02 R36) -/

/-- Width of an element. -/
def elemWidth : Ty → Nat
  | .i64 => 64
  | .z64 => 64
  | .i16x2 => 16
  | .z16x2 => 16
  | .i8x4 => 8
  | .z8x4 => 8
  | _ => 32
/-- Number of elements. -/
def elemCount : Ty → Nat
  | .i16x2 => 2
  | .z16x2 => 2
  | .i8x4 => 4
  | .z8x4 => 4
  | _ => 1
/-- A signed type. -/
def isSigned : Ty → Bool
  | .i32 => true
  | .i64 => true
  | .i16x2 => true
  | .i8x4 => true
  | _ => false

/-- The value of `w` bits, signed or unsigned. -/
def elemInt (signed : Bool) (w v : Nat) : Int :=
  let x := v % 2 ^ w
  if signed && decide (2 ^ (w - 1) ≤ x) then (x : Int) - (2 ^ w : Nat) else x
/-- Element `k` of a value of a type. -/
def elemOf (ty : Ty) (v : DWord) (k : Nat) : Int := elemInt (isSigned ty) (elemWidth ty) (v.toNat / 2 ^ (elemWidth ty * k))
/-- The least and greatest value of an element. -/
def elemMin (ty : Ty) : Int := if isSigned ty then -((2 ^ (elemWidth ty - 1) : Nat) : Int) else 0
def elemMax (ty : Ty) : Int := if isSigned ty then ((2 ^ (elemWidth ty - 1) : Nat) : Int) - 1 else ((2 ^ elemWidth ty : Nat) : Int) - 1
/-- The bits of an exact result of one element: modulo 2^n, or clamped with SAT (06 R132). -/
def elemBits (ty : Ty) (sat : Bool) (v : Int) : Nat :=
  let x := if sat then max (elemMin ty) (min (elemMax ty) v) else v
  (x % ((2 ^ elemWidth ty : Nat) : Int)).toNat
/-- Build a value from its elements. -/
def packElems (ty : Ty) (sat : Bool) (f : Nat → Int) : DWord :=
  BitVec.ofNat 64 ((List.range (elemCount ty)).foldl (fun acc k => acc + elemBits ty sat (f k) * 2 ^ (elemWidth ty * k)) 0)

/-- An operation of one or two operands, element by element. -/
def intOp (x : LArgs) (sat : Bool) (op : Int → Int → Int) (c : Src) (l : Nat) : LaneRes :=
  let a := c.read x.a x.ty l
  let b := c.read x.b x.ty l
  { val := packElems x.ty sat fun k => op (elemOf x.ty a k) (elemOf x.ty b k) }

/-- SAT of MODX (06 R131). -/
def satBit (x : LArgs) : Bool := x.modx.getLsbD 0

def iaddOp (x : LArgs) : Src → Nat → LaneRes := intOp x (satBit x) (· + ·)
def isubOp (x : LArgs) : Src → Nat → LaneRes := intOp x (satBit x) (· - ·)
def imulOp (x : LArgs) : Src → Nat → LaneRes := intOp x false (· * ·)
def imulhOp (x : LArgs) : Src → Nat → LaneRes := intOp x false fun a b => a * b / ((2 ^ elemWidth x.ty : Nat) : Int)
def iminOp (x : LArgs) : Src → Nat → LaneRes := intOp x false min
def imaxOp (x : LArgs) : Src → Nat → LaneRes := intOp x false max

/-- IMAD (06 R131). -/
def imadOp (x : LArgs) (c : Src) (l : Nat) : LaneRes :=
  { val := packElems x.ty false fun k =>
      elemOf x.ty (c.read x.a x.ty l) k * elemOf x.ty (c.read x.b x.ty l) k + elemOf x.ty (c.read x.c x.ty l) k }

/-- IMADW (06 R131): 32-bit A and B, 64-bit C and D. C takes its uniform forms by the signedness of TY (03 R65). -/
def imadwOp (x : LArgs) (c : Src) (l : Nat) : LaneRes :=
  let wide : Ty := if x.ty = .i32 then .i64 else .z64
  let v := elemOf x.ty (c.read x.a x.ty l) 0 * elemOf x.ty (c.read x.b x.ty l) 0 + elemOf wide (c.read x.c wide l) 0
  { val := BitVec.ofInt 64 v }

def inegOp (x : LArgs) : Src → Nat → LaneRes := intOp x (satBit x) fun a _ => -a
def iabsOp (x : LArgs) : Src → Nat → LaneRes := intOp x (satBit x) fun a _ => (a.natAbs : Int)

/-! ### Logic and shifts -/

/-- A bitwise operation. -/
def bitOp (x : LArgs) (op : DWord → DWord → DWord) (c : Src) (l : Nat) : LaneRes :=
  { val := op (c.read x.a x.ty l) (c.read x.b x.ty l) }

/-- Width in bits of a type of one or two registers. -/
def tyBits (ty : Ty) : Nat := 32 * ty.regs

/-- The shift count: B as an unsigned 32-bit value (06 R132). -/
def shiftCount (x : LArgs) (c : Src) (l : Nat) : Nat := (c.word x.b l).toNat

def shlOp (x : LArgs) (c : Src) (l : Nat) : LaneRes :=
  let k := shiftCount x c l
  { val := if tyBits x.ty ≤ k then 0 else c.read x.a x.ty l <<< k }
def shrOp (x : LArgs) (c : Src) (l : Nat) : LaneRes :=
  let k := shiftCount x c l
  { val := if tyBits x.ty ≤ k then 0 else c.read x.a x.ty l >>> k }
def sarOp (x : LArgs) (c : Src) (l : Nat) : LaneRes :=
  let k := shiftCount x c l
  let a := elemInt true (tyBits x.ty) (c.read x.a x.ty l).toNat
  { val := if tyBits x.ty ≤ k then (if a < 0 then BitVec.allOnes 64 else 0) else BitVec.ofInt 64 (a / ((2 ^ k : Nat) : Int)) }
def rotlOp (x : LArgs) (c : Src) (l : Nat) : LaneRes :=
  let n := tyBits x.ty
  let k := shiftCount x c l % n
  let a := c.read x.a x.ty l
  { val := (a <<< k) ||| (a >>> (n - k)) }

/-- The position and width of a bit field (06 R133). -/
def fieldPos (b : Word) : Nat := b.toNat % 256
def fieldWidth (b : Word) : Nat := min (b.toNat / 256 % 256) 32

/-- BFX (06 R133). -/
def bfx32 (signed : Bool) (a b : Word) : Word :=
  let pos := fieldPos b
  let w := fieldWidth b
  let f := (List.range w).foldl (fun n k =>
    n + (if (if pos + k < 32 then a.getLsbD (pos + k) else signed && a.getLsbD 31) then 2 ^ k else 0)) 0
  if w = 0 then 0 else if signed then BitVec.ofInt 32 (elemInt true w f) else BitVec.ofNat 32 f

/-- BFI (06 R133). -/
def bfi32 (a b c : Word) : Word :=
  let pos := fieldPos b
  let w := fieldWidth b
  let m : Word := if pos < 32 then (BitVec.ofNat 32 (2 ^ w - 1)) <<< pos else 0
  (c &&& ~~~m) ||| ((if pos < 32 then a <<< pos else 0) &&& m)

def bfxOp (x : LArgs) (c : Src) (l : Nat) : LaneRes :=
  { val := (bfx32 (x.ty == .i32) (c.word x.a l) (c.word x.b l)).setWidth 64 }
def bfiOp (x : LArgs) (c : Src) (l : Nat) : LaneRes :=
  { val := (bfi32 (c.word x.a l) (c.word x.b l) (c.word x.c l)).setWidth 64 }

/-- The number of one bits among the low `n`. -/
def popCount (n : Nat) (v : DWord) : Nat := (List.range n).foldl (fun k j => k + (if v.getLsbD j then 1 else 0)) 0
/-- Leading zero bits of the low `n`: `n` when they are all zero. -/
def leadZeros (v : DWord) : Nat → Nat
  | 0 => 0
  | n + 1 => if v.getLsbD n then 0 else 1 + leadZeros v n
/-- Bit `k` moved to bit `n - 1 - k`. -/
def reverseBits (n : Nat) (v : DWord) : DWord :=
  BitVec.ofNat 64 ((List.range n).foldl (fun a k => a + (if v.getLsbD k then 2 ^ (n - 1 - k) else 0)) 0)

def popcOp (x : LArgs) (c : Src) (l : Nat) : LaneRes := { val := BitVec.ofNat 64 (popCount (tyBits x.ty) (c.read x.a x.ty l)) }
def clzOp (x : LArgs) (c : Src) (l : Nat) : LaneRes := { val := BitVec.ofNat 64 (leadZeros (c.read x.a x.ty l) (tyBits x.ty)) }
def brevOp (x : LArgs) (c : Src) (l : Nat) : LaneRes := { val := reverseBits (tyBits x.ty) (c.read x.a x.ty l) }

/-- The shift of LEA from SC (06 R134). -/
def leaShift (sc : Nat) : Nat := if sc = 0 then 2 else if sc = 1 then 0 else if sc = 2 then 1 else sc

/-- LEA (06 R134). -/
def leaOp (x : LArgs) (c : Src) (l : Nat) : LaneRes :=
  let sh := leaShift (x.modx.extractLsb' 0 3).toNat
  let b := c.word x.b l
  let ext : DWord := if x.ty = .z64 && !x.modx.getLsbD 3 then b.signExtend 64 else b.setWidth 64
  { val := c.read x.a x.ty l + (ext <<< sh) }

def movOp (x : LArgs) (c : Src) (l : Nat) : LaneRes := { val := c.read x.a x.ty l }

/-- SEL (06 R135): the predicate as it stood before the instruction issued. With a scalar D and lanes that disagree, one of
A and B is written, a free choice (assumption 15). -/
def selOp (x : LArgs) (act : LaneMask) (c : Src) (l : Nat) : LaneRes :=
  let m := c.view.predMask (x.modx.extractLsb' 0 5).toNat
  let t := if x.d.isScalar then (if act &&& m = act then true else if act &&& m = 0 then false else Config.freeBool c.seed)
    else m.getLsbD l
  { val := if t then c.read x.a x.ty l else c.read x.b x.ty l }

/-! ### Comparisons (06 R136-R138) -/

/-- The truth of an integer comparison; the conditions that ICMP does not take are refused at decode. -/
def intCond (c : Cond) (a b : Int) : Bool :=
  match c with
  | .eq => a == b
  | .ne => a != b
  | .lt => decide (a < b)
  | .le => decide (a ≤ b)
  | .gt => decide (b < a)
  | .ge => decide (b ≤ a)
  | _ => false

/-- The combining operation (06 R137). -/
def cmpCombine (op : Nat) (a b : Bool) : Bool := if op = 0 then a && b else if op = 1 then a || b else a != b

/-- The number of a predicate field. -/
def predNum : Opnd → Nat
  | .pred n => n.toNat
  | _ => 0
/-- The condition of a comparison. -/
def condOfArg : Opnd → Cond
  | .cond c => c
  | _ => .eq

/-- Write the two predicates of a comparison (06 R138): D takes `c op pC` and E takes `!c op pC`, `pC` as it stood before. -/
def writeCmp (i : Issue) (f : Flue) (x : LArgs) (truth : Nat → Bool × FlagSet) : Flue :=
  let act := i.active x.guard
  let pc := i.view.predMask (x.modx.extractLsb' 7 4).toNat
  let op := (x.modx.extractLsb' 5 2).toNat
  let dm := maskOf fun l => cmpCombine op (truth l).1 (pc.getLsbD l)
  let em := maskOf fun l => cmpCombine op (!(truth l).1) (pc.getLsbD l)
  let f1 := (f.setPred (predNum x.d) act dm).setPred (x.modx.extractLsb' 0 5).toNat act em
  (f1.raiseAll (lanesOf act) fun l => (truth l).2).finish i 0

/-! ### The meanings -/

def execIadd (x : LArgs) (s : State) : Res := alu x x.ty.regs (iaddOp x) s
def execIaddI32Short (x : SArgs) (s : State) : Res := alu (SRow.iaddI32Short.toLong x) 1 (iaddOp (SRow.iaddI32Short.toLong x)) s
def execIsub (x : LArgs) (s : State) : Res := alu x x.ty.regs (isubOp x) s
def execIsubI32Short (x : SArgs) (s : State) : Res := alu (SRow.isubI32Short.toLong x) 1 (isubOp (SRow.isubI32Short.toLong x)) s
def execImul (x : LArgs) (s : State) : Res := alu x x.ty.regs (imulOp x) s
def execImulI32Short (x : SArgs) (s : State) : Res := alu (SRow.imulI32Short.toLong x) 1 (imulOp (SRow.imulI32Short.toLong x)) s
def execImulh (x : LArgs) (s : State) : Res := alu x x.ty.regs (imulhOp x) s
def execImad (x : LArgs) (s : State) : Res := alu x x.ty.regs (imadOp x) s
def execImadw (x : LArgs) (s : State) : Res := alu x 2 (imadwOp x) s
def execIneg (x : LArgs) (s : State) : Res := alu x x.ty.regs (inegOp x) s
def execIabs (x : LArgs) (s : State) : Res := alu x x.ty.regs (iabsOp x) s
def execImin (x : LArgs) (s : State) : Res := alu x x.ty.regs (iminOp x) s
def execIminI32Short (x : SArgs) (s : State) : Res := alu (SRow.iminI32Short.toLong x) 1 (iminOp (SRow.iminI32Short.toLong x)) s
def execImax (x : LArgs) (s : State) : Res := alu x x.ty.regs (imaxOp x) s
def execImaxI32Short (x : SArgs) (s : State) : Res := alu (SRow.imaxI32Short.toLong x) 1 (imaxOp (SRow.imaxI32Short.toLong x)) s
def execAndBits (x : LArgs) (s : State) : Res := alu x x.ty.regs (bitOp x (· &&& ·)) s
def execAndShort (x : SArgs) (s : State) : Res := alu (SRow.andShort.toLong x) 1 (bitOp (SRow.andShort.toLong x) (· &&& ·)) s
def execOrBits (x : LArgs) (s : State) : Res := alu x x.ty.regs (bitOp x (· ||| ·)) s
def execOrShort (x : SArgs) (s : State) : Res := alu (SRow.orShort.toLong x) 1 (bitOp (SRow.orShort.toLong x) (· ||| ·)) s
def execXorBits (x : LArgs) (s : State) : Res := alu x x.ty.regs (bitOp x (· ^^^ ·)) s
def execXorShort (x : SArgs) (s : State) : Res := alu (SRow.xorShort.toLong x) 1 (bitOp (SRow.xorShort.toLong x) (· ^^^ ·)) s
def execAndn (x : LArgs) (s : State) : Res := alu x x.ty.regs (bitOp x fun a b => a &&& ~~~b) s
def execAndnShort (x : SArgs) (s : State) : Res := alu (SRow.andnShort.toLong x) 1 (bitOp (SRow.andnShort.toLong x) fun a b => a &&& ~~~b) s
def execNotBits (x : LArgs) (s : State) : Res := alu x x.ty.regs (bitOp x fun a _ => ~~~a) s
def execShl (x : LArgs) (s : State) : Res := alu x x.ty.regs (shlOp x) s
def execShlShort (x : SArgs) (s : State) : Res := alu (SRow.shlShort.toLong x) 1 (shlOp (SRow.shlShort.toLong x)) s
def execShr (x : LArgs) (s : State) : Res := alu x x.ty.regs (shrOp x) s
def execShrShort (x : SArgs) (s : State) : Res := alu (SRow.shrShort.toLong x) 1 (shrOp (SRow.shrShort.toLong x)) s
def execSar (x : LArgs) (s : State) : Res := alu x x.ty.regs (sarOp x) s
def execSarShort (x : SArgs) (s : State) : Res := alu (SRow.sarShort.toLong x) 1 (sarOp (SRow.sarShort.toLong x)) s
def execRotl (x : LArgs) (s : State) : Res := alu x x.ty.regs (rotlOp x) s
def execBfx (x : LArgs) (s : State) : Res := alu x 1 (bfxOp x) s
def execBfi (x : LArgs) (s : State) : Res := alu x 1 (bfiOp x) s
def execPopc (x : LArgs) (s : State) : Res := alu x 1 (popcOp x) s
def execClz (x : LArgs) (s : State) : Res := alu x 1 (clzOp x) s
def execBrev (x : LArgs) (s : State) : Res := alu x x.ty.regs (brevOp x) s
def execLea (x : LArgs) (s : State) : Res := alu x x.ty.regs (leaOp x) s
def execLeaShort (x : SArgs) (s : State) : Res := alu (SRow.leaShort.toLong x) 1 (leaOp (SRow.leaShort.toLong x)) s
def execMov (x : LArgs) (s : State) : Res := alu x x.ty.regs (movOp x) s
def execMovShort (x : SArgs) (s : State) : Res := alu (SRow.movShort.toLong x) 1 (movOp (SRow.movShort.toLong x)) s
def execSel (x : LArgs) (s : State) : Res :=
  onFlue s fun i f => runLanes i f x.guard x.d x.ty.regs (selOp x (i.active x.guard) (i.src x.lit))
def execIcmp (x : LArgs) (s : State) : Res :=
  onFlue s fun i f =>
    let c := i.src x.lit
    writeCmp i f x fun l => (intCond (condOfArg x.c) (elemOf x.ty (c.read x.a x.ty l) 0) (elemOf x.ty (c.read x.b x.ty l) 0), 0)

end Sys2Proof.Machine
end

