-- ==== Sys2Proof/Machine/Float.lean ====
section
/-! DEFINITION. Floating-point instructions (06 R139-R146). Every result is rounded once from the exact value; flags go to
sr.fpst of the lane (R128). -/

namespace Sys2Proof.Machine

/-- The format of a floating type (02 R25); a packed type has two elements of it. -/
def fmtOf : Ty → Fmt
  | .f64 => fp64
  | .f16 => fp16
  | .f16x2 => fp16
  | .bf16 => bf16
  | .bf16x2 => bf16
  | _ => fp32
/-- A packed floating type. -/
def isPacked : Ty → Bool
  | .f16x2 => true
  | .bf16x2 => true
  | _ => false
/-- Element `k` of a floating value (02 R36, 06 R126). -/
def fElem (ty : Ty) (v : DWord) (k : Nat) : Nat := v.toNat / 2 ^ ((fmtOf ty).width * k) % 2 ^ (fmtOf ty).width
/-- Build the result of a lane from its elements; the flags of all elements are ORed (06 R127). -/
def fLane (ty : Ty) (r : Nat → FRes) : LaneRes :=
  if isPacked ty then
    { val := BitVec.ofNat 64 ((r 0).bits + (r 1).bits * 2 ^ 16), flags := (r 0).flags ||| (r 1).flags }
  else { val := BitVec.ofNat 64 (r 0).bits, flags := (r 0).flags }

/-- The rounding mode of an instruction, DYN resolved (03 R69). -/
def Src.rm (c : Src) (rm : Rm) : Rm := resolveRm c.view.fpmode rm

/-- An operation on A and B, element by element. -/
def fOp2 (x : LArgs) (op : Fmt → Rm → Nat → Nat → FRes) (c : Src) (l : Nat) : LaneRes :=
  fLane x.ty fun k => op (fmtOf x.ty) (c.rm x.rm) (fElem x.ty (c.read x.a x.ty l) k) (fElem x.ty (c.read x.b x.ty l) k)

def faddOp (x : LArgs) : Src → Nat → LaneRes := fOp2 x fun f rm a b => fAdd f rm (f.decode a) (f.decode b)
def fsubOp (x : LArgs) : Src → Nat → LaneRes := fOp2 x fun f rm a b => fSub f rm (f.decode a) (f.decode b)
def fmulOp (x : LArgs) : Src → Nat → LaneRes := fOp2 x fun f rm a b => fMul f rm (f.decode a) (f.decode b)
def fminOp (x : LArgs) : Src → Nat → LaneRes := fOp2 x fun f _ a b => fMinMax f false a b
def fmaxOp (x : LArgs) : Src → Nat → LaneRes := fOp2 x fun f _ a b => fMinMax f true a b

/-- FFMA (06 R140). -/
def ffmaOp (x : LArgs) (c : Src) (l : Nat) : LaneRes :=
  let f := fmtOf x.ty
  fLane x.ty fun k =>
    fFma f (c.rm x.rm) (f.decode (fElem x.ty (c.read x.a x.ty l) k)) (f.decode (fElem x.ty (c.read x.b x.ty l) k))
      (f.decode (fElem x.ty (c.read x.c x.ty l) k))

/-- FCLASS (06 R142). -/
def fclassOp (x : LArgs) (c : Src) (l : Nat) : LaneRes :=
  { val := BitVec.ofNat 64 (fClass (fmtOf x.ty) (fElem x.ty (c.read x.a x.ty l) 0)) }
/-- FRND (06 R143). -/
def frndOp (x : LArgs) (c : Src) (l : Nat) : LaneRes :=
  fLane x.ty fun k => fRnd (fmtOf x.ty) (c.rm x.rm) (x.modx.getLsbD 0) (fElem x.ty (c.read x.a x.ty l) k)
/-- FSCALE (06 R143): B is a signed 32-bit integer. -/
def fscaleOp (x : LArgs) (c : Src) (l : Nat) : LaneRes :=
  fLane x.ty fun k => fScale (fmtOf x.ty) (c.rm x.rm) (fElem x.ty (c.read x.a x.ty l) k) (c.word x.b l).toInt
/-- FDOT2 (06 R144): A and B packed, C and D in F32. -/
def fdot2Op (x : LArgs) (c : Src) (l : Nat) : LaneRes :=
  let f := fmtOf x.ty
  let a := c.read x.a x.ty l
  let b := c.read x.b x.ty l
  let r := fDot2 (c.rm x.rm) (f.decode (fElem x.ty a 0)) (f.decode (fElem x.ty b 0)) (f.decode (fElem x.ty a 1))
    (f.decode (fElem x.ty b 1)) (fp32.decode (fElem .f32 (c.read x.c .f32 l) 0))
  { val := BitVec.ofNat 64 r.bits, flags := r.flags }
/-- FCVT (06 R145). -/
def fcvtOp (x : LArgs) (c : Src) (l : Nat) : LaneRes :=
  let frm := fromTy x.modx
  let r := convertTo (fmtOf x.ty) (c.rm x.rm) false ((fmtOf frm).decode (fElem frm (c.read x.a frm l) 0))
  { val := BitVec.ofNat 64 r.bits, flags := r.flags }
/-- ICVTF (06 R145). -/
def icvtfOp (x : LArgs) (c : Src) (l : Nat) : LaneRes :=
  let frm := fromTy x.modx
  let r := intToF (fmtOf x.ty) (c.rm x.rm) (elemOf frm (c.read x.a frm l) 0)
  { val := BitVec.ofNat 64 r.bits, flags := r.flags }
/-- FCVTI (06 R146). -/
def fcvtiOp (x : LArgs) (c : Src) (l : Nat) : LaneRes :=
  let frm := fromTy x.modx
  let r := fToInt (c.rm x.rm) (elemMin x.ty) (elemMax x.ty) ((fmtOf frm).decode (fElem frm (c.read x.a frm l) 0))
  { val := BitVec.ofInt 64 r.1, flags := r.2 }

/-! ### The meanings -/

def execFadd (x : LArgs) (s : State) : Res := alu x x.ty.regs (faddOp x) s
def execFaddF32Short (x : SArgs) (s : State) : Res := alu (SRow.faddF32Short.toLong x) 1 (faddOp (SRow.faddF32Short.toLong x)) s
def execFaddF16x2Short (x : SArgs) (s : State) : Res := alu (SRow.faddF16x2Short.toLong x) 1 (faddOp (SRow.faddF16x2Short.toLong x)) s
def execFaddBf16x2Short (x : SArgs) (s : State) : Res := alu (SRow.faddBf16x2Short.toLong x) 1 (faddOp (SRow.faddBf16x2Short.toLong x)) s
def execFsub (x : LArgs) (s : State) : Res := alu x x.ty.regs (fsubOp x) s
def execFsubF32Short (x : SArgs) (s : State) : Res := alu (SRow.fsubF32Short.toLong x) 1 (fsubOp (SRow.fsubF32Short.toLong x)) s
def execFmul (x : LArgs) (s : State) : Res := alu x x.ty.regs (fmulOp x) s
def execFmulF32Short (x : SArgs) (s : State) : Res := alu (SRow.fmulF32Short.toLong x) 1 (fmulOp (SRow.fmulF32Short.toLong x)) s
def execFmulF16x2Short (x : SArgs) (s : State) : Res := alu (SRow.fmulF16x2Short.toLong x) 1 (fmulOp (SRow.fmulF16x2Short.toLong x)) s
def execFmulBf16x2Short (x : SArgs) (s : State) : Res := alu (SRow.fmulBf16x2Short.toLong x) 1 (fmulOp (SRow.fmulBf16x2Short.toLong x)) s
def execFfma (x : LArgs) (s : State) : Res := alu x x.ty.regs (ffmaOp x) s
def execFmin (x : LArgs) (s : State) : Res := alu x x.ty.regs (fminOp x) s
def execFminF32Short (x : SArgs) (s : State) : Res := alu (SRow.fminF32Short.toLong x) 1 (fminOp (SRow.fminF32Short.toLong x)) s
def execFmax (x : LArgs) (s : State) : Res := alu x x.ty.regs (fmaxOp x) s
def execFmaxF32Short (x : SArgs) (s : State) : Res := alu (SRow.fmaxF32Short.toLong x) 1 (fmaxOp (SRow.fmaxF32Short.toLong x)) s
def execFcmp (x : LArgs) (s : State) : Res :=
  onFlue s fun i f =>
    let c := i.src x.lit
    writeCmp i f x fun l =>
      fCmp (fmtOf x.ty) (condOfArg x.c) (fElem x.ty (c.read x.a x.ty l) 0) (fElem x.ty (c.read x.b x.ty l) 0)
def execFclass (x : LArgs) (s : State) : Res := alu x 1 (fclassOp x) s
def execFrnd (x : LArgs) (s : State) : Res := alu x x.ty.regs (frndOp x) s
def execFcvt (x : LArgs) (s : State) : Res := alu x x.ty.regs (fcvtOp x) s
def execIcvtf (x : LArgs) (s : State) : Res := alu x x.ty.regs (icvtfOp x) s
def execFcvti (x : LArgs) (s : State) : Res := alu x x.ty.regs (fcvtiOp x) s
def execFdot2 (x : LArgs) (s : State) : Res := alu x 1 (fdot2Op x) s
def execFscale (x : LArgs) (s : State) : Res := alu x x.ty.regs (fscaleOp x) s

end Sys2Proof.Machine
end

