-- ==== Sys2Proof/Machine/Pred.lean ====
section
/-! DEFINITION. Predicate instructions (06 R147, R148). Every predicate source is read before any predicate is written. -/

namespace Sys2Proof.Machine

/-- The lanes in which a truth table of three predicates gives true (06 R148). -/
def lutMask (lut : BitVec 11) (a b c : LaneMask) : LaneMask :=
  maskOf fun l =>
    lut.getLsbD ((if a.getLsbD l then 4 else 0) + (if b.getLsbD l then 2 else 0) + (if c.getLsbD l then 1 else 0))

/-- The 32 predicates of a lane as a word (bit 0 reads 1). -/
def predWord (f : Flue) (l : Nat) : Word := maskOf fun k => f.pred k l

/-- Write a predicate word to a lane under a mask of predicates 1-31 (06 R148). -/
def setPredWord (f : Flue) (l : Nat) (v m : Word) : Flue :=
  (List.range 31).foldl (fun g j =>
    if m.getLsbD (j + 1) then g.setPred (j + 1) (laneBit l) (if v.getLsbD (j + 1) then laneBit l else 0) else g) f

def execPlop (x : LArgs) (s : State) : Res :=
  onFlue s fun i f =>
    let p := fun o => i.view.predMask (predNum o)
    (f.setPred (predNum x.d) (i.active x.guard) (lutMask x.modx (p x.a) (p x.b) (p x.c))).finish i 0

def execPmovGet (x : LArgs) (s : State) : Res :=
  onFlue s fun i f => runLanes i f x.guard x.d 1 fun l => { val := (predWord i.view l).setWidth 64 }

def execPmovSet (x : LArgs) (s : State) : Res :=
  onFlue s fun i f =>
    let c := i.src x.lit
    ((lanesOf (i.active x.guard)).foldl (fun g l => setPredWord g l (c.word x.a l) (c.word x.b l)) f).finish i 0

/-- The active lanes in which the predicate of A holds. -/
def countedLanes (i : Issue) (x : LArgs) : LaneMask := i.active x.guard &&& i.view.predMask (predNum x.a)

def execPcnt (x : LArgs) (s : State) : Res :=
  onFlue s fun i f => runLanes i f x.guard x.d 1 fun _ => { val := BitVec.ofNat 64 (laneCount (countedLanes i x)) }

def execPmask (x : LArgs) (s : State) : Res :=
  onFlue s fun i f => runLanes i f x.guard x.d 1 fun _ => { val := (countedLanes i x).setWidth 64 }

def execMpred (x : LArgs) (s : State) : Res :=
  onFlue s fun i f =>
    let c := i.src x.lit
    let act := i.active x.guard
    let m := maskOf fun l => (c.word x.a l).getLsbD l
    ((f.setPred (predNum x.d) act m).setPred (x.modx.extractLsb' 0 5).toNat act (~~~m)).finish i 0

end Sys2Proof.Machine
end

