-- ==== Sys2Proof/Machine/Lanes.lean ====
section
/-! DEFINITION. Cross-lane instructions (08 R175-R183): the rendezvous of the members of a mask, and what each instruction
makes of the values captured from them. -/

namespace Sys2Proof.Machine

/-! ### The rendezvous -/

/-- What a rendezvous instruction delivers: its writes, and the flags of each lane. -/
structure RvOut where
  writes : List LaneWrite := []
  flags : List (Nat × FlagSet) := []

/-- A rendezvous completes (08 R176): with F = 00 its writes wait for its latency and the members stay; otherwise the members
step past and the flags that its arrivals raised count the writes. `l` reads zero in every member. -/
def Flue.completeRv (f : Flue) (x : FSel) (rv : Rendezvous) (out : RvOut) : Flue :=
  let g := (out.flags.foldl (fun g p => g.raiseFlags p.1 p.2) f).clearL rv.lanes
  let others := g.rvs.filter fun r => !(r.pc == rv.pc && r.depth == rv.depth && !r.done)
  if x == .none then { g with rvs := others ++ [{ rv with done := true, writes := out.writes }] }
  else
    ({ g with rvs := others, outs := g.outs ++ [{ writes := out.writes, more := rv.flags }] } : Flue).setPc rv.lanes rv.next

/-- Run a rendezvous instruction (08 R175-R177), at the depths before this issue opportunity (06 R129): `cap` is what an arriving lane supplies and `out` what the captured values of
all members give. The flag that the instruction selects rises as it issues, when one of the arriving lanes acts (03 R70). -/
def rendezvous (x : LArgs) (cap : Src → Nat → RvMember) (out : Flue → LaneMask → Tab RvMember → RvOut) (s : State) : Res :=
  onFlue s fun i f =>
    let c := i.src x.lit
    let m := c.word x.c 0
    let hold := i.view.guard x.guard
    let arr := i.lanes &&& m
    let f1 := (f.setPc (i.lanes &&& ~~~m &&& ~~~hold) i.next).fail cILLEGAL (i.lanes &&& ~~~m &&& hold) i.pc i.next
    let d := i.view.curDepth
    let caps := (lanesOf arr).map fun l => (l, { cap c l with guard := hold.getLsbD l })
    let raised := if arr &&& hold = 0 then none else i.flag x.f
    let join := fun (rv : Rendezvous) =>
      { rv with members := caps.foldl (fun t p => Tab.put t p.1 p.2) rv.members, flags := rv.flags ++ raised.toList }
    let dead := m &&& ~~~f.live
    let parked := m &&& maskOf fun l => i.view.depthOf l < d
    let settleRv := fun (rv : Rendezvous) =>
      let g := f1.setFlag raised
      if rv.lanes = m then g.completeRv x.f rv (out g m rv.members)
      else { g with rvs := (g.rvs.filter fun r => !(r.pc == rv.pc && r.depth == rv.depth && !r.done)) ++ [rv] }
    let f2 :=
      if arr = 0 then f1
      else match f.rvs.find? fun r => r.pc == i.pc && r.depth == d && !r.done with
        | some rv =>
          if rv.mask ≠ m then f1.fail cILLEGAL arr i.pc i.next
          else if dead ≠ 0 then
            (f1.breakRv rv).fail cILLEGAL arr i.pc i.next
          else settleRv (join rv)
        | none =>
          if dead ≠ 0 || parked ≠ 0 then f1.fail cILLEGAL arr i.pc i.next
          else settleRv (join { pc := i.pc, depth := d, next := i.next, mask := m })
    f2.checkStuck

/-! ### Results -/

/-- The lanes whose captured guard holds. -/
def writers (t : Tab RvMember) : List Nat := (t.filter fun p => p.2.guard).map (·.1)
/-- The members for which a condition holds. -/
def membersWith (t : Tab RvMember) (p : RvMember → Bool) : LaneMask :=
  maskOf fun l => match Tab.get? t l with
    | some m => p m
    | none => false

/-- PEEK's source lane (08 R181). -/
def peekLane (mode : Nat) (l : Nat) (b : Word) : Int :=
  match mode with
  | 0 => ((b.toNat % 32 : Nat) : Int)
  | 1 => (l : Int) + b.toInt
  | 2 => (((l + b.toNat) % 32 : Nat) : Int)
  | _ => ((l ^^^ (b.toNat % 32) : Nat) : Int)

/-- PEEK. -/
def peekOut (x : LArgs) (f : Flue) (_ : LaneMask) (t : Tab RvMember) : RvOut :=
  { writes := ((writers t).map fun l =>
      match Tab.get? t l with
      | none => []
      | some me =>
        let j := peekLane (x.modx.extractLsb' 0 2).toNat l me.b
        if 0 ≤ j && j ≤ 31 then
          match Tab.get? t j.toNat with
          | some src => destWrites f x.d false l 0 (wordsOf x.ty.regs src.a)
          | none => []
        else []).flatten }

/-- VOTE without BAL. -/
def voteOut (x : LArgs) (_ : Flue) (m : LaneMask) (t : Tab RvMember) : RvOut :=
  let v := membersWith t (·.pred)
  let c := match (x.modx.extractLsb' 0 2).toNat with
    | 0 => v != 0
    | 1 => v == m
    | _ => v == 0 || v == m
  { writes := (writers t).map fun l => ⟨.p (predNum x.d), l, if c then 1 else 0, false⟩ }

/-- VOTE.BAL: a scalar destination is written once. -/
def balOut (x : LArgs) (f : Flue) (_ : LaneMask) (t : Tab RvMember) : RvOut :=
  { writes := resultWrites f x.d 1 false (writers t) fun _ => (membersWith t (·.pred)).setWidth 64 }

/-- MATCH: bit patterns are compared. -/
def matchOut (x : LArgs) (f : Flue) (m : LaneMask) (t : Tab RvMember) : RvOut :=
  { writes := ((writers t).map fun l =>
      let v := ((Tab.get? t l).map (·.a)).getD 0
      let same := membersWith t fun r => r.a == v
      destWrites f x.d false l 0 [if x.modx.getLsbD 0 then (if same == m then m else 0) else same]).flatten }

/-- One step of a combination (08 R183). -/
def combine (opc : Nat) (ty : Ty) (rm : Rm) (a b : Word) : Word × FlagSet :=
  let signed := ty == .i32
  match ty, opc with
  | .f32, 0 => let r := fAdd fp32 rm (fp32.decode a.toNat) (fp32.decode b.toNat); (BitVec.ofNat 32 r.bits, r.flags)
  | .f32, 1 => let r := fMinMax fp32 false a.toNat b.toNat; (BitVec.ofNat 32 r.bits, r.flags)
  | .f32, _ => let r := fMinMax fp32 true a.toNat b.toNat; (BitVec.ofNat 32 r.bits, r.flags)
  | _, 0 => (a + b, 0)
  | _, 1 => (if (if signed then BitVec.slt b a else BitVec.ult b a) then b else a, 0)
  | _, 2 => (if (if signed then BitVec.slt a b else BitVec.ult a b) then b else a, 0)
  | _, 3 => (a &&& b, 0)
  | _, 4 => (a ||| b, 0)
  | _, _ => (a ^^^ b, 0)

/-- The identity of an operation (08 R183). -/
def identityOf (opc : Nat) (ty : Ty) : Word :=
  match ty, opc with
  | .f32, 1 => 0x7F800000
  | .f32, 2 => 0xFF800000
  | .i32, 1 => 0x7FFFFFFF
  | .i32, 2 => 0x80000000
  | _, 1 => 0xFFFFFFFF
  | _, 3 => 0xFFFFFFFF
  | _, _ => 0

/-- One value by itself: an FP32 NaN gives the canonical NaN, a signalling one raises NV (02 R28, R29). -/
def combineOne (ty : Ty) (w : Word) : Word × FlagSet :=
  match ty, fp32.decode w.toNat with
  | .f32, .nan sig => let r := nanRes fp32 sig; (BitVec.ofNat 32 r.bits, r.flags)
  | _, _ => (w, 0)

/-- Combine values in ascending lane order; no value gives the identity. -/
def combineAll (opc : Nat) (ty : Ty) (rm : Rm) : List Word → Word × FlagSet
  | [] => (identityOf opc ty, 0)
  | [w] => combineOne ty w
  | w :: ws => ws.foldl (fun r v => let q := combine opc ty rm r.1 v; (q.1, r.2 ||| q.2)) (w, 0)

/-- REDUX and SCAN: each writing lane combines the members that `which` picks for it. -/
def combineOut (x : LArgs) (which : Nat → Nat → Bool) (f : Flue) (_ : LaneMask) (t : Tab RvMember) : RvOut :=
  let rm := resolveRm f.fpmode x.rm
  let opc := (x.modx.extractLsb' 0 3).toNat
  let res := (writers t).map fun l =>
    (l, combineAll opc x.ty rm ((t.filter fun p => which l p.1).map fun p => p.2.a.setWidth 32))
  { writes := (res.map fun r => destWrites f x.d false r.1 0 [r.2.1]).flatten,
    flags := res.map fun r => (r.1, r.2.2) }

/-- What a lane supplies: its value at the type, its B and its predicate. -/
def capture (x : LArgs) (c : Src) (l : Nat) : RvMember :=
  { a := c.read x.a x.ty l, b := c.word x.b l, pred := c.view.pred (predNum x.a) l }

def execPeek (x : LArgs) (s : State) : Res := rendezvous x (capture x) (peekOut x) s
def execVote (x : LArgs) (s : State) : Res := rendezvous x (capture x) (voteOut x) s
def execVoteBal (x : LArgs) (s : State) : Res := rendezvous x (capture x) (balOut x) s
def execMatchLanes (x : LArgs) (s : State) : Res := rendezvous x (capture x) (matchOut x) s
def execRedux (x : LArgs) (s : State) : Res := rendezvous x (capture x) (combineOut x fun _ _ => true) s
def execScan (x : LArgs) (s : State) : Res :=
  rendezvous x (capture x) (combineOut x fun l j => if x.modx.getLsbD 3 then decide (j < l) else decide (j ≤ l)) s
def execConv (x : LArgs) (s : State) : Res := rendezvous x (capture x) (fun _ _ _ => {}) s

/-- RENDEZVOUS_RESULT_WRITE (08 R176, R180): the latency of a completed rendezvous ends; every member writes, steps past, and
reads `l` as zero. OSCLAIM leaves the latch (05 R111). -/
def execRendezvousResultWrite (r : FlueRef) (pc : BitVec 64) (s : State) : Res :=
  .next (s.modFlue r.stove r.slot fun f =>
    match f.rvs.find? fun rv => rv.done && rv.pc == pc with
    | none => f
    | some rv =>
      let g := (({ f with rvs := f.rvs.filter fun x => x != rv } : Flue).writeAll rv.writes).stepAll rv.lanes rv.next
      (if rv.keepL then Flue.settle f g else (Flue.settle f g).clearL rv.lanes).checkStuck)

end Sys2Proof.Machine
end

