-- ==== Sys2Proof/Machine/Gang.lean ====
section
/-! DEFINITION. The gang rendezvous latch and the claims of operand slots (10 R247-R250): how a rendezvous breaks, and what
a drained flue does to gangs and claims. What a complete rendezvous executes stands in Matrix. -/

namespace Sys2Proof.Machine

/-! ### The latch -/

/-- Lanes of a slot that wait in the latch. -/
def Stove.latchLanes (st : Stove) (slot : Nat) : LaneMask :=
  st.latch.foldl (fun m rv => rv.arrivals.foldl (fun m a => if a.2.slot == slot then m ||| a.2.lanes else m) m) 0

/-- The flues of a mask, ascending. -/
def fluesOf (m : Word) : List Nat := lanesOf m

/-- The arrived members of a rendezvous raise a cause, and the flag falls of those that raised it: of which a lane acts (03 R70, 10
R249). -/
def State.failMembers (s : State) (stove : Nat) (rv : GangRv) (c : Nat) (faddr : DWord) : State :=
  rv.arrivals.foldl (fun s a => s.modFlue stove a.2.slot fun f =>
    let g := if a.2.active = 0 then f else f.clearFlag rv.flag
    let h := g.pend c a.2.lanes faddr (g.resumeAt rv.pc)
    Flue.settle f (if f.phase = .handler then h.setPc a.2.lanes rv.next else h)) s

/-- A broken rendezvous leaves the latch and its arrived members raise ILLEGAL. -/
def State.breakGang (s : State) (stove : Nat) (rv : GangRv) : State :=
  let st := s.stove stove
  (s.setStove stove { st with latch := st.latch.filter fun r => r != rv }).failMembers stove rv cILLEGAL rv.pc

/-- A flue of a group has arrived at some open rendezvous. -/
def arrivedAt (latch : List GangRv) (group gfl : Nat) : List GangRv :=
  latch.filter fun rv => rv.group == group && rv.arrivals.any fun a => a.1 == gfl

/-- The undrained flues of a rendezvous's mask. -/
def GangRv.awaited (rv : GangRv) (drained : Word) : List Nat := fluesOf (rv.mask &&& ~~~drained)

/-- An open rendezvous can still complete when a flue that has not arrived at it is free, or waits at one that can (10 R249,
last case). The first argument bounds the chain. -/
def canComplete (latch : List GangRv) (drained : Word) : Nat → GangRv → Bool
  | 0, _ => false
  | n + 1, rv =>
    let missing := (rv.awaited drained).filter fun g => !rv.arrivals.any fun a => a.1 == g
    !missing.isEmpty && missing.all fun g =>
      let wh := arrivedAt latch rv.group g
      wh.isEmpty || wh.any fun r => canComplete latch drained n r

/-- Every undrained flue of the mask has arrived at some open rendezvous, and none of those can complete. -/
def gangStuck (latch : List GangRv) (drained : Word) (rv : GangRv) : Bool :=
  (rv.awaited drained).all fun g =>
    let wh := arrivedAt latch rv.group g
    !wh.isEmpty && wh.all fun r => !canComplete latch drained 9 r

/-- Break the rendezvous of a group that can no longer complete. -/
def State.gangCheck (s : State) (stove gid : Nat) : State :=
  match s.group? stove gid with
  | none => s
  | some g =>
    let latch := (s.stove stove).latch.filter fun rv => rv.group == gid
    (latch.filter fun rv => gangStuck latch g.drained rv).foldl (fun s rv => s.breakGang stove rv) s

/-! ### Claims -/

/-- An operation of a flue of the group that is outstanding names the slot. -/
def Stove.slotNamed (st : Stove) (gid k : Nat) : Bool :=
  (st.flues.any fun p => p.2.group == gid && p.2.allOps.any fun o => o.slots.contains k) ||
  ((Tab.getD st.groups gid {}).saved.any fun p => p.2.flue.allOps.any fun o => o.slots.contains k)

/-- Slots that are releasing and that no operation names any more are free (10 R250). -/
def Stove.freeSlots1 (st : Stove) : Stove :=
  { st with claims := st.claims.map fun (c : Nat × Claim) =>
      if c.2.releasing && !st.slotNamed c.2.group c.1 then (c.1, { c.2 with held := false, releasing := false }) else c }

/-- The flues whose gang holds a claim. -/
def Claim.flues (c : Claim) : Word := if c.gang = 0 then laneBit c.solo else c.gang

/-- A flue of a group drains (10 R249, R250): open rendezvous of masks that name it break, and the claims of a gang of which
every member has drained end. -/
def State.gangDrain (s : State) (stove gid gfl : Nat) : State :=
  match s.group? stove gid with
  | none => s
  | some g =>
    let broken := (s.stove stove).latch.filter fun rv => rv.group == gid && rv.mask.getLsbD gfl
    let s1 := (broken.foldl (fun s rv => s.breakGang stove rv) s).gangCheck stove gid
    let st := s1.stove stove
    let ended := fun (c : Claim) => c.held && c.group == gid && c.flues &&& ~~~g.drained == 0
    s1.setStove stove ({ st with claims := Tab.mapVals (fun c => if ended c then { c with releasing := true } else c) st.claims } : Stove).freeSlots1

/-! ### Operations that several flues count -/

/-- Remove an operation from every class of a flue; the registers that an ACCMV has not written stay as they are and its flag
falls. -/
def Flue.dropOp (f : Flue) (uid : Nat) : Flue :=
  let gone := f.allOps.filter fun o => o.uid == uid
  gone.foldl (fun (g : Flue) o => g.clearFlag o.flag)
    { f with ops := Tab.mapVals (fun (l : List EngineOp) => l.filter fun o => o.uid != uid) f.ops }

/-- The flue counts an operation. -/
def Flue.counts (f : Flue) (uid : Nat) : Bool := f.allOps.any fun o => o.uid == uid

/-- Apply a change to the saved flues of a group. -/
def Group.mapSaved (g : Group) (k : Flue → Flue) : Group :=
  { g with saved := Tab.mapVals (fun (v : SavedFlue) => { v with flue := k v.flue }) g.saved }

/-- Apply a change to every flue that counts an operation of a stove: on the stove, switched out alone, and switched out with its
group. -/
def State.modOpFlues (s : State) (stove uid : Nat) (k : Flue → Flue) : State :=
  let on := fun (f : Flue) => if f.counts uid then k f else f
  let st := s.stove stove
  let s1 := s.setStove stove { st with flues := Tab.mapVals on st.flues, groups := Tab.mapVals (fun g => g.mapSaved on) st.groups }
  { s1 with parts := Tab.mapVals (fun (p : Partition) =>
      { p with switched := p.switched.map fun w => { w with flues := Tab.mapVals on w.flues } }) s1.parts }

/-- Change an operation in every flue that counts it. -/
def State.modOp (s : State) (stove uid : Nat) (k : EngineOp → EngineOp) : State :=
  s.modOpFlues stove uid fun f =>
    { f with ops := Tab.mapVals (fun (l : List EngineOp) => l.map fun o => if o.uid == uid then k o else o) f.ops }

/-! ### The hearth rendezvous of MMA.H (10 R256) -/

/-- An MMA.H of a stove leaves its hearth rendezvous (10 R256). -/
def State.leaveHearth (s : State) (stove uid : Nat) : State :=
  let h := s.hearth (hearthOf stove)
  let rvs := (h.hrvs.map fun rv => { rv with arrivals := rv.arrivals.filter fun (a : Nat × HArrival) => a.1 != uid }).filter fun rv => !rv.arrivals.isEmpty
  s.setHearth (hearthOf stove) { h with hrvs := rvs }

/-- Whether a flue of a group still counts an MMA.H, for the groups of a stove and those that are switched out whole. -/
def State.refreshMmah (s : State) (stove : Nat) : State :=
  let st := s.stove stove
  let on := fun (gid : Nat) (g : Group) =>
    (st.flues.any fun p => p.2.group == gid && p.2.inMmah) || g.saved.any fun p => p.2.flue.inMmah
  let s1 := s.setStove stove { st with groups := st.groups.map fun (p : Nat × Group) => (p.1, { p.2 with mmah := on p.1 p.2 }) }
  { s1 with parts := Tab.mapVals (fun (p : Partition) => { p with switched := p.switched.map fun w =>
      { w with group := { w.group with mmah := w.flues.any fun f => f.2.inMmah } } }) s1.parts }

/-- The stoves of a hearth that a mask of positions names, lowest first. -/
def namedStoves (hearth : Nat) (m : Word) : List Nat := ((lanesOf m).filter fun p => p < 16).map fun p => 16 * hearth + p

/-- A stove has a group of a kernel, resident or switched out whole with that stove as its place. -/
def State.hasKernelGroup (s : State) (stove part kslot : Nat) : Bool :=
  ((s.stove stove).groups.any fun g => g.2.part == part && g.2.kslot == kslot) ||
  (match s.part? part with
    | some p => p.switched.any fun w => w.group.kslot == kslot && w.group.stove == s.lstove stove
    | none => false)

/-- Every arrived gang raises BOUND in the lanes that wait at the MMA.H, which leaves MX with no step made. -/
def State.hearthFail (s : State) (hearth : Nat) (rv : HearthRv) : State :=
  let h := s.hearth hearth
  let s0 := s.setHearth hearth { h with hrvs := h.hrvs.filter fun r => r != rv }
  rv.arrivals.foldl (fun s a =>
    (s.modOpFlues a.2.stove a.1 fun f =>
      let g := (f.dropOp a.1).pend cBOUND f.mmahWait rv.pc rv.pc
      { g with mmahWait := 0 }).refreshMmah a.2.stove) s0

/-- All named stoves start: each operation learns where B lies, and the members step past. -/
def State.hearthStart (s : State) (hearth : Nat) (rv : HearthRv) : State :=
  let low := (namedStoves hearth rv.mask).headD 0
  let bslot := match rv.arrivals.find? fun a => a.2.stove == low with
    | some a => a.2.b
    | none => 0
  let h := s.hearth hearth
  let s0 := s.setHearth hearth { h with hrvs := h.hrvs.map fun r => if r == rv then { r with running := true } else r }
  rv.arrivals.foldl (fun s a =>
    let s1 := s.modOp a.2.stove a.1 fun o => { o with started := true, block := [BitVec.ofNat 32 bslot, BitVec.ofNat 32 low] }
    s1.modOpFlues a.2.stove a.1 fun f =>
      Flue.settle f { f.stepAll f.mmahWait rv.next with mmahWait := 0 }) s0

/-- Look at a hearth rendezvous that is not running: a missing stove or a differing N breaks it, and with every named stove
arrived it starts. -/
def State.hearthCheck (s : State) (hearth : Nat) (rv : HearthRv) : State :=
  let named := namedStoves hearth rv.mask
  let here := fun (n : Nat) => rv.arrivals.any fun a => a.2.stove == n
  let ns := rv.arrivals.map fun a => a.2.n
  if (named.any fun n => !here n && !s.hasKernelGroup n rv.part rv.kslot) || ns.any (fun n => n != ns.headD 0) then s.hearthFail hearth rv
  else if named.all here then s.hearthStart hearth rv
  else s

/-- After groups have left a hearth: arrivals of operations that are gone are dropped, and the rendezvous that wait are looked
at again. -/
def State.hearthSweep (s : State) (hearth : Nat) : State :=
  let h := s.hearth hearth
  let out := fun (uid : Nat) => s.parts.any fun p => p.2.switched.any fun w => w.flues.any fun f => f.2.counts uid
  let live := fun (stove uid : Nat) => ((s.stove stove).flues.any fun p => p.2.counts uid) ||
    ((s.stove stove).groups.any fun g => g.2.saved.any fun p => p.2.flue.counts uid) || out uid
  let kept := (h.hrvs.map fun rv => { rv with arrivals := rv.arrivals.filter fun (a : Nat × HArrival) => live a.2.stove a.1 }).filter fun rv => !rv.arrivals.isEmpty
  let s1 := s.setHearth hearth { h with hrvs := kept }
  (kept.filter fun rv => !rv.running).foldl (fun s rv => s.hearthCheck hearth rv) s1

end Sys2Proof.Machine
end

