-- ==== Sys2Proof/Machine/Barrier.lean ====
section
/-! DEFINITION. Barriers of a group (08 R191, 18 R388-R395): arrivals, generations, drains, and the barrier instructions; and
the common shape of control instructions (08 R184). -/

namespace Sys2Proof.Machine

/-! ### The shape of a control instruction -/

/-- The issuing flue as the state now holds it. -/
def State.cur (s : State) (i : Issue) (f : Flue) : Flue := (s.flue? i.stove i.slot).getD f
/-- Change the issuing flue. -/
def State.upd (s : State) (i : Issue) (k : Flue → Flue) : State := s.modFlue i.stove i.slot k

/-- An instruction that handler mode forbids (13 R303): with no acting lane the group steps past, in handler mode the acting
lanes raise PRIV, otherwise it takes its effect. -/
def outside (s : State) (i : Issue) (f : Flue) (acting : LaneMask) (k : State) : State :=
  if acting = 0 then s.upd i fun f => f.finish i 0
  else if f.phase = .handler then s.upd i fun f => (f.raise i cPRIV acting).finish i acting
  else k

/-- The lanes that a "Group" guard makes act: all of the group, or none (08 R184). -/
def Issue.groupActs (i : Issue) (g : Guard) : LaneMask := if i.active g = 0 then 0 else i.lanes

/-! ### Barriers -/

/-- The slot of a resident flue of a group. -/
def State.slotOf (s : State) (stove gid gfl : Nat) : Option Nat :=
  ((s.stove stove).flues.find? fun p => p.2.group == gid && p.2.gflue == gfl).map (·.1)

/-- A barrier of a resident group. -/
def State.bar (s : State) (stove gid b : Nat) : Barrier :=
  match s.group? stove gid with
  | some g => Tab.getD g.barriers b {}
  | none => {}
/-- Put a barrier. -/
def State.setBar (s : State) (stove gid b : Nat) (x : Barrier) : State :=
  match s.group? stove gid with
  | some g => s.setGroup stove gid { g with barriers := Tab.put g.barriers b x }
  | none => s
/-- The fields of one flue. -/
def Barrier.flue (x : Barrier) (gfl : Nat) : BarFlue := Tab.getD x.flues gfl {}
/-- Put the fields of one flue. -/
def Barrier.setFlue (x : Barrier) (gfl : Nat) (bf : BarFlue) : Barrier := { x with flues := Tab.put x.flues gfl bf }

/-- Lanes of WAIT step past their BAR (18 R389), a parked one later (05 R102); `l` follows its PC group. -/
def Flue.stepWait (f : Flue) (bf : BarFlue) : Flue :=
  Flue.settle f (f.stepLanes ((lanesOf bf.wait).map fun l => (l, SMap.get bf.next l)))

/-- The lanes of a flue that stand in WAIT at some barrier. -/
def State.barWait (s : State) (stove : Nat) (f : Flue) : LaneMask :=
  match s.group? stove f.group with
  | some g => g.barriers.foldl (fun m b => m ||| (b.2.flue f.gflue).wait) 0
  | none => 0

/-- The flue does not arrive after all: its LMASK clears, and the lanes of this arrival leave WAIT (08 R191, 18 R389). Lanes that wait for an
arrival that is held stay (R390). -/
def State.barRefuse (s : State) (stove gid b gfl : Nat) : State :=
  let x := s.bar stove gid b
  let bf := x.flue gfl
  s.setBar stove gid b (x.setFlue gfl { bf with lmask := 0, wait := bf.wait &&& ~~~bf.lmask })

/-- A held arrival is refused as it is applied: the lanes that wait for it leave WAIT, those of a newer arrival stay. -/
def State.barRefuseHeld (s : State) (stove gid b gfl : Nat) : State :=
  let x := s.bar stove gid b
  let bf := x.flue gfl
  s.setBar stove gid b (x.setFlue gfl { bf with wait := bf.wait &&& bf.lmask })

/-- A generation completes (18 R389): waiting lanes step past, flues of WAKE are recalled. A flue whose next arrival is held keeps its lanes
in WAIT (R390). -/
def State.barComplete (s : State) (stove gid b : Nat) : State :=
  let x := s.bar stove gid b
  let stepping := x.flues.filter fun p => !p.2.held
  let s1 := stepping.foldl (fun s p => match s.slotOf stove gid p.1 with
    | some slot => s.modFlue stove slot fun f => f.stepWait p.2
    | none => s) s
  let s2 := match s1.group? stove gid with
    | some g =>
      let sv := g.saved.map fun (p : Nat × SavedFlue) =>
        let fl := if stepping.any fun q => q.1 == p.1 then p.2.flue.stepWait (x.flue p.1) else p.2.flue
        (p.1, { p.2 with flue := fl, due := p.2.due || x.wake.getLsbD p.1 })
      s1.setGroup stove gid { g with saved := sv }
    | none => s1
  let fl := x.flues.map fun (p : Nat × BarFlue) =>
    if p.2.held then (p.1, { p.2 with arr := false, pend := false })
    else (p.1, { p.2 with arr := false, pend := false, wait := 0, next := [] })
  s2.setBar stove gid b { x with count := 0, target := 0, gen := x.gen + 1, wake := 0, flues := fl }

/-- The flue whose held arrival is applied next: in ascending order of flue slot, those that are switched out last. -/
def State.nextHeld (s : State) (stove gid b : Nat) : Option (Nat × BarFlue) :=
  let held := (s.bar stove gid b).flues.filter fun p => p.2.held
  let order := ((s.stove stove).flues.filter fun p => p.2.group == gid).map (·.2.gflue)
  (order.findSome? fun g => held.find? fun p => p.1 == g) <|> held.head?

/-- How an arrival ends: refused with a cause, or taken, and whether the generation is now complete. -/
inductive Arrival where
  | refused (c : Nat)
  | taken (complete : Bool)
  deriving DecidableEq, Repr

/-- One arrival of a flue with operand `a` (18 R389, R390), completed by lanes of an instruction (by no lanes: an exit or a park). `again`
marks a held arrival that is now applied: it leaves LMASK alone (assumption 17). -/
def State.barArrive (s : State) (stove gid b gfl : Nat) (a : Word) (again : Bool) (lanes : LaneMask := 0) (pc : DWord := 0) : Arrival × State :=
  match s.group? stove gid with
  | none => (.taken false, s)
  | some g =>
    let x := s.bar stove gid b
    let bf := x.flue gfl
    let n := if a = 0 then g.nflue else a.toNat
    let mine := if g.drained.getLsbD gfl then 0 else 1
    let lm := if again then bf.lmask else 0
    let refused := if again then s.barRefuseHeld stove gid b gfl else s.barRefuse stove gid b gfl
    if x.target = 0 then
      if g.nflue < n then (.refused cBOUND, refused)
      else
        let y := ({ x with target := n, count := mine + laneCount g.drained } : Barrier).setFlue gfl
          { bf with arr := true, pend := true, lmask := lm }
        (.taken (n ≤ y.count), s.setBar stove gid b y)
    else if bf.arr then
      if bf.held then (.refused cILLEGAL, refused)
      else (.taken false, s.setBar stove gid b (x.setFlue gfl { bf with held := true, ha := a, hlanes := lanes, hpc := pc, lmask := 0 }))
    else if n ≠ x.target then (.refused cILLEGAL, refused)
    else
      let y := ({ x with count := x.count + mine } : Barrier).setFlue gfl { bf with arr := true, pend := true, lmask := lm }
      (.taken (x.target ≤ y.count), s.setBar stove gid b y)

/-- The cause of a held arrival that is refused goes to the lanes that completed it, wherever their flue is (18 R389). They resume where
they stand. -/
def State.heldCause (s : State) (stove gid gfl : Nat) (bf : BarFlue) (c : Nat) : State :=
  let k := fun (f : Flue) => f.pend c (bf.hlanes &&& f.live) bf.hpc (f.resumeAt (f.pcOf (lowLane bf.hlanes)))
  match s.slotOf stove gid gfl with
  | some slot => s.modFlue stove slot k
  | none => match s.group? stove gid with
    | some g => s.setGroup stove gid { g with saved := Tab.modify g.saved gfl fun v => { v with flue := k v.flue } }
    | none => s

/-- Apply held arrivals as new ones, each seeing what the one before leaves (18 R389, R392). The first argument bounds the number
applied. -/
def State.barHeld (stove gid b : Nat) : Nat → State → State
  | 0, s => s
  | n + 1, s =>
    match s.nextHeld stove gid b with
    | none => s
    | some (gfl, bf) =>
      let x := s.bar stove gid b
      match (s.setBar stove gid b (x.setFlue gfl { bf with held := false })).barArrive stove gid b gfl bf.ha true with
      | (.refused c, s1) => State.barHeld stove gid b n (s1.heldCause stove gid gfl bf c)
      | (.taken true, s1) => State.barHeld stove gid b n (s1.barComplete stove gid b)
      | (.taken false, s1) => State.barHeld stove gid b n s1

/-- An arrival with what follows it: the cause when it is refused. -/
def State.barEvent (s : State) (stove gid b gfl : Nat) (a : Word) (lanes : LaneMask := 0) (pc : DWord := 0) : Option Nat × State :=
  match s.barArrive stove gid b gfl a false lanes pc with
  | (.refused c, s1) => (some c, s1)
  | (.taken false, s1) => (none, s1)
  | (.taken true, s1) => (none, State.barHeld stove gid b 33 (s1.barComplete stove gid b))

/-- Every live, unparked lane of a flue has taken the barrier (08 R191). -/
def arrivalComplete (f : Flue) (bf : BarFlue) : Bool :=
  bf.lmask != 0 && f.unparked != 0 && f.unparked &&& ~~~bf.lmask == 0

/-- Arrivals that an exit or a park of lanes of a flue completes (18 R389); none of them raises a cause. -/
def State.barPark (s : State) (stove slot : Nat) : State :=
  (List.range 16).foldl (fun s b =>
    match s.flue? stove slot with
    | some f =>
      let bf := (s.bar stove f.group b).flue f.gflue
      if arrivalComplete f bf then (s.barEvent stove f.group b f.gflue bf.la).2 else s
    | none => s) s

/-- A drained flue arrives at every barrier that is FILLING and that it has not arrived at (18 R391). -/
def State.barDrain (s : State) (stove gid gfl : Nat) : State :=
  match s.group? stove gid with
  | none => s
  | some g =>
    if g.drained.getLsbD gfl then s
    else
      let s0 := s.setGroup stove gid { g with drained := g.drained ||| laneBit gfl }
      (List.range 16).foldl (fun s b =>
        let x := s.bar stove gid b
        if x.target = 0 || (x.flue gfl).arr then s
        else
          let s1 := s.setBar stove gid b { x with count := x.count + 1 }
          if x.target ≤ x.count + 1 then State.barHeld stove gid b 33 (s1.barComplete stove gid b)
          else s1) s0

/-- What follows when lanes of a flue exit or park: barriers that are now complete, a drain, and rendezvous that can no longer
end (08 R177, R190, R191, 10 R249, R250). -/
def State.afterPark (s : State) (stove slot : Nat) : State :=
  match s.flue? stove slot with
  | none => s
  | some f =>
    if f.phase = .drain then (s.barDrain stove f.group f.gflue).gangDrain stove f.group f.gflue
    else (s.barPark stove slot).modFlue stove slot fun f => f.checkStuck

/-! ### BAR, BARA, BARW -/

/-- The barrier that an instruction names (08 R184). -/
def barNum (x : CArgs) : Nat := (x.ofs.extractLsb' 0 4).toNat

/-- BAR (`wait`) and BARA: the group's lanes count toward the flue's arrival (08 R191, 18 R388, R389). -/
def barTake (x : CArgs) (wait : Bool) (s : State) : Res :=
  onIssue s fun i f =>
    let acting := i.groupActs x.guard
    outside s i f acting (
      let s1 := (s.commit i.stove i.slot).release i.stove
      let a := (i.src x.lit).word x.a (lowLane i.lanes)
      let y := s1.bar i.stove f.group (barNum x)
      let bf := y.flue f.gflue
      if bf.lmask ≠ 0 && bf.la != a then s1.upd i fun f => f.raise i cILLEGAL acting
      else
        let bf1 : BarFlue := { bf with lmask := bf.lmask ||| i.lanes, la := if bf.lmask = 0 then a else bf.la }
        let bf2 : BarFlue :=
          if wait then
            { bf1 with wait := bf1.wait ||| i.lanes, next := SMap.setAll bf1.next ((lanesOf i.lanes).map fun l => (l, i.next)) }
          else bf1
        let s2 := s1.setBar i.stove f.group (barNum x) (y.setFlue f.gflue bf2)
        let s3 := if wait then s2 else s2.upd i fun f => f.finish i 0
        if arrivalComplete f bf2 then
          match s2.barEvent i.stove f.group (barNum x) f.gflue a acting i.pc with
          | (some c, s4) => s4.upd i fun f => f.raise i c acting
          | (none, _) => (s3.barEvent i.stove f.group (barNum x) f.gflue a acting i.pc).2
        else s3)

def execBar (x : CArgs) (s : State) : Res := barTake x true s
def execBara (x : CArgs) (s : State) : Res := barTake x false s

/-- BARW waits while PEND of the flue stands (18 R388). -/
def barwWaits (s : State) (stove : Nat) (f : Flue) (x : CArgs) : Bool := ((s.bar stove f.group (barNum x)).flue f.gflue).pend

/-- BARW: the region commits, and the group steps past when the generation of the flue's last arrival has completed; until
then it stays at the instruction. -/
def execBarw (x : CArgs) (s : State) : Res :=
  onIssue s fun i f =>
    outside s i f (i.groupActs x.guard) (
      let s1 := s.commit i.stove i.slot
      if barwWaits s1 i.stove f x then s1 else s1.upd i fun f => f.finish i 0)

end Sys2Proof.Machine
end

