-- ==== Sys2Proof/Machine/Control.lean ====
section
/-! DEFINITION. Control instructions inside a flue (08 R184-R190, R196): branches, calls and returns over frames
(05 R113-R117), exits. -/

namespace Sys2Proof.Machine

/-! ### Branches -/

/-- The cause of a target computed from OFS (08 R186). -/
def ofsCause (a : DWord) : Option Nat := if canonical a then none else some cXLATE

/-- Lanes of a group take a target from OFS and the others step past; a target that is not canonical raises XLATE. -/
def takeTarget (i : Issue) (f : Flue) (takes : LaneMask) (target : DWord) : Flue :=
  match ofsCause target with
  | some c => (f.raise i c takes).finish i takes
  | none => (f.setPc (i.lanes &&& ~~~takes) i.next).transfer takes target

def execBra (x : CArgs) (s : State) : Res :=
  onFlue s fun i f => takeTarget i f (i.active x.guard) (ofsTarget i.header x.ofs)

def execBru (x : CArgs) (s : State) : Res :=
  onFlue s fun i f => takeTarget i f (i.groupActs x.guard) (ofsTarget i.header x.ofs)

/-- The 64-bit A of each acting lane, with the cause of a bad target (03 R79). -/
def laneTargets (i : Issue) (x : CArgs) : List (Nat × DWord × Option Nat) :=
  (lanesOf (i.active x.guard)).map fun l =>
    let a := (i.src x.lit).read x.a .z64 l
    (l, a, targetCause a)

/-- Lanes that fail with a cause. -/
def failing (ts : List (Nat × DWord × Option Nat)) (c : Nat) : LaneMask :=
  maskOf fun l => ts.any fun t => t.1 == l && t.2.2 == some c
/-- Lanes that fail at all. -/
def failed (ts : List (Nat × DWord × Option Nat)) : LaneMask := maskOf fun l => ts.any fun t => t.1 == l && t.2.2.isSome

def execJmpi (x : CArgs) (s : State) : Res :=
  onFlue s fun i f =>
    let ts := laneTargets i x
    let bad := failed ts
    let good := i.active x.guard &&& ~~~bad
    let g := (f.raise i cILLEGAL (failing ts cILLEGAL)).raise i cXLATE (failing ts cXLATE)
    let h := g.finish i (bad ||| good)
    ({ h with pc := SMap.setAll h.pc ((ts.filter fun t => t.2.2.isNone).map fun t => (t.1, t.2.1)) } : Flue).clearL good

/-! ### Frame room -/

/-- What a waiting flue asks for, in granules (05 R117): a call's frame, or the spilled frame it falls to. -/
def Flue.request (f : Flue) : Option Nat :=
  match f.phase with
  | .frameWait => f.call.map fun c => c.demand / 8
  | .refillWait => if f.granted then none else some (f.top.demand / 8)
  | .run => none
  | .handler => none
  | .drain => none

/-- Insert by waiting time, longest first, then lower slot. -/
def insertWait (x : Nat × Nat × Nat) : List (Nat × Nat × Nat) → List (Nat × Nat × Nat)
  | [] => [x]
  | y :: t => if x.1 < y.1 || (x.1 == y.1 && x.2.1 < y.2.1) then x :: y :: t else y :: insertWait x t

/-- The requests of a stove in the order of R117: stamp, slot, granules. -/
def Stove.requests (st : Stove) : List (Nat × Nat × Nat) :=
  st.flues.foldl (fun acc p => match p.2.request with
    | some n => insertWait (p.2.waitStamp, p.1, n) acc
    | none => acc) []

/-- Granules left once the requests that can be met in order are met. -/
def leftOver : Nat → List (Nat × Nat × Nat) → Nat
  | free, [] => free
  | free, r :: rs => if r.2.2 ≤ free then leftOver (free - r.2.2) rs else free

/-- Granules that a new call may take: a grant goes before it (05 R117). -/
def Stove.freeForNew (st : Stove) : Nat := leftOver st.freeGranules st.requests

/-! ### Calls and returns -/

/-- The address after the clause of the issuing instruction (03 R55). -/
def Issue.after (i : Issue) : DWord := nextClause i.header (i.word.extractLsb' 0 4).toNat

/-- The count of the island cycles of a stove's hearth: what waits since one cycle has waited equally long (05 R117, 26 R485). -/
def State.islandCycle (s : State) (stove : Nat) : Nat := (s.hearth (hearthOf stove)).cycles.toNat

/-- A call of lanes to their targets with a demand (05 R114). `parked` are lanes of the group that go to the return address. -/
def callFrame (s : State) (i : Issue) (targets : List (Nat × DWord)) (parked : LaneMask) (demand : Nat) : State :=
  let movers := maskOf fun l => targets.any fun t => t.1 == l
  let c : FrameCall := { targets := SMap.setAll [] targets, movers := movers, others := parked, ret := i.after, demand := demand }
  if demand / 8 ≤ (s.stove i.stove).freeForNew then
    let s1 := (s.commit i.stove i.slot).upd i fun f => f.callNow c
    s1.afterPark i.stove i.slot
  else s.upd i fun f => { f with phase := .frameWait, call := some c, waitStamp := s.islandCycle i.stove }

/-- The demand that DEM gives (08 R184). -/
def demandOf (x : CArgs) : Nat := 8 * (x.dem.toNat + 1)

def execCall (x : CArgs) (s : State) : Res :=
  onIssue s fun i f =>
    let act := i.active x.guard
    outside s i f act (
      let t := ofsTarget i.header x.ofs
      if f.curDepth = 255 then s.upd i fun f => f.raise i cBOUND act
      else match ofsCause t with
        | some c => s.upd i fun f => (f.raise i c act).finish i act
        | none => callFrame s i ((lanesOf act).map fun l => (l, t)) (i.lanes &&& ~~~act) (demandOf x))

def execCalli (x : CArgs) (s : State) : Res :=
  onIssue s fun i f =>
    let act := i.active x.guard
    outside s i f act (
      if f.curDepth = 255 then s.upd i fun f => f.raise i cBOUND act
      else
        let ts := laneTargets i x
        let s1 := s.upd i fun f => (f.raise i cILLEGAL (failing ts cILLEGAL)).raise i cXLATE (failing ts cXLATE)
        let good := ts.filter fun t => t.2.2.isNone
        if good.isEmpty then s1.upd i fun f => f.setPc (i.lanes &&& ~~~act) i.after
        else callFrame s1 i (good.map fun t => (t.1, t.2.1)) (i.lanes &&& ~~~act) (demandOf x))

/-- After lanes have left a depth: the current depth follows, and barriers and rendezvous see it. -/
def State.afterFall (s : State) (stove slot : Nat) : State :=
  (s.modFlue stove slot fun f => f.fall (s.islandCycle stove)).afterPark stove slot

def execRet (x : CArgs) (s : State) : Res :=
  onIssue s fun i f =>
    let act := i.active x.guard
    outside s i f act (
      if f.curDepth = 0 then s.upd i fun f => (f.raise i cBOUND act).finish i act
      else
        let s1 := (s.commit i.stove i.slot).upd i fun f =>
          (f.setPc (i.lanes &&& ~~~act) i.next).dropLanes act (f.curDepth - 1)
        s1.afterFall i.stove i.slot)

/-- The AWWAITs of some lanes complete as the words stand (09 R222), and the flue has acquired the generations found (10 R238). -/
def awComplete (die : Die) (f : Flue) (lanes : LaneMask) : Flue :=
  let done := f.awaits.filter fun a => lanes.getLsbD a.lane
  let rest := f.awaits.filter fun a => !lanes.getLsbD a.lane
  let g := done.foldl (fun (g : Flue) a => g.writeLate a.seed [⟨a.loc, a.lane, Memory.read4 die.scp (a.addr + 8), a.toLatch⟩]) f
  let gone := done.filterMap fun a => if rest.any fun b => b.seed == a.seed then none else some (a.seed, a.flag)
  let acq := done.foldl (fun t a => Tab.put t a.addr (Memory.read4 die.scp (a.addr + 8))) f.acquired
  (gone.dedup.foldl (fun (g : Flue) p => g.clearFlag p.2) { g with awaits := rest, acquired := acq })

/-- The elements of a result that no longer reach a latch. -/
def unlatched (ws : List LaneWrite) : List LaneWrite := ws.map fun w => { w with toLatch := false }

/-- Lanes that UNWIND moves leave every wait (08 R189): rendezvous above the depth go with their flags, completed ones still
deliver, AWWAITs complete, barriers are left, interlocks no longer hold the lanes; escalated results and the results of posted calls
are written but no longer move them. -/
def State.leaveWaits (s : State) (stove slot : Nat) (moved : LaneMask) (n : Nat) : State :=
  match s.flue? stove slot with
  | none => s
  | some f =>
    let gone := f.rvs.filter fun rv => n < rv.depth
    let late := (gone.filter fun rv => rv.done).map fun rv => ({ writes := unlatched rv.writes } : Outstanding)
    let free := fun (m : LaneMask) => m &&& ~~~moved
    let g := (awComplete (s.die (dieOf stove))
      { f with rvs := f.rvs.filter fun rv => rv.depth ≤ n
               outs := f.outs.map (fun o => { o with held := free o.held }) ++ late
               ops := Tab.mapVals (fun (l : List EngineOp) => l.map fun o => { o with held := free o.held }) f.ops
               service := f.service.map fun c =>
                 if c.lanes &&& moved = 0 then c else { c with lanes := free c.lanes, dest := unlatched c.dest }
               escLanes := free f.escLanes
               mmahWait := free f.mmahWait } moved).clearFlags ((gone.filter fun rv => !rv.done).map (·.flags)).flatten
    let st0 := s.stove stove
    let left := st0.latch.filter fun rv => n < rv.depth && rv.arrivals.any fun a => a.2.slot == slot
    let acts := fun (rv : GangRv) => rv.arrivals.any fun a => a.2.slot == slot && a.2.active != 0
    let s1 := s.setFlue stove slot ((left.filter acts).foldl (fun (g : Flue) rv => g.clearFlag rv.flag) g)
    let st := s1.stove stove
    let s2 := s1.setStove stove { st with
      esc := st.esc.map fun e =>
        if e.slot == slot && moved.getLsbD e.lane then { e with step := none, writes := unlatched e.writes } else e,
      latch := (st.latch.map fun rv =>
        if n < rv.depth then { rv with arrivals := rv.arrivals.filter fun (a : Nat × GangArrival) => a.2.slot != slot } else rv).filter
          fun rv => !rv.arrivals.isEmpty }
    match s2.group? stove f.group with
    | none => s2
    | some gr => s2.setGroup stove f.group { gr with
        barriers := Tab.mapVals (fun (b : Barrier) =>
          let bf := b.flue f.gflue
          if bf.wait &&& moved = 0 then b else b.setFlue f.gflue { bf with wait := bf.wait &&& ~~~moved }) gr.barriers }

def execUnwind (x : CArgs) (s : State) : Res :=
  onIssue s fun i f =>
    let acting := i.groupActs x.guard
    outside s i f acting (
      let n := ((i.src x.lit).word x.a (lowLane i.lanes)).toInt
      if n < 0 || (f.curDepth : Int) ≤ n then s.upd i fun f => (f.raise i cBOUND (i.active x.guard)).finish i i.lanes
      else
        let d := n.toNat
        let moved := f.live &&& maskOf fun l => d < f.depthOf l
        let s1 := ((s.commit i.stove i.slot).leaveWaits i.stove i.slot moved d).upd i fun f => f.dropLanes moved d
        s1.afterFall i.stove i.slot)

/-! ### Ends -/

def execExitLanes (x : CArgs) (s : State) : Res :=
  onIssue s fun i f =>
    let act := i.active x.guard
    outside s i f act (
      let s1 := (s.commit i.stove i.slot).upd i fun f =>
        ({ f.setPc (i.lanes &&& ~~~act) i.next with live := f.live &&& ~~~act } : Flue).breakExited act
      s1.afterFall i.stove i.slot)

def execNop (_ : CArgs) (s : State) : Res := onFlue s fun i f => f.finish i 0

def execCommit (x : CArgs) (s : State) : Res :=
  onIssue s fun i _ =>
    let s1 := if i.groupActs x.guard = 0 then s else s.commit i.stove i.slot
    s1.upd i fun f => f.finish i 0

end Sys2Proof.Machine
end

