-- ==== Sys2Proof/Machine/Conv.lean ====
section
/-! DEFINITION. Narrow conversion (07 R149-R157): CVTN with its residues, CVTW, BSCALE, PACK, UNPACK, RESRD, RESWR. -/

namespace Sys2Proof.Machine

/-- FMT, SAT (OUTF in BSCALE), POS, RES and INS of MODX (07 R150). -/
def fmtCode (x : LArgs) : Nat := (x.modx.extractLsb' 0 3).toNat
def cvSat (x : LArgs) : Bool := x.modx.getLsbD 3
def cvPos (x : LArgs) : Nat := (x.modx.extractLsb' 4 2).toNat
def cvRes (x : LArgs) : Nat := (x.modx.extractLsb' 6 3).toNat
def cvIns (x : LArgs) : Bool := x.modx.getLsbD 9

/-- The narrow floating format of a code (07 R151). -/
def narrowFmt (code : Nat) : Fmt := if code = 0 then e4m3 else if code = 1 then e5m2 else if code = 2 then fp16 else bf16
/-- Width in bits of an element of a narrow format. -/
def narrowBits (code : Nat) : Nat := if code = 2 ∨ code = 3 then 16 else 8

/-- A residue (07 R152). -/
def Flue.residue (f : Flue) (n lane : Nat) : Word := SMap.get f.e (regKey n lane)
/-- Write a residue; the latch is unchanged. -/
def Flue.setResidue (f : Flue) (n lane : Nat) (v : Word) : Flue := { f with e := SMap.set f.e (regKey n lane) v }

/-- What CVTN does in one lane: the element's bits, the flags, and the new residue in EF mode (07 R152, 02 R42, R43). -/
def cvtnLane (code : Nat) (sat : Bool) (rm : Rm) (x s e : FVal) : Nat × FlagSet × Option Word :=
  if code = 4 then
    if rm = .ef then
      let q := quotient x s
      let t := addResidue q.1 e
      let y := fToInt .rne (-128) 127 t.1
      let r : FRes := match t.1 with
        | .fin _ v => roundTo fp32 .rne false false (v.sub (Q.ofInt y.1))
        | _ => { bits := 0 }
      ((y.1 % 256).toNat, q.2 ||| t.2 ||| y.2 ||| r.flags, some (BitVec.ofNat 32 r.bits))
    else
      let y := narrowInt rm (-128) 127 x s
      ((y.1 % 256).toNat, y.2, none)
  else if rm = .ef then
    let y := narrowEf (narrowFmt code) sat x s e
    (y.1.bits, y.1.flags ||| y.2.flags, some (BitVec.ofNat 32 y.2.bits))
  else
    let y := narrow (narrowFmt code) rm sat x s
    (y.bits, y.flags, none)

/-- Replace an element of a word. -/
def insertElem (base : Word) (bits pos v : Nat) : Word :=
  let m : Word := BitVec.ofNat 32 (2 ^ bits - 1) <<< (bits * pos)
  (base &&& ~~~m) ||| ((BitVec.ofNat 32 v <<< (bits * pos)) &&& m)

/-- CVTN (07 R152). `one` as C is the word 1, since C is a word of narrow elements (DEDUCED, assumption 46). -/
def execCvtn (x : LArgs) (s : State) : Res :=
  onFlue s fun i f =>
    let c := i.src x.lit
    let code := fmtCode x
    let lane := fun l =>
      cvtnLane code (cvSat x) (c.rm x.rm) (fp32.decode (c.read x.a .f32 l).toNat) (fp32.decode (c.read x.b .f32 l).toNat)
        (fp32.decode (i.view.residue (cvRes x) l).toNat)
    let g := (lanesOf (i.active x.guard)).foldl (fun (g : Flue) l =>
      match (lane l).2.2 with
      | some r => g.setResidue (cvRes x) l r
      | none => g) f
    runLanes i g x.guard x.d 1 fun l =>
      { val := (insertElem (if cvIns x then c.word x.c l else 0) (narrowBits code) (cvPos x) (lane l).1).setWidth 64,
        flags := (lane l).2.1 }

/-- CVTW (07 R153): among NaNs, a signalling one in B alone raises invalid. `one` as A is the word 1, since A is a word of narrow
elements (DEDUCED, assumption 46). -/
def cvtwOp (x : LArgs) (c : Src) (l : Nat) : LaneRes :=
  let code := fmtCode x
  let v := (c.word x.a l).toNat / 2 ^ (narrowBits code * cvPos x) % 2 ^ narrowBits code
  let a : FVal := if code = 4 then .fin false (Q.ofInt (elemInt true 8 v))
    else match (narrowFmt code).decode v with
      | .nan _ => .nan false
      | d => d
  let r := fMul fp32 (c.rm x.rm) a (fp32.decode (c.read x.b .f32 l).toNat)
  { val := BitVec.ofNat 64 r.bits, flags := r.flags }

/-- BSCALE (07 R154). -/
def bscaleOp (x : LArgs) (c : Src) (l : Nat) : LaneRes :=
  let a := fp32.decode (c.read x.a .f32 l).toNat
  let k := bscaleCode (fmtCode x) a
  let out := if cvSat x then (if k = 0xFF then fp32.nan else (roundTo fp32 .rne false false (Q.pow2 ((k : Int) - 127))).bits)
    else k
  { val := BitVec.ofNat 64 out, flags := flagIf a.isSnan flagNV }

/-- The pair forms of PACK (07 R155). -/
def packOp (x : LArgs) (c : Src) (l : Nat) : LaneRes :=
  let f := narrowFmt (fmtCode x)
  let p := fun (o : Opnd) => convertTo f (c.rm x.rm) (cvSat x) (fp32.decode (c.read o .f32 l).toNat)
  { val := BitVec.ofNat 64 ((p x.a).bits + (p x.b).bits * 2 ^ 16), flags := (p x.a).flags ||| (p x.b).flags }

/-- The block that PACK.I4X builds: active lanes give their values, every other lane gives +0 (07 R155). -/
def packBlock (x : LArgs) (act : LaneMask) (c : Src) : I4Enc :=
  i4Encode ((List.range 32).map fun l =>
      if act.getLsbD l then fp32.decode (c.read x.a .f32 l).toNat else .fin false (Q.ofInt 0))
    ((c.word x.b 0).toNat % 256)

def execPackI4x (x : LArgs) (s : State) : Res :=
  onFlue s fun i f =>
    let b := packBlock x (i.active x.guard) (i.src x.lit)
    runLanes i f x.guard x.d 1 fun l =>
      { val := BitVec.ofNat 64 (leNat ((b.block.drop (4 * l)).take 4)), flags := b.flags.getD l 0 }

/-- The block that UNPACK.I4X reads from lanes 0-4, whatever their state (07 R156). -/
def unpackBlock (x : LArgs) (c : Src) : List Byte :=
  ((List.range 5).map fun w => leBytes 4 (c.word x.a w).toNat).flatten.take 18

def execUnpack (x : LArgs) (s : State) : Res :=
  onFlue s fun i f =>
    let es := i4Decode (unpackBlock x (i.src x.lit))
    runLanes i f x.guard x.d 1 fun l =>
      let e := es.getD l { val := .nan false }
      let r := convertTo fp32 .rne false e.val
      { val := BitVec.ofNat 64 r.bits, flags := r.flags ||| flagIf e.xo flagXO }

def execCvtw (x : LArgs) (s : State) : Res := alu x 1 (cvtwOp x) s
def execBscale (x : LArgs) (s : State) : Res := alu x 1 (bscaleOp x) s
def execPack (x : LArgs) (s : State) : Res := alu x 1 (packOp x) s
def execResrd (x : LArgs) (s : State) : Res :=
  onFlue s fun i f => runLanes i f x.guard x.d 1 fun l => { val := (i.view.residue (cvRes x) l).setWidth 64 }
def execReswr (x : LArgs) (s : State) : Res :=
  onFlue s fun i f =>
    let c := i.src x.lit
    ((lanesOf (i.active x.guard)).foldl (fun (g : Flue) l => g.setResidue (cvRes x) l (c.word x.a l)) f).finish i 0

end Sys2Proof.Machine
end

