-- ==== Sys2Proof/Machine/MemoryOps.lean ====
section
/-! DEFINITION. Memory, atomic and fence instructions and arrival words (09 R197-R223, 18 R396-R398). -/

namespace Sys2Proof.Machine

/-! ### Fields of MODX (09 R199, R200) -/

def mxSpace (x : LArgs) : Nat := (x.modx.extractLsb' 0 2).toNat
def mxSize (x : LArgs) : Nat := 2 ^ (x.modx.extractLsb' 2 3).toNat
def mxAop (x : LArgs) : Nat := (x.modx.extractLsb' 2 3).toNat
def mxOrder (x : LArgs) : Nat := (x.modx.extractLsb' 5 2).toNat
def mxScope (x : LArgs) : Nat := (x.modx.extractLsb' 7 2).toNat
def mxSx (x : LArgs) : Bool := x.modx.getLsbD 9
def mxDcl (x : LArgs) : Bool := x.modx.getLsbD 10
/-- REL or AR. -/
def releases (x : LArgs) : Bool := mxOrder x == 2 || mxOrder x == 3

/-- The effective address of a lane (09 R201): base A and offset B. -/
def effAddr (c : Src) (space : Nat) (a b : Opnd) (l : Nat) : DWord :=
  if space = 0 then c.read a .z64 l + (c.word b l).signExtend 64
  else (c.word a l + c.word b l).setWidth 64

/-- The address of an atomic: A alone. -/
def atomAddr (c : Src) (space : Nat) (a : Opnd) (l : Nat) : DWord :=
  if space = 0 then c.read a .z64 l else (c.word a l).setWidth 64

/-! ### Lane by lane -/

/-- How one lane of an access ends. -/
inductive LaneAcc where
  | done (ws : List LaneWrite)
  | bad (c : Nat) (ea : DWord)
  | wait (va : DWord)

/-- Run lanes in ascending order. -/
def foldLanes (k : State → Nat → LaneAcc × State) : List Nat → State → List (Nat × LaneAcc) × State
  | [], s => ([], s)
  | l :: ls, s =>
    let r := k s l
    let t := foldLanes k ls r.2
    ((l, r.1) :: t.1, t.2)

/-- An operand is the same in every lane (03 R64): a scalar, `zero`, `one`, `flue` or the literal. -/
def oneForAll : Opnd → Bool
  | .s _ => true
  | .zero => true
  | .one => true
  | .flue => true
  | .lit => true
  | _ => false

/-- A LD, LDC or ATOM on the scalar path (03 R64, 09 R198): a scalar destination, or `zero` with no per-lane source. -/
def scalarPath (x : LArgs) : Bool := x.d.isScalar || (x.d == .zero && oneForAll x.a && oneForAll x.b && oneForAll x.c)

/-- The causes of the lanes of an access that failed a check, each with the address of its lowest lane (09 R203). -/
def accessCauses (f : Flue) (i : Issue) (act : LaneMask) (scalar : Bool) (rs : List (Nat × LaneAcc)) : Flue :=
  rs.foldl (fun (g : Flue) r => match r.2 with
    | .bad c ea => g.raiseAt i c (if scalar then act else laneBit r.1) ea
    | _ => g) f

/-- Close an access: causes with the address of the lowest lane (09 R203), lanes that wait for a page stay at the instruction
(13 R311), the others step past with their results under way. -/
def closeAccess (f : Flue) (i : Issue) (act : LaneMask) (scalar : Bool) (rs : List (Nat × LaneAcc)) : Flue :=
  let spread := fun (l : Nat) => if scalar then act else laneBit l
  let waits := rs.foldl (fun m r => match r.2 with | .wait _ => m ||| spread r.1 | _ => m) 0
  let bad := rs.foldl (fun m r => match r.2 with | .bad _ _ => m ||| spread r.1 | _ => m) 0
  let g := accessCauses f i act scalar rs
  let va := rs.findSome? fun r => match r.2 with | .wait v => some v | _ => none
  let h := g.finish i (bad ||| waits)
  { h.setPc waits i.pc with pageWait := if va.isSome then va else h.pageWait }

/-- Close a load: the results of the lanes that completed are under way (03 R70-R72), from peers for the lanes of `peers`. -/
def closeLoad (f : Flue) (i : Issue) (x : FSel) (act : LaneMask) (scalar : Bool) (rs : List (Nat × LaneAcc)) (peers : List PeerLane := []) : Flue :=
  let ok := rs.foldl (fun m r => match r.2 with | .done _ => m ||| laneBit r.1 | _ => m) 0
  let ws := (rs.map fun r => match r.2 with | .done w => w | _ => []).flatten
  closeAccess (f.await i x ok ws peers) i act scalar rs

/-- Release at a scope, then the effect `k` (09 R206, 12 R283). At SYS scope the writes to peers must have been acknowledged
(12 R298): until then the group stays at the instruction; when a peer has left the roster the acting lanes raise ROSTER
(20 R427). -/
def releaseAt (s : State) (i : Issue) (f : Flue) (acting : LaneMask) (sys : Bool) (k : State → State) : State :=
  let s1 := (s.commit i.stove i.slot).release i.stove
  if sys && s1.peerLost f.cid then s1.upd i fun f => (f.raise i cROSTER acting).finish i acting
  else if sys && s1.unacked f.cid then s1
  else k s1

/-! ### Loads -/

/-- The words that a load delivers (09 R200, R205). -/
def loadWords (size : Nat) (sx : Bool) (bs : List Byte) : List Word :=
  if size < 4 then
    let v := leNat bs
    [if sx && decide (2 ^ (8 * size - 1) ≤ v) then BitVec.ofNat 32 (v + 2 ^ 32 - 2 ^ (8 * size)) else BitVec.ofNat 32 v]
  else (List.range (size / 4)).map fun j => BitVec.ofNat 32 (leNat ((bs.drop (4 * j)).take 4))

/-- Lanes to run: one on the scalar path. -/
def runsOf (x : LArgs) (act : LaneMask) : List Nat := if scalarPath x then (lanesOf act).take 1 else lanesOf act

/-- An access as its lanes check it (09 R199-R203): what it does, its space and size, DCL, and the effective address of a lane. -/
structure AccSpec where
  kind : Acc
  space : Nat
  size : Nat
  dcl : Bool
  ea : Nat → DWord

/-- The checks of the lanes of an access in ascending order (09 R203): how each ends, and where it may act. -/
def accLanes (y : AccSpec) (i : Issue) (f : Flue) : List Nat → State → List (Nat × LaneAcc × Loc) × State
  | [], s => ([], s)
  | l :: ls, s =>
    let r := s.check i.stove f y.space (y.ea l) y.size y.kind y.dcl
    let t := accLanes y i f ls r.2
    match r.1 with
    | .cause c => ((l, .bad c (y.ea l), .shr 0) :: t.1, t.2)
    | .wait va => ((l, .wait va, .shr 0) :: t.1, t.2)
    | .ok loc => ((l, .done [], loc) :: t.1, t.2)

/-- The lanes that passed their checks, with where they act. -/
def passing (rs : List (Nat × LaneAcc × Loc)) : List (Nat × Loc) :=
  rs.filterMap fun r => match r.2.1 with
    | .done _ => some (r.1, r.2.2)
    | _ => none

/-- How the lanes of an access end, with what each writes. -/
def endings (rs : List (Nat × LaneAcc × Loc)) (ws : Nat → List LaneWrite) : List (Nat × LaneAcc) :=
  rs.map fun r => (r.1, match r.2.1 with
    | .done _ => .done (ws r.1)
    | e => e)

/-- The lanes of an access that a peer answers (20 R427). -/
def peerLanes (x : LArgs) (act : LaneMask) (ea : Nat → DWord) (ls : List (Nat × Loc)) : List PeerLane :=
  ls.filterMap fun p => match p.2 with
    | .gen pa => match paKind pa with
      | .peer r _ => some ⟨if scalarPath x then act else laneBit p.1, r, ea p.1⟩
      | _ => none
    | _ => none

/-- The register elements of a lane's result. -/
def laneResult (x : LArgs) (i : Issue) (l : Nat) (ws : List Word) : List LaneWrite :=
  destWrites i.view x.d (x.f == .none) (if x.d.isScalar then 0 else l) 0 ws

/-- A value by lane. -/
def laneVal {α : Type} (d : α) (t : List (Nat × α)) (l : Nat) : α := ((t.find? fun p => p.1 == l).map (·.2)).getD d

/-- LD and LDC (09 R205): the lanes that pass their checks read in one action, so that they read one value of one byte (R207); LD finds the
bytes that its flue's region has buffered (R210). -/
def loadOp (x : LArgs) (const : Bool) (s : State) : Res :=
  onIssue s fun i f =>
    let act := i.active x.guard
    let space := if const then 0 else mxSpace x
    let ea := effAddr (i.src x.lit) space x.a x.b
    let r := accLanes ⟨.load, space, mxSize x, false, ea⟩ i f (runsOf x act) s
    let b := r.2.readLanes i.stove f const (mxSize x) (passing r.1)
    let val := fun (p : Loc × List Byte) => if const then p.2 else overlay f.sectors p.1.space p.1.addr p.2
    let rs := endings r.1 fun l => laneResult x i l (loadWords (mxSize x) (mxSx x) (val (laneVal (.shr 0, []) b.1 l)))
    b.2.upd i fun f => closeLoad f i x.f act (scalarPath x) rs (peerLanes x act ea (passing r.1))

def execLd (x : LArgs) (s : State) : Res := loadOp x false s
def execLdc (x : LArgs) (s : State) : Res := loadOp x true s

/-! ### Stores -/

/-- The bytes that ST stores in a lane (09 R200): registers, or a 32-bit value zero-extended. R200 says so of `zero`, `one` and `lit`; for `l`,
`lane` and `flue` with a wide store the model does the same (DESIGN CHOICE, assumption 57). -/
def storeBytes (c : Src) (o : Opnd) (size l : Nat) : List Byte :=
  let n := if size < 4 then 1 else size / 4
  let ws := match o with
    | .v _ | .o _ | .s _ => c.run o n l
    | _ => [c.word o l]
  leBytes size (ws.foldr (fun w acc => w.toNat + 2 ^ 32 * acc) 0)

/-- The buffer after a store's lanes (09 R209). -/
def bufferLanes (x : LArgs) (i : Issue) (f : Flue) (ls : List (Nat × Loc)) : List Sector :=
  ls.foldl (fun t p => bufferBytes t (mxSpace x) f.cid p.2.addr (storeBytes (i.src x.lit) x.c (mxSize x) p.1)) f.sectors

/-- ST after its release (09 R206-R209, 13 R307). A store that would need a 257th entry raises REGOVF in every acting lane, beside the
causes of the lanes that failed a check. -/
def storeOp (x : LArgs) (i : Issue) (act : LaneMask) (s0 : State) : State :=
  let f0 := s0.cur i {}
  let s1 := if f0.regionOpen && act &&& ~~~f0.restart != 0 then s0.commit i.stove i.slot else s0
  let f1 := s1.cur i f0
  let ea := effAddr (i.src x.lit) (mxSpace x) x.a x.b
  let r := accLanes ⟨.store, mxSpace x, mxSize x, mxDcl x, ea⟩ i f1 (lanesOf act) s1
  let ls := passing r.1
  let rs := r.1.map fun p => (p.1, p.2.1)
  if f1.regionOpen then
    let t := bufferLanes x i f1 ls
    if 256 < t.length then r.2.upd i fun f => ((accessCauses f i act false rs).raise i cREGOVF act).finish i act
    else r.2.upd i fun f => closeAccess { f with sectors := t } i act false rs
  else
    let s2 := ls.foldl (fun s p => s.storeLoc i.stove f1 p.2 (storeBytes (i.src x.lit) x.c (mxSize x) p.1)) r.2
    s2.upd i fun f => closeAccess f i act false rs

def execSt (x : LArgs) (s : State) : Res :=
  onIssue s fun i f =>
    let act := i.active x.guard
    if act = 0 then s.upd i fun f => f.finish i 0
    else if releases x then releaseAt s i f act (mxScope x == 2) (storeOp x i act)
    else storeOp x i act s

/-! ### Atomics -/

/-- The lanes of an atomic by location, each location with its lanes and their operands in ascending order (09 R213). -/
def byLoc {α : Type} (v : Nat → α) : List (Nat × Loc) → List (Loc × List (Nat × α)) → List (Loc × List (Nat × α))
  | [], t => t
  | (l, loc) :: ls, t =>
    byLoc v ls (if t.any fun p => p.1 == loc then t.map fun p => if p.1 == loc then (loc, p.2 ++ [(l, v l)]) else p else t ++ [(loc, [(l, v l)])])

/-- A RED at one location: on a translated page a posted write, elsewhere at its one place. -/
def State.redAt (s : State) (stove : Nat) (f : Flue) (aop : Nat) (ty : Ty) (p : Loc × List DWord) : State :=
  match p.1 with
  | .gen pa => s.post stove f.cid pa (.red (BitVec.ofNat 3 aop) ty p.2)
  | l => p.2.foldl (fun s v => (s.atomLoc stove f l aop ty v 0).2) s

/-- The locations of an ATOM one after another, with the old value that each lane finds. -/
def State.atomAll (s : State) (stove : Nat) (f : Flue) (aop : Nat) (ty : Ty) :
    List (Loc × List (Nat × DWord × DWord)) → List (Nat × DWord) × State
  | [] => ([], s)
  | p :: t =>
    let r := s.atomAt stove f aop ty p
    let q := r.2.atomAll stove f aop ty t
    (r.1 ++ q.1, q.2)

/-- ATOM after its commit and release (09 R213-R215): every lane's checks, then each location in turn. -/
def atomOp (x : LArgs) (i : Issue) (f : Flue) (act : LaneMask) (s : State) : State :=
  let c := i.src x.lit
  let f1 := s.cur i f
  let ea := atomAddr c (mxSpace x) x.a
  let r := accLanes ⟨.atom, mxSpace x, atomBytes x.ty, mxDcl x, ea⟩ i f1 (runsOf x act) s
  let a := r.2.atomAll i.stove f1 (mxAop x) x.ty (byLoc (fun l => (c.read x.b x.ty l, c.read x.c x.ty l)) (passing r.1) [])
  let rs := endings r.1 fun l => laneResult x i l (wordsOf x.ty.regs (laneVal 0 a.1 l))
  a.2.upd i fun f =>
    if x.d == .zero then closeAccess f i act (scalarPath x) rs
    else closeLoad f i x.f act (scalarPath x) rs (peerLanes x act ea (passing r.1))

def execAtom (x : LArgs) (s : State) : Res :=
  onIssue s fun i f =>
    let act := i.active x.guard
    if act = 0 then s.upd i fun f => f.finish i 0
    else if releases x then releaseAt s i f act (mxScope x == 2) (atomOp x i f act)
    else atomOp x i f act (s.commit i.stove i.slot)

/-- RED after its commit and release. -/
def redOp (x : LArgs) (i : Issue) (f : Flue) (act : LaneMask) (s : State) : State :=
  let c := i.src x.lit
  let f1 := s.cur i f
  let r := accLanes ⟨.store, mxSpace x, atomBytes x.ty, mxDcl x, atomAddr c (mxSpace x) x.a⟩ i f1 (lanesOf act) s
  let s2 := (byLoc (fun l => c.read x.b x.ty l) (passing r.1) []).foldl
    (fun s p => s.redAt i.stove f1 (mxAop x) x.ty (p.1, p.2.map (·.2))) r.2
  s2.upd i fun f => closeAccess f i act false (endings r.1 fun _ => [])

def execRed (x : LArgs) (s : State) : Res :=
  onIssue s fun i f =>
    let act := i.active x.guard
    if act = 0 then s.upd i fun f => f.finish i 0
    else if releases x then releaseAt s i f act (mxScope x == 2) (redOp x i f act)
    else redOp x i f act (s.commit i.stove i.slot)

/-! ### Fences and caches -/

def execFence (x : LArgs) (s : State) : Res :=
  onIssue s fun i f =>
    let acting := i.groupActs x.guard
    if acting ≠ 0 && releases x then
      releaseAt s i f (i.active x.guard) (mxScope x == 2) fun s1 => s1.upd i fun f => f.finish i 0
    else s.upd i fun f => f.finish i 0

/-- The lines of a stove's caches after an operation. -/
def State.caches (s : State) (stove : Nat) (l1 kc : Tab Line → Tab Line) : State :=
  s.setStove stove { s.stove stove with l1 := l1 (s.stove stove).l1, kcache := kc (s.stove stove).kcache }

/-- PFENCE commits and then acts on its path (09 R217). -/
def pfence (x : LArgs) (act : Nat → Nat → State → State) (s : State) : Res :=
  onIssue s fun i f =>
    let s1 := if i.groupActs x.guard = 0 then s else act i.stove f.cid (s.commit i.stove i.slot)
    s1.upd i fun f => f.finish i 0

def execPfenceGen (x : LArgs) (s : State) : Res :=
  pfence x (fun stove cid s => s.caches stove (fun t => dropCid t cid) id) s
def execPfenceConst (x : LArgs) (s : State) : Res :=
  pfence x (fun stove cid s => s.caches stove id (fun t => dropCid t cid)) s
def execPfenceTile (x : LArgs) (s : State) : Res := pfence x (fun stove _ s => s.release stove) s

/-- PREF (09 R218): the line of the lowest active lane's address is fetched into L1, or touched at its slice; a prefetch that
fails a check is dropped. -/
def execPref (x : LArgs) (s : State) : Res :=
  onIssue s fun i f =>
    let act := i.active x.guard
    let s1 :=
      if act = 0 then s
      else
        let r := s.check i.stove f 0 (effAddr (i.src x.lit) 0 x.a x.b (lowLane act)) 1 .load false
        match r.1 with
        | .ok loc => match paKind loc.addr with
          | .hbm => if x.modx.getLsbD 0 then r.2.touch f.cid (loc.addr / 128) (hearthOf i.stove) else (r.2.loadL1 i.stove f.cid loc.addr 1).2
          | _ => r.2
        | _ => r.2
    s1.upd i fun f => f.finish i 0

/-- Drop the line of an address from a cache when it carries the CID. -/
def dropLine (t : Tab Line) (line cid : Nat) : Tab Line := t.filter fun x => !(x.1 == line && x.2.cid == cid)

/-- One lane of an address form of CINV (09 R219). -/
def cinvLane (x : LArgs) (i : Issue) (f : Flue) (s : State) (l : Nat) : State :=
  let a := (i.src x.lit).read x.a .z64 l
  if !canonical a then s
  else match s.walk f.cid a with
    | .leaf lvl _ e =>
      let pa := ptePa e + a.toNat % (if lvl = 1 then 2 ^ 21 else 4096)
      let k := x.modx.getLsbD 0
      s.caches i.stove (fun t => if k then t else dropLine t (pa / 128) f.cid) (fun t => if k then dropLine t (pa / 128) f.cid else t)
    | _ => s

def execCinv (x : LArgs) (s : State) : Res :=
  onIssue s fun i f =>
    let act := i.active x.guard
    let k := x.modx.getLsbD 0
    let s1 :=
      if act = 0 then s
      else
        let s0 := s.commit i.stove i.slot
        if x.modx.getLsbD 1 then
          s0.caches i.stove (fun t => if k then t else dropCid t f.cid) (fun t => if k then dropCid t f.cid else t)
        else (lanesOf act).foldl (cinvLane x i f) s0
    s1.upd i fun f => f.finish i 0

/-! ### Arrival words (18 R396) -/

/-- Write a little-endian 32-bit word. -/
def Memory.write4 (m : Memory) (a : Nat) (v : Word) : Memory := Memory.write m a (leBytes 4 v.toNat)

/-- The OWN word of an arrival word (09 R220). -/
def awOwn (armed ovr : Bool) (stove slot : Nat) : Word :=
  BitVec.ofNat 32 ((if armed then 2 ^ 31 else 0) + (if ovr then 2 ^ 30 else 0) + stove % 1024 * 32 + slot % 32)

/-- An arrival of `b` bytes at the word at an address (18 R396). -/
def awArrive (m : Memory) (a : Nat) (b : Nat) : Memory :=
  let own := Memory.read4 m (a + 12)
  if !own.getLsbD 31 then Memory.write4 m (a + 12) (own ||| 0x40000000#32)
  else
    let target := (Memory.read4 m a).toNat
    let c := (Memory.read4 m (a + 4)).toNat + b
    if c < target then Memory.write4 m (a + 4) (BitVec.ofNat 32 c)
    else
      let m1 := if target < c then Memory.write4 m (a + 12) (own ||| 0x40000000#32) else m
      Memory.write4 (Memory.write4 m1 (a + 4) 0) (a + 8) (Memory.read4 m (a + 8) + 1)

/-- AWSET on the word at an address: the generation stays. -/
def awSet (m : Memory) (a : Nat) (target : Word) (stove slot : Nat) : Memory :=
  Memory.write4 (Memory.write4 (Memory.write4 m a target) (a + 4) 0) (a + 12) (awOwn true false stove slot)

/-- Change the scratchpad of a stove's die, for a context. -/
def State.modScp (s : State) (stove cid : Nat) (k : Memory → Memory) : State :=
  let d := s.die (dieOf stove)
  (s.exchange cid (hearthOf stove) (portScp (dieOf stove)) 0).setDie (dieOf stove) { d with scp := k d.scp }

/-- Check the arrival word that A names in a lane, then act on it (09 R220). -/
def awLane (x : LArgs) (i : Issue) (f : Flue) (k : State → Nat → LaneAcc × State) (s : State) (l : Nat) : LaneAcc × State :=
  let ea := ((i.src x.lit).word x.a l).setWidth 64
  let r := s.check i.stove f 3 ea 16 .load false
  match r.1 with
  | .ok loc => k r.2 loc.addr
  | .cause c => (.bad c ea, r.2)
  | .wait va => (.wait va, r.2)

def execAwset (x : LArgs) (s : State) : Res :=
  onIssue s fun i f =>
    let act := i.active x.guard
    if act = 0 then s.upd i fun f => f.finish i 0
    else
      let c := i.src x.lit
      let r := foldLanes (fun s l => awLane x i f (fun s a =>
        let b := c.word x.b l
        if b = 0 then (.bad cBOUND i.pc, s)
        else (.done [], s.modScp i.stove f.cid fun m => awSet m a b (s.lstove i.stove) i.slot)) s l)
        (lanesOf act) (s.commit i.stove i.slot)
      r.2.upd i fun f => closeAccess f i act false r.1

def execAwadd (x : LArgs) (s : State) : Res :=
  onIssue s fun i f =>
    let act := i.active x.guard
    if act = 0 then s.upd i fun f => f.finish i 0
    else
      let c := i.src x.lit
      let r := foldLanes (fun s l => awLane x i f (fun s a =>
        (.done [], s.modScp i.stove f.cid fun m => awArrive m a (c.word x.b l).toNat)) s l)
        (lanesOf act) ((s.commit i.stove i.slot).release i.stove)
      r.2.upd i fun f => closeAccess f i act false r.1

/-- The wait of one lane of AWWAIT, its word at an address (09 R221). -/
def awWaitOf (x : LArgs) (i : Issue) (a l : Nat) : AwWait :=
  { lane := l, addr := a, expect := (i.src x.lit).word x.b l, loc := i.view.loc x.d 0,
    toLatch := x.f == .none && x.d.latches, flag := i.flag x.f, seed := i.seed, held := if x.f == .none then i.lanes else 0 }

def execAwwait (x : LArgs) (s : State) : Res :=
  onIssue s fun i f =>
    let act := i.active x.guard
    let r := (lanesOf act).foldl (fun (acc : List (Nat × LaneAcc) × List AwWait × State) l =>
      let ea := ((i.src x.lit).word x.a l).setWidth 64
      let q := acc.2.2.check i.stove f 3 ea 16 .load false
      match q.1 with
      | .ok loc => (acc.1, acc.2.1 ++ [awWaitOf x i loc.addr l], q.2)
      | .cause c => (acc.1 ++ [(l, .bad c ea)], acc.2.1, q.2)
      | .wait va => (acc.1 ++ [(l, .wait va)], acc.2.1, q.2)) ([], [], s)
    r.2.2.upd i fun f =>
      let g := closeAccess f i act false r.1
      let ws := r.2.1.map fun a => (⟨a.loc, a.lane, 0, a.toLatch⟩ : LaneWrite)
      if r.2.1.isEmpty then g else { (g.setFlag (i.flag x.f)).claimLatch i.seed ws with awaits := g.awaits ++ r.2.1 }

/-- AWWAIT_RETURN (09 R221): a waiting lane's word has left the generation it waits on; the lane receives the new one. -/
def execAwwaitReturn (r : FlueRef) (lane : Nat) (s : State) : Res :=
  .next (s.modFlue r.stove r.slot fun f =>
    let gen := fun (a : AwWait) => Memory.read4 (s.die (dieOf r.stove)).scp (a.addr + 8)
    match f.awaits.find? fun a => a.lane == lane && gen a != a.expect with
    | none => f
    | some a =>
      let rest := f.awaits.filter fun b => b != a
      let g := ({ f with awaits := rest } : Flue).writeLate a.seed [⟨a.loc, a.lane, gen a, a.toLatch⟩]
      Flue.checkStuck (if rest.any fun b => b.seed == a.seed then g else g.clearFlag a.flag))

/-- POSTED_WRITE_APPLY (09 R208, 12 R277): a posted write of a stove reaches its home slice. Writes of one stove to one line
go in order (12 R281). -/
def execPostedWriteApply (stove idx : Nat) (s : State) : Res :=
  let ps := (s.stove stove).posted
  match ps[idx]? with
  | none => .next s
  | some p =>
    if (ps.take idx).any fun q => q.pa / 128 == p.pa / 128 then .next s
    else .next ((s.setStove stove { s.stove stove with posted := ps.eraseIdx idx }).applyPosted stove p)

end Sys2Proof.Machine
end

