-- ==== Sys2Proof/Machine/System.lean ====
section
/-! DEFINITION. System instructions (11 R264-R272): traps, the return from handler mode, system calls, special registers. -/

namespace Sys2Proof.Machine

/-! ### TRAP, BKPT, RTH -/

/-- The handler address in force for a flue (13 R301, 16 R358). -/
def State.handlerOf (s : State) (f : Flue) : DWord :=
  match s.kernel? f.part f.kslot with
  | some k => k.handler
  | none => 0

/-- The address of the word after an instruction, literal included: behind a clause's last instruction it may be the word at line
offset 60, which is taken as the next line (03 R55, 11 R265). -/
def Issue.wordAfter (i : Issue) : DWord :=
  if i.last then i.header + BitVec.ofNat 64 (4 * ((i.word.extractLsb' 0 4).toNat + 1)) else i.next

/-- TRAP and BKPT (11 R265): the region commits, the group steps past, and the acting lanes hold the cause. -/
def trapOp (x : YArgs) (c : Nat) (arg : Nat → Word) (s : State) : Res :=
  onIssue s fun i f =>
    let act := i.active x.guard
    let s1 := if act = 0 then s else s.commit i.stove i.slot
    s1.upd i fun g =>
      (g.setPc i.lanes i.next).pend c act i.pc (f.resumeAt i.wordAfter) (x.idx.setWidth 8)
        (SMap.setAll [] ((lanesOf act).map fun l => (l, arg l)))

def execTrap (x : YArgs) (s : State) : Res :=
  trapOp x cTRAPI (fun l => match s.issue with | some i => (i.src x.lit).word x.a l | none => 0) s
def execBkpt (x : YArgs) (s : State) : Res := trapOp x cBKPT (fun _ => 0) s

/-- RTH (11 R266): the return from an exception, once every instruction issued in handler mode is complete. -/
def execRth (x : YArgs) (s : State) : Res :=
  onIssue s fun i f =>
    let acting := i.groupActs x.guard
    if acting = 0 then s.upd i fun f => f.finish i 0
    else if f.phase ≠ .handler then s.upd i fun f => (f.raise i cPRIV acting).finish i acting
    else if !f.idle then s
    else s.setFlue i.stove i.slot (f.rth (s.handlerOf f))

/-! ### SYSCALL -/

/-- The ring of a partition has no free entry (11 R267). -/
def ringFull (p : Partition) : Bool := 256 ≤ p.ring.length

/-- Post a call to the ring of the flue's partition (11 R267). -/
def postCall (x : YArgs) (i : Issue) (s : State) : State :=
  match s.flue? i.stove i.slot with
  | none => s
  | some f =>
    match s.part? f.part with
    | none => s
    | some p =>
      let c := i.src x.lit
      let l := lowLane i.lanes
      let e : RingEntry := { seq := p.ringSeq, cid := f.cid, stove := s.lstove i.stove, slot := i.slot, group := f.group, gflue := f.gflue,
                             svc := x.idx, a := c.word x.a l, b := c.word x.b l, gen := s.fw.gen }
      let act := lanesOf (i.active x.guard)
      let call : InService := { part := f.part, seq := p.ringSeq, lanes := i.lanes, next := i.next,
                                dest := resultWrites i.view x.d 1 true act fun _ => 0 }
      (s.setPart f.part { p with ring := p.ring ++ [e], ringSeq := p.ringSeq + 1 }).upd i fun g =>
        { g with service := g.service ++ [call] }

/-- SYSCALL (11 R267, R268): the region commits and a SYS-scope release takes place before the entry is posted. With the ring
full the region commits (13 R308), nothing is posted, and the flue asks to be descheduled. -/
def execSyscall (x : YArgs) (s : State) : Res :=
  onIssue s fun i f =>
    let acting := i.groupActs x.guard
    if acting = 0 then s.upd i fun f => f.finish i 0
    else if (match s.part? f.part with | some p => ringFull p | none => true) then
      (s.commit i.stove i.slot).upd i fun f => { f with ringWait := true }
    else releaseAt s i f (i.active x.guard) true (postCall x i)

/-- The result of a posted call reaches the flue (11 R267): written in its lanes, which step past. -/
def Flue.answer (f : Flue) (part seq : Nat) (val : Word) : Flue :=
  match f.service.find? fun c => c.part == part && c.seq == seq with
  | none => f
  | some c =>
    let g := (({ f with service := f.service.filter fun d => d != c } : Flue).writeAll
      (c.dest.map fun w => { w with val := val })).stepAll c.lanes c.next
    (Flue.settle f g).checkStuck

/-- A saved flue holds its result until its restore (11 R268). -/
def Flue.holdAnswer (f : Flue) (part seq : Nat) (val : Word) : Flue :=
  { f with service := f.service.map fun c => if c.part == part && c.seq == seq then { c with result := some val } else c }

/-- Results that came while the flue was away are written at its restore (11 R268). -/
def Flue.takeAnswers (f : Flue) : Flue :=
  f.service.foldl (fun g c => match c.result with
    | some v => g.answer c.part c.seq v
    | none => g) f

/-- Change every saved flue of the package: those switched out alone and those of groups switched out whole. -/
def State.mapSaved (s : State) (k : Flue → Flue) : State :=
  let gr := fun (g : Group) => { g with saved := Tab.mapVals (fun (v : SavedFlue) => { v with flue := k v.flue }) g.saved }
  { s with
    stoves := s.stoves.map fun (x : Nat × Stove) => (x.1, { x.2 with groups := Tab.mapVals gr x.2.groups })
    parts := s.parts.map fun (x : Nat × Partition) => (x.1, { x.2 with
      switched := x.2.switched.map fun w => { w with group := gr w.group, flues := Tab.mapVals k w.flues } }) }

/-- A partition's ring has room: flues that wait for it are due for recall, and those that are still in their slots may issue the
SYSCALL again (11 R268). -/
def State.wakeRing (s : State) (part : Nat) : State :=
  let wake := fun (v : SavedFlue) => if v.why == .ring then { v with due := true } else v
  let gr := fun (g : Group) => if g.part = part then { g with saved := Tab.mapVals wake g.saved } else g
  let fl := fun (f : Flue) => if f.part = part && f.ringWait then { f with ringWait := false, stays := false } else f
  s.mapStoves fun _ st => { st with groups := Tab.mapVals gr st.groups, flues := Tab.mapVals fl st.flues }

/-- The page services (19 R410): the model answers these itself. -/
def isPageService (svc : BitVec 16) : Bool := 0x100 ≤ svc.toNat && svc.toNat ≤ 0x107

/-- The older firmware generation stops when its last entry is answered (22 R448). -/
def State.oldDone (s : State) : State :=
  if s.parts.any fun (x : Nat × Partition) => x.2.ring.any fun e => e.gen != s.fw.gen then s
  else { s with fw := { s.fw with old := none } }

/-- The result of an entry: for a page service its status, for another service that the firmware of the entry's generation
implements what it gives, and 0xFFFF_FFFF for one that it does not implement (11 R267). -/
def RingEntry.result (e : RingEntry) (val : Word) : Word :=
  e.answer.getD (if Config.firmwareServes e.gen e.svc then val else 0xFFFFFFFF)

/-- The pages that an entry is still to free: those that its context still owns, in no other state (19 R417). -/
def State.stillFreeing (s : State) (e : RingEntry) : List Nat :=
  e.freeing.filter fun p => (s.ownOf (4096 * p)).owner == e.cid && (s.ownOf (4096 * p)).state == .owned

/-- SYSCALL_RESULT (11 R267): the firmware posts the result of an entry. A page service's result waits until no region buffer holds a sector
of its pages, and pages that it frees are freed before the result is posted, with every translation to them that was made meanwhile
(19 R406, R410). The entry is free again. -/
def execSyscallResult (part seq : Nat) (val : Word) (s : State) : Res :=
  match s.part? part with
  | none => .next s
  | some p =>
    match p.ring.find? fun e => e.seq == seq with
    | none => .next s
    | some e =>
      if (isPageService e.svc && e.answer.isNone) || s.buffered e.pages then .next s
      else
        let v := e.result val
        let s0 := (s.shootdown e.cid 0 0 (s.stillFreeing e)).freePages (s.stillFreeing e)
        let s1 := (s0.setPart part { p with ring := p.ring.filter fun d => d.seq != seq }).wakeRing part
        let s2 := s1.mapStoves fun _ st => { st with flues := Tab.mapVals (fun (f : Flue) => f.answer part seq v) st.flues }
        .next (s2.mapSaved fun f => f.holdAnswer part seq v).oldDone

/-! ### Special registers -/

/-- The resident group of a flue. -/
def State.groupOf (s : State) (stove : Nat) (f : Flue) : Group := (s.group? stove f.group).getD {}

/-- Coordinate `d` of a group (17 R384): of INDEX for a grid record, 0 for a spawned one. -/
def groupCoord (k : Kernel) (r : Record) (d : Nat) : Nat :=
  if r.spawned then 0
  else
    let n := r.index.toNat
    if d = 0 then n % k.launch.gx
    else if d = 1 then n / k.launch.gx % k.launch.gy
    else n / k.launch.gx / k.launch.gy

/-- What RDSR reads (11 R269) in a lane; `f` is the flue as it stands at issue. -/
def State.specialReg (s : State) (stove slot : Nat) (f : Flue) (idx lane : Nat) : DWord :=
  let k := (s.kernel? f.part f.kslot).getD {}
  let r := (s.groupOf stove f).record
  let n : Nat → DWord := BitVec.ofNat 64
  match idx with
  | 0x00 => n lane
  | 0x01 => n slot
  | 0x02 => n f.gflue
  | 0x03 => n (groupCoord k r 0)
  | 0x04 => n (groupCoord k r 1)
  | 0x05 => n (groupCoord k r 2)
  | 0x06 => n (s.lstove stove)
  | 0x07 => n (s.lhearth (hearthOf stove))
  | 0x08 => n f.part
  | 0x09 => n k.srank
  | 0x0A => n f.curDepth
  | 0x0B => if f.phase = .handler then f.cause.setWidth 64 else 0
  | 0x0C => f.clanes.setWidth 64
  | 0x0D => (f.faddr.setWidth 32).setWidth 64
  | 0x0E => f.faddr >>> 32
  | 0x0F => f.entry
  | 0x10 => f.prog.setWidth 64
  | 0x11 => ((s.hearth (hearthOf stove)).cycles.setWidth 32).setWidth 64
  | 0x12 => f.cycLatch.setWidth 64
  | 0x13 => (SMap.get f.fpst lane).setWidth 64
  | 0x14 => f.fpmode.setWidth 64
  | 0x15 => f.ydl.setWidth 64
  | 0x16 => f.gang.setWidth 64
  | 0x17 => f.hpc
  | j => (s.pmVal f.cid (j - 0x18)).setWidth 64

/-- The registers that an index takes (11 R269). -/
def specialWidth (idx : Nat) : Nat := if idx = 0x0F || idx = 0x17 then 2 else 1

/-- RDSR: each active lane, or a scalar once. -/
def rdsrOp (x : YArgs) (s : State) : Res :=
  onIssue s fun i _ =>
    s.upd i fun f =>
      runLanes i f x.guard x.d (specialWidth x.idx.toNat) fun l => { val := s.specialReg i.stove i.slot i.view x.idx.toNat l }

def execRdsr (x : YArgs) (s : State) : Res := rdsrOp x s

/-- RDSR of sr.cyclo (11 R272): the low word, and the high word goes to the flue's latch. -/
def execRdsrCyclo (x : YArgs) (s : State) : Res :=
  onIssue s fun i _ =>
    let n := (s.hearth (hearthOf i.stove)).cycles
    s.upd i fun f =>
      let g := runLanes i f x.guard x.d 1 fun _ => { val := (n.setWidth 32).setWidth 64 }
      if i.active x.guard = 0 then g else { g with cycLatch := (n >>> 32).setWidth 32 }

/-- The write of a special register in the acting lanes, or the cause that refuses it (11 R269, R270). -/
def Flue.writeSpecial (f : Flue) (c : Src) (x : YArgs) (act : LaneMask) : Except Nat Flue :=
  let v := c.word x.a (lowLane act)
  match x.idx.toNat with
  | 0x13 => .ok { f with fpst := SMap.setAll f.fpst ((lanesOf act).map fun l => (l, (c.word x.a l).setWidth 6)) }
  | 0x14 => if 4 < (v.extractLsb' 0 3).toNat then .error cILLEGAL else .ok { f with fpmode := v.extractLsb' 0 3 }
  | 0x15 => .ok { f with ydl := v, ycount := 0 }
  | 0x17 => if f.phase = .handler then .ok { f with hpc := c.read x.a .z64 (lowLane act), hpcWritten := true } else .error cPRIV
  | _ => .error cPRIV

/-- WRSR. -/
def wrsrOp (x : YArgs) (s : State) : Res :=
  onFlue s fun i f =>
    let act := i.active x.guard
    if act = 0 then f.finish i 0
    else match f.writeSpecial (i.src x.lit) x act with
      | .ok g => g.finish i 0
      | .error c => (f.raise i c act).finish i act

def execWrsr (x : YArgs) (s : State) : Res := wrsrOp x s

/-- WRSR of sr.ydl (11 R269, 13 R314): the deadline, and the yield counter starts again. -/
def execWrsrYdl (x : YArgs) (s : State) : Res :=
  onFlue s fun i f =>
    let act := i.active x.guard
    let g := f.finish i 0
    if act = 0 then g else { g with ydl := (i.src x.lit).word x.a (lowLane act), ycount := 0 }

end Sys2Proof.Machine
end

