-- ==== Sys2Proof/Machine/Switch.lean ====
section
/-! DEFINITION. Leaving and entering stoves (13 R309-R322, 17 R381-R387): save pages, flues switched out alone, groups switched
out whole, restores, and flues that leave with nothing saved. -/

namespace Sys2Proof.Machine

/-! ### Save pages (13 R320-R322) -/

/-- The save pages that a context's save area has (13 R320). -/
def Context.savePages (c : Context) : Nat := (min c.saveSize (98304 + 2 ^ 31) - 98304) / 4096

/-- The lowest free run of `n` pages (13 R321), from a position, given the taken runs in rising order. -/
def freeRun (total n : Nat) : Nat → List (Nat × Nat) → Option Nat
  | pos, [] => if pos + n ≤ total then some pos else none
  | pos, r :: rs => if pos + n ≤ r.1 then some pos else freeRun total n (max pos (r.1 + r.2)) rs

/-- Insert a run in rising order. -/
def insertRun (r : Nat × Nat) : List (Nat × Nat) → List (Nat × Nat)
  | [] => [r]
  | q :: t => if r.1 < q.1 then r :: q :: t else q :: insertRun r t

/-- The lines of a run of save pages: the first, and the one after the last. -/
def Context.runLines (c : Context) (r : Nat × Nat) : Nat × Nat :=
  ((c.saveBase + 98304 + 4096 * r.1) / 128, (c.saveBase + 98304 + 4096 * (r.1 + r.2)) / 128)

/-- The lines of a thread's image (13 R320). -/
def Context.threadLines (c : Context) (t : Nat) : Nat × Nat :=
  ((c.saveBase + 16384 + 1024 * t) / 128, (c.saveBase + 16384 + 1024 * (t + 1)) / 128)

/-- A line of a range fails its check. -/
def State.badLines (s : State) (ls : Nat × Nat) : Bool :=
  let on := fun (l : Nat) => ls.1 ≤ l && l < ls.2
  s.uncorr.any (fun x => on x.1) || s.side.any fun x => on x.1 && s.tagFails x.1
/-- An image overwrites its lines: none of them is uncorrectable any more (09 R223). -/
def State.freshLines (s : State) (ls : Nat × Nat) : State :=
  let on := fun (l : Nat) => ls.1 ≤ l && l < ls.2
  { s.resealed on with uncorr := s.uncorr.filter fun x => !on x.1 }

/-- Take a run of pages for an image of a context. -/
def State.takeRun (s : State) (cid n : Nat) : Option ((Nat × Nat) × State) :=
  match s.ctx? cid with
  | none => none
  | some c =>
    if n = 0 then some ((0, 0), s)
    else match freeRun c.savePages n 0 c.saveRuns with
      | none => none
      | some p => some ((p, n), (s.setCtx cid { c with saveRuns := insertRun (p, n) c.saveRuns }).freshLines (c.runLines (p, n)))

/-- A line of one of the runs fails its tag (13 R319). -/
def State.badRuns (s : State) (cid : Nat) (rs : List (Nat × Nat)) : Bool :=
  match s.ctx? cid with
  | none => false
  | some c => rs.any fun r => s.badLines (c.runLines r)

/-- Give pages back to the page map. -/
def State.giveRuns (s : State) (cid : Nat) (rs : List (Nat × Nat)) : State :=
  s.modCtx cid fun c => { c with saveRuns := c.saveRuns.filter fun r => !rs.contains r }

/-- Granules of an image (13 R321): frames that are not spilled, and the handler frame in handler mode. -/
def Flue.savedGranules (f : Flue) : Nat :=
  (f.frames.foldl (fun n fr => if fr.spilled then n else n + fr.demand / 8) 0) + (if f.phase = .handler then 2 else 0)
/-- Save pages of a flue image (13 R321). -/
def Flue.imagePages (f : Flue) : Nat := 2 + (f.savedGranules + 3) / 4

/-! ### A flue alone -/

/-- A flue as it is saved (13 R309, R318): AWWAITs complete, the region is discarded and its lanes stand at its entry,
rendezvous, latch and flags are dropped, a call or refill under way is given up. Pending causes are saved in HANDLER only; of
the clauses that the flue has issued those stay that its program counters name. -/
def Flue.away (die : Die) (f : Flue) : Flue :=
  let g := awComplete die f 0xFFFFFFFF#32
  let h : Flue := if g.regionOpen then g.discard.toEntry else g
  let k : Flue := { h with pending := if h.phase = .handler then h.pending else [] }
  { k with rvs := [], l := [], lown := [], flags := [], call := none, granted := false, pageWait := none, ringWait := false, stays := false,
           phase := if h.phase = .frameWait then .run else h.phase, preempt := false, halt := false, sliceEnd := false, hlimit := 0,
           passed := [], promoted := [], clauses := k.clauses.filter k.uses }

/-- What a save outside HANDLER does not keep (13 R318): `sr.clanes`, `sr.faddrlo`, `sr.faddrhi` and `sr.hpc` hold free values
afterwards, from the n-th on (assumption 9). -/
def Flue.unsaved (f : Flue) (n : Nat) : Flue :=
  if f.phase = .handler then f
  else { f with clanes := Config.freeWord n, faddr := Config.freeWord (n + 1) ++ Config.freeWord (n + 2)
                hpc := Config.freeWord (n + 3) ++ Config.freeWord (n + 4), hframe := [] }

/-- A flue as it is restored (13 R314, R318): the yield counter starts again, results that waited are written. `n` numbers the
free values, `stamp` is the island cycle, since which a flue whose frame is spilled waits. -/
def Flue.back (f : Flue) (stamp n : Nat) : Flue := { f.takeAnswers.unsaved n with ycount := 0, l := [], waitStamp := stamp }

/-- Withdraw the gang arrivals of a flue (10 R248). -/
def withdraw (latch : List GangRv) (slot : Nat) : List GangRv :=
  (latch.map fun rv => { rv with arrivals := rv.arrivals.filter fun (a : Nat × GangArrival) => a.2.slot != slot }).filter
    fun rv => !rv.arrivals.isEmpty

/-- A flue leaves its slot; what it was doing at the stove's rendezvous latch and in its escalation unit goes with it. -/
def State.vacate (s : State) (stove slot : Nat) : State :=
  let st := s.stove stove
  s.setStove stove { st with flues := Tab.del st.flues slot, latch := withdraw st.latch slot,
                             esc := st.esc.filter fun e => e.slot != slot }

/-- Count a region that a switch-out discards (14 R341). -/
def State.countDiscard (s : State) (f : Flue) : State := if f.regionOpen then s.count f.cid 12 else s

/-- The recall of a flue that leaves is due at once: slot pre-emption takes back what it took when it can (13 R315), and room in
the ring that came before the flue has left is not missed (11 R268). -/
def State.dueNow (s : State) (part : Nat) (why : OutWhy) : Bool :=
  match why with
  | .pre => true
  | .ring => (match s.part? part with | some p => !ringFull p | none => false)
  | .page _ => false
  | .barrier _ => false

/-- The save pages that a flue takes when it leaves alone, the header page of its group among them (13 R321). -/
def Group.alonePages (g : Group) (f : Flue) : List Nat := [if g.headerRun.isSome then 0 else 1, f.imagePages]

/-- Switch one flue out, its group staying resident (13 R311, R315, 11 R268); `none` when the save area has no room
(13 R322). -/
def State.flueOut (s : State) (stove slot : Nat) (why : OutWhy) : Option State :=
  match s.flue? stove slot with
  | none => none
  | some f =>
    match s.group? stove f.group with
    | none => none
    | some g =>
      match s.takeRun f.cid (if g.headerRun.isSome then 0 else 1) with
      | none => none
      | some (h, s1) =>
        match s1.takeRun f.cid f.imagePages with
        | none => none
        | some (r, s2) =>
          let g1 := { g with
            headerRun := if g.headerRun.isSome then g.headerRun else some h
            saved := Tab.put g.saved f.gflue { flue := f.away (s.die (dieOf stove)), why := why, due := s.dueNow f.part why, run := r } }
          some ((((s2.countDiscard f).vacate stove slot).setGroup stove f.group g1).forward f.cid)

/-- The lowest free slot of a stove. -/
def Stove.freeSlot (st : Stove) : Option Nat := (List.range 32).find? fun j => (Tab.get? st.flues j).isNone
/-- The free slots, lowest first. -/
def Stove.freeSlots (st : Stove) : List Nat := (List.range 32).filter fun j => (Tab.get? st.flues j).isNone

/-- Restore a flue that was switched out alone to a free slot of its stove (13 R315). Its image's pages are free again; the header
page stays with the group (13 R321). Granules that a waiting request is to have are not taken (05 R117). -/
def State.flueIn (s : State) (stove gid gfl : Nat) : Option State :=
  match s.group? stove gid with
  | none => none
  | some g =>
    match Tab.get? g.saved gfl, (s.stove stove).freeSlot with
    | some v, some slot =>
      if (s.stove stove).freeForNew < v.flue.granules then none
      else
        let g1 := { g with saved := Tab.del g.saved gfl }
        let s1 := (s.giveRuns v.flue.cid [v.run]).setGroup stove gid g1
        some ({ s1.setFlue stove slot (v.flue.back (s.islandCycle stove) s.freeIdx) with freeIdx := s.freeIdx + 5 } : State).tick
    | _, _ => none

/-! ### Room (17 R381) -/

/-- Bytes of group shared memory in use, in units of 4 KiB. -/
def Stove.sharedUsed (st : Stove) : Nat := st.groups.foldl (fun n g => n + (g.2.sharedSize + 4095) / 4096) 0
/-- An accumulator row is held by a resident group. -/
def Stove.rowHeld (st : Stove) (r : Nat) : Bool := st.groups.any fun g => g.2.accRow0 ≤ r && r < g.2.accRow0 + g.2.accN
/-- The first row of a free run of `n` rows. -/
def Stove.freeRows (st : Stove) (n : Nat) : Option Nat :=
  if n = 0 then some 0
  else (List.range (129 - n)).find? fun r => (List.range n).all fun j => !st.rowHeld (r + j)
/-- A stove has room (17 R381): slots, shared memory, granules, accumulator rows. Granules that a waiting request is to have are not free
for a dispatch (05 R117). -/
def Stove.room (st : Stove) (flues shared granules rows : Nat) : Bool :=
  flues ≤ st.freeSlots.length && st.sharedUsed + (shared + 4095) / 4096 ≤ 64 && granules ≤ st.freeForNew &&
  (st.freeRows rows).isSome
/-- The lowest free group number of a stove. A group all of whose flues are out holds no slot, so the numbers have no bound (17 R381). -/
def Stove.freeGroup (st : Stove) : Nat :=
  ((List.range st.groups.length).find? fun j => (Tab.get? st.groups j).isNone).getD st.groups.length

/-- The stoves that hold a resident group satisfying a test. -/
def State.stovesWith (s : State) (which : Group → Bool) : List Nat :=
  (s.stoves.filter fun (x : Nat × Stove) => x.2.groups.any fun g => which g.2).map (·.1)

/-- STOVES of a kernel control block follows the kernel's groups (16 R360). -/
def State.countStoves (s : State) (part kslot : Nat) : State :=
  match s.kernel? part kslot with
  | some k => s.setKernel part kslot { k with stoves := (s.stovesWith fun g => g.part == part && g.kslot == kslot).length }
  | none => s

/-! ### Groups switched out whole (13 R316, 17 R383, R387) -/

/-- Where an operand slot lies: 16 KiB and its annex of 2 KiB (10 R250). -/
def slotBase (k : Nat) : Nat := 18432 * k

/-- The part of a memory between two addresses. -/
def Memory.part (m : Memory) (a n : Nat) : Memory := m.filter fun p => a ≤ p.1 && p.1 < a + n

/-- The operand slots that a group's gangs hold. -/
def Stove.slotsOf (st : Stove) (gid : Nat) : Tab Claim := st.claims.filter fun c => c.2.held && c.2.group == gid

/-- Save pages of a group's own images (13 R321): shared memory, slots, accumulator rows. -/
def groupPages (st : Stove) (gid : Nat) (g : Group) : List Nat :=
  [(g.sharedSize + 4095) / 4096, ((st.slotsOf gid).length * 9 + 1) / 2, g.accN]

/-- The resident flues of a group, by `sr.gflue`. -/
def Stove.fluesOf (st : Stove) (gid : Nat) : Tab Flue :=
  st.flues.foldl (fun t p => if p.2.group == gid then Tab.put t p.2.gflue p.2 else t) []
/-- The slots of a group. -/
def Stove.slotsIn (st : Stove) (gid : Nat) : List Nat := (st.flues.filter fun p => p.2.group == gid).map (·.1)

/-- Remove a group and its flues, claims and rows from a stove. -/
def State.clearGroup (s : State) (stove gid : Nat) : State :=
  let s1 := ((s.stove stove).slotsIn gid).foldl (fun s j => s.vacate stove j) s
  let st := s1.stove stove
  s1.setStove stove { st with
    groups := Tab.del st.groups gid,
    claims := Tab.mapVals (fun (c : Claim) => if c.held && c.group == gid then { c with held := false } else c) st.claims,
    latch := st.latch.filter fun rv => rv.group != gid,
    spill := match st.spill with
      | some j => if (Tab.get? st.flues j).isSome then some j else none
      | none => none }

/-- Take pages for a list of images. -/
def takeRuns (cid : Nat) : List Nat → State → Option (List (Nat × Nat) × State)
  | [], s => some ([], s)
  | n :: ns, s =>
    match s.takeRun cid n with
    | none => none
    | some (r, s1) => (takeRuns cid ns s1).map fun q => (r :: q.1, q.2)

/-- Switch a group out whole into its partition's pool (13 R316, 17 R383); `none` when the save area has no room. Flues that
were out alone go with it, and their wake-up records are void (18 R395). The stove's posted writes are applied first: the group may
come back on another stove, whose loads have to see its stores (09 R207). -/
def State.groupOut (s : State) (stove gid : Nat) : Option State :=
  match s.group? stove gid with
  | none => none
  | some g =>
    let st := s.stove stove
    let here := st.fluesOf gid
    match takeRuns g.cid ((if g.headerRun.isSome then 0 else 1) :: groupPages st gid g ++ here.map fun p => p.2.imagePages)
        (s.release stove) with
    | none => none
    | some (rs, s1) =>
      let out := here.map fun (p : Nat × Flue) => (p.1, p.2.away (s.die (dieOf stove)))
      let all := g.saved.foldl (fun t (p : Nat × SavedFlue) => Tab.put t p.1 p.2.flue) out
      let claims := st.slotsOf gid
      let w : SwitchedGroup := {
        group := { g with saved := [], headerRun := none, stove := s.lstove stove,
                          barriers := Tab.mapVals (fun (b : Barrier) => { b with wake := 0 }) g.barriers }
        flues := all
        claims := claims
        slots := claims.foldl (fun (m : Memory) c => m ++ Memory.part st.slots (slotBase c.1) 18432) []
        acc := st.acc.filter fun p => g.accRow0 * 1024 ≤ p.1 && p.1 < (g.accRow0 + g.accN) * 1024
        runs := rs ++ g.headerRun.toList ++ g.saved.map fun (p : Nat × SavedFlue) => p.2.run }
      let s2 := here.foldl (fun (s : State) (p : Nat × Flue) => (s.countDiscard p.2).count g.cid 13) s1
      let s3 := (s2.clearGroup stove gid).forward g.cid
      match s3.part? g.part with
      | none => none
      | some p => some ((s3.setPart g.part { p with switched := p.switched ++ [w] }).countStoves g.part g.kslot)

/-- Granules that the flues of a switched-out group need. -/
def SwitchedGroup.granules (w : SwitchedGroup) : Nat := w.flues.foldl (fun n f => n + f.2.granules) 0

/-- A stove has room for a switched-out group: R381, and the operand slots it held are free (10 R250). -/
def Stove.roomFor (st : Stove) (w : SwitchedGroup) : Bool :=
  st.room w.flues.length w.group.sharedSize w.granules w.group.accN &&
  w.claims.all fun c => !(Tab.getD st.claims c.1 {}).held

/-- Restore a group on a stove with room (17 R383). L1 and constant-cache lines that the stove holds of its context go: what its flues have
seen on another stove they still see (12 R287-R289). -/
def State.groupIn (s : State) (stove : Nat) (w : SwitchedGroup) : State :=
  let st := s.stove stove
  let gid := st.freeGroup
  let row := (st.freeRows w.group.accN).getD 0
  let flues := (st.freeSlots.zip w.flues).zipIdx.foldl (fun t (p : (Nat × Nat × Flue) × Nat) =>
    Tab.put t p.1.1 { p.1.2.2.back (s.islandCycle stove) (s.freeIdx + 5 * p.2) with group := gid }) st.flues
  let acc := w.acc.foldl (fun m p => SMap.set m (p.1 - w.group.accRow0 * 1024 + row * 1024) p.2) st.acc
  let cleared := w.claims.foldl (fun (m : Memory) c => Memory.clear m (slotBase c.1) 18432) st.slots
  let s1 := s.setStove stove { st with
    flues := flues
    groups := Tab.put st.groups gid { w.group with accRow0 := row }
    claims := w.claims.foldl (fun t c => Tab.put t c.1 { c.2 with group := gid }) st.claims
    slots := w.slots.foldl (fun m p => Memory.setByte m p.1 p.2) cleared
    acc := acc
    l1 := dropCid st.l1 w.group.cid
    kcache := dropCid st.kcache w.group.cid }
  ({ s1.giveRuns w.group.cid w.runs with freeIdx := s.freeIdx + 5 * w.flues.length } : State).tick.countStoves w.group.part w.group.kslot

/-! ### Leaving with nothing saved -/

/-- A kernel loses a live group (17 R385, R386); a spawned group's window is free again (15 R493). -/
def State.lessLive (s : State) (g : Group) : State :=
  match s.kernel? g.part g.kslot with
  | none => s
  | some k => (s.setKernel g.part g.kslot { k with
      live := k.live - 1, windows := k.windows.filter fun w => w != g.window || !g.record.spawned }).countStoves g.part g.kslot

/-- A resident group is dropped (17 R386), the open regions of its flues being discarded (13 R309, 14 R341). -/
def State.loseGroup (s : State) (stove gid : Nat) : State :=
  match s.group? stove gid with
  | none => s
  | some g =>
    let runs := g.headerRun.toList ++ g.saved.map fun (p : Nat × SavedFlue) => p.2.run
    let s0 := ((s.stove stove).fluesOf gid).foldl (fun (s : State) (p : Nat × Flue) => s.countDiscard p.2) s
    (((s0.clearGroup stove gid).giveRuns g.cid runs).lessLive g).hearthSweep (hearthOf stove)

/-- Every resident and switched-out group that satisfies a test is dropped. -/
def State.loseGroups (s : State) (which : Group → Bool) : State :=
  let here := (s.stoves.map fun (x : Nat × Stove) => (x.2.groups.filter fun g => which g.2).map fun g => (x.1, g.1)).flatten
  let s1 := here.foldl (fun s p => s.loseGroup p.1 p.2) s
  let out := (s1.parts.map fun (x : Nat × Partition) => x.2.switched.filter fun w => which w.group).flatten
  let s2 := { s1 with parts := s1.parts.map fun (x : Nat × Partition) =>
    (x.1, { x.2 with switched := x.2.switched.filter fun w => !which w.group }) }
  let s3 := out.foldl (fun s w => (s.giveRuns w.group.cid w.runs).lessLive w.group) s2
  if out.any fun w => w.group.mmah then s3.hearths.foldl (fun (s : State) (x : Nat × Hearth) => s.hearthSweep x.1) s3 else s3

end Sys2Proof.Machine
end

