-- ==== Sys2Proof/Machine/Kernel.lean ====
section
/-! DEFINITION. Kernels and their records (16, 17): launch records, dependences, formation, join counters, taking, starting
and retiring a kernel, and the pop of a ready entry by a stove. -/

namespace Sys2Proof.Machine

/-! ### What the device reads and writes by virtual address -/

/-- The end of a device access. -/
inductive DevRes (α : Type) where
  | ok (a : α)
  | cause (c : Nat)
  | wait
  deriving DecidableEq, Repr

/-- Translate an address of a context for the device itself, judged as an access of the context (19 R403, R408). -/
def State.devPa (s : State) (cid : Nat) (va : DWord) (k : Acc) : Xl :=
  if !canonical va then .cause cXLATE
  else match s.walk cid va with
    | .miss _ _ e => if pteDemand e || ptePaged e then .wait else .cause cXLATE
    | .rsv _ => .cause cPTRSV
    | .uncorr _ => .cause cUNCORR
    | .leaf lvl addr e =>
      let a := va.toNat % 2 ^ 57
      let t := s.entryOf cid a lvl addr e
      judge cid k false t (t.pa + (a - t.va))

/-- Read bytes of a context in pieces that do not cross 64 bytes. The fuel bounds the pieces. -/
def State.devReadFuel (s : State) (cid : Nat) : Nat → DWord → Nat → DevRes (List Byte)
  | 0, _, _ => .ok []
  | fuel + 1, va, n =>
    if n = 0 then .ok []
    else
      let k := min n (64 - va.toNat % 64)
      match s.devPa cid va .load with
      | .cause c => .cause c
      | .wait => .wait
      | .ok pa =>
        match paKind pa with
        | .hbm =>
          if s.bad pa then .cause cUNCORR
          else match s.devReadFuel cid fuel (va + BitVec.ofNat 64 k) (n - k) with
            | .ok bs => .ok (Memory.read s.mem pa k ++ bs)
            | r => r
        | _ => .cause cXLATE

/-- The lookups at the slices of a read of a context (12 R278). The fuel bounds the pieces. -/
def State.devTouchFuel (s : State) (cid src : Nat) : Nat → DWord → Nat → State
  | 0, _, _ => s
  | fuel + 1, va, n =>
    if n = 0 then s
    else
      let k := min n (64 - va.toNat % 64)
      let s1 := match s.devPa cid va .load with
        | .ok pa => s.touch cid (pa / 128) src
        | _ => s
      s1.devTouchFuel cid src fuel (va + BitVec.ofNat 64 k) (n - k)
/-- What a read of `n` bytes of a context by a port does at the slices. -/
def State.devTouch (s : State) (cid : Nat) (va : DWord) (n : Nat) (src : Nat := portControl) : State :=
  s.devTouchFuel cid src (n / 64 + 2) va n

/-- Read `n` bytes of a context. -/
def State.devRead (s : State) (cid : Nat) (va : DWord) (n : Nat) : DevRes (List Byte) := s.devReadFuel cid (n / 64 + 2) va n

/-- Write bytes of a context, each piece as a generic write at its slice. -/
def State.devWriteFuel (s : State) (cid : Nat) : Nat → DWord → List Byte → State
  | 0, _, _ => s
  | _ + 1, _, [] => s
  | fuel + 1, va, b :: bs =>
    let k := 64 - va.toNat % 64
    let s1 := match s.devPa cid va .store with
      | .ok pa => s.coreWrite cid pa ((b :: bs).take k)
      | _ => s
    s1.devWriteFuel cid fuel (va + BitVec.ofNat 64 k) ((b :: bs).drop k)
/-- Write bytes of a context. -/
def State.devWrite (s : State) (cid : Nat) (va : DWord) (bs : List Byte) : State :=
  s.devWriteFuel cid (bs.length / 64 + 2) va bs

/-- Whether a context may write a range: the first piece that it may not gives the answer. -/
def State.devWritable (s : State) (cid : Nat) : Nat → DWord → Nat → DevRes Unit
  | 0, _, _ => .ok ()
  | fuel + 1, va, n =>
    if n = 0 then .ok ()
    else
      let k := min n (4096 - va.toNat % 4096)
      match s.devPa cid va .store with
      | .cause c => .cause c
      | .wait => .wait
      | .ok _ => s.devWritable cid fuel (va + BitVec.ofNat 64 k) (n - k)

/-- A range lies in pages of a context that it may write, in the package's memory: peers' and devices' windows are no pages of a context
(16 R368, 12 R297). -/
def State.hostWritable (s : State) (cid : Nat) : Nat → DWord → Nat → DevRes Unit
  | 0, _, _ => .ok ()
  | fuel + 1, va, n =>
    if n = 0 then .ok ()
    else
      let k := min n (4096 - va.toNat % 4096)
      match s.devPa cid va .store with
      | .cause c => .cause c
      | .wait => .wait
      | .ok pa => if paKind pa = .hbm then s.hostWritable cid fuel (va + BitVec.ofNat 64 k) (n - k) else .cause cXLATE

/-- A range that the device writes for a context is not resident yet. -/
def State.writeWaits (s : State) (cid : Nat) (va : DWord) (n : Nat) : Bool :=
  match s.devWritable cid (n / 4096 + 2) va n with
  | .wait => true
  | _ => false

/-- The firmware asks the host for the pages of a range that are paged out (19 R412). -/
def State.wantRange (s : State) (cid : Nat) (va : DWord) (n : Nat) : State :=
  (List.range ((va.toNat % 4096 + n + 4095) / 4096)).foldl (fun (s : State) j =>
    let p := va + BitVec.ofNat 64 (4096 * j)
    match s.walk cid p with
    | .miss _ _ e => if ptePaged e then s.say (.pageInRequest cid p) else s
    | _ => s) s

/-- A page that is paged out is asked of the host (19 R412). -/
def State.askPage (s : State) (cid : Nat) (va : DWord) : State :=
  match s.walk cid va with
  | .miss _ _ e => if ptePaged e then s.say (.pageInRequest cid va) else s
  | _ => s

/-- Little-endian fields of a record. -/
def fieldNat (bs : List Byte) (off n : Nat) : Nat := leNat ((bs.drop off).take n)
def field32 (bs : List Byte) (off : Nat) : Word := BitVec.ofNat 32 (fieldNat bs off 4)
def field64 (bs : List Byte) (off : Nat) : DWord := BitVec.ofNat 64 (fieldNat bs off 8)
/-- Bytes of a range that the layout says are zero. -/
def zeroBytes (bs : List Byte) (off n : Nat) : Bool := ((bs.drop off).take n).all fun b => b == 0
/-- A signed field of `n` bytes. -/
def fieldInt (bs : List Byte) (off n : Nat) : Int :=
  let v := fieldNat bs off n
  if 2 ^ (8 * n - 1) ≤ v then (v : Int) - (2 ^ (8 * n) : Nat) else v

/-! ### Launch records (15 R345) -/

/-- The fields of a launch record. -/
def parseLaunch (b : List Byte) : Launch where
  code := field64 b 0
  args := field64 b 8
  gx := fieldNat b 16 4
  gy := fieldNat b 20 4
  gz := fieldNat b 24 4
  flues := fieldNat b 28 1
  demand := fieldNat b 29 1
  prio := BitVec.ofNat 8 (fieldNat b 30 1)
  fdom := BitVec.ofNat 8 (fieldNat b 31 1)
  shared := fieldNat b 32 4
  spill := fieldNat b 36 4
  privsz := fieldNat b 40 4
  accRows := fieldNat b 44 2
  scpBlk := fieldNat b 46 2
  privBase := field64 b 48
  pgtab := field64 b 56
  deps := field64 b 64
  handler := field64 b 72
  done := field64 b 80
  flags := field32 b 88
  maxStoves := fieldNat b 92 4
  share := fieldNat b 96 4
  tag := field32 b 100
  wq := fieldNat b 104 2
  wseq := field32 b 108

/-- The limits of R345. A fault domain of 3 in an override is no domain (15 R354). A WQ names a queue that the context has (15 R352). -/
def launchOk (l : Launch) (raw : List Byte) (named : Nat → Bool) : Bool :=
  l.code.toNat % 64 == 0 && canonical l.code && l.args.toNat % 64 == 0 && canonical l.args &&
  1 ≤ l.gx && 1 ≤ l.gy && 1 ≤ l.gz && l.gx * l.gy * l.gz < 2 ^ 32 &&
  1 ≤ l.flues && l.flues ≤ 32 && 8 ≤ l.demand && l.demand ≤ 64 && l.demand % 8 == 0 &&
  !(l.fdom.getLsbD 7 && l.fdom.extractLsb' 0 2 == 3#2) && l.share ≤ 65535 && l.shared ≤ 262144 && l.spill % 4 == 0 &&
  l.privsz % 4096 == 0 && 32 * l.spill ≤ l.privsz && l.accRows ≤ 128 && l.scpBlk ≤ 1024 &&
  l.privBase.toNat % 4096 == 0 && l.done.toNat % 16 == 0 && l.flags >>> 1 == 0 &&
  zeroBytes raw 106 2 && zeroBytes raw 112 16 && (l.wq == 0xFFFF || named l.wq)

/-! ### Inheritance (16 R357) -/

/-- A field that a byte with bit 7 overrides. -/
def inheritByte (a b : Byte) (n : Nat) (root : Nat) : Nat :=
  if a.getLsbD 7 then (a.extractLsb' 0 7).toNat % 2 ^ n else if b.getLsbD 7 then (b.extractLsb' 0 7).toNat % 2 ^ n else root
/-- A field that a non-zero value overrides. -/
def inheritNat (a b c d : Nat) : Nat := if a ≠ 0 then a else if b ≠ 0 then b else if c ≠ 0 then c else d
/-- The handler in force. -/
def inheritHandler (a b c : DWord) : DWord := if a ≠ 0 then a else if b ≠ 0 then b else c

/-! ### Dependences (16 R365, R366) -/

/-- A map. -/
def parseMap (b : List Byte) : DepMap where
  pbmap := field64 b 0
  mul := [fieldInt b 8 2, fieldInt b 10 2, fieldInt b 12 2]
  sh := [fieldNat b 14 1, fieldNat b 15 1, fieldNat b 16 1]
  w := [fieldNat b 18 2, fieldNat b 20 2, fieldNat b 22 2]
  ofs := [fieldInt b 24 4, fieldInt b 28 4, fieldInt b 32 4]
  tfirst := fieldNat b 36 1
  tcount := fieldNat b 37 1

/-- The limits of R366. -/
def mapOk (m : DepMap) (b : List Byte) : Bool :=
  m.sh.all (fun x => x ≤ 15) && m.w.all (fun x => 1 ≤ x) && m.tfirst ≤ 63 && 1 ≤ m.tcount && m.tcount ≤ 64 &&
  zeroBytes b 17 1 && zeroBytes b 38 2 && (m.w.foldl (· * ·) 1) * m.tcount ≤ 65536

/-- Coordinate `d` of a linear index in a grid (16 R367). -/
def coordOf (l : Launch) (i d : Nat) : Nat :=
  if d = 0 then i % l.gx else if d = 1 then i / l.gx % l.gy else i / l.gx / l.gy

/-- The first producer coordinate that a map names along `d` for a consumer coordinate (16 R366). -/
def mapBase (m : DepMap) (c d : Nat) : Int := ((c : Int) * m.mul.getD d 0) / ((2 ^ m.sh.getD d 0 : Nat) : Int) + m.ofs.getD d 0

/-- A producer's share of its grid on this package (16 R371). -/
def inShare (k : Kernel) (i : Nat) : Bool := k.gfirst ≤ i && i < k.gfirst + k.gcount

/-- A map names tile `t` of the producer's group `p` for the consumer's group `c` (16 R366). -/
def namesPair (m : DepMap) (cons prod : Kernel) (c p t : Nat) : Bool :=
  m.tfirst ≤ t && t < m.tfirst + m.tcount && t < prod.ntiles && inShare prod p &&
  (List.range 3).all fun d =>
    let b := mapBase m (coordOf cons.launch c d) d
    let x : Int := coordOf prod.launch p d
    b ≤ x && x < b + m.w.getD d 0

/-- The groups of the producer that a map names for a consumer's group, in its grid and share. -/
def namedGroups (m : DepMap) (cons prod : Kernel) (c : Nat) : List Nat :=
  let along := fun (d ext : Nat) => (List.range (m.w.getD d 0)).filterMap fun k =>
    let x := mapBase m (coordOf cons.launch c d) d + k
    if 0 ≤ x && x < ext then some x.toNat else none
  let l := prod.launch
  (((along 2 l.gz).map fun z => ((along 1 l.gy).map fun y => (along 0 l.gx).map fun x => x + l.gx * (y + l.gy * z)).flatten).flatten).filter
    (inShare prod)

/-- The byte of bit `j` of a bitmap block is not resident. -/
def State.bitAway (s : State) (cid : Nat) (obmap : DWord) (j : Nat) : Bool :=
  match s.devRead cid (obmap + BitVec.ofNat 64 (16 + j / 8)) 1 with
  | .wait => true
  | _ => false
/-- Bit `j` of a kernel's bitmap block (16 R368). -/
def State.tileBit (s : State) (cid : Nat) (obmap : DWord) (j : Nat) : Bool :=
  match s.devRead cid (obmap + BitVec.ofNat 64 (16 + j / 8)) 1 with
  | .ok (b :: _) => b.getLsbD (j % 8)
  | _ => false
/-- Set bit `j`. -/
def State.setTileBit (s : State) (cid : Nat) (obmap : DWord) (j : Nat) : State :=
  match s.devRead cid (obmap + BitVec.ofNat 64 (16 + j / 8)) 1 with
  | .ok (b :: _) => s.devWrite cid (obmap + BitVec.ofNat 64 (16 + j / 8)) [b ||| BitVec.ofNat 8 (2 ^ (j % 8))]
  | _ => s

/-- A kernel of a partition by its identity. -/
def Partition.kernelUid (p : Partition) (uid : Nat) : Option Kernel := (p.kernels.find? fun k => k.2.uid == uid).map (·.2)

/-- Join counter of a grid record at formation (16 R368): the named pairs whose bits are clear. A producer that has left the
kernel table retired OK, and all its bits are set (16 R362). -/
def State.joinAtFormation (s : State) (p : Partition) (k : Kernel) (i : Nat) : Nat :=
  k.maps.foldl (fun n m =>
    match m.producer.bind p.kernelUid with
    | none => n
    | some pr =>
      let tiles := (List.range m.tcount).filterMap fun j => if m.tfirst + j < pr.ntiles then some (m.tfirst + j) else none
      (namedGroups m k pr i).foldl (fun n g =>
        n + (tiles.filter fun t => !pr.bits.contains (g * pr.ntiles + t) && !s.tileBit k.cid pr.obmap (g * pr.ntiles + t)).length) n) 0

/-- A bitmap block that a record's formation reads is not resident, or the blocks' lines that it looks up. -/
def State.formationWaits (s : State) (p : Partition) (k : Kernel) (i : Nat) : Bool :=
  k.maps.any fun m => match m.producer.bind p.kernelUid with
    | none => false
    | some pr => (namedGroups m k pr i).any fun g => s.bitAway k.cid pr.obmap (g * pr.ntiles + m.tfirst) ||
        s.bitAway k.cid pr.obmap (g * pr.ntiles + m.tfirst + m.tcount - 1)
/-- The pages of those blocks that are paged out are asked for. -/
def State.wantBits (s : State) (p : Partition) (k : Kernel) : State :=
  k.maps.foldl (fun (s : State) m => match m.producer.bind p.kernelUid with
    | none => s
    | some pr => s.wantRange k.cid pr.obmap (16 + (pr.launch.gx * pr.launch.gy * pr.launch.gz * pr.ntiles + 7) / 8)) s
/-- The lookups at the slices of those blocks (12 R278). -/
def State.touchBits (s : State) (p : Partition) (k : Kernel) (i : Nat) : State :=
  k.maps.foldl (fun (s : State) m => match m.producer.bind p.kernelUid with
    | none => s
    | some pr => (namedGroups m k pr i).foldl (fun (s : State) g =>
        s.devTouch k.cid (pr.obmap + BitVec.ofNat 64 (16 + (g * pr.ntiles + m.tfirst) / 8)) ((m.tcount + 14) / 8)) s) s

/-! ### Placement hint (17 R377, R378) -/

/-- Where a byte of a context lies when it is mapped and resident, whatever its permissions are (17 R378). -/
def State.mappedPa (s : State) (cid : Nat) (va : DWord) : Option Nat :=
  if !canonical va then none
  else match s.walk cid va with
    | .leaf lvl addr e =>
      let a := va.toNat % 2 ^ 57
      let t := s.entryOf cid a lvl addr e
      some (t.pa + (a - t.va))
    | _ => none

/-- The logical hearth of a partition that the hint of an anchor names. -/
def State.affinity (s : State) (part cid : Nat) (anchor : DWord) : Option Nat :=
  match s.mappedPa cid anchor with
  | some pa =>
    match paKind pa with
    | .hbm =>
      let h := sliceOf pa
      match s.part? part with
      | none => none
      | some p =>
        if p.hearths.contains h then some (s.lhearth h)
        else (p.hearths.filter fun x => x / 8 == h / 8).foldl (fun m x => match m with
          | none => some (s.lhearth x)
          | some y => some (min y (s.lhearth x))) none
    | _ => none
  | _ => none

/-! ### Records -/

/-- Put a record in the lowest free entry of a kernel's array (17 R373). -/
def Kernel.form (k : Kernel) (r : Record) : Option (Nat × Kernel) :=
  match (List.range 4096).find? fun e => (Tab.get? k.records e).isNone with
  | none => none
  | some e => some (e, { k with records := Tab.put k.records e { record := { r with ready := r.join == 0 } } })
/-- Free an entry: its generation rises (17 R373). -/
def Kernel.freeEntry (k : Kernel) (e : Nat) : Kernel :=
  { k with records := Tab.del k.records e, gens := SMap.set k.gens e (SMap.get k.gens e + 1) }
/-- Free entries of a kernel's array. -/
def Kernel.freeEntries (k : Kernel) : Nat := 4096 - k.records.length
/-- The handle of an entry (17 R374). -/
def Kernel.handleOf (k : Kernel) (e : Nat) : Word := BitVec.ofNat 32 (2 ^ 31 + (SMap.get k.gens e).toNat * 4096 + e)

/-- Decrement the join counter of an entry; at zero it is ready (17 R376). -/
def Kernel.decr (k : Kernel) (e n : Nat) : Kernel :=
  { k with records := Tab.modify k.records e fun r =>
      let j := r.record.join - BitVec.ofNat 32 n
      { r with record := { r.record with join := j, ready := j == 0 } } }

/-- Set the bits of a list whose page is resident: those left over, and the state. -/
def State.setBits (s : State) (cid : Nat) (obmap : DWord) (js : List Nat) : List Nat × State :=
  (js.filter fun n => s.bitAway cid obmap n, js.foldl (fun (s : State) n => s.setTileBit cid obmap n) s)

/-- Bits that the kernel table keeps reach their blocks when the page is resident (16 R368). -/
def State.flushBits (s : State) (cid : Nat) : State :=
  s.parts.foldl (fun (s : State) (x : Nat × Partition) => x.2.kernels.foldl (fun (s : State) (y : Nat × Kernel) =>
    if y.2.cid ≠ cid || y.2.bits.isEmpty then s
    else
      let r := s.setBits cid y.2.obmap y.2.bits
      match r.2.kernel? x.1 y.1 with
      | some k => r.2.setKernel x.1 y.1 { k with bits := r.1 }
      | none => r.2) s) s

/-- Release a tile of a kernel's grid group (16 R368): its bit is set, and every consumer record that names the pair counts
one less for each map that names it. While the block's page is not resident the kernel table keeps the bit. -/
def State.releaseTile (s : State) (part : Nat) (k : Kernel) (i t : Nat) : State :=
  if k.obmap = 0 then s
  else
    let j := i * k.ntiles + t
    if k.bits.contains j || s.tileBit k.cid k.obmap j then s
    else
      let r := s.setBits k.cid k.obmap (j :: k.bits)
      let kept := r.1
      let s1 := r.2
      match s1.part? part with
      | none => s1
      | some p =>
        let ks := Tab.mapVals (fun (c : Kernel) =>
          c.records.foldl (fun c e =>
            if e.2.record.spawned then c
            else
              let n := (c.maps.filter fun m => m.producer == some k.uid && namesPair m c k e.2.record.index.toNat i t).length
              if n = 0 then c else c.decr e.1 n) c) p.kernels
        s1.setPart part { p with kernels := Tab.mapVals (fun (c : Kernel) => if c.uid = k.uid then { c with bits := kept } else c) ks }

/-- The record that a handle names (17 R374). -/
def Kernel.byHandle (k : Kernel) (h : Word) : Option (Nat × RecEntry) :=
  let e := h.toNat % 4096
  match Tab.get? k.records e with
  | some r => if r.record.spawned && k.handleOf e == h then some (e, r) else none
  | none => none

/-! ### SPAWN, JOIN, TILEREL (08 R192, R194) -/

/-- How a lane of SPAWN fails. -/
def spawnCause (a : DWord) : Option Nat :=
  if !canonical a then some cXLATE else if a.toNat % 64 ≠ 0 then some cALIGN else none

/-- Form the records of SPAWN's lanes, in ascending order: the handles. -/
def formSpawned (s : State) (part kslot : Nat) (code : DWord) : List (DWord × Word) → List Word × State
  | [] => ([], s)
  | (fr, n) :: rest =>
    match s.kernel? part kslot with
    | none => ([], s)
    | some k =>
      let r : Record := { code := code, frame := fr, join := n, kslot := kslot, spawned := true,
                          affin := s.affinity part k.cid fr }
      match k.form r with
      | none => ([], s)
      | some (e, k1) =>
        let h := k.handleOf e
        let k2 := { k1 with records := Tab.modify k1.records e fun x => { x with record := { x.record with index := h } } }
        let q := formSpawned (s.setKernel part kslot k2) part kslot code rest
        (h :: q.1, q.2)

/-- SPAWN (08 R192). With D `zero` and uniform A and B, R64 of 03 counts `zero` as a scalar destination while R192 names only a scalar D: the
model forms a record for each acting lane, as R192 has it (DESIGN CHOICE, assumption 54). When every acting lane raises a cause no record
is formed, and the model commits nothing (R184 leaves it open: DESIGN CHOICE, assumption 55). -/
def execSpawn (x : CArgs) (s : State) : Res :=
  onIssue s fun i f =>
    let act := i.active x.guard
    outside s i f act (
      let c := i.src x.lit
      let lanes := if x.d.isScalar then (lanesOf act).take 1 else lanesOf act
      match s.kernel? f.part f.kslot with
      | none => s
      | some k =>
        if k.freeEntries < lanes.length then s
        else
          let args := lanes.map fun l => (l, c.read x.a .z64 l, c.word x.b l)
          let spread := fun (l : Nat) => if x.d.isScalar then act else laneBit l
          let mask := fun (e : Nat) => args.foldl (fun m a => if spawnCause a.2.1 == some e then m ||| spread a.1 else m) 0
          let good := args.filter fun a => (spawnCause a.2.1).isNone
          let s0 := if good.isEmpty then s else (s.commit i.stove i.slot).release i.stove
          let r := formSpawned s0 f.part f.kslot (ofsTarget i.header x.ofs) (good.map fun a => (a.2.1, a.2.2))
          let hs := good.zip r.1
          r.2.upd i fun g =>
            let ws := (hs.map fun p => destWrites i.view x.d true (if x.d.isScalar then 0 else p.1.1) 0 [p.2]).flatten
            let g1 := ((g.writeAll ws).raise i cXLATE (mask cXLATE)).raise i cALIGN (mask cALIGN)
            g1.finish i (mask cXLATE ||| mask cALIGN))

/-- Decrement the counter that one lane of JOIN names; false when it raises BOUND. -/
def State.joinLane (s : State) (part kslot : Nat) (h : Word) : Bool × State :=
  match s.kernel? part kslot with
  | none => (false, s)
  | some k =>
    match k.byHandle h with
    | none => (false, s)
    | some (e, r) => if r.record.join = 0 then (false, s) else (true, s.setKernel part kslot (k.decr e 1))

/-- JOIN (08 R192). It commits and releases before its lanes act, those that raise BOUND among them (DESIGN CHOICE, assumption 55). -/
def execJoin (x : CArgs) (s : State) : Res :=
  onIssue s fun i f =>
    let act := i.active x.guard
    outside s i f act (
      let c := i.src x.lit
      let s0 := (s.commit i.stove i.slot).release i.stove
      let r := (lanesOf act).foldl (fun (acc : LaneMask × State) l =>
        let q := acc.2.joinLane f.part f.kslot (c.word x.a l)
        (if q.1 then acc.1 else acc.1 ||| laneBit l, q.2)) (0, s0)
      r.2.upd i fun g => (g.raise i cBOUND r.1).finish i r.1)

/-- A progress event of a kernel's queue (15 R354). -/
def State.progress (s : State) (cid q : Nat) : State :=
  s.modCtx cid fun c => { c with queues := Tab.modify c.queues q fun x => { x with wcount := 0 } }

/-- Tile bits released by a group, and tiles not yet released, by `Group.tiles`. -/
def State.relTile (s : State) (stove gid t : Nat) : State :=
  match s.group? stove gid with
  | none => s
  | some g =>
    if g.record.spawned || g.tiles.getLsbD t then s
    else
      let s1 := s.setGroup stove gid { g with tiles := g.tiles ||| BitVec.ofNat 64 (2 ^ t) }
      match s1.kernel? g.part g.kslot with
      | none => s1
      | some k => s1.releaseTile g.part k g.record.index.toNat t

/-- TILEREL (08 R194). A tile index out of range raises BOUND, and the model then commits nothing (DESIGN CHOICE, assumption 55). -/
def execTilerel (x : CArgs) (s : State) : Res :=
  onIssue s fun i f =>
    let acting := i.groupActs x.guard
    outside s i f acting (
      let t := ((i.src x.lit).word x.a (lowLane i.lanes)).toNat
      let k := (s.kernel? f.part f.kslot).getD {}
      let spawned := (s.groupOf i.stove f).record.spawned
      if !spawned && k.ntiles ≤ t then s.upd i fun g => (g.raise i cBOUND acting).finish i acting
      else
        let s1 := (((s.commit i.stove i.slot).release i.stove).relTile i.stove f.group t).progress f.cid k.queue
        s1.upd i fun g => g.finish i 0)

/-! ### Taking a record (15 R346, R352, 16 R357-R371) -/

/-- A process-group table's header and entries as this package needs them (16 R370, R371): the entry number, the share, NPG
and PGMASK of the one entry that matches. -/
structure PgRead where
  rank : Nat
  gfirst : Nat
  gcount : Nat
  npg : Nat
  mask : BitVec 16

/-- Scan the entries of a process-group table. -/
def State.pgScan (s : State) (cid : Nat) (tab : DWord) (npg : Nat) : Nat → Nat → Option PgRead → DevRes (Option PgRead)
  | 0, _, found => .ok found
  | n + 1, e, found =>
    match s.devRead cid (tab + BitVec.ofNat 64 (64 + 64 * e)) 64 with
    | .cause c => .cause c
    | .wait => .wait
    | .ok b =>
      let mask := BitVec.ofNat 16 (fieldNat b 40 2)
      if !zeroBytes b 42 22 || mask.toNat / 2 ^ npg ≠ 0 then .cause cILLEGAL
      else
        let mine := BitVec.ofNat 256 (leNat (b.take 32)) == Config.identity
        if mine && found.isSome then .cause cILLEGAL
        else s.pgScan cid tab npg n (e + 1)
          (if mine then some ⟨e, fieldNat b 32 4, fieldNat b 36 4, npg, mask⟩ else found)

/-- Read the process-group table of a launch. -/
def State.pgRead (s : State) (cid : Nat) (l : Launch) : DevRes PgRead :=
  if l.pgtab = 0 then .ok ⟨0, 0, l.gx * l.gy * l.gz, 0, 0⟩
  else if l.pgtab.toNat % 64 ≠ 0 then .cause cALIGN
  else match s.devRead cid l.pgtab 64 with
    | .cause c => .cause c
    | .wait => .wait
    | .ok h =>
      let nent := fieldNat h 0 4
      let npg := fieldNat h 4 4
      if nent = 0 || 65536 < nent || npg = 0 || 16 < npg || !zeroBytes h 8 56 then .cause cILLEGAL
      else match s.pgScan cid l.pgtab npg nent 0 none with
        | .cause c => .cause c
        | .wait => .wait
        | .ok none => .cause cILLEGAL
        | .ok (some r) => .ok r

/-- What the dependence block gives (16 R365). -/
structure DepRead where
  ntiles : Nat := 1
  obmap : DWord := 0
  tbase : DWord := 0
  gstride : Nat := 0
  tstride : Nat := 0
  tlen : Nat := 0
  maps : List DepMap := []

/-- Read the dependence block and check that the bitmap block can be written (16 R365, R368). -/
def State.depRead (s : State) (cid : Nat) (l : Launch) : DevRes DepRead :=
  if l.deps = 0 then .ok {}
  else if l.deps.toNat % 64 ≠ 0 then .cause cALIGN
  else match s.devRead cid l.deps 128 with
    | .cause c => .cause c
    | .wait => .wait
    | .ok b =>
      let ntiles := fieldNat b 0 4
      let nmaps := fieldNat b 4 4
      let ob := field64 b 8
      let m0 := (b.drop 48).take 40
      let m1 := (b.drop 88).take 40
      let ms := ((if 1 ≤ nmaps then [m0] else []) ++ (if 2 ≤ nmaps then [m1] else []))
      if ntiles = 0 || 64 < ntiles || 2 < nmaps || ob = 0 || ob.toNat % 64 ≠ 0 || !zeroBytes b 40 8 ||
         (nmaps = 0 && !zeroBytes m0 0 40) || (nmaps < 2 && !zeroBytes m1 0 40) ||
         !(ms.all fun m => mapOk (parseMap m) m) then .cause cILLEGAL
      else
        let bytes := 16 + (l.gx * l.gy * l.gz * ntiles + 7) / 8
        match s.hostWritable cid (bytes / 4096 + 2) ob bytes with
        | .cause c => .cause c
        | .wait => .wait
        | .ok _ => .ok { ntiles := ntiles, obmap := ob, tbase := field64 b 16, gstride := fieldNat b 24 8,
                         tstride := fieldNat b 32 4, tlen := fieldNat b 36 4, maps := ms.map parseMap }

/-- The shape of a kernel that consumers' maps look at. -/
def Kernel.shape (k : Kernel) : ProdShape :=
  { gx := k.launch.gx, gy := k.launch.gy, gz := k.launch.gz, ntiles := k.ntiles, gfirst := k.gfirst, gcount := k.gcount,
    tbase := k.tbase, gstride := k.gstride, tstride := k.tstride }
/-- A map linked to its producer. -/
def DepMap.linkTo (m : DepMap) (k : Kernel) : DepMap := { m with producer := some k.uid, shape := some k.shape }

/-- How a map finds its producer (16 R369). -/
inductive Link where
  | linked (m : DepMap)
  | discard
  | bad
  | wait

/-- Look a map's producer up among the kernels of the context, and else in its block. -/
def State.linkMap (s : State) (p : Partition) (cid : Nat) (m : DepMap) : Link :=
  match p.kernels.find? fun k => k.2.cid == cid && k.2.obmap == m.pbmap && k.2.obmap != 0 with
  | some k => .linked (m.linkTo k.2)
  | none =>
    match s.devRead cid m.pbmap 4 with
    | .cause _ => .bad
    | .wait => .wait
    | .ok b =>
      if leNat b = 1 then .linked { m with satisfied := true }
      else if leNat b = 2 then .discard
      else .linked m

/-- What two maps' outcomes come to: a block that cannot be read is an error of the record whatever the other map says, and a consumer ends
only when every block has been read. -/
def Link.both : Link → Link → Link
  | .bad, _ => .bad
  | _, .bad => .bad
  | .wait, _ => .wait
  | _, .wait => .wait
  | .discard, _ => .discard
  | _, .discard => .discard
  | .linked m, .linked _ => .linked m

/-- Link every map. -/
def State.linkMaps (s : State) (p : Partition) (cid : Nat) : List DepMap → Link × List DepMap
  | [] => (.linked {}, [])
  | m :: ms =>
    let r := s.linkMap p cid m
    let q := s.linkMaps p cid ms
    (r.both q.1, (match r with | .linked m1 => m1 | _ => m) :: q.2)

/-- Write a completion word (15 R347). -/
def State.complete (s : State) (cid : Nat) (done : DWord) (status : Nat) (tag seq : Word) (cause : Nat) : State :=
  if done = 0 || done.toNat % 16 ≠ 0 then s
  else s.devWrite cid done (leBytes 4 status ++ leBytes 4 tag.toNat ++ leBytes 4 seq.toNat ++ leBytes 4 cause)

/-- HEAD rises and the ring entry is free (15 R344). -/
def State.headUp (s : State) (cid q : Nat) : State :=
  s.modCtx cid fun c => { c with queues := Tab.modify c.queues q fun x => { x with head := x.head + 1 } }
/-- RETIRED rises, a progress event (15 R347, 16 R362). -/
def State.retireUp (s : State) (cid q : Nat) : State :=
  (s.modCtx cid fun c => { c with queues := Tab.modify c.queues q fun x => { x with retired := x.retired + 1 } }).progress cid q

/-- The number of stoves of a partition. -/
def State.stoveCount (s : State) (p : Nat) : Nat := (s.partStoves p).length

/-- WAITMASK of a kernel as things stand (16 R360): ORDER, WQ, producers not taken, scratchpad blocks. -/
def State.waitMask (s : State) (part kslot : Nat) (k : Kernel) : BitVec 5 :=
  match s.part? part, s.ctx? k.cid with
  | some p, some c =>
    let order := k.launch.flags.getLsbD 0 && s.parts.any fun (x : Nat × Partition) => x.2.kernels.any fun (o : Nat × Kernel) =>
      !(x.1 == part && o.1 == kslot) && o.2.cid == k.cid && o.2.queue == k.queue && (k.seq - o.2.seq).toNat < 2 ^ 31 && o.2.seq != k.seq
    let wq := k.launch.wq != 0xFFFF && !((Tab.getD c.queues k.launch.wq {}).retired - k.launch.wseq).toNat < 2 ^ 31
    let open1 := fun (j : Nat) => match k.maps[j]? with
      | some m => !m.satisfied && m.producer.isNone
      | none => false
    let dies := (p.hearths.map fun h => h / 8).dedup
    let scp := dies.any fun d => 1024 - (s.die d).blocks.length < k.launch.scpBlk
    BitVec.ofNat 5 ((if order then 1 else 0) + (if wq then 2 else 0) + (if open1 0 then 4 else 0) + (if open1 1 then 8 else 0) +
      (if scp then 16 else 0))
  | _, _ => 0

/-- Consumers whose maps waited for a bitmap block are linked when its kernel is taken (16 R369). -/
def linkWaiting (ks : Tab Kernel) (k : Kernel) : Tab Kernel :=
  if k.obmap = 0 then ks
  else Tab.mapVals (fun (c : Kernel) =>
    if c.cid == k.cid then
      { c with maps := c.maps.map fun m => if m.pbmap == k.obmap && m.producer.isNone && !m.satisfied then m.linkTo k else m }
    else c) ks

/-- WAITMASK of every waiting kernel as things stand (16 R360). -/
def State.refreshMasks (s : State) : State :=
  { s with parts := s.parts.map fun (x : Nat × Partition) => (x.1, { x.2 with
      kernels := x.2.kernels.map fun (y : Nat × Kernel) =>
        (y.1, if y.2.state = .waiting then { y.2 with waitMask := s.waitMask x.1 y.1 y.2 } else y.2) }) }

/-- A record that fails its checks (15 R346): the kernel retires at once with BADREC. -/
def State.badRec (s : State) (cid q : Nat) (l : Launch) (seq : Word) : State :=
  (((s.headUp cid q).complete cid l.done 1 l.tag seq 0).retireUp cid q).refreshMasks

/-- The schedulers of a partition act (21 R439, 22 R445). -/
def State.partRuns (s : State) (p : Partition) : Bool := p.state == .running && !s.fw.frozen
/-- A context whose queues and groups may be taken (14 R325). -/
def Context.eligible (c : Context) : Bool := c.state == .ready || c.state == .running
/-- No seal keeps the queues of a context from taking records and its groups from the stoves (14 R335). -/
def Context.takes (c : Context) : Bool := c.eligible && c.sealing == .none

/-- Take a record that has passed its checks into a kernel control block (16 R357-R361). The first context whose work comes to a partition is
its current one (21 R435). -/
def State.takeRecord (s : State) (part cid q : Nat) (c : Context) (qu : Queue) (p : Partition) (l : Launch) (pg : PgRead)
    (d : DepRead) (maps : List DepMap) (kslot : Nat) (discard : Bool) : State :=
  let k0 : Kernel := {
    uid := s.stamp, cid := cid, queue := q, launch := l,
    state := if discard then .retiring else .waiting
    status := if discard then 3 else 0
    prio := inheritByte l.prio qu.prio 3 c.prio
    fdom := inheritByte l.fdom qu.fdom 2 c.fdom
    maxStoves := inheritNat l.maxStoves qu.maxStoves c.maxStoves (s.stoveCount part)
    share := inheritNat l.share qu.share c.share 1
    handler := inheritHandler l.handler qu.handler c.handler
    seq := qu.head
    nextIdx := pg.gfirst
    ntiles := d.ntiles, srank := pg.rank, obmap := d.obmap, tbase := d.tbase, gstride := d.gstride, tstride := d.tstride
    tlen := d.tlen, gfirst := pg.gfirst, gcount := pg.gcount, npg := pg.npg, pgmask := pg.mask, maps := maps }
  let ks := Tab.put (linkWaiting p.kernels k0) kslot k0
  let s1 := (s.setPart part { p with kernels := ks, current := p.current.orElse fun _ => some cid }).tick
  let s2 := s1.headUp cid q
  let n := l.gx * l.gy * l.gz * d.ntiles
  let s3 := if d.obmap = 0 then s2
    else s2.devWrite cid d.obmap (leBytes 4 0 ++ leBytes 4 n ++ List.replicate 8 0 ++ List.replicate ((n + 7) / 8) 0)
  s3.refreshMasks

/-- The pages of a dependence block and of its bitmap block that are paged out are asked for. -/
def State.wantDeps (s : State) (cid : Nat) (l : Launch) : State :=
  let s1 := s.wantRange cid l.deps 128
  match s.devRead cid l.deps 16 with
  | .ok b => s1.wantRange cid (field64 b 8) (16 + (l.gx * l.gy * l.gz * fieldNat b 0 4 + 7) / 8)
  | _ => s1

/-- The lookups of a launch's tables: the process-group table, the dependence block, the producers' bitmap blocks. -/
def State.launchTouch (s : State) (cid : Nat) (l : Launch) (d : DepRead) : State :=
  let s1 := if l.pgtab = 0 then s
    else match s.devRead cid l.pgtab 4 with
      | .ok b => s.devTouch cid l.pgtab (64 + 64 * leNat b)
      | _ => s
  let s2 := if l.deps = 0 then s1 else s1.devTouch cid l.deps 128
  d.maps.foldl (fun (s : State) m => s.devTouch cid m.pbmap 4) s2

/-- The page of a completion word is not resident yet. -/
def State.doneWaits (s : State) (cid : Nat) (done : DWord) : Bool :=
  done != 0 && done.toNat % 16 == 0 && s.writeWaits cid done 16

/-- KERNEL_TAKE (15 R346, R352, 16 R361): a bound queue takes its next record. -/
def execKernelTake (cid q : Nat) (s : State) : Res :=
  match s.ctx? cid with
  | none => .next s
  | some c =>
    match Tab.get? c.queues q with
    | none => .next s
    | some qu =>
      match s.part? qu.part with
      | none => .next s
      | some p =>
        if qu.state ≠ .bound || qu.head = qu.tail || !c.takes || !s.partRuns p then .next s
        else match (List.range 256).find? fun k => (Tab.get? p.kernels k).isNone with
          | none => .next s
          | some kslot =>
            let va := qu.ring + BitVec.ofNat 64 (qu.head.toNat % qu.size * 128)
            match s.devRead cid va 128 with
            | .wait => .next (s.wantRange cid va 128)
            | .cause _ => .next (s.badRec cid q {} qu.head)
            | .ok raw =>
              let l := parseLaunch raw
              let s := s.devTouch cid va 128
              let bad : Res := if s.doneWaits cid l.done then .next (s.wantRange cid l.done 16) else .next (s.badRec cid q l qu.head)
              if !launchOk l raw (fun n => (Tab.get? c.queues n).isSome) then bad
              else match s.pgRead cid l, s.depRead cid l with
                | .wait, _ => .next (s.wantRange cid l.pgtab (64 * 65537))
                | _, .wait => .next (s.wantDeps cid l)
                | .cause _, _ => bad
                | _, .cause _ => bad
                | .ok pg, .ok d =>
                  let s := s.launchTouch cid l d
                  match s.linkMaps p cid d.maps with
                  | (.wait, _) => .next (d.maps.foldl (fun (s : State) m => s.wantRange cid m.pbmap 4) s)
                  | (.bad, _) => bad
                  | (.discard, ms) => .next (s.takeRecord qu.part cid q c qu p l pg d ms kslot true)
                  | (.linked _, ms) => .next (s.takeRecord qu.part cid q c qu p l pg d ms kslot false)

/-- Give a kernel its scratchpad blocks on every die of its partition (16 R363): the lowest free blocks, reading zero. -/
def State.giveScratch (s : State) (p : Partition) (k : Kernel) : State × Tab (List Nat) :=
  ((p.hearths.map fun h => h / 8).dedup).foldl (fun (acc : State × Tab (List Nat)) d =>
    let die := acc.1.die d
    let bs := ((List.range 1024).filter fun b => (Tab.get? die.blocks b).isNone).take k.launch.scpBlk
    let die1 := { die with
      blocks := bs.foldl (fun t b => Tab.put t b k.cid) die.blocks
      scp := bs.foldl (fun m b => Memory.clear m (b * 65536) 65536) die.scp }
    (acc.1.setDie d die1, Tab.put acc.2 d bs)) (s, [])
/-- Scrub and free a kernel's scratchpad set (16 R362). -/
def State.freeScratch (s : State) (k : Kernel) : State :=
  k.scp.foldl (fun s (x : Nat × List Nat) =>
    let die := s.die x.1
    s.setDie x.1 { die with
      blocks := x.2.foldl (fun t b => Tab.del t b) die.blocks
      scp := x.2.foldl (fun m b => Memory.clear m (b * 65536) 65536) die.scp }) s

/-- KERNEL_START (16 R361): WAITMASK is zero, and the kernel runs. -/
def execKernelStart (part kslot : Nat) (s : State) : Res :=
  match s.part? part, s.kernel? part kslot with
  | some p, some k =>
    let m := s.waitMask part kslot k
    if k.state ≠ .waiting || !s.partRuns p then .next s
    else if m ≠ 0 then .next (s.setKernel part kslot { k with waitMask := m })
    else
      let r := s.giveScratch p k
      .next (r.1.setKernel part kslot { k with state := .running, waitMask := 0, scp := r.2 }).refreshMasks
  | _, _ => .next s

/-! ### Grid records (17 R375) -/

/-- The end of a kernel's share (16 R371). -/
def Kernel.lastIdx (k : Kernel) : Nat := min (k.gfirst + k.gcount) (k.launch.gx * k.launch.gy * k.launch.gz)

/-- The anchor of a grid record (17 R378): the first byte of the first pair that map 0 names, unless R366 ignores that pair. -/
def Kernel.anchor (k : Kernel) (i : Nat) : Option DWord :=
  match k.maps with
  | [] => none
  | m :: _ =>
    match m.shape with
    | none => none
    | some pr =>
      let b := fun d => mapBase m (coordOf k.launch i d) d
      if 0 ≤ b 0 && b 0 < pr.gx && 0 ≤ b 1 && b 1 < pr.gy && 0 ≤ b 2 && b 2 < pr.gz && m.tfirst < pr.ntiles then
        let g := (b 0).toNat + pr.gx * ((b 1).toNat + pr.gy * (b 2).toNat)
        if pr.gfirst ≤ g && g < pr.gfirst + pr.gcount then some (pr.tbase + BitVec.ofNat 64 (g * pr.gstride + m.tfirst * pr.tstride)) else none
      else none

/-- GRID_RECORD_FORMATION (17 R375, R376, 16 R368): the next grid record of a kernel. -/
def execGridRecordFormation (part kslot : Nat) (s : State) : Res :=
  match s.part? part, s.kernel? part kslot with
  | some p, some k =>
    let waiting := (k.records.filter fun e => !e.2.record.spawned).length
    let i := k.nextIdx
    if k.state ≠ .running || k.lastIdx ≤ i || 256 ≤ waiting || k.freeEntries < 1024 || !s.partRuns p ||
       !(match s.ctx? k.cid with | some c => c.takes | none => false) then .next s
    else
      if s.formationWaits p k i then .next (s.wantBits p k)
      else
      let s := s.touchBits p k i
      let r : Record := { code := k.launch.code, frame := k.launch.args, join := BitVec.ofNat 32 (s.joinAtFormation p k i),
                          kslot := kslot, index := BitVec.ofNat 32 i,
                          affin := (k.anchor i).bind fun a => s.affinity part k.cid a }
      match k.form r with
      | none => .next s
      | some (_, k1) => .next (s.setKernel part kslot { k1 with nextIdx := i + 1 })
  | _, _ => .next s

/-- AFFINITY_LAPSE (17 R379): a record of age 2048 loses its hint. -/
def execAffinityLapse (part kslot entry : Nat) (s : State) : Res :=
  match s.kernel? part kslot with
  | none => .next s
  | some k => .next (s.setKernel part kslot { k with records := Tab.modify k.records entry fun r =>
      if r.record.ready && 2048 ≤ r.age then { r with record := { r.record with affLost := true } } else r })

/-! ### Retirement (16 R361, R362) -/

/-- The spawned records that wait for a JOIN: those that a kernel's end counts as dropped (16 R362, 17 R386). -/
def Kernel.unjoined (k : Kernel) : Nat := (k.records.filter fun e => e.2.record.spawned && e.2.record.join != 0).length

/-- A kernel leaves RUNNING or WAITING: its groups go with nothing saved, its records are dropped, and it retires with a status
(15 R355, 16 R361). -/
def State.killKernel (s : State) (part kslot status cause : Nat) : State :=
  match s.kernel? part kslot with
  | none => s
  | some k =>
    if k.state = .retiring then s
    else
      let s1 := s.loseGroups fun g => g.part == part && g.kslot == kslot
      match s1.kernel? part kslot with
      | none => s1
      | some k1 =>
        s1.setKernel part kslot { k1 with
          state := .retiring, status := status, faultCause := cause
          records := [], dropped := min (k1.dropped + k1.unjoined) (2 ^ 32 - 1)
          gens := k1.records.foldl (fun m e => SMap.set m e.1 (SMap.get m e.1 + 1)) k1.gens }

/-- Consumers linked to a producer that ended other than OK end as well (16 R361, R369). -/
def State.endConsumers (s : State) (part uid : Nat) : State :=
  match s.part? part with
  | none => s
  | some p =>
    (p.kernels.filter fun k => k.2.maps.any fun m => m.producer == some uid).foldl (fun s k => s.killKernel part k.1 3 0) s

/-- Apply the posted writes of every stove of a partition: a release of the kernel's groups (16 R362). -/
def State.releaseAll (s : State) (part : Nat) : State := (s.partStoves part).foldl (fun s n => s.release n) s

/-- The steps of R362. -/
def State.retire (s : State) (part kslot : Nat) : State :=
  match s.kernel? part kslot with
  | none => s
  | some k =>
    let dropped := min (k.dropped + k.unjoined) (2 ^ 32 - 1)
    let s1 := (s.releaseAll part).setKernel part kslot { k with records := [], dropped := dropped }
    let n := k.launch.gx * k.launch.gy * k.launch.gz * k.ntiles
    let s2 := if k.obmap = 0 then s1
      else
        let bits := (List.range ((n + 7) / 8)).map fun j => if 8 * j + 8 ≤ n then 0xFF#8 else BitVec.ofNat 8 (2 ^ (n - 8 * j) - 1)
        let w1 := s1.devWrite k.cid (k.obmap + 16) bits
        w1.devWrite k.cid k.obmap (leBytes 4 (if k.status = 0 then 1 else 2))
    let s3 := if k.status = 0 then s2 else s2.endConsumers part k.uid
    let s4 := (s3.complete k.cid k.launch.done k.status k.launch.tag k.seq (if k.status = 2 then k.faultCause else 0)).retireUp k.cid k.queue
    ((s4.freeScratch k).dropKernel part kslot).refreshMasks

/-- Consumers of a kernel that retires OK: their remaining counts fall with its bits (16 R362, R368). -/
def State.releaseAllTiles (s : State) (part kslot : Nat) : State :=
  match s.kernel? part kslot with
  | none => s
  | some k =>
    if k.obmap = 0 then s
    else (List.range (k.lastIdx - k.gfirst)).foldl (fun s j =>
      (List.range k.ntiles).foldl (fun s t => s.releaseTile part k (k.gfirst + j) t) s) s

/-- The bytes of a kernel's bitmap block. -/
def Kernel.bitmapBytes (k : Kernel) : Nat := 16 + (k.launch.gx * k.launch.gy * k.launch.gz * k.ntiles + 7) / 8

/-- What retirement writes is not resident yet, or peers still have writes of the groups to acknowledge: the releases of R362 are of SYS
scope (12 R298). -/
def State.retireWaits (s : State) (k : Kernel) : Bool :=
  s.ackDue k.cid || s.doneWaits k.cid k.launch.done || (k.obmap != 0 && s.writeWaits k.cid k.obmap k.bitmapBytes)
/-- The pages that retirement writes are asked for. -/
def State.wantRetire (s : State) (k : Kernel) : State :=
  let s1 := if k.obmap = 0 then s else s.wantRange k.cid k.obmap k.bitmapBytes
  if s.doneWaits k.cid k.launch.done then s1.wantRange k.cid k.launch.done 16 else s1

/-- Every grid index of a kernel's share is expanded, every grid record dispatched, no group is live and no record ready (16 R361). -/
def Kernel.finished (k : Kernel) : Bool :=
  k.lastIdx ≤ k.nextIdx && k.live == 0 && k.records.all fun e => e.2.record.spawned && !e.2.record.ready

/-- KERNEL_RETIRE (16 R361, R362): a running kernel whose work is done is RETIRING with status OK, and a retiring one leaves the table once
what it writes can be written; the tiles of one that ended OK are released with its bits. -/
def execKernelRetire (part kslot : Nat) (s : State) : Res :=
  match s.kernel? part kslot with
  | none => .next s
  | some k =>
    match k.state with
    | .waiting => .next s
    | .retiring =>
      .next (if s.retireWaits k then s.wantRetire k
        else ((if k.status = 0 then s.releaseAllTiles part kslot else s).retire part kslot))
    | .running => .next (if k.finished then s.setKernel part kslot { k with state := .retiring, status := 0 } else s)

/-! ### Pops (17 R380) -/

/-- An entry of a ready pool. -/
inductive PoolEntry where
  | record (kslot entry : Nat)
  | group (idx : Nat)
  deriving DecidableEq, Repr

/-- A ready pool's entry with what the pop order looks at. -/
structure Candidate where
  what : PoolEntry
  key : PoolKey
  prio : Nat
  restore : Bool
  cid : Nat
  queue : Nat
  turn : Nat
  hslot : Nat
  share : Nat
  hinted : Bool
  age : Nat
  kslot : Nat
  entry : Nat

/-- The limits of a work tree (16 R357, 15 R353): a group may come to a stove that the node does not yet occupy only below its
MAXSTOVES, at the kernel, the queue and the context. -/
def State.withinLimits (s : State) (part kslot : Nat) (k : Kernel) (stove : Nat) : Bool :=
  match s.ctx? k.cid with
  | none => false
  | some c =>
    let qu := Tab.getD c.queues k.queue {}
    let all := s.stoveCount part
    let ok := fun (which : Group → Bool) (lim : Nat) =>
      let on := s.stovesWith which
      on.contains stove || on.length < lim
    ok (fun g => g.part == part && g.kslot == kslot) k.maxStoves &&
    ok (fun g => g.cid == k.cid && g.queue == k.queue) (inheritNat qu.maxStoves c.maxStoves 0 all) &&
    ok (fun g => g.cid == k.cid) (inheritNat c.maxStoves 0 0 all)

/-- Insert a number in rising order, once. -/
def insertNat (l : List Nat) (x : Nat) : List Nat :=
  match l with
  | [] => [x]
  | y :: t => if x < y then x :: y :: t else if x = y then y :: t else y :: insertNat t x

/-- The contexts that hold work on a partition, ascending (21 R435): kernels in its table. -/
def Partition.working (p : Partition) : List Nat :=
  (p.kernels.map fun k => k.2.cid).foldl insertNat []
/-- The current context of a slice; before the first slice end it is the lowest with work (21 R435, R439). -/
def Partition.currentCid (p : Partition) : Option Nat :=
  match p.current with
  | some c => some c
  | none => p.kernels.foldl (fun m k => match m with
    | none => some k.2.cid
    | some c => some (min c k.2.cid)) none

/-- The hardware slot of a queue. -/
def State.hslot (s : State) (cid q : Nat) : Nat :=
  match s.ctx? cid with
  | some c => (Tab.getD c.queues q {}).slot
  | none => 0xFFFF

/-- A queue's place in the round of R353: the queue itself, whatever slot it is bound to. -/
def turnOf (cid q : Nat) : Nat := cid * 65536 + q

/-- A stove may take an entry while the entry that a slot pre-emption was made for waits (17 R382): that one goes to the chosen stove, which
meanwhile takes only entries of higher priority. -/
def Partition.mayTake (p : Partition) (stove : Nat) (c : Candidate) : Bool :=
  match p.chosen with
  | none => true
  | some ch => if c.key == ch.key then stove == ch.stove else stove != ch.stove || ch.prio < c.prio

/-- The groups of a context may come to the stoves of a partition now: its queues are taken, and its slice runs (21 R435). -/
def State.mayRun (s : State) (p : Partition) (cid : Nat) : Bool :=
  (match s.ctx? cid with | some c => c.takes | none => false) && (p.slice == 0 || p.currentCid == some cid)

/-- The entries of a partition that a stove may take (17 R380, R382, R383, 21 R435): a record from the control-island cycle after the one in
which it became ready (R376), and its hint up to age 2048 (R379). -/
def State.candidates (s : State) (part : Nat) (p : Partition) (stove : Nat) : List Candidate :=
  let st := s.stove stove
  let here := s.lhearth (hearthOf stove)
  let recs := (p.kernels.map fun (kk : Nat × Kernel) =>
    let k := kk.2
    if k.state != .running || !s.mayRun p k.cid || !s.withinLimits part kk.1 k stove ||
       !st.room k.launch.flues k.launch.shared (k.launch.flues * k.launch.demand / 8) k.launch.accRows then []
    else k.records.filterMap fun (e : Nat × RecEntry) =>
      let r := e.2.record
      let hint := if r.affLost || 2048 ≤ e.2.age then none else r.affin
      if r.ready && 1 ≤ e.2.age && (hint.isNone || hint == some here) && (!r.spawned || k.windows.length < 4096) then
        some (⟨.record kk.1 e.1, .record k.uid e.1, k.prio, false, k.cid, k.queue, turnOf k.cid k.queue, s.hslot k.cid k.queue, k.share,
               hint.isSome, e.2.age, kk.1, e.1⟩ : Candidate)
      else none).flatten
  let grps := p.switched.zipIdx.filterMap fun (x : SwitchedGroup × Nat) =>
    let g := x.1.group
    match Tab.get? p.kernels g.kslot with
    | none => none
    | some k =>
      if s.mayRun p g.cid && s.withinLimits part g.kslot k stove && st.roomFor x.1 && (!g.mmah || g.stove == s.lstove stove) then
        some (⟨.group x.2, .group g.uid, g.prio, true, g.cid, g.queue, turnOf g.cid g.queue, s.hslot g.cid g.queue, k.share, false,
               x.1.age, g.kslot, x.2⟩ : Candidate)
      else none
  (recs ++ grps).filter (p.mayTake stove)

/-- The count of groups dispatched for a queue in the current round (15 R353). -/
def Partition.round (p : Partition) (q : Nat) : Nat := Tab.getD p.rounds q 0

/-- One candidate goes before another (17 R380). -/
def before (p : Partition) (a b : Candidate) : Bool :=
  let x := p.round a.turn * b.share
  let y := p.round b.turn * a.share
  if a.prio ≠ b.prio then decide (b.prio < a.prio)
  else if a.restore ≠ b.restore then a.restore
  else if a.turn ≠ b.turn && x ≠ y then decide (x < y)
  else if a.hslot ≠ b.hslot then decide (a.hslot < b.hslot)
  else if a.hinted ≠ b.hinted then a.hinted
  else if a.age ≠ b.age then decide (b.age < a.age)
  else if a.kslot ≠ b.kslot then decide (a.kslot < b.kslot)
  else decide (a.entry < b.entry)

/-- The first candidate in the pop order. -/
def firstOf (p : Partition) : List Candidate → Option Candidate
  | [] => none
  | c :: cs => some (cs.foldl (fun m x => if before p x m then x else m) c)

/-- Queue and weight of every kernel of a partition that has a ready record. -/
def Partition.readyTurns (p : Partition) : List (Nat × Nat) :=
  (p.kernels.filter fun k => k.2.records.any fun e => e.2.record.ready).map fun k => (turnOf k.2.cid k.2.queue, k.2.share)

/-- A dispatch counts in its queue's round. -/
def Partition.dispatched (p : Partition) (c : Candidate) : Partition := { p with rounds := Tab.put p.rounds c.turn (p.round c.turn + 1) }

/-- A round in which every queue that has a ready record now has had its share ends (15 R353). -/
def Partition.endRound (p : Partition) : Partition := if p.readyTurns.all fun x => x.2 ≤ p.round x.1 then { p with rounds := [] } else p

/-- A stove has taken a pool entry: pops of one control-island cycle go in ascending order of logical stove (17 R380), and an entry that a
slot pre-emption was made for waits no longer (17 R382). -/
def Partition.popped (p : Partition) (lstove : Nat) (key : PoolKey) : Partition :=
  { p with popNext := lstove, chosen := p.chosen.filter fun ch => ch.key != key }

/-- A flue as dispatch makes it (05 R100). -/
def freshFlue (k : Kernel) (part kslot gid gfl stamp : Nat) (r : Record) : Flue :=
  { cid := k.cid, part := part, kslot := kslot, group := gid, gflue := gfl, prio := k.prio, stamp := stamp,
    pc := SMap.setAll [] ((List.range 32).map fun l => (l, r.code)),
    frames := [{ demand := k.launch.demand }],
    s := SMap.setAll [] [(0, r.frame.setWidth 32), (1, (r.frame >>> 32).setWidth 32), (2, r.index)] }

/-- Dispatch a record on a stove with room (17 R384, 15 R493). -/
def State.dispatch (s : State) (stove part kslot entry : Nat) : State :=
  match s.kernel? part kslot with
  | none => s
  | some k =>
    match Tab.get? k.records entry with
    | none => s
    | some e =>
      let st := s.stove stove
      let gid := st.freeGroup
      let grid := k.launch.gx * k.launch.gy * k.launch.gz
      let w := if e.record.spawned then grid + ((List.range 4096).find? fun j => !k.windows.contains (grid + j)).getD 0
               else e.record.index.toNat
      let g : Group := {
        uid := s.stamp, part := part, kslot := kslot, cid := k.cid, queue := k.queue, prio := k.prio, record := e.record
        nflue := k.launch.flues, window := w, accRow0 := (st.freeRows k.launch.accRows).getD 0, accN := k.launch.accRows
        sharedSize := k.launch.shared, stove := s.lstove stove }
      let flues := ((st.freeSlots.take k.launch.flues).zipIdx).foldl (fun t (p : Nat × Nat) =>
        Tab.put t p.1 (freshFlue k part kslot gid p.2 s.stamp e.record)) st.flues
      let s1 := s.setStove stove { st with flues := flues, groups := Tab.put st.groups gid g }
      let k1 := k.freeEntry entry
      let k2 := { k1 with live := k1.live + 1, windows := if e.record.spawned then w :: k1.windows else k1.windows }
      ((s1.setKernel part kslot k2).tick).countStoves part kslot

/-- A flue of the stove that was switched out alone and may come back keeps entries of its priority or lower off (17 R382). -/
def Stove.recallPrio (st : Stove) : Option Nat :=
  st.groups.foldl (fun m g =>
    if g.2.saved.any fun v => v.2.due then (match m with | none => some g.2.prio | some n => some (max n g.2.prio)) else m) none

/-! ### Completion of a group (17 R385) -/

/-- The last flue of a group has left: its tiles are released, the kernel counts one live group less, and the stove's room is
free. -/
def State.completeGroup (s : State) (stove gid : Nat) : State :=
  match s.group? stove gid with
  | none => s
  | some g =>
    match s.kernel? g.part g.kslot with
    | none => s.clearGroup stove gid
    | some k =>
      let s1 := s.release stove
      let s2 := if g.record.spawned then s1 else (List.range k.ntiles).foldl (fun s t => s.relTile stove gid t) s1
      ((((s2.clearGroup stove gid).giveRuns g.cid g.headerRun.toList).lessLive g).progress g.cid k.queue).hearthSweep (hearthOf stove)

/-- FLUE_DRAIN_COMPLETE (05 R99, 17 R385): every flag is clear and every engine operation is done. -/
def execFlueDrainComplete (r : FlueRef) (s : State) : Res :=
  match s.flue? r.stove r.slot with
  | none => .next s
  | some f =>
    if f.phase ≠ .drain || !f.quiet || !f.flags.isEmpty || !(f.ops.all fun o => o.2.isEmpty) then .next s
    else
      let s1 := s.vacate r.stove r.slot
      match s1.group? r.stove f.group with
      | none => .next s1
      | some g =>
        if g.saved.isEmpty && ((s1.stove r.stove).slotsIn f.group).isEmpty then .next (s1.completeGroup r.stove f.group)
        else .next s1

end Sys2Proof.Machine
end

