-- ==== Sys2Proof/Machine/Queue.lean ====
section
/-! DEFINITION. Queues (15): notifies and the kick page, LAUNCH, binding to hardware slots, grants of partitions; and the fault
domains with the context fault (15 R354-R356, 14 R325, R338, 21 R439). -/

namespace Sys2Proof.Machine

/-- Change a queue of a context. -/
def State.modQueue (s : State) (cid q : Nat) (k : Queue → Queue) : State :=
  s.modCtx cid fun c => { c with queues := Tab.modify c.queues q k }
/-- A queue of a context. -/
def State.queue? (s : State) (cid q : Nat) : Option Queue := (s.ctx? cid).bind fun c => Tab.get? c.queues q

/-- The partitions of a grant. -/
def grantedParts (g : DWord) : List Nat := (List.range 64).filter fun p => g.getLsbD p

/-- The device has accepted a new tail (15 R349, R351): an UNBOUND queue becomes PENDING, and the firmware of every granted
partition hears of it. -/
def State.notify (s : State) (cid q : Nat) (tail : Word) : State :=
  match s.ctx? cid, s.queue? cid q with
  | some c, some qu =>
    if qu.state = .unbound then
      let s1 := s.setCtx cid { c with
        queues := Tab.put c.queues q { qu with tail := tail, state := .pending, waited := s.stamp }
        pendingBits := c.pendingBits ||| BitVec.ofNat 256 (2 ^ q) }
      ((grantedParts c.grant).foldl (fun s p => s.say (.slotPressure p cid q)) s1).tick
    else s.setCtx cid { c with queues := Tab.put c.queues q { qu with tail := tail } }
  | _, _ => s

/-- The condition of R349. -/
def tailOk (qu : Queue) (t : Word) : Bool :=
  let d := (t - qu.tail).toNat
  decide (0 < d) && decide (d ≤ qu.size - (qu.tail - qu.head).toNat)

/-- A notify takes effect (15 R349). -/
def State.kickNow (s : State) (cid q : Nat) (tail : Word) : State :=
  match s.queue? cid q with
  | none => s
  | some qu =>
    if qu.lfeed || !tailOk qu tail then s.modQueue cid q fun x => { x with badKick := true }
    else s.notify cid q tail

/-- A new tail is stored to the KICK register of a queue (15 R349). The store is a SYS-scope release, which waits for the peers'
acknowledgements (12 R298): the notify takes effect then, in its turn, and the hart goes on. -/
def State.kickTo (s : State) (cid q : Nat) (tail : Word) : State :=
  if s.ackDue cid then s.modQueue cid q fun x => { x with kicks := x.kicks ++ [tail] } else s.kickNow cid q tail

/-- Notifies whose release is now complete take effect. -/
def State.kicksDue (s : State) (cid : Nat) : State :=
  if s.ackDue cid then s
  else match s.ctx? cid with
    | none => s
    | some c => c.queues.foldl (fun (s : State) q =>
        q.2.kicks.foldl (fun (s : State) t => s.kickNow cid q.1 t) (s.modQueue cid q.1 fun x => { x with kicks := [] })) s

/-- A value is stored to the RESET register of a queue (15 R348, R355): 1 resets a FAULTED queue. -/
def State.resetTo (s : State) (cid q : Nat) (val : Word) : State :=
  match s.queue? cid q with
  | none => s
  | some qu =>
    if val = 1 && qu.state == .faulted then
      s.modQueue cid q fun x =>
        { x with head := x.tail, state := .unbound, slot := 0xFFFF, badKick := false, wdx := false, fdomLast := 0, fcount := 0 }
    else s

/-- KICK (15 R348, R349): a notify by a hart. The store is a SYS-scope release of the hart's writes, which the model applies as
they are made. -/
def execKick (cid q : Nat) (tail : Word) (s : State) : Res := .next (s.kickTo cid q tail)

/-- QUEUE_RESET (15 R348, R355). -/
def execQueueReset (cid q : Nat) (val : Word) (s : State) : Res := .next (s.resetTo cid q val)

/-- KICK_PAGE_IGNORED_WRITE (15 R348): an access that the kick page drops. -/
def execKickPageIgnoredWrite (_cid _q _off _size : Nat) (_val : BitVec 64) (s : State) : Res := .next s

/-! ### LAUNCH (08 R195, 15 R350) -/

/-- LAUNCH's checks and effect once its release has taken place. The region has been committed by then, also where every check fails
(DESIGN CHOICE, assumption 55). -/
def launchOp (i : Issue) (f : Flue) (acting : LaneMask) (a : DWord) (q : Nat) (s : State) : State :=
  let fail := fun (s : State) (c : Nat) (va : DWord) => s.upd i fun g => (g.raiseAt i c acting va).finish i acting
  let pause := fun (s : State) (va : DWord) => s.upd i fun g => { g with pageWait := some va }
  match s.queue? f.cid q with
  | none => fail s cBOUND i.pc
  | some qu =>
    if !qu.lfeed then fail s cBOUND i.pc
    else if qu.size ≤ (qu.tail - qu.head).toNat then s
    else
      let r := s.check i.stove f 0 a 128 .load false
      match r.1 with
      | .cause c => fail r.2 c a
      | .wait va => pause r.2 va
      | .ok src =>
        let bs := r.2.tileRead f.cid src.addr 128 (hearthOf i.stove) 0
        let dst := qu.ring + BitVec.ofNat 64 (qu.tail.toNat % qu.size * 128)
        let w := bs.2.check i.stove f 0 dst 128 .store false
        match w.1 with
        | .cause c => fail w.2 c dst
        | .wait va => pause w.2 va
        | .ok loc => ((w.2.coreWrite f.cid loc.addr bs.1).notify f.cid q (qu.tail + 1)).upd i fun g => g.finish i 0

/-- LAUNCH (08 R195, 15 R350). A record address that is not aligned raises ALIGN before anything is committed (DESIGN CHOICE, assumption
55). -/
def execLaunch (x : CArgs) (s : State) : Res :=
  onIssue s fun i f =>
    let acting := i.groupActs x.guard
    outside s i f acting (
      let c := i.src x.lit
      let l := lowLane i.lanes
      let a := c.read x.a .z64 l
      if a.toNat % 128 ≠ 0 then s.upd i fun g => (g.raise i cALIGN acting).finish i acting
      else releaseAt s i f acting true (launchOp i f acting a (c.word x.b l).toNat))

/-! ### Binding (15 R351, R495) -/

/-- The priority of a queue among those that wait to be bound. -/
def queuePrio (c : Context) (qu : Queue) : Nat := inheritByte 0 qu.prio 3 c.prio

/-- Hardware slots in use: every bound queue of every context has one. -/
def State.slotsInUse (s : State) : List Nat :=
  (s.ctxs.map fun (x : Nat × Context) => (x.2.queues.filter fun q => q.2.state == .bound).map fun q => q.2.slot).flatten
/-- Queues bound to a partition. -/
def State.boundTo (s : State) (p : Nat) : Nat :=
  s.ctxs.foldl (fun n (x : Nat × Context) => n + (x.2.queues.filter fun q => q.2.state == .bound && q.2.part == p).length) 0

/-- The granted partition with the most free slots, ties to the lower number; none when no slot is free (15 R495). The slots of a partition
that forms are not given yet (21 R439). -/
def State.bindTarget (s : State) (c : Context) : Option Nat :=
  ((grantedParts c.grant).foldl (fun (m : Option (Nat × Nat)) p =>
    match s.part? p with
    | none => m
    | some pt =>
      let free := if pt.state = .forming then 0 else min pt.qslots 256 - s.boundTo p
      if free = 0 then m
      else match m with
        | some (_, best) => if best < free then some (p, free) else m
        | none => some (p, free)) none).map (·.1)

/-- Another PENDING queue that can be bound goes before this one (15 R351). -/
def State.bindFirst (s : State) (c : Context) (qu : Queue) : Bool :=
  !s.ctxs.any fun (x : Nat × Context) =>
    (s.bindTarget x.2).isSome && x.2.queues.any fun q =>
      q.2.state == .pending &&
      (decide (queuePrio c qu < queuePrio x.2 q.2) || (queuePrio x.2 q.2 == queuePrio c qu && decide (q.2.waited < qu.waited)))

/-- QUEUE_BIND (15 R351, R356, R495). Frozen schedulers bind no notify (22 R445). -/
def execQueueBind (cid q : Nat) (s : State) : Res :=
  match s.ctx? cid, s.queue? cid q with
  | some c, some qu =>
    match s.bindTarget c with
    | none => .next s
    | some p =>
      if qu.state ≠ .pending || !s.bindFirst c qu || s.fw.frozen then .next s
      else match (List.range 1024).find? fun j => !s.slotsInUse.contains j with
        | none => .next s
        | some j => .next (s.setCtx cid { c with
            queues := Tab.put c.queues q { qu with state := .bound, slot := j, part := p }
            pendingBits := c.pendingBits &&& ~~~(BitVec.ofNat 256 (2 ^ q)) })
  | _, _ => .next s

/-- A partition leaves the grant once no queue of the context is bound there (15 R495). -/
def State.trimGrant (s : State) (cid : Nat) : State :=
  s.modCtx cid fun c =>
    let held := (c.queues.filter fun q => q.2.state == .bound).foldl (fun (m : DWord) q => m ||| BitVec.ofNat 64 (2 ^ q.2.part)) 0
    { c with grant := c.grantWant ||| (c.grant &&& held) }

/-- QUEUE_UNBIND (15 R351, R356): the firmware unbinds a queue without PIN whose ring is empty and of which no kernel runs. -/
def execQueueUnbind (cid q : Nat) (s : State) : Res :=
  match s.queue? cid q with
  | none => .next s
  | some qu =>
    let busy := s.parts.any fun (p : Nat × Partition) => p.2.kernels.any fun k => k.2.cid == cid && k.2.queue == q && k.2.state == .running
    if qu.state = .bound && !qu.pin && qu.head == qu.tail && !busy && !s.fw.frozen then
      .next ((s.modQueue cid q fun x => { x with state := .unbound, slot := 0xFFFF }).trimGrant cid)
    else .next s

/-- GRANT (15 R495). -/
def execGrant (cid : Nat) (mask : BitVec 64) (s : State) : Res :=
  match s.ctx? cid with
  | none => .next s
  | some c =>
    if c.state = .destroyed then .next (s.say .refused)
    else .next ((s.setCtx cid { c with grantWant := mask, grant := c.grant ||| mask }).trimGrant cid)

/-! ### Fault domains (15 R354, R355) -/

/-- A drain request on a partition (21 R439): no pool entry is taken. -/
def State.drainReq (s : State) (part cid : Nat) : State :=
  match s.part? part with
  | none => s
  | some p =>
    if p.state = .running || p.state = .draining then
      s.setPart part { p with state := .draining, drainFor := if p.drainFor.contains cid then p.drainFor else p.drainFor ++ [cid] }
    else s

/-- Partitions on which a context holds groups. -/
def State.partsOf (s : State) (cid : Nat) : List Nat :=
  (s.parts.filter fun (x : Nat × Partition) =>
    (s.partStoves x.1).any (fun n => (s.stove n).groups.any fun g => g.2.cid == cid) ||
    x.2.switched.any fun w => w.group.cid == cid).map (·.1)

/-- The thread that a hart runs leaves ENCIN (14 R333): the hart's registers come back with the exit record in rd, and the
thread's, with the address at which it resumes, go to the save area. -/
def State.leaveThread (s : State) (h : Nat) (record resume : DWord) : State :=
  let x := s.hart h
  match x.inside with
  | none => s
  | some (cid, t) =>
    let back : Hart := { x with
      x := if x.exitRd = 0 then x.hostX else SMap.set x.hostX x.exitRd.toNat record
      f := x.hostF, pc := x.hostPc, mode := x.hostMode, vsatp := x.hostVsatp, inside := none, resv := none }
    let th : Thread := { hart := none, pc := resume, mode := x.mode, atp := x.vsatp, x := x.x, f := x.f }
    let s1 := (s.setHart h back).modCtx cid fun c => { c with threads := Tab.put c.threads t th }
    match s.ctx? cid with
    | some c => s1.freshLines (c.threadLines t)
    | none => s1

/-- A context's threads inside ENCIN leave with a reason (14 R325, R333). -/
def State.leaveThreads (s : State) (cid reason : Nat) : State :=
  match s.ctx? cid with
  | none => s
  | some c =>
    c.threads.foldl (fun s (t : Nat × Thread) =>
      match t.2.hart with
      | none => s
      | some h => s.leaveThread h (BitVec.ofNat 64 reason) (s.hart h).pc) s

/-- A context's groups go with nothing saved, and its kernels that satisfy a test leave the tables with nothing written (14 R325, R337, 16
R361). -/
def State.dropWork (s : State) (cid : Nat) (which : Kernel → Bool) : State :=
  let s1 := s.loseGroups fun g => g.cid == cid
  s1.parts.foldl (fun s (x : Nat × Partition) =>
    (x.2.kernels.filter fun k => k.2.cid == cid && which k.2).foldl (fun s k => (s.freeScratch k.2).dropKernel x.1 k.1) s) s1

/-- The streams of a context end: no key, and nothing that was under way (20 R429). -/
def endStreams (roster : Tab Peer) : Tab Peer :=
  Tab.mapVals (fun (p : Peer) =>
    { p with lstate := .idle, keyed := false, held := [], asked := [], out := [], parts := [], tried := false }) roster

/-- The flits of every stream of a context leave the replay buffers. -/
def State.dropStreams (s : State) (cid : Nat) : State :=
  match s.ctx? cid with
  | some c => c.roster.foldl (fun (s : State) p => s.dropSent cid p.1) s
  | none => s

/-- A domain of a queue or of the context has ended a bound queue (15 R356). -/
def Queue.faulted (q : Queue) : Queue := if q.state = .bound then { q with state := .faulted, slot := 0xFFFF } else q

/-- A context fault (14 R325, R338): its groups go with nothing saved, its kernels leave the tables with nothing written but for those
that already retire (16 R361: R362 goes on for them), its queues take no new records, its threads return reason 4, its streams end (20
R429). FCAUSE keeps the first fault. Its bound queues are FAULTED when a context-level domain is what took effect (KIND 2; 15 R356). -/
def State.contextFault (s : State) (cid kind hearth detail : Nat) : State :=
  match s.ctx? cid with
  | none => s
  | some c =>
    if !c.eligible then s
    else
      let s3 := ((s.dropWork cid fun k => k.state != .retiring).leaveThreads cid 4).dropStreams cid
      let s4 := s3.modCtx cid fun c => { c with
        state := .faulted
        roster := endStreams c.roster
        queues := if kind = 2 then Tab.mapVals Queue.faulted c.queues else c.queues
        fkind := if c.fkind = 0 then kind else c.fkind
        fhearth := if c.fkind = 0 then hearth else c.fhearth
        fdetail := if c.fkind = 0 then detail else c.fdetail }
      (s4.trimGrant cid).refreshMasks

/-- A fault counted in a queue's FSTAT (15 R354). -/
def State.countFault (s : State) (cid q dom : Nat) : State :=
  s.modQueue cid q fun x => { x with fdomLast := dom, fcount := min (x.fcount + 1) 0xFFFF }

/-- The queue domain (15 R355, R356): every kernel of the queue retires FAULTED, on whatever partition, and the queue is FAULTED. -/
def State.killQueue (s : State) (cid q cause : Nat) : State :=
  let s1 := s.parts.foldl (fun (s : State) (p : Nat × Partition) =>
    (p.2.kernels.filter fun (o : Nat × Kernel) => o.2.cid == cid && o.2.queue == q).foldl
      (fun (s : State) (o : Nat × Kernel) => s.killKernel p.1 o.1 2 cause) s) s
  s1.modQueue cid q Queue.faulted

/-- The fault domain in force for a kernel takes effect (15 R355, 16 R361) for a cause (32: a watchdog expiry), met on a logical
hearth. -/
def State.faultDomain (s : State) (part kslot cause hearth : Nat) : State :=
  match s.kernel? part kslot with
  | none => s
  | some k =>
    let s0 := s.countFault k.cid k.queue k.fdom
    match k.fdom with
    | 0 => s0.killKernel part kslot 2 cause
    | 1 => (s0.killQueue k.cid k.queue cause).trimGrant k.cid
    | _ =>
      let on := s0.partsOf k.cid
      on.foldl (fun s p => s.drainReq p k.cid) (s0.contextFault k.cid 2 hearth cause)

/-- The lowest pending cause of a flue is delivered now (05 R99, 13 R301). -/
def Flue.delivers (f : Flue) : Bool :=
  (f.phase == .run || f.phase == .frameWait) && !f.pending.isEmpty && f.quiet && f.service.isEmpty
/-- The lowest pending cause of a flue has no handler to go to: it starts the fault domain (13 R305). -/
def State.noHandler (s : State) (f : Flue) : Bool :=
  match f.pending with
  | [] => false
  | (c, _) :: _ => c == cREGOVF || s.handlerOf f == 0
/-- A cause of the context that is delivered now starts a fault domain. -/
def State.faultFirst (s : State) (cid : Nat) : Bool :=
  s.stoves.any fun (x : Nat × Stove) => x.2.flues.any fun y => y.2.cid == cid && y.2.delivers && s.noHandler y.2

/-- WATCHDOG_EXPIRY (15 R354, R355): the counter of a bound queue has reached its limit. A cause of the context that has no handler goes
first (27 R490). -/
def execWatchdogExpiry (cid q : Nat) (s : State) : Res :=
  match s.queue? cid q with
  | none => .next s
  | some qu =>
    if qu.state ≠ .bound || qu.wdog = 0 || qu.wcount < qu.wdog || s.faultFirst cid then .next s
    else
      let s1 := (s.count cid 14).modQueue cid q fun x => { x with wdx := true, wcount := 0 }
      let run := (s1.parts.map fun (p : Nat × Partition) => (p.2.kernels.filter fun k =>
        k.2.cid == cid && k.2.queue == q && k.2.state == .running).map fun k => (p.1, k.1, k.2.uid)).flatten
      match run.foldl (fun (m : Option (Nat × Nat × Nat)) k => match m with
          | none => some k
          | some o => if k.2.2 < o.2.2 then some k else some o) none with
      | none => .next s1
      | some k =>
        -- the oldest resident group of the queue (27 R490)
        let here := (s1.stoves.map fun (x : Nat × Stove) => (x.2.groups.filter fun g =>
          g.2.cid == cid && g.2.queue == q).map fun g => (g.2.uid, x.1)).flatten
        let oldest := here.foldl (fun (m : Option (Nat × Nat)) x => match m with
          | none => some x
          | some y => if x.1 < y.1 then some x else some y) none
        .next (s1.faultDomain k.1 k.2.1 32 ((oldest.map fun x => s1.lhearth (hearthOf x.2)).getD 0))

end Sys2Proof.Machine
end

