-- ==== Sys2Proof/Machine/Fetch.lean ====
section
/-! DEFINITION. Clauses (03 R52-R56, 04 R94-R98): fetching a line, checking a clause against its header and the current frame,
finding the instruction that a program counter names, and the issue of a clause. -/

namespace Sys2Proof.Machine

/-! ### Headers (03 R52) -/

def hdrCount (w : Word) : Nat := (w.extractLsb' 0 4).toNat
def hdrClass (w : Word) : Nat := (w.extractLsb' 4 3).toNat
def hdrWait (w : Word) : BitVec 12 := w.extractLsb' 7 12
def hdrSetA (w : Word) : Nat := (w.extractLsb' 19 4).toNat
def hdrSetB (w : Word) : Nat := (w.extractLsb' 23 4).toNat
def hdrRe (w : Word) : Bool := w.getLsbD 27
def hdrYp (w : Word) : Bool := w.getLsbD 28

/-- The header holds no fault (03 R52, R55). -/
def headerOk (w : Word) (pc : DWord) : Bool :=
  w.extractLsb' 29 3 == 0#3 && hdrCount w != 0 && hdrClass w != 7 &&
  !(12 ≤ hdrSetA w && hdrSetA w ≤ 14) && !(12 ≤ hdrSetB w && hdrSetB w ≤ 14) &&
  decide (pc.toNat % 64 / 4 + hdrCount w + 1 ≤ 16)

/-! ### Instructions against their clause (03 R53, R54, R71, 04 R96) -/

/-- The class of an opcode (03 R53). -/
def opClass (op : BitVec 9) : Nat :=
  let n := op.toNat
  if n < 0x040 then 0 else if n < 0x060 then 5 else if n < 0x080 then 0 else if n < 0x0A0 then 1 else if n < 0x0C0 then 3
  else if n < 0x100 then 2 else if n < 0x140 then 4 else 6

/-- The class of an instruction. -/
def instrClass (i : Instr) : Nat :=
  match i.code with
  | .long r _ => opClass r.form.op
  | .short _ _ => 0
  | .control _ _ => 4
  | .system _ _ => 6
  | .enclave _ _ => 7
  | .event => 7

/-- A transfer instruction (03 R54). -/
def isTransfer : Instr → Bool
  | .bra _ => true
  | .bru _ => true
  | .jmpi _ => true
  | .call _ => true
  | .calli _ => true
  | .ret _ => true
  | .unwind _ => true
  | .exitLanes _ => true
  | _ => false

/-- The selection F of an instruction. -/
def flagSel (i : Instr) : FSel :=
  match i.code with
  | .long _ x => x.f
  | _ => .none

/-- An instruction belongs where it stands in its clause (03 R54, R71). -/
def placedOk (h : Word) (i : Instr) (last : Bool) : Bool :=
  (instrClass i == hdrClass h || (last && instrClass i == 4)) && (!isTransfer i || last) &&
  !(flagSel i == .a && hdrSetA h == 15) && !(flagSel i == .b && hdrSetB h == 15)

/-- How many registers a field's kind names. -/
def kindRegs (k : Kind) (ty : Ty) (m : BitVec 11) : Nat :=
  match k with
  | .dst w => w.regs ty m
  | .dstV w => w.regs ty m
  | .src w => w.regs ty m
  | .srcIf w _ => w.regs ty m
  | .uni w => w.regs ty m
  | .run w => w.regs ty m
  | .runV w => w.regs ty m
  | _ => 1

/-- A field's registers lie below a demand (03 R63, 04 R96). -/
def underDemand (demand : Nat) (k : Kind) (ty : Ty) (m : BitVec 11) (o : Opnd) : Bool :=
  match o with
  | .v n => decide (n.toNat + kindRegs k ty m ≤ demand)
  | _ => true

/-- The first word of an instruction that names a register at or beyond the frame's demand. -/
def frameFault (demand : Nat) (i : Instr) : Option Nat :=
  let pick := fun (d a b c : Bool) => if !(d && a) then some 0 else if !(b && c) then some 1 else none
  match i.code with
  | .long r x =>
    let u := fun k o => underDemand demand k x.ty x.modx o
    pick (u r.form.d x.d) (u r.form.a x.a) (u r.form.b x.b) (u r.form.c x.c)
  | .short r x =>
    let y := r.toLong x
    let fm := r.form.row.form
    let u := fun k o => underDemand demand k y.ty y.modx o
    if u fm.d y.d && u fm.a y.a && u fm.b y.b then none else some 0
  | .control r x =>
    let u := fun k o => underDemand demand k .b32 0 o
    pick (u r.form.d x.d) (u r.form.a x.a) (u r.form.b x.b) true
  | .system r x =>
    let u := fun k o => underDemand demand k .b32 (srModx x.idx) o
    pick (u r.form.d x.d) (u r.form.a x.a) (u r.form.b x.b) true
  | .enclave _ _ => none
  | .event => none

/-- The word of an instruction that a decoding fault is recorded against (04 R94): a short form has only word 0. -/
def faultWord (w : Word) (e : DecodeError) : Nat := if w.getLsbD 31 then e.word else 0

/-- A transfer opcode (03 R54). -/
def transferOp (op : BitVec 9) : Bool := [0x100, 0x101, 0x102, 0x103, 0x104, 0x105, 0x106, 0x10D].contains op.toNat

/-- Word 0 of a long instruction holds a fault of its own that needs the header or the frame: the class, the placement, a flag that
names 15 (03 R54, R71), a D or A register at or beyond the demand (04 R96). It is recorded before any fault of word 1. -/
def word0Fault (h : Word) (demand : Nat) (w0 w1 : Word) (last : Bool) : Bool :=
  let z := word0Of w0
  let m := w1.extractLsb' 0 11
  let ty := (tyOfCode (w1.extractLsb' 14 4)).getD .b32
  let d := fun (k : Kind) (ty : Ty) (m : BitVec 11) (x : BitVec 7) => match k.dec x with
    | some o => underDemand demand k ty m o
    | none => true
  !((opClass z.op == hdrClass h || (last && opClass z.op == 4)) && (!transferOp z.op || last) &&
    !(z.f == 1#2 && hdrSetA h == 15) && !(z.f == 2#2 && hdrSetB h == 15)) ||
  (match LRow.ofOp z.op m with
    | some r => !(d r.form.d ty m z.d && d r.form.a ty m z.a)
    | none => match CRow.ofOp z.op with
      | some r => !(d r.form.d .b32 0 z.d && d r.form.a .b32 0 z.a)
      | none => match YRow.ofOp z.op (w1.extractLsb' 0 16) with
        | some r =>
          let m := srModx (w1.extractLsb' 0 16)
          !(d r.form.d .b32 m z.d && d r.form.a .b32 m z.a)
        | none => false)

/-- The first offending word of the instructions of a clause (04 R94): `pos` is the position of the first word given, and the
fuel bounds the instructions. -/
def bodyFault (h : Word) (demand : Nat) : Nat → Nat → List Word → Option Nat
  | 0, _, _ => none
  | _ + 1, _, [] => none
  | fuel + 1, pos, w :: ws =>
    match decodeWords (w :: ws) with
    | .error e =>
      if w.getLsbD 31 && word0Fault h demand w (ws.headD 0) ((w :: ws).length ≤ wordCount w) then some pos
      else some (pos + faultWord w e)
    | .ok (i, rest) =>
      if !placedOk h i rest.isEmpty then some pos
      else match frameFault demand i with
        | some k => some (pos + k)
        | none => bodyFault h demand fuel (pos + ((w :: ws).length - rest.length)) rest

/-! ### The instruction that a program counter names -/

/-- The instruction at a program counter inside a clause, with the address after it and whether it is the last. -/
def instrAt (f : Flue) (pc : DWord) : Option (Instr × OpenClause × DWord × Bool) :=
  match f.inside pc with
  | none => none
  | some (c, k) =>
    let ws := c.words.drop (k - 1)
    match decodeWords ws with
    | .error _ => none
    | .ok (i, rest) =>
      let next := if rest.isEmpty then nextClause c.header c.words.length
                  else pc + BitVec.ofNat 64 (4 * (ws.length - rest.length))
      some (i, c, next, rest.isEmpty)

/-- A counter at line offset 60 that is inside no clause is taken as the next line (03 R55). -/
def Flue.normalise (f : Flue) : Flue :=
  let m := maskOf fun l => f.eligible.getLsbD l && (f.pcOf l).extractLsb' 0 6 == 60#6 && (f.inside (f.pcOf l)).isNone
  if m = 0 then f
  else { f with pc := SMap.setAll f.pc ((lanesOf m).map fun l => (l, f.pcOf l + 4)) }

/-! ### Fetch and issue -/

/-- The end of a fetch. -/
inductive Fetched where
  | words (h : Word) (ws : List Word)
  | cause (c : Nat)
  | wait

/-- Fetch the line of a clause (08 R187): the words from a header to the end of its line, read at the memory slices
(assumption 18). A kick page is in the translation of the application cores only (15 R348). A program counter that is no multiple of 4,
which a write of `sr.hpc` can leave, reads words from that byte address to the end of the line (DESIGN CHOICE: 03 R55 does not say;
assumption 18). -/
def State.fetch (s : State) (stove cid : Nat) (pc : DWord) : Fetched × State :=
  if !canonical pc then (.cause cXLATE, s)
  else if (match s.ctx? cid with | some c => c.kickPage pc | none => false) then (.cause cPERM, s)
  else
    let r := s.translate (hearthOf stove) (some stove) cid pc .fetch false
    match r.1 with
    | .wait => (.wait, r.2)
    | .cause c => (.cause c, r.2)
    | .ok pa =>
      match r.2.windowCause cid pa with
      | some c => (.cause c, r.2)
      | none =>
        let q := match paKind pa with
          | .peer _ _ => peerSays .load pa r.2
          | _ => (.ok (.gen pa), r.2)
        match q.1 with
        | .cause c => (.cause c, q.2)
        | _ =>
          if q.2.bad pa then (.cause cUNCORR, q.2)
          else
            let b := q.2.tileRead cid pa (64 - pa % 64) (hearthOf stove) 0
            match wordsOfBytes (b.1.length / 4) b.1 with
            | [] => (.cause cXLATE, b.2)
            | h :: ws => (.words h ws, b.2)

/-- The frame's demand as the clause check sees it (04 R96, 05 R110). -/
def Flue.demand (f : Flue) : Nat := if f.phase = .handler then 16 else f.top.demand

/-- The lanes that stand at an address and may issue. -/
def Flue.lanesAt (f : Flue) (pc : DWord) : LaneMask := f.eligible &&& maskOf fun l => f.pcOf l == pc

/-- A flue that has been stopped for a switch-out (13 R314, R315, 14 R335): a forced stop at a slice end, a yield, a pre-emption,
none of which reaches a flue in HANDLER (R313), or a seal. -/
def Flue.stopped (f : Flue) : Bool := f.halt || (f.phase != .handler && (f.preempt || (f.sliceEnd && f.ydl == 0)))

/-- The flue may issue at all (05 R99, R103, 13 R301, R311): in RUN or HANDLER, with no cause waiting to be delivered in RUN,
not stopped, not waiting for a page or for ring room. -/
def Flue.mayIssue (f : Flue) : Bool :=
  (f.phase == .run || f.phase == .handler) && (f.phase == .handler || f.pending.isEmpty) && !f.stopped &&
  f.pageWait.isNone && !f.ringWait

/-- A flag named by WAIT is busy (03 R73). -/
def Flue.waitBusy (f : Flue) (h : Word) : Bool := (List.range 12).any fun n => (hdrWait h).getLsbD n && f.flagCount n != 0

/-- The cause of a fetch or decode fault goes to the lanes at the header (04 R97, 08 R187). In handler mode a decode fault's lanes
step past the clause (13 R304, assumption 19). -/
def Flue.clauseFault (f : Flue) (c : Nat) (lanes : LaneMask) (pc faddr : DWord) (h : Word) : Flue :=
  let g := f.pend c lanes faddr (f.resumeAt pc)
  if f.phase = .handler then g.setPc lanes (nextClause pc (hdrCount h)) else g

/-- Lanes take a clause, which becomes their most recent one (04 R98). A clause of other words that it shares words with is forgotten unless
lanes of it stand inside it. -/
def Flue.takes (g : Flue) (lanes : LaneMask) (c : OpenClause) : Flue :=
  let hm := g.phase == .handler
  let same := fun (d : OpenClause) => d.header == c.header && d.word == c.word && d.words == c.words
  let mine := (g.clauses.find? same).getD { c with lanes := 0, hlanes := 0 }
  let rest := leaveAll (g.clauses.filter fun d => !same d) hm lanes
  { g with clauses := mine.join hm lanes :: rest.filter fun d => !c.overlaps d || g.uses d }

/-- The clause issues: a region entry opens its region (13 R306), a yield point returns the counter to zero, and the lanes stand
at the first instruction. -/
def State.openClause (s : State) (stove slot : Nat) (lanes : LaneMask) (pc : DWord) (h : Word) (ws : List Word) : State :=
  match s.flue? stove slot with
  | none => s
  | some f =>
    let re := hdrRe h && f.phase != .handler
    let s1 := if re then s.commit stove slot else s
    s1.modFlue stove slot fun g =>
      let g1 := if re then { g with entry := pc, restart := lanes, regionOpen := true } else g
      let g2 := if hdrYp h then { g1 with ycount := 0 } else g1
      (g2.setPc lanes (pc + 4)).takes lanes { header := pc, word := h, words := ws }

/-- The first offending word of a clause, from its header on (04 R94). -/
def clauseError (h : Word) (ws : List Word) (pc : DWord) (demand : Nat) : Option Nat :=
  if headerOk h pc then bodyFault h demand 15 1 (ws.take (hdrCount h)) else some 0

/-- The instruction that lanes at a program counter would issue: inside a clause, or the first behind a header that they may take. -/
def State.peekAt (s : State) (stove : Nat) (f : Flue) (pc : DWord) : Option Instr :=
  match instrAt f pc with
  | some r => some r.1
  | none => match (s.fetch stove f.cid pc).1 with
    | .words h ws =>
      if (clauseError h ws pc f.demand).isSome || f.waitBusy h then none
      else match decodeWords (ws.take (hdrCount h)) with
        | .ok (i, _) => some i
        | .error _ => none
    | _ => none

/-- The lanes of a flue that stand at a header take the clause, or meet its fault (03 R56, R73, 04 R94-R97, 13 R306, R314). At a slice end
a group has reached a clause with YP once its WAIT flags are clear (DESIGN CHOICE: 13 R314 does not say whether one that a flag holds back
has; assumption 53). -/
def State.takeClause (s : State) (r : FlueRef) (pc : DWord) : Res :=
  match s.flue? r.stove r.slot with
  | none => .next s
  | some f =>
    let lanes := f.lanesAt pc
    if lanes = 0 || (f.inside pc).isSome || f.heldLanes &&& lanes != 0 then .next s
    else
      let q := s.fetch r.stove f.cid pc
      match q.1 with
      | .wait => .next (q.2.modFlue r.stove r.slot fun g => { g with pageWait := some pc })
      | .cause c =>
        if f.phase = .handler then .next (q.2.faultDomain f.part f.kslot c (s.lhearth (hearthOf r.stove)))
        else .next (q.2.modFlue r.stove r.slot fun g => g.clauseFault c lanes pc (pc &&& ~~~63#64) 0)
      | .words h ws =>
        match clauseError h ws pc f.demand with
        | some k => .next (q.2.modFlue r.stove r.slot fun g =>
            g.clauseFault cILLEGAL lanes pc (pc + BitVec.ofNat 64 (4 * k)) h)
        | none =>
          if f.waitBusy h then .next s
          else if hdrYp h && f.sliceEnd && f.phase == .run then
            .next ((q.2.commit r.stove r.slot).modFlue r.stove r.slot fun g => { g with preempt := true })
          else .next (q.2.openClause r.stove r.slot lanes pc h (ws.take (hdrCount h)))

/-- CLAUSE_ISSUE (03 R56, R73, 04 R94-R97, 13 R306, R314): lanes at line offset 60 stand at the next line (03 R55), and the lanes of
a flue that stand at a header take the clause. -/
def execClauseIssue (r : FlueRef) (pc : BitVec 64) (s : State) : Res :=
  match s.flue? r.stove r.slot with
  | none => .next s
  | some f =>
    let s1 := s.modFlue r.stove r.slot Flue.normalise
    if f.mayIssue then s1.takeClause r pc else .next s1

end Sys2Proof.Machine
end

