-- ==== Sys2Proof/Machine/Life.lean ====
section
/-! DEFINITION. Events in the life of a flue (05 R99, R113-R122, 13 R300-R322): results that arrive, causes, frame grants and
refills, escape spills, switch-outs and recalls, slice ends and pre-emption, and YIELD. -/

namespace Sys2Proof.Machine

/-- INSTRUCTION_COMPLETE (03 R70-R74): the n-th outstanding result of a flue arrives. -/
def execInstructionComplete (r : FlueRef) (idx : Nat) (s : State) : Res :=
  .next (s.modFlue r.stove r.slot fun f => (f.arrive idx).checkStuck)

/-- PC_GROUP_PROMOTION (05 R107): a PC group passed over 64 times is promoted, in the order of promotion. -/
def Flue.promote (f : Flue) (pc : DWord) (stamp : Nat) : Flue :=
  let m := f.lanesAt pc
  if (lanesOf m).any (fun l => 64 ≤ (SMap.get f.passed l).toNat) && (lanesOf m).all (fun l => Tab.getD f.promoted l 0 == 0) then
    { f with promoted := (lanesOf m).foldl (fun t l => Tab.put t l (stamp + 1)) f.promoted }
  else f

def execPcGroupPromotion (r : FlueRef) (pc : BitVec 64) (s : State) : Res :=
  .next (((s.tick).modFlue r.stove r.slot fun f => f.promote pc s.stamp))

/-! ### Causes -/

/-- CAUSE_DELIVERY (13 R301, R305): once every outstanding instruction is complete, the lowest pending cause of a flue in RUN
or FRAME_WAIT is delivered; REGOVF, SPILLF, and any cause with no handler in force, start a fault domain or a context fault. -/
def execCauseDelivery (r : FlueRef) (s : State) : Res :=
  match s.flue? r.stove r.slot with
  | none => .next s
  | some f =>
    match f.pending with
    | [] => .next s
    | (c, _) :: _ =>
      if !f.delivers then .next s
      else
        let here := s.lhearth (hearthOf r.stove)
        if s.noHandler f then .next (s.faultDomain f.part f.kslot c here)
        else
          let s1 := s.countDiscard f
          let st := s1.stove r.stove
          let s2 := s1.setStove r.stove { st with latch := withdraw st.latch r.slot }
          .next (s2.modFlue r.stove r.slot fun g =>
            let g1 := awComplete (s.die (dieOf r.stove)) g 0xFFFFFFFF#32
            let g2 := { (if g1.regionOpen then g1.discard else g1) with
              rvs := [], flags := [], pageWait := none, ringWait := false, stays := false }
            g2.deliver (s.handlerOf f))

/-- HANDLER_TIMEOUT (13 R305, R317): 65,536 hearth cycles after a slice end without the RTH that returns to RUN, the handler is
aborted and the context faults. -/
def execHandlerTimeout (r : FlueRef) (s : State) : Res :=
  match s.flue? r.stove r.slot with
  | none => .next s
  | some f =>
    if f.phase = .handler && f.sliceEnd && 65536 ≤ f.hlimit then
      .next (s.contextFault f.cid 3 (s.lhearth (hearthOf r.stove)) 0)
    else .next s

/-! ### Frame room (05 R114-R117) -/

/-- FRAME_GRANT (05 R117): the flue that has waited longest gets its granules, when enough are free. A flue whose cause is delivered now or
that is to leave its slot is not granted: those rows of 05 R99 stand first. -/
def execFrameGrant (stove : Nat) (s : State) : Res :=
  let st := s.stove stove
  match st.requests with
  | [] => .next s
  | (_, slot, n) :: _ =>
    if st.freeGranules < n then .next s
    else
      let s0 := if st.spill == some slot then s.setStove stove { st with spill := none, idle := 0 } else s
      match s0.flue? stove slot with
      | none => .next s
      | some f =>
        if f.stopped || f.delivers then .next s
        else match f.call with
        | some c =>
          if f.phase = .frameWait then
            .next (((s0.commit stove slot).modFlue stove slot fun g => g.callNow c).afterPark stove slot)
          else .next (s0.setFlue stove slot { f with granted := true })
        | none => .next (s0.setFlue stove slot { f with granted := true })

/-! ### The spill stack (05 R118-R122) -/

/-- W(k): registers of the frames below depth `k` (05 R121). -/
def Flue.spillWord (f : Flue) (k : Nat) : Nat := (f.frames.take k).foldl (fun n fr => n + fr.demand) 0

/-- The spill base of a flue (15 R345). -/
def State.spillBase (s : State) (stove : Nat) (f : Flue) : DWord :=
  match s.kernel? f.part f.kslot with
  | some k => privBase k (s.groupOf stove f).window f.gflue
  | none => 0
/-- The extent of the spill stack of a flue, in bytes per lane. -/
def State.spillExtent (s : State) (f : Flue) : Nat :=
  match s.kernel? f.part f.kslot with
  | some k => k.launch.spill
  | none => 0

/-- The physical addresses of the lines of registers of the frame at depth `k`, one line of 128 bytes per register; a cause,
or a page that is to be made resident (05 R122). -/
def State.spillLines (s : State) (stove : Nat) (f : Flue) (k : Nat) (acc : Acc) : DevRes (List Nat) :=
  let base := s.spillBase stove f
  (List.range (f.frames.getD k {}).demand).foldr (fun j r =>
    match r with
    | .ok l => match s.devPa f.cid (base + BitVec.ofNat 64 ((f.spillWord k + j) * 128)) acc with
      | .ok pa => if acc == .load && s.bad pa then .cause cUNCORR else .ok (pa :: l)
      | .cause c => .cause c
      | .wait => .wait
    | x => x) (.ok [])

/-- The pages of a frame's spill lines that are paged out are asked of the host (19 R412). -/
def State.wantSpill (s : State) (stove : Nat) (f : Flue) (k : Nat) : State :=
  s.wantRange f.cid (s.spillBase stove f + BitVec.ofNat 64 (f.spillWord k * 128)) ((f.frames.getD k {}).demand * 128)

/-- The 128 bytes of a register. -/
def regBytes (regs : SMap 32) (n : Nat) : List Byte :=
  ((List.range 32).map fun l => leBytes 4 (SMap.get regs (regKey n l)).toNat).flatten
/-- The words of a register from its bytes. -/
def regWords (n : Nat) (bs : List Byte) : List (Nat × Word) :=
  (List.range 32).map fun l => (regKey n l, BitVec.ofNat 32 (leNat ((bs.drop (4 * l)).take 4)))

/-- REFILL_COMPLETE (05 R115, R122): the granted frame is read back from the spill stack. A flue that is to leave its slot abandons its
refill instead (05 R99). -/
def execRefillComplete (r : FlueRef) (s : State) : Res :=
  match s.flue? r.stove r.slot with
  | none => .next s
  | some f =>
    if f.phase ≠ .refillWait || !f.granted || f.stopped then .next s
    else
      let k := f.curDepth
      match s.spillLines r.stove f k .load with
      | .wait => .next (s.wantSpill r.stove f k)
      | .cause _ => .next (s.contextFault f.cid 1 (s.lhearth (hearthOf r.stove)) 0)
      | .ok lines =>
        let q := lines.zipIdx.foldl (fun (a : SMap 32 × State) (p : Nat × Nat) =>
          let b := a.2.tileRead f.cid p.1 128 (hearthOf r.stove) 0
          (SMap.setAll a.1 (regWords p.2 b.1), b.2)) ([], s)
        .next (q.2.modFlue r.stove r.slot fun g =>
          let fr : Frame := { g.top with regs := q.1, spilled := false }
          Flue.checkStuck { g with frames := g.frames.dropLast ++ [fr], phase := .run, granted := false })

/-- The waiting flue that the escape spill engine works for: the greatest depth, then the lower slot (05 R119). -/
def Stove.spillChoice (st : Stove) : Option Nat :=
  (st.flues.foldl (fun (m : Option (Nat × Nat)) p =>
    if p.2.request.isSome then match m with
      | none => some (p.1, p.2.curDepth)
      | some (j, d) => if d < p.2.curDepth then some (p.1, p.2.curDepth) else some (j, d)
    else m) none).map (·.1)

/-- ESCAPE_SPILL_START (05 R118, R119). -/
def execEscapeSpillStart (stove : Nat) (s : State) : Res :=
  let st := s.stove stove
  if st.spill.isSome || st.idle < 256 then .next s
  else match st.spillChoice with
    | none => .next s
    | some j => .next (s.setStove stove { st with spill := some j })

/-- A request of a waiting flue can be met: the requests that go before it and it fit in the free granules (05 R117, R119). -/
def Stove.canMeet (st : Stove) (slot : Nat) : Bool :=
  match Tab.get? st.flues slot with
  | none => false
  | some f =>
    let ahead := (st.requests.takeWhile fun r => r.2.1 != slot).foldl (fun n r => n + r.2.2) 0
    match f.request with
    | some n => ahead + n ≤ st.freeGranules
    | none => false

/-- The depths of a flue whose frames may be spilled, lowest first: below the current depth, in the pool, and with no write
still to come (05 R119). -/
def Flue.spillable (f : Flue) : List Nat :=
  (List.range f.curDepth).filter fun k =>
    let fr := f.frames.getD k {}
    !fr.spilled && !f.busyUids.contains fr.uid

/-- The next frame to spill for a flue: its own first, then those of the other flues by greatest depth (05 R119). -/
def Stove.victim (st : Stove) (chosen : Nat) : Option (Nat × Nat) :=
  let own := match Tab.get? st.flues chosen with
    | some f => f.spillable.head?.map fun k => (chosen, k)
    | none => none
  match own with
  | some v => some v
  | none => (st.flues.foldl (fun (m : Option (Nat × Nat × Nat)) p =>
      if p.1 = chosen then m
      else match p.2.spillable.head? with
        | none => m
        | some k => match m with
          | none => some (p.1, p.2.curDepth, k)
          | some (j, d, k') => if d < p.2.curDepth then some (p.1, p.2.curDepth, k) else some (j, d, k')) none).map fun v => (v.1, v.2.2)

/-- Frames that an escalating lane has still to write. -/
def Stove.escUids (st : Stove) (slot : Nat) : List Nat :=
  ((st.esc.filter fun e => e.slot == slot).map (·.writes)).flatten.filterMap fun w => match w.loc with
    | .v u _ => some u
    | _ => none

/-- ESCAPE_SPILL_FRAME_DONE (05 R119, R121, R122): the engine has written one frame to its flue's spill stack. It spills until the
chosen flue's request can be met. When that flue waits no more before its grant, because a cause was delivered to it or it left, the
engine stops and the count starts again (DESIGN CHOICE: R119 names the stop at the grant only; assumption 53). -/
def execEscapeSpillFrameDone (stove : Nat) (s : State) : Res :=
  let st := s.stove stove
  match st.spill with
  | none => .next s
  | some chosen =>
    match (Tab.get? st.flues chosen).bind Flue.request with
    | none => .next (s.setStove stove { st with spill := none, idle := 0 })
    | some _ =>
      if st.canMeet chosen then .next s
      else
      let masked := { st with flues := st.flues.map fun (p : Nat × Flue) =>
        (p.1, { p.2 with outs := p.2.outs ++ [({ writes := (st.escUids p.1).map fun u =>
          ({ loc := .v u 0, lane := 0, val := 0 } : LaneWrite) } : Outstanding)] }) }
      match masked.victim chosen with
      | none => .next s
      | some (slot, k) =>
        match s.flue? stove slot with
        | none => .next s
        | some f =>
          let fr := f.frames.getD k {}
          let here := s.lhearth (hearthOf stove)
          if s.spillExtent f < 4 * (f.spillWord k + fr.demand) then .next (s.contextFault f.cid 1 here 0)
          else match s.spillLines stove f k .store with
            | .wait => .next (s.wantSpill stove f k)
            | .cause _ => .next (s.contextFault f.cid 1 here 0)
            | .ok lines =>
              let s1 := lines.zipIdx.foldl (fun (s : State) (p : Nat × Nat) => s.tileWrite f.cid p.1 (regBytes fr.regs p.2) (hearthOf stove) 0) s
              .next ((s1.count f.cid 11).modFlue stove slot fun g =>
                { g with frames := g.frames.set k { fr with regs := [], spilled := true } })

/-! ### Switch-outs and recalls -/

/-- An open region is discarded in its slot (13 R309, R322): AWWAITs complete, rendezvous and flags go, and the lanes of the
region-restart mask stand at its entry. -/
def Flue.discardHere (die : Die) (f : Flue) : Flue :=
  if f.regionOpen then { (awComplete die f 0xFFFFFFFF#32).discard with rvs := [], flags := [] }.toEntry else f

/-- A flue that waits for a page or for ring room leaves its slot once it is quiet (13 R311, 11 R268), whether it is in RUN or waits for frame
room or a refill. In handler mode it stays: 05 R99 gives HANDLER no such row. It stays as well when the save area has no room (13 R322): its
region is discarded and it waits in its slot. A page that is paged out is asked of the host. -/
def State.waitOut (s : State) (stove slot : Nat) : State :=
  match s.flue? stove slot with
  | none => s
  | some f =>
    if f.stays then s
    else
      let ask := match f.pageWait with
        | some va => s.askPage f.cid va
        | none => s
      if f.phase = .handler then ask.modFlue stove slot fun g => { g with stays := true }
      else if !f.quiet || !f.pending.isEmpty || f.phase = .drain then s
      else
        let why : OutWhy := match f.pageWait with
          | some va => .page va
          | none => .ring
        match ask.flueOut stove slot why with
        | some s1 => s1
        | none =>
          let s1 := ask.countDiscard f
          let st := s1.stove stove
          (s1.setStove stove { st with latch := if f.regionOpen then withdraw st.latch slot else st.latch }).modFlue stove slot fun g =>
            { g.discardHere (s.die (dieOf stove)) with stays := true }

/-- A page that an access of a context has met is still not resident. -/
def State.pageMissing (s : State) (cid : Nat) (va : DWord) : Bool :=
  match s.devPa cid va .load with
  | .wait => true
  | _ => false

/-- A page of a context has become resident (13 R311): flues whose page it is may go on, released tiles reach their bitmaps (16 R368). -/
def State.pageReady (s : State) (cid : Nat) : State :=
  let fl := fun (f : Flue) => match f.pageWait with
    | some va => if f.cid = cid && !s.pageMissing cid va then { f with pageWait := none, stays := false } else f
    | none => f
  let sv := fun (v : SavedFlue) => match v.why with
    | .page va => if v.flue.cid = cid && !s.pageMissing cid va then { v with due := true } else v
    | _ => v
  let gr := fun (g : Group) => { g with saved := Tab.mapVals sv g.saved }
  (s.mapStoves fun _ st => { st with flues := Tab.mapVals fl st.flues, groups := Tab.mapVals gr st.groups }).flushBits cid

/-- The round of a partition's queues ends when it may. -/
def State.endRound (s : State) (part : Nat) : State :=
  match s.part? part with
  | some p => s.setPart part p.endRound
  | none => s

/-- What a stove's pop does with the entry that it takes (17 R380, R383, R384). A group whose images fail a tag faults its context (13
R319). -/
def State.takeEntry (s : State) (stove part : Nat) (p : Partition) (c : Candidate) : State :=
  let p1 := p.popped (s.lstove stove) c.key
  match c.what with
  | .record kslot entry =>
    ((s.setPart part (p1.dispatched c)).dispatch stove part kslot entry).endRound part
  | .group idx =>
    match p.switched[idx]? with
    | none => s
    | some w =>
      if s.badRuns w.group.cid w.runs then s.contextFault w.group.cid 5 0 0
      else (s.setPart part { p1 with switched := p1.switched.eraseIdx idx }).groupIn stove w

/-- STOVE_POP (17 R380): a stove takes the first entry that it may take, unless a stove of a higher number has popped in this control-island
cycle, or a flue of the stove that waits for its recall keeps it off (R382). -/
def execStovePop (stove : Nat) (s : State) : Res :=
  match s.partOf stove with
  | none => .next s
  | some part =>
    match s.part? part with
    | none => .next s
    | some p =>
      if !s.partRuns p || s.lstove stove < p.popNext then .next s
      else match firstOf p (s.candidates part p stove) with
        | none => .next s
        | some c =>
          if (match (s.stove stove).recallPrio with | some n => decide (c.prio ≤ n) | none => false) then .next s
          else .next (s.takeEntry stove part p c)

/-- A flue that is out does not come back now: its context's slice does not run (13 R312), or the stove makes room for an entry of higher
priority (17 R382). -/
def State.recallHeld (s : State) (stove : Nat) (f : Flue) : Bool :=
  match s.part? f.part with
  | none => false
  | some p => !s.mayRun p f.cid || match p.chosen with
    | some ch => ch.stove == stove && f.prio < ch.prio
    | none => false

/-- FLUE_RECALL (13 R311, R315, 18 R394): a flue switched out alone whose recall is due comes back to its stove; an image that fails
a tag faults the context (13 R319). -/
def execFlueRecall (stove group gflue : Nat) (s : State) : Res :=
  match s.group? stove group with
  | none => .next s
  | some g =>
    match Tab.get? g.saved gflue with
    | none => .next s
    | some v =>
      if !v.due || s.recallHeld stove v.flue then .next s
      else match s.flueIn stove group gflue with
        | none => .next s
        | some s1 =>
          if s.badRuns v.flue.cid (v.run :: g.headerRun.toList) then .next (s.contextFault v.flue.cid 5 0 0) else .next s1

/-- SLICE_END (13 R313, 21 R435): the flues of the current context meet a slice end, and the next context with work is current.
With one context holding work nothing is switched out. -/
def execSliceEnd (part : Nat) (s : State) : Res :=
  match s.part? part with
  | none => .next s
  | some p =>
    if p.slice = 0 || p.state ≠ .running || p.sliceAge < p.slice then .next s
    else
      let cs := p.working
      match p.currentCid with
      | none => .next s
      | some cur =>
        let nxt := match cs.find? fun c => cur < c with
          | some c => some c
          | none => cs.head?
        let s1 := s.setPart part { p with current := nxt, sliceAge := 0 }
        if nxt == some cur || nxt.isNone then .next s1
        else
          let on := s1.partStoves part
          .next (s1.mapStoves fun n st =>
            if on.contains n then
              { st with flues := Tab.mapVals (fun (f : Flue) => if f.cid = cur && !f.sliceEnd then { f with sliceEnd := true, hlimit := 0 } else f) st.flues }
            else st)

/-- YIELD_DEADLINE_EXPIRY (13 R314): the yield counter has reached the deadline of a flue that a slice end has met: it is stopped
by force, and an overrun is recorded. -/
def execYieldDeadlineExpiry (r : FlueRef) (s : State) : Res :=
  match s.flue? r.stove r.slot with
  | none => .next s
  | some f =>
    if f.sliceEnd && f.ydl != 0 && f.ydl.toNat ≤ f.ycount && f.phase != .handler && !f.preempt then
      let s1 := s.setFlue r.stove r.slot { f with preempt := true, overrun := true }
      match s1.kernel? f.part f.kslot with
      | none => .next s1
      | some k => .next (s1.setKernel f.part f.kslot { k with overrun := min (k.overrun + 1) (2 ^ 32 - 1) })
    else .next s

/-- Insert by a key, lowest first. -/
def insertBy {α : Type} (key : α → Nat × Nat × Nat) (x : α) : List α → List α
  | [] => [x]
  | y :: t =>
    let a := key x
    let b := key y
    if a.1 < b.1 || (a.1 == b.1 && (a.2.1 < b.2.1 || (a.2.1 == b.2.1 && a.2.2 < b.2.2))) then x :: y :: t else y :: insertBy key x t

/-- The barrier at which every live lane of a flue waits: at a BAR, or at a BARW of a generation that is not complete. -/
def State.allWait (s : State) (stove : Nat) (f : Flue) : Option Nat :=
  (List.range 16).find? fun b =>
    let bf := (s.bar stove f.group b).flue f.gflue
    let atBarw := maskOf fun l => match s.peekAt stove f (f.pcOf l) with
      | some (.barw x) => barNum x == b && bf.pend
      | _ => false
    f.live != 0 && f.live &&& ~~~(bf.wait ||| atBarw) == 0

/-- The victims of slot pre-emption on a stove, in the order of R315. Among several of its step 1 or of its step 2 the lower slot goes first
(DESIGN CHOICE: R315 orders step 3 only; assumption 53). -/
def State.victims (s : State) (stove : Nat) : List (Nat × OutWhy) :=
  let st := s.stove stove
  let ok := st.flues.filter fun p => p.2.phase != .handler && p.2.phase != .drain && !p.2.inMmah
  let key := fun (p : Nat × Flue) =>
    if (s.allWait stove p.2).isSome then (0, p.1, 0)
    else if p.2.phase = .frameWait then (1, p.1, 0)
    else (2 + p.2.prio, 2 ^ 64 - p.2.stamp, 32 - p.1)
  (ok.foldl (fun acc p => insertBy key p acc) []).map fun p =>
    (p.1, match s.allWait stove p.2 with
      | some b => .barrier b
      | none => .pre)

/-- The image of a flue fits in the save area of its context (13 R322). -/
def State.fitsOut (s : State) (stove : Nat) (f : Flue) : Bool :=
  match s.group? stove f.group with
  | some g => (takeRuns f.cid (g.alonePages f) s).isSome
  | none => false

/-- Switch a flue out alone for slot pre-emption: a wake-up record is left in its barrier (18 R394). -/
def State.giveUp (s : State) (stove slot : Nat) (f : Flue) (why : OutWhy) : Option State :=
  (s.flueOut stove slot why).map fun s1 =>
    let s2 := s1.count f.cid 13
    match why with
    | .barrier b =>
      let x := s2.bar stove f.group b
      s2.setBar stove f.group b { x with wake := x.wake ||| laneBit f.gflue }
    | _ => s2

/-- Switch one victim out. One whose image does not fit is passed over (13 R322); one with instructions outstanding or a cause to be
delivered is stopped, and leaves once they are complete (05 R99). -/
def State.preemptOne (s : State) (stove : Nat) : List (Nat × OutWhy) → State
  | [] => s
  | (slot, why) :: rest =>
    match s.flue? stove slot with
    | none => s.preemptOne stove rest
    | some f =>
      if !s.fitsOut stove f then s.preemptOne stove rest
      else if !f.quiet || !f.pending.isEmpty then s.setFlue stove slot { f with preempt := true }
      else (s.giveUp stove slot f why).getD (s.preemptOne stove rest)

/-- The victims of a pre-emption for an entry of a priority: a flue of the group with the lowest priority is one only below that priority
(17 R382). -/
def State.victimsFor (s : State) (stove prio : Nat) : List (Nat × OutWhy) :=
  (s.victims stove).filter fun v => match s.flue? stove v.1 with
    | some f => v.2 != .pre || f.phase == .frameWait || f.prio < prio
    | none => false

/-- An entry that waits for room (17 R382), the stoves that may take it, and which stoves have room for it. -/
structure Starved where
  key : PoolKey
  prio : Nat
  stoves : List Nat
  roomy : List Nat

/-- The entries of a partition's pools that may go to a stove now, each with the stoves that may take it and whether a stove has room. -/
def State.waitingEntries (s : State) (part : Nat) (p : Partition) : List (Nat × Starved) :=
  let stoves := s.partStoves part
  let recs := (p.kernels.map fun (kk : Nat × Kernel) =>
    let k := kk.2
    if k.state != .running || !s.mayRun p k.cid then []
    else (k.records.filter fun (e : Nat × RecEntry) => e.2.record.ready).map fun (e : Nat × RecEntry) =>
      let hint := if e.2.record.affLost || 2048 ≤ e.2.age then none else e.2.record.affin
      (e.2.age, (⟨.record k.uid e.1, k.prio,
        stoves.filter fun n => s.withinLimits part kk.1 k n && (hint.isNone || hint == some (s.lhearth (hearthOf n))) &&
          (!e.2.record.spawned || k.windows.length < 4096),
        stoves.filter fun n => (s.stove n).room k.launch.flues k.launch.shared (k.launch.flues * k.launch.demand / 8) k.launch.accRows⟩ : Starved))).flatten
  let grps := p.switched.filterMap fun w =>
    match Tab.get? p.kernels w.group.kslot with
    | none => none
    | some k =>
      if !s.mayRun p w.group.cid then none
      else some (w.age, (⟨.group w.group.uid, w.group.prio,
        stoves.filter fun n => s.withinLimits part w.group.kslot k n && (!w.group.mmah || w.group.stove == s.lstove n),
        stoves.filter fun n => (s.stove n).roomFor w⟩ : Starved))
  recs ++ grps

/-- The entry of highest priority that has waited 256 control-island cycles and that no stove which may take it has room for (17 R382). -/
def State.starved (s : State) (part : Nat) (p : Partition) : Option Starved :=
  ((s.waitingEntries part p).filter fun x => 256 ≤ x.1 && !(x.2.stoves.any x.2.roomy.contains)).foldl (fun (m : Option Starved) x => match m with
    | none => some x.2
    | some y => if y.prio < x.2.prio then some x.2 else some y) none

/-- The lowest priority of a resident group. -/
def Stove.lowestPrio (st : Stove) : Option Nat :=
  st.groups.foldl (fun m g => match m with
    | none => some g.2.prio
    | some n => some (min n g.2.prio)) none

/-- The stove that is to make room for an entry (17 R382): of those that may take it, the one whose lowest-priority resident group has the
lowest priority below the entry's; ties go to the lower logical stove. -/
def State.chooseStove (s : State) (x : Starved) : Option Nat :=
  (x.stoves.foldl (fun (m : Option (Nat × Nat)) n => match (s.stove n).lowestPrio with
    | none => m
    | some q =>
      if x.prio ≤ q then m
      else match m with
        | none => some (n, q)
        | some (_, q') => if q < q' then some (n, q) else m) none).map (·.1)

/-- A flue that a slot pre-emption has chosen and that has not left yet. -/
def Flue.chosen (f : Flue) : Bool := f.preempt && !f.sliceEnd

/-- A chosen flue leaves once it is quiet and no cause waits to be delivered; if its image does not fit, the next candidate is taken. -/
def State.preemptNow (s : State) (n prio : Nat) : State :=
  match (s.victims n).find? fun v => (s.flue? n v.1).any Flue.chosen with
  | none => s
  | some v =>
    match s.flue? n v.1 with
    | none => s
    | some f =>
      if !f.quiet || !f.pending.isEmpty then s
      else
        let s1 := s.setFlue n v.1 { f with preempt := false }
        (s1.giveUp n v.1 f v.2).getD (s1.preemptOne n ((s1.victimsFor n prio).filter fun w => w.1 != v.1))

/-- The next flue that the chosen stove gives up, until it has room; an entry that is gone, or that no flue can make room for, is given
up. -/
def State.preemptFor (s : State) (part : Nat) (p : Partition) (ch : Chosen) : State :=
  match (s.waitingEntries part p).find? fun x => x.2.key == ch.key with
  | none => s.setPart part { p with chosen := none }
  | some x =>
    if x.2.roomy.contains ch.stove then s
    else if (s.victimsFor ch.stove ch.prio).isEmpty then s.setPart part { p with chosen := none }
    else s.preemptOne ch.stove (s.victimsFor ch.stove ch.prio)

/-- SLOT_PREEMPTION (13 R315, 17 R382): a flue chosen before leaves; else the stove that makes room for an entry gives up the next flue; else
a stove is chosen for an entry that has waited. -/
def execSlotPreemption (part : Nat) (s : State) : Res :=
  match s.part? part with
  | none => .next s
  | some p =>
    match (s.partStoves part).find? fun n => (s.stove n).flues.any fun f => f.2.chosen with
    | some n => .next (s.preemptNow n ((p.chosen.map fun ch => ch.prio).getD 0))
    | none =>
      match p.chosen with
      | some ch => .next (s.preemptFor part p ch)
      | none =>
        match s.starved part p with
        | none => .next s
        | some x =>
          match s.chooseStove x with
          | none => .next s
          | some n => .next ((s.setPart part { p with chosen := some ⟨n, x.key, x.prio⟩ }).preemptOne n (s.victimsFor n x.prio))

/-- The service firmware or the recovery core switches groups of a partition (13 R312): in a recovery, in test mode, and while the
partition does not run. -/
def State.firmwareSwitches (s : State) (part : Nat) : Bool :=
  s.fw.frozen || s.testMode || match s.part? part with
  | some p => p.state != .running
  | none => true

/-- The partition shares its time among contexts, and another context's slice runs (21 R435). -/
def State.notItsSlice (s : State) (part cid : Nat) : Bool :=
  match s.part? part with
  | some p => p.slice != 0 && p.currentCid != some cid
  | none => false

/-- A flue may leave with its group: its instructions are complete, and no cause waits to be delivered, which goes before (05 R99). -/
def Flue.mayLeave (f : Flue) : Bool := f.quiet && f.phase != .drain && (f.phase == .handler || f.pending.isEmpty)

/-- WHOLE_GROUP_SWITCH_OUT (13 R316-R318, R322, 14 R335, 21 R439): every flue of a group leaves together once its instructions
are complete and no cause waits to be delivered (05 R99); one in HANDLER goes as it is. For a slice pre-emption every flue has to
have stopped, and one in HANDLER is waited for (R317). Any other group goes only when the firmware switches groups, or for a seal (R312). Without room in the save area the
context faults. -/
def execWholeGroupSwitchOut (stove group : Nat) (s : State) : Res :=
  match s.group? stove group with
  | none => .next s
  | some g =>
    let fl := ((s.stove stove).flues.filter fun p => p.2.group == group).map (·.2)
    let sliced := (fl.any fun f => f.sliceEnd) || s.notItsSlice g.part g.cid
    if fl.isEmpty && g.saved.isEmpty then .next s
    else if !sliced && !s.firmwareSwitches g.part && !(fl.all fun f => f.halt) then .next s
    else if !(fl.all Flue.mayLeave) then .next s
    else if sliced && !s.firmwareSwitches g.part && !(fl.all fun f => f.stopped && f.phase != .handler) then .next s
    else match s.groupOut stove group with
      | some s1 => .next s1
      | none => .next (s.contextFault g.cid 6 (s.lhearth (hearthOf stove)) 0)

/-- YIELD (08 R193, 13 R314): at a slice end the flue commits its region and stops past the YIELD; the yield counter starts
again. -/
def execYield (x : CArgs) (s : State) : Res :=
  onIssue s fun i f =>
    outside s i f (i.groupActs x.guard) (
      if f.sliceEnd then
        (s.commit i.stove i.slot).upd i fun g => { g.finish i 0 with preempt := true, ycount := 0 }
      else s.upd i fun g => { g.finish i 0 with ycount := 0 })

end Sys2Proof.Machine
end

