-- ==== Sys2Proof/Machine/Pages.lean ====
section
/-! DEFINITION. The service firmware's page work (19 R406-R413, R417): free pages, tables, the page services, demand-zero
pages, migration, and sealed paging. What R410 leaves open of the services is in assumption 22. -/

namespace Sys2Proof.Machine

/-! ### Free pages -/

/-- The first page and the number of pages of a stack where context pages may lie (19 R400). -/
def stackPages (st : Nat) : Nat × Nat := if st = 0 then (393216, 23199744) else (st * 2 ^ 25, 23592960)

/-- The number of a stack's owned pages. -/
def State.ownedIn (s : State) (st : Nat) : Nat :=
  (s.own.filter fun (x : Nat × Own) => x.2.state == .owned && x.1 / 2 ^ 25 == st).length

/-- The stack of a list with the fewest owned pages, the lower number on a tie, first (19 R411). -/
def State.byOwned (s : State) (l : List Nat) : List Nat :=
  l.foldl (fun acc st => insertBy (fun x => (s.ownedIn x, x, 0)) st acc) []

/-- The stacks in the order of R411 for a stove: those that attach to its die, then the others. -/
def State.stackOrder (s : State) (stove : Nat) : List Nat :=
  let d := dieOf stove
  s.byOwned [2 * d, 2 * d + 1] ++ s.byOwned ((List.range 16).filter fun x => x / 2 != d)

/-- The first free run of `k` pages at or after position `r` of the runs of an area, in a circle. The fuel bounds the runs
looked at. -/
def State.freeRunIn (s : State) (lo runs k : Nat) : Nat → Nat → Option Nat
  | 0, _ => none
  | fuel + 1, r =>
    let p := lo + r % runs * k
    if (s.own.any fun (x : Nat × Own) => p ≤ x.1 && x.1 < p + k && x.2.state != .free) then
      s.freeRunIn lo runs k fuel (r + 1)
    else some p

/-- Some free run of `k` pages of the first stack of a list that has one: which one is a free choice (assumption 9). -/
def State.pickRun (s : State) (k : Nat) : List Nat → Option Nat × State
  | [] => (none, s)
  | st :: rest =>
    let a := stackPages st
    let r := s.takeFree
    match r.2.freeRunIn a.1 (a.2 / k) k (s.own.length + 1) r.1.toNat with
    | some p => (some p, r.2)
    | none => r.2.pickRun k rest

/-- Take a free page for a context, reading zero, in some stack. -/
def State.takePage (s : State) (cid : Nat) (st : OState) : Option Nat × State :=
  let r := s.takeFree
  let first := r.1.toNat % 16
  match r.2.pickRun 1 ((List.range 16).map fun j => (first + j) % 16) with
  | (some p, s1) => (some p, (s1.scrubPages [p]).ownPages [p] cid st)
  | (none, s1) => (none, s1)

/-- A stove where a flue of a context waits for the page of an address. -/
def State.waiterOf (s : State) (cid : Nat) (va : DWord) : Option Nat :=
  let same := fun (w : DWord) => w.toNat / 4096 == va.toNat / 4096
  let waits := fun (v : SavedFlue) => v.flue.cid == cid && match v.why with
    | .page w => same w
    | _ => false
  (s.stoves.find? fun x => (x.2.flues.any fun f => f.2.cid == cid && f.2.pageWait.any same) ||
    x.2.groups.any fun g => g.2.saved.any fun v => waits v.2).map (·.1)

/-- Take a free page that comes back for an address: of the stack nearest the stove that waits for it (19 R411, R412), of any stack when none
does. -/
def State.takePageFor (s : State) (cid : Nat) (va : DWord) : Option Nat × State :=
  match s.waiterOf cid va with
  | none => s.takePage cid .owned
  | some n =>
    match s.pickRun 1 (s.stackOrder n) with
    | (some p, s1) => (some p, (s1.scrubPages [p]).ownPages [p] cid .owned)
    | (none, s1) => (none, s1)

/-! ### Tables -/

/-- Where the entry of a virtual address at a level lies: there, under a larger leaf (or a mark of one), or below an invalid
entry of a higher level. -/
inductive LeafPos where
  | entry (addr : Nat) (e : DWord)
  | covered (e : DWord)
  | gap (addr : Nat)
  deriving DecidableEq, Repr

/-- Go down the tables to a level. The first number is the level of the table plus one. -/
def leafPos (m : Memory) (va lvl : Nat) : Nat → Nat → LeafPos
  | 0, a => .gap a
  | n + 1, a =>
    let addr := a + 8 * (va / 2 ^ (12 + 9 * n) % 512)
    let e := Memory.read8 m addr
    if n = lvl then .entry addr e
    else if pteV e then (if pteLeaf e then .covered e else leafPos m va lvl n (ptePa e))
    else if pteDemand e then .covered e
    else .gap addr

/-- The entry of a virtual address of a context at a level. -/
def State.leafPos (s : State) (cid : Nat) (va : DWord) (lvl : Nat) : LeafPos :=
  match s.ctx? cid with
  | some c => Machine.leafPos s.mem (va.toNat % 2 ^ 57) lvl 5 c.ptroot
  | none => .covered 0

/-- Write a table entry. -/
def State.setPte (s : State) (cid addr : Nat) (e : DWord) : State := s.coreWrite cid addr (leBytes 8 e.toNat)

/-- The bits of an entry that hold a PERM (19 R402, R410). -/
def permBits (p : Byte) : DWord :=
  (if p.getLsbD 0 then 0x20 else 0) ||| (if p.getLsbD 1 then 0x10 else 0) ||| (if p.getLsbD 2 then 0x08 else 0) |||
  (if p.getLsbD 3 then 0x80 else 0)
/-- The PERM that an entry's bits hold. -/
def bitsPerm (e : DWord) : BitVec 4 :=
  (if e.getLsbD 5 then 1 else 0) ||| (if e.getLsbD 4 then 2 else 0) ||| (if e.getLsbD 3 then 4 else 0) |||
  (if e.getLsbD 7 then 8 else 0)
/-- Bits 7 and 5:3 of an entry. -/
def pteBits : DWord := 0xB8
/-- A leaf. -/
def leafOf (pa : Nat) (bits : DWord) : DWord := BitVec.ofNat 64 pa ||| bits ||| 3

/-- The tables down to a level exist, table pages being taken in the service state (19 R410); the address of the entry, or
none when there is no page. The fuel is the number of levels. -/
def State.ensure (s : State) (cid : Nat) (va : DWord) (lvl : Nat) : Nat → Option Nat × State
  | 0 => (none, s)
  | n + 1 =>
    match s.leafPos cid va lvl with
    | .entry a _ => (some a, s)
    | .covered _ => (none, s)
    | .gap a =>
      match s.takePage cid .service with
      | (some p, s1) => (s1.setPte cid a (BitVec.ofNat 64 (p * 4096 + 1))).ensure cid va lvl n
      | (none, s1) => (none, s1)

/-- The leaves of a table: index of the span they cover, level, address and entry. The first number is the level plus one. -/
def tableLeaves (m : Memory) : Nat → Nat → Nat → List (Nat × Nat × Nat × DWord)
  | 0, _, _ => []
  | n + 1, a, i =>
    ((List.range 512).map fun j =>
      let e := Memory.read8 m (a + 8 * j)
      if !pteV e then []
      else if pteLeaf e then [(i * 512 + j, n, a + 8 * j, e)]
      else tableLeaves m n (ptePa e) (i * 512 + j)).flatten

/-- The pages that a leaf maps. -/
def leafPages (lvl : Nat) (e : DWord) : List Nat := (List.range (512 ^ lvl)).map fun j => ptePa e / 4096 + j

/-- Remove every leaf of the other contexts that maps one of the pages (19 R410, R417). -/
def State.unmapOthers (s : State) (cid : Nat) (pages : List Nat) : State :=
  s.ctxs.foldl (fun (s : State) (x : Nat × Context) =>
    if x.1 = cid || x.2.ptroot = 0 then s
    else (tableLeaves s.mem 5 x.2.ptroot 0).foldl (fun (s : State) l =>
      if (leafPages l.2.1 l.2.2.2).any pages.contains then
        (s.setPte x.1 l.2.2.1 0).shootdown x.1 (l.1 * 4096 * 512 ^ l.2.1) (4096 * 512 ^ l.2.1) []
      else s) s) s

/-! ### Page services (19 R410) -/

/-- A request block. -/
structure PageReq where
  va : DWord
  pa : DWord
  perm : Byte
  lvl : Nat
  blk : Nat
  deriving DecidableEq, Repr

/-- The bytes that a request covers. -/
def PageReq.span (r : PageReq) : Nat := 4096 * 512 ^ r.lvl

/-- How a service ends: a status with the pages it concerns and those it frees, or not yet. -/
inductive SvcRes where
  | done (status : Word) (s : State) (pages freeing : List Nat)
  | wait (s : State)
  deriving DecidableEq, Repr

/-- The word at the program counter of a hart inside a context is ECALL. -/
def State.atEcall (s : State) (cid : Nat) (x : Hart) : Bool :=
  match s.devPa cid x.pc .fetch with
  | .ok pa => paKind pa == .hbm && leNat (Memory.read s.mem pa 4) == 0x73
  | _ => false

/-- The context of a caller and the address of its block, when it calls service `svc`: a thread by the ECALL at its program counter. -/
def State.caller (s : State) (c : Caller) (svc : Nat) : Option (Nat × DWord) :=
  match c with
  | .ring p q =>
    match (s.part? p).bind fun x => x.ring.find? fun e => e.seq == q && e.svc.toNat == svc && e.answer.isNone with
    | some e => some (e.cid, e.b ++ e.a)
    | none => none
  | .hart h =>
    let x := s.hart h
    match x.inside with
    | some (cid, _) =>
      if (x.mode == .vs || x.mode == .vu) && s.atEcall cid x && SMap.get x.x 17 == BitVec.ofNat 64 (0x504C0000 + svc) then
        some (cid, SMap.get x.x 10)
      else none
    | none => none

/-- The bytes in which a memory differs from a later one, as they were. -/
def memDiff (old new : Memory) : List (Nat × Byte) :=
  (old.filter fun p => Memory.byte new p.1 != p.2) ++
  (new.filterMap fun p => if (Tab.get? old p.1).isNone then some (p.1, 0) else none)
/-- The ownership records in which a table differs from a later one, as they were. -/
def ownDiff (old new : Tab Own) : List (Nat × Option Own) :=
  (old.filterMap fun p => if Tab.get? new p.1 != some p.2 then some (p.1, some p.2) else none) ++
  (new.filterMap fun p => if (Tab.get? old p.1).isNone then some (p.1, none) else none)

/-- Give a caller its status: the ring entry holds it until it is posted, with what the service has changed since `s0` (22 R446); a thread
has it in a0 and steps past the ECALL. -/
def State.reply (s : State) (c : Caller) (status : Word) (pages freeing : List Nat) (s0 : State) : State :=
  match c with
  | .ring p q =>
    match s.part? p with
    | none => s
    | some x => s.setPart p { x with ring := x.ring.map fun (e : RingEntry) =>
        if e.seq = q then { e with answer := some status, pages := pages, freeing := freeing
                                   undoMem := memDiff s0.mem s.mem, undoOwn := ownDiff s0.own s.own } else e }
  | .hart h =>
    let s1 := s.freePages freeing
    let x := s1.hart h
    s1.setHart h { x with x := SMap.set x.x 10 (status.setWidth 64), pc := x.pc + 4 }

/-- A page service of a context has been done and its result is not posted yet: the firmware serves the context's next one after that
(DESIGN CHOICE, assumption 22). -/
def State.serving (s : State) (cid : Nat) : Bool :=
  s.parts.any fun p => p.2.ring.any fun e => e.cid == cid && isPageService e.svc && e.answer.isSome

/-- A request block: it lies in a page that the context owns and is read, or the end is BADARG, or it is not yet resident. -/
def State.readBlock (s : State) (cid : Nat) (a : DWord) : DevRes PageReq :=
  if a.toNat % 32 ≠ 0 then .cause 6
  else match s.devPa cid a .load with
    | .wait => .wait
    | .cause _ => .cause 6
    | .ok pa =>
      if paKind pa ≠ .hbm || (s.ownOf pa).owner ≠ cid || s.bad pa then .cause 6
      else
        let b := Memory.read s.mem pa 32
        let perm := (b.getD 16 0)
        let lvl := (b.getD 17 0).toNat
        if !zeroBytes b 18 6 || !zeroBytes b 28 4 || 15 < perm.toNat || 1 < lvl || (perm.getLsbD 1 && !perm.getLsbD 0) then
          .cause 6
        else .ok { va := field64 b 0, pa := field64 b 8, perm := perm, lvl := lvl, blk := pa }

/-- Serve a call: the checks of the block, then what the service does. A request changes nothing unless it succeeds. A
thread's call waits until no region buffer holds a sector of the pages (19 R406). A block that is paged out is asked of the host (R412). -/
def pageService (c : Caller) (svc : Nat) (k : Nat → DWord → PageReq → State → SvcRes) (s : State) : State :=
  match s.caller c svc with
  | none => s
  | some (cid, a) =>
    if s.serving cid then s
    else match s.readBlock cid a with
    | .wait => s.askPage cid a
    | .cause _ => s.reply c 6 [] [] s
    | .ok r =>
      match k cid a r s with
      | .wait s1 => s1
      | .done st s1 pages freeing =>
        let isHart := match c with
          | .hart _ => true
          | .ring _ _ => false
        if isHart && s.buffered pages then s else s1.reply c st pages freeing s

/-- A virtual address as the services but WALK take it. -/
def PageReq.vaOk (r : PageReq) : Bool := canonical r.va && r.va.toNat % r.span == 0

/-- The address that MAP and ATTACH name is aligned and lies in memory where pages may be, or in a window (19 R410, 20 R418). -/
def State.mapPaOk (s : State) (cid : Nat) (r : PageReq) (attach : Bool) : Bool :=
  if r.pa.toNat % r.span ≠ 0 then false
  else match paKind r.pa.toNat with
    | .hbm => (List.range (512 ^ r.lvl)).all fun j =>
        let pa := r.pa.toNat + 4096 * j
        let o := s.ownOf pa
        pageArea pa && (if attach then o.state == .sharedClear
          else o.owner == cid && (o.state == .owned || o.state == .sharedClear))
    | .peer n _ => !attach && (match s.ctx? cid with
        | some c => (Tab.get? c.roster n).isSome
        | none => false)
    | .device n _ => !attach && (match s.ctx? cid with
        | some c => (Tab.get? c.iface n).isSome
        | none => false)
    | .hole => false

/-- The table under a valid entry of level 1 that holds no valid leaf: a leaf of 2 MiB may take its place (19 R410: EXISTS is for a valid
leaf). -/
def State.emptyTable (s : State) (e : DWord) : Bool := pteV e && !pteLeaf e && (tableLeaves s.mem 1 (ptePa e) 0).isEmpty

/-- Install a leaf, or a demand-zero mark; an empty table that it replaces is free. -/
def State.mapAt (s : State) (cid : Nat) (r : PageReq) (attach : Bool) : SvcRes :=
  if !r.vaOk then .done 1 s [] []
  else if (attach || r.pa != 0) && (r.pa == 0 || !s.mapPaOk cid r attach) then .done 2 s [] []
  else
    let taken := match s.leafPos cid r.va r.lvl with
      | .entry _ e => pteV e && !s.emptyTable e
      | .covered _ => true
      | .gap _ => false
    let table := match s.leafPos cid r.va r.lvl with
      | .entry _ e => if s.emptyTable e then [ptePa e / 4096] else []
      | _ => []
    if taken then .done 3 s [] []
    else match s.ensure cid r.va r.lvl 5 with
      | (none, _) => .done 5 s [] []
      | (some a, s1) =>
        let e := if r.pa = 0 then permBits r.perm ||| 0x100 else leafOf r.pa.toNat (permBits r.perm)
        let mine := if !attach && r.pa != 0 && r.pa.toNat < localTop then leafPages r.lvl e else []
        .done 0 ((((s1.setPte cid a e).markCmp mine (r.perm.getLsbD 3)).shootdown cid (r.va.toNat % 2 ^ 57) r.span []).freePages table) [] []

/-- A page of a leaf is in transit. -/
def State.moving (s : State) (pages : List Nat) : Bool := pages.any fun p => (s.ownOf (p * 4096)).state == .transit

/-- Do something with the leaf that a request names: a leaf or a demand-zero mark at its level. A paged-out page is first asked
of the host, and a page in transit is waited for (assumption 22). -/
def State.atLeaf (s : State) (cid : Nat) (r : PageReq) (k : Nat → DWord → List Nat → SvcRes) : SvcRes :=
  if !r.vaOk then .done 1 s [] []
  else match s.leafPos cid r.va r.lvl with
    | .entry a e =>
      if pteV e && pteLeaf e then
        let pages := leafPages r.lvl e
        if s.moving pages then .wait s else k a e pages
      else if pteDemand e then k a e []
      else if ptePaged e then .wait (s.say (.pageInRequest cid r.va))
      else .done 4 s [] []
    | _ => .done 4 s [] []

/-- Write an entry and shoot the old one down. -/
def State.changePte (s : State) (cid : Nat) (r : PageReq) (a : Nat) (e : DWord) (pages : List Nat) : State :=
  (s.setPte cid a e).shootdown cid (r.va.toNat % 2 ^ 57) r.span pages

def execMapPage (c : Caller) (s : State) : Res :=
  .next (pageService c 0x100 (fun cid _ r s => s.mapAt cid r false) s)

def execUnmap (c : Caller) (s : State) : Res :=
  .next (pageService c 0x101 (fun cid _ r s => s.atLeaf cid r fun a _ pages => .done 0 (s.changePte cid r a 0 pages) pages []) s)

def execProtect (c : Caller) (s : State) : Res :=
  .next (pageService c 0x102 (fun cid _ r s => s.atLeaf cid r fun a e pages =>
    let mine := pages.filter fun p => (s.ownOf (p * 4096)).owner == cid
    .done 0 ((s.changePte cid r a ((e &&& ~~~pteBits) ||| permBits r.perm) pages).markCmp mine (r.perm.getLsbD 3)) pages []) s)

/-- FREE: the context's own pages are scrubbed and freed; a shared-clear page of another owner is only unmapped; one of its own
has no way to free (19 R417). -/
def execFreePage (c : Caller) (s : State) : Res :=
  .next (pageService c 0x103 (fun cid _ r s => s.atLeaf cid r fun a _ pages =>
    let mine := pages.filter fun p => (s.ownOf (p * 4096)).owner == cid
    if mine.any fun p => (s.ownOf (p * 4096)).state == .sharedClear then .done 2 s [] []
    else .done 0 (s.changePte cid r a 0 pages) pages (mine.filter fun p => (s.ownOf (p * 4096)).state == .owned)) s)

/-- Every page of a leaf is the context's, in a state. -/
def State.allMine (s : State) (cid : Nat) (pages : List Nat) (st : OState) : Bool :=
  !pages.isEmpty && pages.all fun p => (s.ownOf (p * 4096)).owner == cid && (s.ownOf (p * 4096)).state == st

def execSharePage (c : Caller) (s : State) : Res :=
  .next (pageService c 0x104 (fun cid _ r s => s.atLeaf cid r fun _ _ pages =>
    if !s.allMine cid pages .owned then .done 2 s [] []
    else .done 0 ((s.ownPages pages cid .sharedClear).shootdown cid (r.va.toNat % 2 ^ 57) r.span pages) pages []) s)

def execUnshare (c : Caller) (s : State) : Res :=
  .next (pageService c 0x105 (fun cid _ r s => s.atLeaf cid r fun _ _ pages =>
    if !s.allMine cid pages .sharedClear then .done 2 s [] []
    else .done 0 (((s.unmapOthers cid pages).ownPages pages cid .owned).shootdown cid (r.va.toNat % 2 ^ 57) r.span pages) pages []) s)

def execAttach (c : Caller) (s : State) : Res :=
  .next (pageService c 0x106 (fun cid _ r s => s.mapAt cid r true) s)

/-- WALK: OUT of the block is the first failing level, or 0xFF. A block that cannot be written is BADARG. -/
def execWalk (c : Caller) (s : State) : Res :=
  .next (pageService c 0x107 (fun cid a r s =>
    match s.devPa cid a .store with
    | .wait => .wait s
    | .cause _ => .done 6 s [] []
    | .ok _ =>
      if !canonical r.va then .done 1 s [] []
      else
        let out : Nat := match s.walk cid r.va with
          | .leaf _ _ _ => 0xFF
          | .miss l _ _ => l
          | .rsv l => l
          | .uncorr l => l
        .done 0 (s.coreWrite cid (r.blk + 24) (leBytes 4 out)) [] []) s)

/-! ### Demand-zero pages, migration (19 R411) -/

/-- DEMAND_ZERO_FILL (19 R411): the first access to a demand-zero page gets it a free page, or 512 in one aligned run, of the
stack nearest the stove; without one its flue stays away. -/
def execDemandZeroFill (cid : Nat) (va : BitVec 64) (stove : Nat) (s : State) : Res :=
  match s.walk cid va with
  | .miss lvl addr e =>
    if !pteDemand e || 1 < lvl then .next s
    else
      let k := 512 ^ lvl
      match s.pickRun k (s.stackOrder stove) with
      | (none, _) => .next s
      | (some p, s1) =>
        let pages := (List.range k).map fun j => p + j
        .next (((((s1.scrubPages pages).ownPages pages cid .owned).setPte cid addr (leafOf (p * 4096) (e &&& pteBits))).markCmp pages
          (e.getLsbD 7)).pageReady cid)
  | _ => .next s

/-- The leaf of a virtual address and its pages, when all of them are the context's, in a state. -/
def State.ownLeaf (s : State) (cid : Nat) (va : DWord) (st : OState) : Option (Nat × Nat × DWord × List Nat) :=
  match s.walk cid va with
  | .leaf lvl addr e =>
    let pages := leafPages lvl e
    if ptePa e < localTop && s.allMine cid pages st then some (lvl, addr, e, pages) else none
  | _ => none

/-- Start to move pages: they are in transit, and what translates to them is shot down. -/
def State.toTransit (s : State) (cid : Nat) (va : DWord) (lvl : Nat) (pages : List Nat) (migration : Bool) : State :=
  let put := fun (t : Tab Bool) (p : Nat) => Tab.put t p migration
  ((s.ownPages pages cid .transit).modCtx cid fun c => { c with moves := pages.foldl put c.moves }).shootdown cid
    (va.toNat % 2 ^ 57) (4096 * 512 ^ lvl) pages

/-- The pages are in transit by a migration, or by a page-out. -/
def State.movedBy (s : State) (cid : Nat) (pages : List Nat) (migration : Bool) : Bool :=
  match s.ctx? cid with
  | some c => pages.all fun p => Tab.get? c.moves p == some migration
  | none => false
/-- The pages are no longer in transit. -/
def State.moved (s : State) (cid : Nat) (pages : List Nat) : State :=
  s.modCtx cid fun c => { c with moves := c.moves.filter fun (x : Nat × Bool) => !pages.contains x.1 }

/-- The lines of some pages that are uncorrectable or fail their tags, as the lines of the pages that they are copied to. -/
def State.badLinesTo (s : State) (pages : List Nat) (off to_ : Nat) : List (Nat × Byte) :=
  let keys := (s.uncorr.map (·.1) ++ s.llc.map (·.1) ++ s.side.map (·.1)).dedup
  (keys.filter fun l => pages.contains (l / 32) && s.bad (128 * l)).map fun l => (l - off + to_, Tab.getD s.uncorr l 0)

/-- A leaf of a context over moved pages, once they lie at `frame`: repointed when all its pages have moved, and else split into leaves of
4 KiB, for which a table page is taken; none when there is no page. -/
def State.moveLeaf (s : State) (cid : Nat) (pages : List Nat) (frame : Nat) (l : Nat × Nat × Nat × DWord) : Option State :=
  let e := l.2.2.2
  let was := leafPages l.2.1 e
  let now := fun (p : Nat) => if pages.contains p then p * 4096 - pages.headD 0 * 4096 + frame else p * 4096
  if !was.any pages.contains then some s
  else if was.all pages.contains then some (s.setPte cid l.2.2.1 (BitVec.ofNat 64 (now (ptePa e / 4096)) ||| (e &&& 0xFFF)))
  else match s.takePage cid .service with
    | (none, _) => none
    | (some t, s1) =>
      let leaves := was.zipIdx.foldl (fun (s : State) p => s.setPte cid (t * 4096 + 8 * p.2) (leafOf (now p.1) (e &&& pteBits))) s1
      some (leaves.setPte cid l.2.2.1 (BitVec.ofNat 64 (t * 4096 + 1)))

/-- PAGE_MIGRATION (19 R411, R417): first the page goes to the transit state; the next such event copies it to `frame`, changes
every leaf of the context that maps it, and frees the old page. Lines that cannot be read stay so at the new place (R416). -/
def execPageMigration (cid : Nat) (va : BitVec 64) (frame : Nat) (s : State) : Res :=
  match s.ownLeaf cid va .owned with
  | some (lvl, _, _, pages) => .next (s.toTransit cid va lvl pages true)
  | none =>
    match s.ownLeaf cid va .transit with
    | none => .next s
    | some (lvl, _, _, pages) =>
      let dest := (List.range (512 ^ lvl)).map fun j => frame / 4096 + j
      if !s.movedBy cid pages true || s.buffered pages || frame % (4096 * 512 ^ lvl) ≠ 0 ||
         !(dest.all fun p => pageArea (p * 4096) && (s.ownOf (p * 4096)).state == .free) then .next s
      else
        let s0 := s.settlePages pages
        let data := Memory.part s0.mem (pages.headD 0 * 4096) (4096 * 512 ^ lvl)
        let s1 := (s0.scrubPages dest).ownPages dest cid .owned
        let badTo := s0.badLinesTo pages (pages.headD 0 * 32) (frame / 128)
        let s2 := { s1.markCmp dest (s0.ownOf (pages.headD 0 * 4096)).cmp with
                            uncorr := badTo.foldl (fun (t : Tab Byte) (x : Nat × Byte) => Tab.put t x.1 x.2) s1.uncorr,
                            mem := data.foldl (fun (m : Memory) (b : Nat × Byte) => Memory.setByte m (b.1 - pages.headD 0 * 4096 + frame) b.2) s1.mem }
        let leaves := match s2.ctx? cid with
          | some c => tableLeaves s2.mem 5 c.ptroot 0
          | none => []
        match leaves.foldl (fun (m : Option State) l => m.bind fun t => t.moveLeaf cid pages frame l) (some s2) with
        | none => .next s
        | some s3 => .next ((((s3.shootdown cid (va.toNat % 2 ^ 57) (4096 * 512 ^ lvl) pages).freePages pages).moved cid pages).pageReady cid)

/-! ### Sealed paging (19 R412, R413) -/

/-- The additional authenticated data of an image: its bytes +4096 to +4127. -/
def imageAad (i : SealedImage) : List Byte :=
  leBytes 8 i.va.toNat ++ leBytes 2 i.cid ++ leBytes 1 i.perm.toNat ++ [0] ++ leBytes 4 i.seq.toNat ++ List.replicate 16 0
/-- The IV of an image (19 R413). -/
def imageIv (i : SealedImage) : BitVec 96 := BitVec.ofNat 12 i.cid ++ i.va.extractLsb' 12 45 ++ i.seq ++ 0#7

/-- The states in which the host may page (19 R412). -/
def Context.pageable (c : Context) : Bool := c.state == .ready || c.state == .running || c.state == .suspended

/-- PAGEOUT (19 R412, R417): first the page goes to the transit state; the next such event writes the sealed image, and the
entry keeps the sequence number and the permissions. The image is sealed under Kseal, as R412 and 14 R329 say; 14 R332 names Kmem for it
(DEDUCED, assumption 60). A page with a line that cannot be read (R416) is not sealed: it is the context's as before, and the request is
refused (DESIGN CHOICE, assumption 60). -/
def execPageout (cid : Nat) (va : BitVec 64) (s : State) : Res :=
  match s.ctx? cid with
  | none => .next (s.say .refused)
  | some c =>
    if !c.pageable then .next (s.say .refused)
    else match s.ownLeaf cid va .owned with
      | some (lvl, _, _, pages) => if lvl = 0 then .next (s.toTransit cid va lvl pages false) else .next (s.say .refused)
      | none =>
        match s.ownLeaf cid va .transit with
        | none => .next (s.say .refused)
        | some (_, addr, e, pages) =>
          let s0 := s.settlePages pages
          if !s.movedBy cid pages false || s.buffered pages then .next s
          else if (List.range 32).any fun j => s0.bad (pages.headD 0 * 4096 + 128 * j) then
            .next ((((s0.ownPages pages cid .owned).moved cid pages).pageReady cid).say .refused)
          else
            let page := va.toNat / 4096
            let seq := SMap.get c.pageSeqs (page % 2 ^ 45) + 1
            let i : SealedImage := { cid := cid, va := BitVec.ofNat 64 (page * 4096), perm := bitsPerm e, seq := seq, data := [], tag := 0 }
            let data := Config.gcmSeal c.kseal (imageIv i) (imageAad i) (Memory.read s0.mem (pages.headD 0 * 4096) 4096)
            let img : SealedImage := { i with data := data, tag := Config.gcmTag c.kseal (imageIv i) (imageAad i) data }
            let s1 := s0.modCtx cid fun c => { c with pageSeqs := SMap.set c.pageSeqs (page % 2 ^ 45) seq }
            let s2 := s1.setPte cid addr (seq.setWidth 64 <<< 32 ||| (e &&& pteBits) ||| 0x200)
            .next (((s2.freePages pages).moved cid pages).say (.pageImage img))

/-- PAGEIN (19 R412): an image whose tag, CID, VA, SEQ and PERM are those on record comes back; any other is BADIMAGE. -/
def execPagein (cid : Nat) (img : SealedImage) (s : State) : Res :=
  match s.ctx? cid with
  | none => .next (s.say .refused)
  | some c =>
    if !c.pageable then .next (s.say .refused)
    else match s.walk cid img.va with
      | .miss 0 addr e =>
        if !ptePaged e || img.cid ≠ cid || !canonical img.va || img.va.toNat % 4096 ≠ 0 || img.seq ≠ e.extractLsb' 32 32 ||
           img.perm ≠ bitsPerm e || img.tag ≠ Config.gcmTag c.kseal (imageIv img) (imageAad img) img.data then .next (s.say .badImage)
        else match s.takePageFor cid img.va with
          | (none, _) => .next s
          | (some p, s1) =>
            let plain := (Config.gcmOpen c.kseal (imageIv img) (imageAad img) img.data).take 4096
            let s2 := s1.poke (p * 4096) plain
            .next ((((s2.setPte cid addr (leafOf (p * 4096) (e &&& pteBits))).markCmp [p] (e.getLsbD 7)).pageReady cid).say (.status 0))
      | _ => .next (s.say .badImage)

end Sys2Proof.Machine
end

