-- ==== Sys2Proof/Machine/Enclave.lean ====
section
/-! DEFINITION. Contexts on the application cores (14): the enclave instructions, building and measuring, seal, unseal and
destruction, threads that leave, tag failures, and the performance counters. What R333 and R334 leave open is in
assumption 23. -/

namespace Sys2Proof.Machine

/-! ### Executing on a hart -/

/-- A register of a hart. -/
def Hart.reg (x : Hart) (n : BitVec 5) : DWord := if n = 0 then 0 else SMap.get x.x n.toNat
/-- Write a register of a hart; x0 discards writes. -/
def Hart.setReg (x : Hart) (n : BitVec 5) (v : DWord) : Hart := if n = 0 then x else { x with x := SMap.set x.x n.toNat v }

/-- A status of R334, by its number without the sign. -/
def encStatus (n : Nat) : DWord := 0 - BitVec.ofNat 64 n

/-- Run an enclave instruction on the hart that executes. -/
def onHart (s : State) (k : Nat → Hart → State) : Res :=
  match s.core with
  | none => .fault .noIssue
  | some h => .next (k h (s.hart h))

/-- The instruction retires with a value in rd. -/
def State.retireHart (s : State) (h : Nat) (rd : BitVec 5) (v : DWord) : State :=
  let x := s.hart h
  s.setHart h { x.setReg rd v with pc := x.pc + 4 }

/-- The instruction raises an illegal-instruction exception of the hart (14 R333); its entry is RV64's own, which the spec does
not give: the model records it and leaves the hart at the instruction (assumption 23). -/
def State.illegalInst (s : State) (h : Nat) : State :=
  let x := s.hart h
  s.setHart h { x with illegal := x.illegal + 1 }

/-- Run an instruction that only HS and M may execute (14 R333). -/
def onHostHart (s : State) (k : Nat → Hart → State) : Res :=
  onHart s fun h x => if x.mode = .m || x.mode = .hs then k h x else s.illegalInst h

/-! ### Building (14 R325-R328) -/

/-- The pages of a range. -/
def pagesOf (a n : Nat) : List Nat := (List.range ((a + n + 4095) / 4096 - a / 4096)).map fun j => a / 4096 + j

/-- Bytes that the host may hand over: local, outside the holes and the reserved regions, in free pages or in those that ENCNEW took of
them, and readable (14 R327). -/
def State.hostBytes (s : State) (named : List Nat) (pa n : Nat) : Option (List Byte) :=
  let lines := (List.range ((pa + n + 127) / 128 - pa / 128)).map fun j => pa / 128 + j
  if ((pagesOf pa n).all fun p => pageArea (p * 4096) && ((s.ownOf (p * 4096)).state == .free || named.contains p)) &&
     !(lines.any fun l => s.bad (128 * l))
  then some (Memory.read s.mem pa n)
  else none

/-- The fields of a CCB that the host writes (14 R324). -/
def parseCcb (ccb : Nat) (b : List Byte) : Context where
  ccb := ccb
  manifest := fieldNat b 8 8
  nitems := fieldNat b 16 4
  saveBase := fieldNat b 24 8
  saveSize := fieldNat b 32 8
  qtable := fieldNat b 40 8
  nqueues := fieldNat b 48 4
  rosterPa := fieldNat b 56 8
  maxStoves := fieldNat b 128 4
  share := fieldNat b 132 4
  prio := fieldNat b 136 1
  fdom := fieldNat b 137 1
  handler := field64 b 144
  pmsel := SMap.setAll [] ((List.range 16).map fun n => (n, field32 b (320 + 4 * n)))

/-- The values that R324 gives the fields of a CCB. -/
def Context.ccbOk (c : Context) : Bool :=
  c.manifest % 32 == 0 && 1 ≤ c.nitems && c.nitems ≤ 65536 && c.saveBase % 4096 == 0 && c.saveSize % 4096 == 0 &&
  c.nqueues ≤ 256 && c.prio ≤ 7 && c.fdom ≤ 2

/-- Every page of a list may be taken. -/
def State.allFree (s : State) (pages : List Nat) : Bool :=
  pages.all fun p => pageArea (p * 4096) && (s.ownOf (p * 4096)).state == .free

/-- The lowest free CID (14 R323). -/
def State.freeCid (s : State) : Option Nat := (List.range 4096).find? fun c => (s.ctx? c).isNone

/-- A context in BUILDING of this CCB. -/
def State.building (s : State) (ccb : Nat) : Option Nat :=
  (s.ctxs.find? fun (x : Nat × Context) => x.2.ccb == ccb && x.2.state == .building).map (·.1)

/-- The fields of a queue control block, or none when it breaks R327 or R343. -/
def parseQcb (b : List Byte) : Option Queue :=
  let size := fieldNat b 8 4
  let q : Queue := {
    ring := field64 b 0, size := size, prio := b.getD 21 0, fdom := b.getD 22 0
    pin := (b.getD 23 0).getLsbD 0, lfeed := (b.getD 23 0).getLsbD 1
    wdog := fieldNat b 24 4, maxStoves := fieldNat b 28 4, share := fieldNat b 32 4
    handler := field64 b 40, kickva := field64 b 48 }
  if zeroBytes b 12 9 && fieldNat b 36 2 == 0xFFFF && zeroBytes b 56 8 && fieldNat b 0 8 % 4096 == 0 &&
     2 ≤ size && size ≤ 65536 && size &&& (size - 1) == 0 then some q
  else none

/-- The fields of a peer record, or none when it breaks R327. -/
def parsePeer (b : List Byte) : Option Peer :=
  if zeroBytes b 49 7 then
    some { idHash := BitVec.ofNat 256 (fieldNat b 0 32), measH := BitVec.ofNat 128 (fieldNat b 32 16), path := fieldNat b 48 1 }
  else none

/-- How an item ends. -/
inductive ItemRes where
  | ok (s : State)
  | badItem
  | noMem
  deriving DecidableEq, Repr

/-- An item and the bytes copied are absorbed, and BPROG counts it (14 R325, R328). -/
def State.absorb (s : State) (cid : Nat) (masked copied : List Byte) : State :=
  s.modCtx cid fun c => { c with absorbed := c.absorbed ++ masked ++ copied, bprog := c.bprog + 1 }

/-- Bytes with a field replaced by zero. -/
def maskBytes (b : List Byte) (off n : Nat) : List Byte := patchLine b off (List.replicate n 0)

/-- PAGE and ZPAGE (14 R327): a free page is mapped at TARGET and holds the bytes. -/
def State.pageItem (s : State) (cid : Nat) (it : List Byte) (src : Option (List Byte)) : ItemRes :=
  let va := field64 it 8
  let perm := it.getD 1 0
  let used := match s.leafPos cid va 0 with
    | .entry _ e => pteV e
    | .covered _ => true
    | .gap _ => false
  if va.toNat % 4096 ≠ 0 || !canonical va || used || (perm.getLsbD 1 && !perm.getLsbD 0) then .badItem
  else match s.takePage cid .owned with
    | (none, _) => .noMem
    | (some p, s1) =>
      match s1.ensure cid va 0 5 with
      | (none, _) => .noMem
      | (some a, s2) =>
        let s3 := match src with
          | some bs => s2.poke (p * 4096) bs
          | none => s2
        .ok (((s3.setPte cid a (leafOf (p * 4096) (permBits perm))).markCmp [p] (perm.getLsbD 3)).absorb cid
          (if src.isSome then maskBytes it 16 8 else it) (src.getD []))

/-- One manifest item acts (14 R327). Bits 7:4 of PERM are among the values that fail: the spec gives them no meaning and does not call
them reserved (DESIGN CHOICE, assumption 22). -/
def State.item (s : State) (cid : Nat) (c : Context) (it : List Byte) : ItemRes :=
  let kind := fieldNat it 0 1
  let perm := it.getD 1 0
  let target := fieldNat it 8 8
  if !zeroBytes it 2 6 || 15 < perm.toNat || (2 < kind && perm != 0) then .badItem
  else match kind with
    | 1 => match s.hostBytes c.named (fieldNat it 16 8) 4096 with
      | none => .badItem
      | some bs => s.pageItem cid it (some bs)
    | 2 => s.pageItem cid it none
    | 3 => match s.hostBytes c.named (fieldNat it 24 8) 64 with
      | none => .badItem
      | some bs =>
        if c.nqueues ≤ target || (Tab.get? c.queues target).isSome then .badItem
        else match parseQcb bs with
          | none => .badItem
          | some q => .ok ((s.setCtx cid { c with queues := Tab.put c.queues target q }).absorb cid (maskBytes it 24 8) bs)
    | 4 =>
      if 16 ≤ target || (Tab.get? c.threads target).isSome then .badItem
      else
        let t : Thread := { pc := field64 it 16, atp := field64 it 24 }
        -- bits 43:0 of ATP are masked
        let low := maskBytes it 24 5
        let masked := patchLine low 29 [low.getD 29 0 &&& 0xF0]
        .ok ((s.setCtx cid { c with threads := Tab.put c.threads target t }).absorb cid masked [])
    | 5 => match s.hostBytes c.named (fieldNat it 24 8) 64 with
      | none => .badItem
      | some bs =>
        if 256 ≤ target || (Tab.get? c.roster target).isSome then .badItem
        else match parsePeer bs with
          | none => .badItem
          | some p => .ok ((s.setCtx cid { c with roster := Tab.put c.roster target p }).absorb cid (maskBytes it 24 8) bs)
    | _ => .badItem

/-- Keying of the streams in the given states starts (20 R429): SEPOCH rises. -/
def State.startKeying (s : State) (cid : Nat) (from' : LState → Bool) : State :=
  match s.ctx? cid with
  | none => s
  | some c =>
    let rs := (c.roster.filter fun p => from' p.2.lstate).map (·.1)
    let key := fun (p : Peer) => if from' p.lstate then { p with lstate := .keying, sepoch := p.sepoch + 1, tried := true } else p
    let s1 := s.setCtx cid { c with roster := Tab.mapVals key c.roster }
    rs.foldl (fun (s : State) r => s.sayKeyExchange cid r) s1

/-- The last item is measured, and the keys go to the cipher ports (14 R325, R328, R329): the lines written before are under Kmem from
here on, and the flow counters start at zero. -/
def State.finishBuild (s : State) (cid : Nat) : State :=
  let s1 := s.rekeyed fun l => (s.ownOf (128 * l)).owner == cid
  ((s1.modCtx cid fun c => { c with
    state := .ready, keyed := true, meas := shake256 (c.absorbed ++ leBytes 4 c.nitems) 64 }).zeroFlows cid).startKeying cid (· == .idle)

/-! ### Destruction (14 R337) -/

/-- Every interface bound to the context is unbound (20 R425). -/
def State.unbindAll (s : State) (cid : Nat) : State :=
  { s with tdisp := s.tdisp.filter fun (x : Nat × Tdisp) => x.2.cid != cid }

/-- The pages of a context are freed, those of other contexts' leaves to its shared-clear pages first (19 R417). -/
def State.freeAllPages (s : State) (cid : Nat) : State :=
  let mine := s.own.filter fun (x : Nat × Own) => x.2.owner == cid && x.2.state != .free
  let shared := (mine.filter fun (x : Nat × Own) => x.2.state == .sharedClear).map (·.1)
  let s1 := if shared.isEmpty then s else s.unmapOthers cid shared
  s1.freePages (mine.map (·.1))

/-- Scratchpad blocks of a context are scrubbed and freed (14 R337). -/
def State.freeBlocks (s : State) (cid : Nat) : State :=
  { s with dies := s.dies.map fun (x : Nat × Die) =>
    let mine := (x.2.blocks.filter fun b => b.2 == cid).map (·.1)
    let left := x.2.blocks.filter fun b => b.2 != cid
    let scp := mine.foldl (fun m b => Memory.clear m (b * 65536) 65536) x.2.scp
    (x.1, { x.2 with blocks := left, scp := scp }) }

/-- The context stops (14 R337, step 1): work and threads go, and its interfaces are unbound. -/
def State.stopCtx (s : State) (cid : Nat) : State := (((s.dropWork cid fun _ => true).leaveThreads cid 5).unbindAll cid).dropStreams cid

/-- A call of a context that is destroyed is served no more: its entry stays in use until its result is posted (11 R267). -/
def RingEntry.unserved (e : RingEntry) : RingEntry :=
  { e with answer := some 0xFFFFFFFF, pages := [], freeing := [], undoMem := [], undoOwn := [] }

/-- A region buffer of another context holds a sector of a shared-clear page of the context, which its destruction frees (19 R406, R417). -/
def State.heldShared (s : State) (cid : Nat) : Bool :=
  s.buffered ((s.own.filter fun (x : Nat × Own) => x.2.owner == cid && x.2.state == .sharedClear).map (·.1))

/-- The context is destroyed (14 R325, R337): work and threads go, keys are erased, pages and blocks are scrubbed and freed,
streams end; the purge of its cache lines is to come (R323). -/
def State.destroy (s : State) (cid : Nat) : State :=
  let s1 := s.stopCtx cid
  let s2 := { s1 with parts := s1.parts.map fun (x : Nat × Partition) => (x.1, { x.2 with
      ring := x.2.ring.map fun (e : RingEntry) => if e.cid = cid then e.unserved else e
      rounds := x.2.rounds.filter fun (r : Nat × Nat) => r.1 / 65536 != cid }) }
  let s3 := ((s2.freeAllPages cid).freeBlocks cid).zeroFlows cid
  let s4 := s3.modCtx cid fun c => { c with
    state := .destroyed, keyed := false, ptroot := 0, roster := endStreams c.roster, iface := [], moves := [], tids := []
    queues := [], pendingBits := 0, saveRuns := [] }
  { s4 with purge := s4.purge ++ [cid] }

/-- CID_PURGE_COMPLETE (14 R323, R337): nothing tagged with the CID is cached any more, and the CID is free. -/
def execCidPurgeComplete (cid : Nat) (s : State) : Res :=
  if !s.purge.contains cid then .next s
  else
    let tlb := fun (l : List TlbEntry) => l.filter fun e => e.cid != cid
    let s := s.llcDrop fun _ l => l.cid == cid
    .next { s with
      purge := s.purge.filter fun c => c != cid
      ctxs := Tab.del s.ctxs cid
      counts := s.counts.filter fun p => p.1 / 16 != cid
      stoves := s.stoves.map fun (x : Nat × Stove) =>
        (x.1, { x.2 with l1 := dropCid x.2.l1 cid, kcache := dropCid x.2.kcache cid, tlb := tlb x.2.tlb
                         idCache := x.2.idCache.filter fun i => i.1 != cid })
      hearths := s.hearths.map fun (x : Nat × Hearth) =>
        (x.1, { x.2 with tlb := tlb x.2.tlb, walk := x.2.walk.filter fun w => w.cid != cid }) }

/-! ### ENCNEW -/

/-- Measure the next item of a context in BUILDING; the instruction retires with the last item, or when one fails. -/
def State.buildOn (s : State) (h : Nat) (rd : BitVec 5) (cid : Nat) : State :=
  match s.ctx? cid with
  | none => s
  | some c =>
    let fail := fun (n : Nat) => (s.destroy cid).retireHart h rd (encStatus n)
    match s.hostBytes c.named (c.manifest + 32 * c.bprog) 32 with
    | none => fail 6
    | some it => match s.item cid c it with
      | .badItem => fail 6
      | .noMem => fail 5
      | .ok s1 =>
        if c.bprog + 1 = c.nitems then (s1.finishBuild cid).retireHart h rd (BitVec.ofNat 64 cid) else s1

/-- The free pages that a manifest names: its own, and those that hold what its items copy (14 R325, R327). They stay in the service
state until the context is destroyed: the spec names no step that gives them back before (assumption 23). -/
def State.manifestPages (s : State) (manifest nitems : Nat) : List Nat :=
  let named := ((List.range nitems).map fun j =>
    let it := Memory.read s.mem (manifest + 32 * j) 32
    pagesOf (manifest + 32 * j) 32 ++
      (match fieldNat it 0 1 with
      | 1 => pagesOf (fieldNat it 16 8) 4096
      | 3 => pagesOf (fieldNat it 24 8) 64
      | 5 => pagesOf (fieldNat it 24 8) 64
      | _ => [])).flatten
  named.dedup.filter fun p => pageArea (p * 4096) && (s.ownOf (p * 4096)).state == .free

/-- A new context is accepted (14 R325): the CID and the service pages are taken, a nonce is drawn, and the measurement
starts. -/
def State.acceptCtx (s : State) (cid : Nat) (c : Context) (raw : List Byte) (pages : List Nat) (root : Nat) : State :=
  let c1 : Context := { c with
    state := .building, ptroot := root * 4096, nonce := Config.nonce s.rot.nonces
    absorbed := ascii "PLAGIYTH-CTX-V1" ++ (raw.drop 128).take 24 }
  let s1 := (s.ownPages pages cid .service).setCtx cid c1
  { s1 with rot := { s1.rot with nonces := s1.rot.nonces + 1 } }

/-- ENCNEW (14 R325, R327, R333, R334, 22 R444): accept the CCB, or go on with the context that it names. Each execution measures
one item, and the hart stays at the instruction until the last, so that it can be interrupted between items. -/
def execEncnew (x : RArgs) (s : State) : Res :=
  onHostHart s fun h hart =>
    let a := (hart.reg x.rs1).toNat
    let done := fun (n : Nat) => s.retireHart h x.rd (encStatus n)
    if s.stage < 6 || s.testMode then done 1
    else match s.building a with
      | some cid => s.buildOn h x.rd cid
      | none =>
        if a % 4096 ≠ 0 then done 3
        else if (s.ownOf a).state == .service then done 1
        else match s.hostBytes [] a 4096 with
          | none => done 3
          | some raw =>
            let c := parseCcb a raw
            let save := pagesOf c.saveBase (min c.saveSize (98304 + 2 ^ 31))
            let tables := pagesOf c.qtable (64 * c.nqueues) ++ (if c.rosterPa = 0 then [] else pagesOf c.rosterPa 16384)
            if !c.ccbOk || !s.allFree tables then done 3
            else match s.freeCid with
              | none => done 4
              | some cid =>
                if c.saveSize < 98304 || !s.allFree save then done 5
                else
                  let taken := a / 4096 :: save ++ tables
                  let s1 := s.ownPages taken cid .service
                  let named := s1.manifestPages c.manifest c.nitems
                  match (s1.ownPages named cid .service).takePage cid .service with
                  | (none, _) => done 5
                  | (some root, s2) => (s2.acceptCtx cid { c with named := named } raw taken root).buildOn h x.rd cid

/-! ### ENCIN, ENCOUT and leaving -/

/-- An ENCSEAL of the context acts: what comes to the context meanwhile waits for its end (00 R8). -/
def Context.acting (c : Context) : Bool := c.eligible && (c.sealing == .going || c.sealing == .ending)

/-- ENCIN (14 R325, R326, R333, R334): the hart's registers are saved, and it runs the thread. For a thread image that fails its tag the
status is BADIMAGE, and nothing changes (R334; 13 R319 speaks of restores; assumption 23). While a seal or a destruction acts the hart
stays at the instruction. -/
def execEncin (x : RArgs) (s : State) : Res :=
  onHostHart s fun h hart =>
    let cid := (hart.reg x.rs1).toNat
    let t := (hart.reg x.rs2).toNat
    let done := fun (n : Nat) => s.retireHart h x.rd (encStatus n)
    match s.ctx? cid with
    | none => done 2
    | some c =>
      if !c.eligible then done 1
      else if c.acting then s
      else match Tab.get? c.threads t with
        | none => done 3
        | some th =>
          if th.hart.isSome then done 8
          else if s.badLines (c.threadLines t) then done 7
          else
            let inside : Hart := { hart with
              x := th.x, f := th.f, pc := th.pc, mode := th.mode, vsatp := th.atp, inside := some (cid, t)
              hostX := hart.x, hostF := hart.f, hostPc := hart.pc + 4, hostMode := hart.mode, hostVsatp := hart.vsatp
              exitRd := x.rd, resv := none }
            (s.setHart h inside).setCtx cid { c with
              state := .running, threads := Tab.put c.threads t { th with hart := some h } }

/-- ENCOUT (14 R333): the thread leaves past the instruction; the exit record holds bits 55:0 of the code. -/
def execEncout (x : RArgs) (s : State) : Res :=
  onHart s fun h hart =>
    if (hart.mode = .vs || hart.mode = .vu) && hart.inside.isSome then
      s.leaveThread h (hart.reg x.rs1 <<< 8) (hart.pc + 4)
    else s.illegalInst h

/-- THREAD_HOST_INTERRUPT (14 R333): an interrupt to the host takes the thread out of ENCIN with reason 1. -/
def execThreadHostInterrupt (hart : Nat) (s : State) : Res := .next (s.leaveThread hart 1 (s.hart hart).pc)
/-- THREAD_FAULT (14 R333): a fault that the thread's own handlers do not take, reason 2. -/
def execThreadFault (hart : Nat) (s : State) : Res := .next (s.leaveThread hart 2 (s.hart hart).pc)
/-- A request that carries a write from a hearth to a slice is dropped: the oldest write of the context that a stove of the hearth has
posted to the slice never arrives (which write the packet holds: DESIGN CHOICE, assumption 50). -/
def State.dropPacket (s : State) (p : Packet) : State :=
  let cid := (p.flow.extractLsb' 20 12).toNat
  let mine := fun (q : Posted) => q.cid == cid && portSlice (sliceOf q.pa) == (p.flow.extractLsb' 4 8).toNat
  if p.flow.extractLsb' 0 4 != 0#4 then s
  else match s.stoves.find? fun x => hearthOf x.1 == (p.flow.extractLsb' 12 8).toNat && x.2.posted.any mine with
    | some x => s.setStove x.1 { x.2 with posted := x.2.posted.eraseP mine }
    | none => s

/-- NETWORK_TAG_FAILURE (14 R331, R338): a port receives a packet of a context. When its tag does not match, the packet is dropped, never
to be sent again, and the context faults. -/
def execNetworkTagFailure (p : Packet) (s : State) : Res :=
  let cid := (p.flow.extractLsb' 20 12).toNat
  match s.ctx? cid with
  | none => .next s
  | some c => if packetGenuine p c then .next s else .next ((s.dropPacket p).contextFault cid 4 0 0)

/-! ### Performance counters (14 R341, R342) -/

/-- PMU_FORWARD (14 R342). -/
def execPmuForward (cid : Nat) (s : State) : Res := .next (s.forward cid)

/-! ### ENCSEAL -/

/-- Change every resident flue of a context. -/
def State.modFluesOf (s : State) (cid : Nat) (k : Flue → Flue) : State :=
  s.mapStoves fun _ st => { st with flues := Tab.mapVals (fun (f : Flue) => if f.cid = cid then k f else f) st.flues }

/-- The resident groups of a context: stove and number. -/
def State.groupsOf (s : State) (cid : Nat) : List (Nat × Nat) :=
  (s.stoves.map fun (x : Nat × Stove) => (x.2.groups.filter fun g => g.2.cid == cid).map fun g => (x.1, g.1)).flatten

/-- Save pages that the resident groups of a context need (13 R321, R322). -/
def State.sealPages (s : State) (cid : Nat) : Nat :=
  (s.groupsOf cid).foldl (fun n p =>
    let st := s.stove p.1
    match s.group? p.1 p.2 with
    | none => n
    | some g =>
      n + (if g.headerRun.isSome then 0 else 1) + (groupPages st p.2 g).foldl (· + ·) 0 +
        (st.fluesOf p.2).foldl (fun m f => m + f.2.imagePages) 0) 0

/-- Save pages that are free. -/
def Context.freeSave (c : Context) : Nat := c.savePages - c.saveRuns.foldl (fun n r => n + r.2) 0

/-- Every flue of the context is at rest. -/
def State.atRest (s : State) (cid : Nat) : Bool :=
  s.stoves.all fun (x : Nat × Stove) => x.2.flues.all fun (f : Nat × Flue) => f.2.cid != cid || f.2.mayLeave

/-- Queues at a seal (15 R356). -/
def sealQueue (q : Queue) : Queue := if q.state = .faulted then q else { q with state := .stopped, slot := 0xFFFF }

/-- The seal takes place (14 R335): groups are switched out whole, threads leave with reason 3, counters are drained, streams
are suspended. -/
def State.sealCtx (s : State) (cid : Nat) : State :=
  let s1 := (s.groupsOf cid).foldl (fun (s : State) p =>
    match s.groupOut p.1 p.2 with
    | some s2 => s2
    | none => s.contextFault cid 6 (s.lhearth (hearthOf p.1)) 0) s
  match s1.ctx? cid with
  | none => s1
  | some c =>
    if !c.eligible then s1
    else
      let s2 := ((s1.leaveThreads cid 3).forward cid).modCtx cid fun c => { c with
        state := .suspended
        sealing := .none
        queues := Tab.mapVals sealQueue c.queues
        pendingBits := 0
        roster := Tab.mapVals (fun (p : Peer) => if p.lstate = .active then { p with lstate := .suspended, keyed := false } else p) c.roster }
      s2.trimGrant cid

/-- The flues of a context that seals have completed what they issued, and the peers of its active streams have acknowledged every
write. -/
def State.sealable (s : State) (cid : Nat) : Bool := s.atRest cid && !s.ackDue cid

/-- A seal begins, or goes on: its queues take no more records, and its flues stop (14 R335). -/
def State.startSeal (s : State) (cid : Nat) : State :=
  (s.modFluesOf cid fun f => { f with halt := true }).modCtx cid fun c => { c with sealing := .going }

/-- Seals that no hart waits for go on by themselves (14 R333). -/
def State.sealOn (s : State) : State :=
  s.ctxs.foldl (fun (s : State) (x : Nat × Context) =>
    if x.2.sealing = .going && x.2.eligible && s.sealable x.1 then
      (s.sealCtx x.1).modCtx x.1 fun c => if c.state = .suspended then { c with sealing := .reached } else c
    else s) s

/-- ENCSEAL SEAL (14 R333, R335, R336, 13 R322). The hart stays at the instruction until the context's flues have completed what they
issued and the peers of its active streams have acknowledged every write. When an interrupt takes the hart away, the seal goes on, and
the instruction executed again has its result. -/
def execEncsealSeal (x : RArgs) (s : State) : Res :=
  onHostHart s fun h hart =>
    let cid := (hart.reg x.rs1).toNat
    let done := fun (s : State) (n : Nat) => s.retireHart h x.rd (encStatus n)
    match s.ctx? cid with
    | none => done s 2
    | some c =>
      if c.state = .faulted then done s 1
      else if 2 < (hart.reg x.rs2).toNat then done s 3
      else if c.sealing = .reached then done (s.modCtx cid fun c => { c with sealing := .none }) 0
      else if c.sealing = .ending && c.eligible then s
      else if !c.eligible then done s 1
      else if c.sealing = .none && c.freeSave < s.sealPages cid then done s 5
      else if s.sealable cid then
        let s1 := s.sealCtx cid
        done s1 (match s1.ctx? cid with
          | some c1 => if c1.state = .suspended then 0 else 1
          | none => 1)
      else s.startSeal cid

/-- Queues at an unseal (15 R356). -/
def unsealQueue (stamp : Nat) (q : Queue) : Queue :=
  if q.state ≠ .stopped then q
  else if q.tail = q.head then { q with state := .unbound } else { q with state := .pending, waited := stamp }

/-- A save image of a context, or the image of one of its threads, fails its check. -/
def State.badImages (s : State) (cid : Nat) (c : Context) : Bool :=
  s.badRuns cid c.saveRuns || c.threads.any fun t => s.badLines (c.threadLines t.1)

/-- ENCSEAL UNSEAL (14 R325, R335): EPOCH rises, the world key is derived anew, the queues and groups are eligible
again, and the streams are keyed. -/
def execEncsealUnseal (x : RArgs) (s : State) : Res :=
  onHostHart s fun h hart =>
    let cid := (hart.reg x.rs1).toNat
    let done := fun (s : State) (n : Nat) => s.retireHart h x.rd (encStatus n)
    match s.ctx? cid with
    | none => done s 2
    | some c =>
      if c.state = .faulted then done s 1
      else if 2 < (hart.reg x.rs2).toNat then done s 3
      else if c.state ≠ .suspended then done s 1
      else if s.badImages cid c then done s 7
      else
        let qs := Tab.mapVals (unsealQueue s.stamp) c.queues
        let pend := qs.foldl (fun (m : BitVec 256) q => if q.2.state = .pending then m ||| BitVec.ofNat 256 (2 ^ q.1) else m) 0
        let s1 := ((s.setCtx cid { c with
          state := .ready, sealing := .none, epoch := c.epoch + 1, queues := qs, pendingBits := pend }).zeroFlows cid).tick
        let s2 := (qs.filter fun q => q.2.state == .pending).foldl (fun (s : State) q =>
          (grantedParts c.grant).foldl (fun (s : State) p => s.say (.slotPressure p cid q.1)) s) s1
        done (s2.startKeying cid fun l => l == .idle || l == .suspended) 0

/-- ENCSEAL DESTROY (14 R325, R337): it retires once the pages are scrubbed and freed. The context has stopped by then; the hart stays at the
instruction while a seal acts (00 R8), and while region buffers of other contexts hold sectors of pages that the destruction frees (19
R406), which no other context maps any more. -/
def execEncsealDestroy (x : RArgs) (s : State) : Res :=
  onHostHart s fun h hart =>
    let cid := (hart.reg x.rs1).toNat
    let done := fun (s : State) (n : Nat) => s.retireHart h x.rd (encStatus n)
    match s.ctx? cid with
    | none => done s 2
    | some c =>
      if 2 < (hart.reg x.rs2).toNat then done s 3
      else if c.state = .destroyed then done s 1
      else if c.eligible && c.sealing = .going then s
      else if s.heldShared cid then
        let shared := (s.own.filter fun (x : Nat × Own) => x.2.owner == cid && x.2.state == .sharedClear).map (·.1)
        ((s.stopCtx cid).unmapOthers cid shared).modCtx cid fun c => { c with sealing := .ending }
      else done (s.destroy cid) 0

end Sys2Proof.Machine
end

