-- ==== Sys2Proof/Machine/Cores.lean ====
section
/-! DEFINITION. Memory operations of the application cores toward the device (12 R296), the loads of a kick page (15 R348), and
the host's own accesses to free pages. What is RV64's own in them (sign extension, the results of AMO and SC) is in
assumption 25. -/

namespace Sys2Proof.Machine

/-- What an AMO leaves (RV64A's operations, named by 12 R296). -/
def amoNew (op : AmoOp) (size : Nat) (old v : DWord) : DWord :=
  let a := if size = 4 then (old.setWidth 32).signExtend 64 else old
  let b := if size = 4 then (v.setWidth 32).signExtend 64 else v
  let ua := if size = 4 then (old.setWidth 32).setWidth 64 else old
  let ub := if size = 4 then (v.setWidth 32).setWidth 64 else v
  match op with
  | .swap => b
  | .add => a + b
  | .xor => a ^^^ b
  | .and => a &&& b
  | .or => a ||| b
  | .min => if BitVec.slt a b then a else b
  | .max => if BitVec.slt b a then a else b
  | .minu => if BitVec.ult ua ub then a else b
  | .maxu => if BitVec.ult ub ua then a else b

/-- A loaded value of `n` bytes. -/
def loaded (bs : List Byte) (sx : Bool) : DWord :=
  let v := BitVec.ofNat 64 (leNat bs)
  if sx then match bs.length with
    | 1 => (v.setWidth 8).signExtend 64
    | 2 => (v.setWidth 16).signExtend 64
    | 4 => (v.setWidth 32).signExtend 64
    | _ => v
  else v

/-- A queue of the context whose kick page holds the address, and the offset in the page (15 R348). -/
def Context.kickAt (c : Context) (va : DWord) : Option (Nat × Nat) :=
  (c.queues.find? fun q => q.2.kickva.toNat / 4096 == va.toNat / 4096).map fun q => (q.1, va.toNat % 4096)

/-- The code of a queue state (15 R343). -/
def QState.code : QState → Nat
  | .unbound => 0
  | .pending => 1
  | .bound => 2
  | .stopped => 3
  | .faulted => 4

/-- FSTAT bits 31:28 of a queue (15 R354): BADKICK, WDX and DOM, as QSTAT shows them. -/
def Queue.fstatTop (q : Queue) : Nat :=
  (if q.badKick then 8 else 0) + (if q.wdx then 4 else 0) + q.fdomLast % 4

/-- A load of a kick page's register; every other load returns zero. -/
def kickLoad (q : Queue) (off size : Nat) (sx : Bool) : DWord :=
  if size ≠ 4 then 0
  else
    let v : Nat := match off with
      | 0 => q.tail.toNat
      | 4 => q.head.toNat
      | 12 => q.fstatTop * 2 ^ 28 + QState.code q.state
      | _ => 0
    loaded (leBytes 4 v) sx

/-- The operation raises an exception of the hart, whose entry is RV64's own (assumption 23). -/
def State.coreFault (s : State) (h : Nat) : State := s.illegalInst h

/-- Where a core's access lands: an address with its kind, an exception, or a page that is not resident yet. A hart outside a
context reaches the free pages by physical address (assumption 25). -/
def State.corePa (s : State) (x : Hart) (va : DWord) (n : Nat) (k : Acc) : DevRes Nat :=
  match x.inside with
  | none =>
    if (pagesOf va.toNat n).all fun p => pageArea (p * 4096) && (s.ownOf (p * 4096)).state == .free then .ok va.toNat
    else .cause cOWNER
  | some (cid, _) =>
    match s.devPa cid va k with
    | .wait => .wait
    | .cause c => .cause c
    | .ok pa => match s.windowCause cid pa with
      | some c => .cause c
      | none => .ok pa

/-- The end of a core's access at its page: a read of an uncorrectable line is an exception (19 R416), and of a peer's page the peer tells
the end (20 R418). -/
def State.coreAt (s : State) (x : Hart) (va : DWord) (n : Nat) (k : Acc) : DevRes Nat × State :=
  match s.corePa x va n k with
  | .ok pa =>
    if k != .store && (s.bad pa || s.bad (pa + n - 1)) then (.cause cUNCORR, s)
    else match paKind pa with
      | .peer _ _ =>
        let r := peerSays k pa s
        (match r.1 with
          | .cause c => .cause c
          | _ => .ok pa, r.2)
      | _ => (.ok pa, s)
  | r => (r, s)

/-- What a peer or a device answers to a hart's read: the request goes out, and the answer is a free value (assumption 13). -/
def State.coreAsk (s : State) (cid pa n : Nat) : List Byte × State :=
  match paKind pa with
  | .peer r a => s.readPeer cid pa r a n portControl 0
  | .device i _ => (freeAt s.freeIdx pa n, { s.exchange cid portControl (s.devicePort cid i) 0 with freeIdx := s.freeIdx + 1 })
  | _ => s.takeBytes n

/-- The CID under which a hart accesses memory; 0 stands for a hart outside every context. -/
def Hart.cid (x : Hart) : Nat := match x.inside with
  | some (c, _) => c
  | none => 0

/-- A load. -/
def State.coreLoad (s : State) (h : Nat) (rd : BitVec 5) (va : DWord) (n : Nat) (sx : Bool) : State :=
  let x := s.hart h
  let put := fun (s : State) (bs : List Byte) => s.setHart h ((s.hart h).setReg rd (loaded bs sx))
  let one : State :=
    let q := s.coreAt x va n .load
    match q.1 with
    | .wait => s.askPage x.cid va
    | .cause _ => q.2.coreFault h
    | .ok pa => match paKind pa with
      | .hbm => put (if x.inside.isSome then q.2.touch x.cid (pa / 128) else q.2) (Memory.read q.2.mem pa n)
      | _ =>
        let r := q.2.coreAsk x.cid pa n
        put r.2 r.1
  if va.toNat % 64 + n ≤ 64 || x.inside.isNone then one
  else match s.devRead x.cid va n with
    | .wait => s.wantRange x.cid va n
    | .cause _ => s.coreFault h
    | .ok bs => put (s.devTouch x.cid va n) bs

/-- A store. A hart outside every context ends reservations on the line, as every store does. -/
def State.coreStore (s : State) (h : Nat) (va : DWord) (n : Nat) (v : DWord) : State :=
  let x := s.hart h
  let bs := leBytes n v.toNat
  let one : State :=
    let q := s.coreAt x va n .store
    match q.1 with
    | .wait => s.askPage x.cid va
    | .cause _ => q.2.coreFault h
    | .ok pa => match x.inside with
      | some (cid, _) => q.2.coreWrite cid pa bs
      | none => (q.2.poke pa bs).breakRange pa n
  if va.toNat % 64 + n ≤ 64 || x.inside.isNone then one
  else match s.devWritable x.cid 3 va n with
    | .wait => s.wantRange x.cid va n
    | .cause _ => s.coreFault h
    | .ok _ => s.devWrite x.cid va bs

/-- AOP and type under which a slice does an AMO (09 R214). -/
def AmoOp.atomic (op : AmoOp) (n : Nat) : BitVec 3 × Ty :=
  let u : Ty := if n = 4 then .z32 else .z64
  let i : Ty := if n = 4 then .i32 else .i64
  match op with
  | .swap => (6, u)
  | .add => (0, u)
  | .xor => (5, u)
  | .and => (3, u)
  | .or => (4, u)
  | .min => (1, i)
  | .max => (2, i)
  | .minu => (1, u)
  | .maxu => (2, u)

/-- An atomic of a hart at a peer's home slice (12 R296, R298): one request, whose answer is a free value (assumption 13). -/
def State.coreAtomic (s : State) (cid pa r a n : Nat) (aop : BitVec 3) (ty : Ty) (v : DWord × DWord) : List Byte × State :=
  (freeAt s.freeIdx pa n, (((({ s with freeIdx := s.freeIdx + 1 } : State).exchange cid portControl (s.peerPort cid r a) 0).request cid r 0 4 a
    (atomParts aop ty 1 [v])).breakRange pa n))

/-- An AMO at its home slice; at a peer's it goes out as an atomic (12 R298), and to a device as a read and a write. -/
def State.coreAmo (s : State) (h : Nat) (rd : BitVec 5) (op : AmoOp) (va : DWord) (n : Nat) (v : DWord) : State :=
  let x := s.hart h
  if va.toNat % n ≠ 0 then s.coreFault h
  else
    let q := s.coreAt x va n .atom
    match q.1 with
    | .wait => s.askPage x.cid va
    | .cause _ => q.2.coreFault h
    | .ok pa => match paKind pa with
      | .hbm =>
        let old := Memory.read q.2.mem pa n
        let new := leBytes n (amoNew op n (BitVec.ofNat 64 (leNat old)) v).toNat
        let s1 := if x.inside.isSome then q.2.coreWrite x.cid pa new else (q.2.poke pa new).breakRange pa n
        s1.setHart h ((s1.hart h).setReg rd (loaded old true))
      | .peer r a =>
        let o := Sys2Proof.Machine.AmoOp.atomic op n
        let p := q.2.coreAtomic x.cid pa r a n o.1 o.2 (v, 0)
        p.2.setHart h ((p.2.hart h).setReg rd (loaded p.1 true))
      | .device i o =>
        let t := Sys2Proof.Machine.AmoOp.atomic op n
        let p := q.2.coreAsk x.cid pa n
        let s1 := p.2.say (.mmioAtomic x.cid i o t.1 t.2 [(v, 0)])
        s1.setHart h ((s1.hart h).setReg rd (loaded p.1 true))
      | .hole => q.2.coreFault h

/-- LR: the reservation is on the line that holds the address, with the value found. -/
def State.coreLr (s : State) (h : Nat) (rd : BitVec 5) (va : DWord) (n : Nat) : State :=
  let x := s.hart h
  if va.toNat % n ≠ 0 then s.coreFault h
  else
    let q := s.coreAt x va n .load
    match q.1 with
    | .wait => s.askPage x.cid va
    | .cause _ => q.2.coreFault h
    | .ok pa =>
      let r := match paKind pa with
        | .hbm => (Memory.read q.2.mem pa n, if x.inside.isSome then q.2.touch x.cid (pa / 128) else q.2)
        | _ => q.2.coreAsk x.cid pa n
      r.2.setHart h { (r.2.hart h).setReg rd (loaded r.1 true) with resv := some (pa / 128), resvVal := loaded r.1 true }

/-- What an SC writes. At a peer's home slice it is an atomic that stores when the value is the one that LR found (12 R296: single-copy
atomic there; 20 R420 gives no other conditional store: DESIGN CHOICE, assumption 25). -/
def State.scWrite (s : State) (x : Hart) (pa n : Nat) (v : DWord) : State :=
  match x.inside, paKind pa with
  | some (cid, _), .peer r a => (s.coreAtomic cid pa r a n 7 (if n = 4 then .z32 else .z64) (v, x.resvVal)).2
  | some (cid, _), _ => s.coreWrite cid pa (leBytes n v.toNat)
  | none, _ => (s.poke pa (leBytes n v.toNat)).breakRange pa n

/-- SC: it stores and writes 0 when the reservation on its line has held, and may fail even so (a free choice; at a peer's slice the peer's
answer); a failure writes 1. Either way the reservation ends. -/
def State.coreSc (s : State) (h : Nat) (rd : BitVec 5) (va : DWord) (n : Nat) (v : DWord) : State :=
  let x := s.hart h
  if va.toNat % n ≠ 0 then s.coreFault h
  else
    let q := s.coreAt x va n .store
    match q.1 with
    | .wait => s.askPage x.cid va
    | .cause _ => q.2.coreFault h
    | .ok pa =>
      let r := q.2.takeBool
      if x.resv = some (pa / 128) && r.1 then
        let s1 := r.2.scWrite x pa n v
        s1.setHart h { (s1.hart h).setReg rd 0 with resv := none }
      else r.2.setHart h { (r.2.hart h).setReg rd 1 with resv := none }

/-- An access of a thread to a kick page (15 R348): only aligned 4-byte loads and stores take effect. -/
def State.kickAccess (s : State) (h cid q off : Nat) (op : CoreOp) : State :=
  match s.queue? cid q with
  | none => s
  | some qu =>
    match op with
    | .load rd _ n sx => s.setHart h ((s.hart h).setReg rd (if off % 4 = 0 then kickLoad qu off n sx else 0))
    | .store _ n v =>
      if n ≠ 4 then s
      else if off = 0 then s.kickTo cid q (v.setWidth 32)
      else if off = 8 then s.resetTo cid q (v.setWidth 32)
      else s
    | .amo rd _ _ _ _ _ _ => s.setHart h ((s.hart h).setReg rd 0)
    | .lr rd _ _ _ _ => s.setHart h ((s.hart h).setReg rd 0)
    | .sc rd _ _ _ _ _ => s.setHart h ((s.hart h).setReg rd 1)
    | .fence _ _ => s

/-- The address of an operation. -/
def CoreOp.va? : CoreOp → Option DWord
  | .load _ va _ _ => some va
  | .store va _ _ => some va
  | .amo _ _ va _ _ _ _ => some va
  | .lr _ va _ _ _ => some va
  | .sc _ va _ _ _ _ => some va
  | .fence _ _ => none

/-- An operation that is a SYS-scope release: FENCE with w in its predecessors and its successors, AMO and SC with rl (12 R296). The sets of
a FENCE are RV64's: bit 0 is w. -/
def CoreOp.releases : CoreOp → Bool
  | .load _ _ _ _ => false
  | .store _ _ _ => false
  | .amo _ _ _ _ _ _ rl => rl
  | .lr _ _ _ _ rl => rl
  | .sc _ _ _ _ _ rl => rl
  | .fence p q => p.getLsbD 0 && p.getLsbD 1 && q.getLsbD 0

/-- An operation that is none of a FENCE. -/
def State.coreOp (s : State) (h : Nat) (op : CoreOp) : State :=
  let kick : Option (Nat × Nat × Nat) := match (s.hart h).inside, Sys2Proof.Machine.CoreOp.va? op with
    | some (cid, _), some va => ((s.ctx? cid).bind fun c => c.kickAt va).map fun q => (cid, q.1, q.2)
    | _, _ => none
  match kick with
  | some (cid, q, off) => s.kickAccess h cid q off op
  | none => match op with
    | .load rd va n sx => s.coreLoad h rd va n sx
    | .store va n v => s.coreStore h va n v
    | .amo rd o va n v _ _ => s.coreAmo h rd o va n v
    | .lr rd va n _ _ => s.coreLr h rd va n
    | .sc rd va n v _ _ => s.coreSc h rd va n v
    | .fence _ _ => s

/-- APPLICATION_CORE_ACCESS (12 R296), by one of the harts 0 to 15 (01 R24). An operation acts on memory when it is made, so the order of
a core's accesses needs no more; a release is not complete before the peers have acknowledged the context's writes (12 R298), and no
operation of the hart goes before it. -/
def execApplicationCoreAccess (hart : Nat) (op : CoreOp) (s : State) : Res :=
  let x := s.hart hart
  let waits := x.inside.isSome && s.ackDue x.cid
  if 16 ≤ hart || (waits && x.fenced) then .next s
  else
    let s1 := if x.fenced then s.setHart hart { x with fenced := false } else s
    if waits && Sys2Proof.Machine.CoreOp.releases op then
      match op with
      | .fence _ _ => .next (s1.setHart hart { s1.hart hart with fenced := true })
      | _ => .next s1
    else .next (s1.coreOp hart op)

end Sys2Proof.Machine
end

