-- ==== Sys2Proof/Machine/Sfu.lean ====
section
/-! DEFINITION. The special functions (07 R159-R162). Square root and division are rounded once from the exact value.
The others are evaluated in fixed point far beyond the format's precision; in F16 and BF16 that value is rounded with RNE,
and in F32 the result is one of the values within the error bound, which one being a free choice (`Config.sfuPick`,
a function of the operation and its input). -/

namespace Sys2Proof.Machine

/-! ### Fixed point -/

/-- Fraction bits of the fixed-point evaluation. -/
def fxBits : Nat := 320
/-- pi/2 with 640 fraction bits. -/
def piHalf640 : Int := 0x1921FB54442D18469898CC51701B839A252049C1114CF98E804177D4C76273644A29410F31C6809BBDF2A33679A748636605614DBE4BE286E9FC26ADADAA3848BC90B6AECC4BCFD8DE89885D34C6FDAD6
/-- ln 2 with 320 fraction bits. -/
def ln2Fx : Int := 0xB17217F7D1CF79ABC9E3B39803F2F6AF40F343267298B62D8A0D175B8BAAFA2BE7B876206DEBAC98

/-- A fraction in fixed point, rounded down. -/
def toFx (x : Q) : Int := x.num * ((2 ^ fxBits : Nat) : Int) / (x.den : Int)
/-- A fixed-point value times 2^k as a fraction. -/
def ofFx (v : Int) (k : Int) : Q := (Q.mk v (2 ^ fxBits)).mul (Q.pow2 k)
/-- Product of two fixed-point values. -/
def fxMul (a b : Int) : Int := a * b / ((2 ^ fxBits : Nat) : Int)

/-- Sum of the Taylor terms of exp from term n on. -/
def fxExpSum (r : Int) : Nat → Nat → Int → Int
  | 0, _, _ => 0
  | fuel + 1, n, t => t + fxExpSum r fuel (n + 1) (fxMul t r / ((n + 1 : Nat) : Int))
/-- exp r for r in [0, 1]. -/
def fxExp (r : Int) : Int := fxExpSum r 90 0 ((2 ^ fxBits : Nat) : Int)

/-- Alternating Taylor terms t, -t r^2 / ((n+1)(n+2)), ... -/
def fxTrigSum (r2 : Int) : Nat → Nat → Int → Int
  | 0, _, _ => 0
  | fuel + 1, n, t => t + fxTrigSum r2 fuel (n + 2) (-(fxMul t r2) / (((n + 1) * (n + 2) : Nat) : Int))
/-- sin r for |r| at most pi/4. -/
def fxSin (r : Int) : Int := fxTrigSum (fxMul r r) 45 1 r
/-- cos r for |r| at most pi/4. -/
def fxCos (r : Int) : Int := fxTrigSum (fxMul r r) 45 0 ((2 ^ fxBits : Nat) : Int)

/-- z + z^3/3 + z^5/5 + ... -/
def fxAtanhSum (z2 : Int) : Nat → Nat → Int → Int
  | 0, _, _ => 0
  | fuel + 1, n, t => t / ((n : Nat) : Int) + fxAtanhSum z2 fuel (n + 2) (fxMul t z2)
/-- ln m for m in [1, 2). -/
def fxLn (m : Q) : Int :=
  let z := toFx ((m.sub (Q.ofInt 1)).div (m.add (Q.ofInt 1)))
  2 * fxAtanhSum (fxMul z z) 105 1 z

/-- 2^x for a fraction x in a sensible range. -/
def exp2Q (x : Q) : Q :=
  let k := x.num / (x.den : Int)
  ofFx (fxExp (fxMul (toFx (x.sub (Q.ofInt k))) ln2Fx)) k

/-- Integer square root, rounded down, bit by bit from bit b. -/
def isqrtFrom (n : Nat) : Nat → Nat → Nat
  | 0, r => r
  | b + 1, r => let c := r + 2 ^ b; if c * c ≤ n then isqrtFrom n b c else isqrtFrom n b r
def isqrt (n : Nat) : Nat := isqrtFrom n (Nat.log2 n / 2 + 1) 0

/-- The square root of a positive fraction: exact when the root is rational, otherwise strictly between the neighbours
on a grid far finer than any format's, so that every rounding of it is that of the root. -/
def sqrtQ (x : Q) : Q :=
  let n := x.num.natAbs * x.den * 4 ^ 1200
  let r := isqrt n
  if r * r = n then ⟨(r : Int), x.den * 2 ^ 1200⟩ else ⟨2 * (r : Int) + 1, 2 * (x.den * 2 ^ 1200)⟩

/-! ### The functions at finite non-special inputs -/

/-- The functions of 07 R159 other than SQRT and FDIV. -/
inductive SfuFn where
  | rcp | rsq | exp2 | log2 | sin | cos | tanh
  deriving DecidableEq, Repr

/-- A number for `Config.sfuPick`. -/
def SfuFn.code : SfuFn → Nat
  | .rcp => 0 | .rsq => 1 | .exp2 => 2 | .log2 => 3 | .sin => 4 | .cos => 5 | .tanh => 6

/-- sin (shift 0) or cos (shift 1) of a finite non-zero value, by the quadrant of its remainder (07 R162). -/
def trigQ (x : Q) (shift : Int) : Q :=
  let big := x.num * ((2 ^ 640 : Nat) : Int) / (x.den : Int)
  let k := (2 * big + piHalf640) / (2 * piHalf640)
  let r := (big - k * piHalf640) / ((2 ^ 320 : Nat) : Int)
  match (k + shift) % 4 with
  | 0 => ofFx (fxSin r) 0
  | 1 => ofFx (fxCos r) 0
  | 2 => ofFx (-(fxSin r)) 0
  | _ => ofFx (-(fxCos r)) 0

/-- tanh of a value not beyond 40 in magnitude. -/
def tanhQ (x : Q) : Q :=
  let a := x.abs
  let y := (a.mul (Q.ofInt 2)).div (Q.mk ln2Fx (2 ^ fxBits))
  let k := y.num / (y.den : Int)
  -- exp(2a) - 1 without cancellation for small a: the Taylor sum without its first term
  let r : Q := if k = 0 then ofFx (fxExp (toFx (a.mul (Q.ofInt 2))) - ((2 ^ fxBits : Nat) : Int)) 0
    else (exp2Q y).sub (Q.ofInt 1)
  let v := r.div (r.add (Q.ofInt 2))
  if x.isNeg then v.neg else v

/-- Both ends of an interval about a computed value, wider than the error of the evaluation and far finer than any format. -/
def around (v : Q) : Q × Q :=
  let e := Q.pow2 ((if v.flog2 < 0 then 0 else v.flog2) - 250)
  (v.sub e, v.add e)
/-- An interval for a function that is odd, from that of the magnitude. -/
def oddly (x : Q) (ends : Q × Q) : Q × Q := if x.isNeg then (ends.2.neg, ends.1.neg) else ends

/-- The exact result of a function at a finite input that is not special lies between two fractions, or equals both; whether it does. The
ends lie so close that nothing that a rounding or the bound of R160 turns on lies between them: near zero they are partial sums of the
function's series, and far out TANH is nearly one. -/
def sfuExact (fn : SfuFn) (x : Q) : (Q × Q) × Bool :=
  let a := x.abs
  let tiny := a.lt (Q.pow2 (-64))
  let sq := a.mul a
  let part := fun (n : Int) (q : Q) => q.div (Q.ofInt n)
  match fn with
  | .rcp => let v := (Q.ofInt 1).div x; ((v, v), true)
  | .rsq =>
    let n := x.num.natAbs * x.den
    let r := isqrt n
    if r * r = n then (⟨(x.den : Int), r⟩, ⟨(x.den : Int), r⟩) |> (·, true)
    else
      let m := isqrt (n * 4 ^ 1200)
      let d := (x.den * 2 ^ 1200 : Nat)
      ((⟨(d : Int), m + 1⟩, ⟨(d : Int), m⟩), false)
  | .exp2 =>
    let x' := if (Q.ofInt 1200).lt x then Q.ofInt 1200 else if x.lt (Q.ofInt (-1200)) then Q.ofInt (-1200) else x
    if x'.num % (x'.den : Int) = 0 then let v := Q.pow2 (x'.num / (x'.den : Int)); ((v, v), true)
    else
      let k := x'.num / (x'.den : Int)
      let v := exp2Q x'
      let e := Q.pow2 (k - 250)
      ((v.sub e, v.add e), false)
  | .log2 =>
    let e := x.flog2
    let m := x.mul (Q.pow2 (-e))
    if m.eqv (Q.ofInt 1) then ((Q.ofInt e, Q.ofInt e), true)
    else (around ((Q.mk (fxLn m) (2 ^ fxBits)).div (Q.mk ln2Fx (2 ^ fxBits)) |>.add (Q.ofInt e)), false)
  | .sin => (if tiny then oddly x (a.sub (part 6 (sq.mul a)), a) else around (trigQ x 0), false)
  | .cos =>
    (if tiny then let c := (Q.ofInt 1).sub (part 2 sq); (c, c.add (part 24 (sq.mul sq))) else around (trigQ x 1), false)
  | .tanh =>
    (if tiny then oddly x (a.sub (part 3 (sq.mul a)), a)
     else if (Q.ofInt 40).lt a then oddly x ((Q.ofInt 1).sub (Q.pow2 (-100)), Q.ofInt 1)
     else around (tanhQ x), false)

/-- The bound in units in the last place (07 R159). -/
def SfuFn.ulps : SfuFn → Nat
  | .sin => 2 | .cos => 2 | .tanh => 2 | _ => 1

/-- The FP32 encodings whose value lies within the bound of an exact value between two fractions (07 R160). -/
def sfuCandidates (n : Nat) (ends : Q × Q) : List Nat :=
  let neg := ends.1.isNeg
  let lo := if neg then ends.2.abs else ends.1.abs
  let hi := if neg then ends.1.abs else ends.2.abs
  let b0 := (roundTo fp32 .rtz false false lo).bits
  let bound := (Q.ofInt (n : Int)).mul (Q.pow2 ((if lo.flog2 < fp32.emin then fp32.emin else lo.flog2) - 23))
  let within := fun v : Q => !bound.lt (v.sub lo).abs && !bound.lt (v.sub hi).abs
  let near := ((List.range (4 * n + 3)).map fun i => b0 + i - (2 * n + 1)).filter fun b => b ≤ fp32.maxBits && within (fp32.decode b).q
  let beyond := (List.range (n + 1)).filter fun b => within (fp32.decode b).q.neg
  near.eraseDups.map (fun b => fp32.signBit neg + b) ++ beyond.map fun b => fp32.signBit (!neg) + b

/-- The result at a finite input that is not special. NX is raised when the result differs from the exact value, OF and
UF of the result delivered under 02 R32. `key` is the input's encoding. -/
def sfuFinite (f : Fmt) (fn : SfuFn) (key : Word) (x : Q) : FRes :=
  let v := sfuExact fn x
  let rn := roundTo f .rne false false ((v.1.1.add v.1.2).div (Q.ofInt 2))
  if v.2 && (rn.flags &&& flagNX == 0) then rn
  else if f.width == 32 && (rn.flags &&& flagOF == 0) then
    let c := sfuCandidates fn.ulps v.1
    let b := c.getD (Config.sfuPick fn.code key % c.length) rn.bits
    { bits := b, flags := flagNX ||| flagIf (decide (b % 2 ^ (f.width - 1) < 2 ^ f.mant)) flagUF }
  else rn

/-- A special function with its special values (07 R161). -/
def sfu (f : Fmt) (fn : SfuFn) (bits : Nat) : FRes :=
  let one := 2 ^ f.mant * f.bias
  match f.decode bits with
  | .nan s => nanRes f s
  | .inf n =>
    match fn with
    | .rcp => { bits := f.signBit n }
    | .rsq => if n then nanRes f true else { bits := 0 }
    | .exp2 => if n then { bits := 0 } else { bits := f.inf }
    | .log2 => if n then nanRes f true else { bits := f.inf }
    | .sin => nanRes f true
    | .cos => nanRes f true
    | .tanh => { bits := f.signBit n + one }
  | .fin n q =>
    if q.isZero then
      match fn with
      | .rcp => { bits := f.signBit n + f.inf, flags := flagDZ }
      | .rsq => { bits := f.signBit n + f.inf, flags := flagDZ }
      | .exp2 => { bits := one }
      | .log2 => { bits := f.signBit true + f.inf, flags := flagDZ }
      | .sin => { bits := f.signBit n }
      | .cos => { bits := one }
      | .tanh => { bits := f.signBit n }
    else
      match fn with
      | .rsq => if n then nanRes f true else sfuFinite f fn (BitVec.ofNat 32 bits) q
      | .log2 => if n then nanRes f true else sfuFinite f fn (BitVec.ofNat 32 bits) q
      | _ => sfuFinite f fn (BitVec.ofNat 32 bits) q

/-- SQRT, rounded once from the exact root (07 R159, R161). -/
def fSqrt (f : Fmt) (rm : Rm) (bits : Nat) : FRes :=
  match f.decode bits with
  | .nan s => nanRes f s
  | .inf n => if n then nanRes f true else { bits := f.inf }
  | .fin n q => if q.isZero then { bits := bits } else if n then nanRes f true else roundTo f rm false false (sqrtQ q)

end Sys2Proof.Machine
end

