-- ==== Sys2Proof/Machine/Engine.lean ====
section
/-! DEFINITION. Engine instructions (10 R224-R246, R494): tensor identifiers, copies, gathers, streams, collectives, WAITC and
ECTL. An operation's units are what `ENGINE_UNIT_COMPLETE` (Matrix) performs. -/

namespace Sys2Proof.Machine

/-! ### Descriptors (10 R231, R232) -/

/-- The number of elements of a cell: 1, or the 32 of an I4X block. -/
def Descriptor.gran (d : Descriptor) : Nat := if d.fmt = 6 then 32 else 1
/-- The bytes of a cell. -/
def Descriptor.e (d : Descriptor) : Nat :=
  match d.fmt with
  | 0 => 4 | 1 => 2 | 2 => 2 | 3 => 1 | 4 => 1 | 5 => 1 | 6 => 18 | _ => 4
/-- What BASE and strides are multiples of (10 R233). -/
def Descriptor.unitBytes (d : Descriptor) : Nat := if d.fmt = 6 then 2 else d.e
/-- The scale block along dimension 0. -/
def Descriptor.blockLen (d : Descriptor) : Nat := if d.fmt = 6 then 32 else match d.sblk with | 0 => 1 | 1 => 32 | 2 => 64 | _ => 128
/-- The extent, the box extent and the coordinate of a dimension; one element and 0 at or above RANK (10 R235). -/
def Descriptor.extent (d : Descriptor) (k : Nat) : Nat := if k < d.rank then d.ext.getD k 0 else 1
def Descriptor.boxAt (d : Descriptor) (k : Nat) : Nat := if k < d.rank then d.box.getD k 1 else 1
def Descriptor.coord (d : Descriptor) (cs : List Int) (k : Nat) : Int := if k < d.rank then cs.getD k 0 else 0
/-- The number of elements. -/
def Descriptor.total (d : Descriptor) : Nat := d.extent 0 * d.extent 1 * d.extent 2 * d.extent 3 * d.extent 4

/-- Read a descriptor from its 64 bytes. -/
def parseDesc (b : List Byte) : Descriptor where
  base := field64 b 0
  sbase := field64 b 8
  ext := (List.range 5).map fun k => fieldNat b (16 + 4 * k) 4
  str := (List.range 4).map fun k => fieldNat b (36 + 4 * k) 4
  box := (List.range 5).map fun k => fieldNat b (52 + k) 1 + 1
  fmt := fieldNat b 57 1
  rank := fieldNat b 58 1
  tr := fieldNat b 59 1 % 2 == 1
  sblk := fieldNat b 60 1
  space := fieldNat b 61 1

/-- A field takes a value that R231 and R232 allow, and the further conditions of R233 hold. -/
def descOk (b : List Byte) : Bool :=
  let d := parseDesc b
  d.fmt ≤ 7 && 1 ≤ d.rank && d.rank ≤ 5 && fieldNat b 59 1 < 2 && d.sblk ≤ 3 && (d.space == 0 || d.space == 2 || d.space == 3) &&
  zeroBytes b 62 2 &&
  (if d.space = 0 then canonical d.base else d.base.toNat < 2 ^ 32) &&
  (if d.sblk = 0 then d.sbase == 0 else canonical d.sbase) &&
  ((List.range 5).all fun k => if k < d.rank then 1 ≤ d.ext.getD k 0 else d.ext.getD k 0 == 0 && d.box.getD k 1 == 1) &&
  ((List.range 4).all fun k => k + 1 < d.rank || d.str.getD k 0 == 0) &&
  d.base.toNat % d.unitBytes == 0 && (d.str.all fun x => x % d.unitBytes == 0) &&
  (d.fmt != 6 || (d.ext.getD 0 0 % 32 == 0 && d.box.getD 0 1 % 32 == 0 && !d.tr)) &&
  (d.sblk == 0 || (3 ≤ d.fmt && d.fmt ≤ 5))

/-- The address of the cell that holds an element, as an exact number (10 R231). -/
def Descriptor.addrOf (d : Descriptor) (c : List Nat) : Nat :=
  d.base.toNat + c.getD 0 0 / d.gran * d.e +
    (List.range 4).foldl (fun a k => a + c.getD (k + 1) 0 * d.str.getD k 0) 0
/-- The address of the scale of an element. -/
def Descriptor.scaleAddr (d : Descriptor) (c : List Nat) : Nat :=
  d.sbase.toNat + c.getD 0 0 / d.blockLen +
    (List.range 4).foldl (fun a k => a + c.getD (k + 1) 0 * d.ext.getD 0 0 / d.blockLen) 0
/-- Coordinates lie within the extents. -/
def Descriptor.inside (d : Descriptor) (c : List Int) : Bool :=
  (List.range 5).all fun k => 0 ≤ c.getD k 0 && c.getD k 0 < (d.extent k : Int)
/-- The cell at coordinates, none outside the extents. -/
def Descriptor.cell (d : Descriptor) (c : List Int) : Option Nat :=
  if d.inside c then some (d.addrOf (c.map Int.toNat)) else none

/-- The digits of a number in mixed radix, least significant first. -/
def digits : List Nat → Nat → List Nat
  | [], _ => []
  | b :: bs, u => u % b :: digits bs (u / b)

/-- The coordinates of dimensions 1 to 4 of row `u` of a box (10 R227: rows in ascending linear order). -/
def Descriptor.rowCoords (d : Descriptor) (box : Nat → Nat) (cs : List Int) (u : Nat) : List Int :=
  let j := digits [box 1, box 2, box 3, box 4] u
  (List.range 4).map fun k => d.coord cs (k + 1) + (j.getD k 0 : Int)
/-- The cells of row `u` of a box. -/
def Descriptor.rowCells (d : Descriptor) (box : Nat → Nat) (cs : List Int) (u : Nat) : List (Option Nat) :=
  (List.range (box 0 / d.gran)).map fun t => d.cell ((d.coord cs 0 + (t * d.gran : Nat)) :: d.rowCoords box cs u)
/-- The rows of a box. -/
def rowsOf (box : Nat → Nat) : Nat := box 1 * box 2 * box 3 * box 4

/-! ### The identifier table (16 R364) -/

/-- Note the use of an identifier in a stove's cache of entries (16 R364: 64 of them, least recently used first out). -/
def State.tidUse (s : State) (stove cid t : Nat) : State :=
  let st := s.stove stove
  s.setStove stove { st with idCache := ((cid, t) :: st.idCache.filter fun x => x != (cid, t)).take 64 }
/-- The entry of an identifier. -/
def State.tid? (s : State) (cid t : Nat) : Option Descriptor := (s.ctx? cid).bind fun c => if t < 256 then Tab.get? c.tids t else none
/-- Write or clear an entry: every cached copy goes. -/
def State.setTid (s : State) (cid t : Nat) (d : Option Descriptor) : State :=
  let s1 := s.mapStoves fun _ st => { st with idCache := st.idCache.filter fun x => x != (cid, t) }
  s1.modCtx cid fun c => { c with tids := match d with
    | some x => Tab.put c.tids t x
    | none => Tab.del c.tids t }

/-! ### Engine accesses (10 R228, R230, 12 R276) -/

/-- The end of an engine access; a wait is for a page, or for what another rank has to send. -/
inductive EngRes (α : Type) where
  | ok (a : α)
  | err (c : EngStatus)
  | wait (va : Option DWord)

/-- The status code of a cause (10 R228). -/
def engStatusOf (c : Nat) : EngStatus :=
  if c = cPTRSV then .ptrsv else if c = cPERM then .perm else if c = cOWNER then .owner
  else if c = cROSTER then .roster else if c = cUNCORR then .uncorr else .xlate

/-- Translate a generic address for an engine, which misses in the hearth's TLB (19 R405). -/
def State.engPa (s : State) (stove cid : Nat) (va : DWord) (k : Acc) : EngRes Nat × State :=
  if !canonical va then (.err .xlate, s)
  else if (match s.ctx? cid with | some c => c.kickPage va | none => false) then (.err .perm, s)
  else
    let r := s.translate (hearthOf stove) none cid va k false
    match r.1 with
    | .wait => (.wait (some va), r.2)
    | .cause c => (.err (engStatusOf c), r.2)
    | .ok pa =>
      match r.2.windowCause cid pa with
      | some c => (.err (engStatusOf c), r.2)
      | none =>
        if k == .load && r.2.bad pa then (.err .uncorr, r.2)
        else match paKind pa with
          | .peer _ _ =>
            let q := peerSays k pa r.2
            match q.1 with
            | .cause c => (.err (engStatusOf c), q.2)
            | _ => (.ok pa, q.2)
          | _ => (.ok pa, r.2)

/-- The scratchpad addresses of a run of offsets of a flue's kernel. -/
def State.scpRun (s : State) (stove : Nat) (f : Flue) (off n : Nat) : List (Option Nat) :=
  match s.kernel? f.part f.kslot with
  | some k => (List.range n).map fun j => scpAddr k (dieOf stove) (off + j)
  | none => List.replicate n none

/-- Read generic bytes in pieces that lie in one line. -/
def State.engReadGen (s : State) (stove cid : Nat) : Nat → Nat → Nat → EngRes (List Byte) × State
  | 0, _, _ => (.ok [], s)
  | fuel + 1, a, n =>
    if n = 0 then (.ok [], s)
    else
      let k := min n (128 - a % 128)
      let r := s.engPa stove cid (BitVec.ofNat 64 a) .load
      match r.1 with
      | .wait p => (.wait p, r.2)
      | .err c => (.err c, r.2)
      | .ok pa =>
        let b := r.2.tileRead cid pa k (hearthOf stove)
        let t := b.2.engReadGen stove cid fuel (a + k) (n - k)
        match t.1 with
        | .ok bs => (.ok (b.1 ++ bs), t.2)
        | x => (x, t.2)

/-- Read `n` bytes of a space for an engine. -/
def State.engRead (s : State) (stove : Nat) (f : Flue) (space a n : Nat) : EngRes (List Byte) × State :=
  if space = 0 then s.engReadGen stove f.cid (n / 128 + 2) a n
  else if space = 2 then (.ok (Memory.read (s.groupOf stove f).shared a n), s)
  else
    let l := s.scpRun stove f a n
    if l.all Option.isSome then
      (.ok (l.map fun x => match x with | some p => Memory.byte (s.die (dieOf stove)).scp p | none => 0),
        s.exchange f.cid (hearthOf stove) (portScp (dieOf stove)) 2)
    else (.err .owner, s)

/-- Read cells; a cell outside the extents reads as zero. -/
def State.readCells (s : State) (stove : Nat) (f : Flue) (d : Descriptor) : List (Option Nat) → EngRes (List (List Byte)) × State
  | [] => (.ok [], s)
  | c :: cs =>
    let r := match c with
      | none => (EngRes.ok (List.replicate d.e 0#8), s)
      | some a => s.engRead stove f d.space a d.e
    match r.1 with
    | .wait p => (.wait p, r.2)
    | .err e => (.err e, r.2)
    | .ok b =>
      let t := r.2.readCells stove f d cs
      match t.1 with
      | .ok bs => (.ok (b :: bs), t.2)
      | x => (x, t.2)

/-- A write of an engine unit: space, address, bytes. -/
structure EngWrite where
  space : Nat
  addr : Nat
  bytes : List Byte

/-- Where a generic write lands, in pieces. -/
def State.placeGen (s : State) (stove cid : Nat) : Nat → Nat → List Byte → EngRes (List (Loc × List Byte)) × State
  | 0, _, _ => (.ok [], s)
  | _ + 1, _, [] => (.ok [], s)
  | fuel + 1, a, b :: bs =>
    let k := 128 - a % 128
    let r := s.engPa stove cid (BitVec.ofNat 64 a) .store
    match r.1 with
    | .wait p => (.wait p, r.2)
    | .err c => (.err c, r.2)
    | .ok pa =>
      let t := r.2.placeGen stove cid fuel (a + k) ((b :: bs).drop k)
      match t.1 with
      | .ok ps => (.ok ((.gen pa, (b :: bs).take k) :: ps), t.2)
      | x => (x, t.2)

/-- Where the writes of a unit land; the first that fails gives the status. -/
def State.place (s : State) (stove : Nat) (f : Flue) : List EngWrite → EngRes (List (Loc × List Byte)) × State
  | [] => (.ok [], s)
  | w :: ws =>
    let r :=
      if w.space = 0 then s.placeGen stove f.cid (w.bytes.length / 128 + 2) w.addr w.bytes
      else if w.space = 2 then (.ok [(.shr w.addr, w.bytes)], s)
      else
        let l := s.scpRun stove f w.addr w.bytes.length
        if l.all Option.isSome then
          (.ok ((l.zip w.bytes).map fun p => (.scp (p.1.getD 0), [p.2])), s)
        else (.err .owner, s)
    match r.1 with
    | .wait p => (.wait p, r.2)
    | .err c => (.err c, r.2)
    | .ok ps =>
      let t := r.2.place stove f ws
      match t.1 with
      | .ok qs => (.ok (ps ++ qs), t.2)
      | x => (x, t.2)

/-- Make a write on the tile path (12 R276, R277). -/
def State.engStore (s : State) (stove : Nat) (f : Flue) (p : Loc × List Byte) : State :=
  match p.1 with
  | .gen pa => s.tileWrite f.cid pa p.2 (hearthOf stove)
  | l => s.storeLoc stove f l p.2

/-! ### Operand slots (10 R251) -/

/-- The pieces of slot memory that hold cell `j` of row `u` of a box: address and length. -/
def Descriptor.slotPieces (d : Descriptor) (slot u j : Nat) : List (Nat × Nat) :=
  let b := slotBase slot
  if d.fmt = 6 then [(b + 16384 + 16 * u + 2 * j, 2), (b + 128 * u + 16 * j, 16)]
  else if d.tr then [(b + 128 * j + d.e * u, d.e)]
  else [(b + 128 * u + d.e * j, d.e)]
/-- Rows, and bytes of a row, that a box takes in a slot; TR swaps the dimensions. -/
def Descriptor.slotShape (d : Descriptor) : Nat × Nat :=
  if d.fmt = 6 then (d.boxAt 1, d.boxAt 0 / 2)
  else if d.tr then (d.boxAt 0, d.boxAt 1 * d.e) else (d.boxAt 1, d.boxAt 0 * d.e)
/-- The box fits a slot. -/
def Descriptor.fits (d : Descriptor) : Bool :=
  d.slotShape.1 ≤ 128 && d.slotShape.2 ≤ 128 && d.boxAt 2 == 1 && d.boxAt 3 == 1 && d.boxAt 4 == 1
/-- A byte of a slot lies inside the box. -/
def Descriptor.inBox (d : Descriptor) (off : Nat) : Bool :=
  if off < 16384 then off / 128 < d.slotShape.1 && off % 128 < d.slotShape.2
  else d.fmt == 6 && (off - 16384) / 16 < d.slotShape.1 && off % 16 < 2 * (d.boxAt 0 / 32)
/-- Read a cell from slot memory. -/
def readPieces (m : Memory) (ps : List (Nat × Nat)) : List Byte := (ps.map fun p => Memory.read m p.1 p.2).flatten
/-- Write a cell to slot memory. -/
def writePieces (m : Memory) : List (Nat × Nat) → List Byte → Memory
  | [], _ => m
  | p :: ps, bs => writePieces (Memory.write m p.1 (bs.take p.2)) ps (bs.drop p.2)

/-- The claim of a slot is held by the gang of a flue (10 R250). -/
def holdsSlot (st : Stove) (f : Flue) (k : Nat) : Bool :=
  match Tab.get? st.claims k with
  | some c => c.held && c.group == f.group && (if f.gang = 0 then c.gang == 0 && c.solo == f.gflue else c.gang == f.gang)
  | none => false

/-! ### What a unit does -/

/-- The effect of a unit: writes to memory, to slot memory, a slot to clear outside its box, flags of lane 0, bytes counted for
an arrival word, flags of a collective, accumulator elements. -/
structure UnitOut where
  writes : List EngWrite := []
  slotw : List (List (Nat × Nat) × List Byte) := []
  clear : Option (Nat × Descriptor) := none
  flags : FlagSet := 0
  count : Nat := 0
  clflags : FlagSet := 0
  acc : List (Nat × Word) := []

/-- The writes of cells that lie within the extents. -/
def cellWrites (d : Descriptor) (cells : List (Option Nat)) (data : List (List Byte)) : List EngWrite :=
  (cells.zip data).filterMap fun p => p.1.map fun a => ⟨d.space, a, p.2⟩

/-- Bytes of some writes. -/
def writeCount (ws : List EngWrite) : Nat := ws.foldl (fun n w => n + w.bytes.length) 0

/-! ### TCOPY, GATHER, SCATTER -/

def mxDs (x : LArgs) : Bool := x.modx.getLsbD 1
def mxSs (x : LArgs) : Bool := x.modx.getLsbD 0
def mxAw (x : LArgs) : Bool := x.modx.getLsbD 2

/-- Signed coordinates from scalars of the operand block. -/
def blockCoords (ws : List Word) (from_ : Nat) : List Int := ((ws.drop from_).take 5).map BitVec.toInt

/-- Where a byte of a space lies: its physical address in GEN, so that two mappings of one page meet. -/
def State.bytePlace (s : State) (cid space a : Nat) : Option (Nat × Nat) :=
  if space = 0 then (s.mappedPa cid (BitVec.ofNat 64 a)).map fun p => (0, p) else some (space, a)

/-- The places of the bytes of some cells. -/
def State.cellPlaces (s : State) (cid : Nat) (d : Descriptor) (cells : List (Option Nat)) : List (Nat × Nat) :=
  ((cells.filterMap id).map fun a => (List.range d.e).filterMap fun j => s.bytePlace cid d.space (a + j)).flatten

/-- The data of destination cells, a free value in each byte that is a source byte of the same copy too (10 R238, assumption 9). -/
def freeOverlap (cid : Nat) (dst : Descriptor) (src : List (Nat × Nat)) : List (Option Nat) → List (List Byte) → State → List (List Byte) × State
  | c :: cs, b :: bs, s =>
    let hit := fun (j : Nat) => match c with
      | some a => (s.bytePlace cid dst.space (a + j)).any src.contains
      | none => false
    let r := if (List.range dst.e).any hit then
        let q := s.takeBytes dst.e
        (b.zipIdx.map fun x => if hit x.2 then q.1.getD x.2 0 else x.1, q.2)
      else (b, s)
    let t := freeOverlap cid dst src cs bs r.2
    (r.1 :: t.1, t.2)
  | _, _, s => ([], s)

/-- The unit that moves one row: from the cells of a tensor or a slot's row, to the cells of a tensor or a slot's row. `all` are
the source cells of the whole copy. Tensors of different spaces share no byte. -/
def State.moveRow (s : State) (stove : Nat) (f : Flue) (src dst : Option Descriptor) (shape : Descriptor) (sslot dslot : Nat)
    (scells dcells all : List (Option Nat)) (u : Nat) (last : Bool) : EngRes UnitOut × State :=
  let n := shape.boxAt 0 / shape.gran
  let r := match src with
    | some d => s.readCells stove f d scells
    | none => (.ok ((List.range n).map fun j => readPieces (s.stove stove).slots (shape.slotPieces sslot u j)), s)
  match r.1 with
  | .wait p => (.wait p, r.2)
  | .err c => (.err c, r.2)
  | .ok data =>
    match dst with
    | some d =>
      let q := match src with
        | some sd => if sd.space = d.space then freeOverlap f.cid d (r.2.cellPlaces f.cid sd all) dcells data r.2 else (data, r.2)
        | none => (data, r.2)
      let ws := cellWrites d dcells q.1
      (.ok { writes := ws, count := writeCount ws }, q.2)
    | none =>
      let sw := data.zipIdx.map fun p => (shape.slotPieces dslot u p.2, p.1)
      (.ok { slotw := sw, count := n * shape.e, clear := if last then some (dslot, shape) else none }, r.2)

/-- A unit of TCOPY. -/
def State.tcopyUnit (s : State) (stove : Nat) (f : Flue) (op : EngineOp) (x : LArgs) : EngRes UnitOut × State :=
  let u := op.progress
  let shape := (op.src.orElse fun _ => op.dst).getD {}
  let sc := blockCoords op.block 0
  let dc := blockCoords op.block (if mxSs x then 0 else 5)
  let scells := match op.src with
    | some d => d.rowCells d.boxAt sc u
    | none => []
  let dcells := match op.dst with
    | some d => d.rowCells d.boxAt dc u
    | none => []
  let all := match op.src with
    | some d => ((List.range op.units).map fun v => d.rowCells d.boxAt sc v).flatten
    | none => []
  s.moveRow stove f op.src op.dst shape op.b.toNat op.a.toNat scells dcells all u (u + 1 == op.units)

/-- Row `r` of the indexed side from its dimension-0 coordinate. -/
def Descriptor.indexedRow (d : Descriptor) (c r : Int) : List (Option Nat) :=
  (List.range (d.boxAt 0 / d.gran)).map fun t => d.cell [c + (t * d.gran : Nat), r, 0, 0, 0]

/-- The index at a position (10 R237): outside the extent it reads 0. -/
def State.indexAt (s : State) (stove : Nat) (f : Flue) (d : Descriptor) (p : Int) : EngRes Int × State :=
  let r := s.readCells stove f d [d.cell [p, 0, 0, 0, 0]]
  match r.1 with
  | .wait p => (.wait p, r.2)
  | .err c => (.err c, r.2)
  | .ok bs => (.ok (BitVec.ofNat 32 (leNat (bs.headD []))).toInt, r.2)

/-- A unit of GATHER or SCATTER. -/
def State.indexedUnit (s : State) (stove : Nat) (f : Flue) (op : EngineOp) (gather : Bool) : EngRes UnitOut × State :=
  let j := op.progress
  let idx := op.aux.headD {}
  let ind := (if gather then op.src else op.dst).getD {}
  let other := if gather then op.dst else op.src
  let q := s.indexAt stove f idx ((op.block.getD 1 0).toInt + (j : Int))
  match q.1 with
  | .wait p => (.wait p, q.2)
  | .err c => (.err c, q.2)
  | .ok r =>
    let c := (op.block.getD 2 0).toInt
    let icells := ind.indexedRow c r
    let oc := blockCoords op.block 3
    let row := fun (d : Descriptor) => d.rowCells ind.boxAt (oc.set 1 (oc.getD 1 0 + (j : Int))) 0
    let row1 := fun (d : Descriptor) => if d.rank ≤ 1 && j != 0 then (row d).map fun _ => none else row d
    let ocells := match other with
      | some d => row1 d
      | none => []
    let rows := ((List.range op.units).map fun v =>
      match (q.2.indexAt stove f idx ((op.block.getD 1 0).toInt + (v : Int))).1 with
      | .ok r => ind.indexedRow c r
      | _ => []).flatten
    let whole := match other with
      | some d => ((List.range op.units).map fun v => d.rowCells ind.boxAt oc v).flatten
      | none => []
    if gather then
      q.2.moveRow stove f (some ind) other ind 0 op.a.toNat icells ocells rows j (j + 1 == op.units)
    else q.2.moveRow stove f other (some ind) ind op.b.toNat 0 ocells icells whole j false

/-! ### STREAM (10 R240, R241) -/

/-- Widen a cell to values, with the flags of the widening. -/
def widenCell (d : Descriptor) (b : List Byte) : List (FVal × FlagSet) :=
  let n := leNat b
  match d.fmt with
  | 0 => [(fp32.decode n, 0)]
  | 1 => [(fp16.decode n, 0)]
  | 2 => [(bf16.decode n, 0)]
  | 3 => [(e4m3.decode n, 0)]
  | 4 => [(e5m2.decode n, 0)]
  | 5 => [(.fin false (Q.ofInt (BitVec.ofNat 8 n).toInt), 0)]
  | 6 => (i4Decode b).map fun e => (e.val, flagIf e.xo flagXO)
  | _ =>
    let r := intToF fp32 .rne (BitVec.ofNat 32 n).toInt
    [(fp32.decode r.bits, r.flags)]

/-- An FP32 operand of a chain. -/
def toFp32 (v : FVal) : FRes := convertTo fp32 .rne false v

/-- A special function of a value. -/
def streamSfu (fn : SfuFn) (v : FVal) : FVal × FlagSet :=
  let a := toFp32 v
  let r := sfu fp32 fn a.bits
  (fp32.decode r.bits, a.flags ||| r.flags)

/-- One operation of a chain on a value; `t` is the same element of the tensor that the argument names. -/
def streamOp (code : Nat) (arg : Word) (t v : FVal) : FVal × FlagSet :=
  let k := fp32.decode arg.toNat
  let dec := fun (r : FRes) => (fp32.decode r.bits, r.flags)
  let minmax := fun (mx : Bool) =>
    let a := toFp32 v
    let r := fMinMax fp32 mx a.bits arg.toNat
    (fp32.decode r.bits, a.flags ||| r.flags)
  match code with
  | 1 => dec (fAdd fp32 .rne v k)
  | 2 => dec (fMul fp32 .rne v k)
  | 3 => minmax true
  | 4 => minmax false
  | 5 => (match v with
      | .fin _ q => .fin false q.abs
      | .inf _ => .inf false
      | x => x, 0)
  | 6 => (v.negate, 0)
  | 7 => streamSfu .exp2 v
  | 8 => streamSfu .rcp v
  | 9 => streamSfu .rsq v
  | 10 => streamSfu .tanh v
  | 11 =>
    let a := toFp32 v
    let r := fScale fp32 .rne a.bits arg.toInt
    (fp32.decode r.bits, a.flags ||| r.flags)
  | 12 => dec (fAdd fp32 .rne v t)
  | _ => dec (fMul fp32 .rne v t)

/-- The chain: codes with arguments and, for ADDT and MULT, the values of the element in their tensors. -/
def streamChain : List (Nat × Word) → List FVal → FVal → FVal × FlagSet
  | [], _, v => (v, 0)
  | (c, a) :: ops, ts, v =>
    let tensor := c == 12 || c == 13
    let r := streamOp c a (if tensor then ts.headD (.nan false) else v) v
    let q := streamChain ops (if tensor then ts.tail else ts) r.1
    (q.1, r.2 ||| q.2)

/-- The pairs of a chain. -/
def chainPairs : List Word → List (Nat × Word)
  | c :: a :: t => (c.toNat, a) :: chainPairs t
  | _ => []

/-- The format number of R151 for a tensor's format. -/
def fmtCodeOf (fmt : Nat) : Nat :=
  match fmt with
  | 3 => 0 | 4 => 1 | 1 => 2 | 2 => 3 | 5 => 4 | _ => 5

/-- The largest magnitude of some values: maximumNumber, a NaN when there is no number (10 R241, R262). -/
def maxAbs : List FVal → FVal
  | [] => .nan false
  | v :: vs =>
    let a := match v with
      | .fin _ q => FVal.fin false q.abs
      | .inf _ => .inf false
      | .nan _ => .nan false
    let m := maxAbs vs
    if m.isNan then a else if a.isNan then m else if m.lt a then a else m

/-- An E8M0 scale as a value (02 R37). -/
def scaleVal (c : Nat) : FVal := if c = 255 then .nan false else .fin false (Q.pow2 ((c : Int) - 127))

/-- One value in a plain format, as bytes: RoundTo with a mode, or a conversion to an integer. The value is divided by a scale
first (02 R35, R42). -/
def encodeElem (fmt : Nat) (rm : Rm) (sat : Bool) (v sc : FVal) : List Byte × FlagSet :=
  let fl := fun (f : Fmt) (n : Nat) => let r := narrow f rm sat v sc; (leBytes n r.bits, r.flags)
  match fmt with
  | 0 => fl fp32 4
  | 1 => fl fp16 2
  | 2 => fl bf16 2
  | 3 => fl e4m3 1
  | 4 => fl e5m2 1
  | 5 => let r := narrowInt rm (-128) 127 v sc; ([BitVec.ofInt 8 r.1], r.2)
  | _ => let r := narrowInt rm (-2147483648) 2147483647 v sc; (leBytes 4 (BitVec.ofInt 32 r.1).toNat, r.2)

/-- One as a scale. -/
def scaleOne : FVal := .fin false (Q.ofInt 1)

/-- FP32 values encode as an I4X block under their own scale. -/
def encodeI4 (vs : List FVal) : List Byte × FlagSet :=
  let r := i4Encode vs (bscaleCode 5 (maxAbs vs))
  (r.block, r.flags.foldl (· ||| ·) 0)

/-- Cut a list into pieces of `n`. -/
def piecesOf {α : Type} (n : Nat) : Nat → List α → List (List α)
  | 0, _ => []
  | _ + 1, [] => []
  | fuel + 1, x :: xs => (x :: xs).take n :: piecesOf n fuel ((x :: xs).drop n)

/-- A run of values encoded by a destination: cells, scale bytes (one for each block) and flags. `own` is false when the caller
gives the scale `sc` instead of the block's own. -/
def encodeRun (d : Descriptor) (rm : Rm) (sat own : Bool) (sc : FVal) (vs : List FVal) : List (List Byte) × List Byte × FlagSet :=
  if d.fmt = 6 then
    let rs := (piecesOf 32 vs.length vs).map encodeI4
    (rs.map (·.1), [], rs.foldl (fun f r => f ||| r.2) 0)
  else if own then
    let rs := (piecesOf d.blockLen vs.length vs).map fun b =>
      let c := bscaleCode (fmtCodeOf d.fmt) (maxAbs b)
      (c, b.map fun v => encodeElem d.fmt rm true v (scaleVal c))
    ((rs.map fun r => r.2.map (·.1)).flatten, rs.map fun r => BitVec.ofNat 8 r.1,
      rs.foldl (fun f r => r.2.foldl (fun f e => f ||| e.2) f) 0)
  else
    let rs := vs.map fun v => encodeElem d.fmt rm sat v sc
    (rs.map (·.1), [], rs.foldl (fun f r => f ||| r.2) 0)

/-- The start and the coordinates of dimensions 1 to 4 of unit `u` of a whole tensor: runs of at most 256 elements. -/
def Descriptor.runAt (d : Descriptor) (u : Nat) : Nat × List Nat :=
  let segs := (d.extent 0 + 255) / 256
  (256 * (u % segs), digits [d.extent 1, d.extent 2, d.extent 3, d.extent 4] (u / segs))
/-- The cells of unit `u` of a whole tensor. -/
def Descriptor.runCells (d : Descriptor) (u : Nat) : List (Option Nat) :=
  let r := d.runAt u
  let n := min 256 (d.extent 0 - r.1)
  (List.range (n / d.gran)).map fun t => d.cell (((r.1 + t * d.gran : Nat) : Int) :: r.2.map Int.ofNat)
/-- The units of a whole tensor. -/
def Descriptor.runs (d : Descriptor) : Nat :=
  (d.extent 0 + 255) / 256 * (d.extent 1 * d.extent 2 * d.extent 3 * d.extent 4)

/-- Read the values of cells. -/
def State.readVals (s : State) (stove : Nat) (f : Flue) (d : Descriptor) (cells : List (Option Nat)) :
    EngRes (List (FVal × FlagSet)) × State :=
  let r := s.readCells stove f d cells
  match r.1 with
  | .wait p => (.wait p, r.2)
  | .err c => (.err c, r.2)
  | .ok bs => (.ok (bs.map (widenCell d)).flatten, r.2)

/-- Read the same run of each of some tensors. -/
def State.readAux (s : State) (stove : Nat) (f : Flue) (u : Nat) : List Descriptor → EngRes (List (List (FVal × FlagSet))) × State
  | [] => (.ok [], s)
  | d :: ds =>
    let r := s.readVals stove f d (d.runCells u)
    match r.1 with
    | .wait p => (.wait p, r.2)
    | .err c => (.err c, r.2)
    | .ok vs =>
      let t := r.2.readAux stove f u ds
      match t.1 with
      | .ok rest => (.ok (vs :: rest), t.2)
      | x => (x, t.2)

/-- A unit of STREAM. -/
def State.streamUnit (s : State) (stove : Nat) (f : Flue) (op : EngineOp) (x : LArgs) : EngRes UnitOut × State :=
  let src := op.src.getD {}
  let dst := op.dst.getD {}
  let u := op.progress
  let r := s.readVals stove f src (src.runCells u)
  match r.1 with
  | .wait p => (.wait p, r.2)
  | .err c => (.err c, r.2)
  | .ok vs =>
    let t := r.2.readAux stove f u op.aux
    match t.1 with
    | .wait p => (.wait p, t.2)
    | .err c => (.err c, t.2)
    | .ok ts =>
      let ys := vs.zipIdx.map fun p =>
        let col := ts.map fun l => l.getD p.2 (.nan false, 0)
        let y := streamChain (chainPairs op.block) (col.map (·.1)) p.1.1
        (y.1, col.foldl (fun (fl : FlagSet) c => fl ||| c.2) (y.2 ||| p.1.2))
      let own := dst.sblk ≠ 0
      let out := encodeRun dst .rne (x.modx.getLsbD 3) own scaleOne (ys.map (·.1))
      let at0 := dst.runAt u
      let scales := out.2.1.zipIdx.map fun p =>
        (⟨0, dst.scaleAddr ((at0.1 + p.2 * dst.blockLen) :: at0.2), [p.1]⟩ : EngWrite)
      (.ok { writes := cellWrites dst (dst.runCells u) out.1 ++ scales,
             flags := ys.foldl (fun (fl : FlagSet) y => fl ||| y.2) out.2.2 }, t.2)

/-! ### COLL (10 R242-R244, 02 R49-R51) -/

/-- The coordinates of an element by its linear number. -/
def Descriptor.coordsOf (d : Descriptor) (n : Nat) : List Nat :=
  digits [d.extent 0, d.extent 1, d.extent 2, d.extent 3, d.extent 4] n
/-- The cell of an element by its linear number. -/
def Descriptor.cellOf (d : Descriptor) (n : Nat) : Option Nat := d.cell ((d.coordsOf n).map Int.ofNat)
/-- The linear numbers at which the cells of block `i` start. -/
def Descriptor.blockStarts (d : Descriptor) (i : Nat) : List Nat :=
  (List.range ((min 32 (d.total - 32 * i)) / d.gran)).map fun t => 32 * i + t * d.gran

/-- The floating format of a collective's elements. -/
def collFmt (fmt : Nat) : Fmt := if fmt = 0 then fp32 else if fmt = 1 then fp16 else bf16

/-- The fold over the ranks of one element, rounded into the destination's format `f` (10 R243). -/
def collSum (f : Fmt) : List FVal → FRes
  | [] => { bits := 0 }
  | v :: vs =>
    let r := vs.foldl (fun (acc : FVal × FlagSet) x =>
      let a := fAdd fp32 .rne acc.1 x
      (fp32.decode a.bits, acc.2 ||| a.flags)) (v, flagIf v.isSnan flagNV)
    let y := convertTo f .rne false r.1
    { bits := y.bits, flags := y.flags ||| r.2 }

/-- The exponent that the ranks agree on (02 R49): of the finite non-zero elements. -/
def collExp (vs : List FVal) : Option Int :=
  vs.foldl (fun m v => match v with
    | .fin _ q => if q.isZero then m else match m with
      | none => some q.flog2
      | some e => some (max e q.flog2)
    | _ => m) none

/-- One element of the exact reduction (02 R49, R50), with the flags of this rank's conversion when `own` is its value. -/
def collExact (f : Fmt) (e : Option Int) (own : FVal) (vs : List FVal) : FRes :=
  let pos := vs.any fun v => v.isInf && !v.negSign
  let neg := vs.any fun v => v.isInf && v.negSign
  if vs.any FVal.isNan then { bits := f.nan, flags := flagIf (vs.any FVal.isSnan || pos && neg) flagNV }
  else
    if pos && neg then { bits := f.nan, flags := flagNV }
    else if pos || neg then { bits := f.signBit neg + f.inf }
    else match e with
      | none => { bits := 0 }
      | some e =>
        let conv := fun (v : FVal) => roundInt .rne (v.q.mul (Q.pow2 (30 - e)))
        let sum := vs.foldl (fun a v => a + (conv v).1) 0
        let y := roundTo f .rne false false ((Q.ofInt sum).mul (Q.pow2 (e - 30)))
        { bits := y.bits, flags := y.flags ||| flagIf (conv own).2 flagNX }

/-- An element reduced over the ranks into the format `dst` of the destination: `x` the exact form, `rop` 0 SUM, 1 MAX, 2 MIN. A maximum or
a minimum that goes to another format is rounded into it as a sum is (DESIGN CHOICE, assumption 32). -/
def collReduce (fmt dst rop : Nat) (x : Bool) (e : Option Int) (q : Nat) (col : List Nat) : List Byte × FlagSet :=
  if fmt = 7 then
    let is := col.map fun n => (BitVec.ofNat 32 n).toInt
    let v := match is with
      | [] => 0
      | a :: t => t.foldl (fun a b => if rop = 0 then a + b else if rop = 1 then max a b else min a b) a
    (leBytes 4 (BitVec.ofInt 32 v).toNat, 0)
  else
    let f := collFmt fmt
    let g := collFmt dst
    let n := if dst = 0 then 4 else 2
    let vs := col.map f.decode
    let into := fun (r : FRes) =>
      if fmt = dst then r
      else
        let y := convertTo g .rne false (f.decode r.bits)
        { y with flags := r.flags ||| y.flags }
    let r :=
      if x then collExact g e (vs.getD q (.nan false)) vs
      else if rop = 0 then collSum g vs
      else into <| match col with
        | [] => { bits := 0 }
        | a :: t => t.foldl (fun (acc : FRes) b =>
            let m := fMinMax f (rop == 1) acc.bits b
            { bits := m.bits, flags := acc.flags ||| m.flags })
          { bits := if (f.decode a).isNan then f.nan else a, flags := flagIf (f.decode a).isSnan flagNV }
    (leBytes n r.bits, r.flags)

def collKind (x : LArgs) : Nat := (x.modx.extractLsb' 0 3).toNat
def collRop (x : LArgs) : Nat := (x.modx.extractLsb' 3 2).toNat
def collX (x : LArgs) : Bool := x.modx.getLsbD 5

/-- The cells of a block as each rank supplies them: this rank's from its tensor, a peer's from what it sent. -/
def rankCells (e n q p : Nat) (own : List (List Byte)) (peers : List (Nat × List Byte)) : List (Option (List (List Byte))) :=
  (List.range p).map fun r =>
    if r = q then some own
    else match peers.find? fun x => x.1 == r with
      | some x => if x.2.length = n * e then some (piecesOf e n x.2) else none
      | none => none

/-- A rank's own data of a unit go to the other members, in flits of collective data (20 R420, R421). -/
def State.collSend (s : State) (stove : Nat) (f : Flue) (op : EngineOp) (own : List Byte) : State :=
  match s.ctx? f.cid with
  | none => s
  | some c => op.peers.foldl (fun (s : State) id => match c.roster.find? fun p => p.2.idHash == id with
    | some p => (s.sendPacket f.cid (hearthOf stove) (s.peerPort f.cid p.1 op.progress) 3).request f.cid p.1 3 7 op.progress [own]
    | none => s) s

/-- A unit of COLL: block `i` of the source (10 R227). What the peers hold of the block is an input; while a rank's data is
missing the unit does not complete. -/
def State.collUnit (s : State) (stove : Nat) (f : Flue) (op : EngineOp) (x : LArgs) (peers : List (Nat × List Byte)) :
    EngRes UnitOut × State :=
  let src := op.src.getD {}
  let dst := op.dst.getD {}
  let kind := collKind x
  let p := (op.block.getD 2 1).toNat
  let q := (op.block.getD 3 0).toNat
  let root := (op.block.getD 1 0).toNat
  let starts := src.blockStarts op.progress
  let sl := src.total / p
  let needOwn := kind ≠ 4 || root = q
  let r := if needOwn then s.readCells stove f src (starts.map src.cellOf) else (.ok [], s)
  match r.1 with
  | .wait p => (.wait p, r.2)
  | .err c => (.err c, r.2)
  | .ok own =>
    let cols := rankCells src.e starts.length q p own peers
    let need := if kind = 4 then [root] else List.range p
    if !(need.all fun k => (cols.getD k none).isSome) then (.wait none, r.2)
    else
      let s1 := if needOwn then r.2.collSend stove f op own.flatten else r.2
      let data := fun (k j : Nat) => (((cols.getD k none).getD []).getD j [])
      let inSlice := fun (n : Nat) => q * sl ≤ n && n < (q + 1) * sl
      let put := fun (n : Nat) (b : List Byte) => (dst.cellOf n).map fun a => (⟨dst.space, a, b⟩ : EngWrite)
      if kind ≤ 1 then
        let all := ((List.range p).map fun k => (List.range starts.length).map fun j => (collFmt src.fmt).decode (leNat (data k j))).flatten
        let e := collExp all
        let want := starts.zipIdx.filter fun n => kind == 0 || inSlice n.1
        let res := want.map fun n =>
          (n.1, collReduce src.fmt dst.fmt (collRop x) (collX x) e q ((List.range p).map fun k => leNat (data k n.2)))
        (.ok { writes := res.filterMap fun v => put (if kind = 0 then v.1 else v.1 - q * sl) v.2.1,
               clflags := res.foldl (fun (fl : FlagSet) v => fl ||| v.2.2) 0 }, s1)
      else if kind = 2 then
        (.ok { writes := ((List.range p).map fun k => starts.zipIdx.filterMap fun n => put (k * src.total + n.1) (data k n.2)).flatten }, s1)
      else if kind = 3 then
        (.ok { writes := ((List.range p).map fun k =>
                 (starts.zipIdx.filter fun n => inSlice n.1).filterMap fun n => put (k * sl + n.1 - q * sl) (data k n.2)).flatten }, s1)
      else (.ok { writes := starts.zipIdx.filterMap fun n => put n.1 (data root n.2) }, s1)

/-! ### Issue (10 R225, R226, R494) -/

/-- The number of a class (10 R245). -/
def clsNum : EngClass → Nat
  | .cp => 0 | .mx => 1 | .gt => 2 | .cl => 3
/-- The counter of a class (10 R226). -/
def Flue.engCount (f : Flue) (cls : Nat) : Nat := (Tab.getD f.ops cls []).length
/-- Add an operation to a class. -/
def Flue.addOp (f : Flue) (cls : Nat) (op : EngineOp) : Flue := { f with ops := Tab.put f.ops cls (Tab.getD f.ops cls [] ++ [op]) }

/-- A uniform 64-bit operand, and a 32-bit one. -/
def Issue.uni64 (i : Issue) (x : LArgs) (o : Opnd) : DWord := (i.src x.lit).read o .z64 0
def Issue.uni (i : Issue) (x : LArgs) (o : Opnd) : Word := (i.src x.lit).word o 0

/-- The rows of bytes of a box that lie within the extents: first byte and length (10 R494). -/
def Descriptor.rowSpans (d : Descriptor) (box : Nat → Nat) (cs : List Int) : List (Nat × Nat) :=
  let c0 := d.coord cs 0
  let lo : Int := max c0 0
  let hi : Int := min (c0 + (box 0 : Int)) (d.extent 0 : Int)
  if hi ≤ lo then []
  else (List.range (rowsOf box)).filterMap fun u =>
    (d.cell (lo :: d.rowCoords box cs u)).map fun a => (a, (hi - lo).toNat / d.gran * d.e)
/-- The rows of a whole tensor. -/
def Descriptor.wholeSpans (d : Descriptor) : List (Nat × Nat) := d.rowSpans d.extent [0, 0, 0, 0, 0]

/-- The lowest byte at or beyond a limit. -/
def beyond (limit : Nat) (spans : List (Nat × Nat)) : Option Nat :=
  spans.foldl (fun m p =>
    if p.1 + p.2 ≤ limit then m
    else
      let a := max p.1 limit
      match m with
      | none => some a
      | some b => some (min a b)) none

/-- The lower of two failing offsets. -/
def lowest (a b : Option Nat) : Option Nat :=
  match a, b with
  | some x, some y => some (min x y)
  | some x, none => some x
  | none, y => y

/-- The checks of R494 on the sides of an operation (space and rows of bytes) and on an arrival word: the cause and the
lowest failing offset. -/
def State.engCheck (s : State) (stove : Nat) (f : Flue) (sides : List (Nat × List (Nat × Nat))) (aw : Option Nat) :
    Option (Nat × DWord) :=
  let all := sides ++ (match aw with | some a => [(3, [(a, 16)])] | none => [])
  let blocks := match s.kernel? f.part f.kslot with
    | some k => (Tab.getD k.scp (dieOf stove) []).length
    | none => 0
  let bound := all.foldl (fun m p =>
    if p.1 = 2 then lowest m (beyond (s.groupOf stove f).sharedSize p.2)
    else if p.1 = 3 then lowest m (beyond (2 ^ 26) p.2) else m) none
  let own := all.foldl (fun m p => if p.1 = 3 then lowest m (beyond (65536 * blocks) p.2) else m) none
  match aw with
  | some a => if a % 16 ≠ 0 then some (cALIGN, BitVec.ofNat 64 a)
              else match bound, own with
                | some o, _ => some (cBOUND, BitVec.ofNat 64 o)
                | none, some o => some (cOWNER, BitVec.ofNat 64 o)
                | none, none => none
  | none => match bound, own with
    | some o, _ => some (cBOUND, BitVec.ofNat 64 o)
    | none, some o => some (cOWNER, BitVec.ofNat 64 o)
    | none, none => none

/-- What the checks at issue give: the operation, a cause with an address (the instruction's own when none), or a page to wait
for. -/
inductive Plan where
  | go (op : EngineOp)
  | cause (c : Nat) (faddr : Option DWord)
  | wait (va : DWord)

/-- The identifiers of an operation: the source's stands in B, the destination's in A, those of the further tensors in its block. -/
def Issue.tids (i : Issue) (x : LArgs) (op : EngineOp) : List Nat :=
  let aux := match op.instr with
    | .gather _ => op.block.take 1
    | .scatter _ => op.block.take 1
    | .stream _ => ((chainPairs op.block).filter fun p => p.1 == 12 || p.1 == 13).map (·.2)
    | _ => []
  ((if op.src.isSome then [i.uni x x.b] else []) ++ (if op.dst.isSome then [i.uni x x.a] else []) ++ aux).map BitVec.toNat
/-- A stove's cache of identifiers notes the use of each (16 R364). -/
def State.useTids (s : State) (stove cid : Nat) (ts : List Nat) : State := ts.foldl (fun s t => s.tidUse stove cid t) s

/-! ### Reads that nothing orders (10 R238, 12 R275) -/

/-- A region word. -/
structure Region where
  ok : Bool
  row : Nat
  m : Nat
  col : Nat
  n : Nat

/-- Decode a region word. -/
def regionOf (w : Word) : Region where
  ok := w.extractLsb' 26 6 == 0
  row := (w.extractLsb' 0 7).toNat
  m := (w.extractLsb' 7 7).toNat + 1
  col := 16 * (w.extractLsb' 14 6).toNat
  n := 16 * ((w.extractLsb' 20 6).toNat + 1)

/-- The region lies within a group's rows and the columns. -/
def Region.fits (r : Region) (rows : Nat) : Bool := r.ok && r.row + r.m ≤ rows && r.col + r.n ≤ 1024

/-- The slots that an operation reads. -/
def EngineOp.slotReads (op : EngineOp) : List Nat :=
  match op.instr with
  | .tcopy x => if mxSs x then [op.b.toNat] else []
  | .scatter x => if mxSs x then [op.b.toNat] else []
  | .gather _ => []
  | _ => op.slots

/-- The slot that an operation fills, with the box. -/
def EngineOp.slotFill (op : EngineOp) : Option (Nat × Descriptor) :=
  match op.instr with
  | .tcopy x => if mxDs x then some (op.a.toNat, op.src.getD {}) else none
  | .gather x => if mxDs x then some (op.a.toNat, op.src.getD {}) else none
  | _ => none

/-- The rectangle of a region word. -/
def Region.rect (r : Region) : AccRect := ⟨r.row, r.m, r.col, r.n⟩

/-- The accumulator elements of an operation, in rectangles. -/
def EngineOp.accCells (op : EngineOp) : List AccRect :=
  let r := regionOf (op.a.setWidth 32)
  let key := fun (k : Nat) => (⟨k / 1024, 1, k % 1024, 1⟩ : AccRect)
  match op.instr with
  | .mmab _ => (List.range 16).map fun p => ⟨r.row + 32 * (p % 4), r.m, r.col + 64 * (p / 4), r.n⟩
  | .mma _ => [r.rect]
  | .mmaH _ => [r.rect]
  | .mmas _ => [r.rect]
  | .accz _ => [r.rect]
  | .accld _ => [r.rect]
  | .accst _ => [r.rect]
  | .accmvRd _ => op.writes.map fun w => key w.val.toNat
  | .accmvWr _ => op.puts.map fun p => key p.1
  | _ => []

/-- The operation reads, and writes, its accumulator elements. -/
def EngineOp.accReads (op : EngineOp) : Bool :=
  match op.instr with
  | .accz _ => false
  | .accld _ => false
  | .accmvWr _ => false
  | _ => true
def EngineOp.accWrites (op : EngineOp) : Bool :=
  match op.instr with
  | .accst _ => false
  | .accmvRd _ => false
  | _ => true

/-- What two rectangles share. -/
def AccRect.meet (a b : AccRect) : Option AccRect :=
  let r := max a.row b.row
  let c := max a.col b.col
  let m := min (a.row + a.m) (b.row + b.m) - r
  let n := min (a.col + a.n) (b.col + b.n) - c
  if m = 0 || n = 0 then none else some ⟨r, m, c, n⟩

/-- The units of an operation that arrival words have ordered before what follows: those that were counted in a generation which an AWWAIT has
found over (10 R238, R239). `acq` are the generations that the group's flues have found, by address. -/
def EngineOp.ordered (op : EngineOp) (acq : List (Nat × Word)) : Nat :=
  match op.mark with
  | none => op.sure
  | some m => acq.foldl (fun n p => if p.1 ≠ m.addr then n else max n (if p.2 = m.gen then m.older else op.progress)) op.sure

/-- What a reader reads in any values of what a writer that is not ordered against it writes or has written: of a slot, the units that no
arrival word has ordered. -/
def EngineOp.mix (reader : EngineOp) (acq : List (Nat × Word)) (writer : EngineOp) : EngineOp :=
  let slots := match writer.slotFill with
    | some (k, d) =>
      let done := writer.ordered acq
      if reader.slotReads.contains k && done < writer.units then [⟨k, d, done⟩] else []
    | none => []
  let cells := if reader.accReads && writer.accWrites then
      (reader.accCells.map fun a => writer.accCells.filterMap a.meet).flatten
    else []
  { reader with mixed := reader.mixed ++ slots, mixedAcc := reader.mixedAcc ++ cells }

/-- Two operations are not ordered against each other: of different classes, or of no common flue (10 R226). -/
def unordered (c d : Nat) (a b : EngineOp) : Bool := c != d || !a.members.any b.members.contains

/-- The flues of a group that is resident on a stove: in their slots, and switched out alone. -/
def State.groupFlues (s : State) (stove gid : Nat) : List Flue :=
  ((s.stove stove).flues.filter fun p => p.2.group == gid).map (·.2) ++
    (match s.group? stove gid with
      | some g => g.saved.map fun p => p.2.flue
      | none => [])
/-- The outstanding operations of a group, with their classes. -/
def State.groupOps (s : State) (stove gid : Nat) : List (Nat × EngineOp) :=
  ((s.groupFlues stove gid).map fun f => (f.ops.map fun c => c.2.map fun o => (c.1, o)).flatten).flatten
/-- The generations that the flues of a group have acquired. -/
def State.groupAcq (s : State) (stove gid : Nat) : List (Nat × Word) := ((s.groupFlues stove gid).map fun f => f.acquired).flatten

/-- Change the loose operations of a group. -/
def State.modLoose (s : State) (stove gid : Nat) (k : List (Nat × EngineOp) → List (Nat × EngineOp)) : State :=
  match s.group? stove gid with
  | some g => s.setGroup stove gid { g with loose := k g.loose }
  | none => s

/-- An operation is issued beside those of its group that are outstanding, or have completed without a WAITC since: whichever reads what
another writes without an order reads it in any values (10 R238, 12 R275). -/
def State.mixOps (s : State) (stove gid cls : Nat) (op : EngineOp) : EngineOp × State :=
  let acq := s.groupAcq stove gid
  let others := (s.groupOps stove gid).filter fun p => unordered cls p.1 op p.2
  let past := (match s.group? stove gid with | some g => g.loose | none => []).filter fun p => unordered cls p.1 op p.2
  let met := fun (p : Nat × EngineOp) => let q := p.2.mix acq op; q.mixed != p.2.mixed || q.mixedAcc != p.2.mixedAcc
  ((others ++ past).foldl (fun o p => o.mix acq p.2) op,
   ((others.filter met).map fun p => p.2.uid).dedup.foldl (fun s u => s.modOp stove u fun o => o.mix acq op) s)

/-- A byte of slot memory is read in any value. -/
def SlotMix.free (x : SlotMix) (a : Nat) : Bool :=
  let off := a - slotBase x.slot
  let unit := if 16384 ≤ off then (off - 16384) / 16 else if x.box.tr then off % 128 / x.box.e else off / 128
  slotBase x.slot ≤ a && off < 18432 && x.done ≤ unit

/-- A stove's slots and accumulator as an operation reads them: what it may read in any values holds free values. The numbers of
the free values run on from `n`. -/
def Stove.seenBy (st : Stove) (op : EngineOp) (base n : Nat) : Stove :=
  { st with
    slots := op.mixed.foldl (fun m x => Memory.write m (slotBase x.slot) ((List.range 18432).map fun j =>
      if x.free (slotBase x.slot + j) then (Config.freeWord (n + slotBase x.slot + j)).setWidth 8
      else Memory.byte m (slotBase x.slot + j))) st.slots
    acc := op.mixedAcc.foldl (fun m r => SMap.setAll m ((List.range r.m).map fun i => (List.range r.n).map fun j =>
      (1024 * (base + r.row + i) + r.col + j, Config.freeWord (n + 589824 + 1024 * (base + r.row + i) + r.col + j))).flatten) st.acc }

/-- Issue an engine operation of a class (10 R225, R226): the group acts once; a failed check raises its cause and issues
nothing; a 64th operation of the class is not issued. -/
def engIssue (x : LArgs) (cls : Nat) (plan : Issue → Flue → State → Plan) (s : State) : Res :=
  onIssue s fun i f =>
    let acting := i.groupActs x.guard
    if acting = 0 then s.upd i fun f => f.finish i 0
    else match plan i f s with
      | .cause c a => s.upd i fun f => (f.raiseAt i c acting (a.getD i.pc)).finish i acting
      | .wait va => s.upd i fun f => { f with pageWait := some va }
      | .go op =>
        if 63 ≤ f.engCount cls then s
        else
          let s1 := (((s.commit i.stove i.slot).release i.stove).useTids i.stove f.cid (i.tids x op)).tick
          let r := s1.mixOps i.stove f.group cls { op with uid := s.stamp, members := [f.gflue] }
          r.2.upd i fun f => (f.addOp cls r.1).finish i 0

/-- The scalars of an operand block. -/
def Issue.block (i : Issue) (x : LArgs) (n : Nat) : List Word := (i.src x.lit).run x.c n 0

/-- A bad dimension-0 coordinate of an I4X tensor (10 R235). -/
def badI4 (d : Descriptor) (c : Int) : Bool := d.fmt == 6 && c % 32 != 0

/-- TCOPY at issue (10 R236). -/
def tcopyPlan (x : LArgs) (i : Issue) (f : Flue) (s : State) : Plan :=
  let n := 10 - (if mxDs x || mxSs x then 5 else 0)
  let blk := i.block x (n + if mxAw x then 1 else 0)
  let a := i.uni x x.a
  let b := i.uni x x.b
  let st := s.stove i.stove
  let aw := if mxAw x then some (blk.getD n 0).toNat else none
  let op : EngineOp := { instr := .tcopy x, a := a.setWidth 64, b := b.setWidth 64, block := blk }
  let src := if mxSs x then none else s.tid? f.cid b.toNat
  let dst := if mxDs x then none else s.tid? f.cid a.toNat
  let sc := blockCoords blk 0
  let dc := blockCoords blk (if mxSs x then 0 else 5)
  if (!mxSs x && src.isNone) || (!mxDs x && dst.isNone) then .cause cBOUND none
  else
    let slot := if mxDs x then some a.toNat else if mxSs x then some b.toNat else none
    let sd := src.getD {}
    let dd := dst.getD {}
    let shape := if mxSs x then dd else sd
    let differ := !mxDs x && !mxSs x && (sd.fmt != dd.fmt || !(List.range 5).all fun k => sd.boxAt k == dd.boxAt k)
    let bad4 := (!mxSs x && badI4 sd (sd.coord sc 0)) || (!mxDs x && badI4 dd (dd.coord dc 0))
    if differ || bad4 || (match slot with | some k => 32 ≤ k | none => false) then .cause cBOUND none
    else if (match slot with | some k => !holdsSlot st f k | none => false) then .cause cOSLOT none
    else if slot.isSome && !shape.fits then .cause cBOUND none
    else
      let sides := (if mxSs x then [] else [(sd.space, sd.rowSpans sd.boxAt sc)]) ++
                   (if mxDs x then [] else [(dd.space, dd.rowSpans dd.boxAt dc)])
      match s.engCheck i.stove f sides aw with
      | some (c, o) => .cause c (some o)
      | none => .go { op with src := src, dst := dst, units := rowsOf shape.boxAt, slots := slot.toList }

def execTcopy (x : LArgs) (s : State) : Res := engIssue x 0 (tcopyPlan x) s

/-- GATHER and SCATTER at issue (10 R237). -/
def indexedPlan (x : LArgs) (gather : Bool) (i : Issue) (f : Flue) (s : State) : Plan :=
  let slotSide := if gather then mxDs x else mxSs x
  let n := if slotSide then 3 else 8
  let blk := i.block x (n + if mxAw x then 1 else 0)
  let a := i.uni x x.a
  let b := i.uni x x.b
  let st := s.stove i.stove
  let aw := if mxAw x then some (blk.getD n 0).toNat else none
  let indId := if gather then b else a
  let otherId := if gather then a else b
  let op : EngineOp := { instr := if gather then .gather x else .scatter x, a := a.setWidth 64, b := b.setWidth 64, block := blk }
  match s.tid? f.cid indId.toNat, s.tid? f.cid (blk.getD 0 0).toNat with
  | some ind, some idx =>
    let other := if slotSide then none else s.tid? f.cid otherId.toNat
    if !slotSide && other.isNone then .cause cBOUND none
    else
      let od := other.getD {}
      let c := (blk.getD 2 0).toInt
      let oc := blockCoords blk 3
      if idx.fmt != 7 || idx.rank != 1 || 2 < ind.rank || (!slotSide && od.fmt != ind.fmt) || badI4 ind c ||
         (!slotSide && badI4 od (od.coord oc 0)) || (slotSide && 32 ≤ otherId.toNat) then .cause cBOUND none
      else if slotSide && !holdsSlot st f otherId.toNat then .cause cOSLOT none
      else if slotSide && !ind.fits then .cause cBOUND none
      else
        let p := (blk.getD 1 0).toInt
        let ibox := fun (k : Nat) => if k = 0 then ind.boxAt 1 else 1
        let sides := [(ind.space, ind.wholeSpans), (idx.space, idx.rowSpans ibox [p, 0, 0, 0, 0])] ++
                     (if slotSide then [] else [(od.space, od.rowSpans ind.boxAt oc)])
        match s.engCheck i.stove f sides aw with
        | some (c, o) => .cause c (some o)
        | none => .go { op with
            src := if gather then some ind else other, dst := if gather then other else some ind, aux := [idx],
            units := ind.boxAt 1, slots := if slotSide then [otherId.toNat] else [] }
  | _, _ => .cause cBOUND none

def execGather (x : LArgs) (s : State) : Res := engIssue x 2 (indexedPlan x true) s
def execScatter (x : LArgs) (s : State) : Res := engIssue x 2 (indexedPlan x false) s

/-- A pair of a chain is allowed (10 R240). -/
def chainOk (p : Nat × Word) : Bool :=
  1 ≤ p.1 && p.1 ≤ 13 && (!(5 ≤ p.1 && p.1 ≤ 10) || p.2 == 0)

/-- STREAM at issue (10 R240). -/
def streamPlan (x : LArgs) (i : Issue) (f : Flue) (s : State) : Plan :=
  let blk := i.block x (blkStream x.modx)
  let pairs := chainPairs blk
  let ids := (pairs.filter fun p => p.1 == 12 || p.1 == 13).map fun p => p.2.toNat
  let aux := ids.map fun t => s.tid? f.cid t
  match s.tid? f.cid (i.uni x x.a).toNat, s.tid? f.cid (i.uni x x.b).toNat with
  | some dst, some src =>
    let same := fun (d : Descriptor) => d.rank == src.rank && d.ext == src.ext
    if !(pairs.all chainOk) || !(aux.all Option.isSome) || !same dst || !(aux.all fun d => same (d.getD {})) ||
       ((dst.fmt == 6 || dst.sblk != 0) && dst.extent 0 % dst.blockLen != 0) then .cause cBOUND none
    else
      let tensors := aux.map fun d => d.getD {}
      match s.engCheck i.stove f ((src :: dst :: tensors).map fun d => (d.space, d.wholeSpans)) none with
      | some (c, o) => .cause c (some o)
      | none => .go { instr := .stream x, block := blk, src := some src, dst := some dst, aux := tensors, units := src.runs }
  | _, _ => .cause cBOUND none

def execStream (x : LArgs) (s : State) : Res := engIssue x 0 (streamPlan x) s

/-- The members of a process group: entry number and identity hash, ascending (16 R371). -/
def State.pgMembers (s : State) (cid : Nat) (tab : DWord) (g : Nat) : Nat → Nat → DevRes (List (Nat × BitVec 256))
  | 0, _ => .ok []
  | n + 1, e =>
    match s.devRead cid (tab + BitVec.ofNat 64 (64 + 64 * e)) 64 with
    | .cause c => .cause c
    | .wait => .wait
    | .ok b =>
      match s.pgMembers cid tab g n (e + 1) with
      | .ok l => .ok (if (BitVec.ofNat 16 (fieldNat b 40 2)).getLsbD g then (e, BitVec.ofNat 256 (leNat (b.take 32))) :: l else l)
      | r => r

/-- Another member is on the roster (20 R428). -/
def Context.hasPeer (c : Context) (h : BitVec 256) : Bool := c.roster.any fun p => p.2.idHash == h && p.2.lstate == .active

/-- The extents of A against B (10 R242). -/
def collShape (kind p : Nat) (a b : Descriptor) : Bool :=
  let k := b.rank - 1
  let inner := a.rank == b.rank && (List.range k).all fun j => a.extent j == b.extent j
  let oa := a.extent k
  let ob := b.extent k
  inner && (if kind = 1 then ob % p == 0 && oa == ob / p
            else if kind = 2 then oa == ob * p
            else oa == ob && (kind != 3 || ob % p == 0))

/-- Formats that a collective of a kind accepts from its source to its destination (10 R242, R243): a reduction rounds into the format of its
destination, floating to floating; every other kind moves its elements as they are. -/
def collFmtsOk (kind : Nat) (x : Bool) (src dst : Nat) : Bool :=
  if kind ≤ 1 then (src ≤ 2 && dst ≤ 2) || (!x && src == 7 && dst == 7) else src == dst

/-- COLL at issue (10 R242, 20 R428). A table that cannot be read ends the collective with that status. -/
def collPlan (x : LArgs) (mk : LArgs → Instr) (i : Issue) (f : Flue) (s : State) : Plan :=
  let blk := i.block x 2
  let g := (blk.getD 0 0).toNat
  let kind := collKind x
  match s.tid? f.cid (i.uni x x.a).toNat, s.tid? f.cid (i.uni x x.b).toNat, s.kernel? f.part f.kslot with
  | some dst, some src, some k =>
    if k.npg ≤ g || !k.pgmask.getLsbD g then .cause cBOUND none
    else match s.devRead f.cid k.launch.pgtab 64 with
      | .wait => .wait k.launch.pgtab
      | .cause c => .go { instr := mk x, block := blk, src := some src, dst := some dst, status := engStatusOf c }
      | .ok h => match s.pgMembers f.cid k.launch.pgtab g (fieldNat h 0 4) 0 with
        | .wait => .wait k.launch.pgtab
        | .cause c => .go { instr := mk x, block := blk, src := some src, dst := some dst, status := engStatusOf c }
        | .ok ms =>
          let p := ms.length
          let q := (ms.findIdx? fun m => m.1 == k.srank).getD 0
          let slices4 := src.fmt == 6 && (kind == 1 || kind == 3) && src.total / p % 32 != 0
          if !collShape kind p dst src || !collFmtsOk kind (collX x) src.fmt dst.fmt || slices4 ||
             (kind == 4 && p ≤ (blk.getD 1 0).toNat) then .cause cBOUND none
          else match s.engCheck i.stove f [(src.space, src.wholeSpans), (dst.space, dst.wholeSpans)] none with
            | some (c, o) => .cause c (some o)
            | none =>
              let on := match s.ctx? f.cid with
                | some c => ms.all fun m => m.1 == k.srank || c.hasPeer m.2
                | none => false
              .go { instr := mk x, block := blk ++ [BitVec.ofNat 32 p, BitVec.ofNat 32 q], src := some src, dst := some dst,
                    units := (src.total + 31) / 32, status := if on then .ok else .roster
                    peers := (ms.filter fun m => m.1 != k.srank).map (·.2) }
  | _, _, _ => .cause cBOUND none

def execCollAllred (x : LArgs) (s : State) : Res := engIssue x 3 (collPlan x .collAllred) s
def execCollRedsc (x : LArgs) (s : State) : Res := engIssue x 3 (collPlan x .collRedsc) s
def execCollAllga (x : LArgs) (s : State) : Res := engIssue x 3 (collPlan x .collAllga) s
def execCollA2a (x : LArgs) (s : State) : Res := engIssue x 3 (collPlan x .collA2a) s
def execCollBcast (x : LArgs) (s : State) : Res := engIssue x 3 (collPlan x .collBcast) s

/-! ### Identifiers, waiting and control -/

/-- TIDSET (10 R233): the descriptor is checked and read as a load of 64 bytes (12 R276: the generic path), then its fields. -/
def execTidset (x : LArgs) (s : State) : Res :=
  onIssue s fun i f =>
    let acting := i.groupActs x.guard
    if acting = 0 then s.upd i fun f => f.finish i 0
    else
      let s0 := (s.commit i.stove i.slot).release i.stove
      let ea := i.uni64 x x.a
      let t := (i.uni x x.b).toNat
      let r := s0.check i.stove f 0 ea 64 .load false
      match r.1 with
      | .cause c => r.2.upd i fun f => (f.raiseAt i c acting ea).finish i acting
      | .wait va => r.2.upd i fun f => { f with pageWait := some va }
      | .ok loc =>
        let b := r.2.readLanes i.stove f false 64 [(0, loc)]
        let bs := (b.1.map fun p => p.2.2).flatten
        if 256 ≤ t || !descOk bs then b.2.upd i fun f => (f.raise i cBOUND acting).finish i acting
        else (b.2.setTid f.cid t (some (parseDesc bs))).upd i fun f => f.finish i 0

def execTidclr (x : LArgs) (s : State) : Res :=
  onIssue s fun i f =>
    let acting := i.groupActs x.guard
    if acting = 0 then s.upd i fun f => f.finish i 0
    else
      let s0 := (s.commit i.stove i.slot).release i.stove
      let t := (i.uni x x.a).toNat
      if 256 ≤ t then s0.upd i fun f => (f.raise i cBOUND acting).finish i acting
      else (s0.setTid f.cid t none).upd i fun f => f.finish i 0

/-- CLS and N of WAITC and ECTL. -/
def mxCls (x : LArgs) : Nat := (x.modx.extractLsb' 0 2).toNat
def mxN (x : LArgs) : Nat := (x.modx.extractLsb' 2 6).toNat

/-- WAITC (10 R245): the group stays while the counter exceeds N; it orders the operations of the class that have completed (12 R275). -/
def execWaitc (x : LArgs) (s : State) : Res :=
  onIssue s fun i f =>
    let acting := i.groupActs x.guard
    if acting = 0 then s.upd i fun f => f.finish i 0
    else
      let s1 := ((s.commit i.stove i.slot).release i.stove).modLoose i.stove f.group fun l =>
        l.filter fun p => !(p.1 == mxCls x && p.2.members.contains f.gflue)
      if mxN x < f.engCount (mxCls x) then s
      else if (Tab.getD f.estat (mxCls x) {}).code = 0 then s1.upd i fun f => f.finish i 0
      else s1.upd i fun f => (f.raise i cENGINE acting).finish i acting

/-- ESTAT as a word (10 R229). -/
def EStat.word (e : EStat) : Word := (e.code.setWidth 32 <<< 24) ||| (e.flags.setWidth 32 <<< 16)

/-- ECTL (10 R246): an effect on the state, and the value that D receives (none: D is unchanged). -/
def ectlOp (x : LArgs) (val : Flue → Option Word) (k : Issue → State → State) (s : State) : Res :=
  onIssue s fun i f =>
    let acting := i.groupActs x.guard
    if acting = 0 then s.upd i fun f => f.finish i 0
    else
      let v := val f
      let s1 := k i ((s.commit i.stove i.slot).release i.stove)
      let ws := match v with
        | some w => resultWrites i.view x.d 1 (x.f == .none) (lanesOf (i.active x.guard)) fun _ => w.setWidth 64
        | none => []
      s1.upd i fun f => (f.await i x.f (i.active x.guard) ws).finish i 0

def execEctlStat (x : LArgs) (s : State) : Res :=
  ectlOp x (fun f => some (Tab.getD f.estat (mxCls x) {}).word) (fun _ s => s) s
def execEctlClr (x : LArgs) (s : State) : Res :=
  ectlOp x (fun _ => none) (fun i s => s.upd i fun f => { f with estat := Tab.del f.estat (mxCls x), prog := 0xFFFFFFFF#32 }) s
def execEctlCnt (x : LArgs) (s : State) : Res :=
  ectlOp x (fun f => some (BitVec.ofNat 32 (f.engCount (mxCls x)))) (fun _ s => s) s

/-! ### Completion -/

/-- The code of a status (10 R228). -/
def engCode : EngStatus → Byte
  | .ok => 0 | .xlate => 1 | .ptrsv => 2 | .perm => 3 | .owner => 4 | .roster => 5 | .uncorr => 6 | .mismatch => 7
  | .memberLost => 8 | .aborted => 9

/-- ESTAT after an operation ends (10 R229). -/
def Flue.endOp (f : Flue) (cls : Nat) (op : EngineOp) (st : EngStatus) : Flue :=
  let g := f.dropOp op.uid
  let e := Tab.getD g.estat cls {}
  let e1 : EStat := { e with flags := if cls = 3 then e.flags ||| op.flags else e.flags }
  if st ≠ .ok && e.code == 0 then
    { g with estat := Tab.put g.estat cls { e1 with code := engCode st }, prog := BitVec.ofNat 32 op.progress }
  else if e1.code = 0 && e1.flags = 0 then { g with estat := Tab.del g.estat cls }
  else { g with estat := Tab.put g.estat cls e1 }

/-- An operation that has ended stays in its group's list while what it wrote may still be read without an order. One that several flues count
orders, of its class, those that were before it in the queue of some member. -/
def State.loosen (s : State) (stove cls : Nat) (op : EngineOp) : State :=
  match (s.stove stove).flues.find? fun p => p.2.counts op.uid with
  | none => s
  | some p => s.modLoose stove p.2.group fun l =>
    let rest := if op.members.length < 2 then l else l.filter fun q => !(q.1 == cls && q.2.members.any op.members.contains)
    if op.slotFill.isSome || (op.accWrites && !op.accCells.isEmpty) then rest ++ [(cls, op)] else rest

/-- An operation ends: it leaves every flue that counts it, and slots that were to be released are free. -/
def State.finishOp (s : State) (stove cls : Nat) (op : EngineOp) (st : EngStatus) : State :=
  let s1 := ((s.loosen stove cls op).modOpFlues stove op.uid fun f => f.endOp cls op st).leaveHearth stove op.uid
  (s1.setStove stove (s1.stove stove).freeSlots1).refreshMmah stove

/-- The members of an MMA.H that is cancelled before its hearth rendezvous completes step past it (DESIGN CHOICE: 10 R256 and R246 do not
say what lanes that stand at it do; assumption 59). The other stoves' gangs go on waiting for this stove. -/
def State.passMmah (s : State) (stove : Nat) (op : EngineOp) : State :=
  if op.started then s
  else match (s.hearth (hearthOf stove)).hrvs.find? fun rv => rv.arrivals.any fun a => a.1 == op.uid with
    | none => s
    | some rv => s.modOpFlues stove op.uid fun f => Flue.settle f { f.stepAll f.mmahWait rv.next with mmahWait := 0 }

/-- Cancel every outstanding operation of a class of a flue (10 R246). -/
def State.cancelOps (s : State) (stove : Nat) (f : Flue) (cls : Nat) : State :=
  (Tab.getD f.ops cls []).foldl (fun s op => (s.passMmah stove op).finishOp stove cls op .ok) s

def execEctlCncl (x : LArgs) (s : State) : Res :=
  ectlOp x (fun f => some (BitVec.ofNat 32 (f.engCount (mxCls x)))) (fun i s =>
    match s.flue? i.stove i.slot with
    | some f => s.cancelOps i.stove f (mxCls x)
    | none => s) s

end Sys2Proof.Machine
end

