-- ==== Sys2Proof/Machine/Geometry.lean ====
section
/-! DEFINITION. Geometric predicates (07 R163-R174): exact signs of determinants, the stage that resolves them, and the
escalation unit of a stove. -/

namespace Sys2Proof.Machine

/-! ### Expressions of R166 -/

/-- An expression over exact coordinates: a difference of coordinates, a product, a sum, a difference of products. -/
inductive GExpr where
  | diff (a b : Q)
  | mul (x y : GExpr)
  | add (x y : GExpr)
  | sub (x y : GExpr)
  | neg (x : GExpr)
  deriving DecidableEq, Repr

/-- The exact value. -/
def GExpr.exact : GExpr → Q
  | .diff a b => a.sub b
  | .mul x y => x.exact.mul y.exact
  | .add x y => x.exact.add y.exact
  | .sub x y => x.exact.sub y.exact
  | .neg x => x.exact.neg

/-- The sign of an exact value. -/
def Q.sign (a : Q) : Int := a.num.sign
/-- The exact sign of an expression. -/
def GExpr.sign (e : GExpr) : Int := e.exact.sign

/-- A rounded value of a stage: absent once it has overflowed, with whether a rounding was inexact. -/
abbrev Staged := Option Q × Bool

/-- One operation of a stage, rounded by RNE (07 R170). -/
def stageRound (f : Fmt) (x : Q) : Staged :=
  let r := roundTo f .rne false false x
  match f.decode r.bits with
  | .fin _ q => (some q, r.flags != 0)
  | _ => (none, true)

/-- Combine two rounded values. -/
def stageOp (f : Fmt) (op : Q → Q → Q) (x y : Staged) : Staged :=
  match x.1, y.1 with
  | some a, some b => let r := stageRound f (op a b); (r.1, x.2 || y.2 || r.2)
  | _, _ => (none, true)

/-- V of a stage, or P when `abs` is set (07 R170): every difference its absolute value, every subtraction an addition. -/
def GExpr.stage (f : Fmt) (abs : Bool) : GExpr → Staged
  | .diff a b => stageRound f (if abs then (a.sub b).abs else a.sub b)
  | .mul x y => stageOp f Q.mul (x.stage f abs) (y.stage f abs)
  | .add x y => stageOp f Q.add (x.stage f abs) (y.stage f abs)
  | .sub x y => stageOp f (if abs then Q.add else Q.sub) (x.stage f abs) (y.stage f abs)
  | .neg x => let r := x.stage f abs; if abs then r else (r.1.map Q.neg, r.2)

/-- A format of `n` significand bits with the exponent range -16382 to 16383 (07 R170). -/
def wideFmt (n : Nat) : Fmt := ⟨n + 15, n - 1, 16383, true, 0x7FFF * 2 ^ (n - 1) - 1, 0x7FFF * 2 ^ (n - 1) + 2 ^ (n - 2)⟩

/-- The arithmetic of stages 0 to 2 with m (07 R170). -/
def stageFmt : Nat → Fmt × Nat
  | 0 => (fp64, 53)
  | 1 => (wideFmt 106, 105)
  | _ => (wideFmt 212, 211)

/-- A stage resolves a determinant (07 R170). -/
def GExpr.resolved (e : GExpr) (k st : Nat) : Bool :=
  let fm := stageFmt st
  let v := e.stage fm.1 false
  let p := e.stage fm.1 true
  !v.2 || (match v.1, p.1 with
    | some a, some b =>
      !Q.lt b (Q.pow2 fm.1.emin) && Q.lt ((Q.ofInt k).mul ((Q.pow2 (-(fm.2 : Int))).mul b)) a.abs
    | _, _ => false)

/-- The first stage that resolves a determinant; stage 3 always does. -/
def GExpr.stageOf (e : GExpr) (k : Nat) : Nat :=
  if e.resolved k 0 then 0 else if e.resolved k 1 then 1 else if e.resolved k 2 then 2 else 3

/-! ### Determinants -/

/-- A point. -/
abbrev Pt := List Q

/-- Coordinate `j`. -/
def ptAt (p : Pt) (j : Nat) : Q := p.getD j (Q.ofInt 0)
/-- The difference of two points in one coordinate. -/
def pd (p q : Pt) (j : Nat) : GExpr := .diff (ptAt p j) (ptAt q j)

/-- A square array of expressions without one row and one column. -/
def minorOf (m : List (List GExpr)) (r c : Nat) : List (List GExpr) := (m.eraseIdx r).map fun row => row.eraseIdx c

/-- A determinant of `n` rows by expansion along the row that the module uses (assumption 16). -/
def detExpr : Nat → List (List GExpr) → GExpr
  | 0, m => (m.getD 0 []).getD 0 (.diff (Q.ofInt 0) (Q.ofInt 0))
  | n + 1, m =>
    let r := if n = 0 then 0 else Config.geomRow (n + 1) % (n + 1)
    let row := m.getD r []
    let zero : GExpr := .diff (Q.ofInt 0) (Q.ofInt 0)
    let term := fun c => if n = 0 then row.getD c zero else .mul (row.getD c zero) (detExpr n (minorOf m r c))
    let sum := (List.range n).foldl (fun acc c => if c % 2 = 0 then .sub acc (term (c + 1)) else .add acc (term (c + 1))) (term 0)
    if r % 2 = 0 then sum else .neg sum

/-- orient2d (07 R166). -/
def orient2d (a b c : Pt) : GExpr := .sub (.mul (pd b a 0) (pd c a 1)) (.mul (pd b a 1) (pd c a 0))
/-- orient3d. -/
def orient3d (a b c d : Pt) : GExpr := detExpr 3 ([a, b, c].map fun p => (List.range 3).map (pd p d))
/-- The square of the distance of two points. -/
def normSq (p q : Pt) (n : Nat) : GExpr :=
  (List.range (n - 1)).foldl (fun acc j => .add acc (.mul (pd p q (j + 1)) (pd p q (j + 1)))) (.mul (pd p q 0) (pd p q 0))
/-- incircle. -/
def incircle (a b c d : Pt) : GExpr := detExpr 3 ([a, b, c].map fun p => (List.range 2).map (pd p d) ++ [normSq p d 2])
/-- insphere. -/
def insphere (a b c d e : Pt) : GExpr := detExpr 4 ([a, b, c, d].map fun p => (List.range 3).map (pd p e) ++ [normSq p e 3])

/-- Component `j` of N = (b - a) x (c - a). -/
def normalAt (a b c : Pt) (j : Nat) : GExpr :=
  let u := (j + 1) % 3
  let v := (j + 2) % 3
  .sub (.mul (pd b a u) (pd c a v)) (.mul (pd b a v) (pd c a u))

/-! ### Predicates -/

/-- A result and the stage it needs. -/
abbrev GRes := Int × Nat

/-- The first sign that is not zero, and the highest stage of the determinants that had to be evaluated. -/
def firstSign (k : Nat) : List GExpr → GRes
  | [] => (0, 0)
  | e :: es => if e.sign ≠ 0 then (e.sign, e.stageOf k) else let r := firstSign k es; (r.1, max (e.stageOf k) r.2)

/-- GORI2, with R167's terms when TB is set. -/
def gori2 (tb : Bool) (a b c : Pt) : GRes :=
  firstSign 4 (orient2d a b c :: if tb then [pd a b 1, pd b a 0] else [])
/-- GORI3. -/
def gori3 (tb : Bool) (a b c d : Pt) : GRes :=
  firstSign 8 (orient3d a b c d :: if tb then (List.range 3).map fun j => .neg (normalAt a b c j) else [])
/-- GINC. -/
def ginc (tb : Bool) (a b c d : Pt) : GRes :=
  firstSign 11 (incircle a b c d :: if tb then [.neg (orient2d a b c)] else [])
/-- GINS. -/
def gins (tb : Bool) (a b c d e : Pt) : GRes :=
  firstSign 17 (insphere a b c d e :: if tb then [.neg (orient3d a b c d)] else [])

/-- `x` lies between `u` and `v`. -/
def Q.between (x u v : Q) : Bool := (!Q.lt x u && !Q.lt v x) || (!Q.lt x v && !Q.lt u x)
/-- InBox (07 R168). -/
def inBox (x u v : Pt) : Bool := Q.between (ptAt x 0) (ptAt u 0) (ptAt v 0) && Q.between (ptAt x 1) (ptAt u 1) (ptAt v 1)
/-- Two points are equal. -/
def ptEq (p q : Pt) : Bool := Q.eqv (ptAt p 0) (ptAt q 0) && Q.eqv (ptAt p 1) (ptAt q 1)

/-- GSEGX (07 R168). -/
def gsegx (tb : Bool) (p q r s : Pt) : GRes :=
  let g1 := gori2 tb p q r
  let g2 := gori2 tb p q s
  let g3 := gori2 tb r s p
  let g4 := gori2 tb r s q
  let res : Int :=
    if tb then (if ptEq p q || ptEq r s then 0 else if g1.1 ≠ g2.1 && g3.1 ≠ g4.1 then 1 else -1)
    else if g1.1 * g2.1 < 0 && g3.1 * g4.1 < 0 then 1
    else if (g1.1 == 0 && inBox r p q) || (g2.1 == 0 && inBox s p q) || (g3.1 == 0 && inBox p r s) || (g4.1 == 0 && inBox q r s)
      then 0
    else -1
  (res, max (max g1.2 g2.2) (max g3.2 g4.2))

/-! ### Execution -/

/-- Every value of a list, when all are present. -/
def allSome : List (Option Q) → Option (List Q)
  | [] => some []
  | none :: _ => none
  | some a :: t => (allSome t).map (a :: ·)

/-- The `n` coordinates of a run in a lane: a NaN or an infinity gives none (07 R163, R169). -/
def coords (c : Src) (o : Opnd) (ty : Ty) (n lane : Nat) : Option (List Q) :=
  let ws := c.run o (n * ty.regs) lane
  allSome ((List.range n).map fun j =>
    let bits := if ty.regs = 2 then (ws.getD (2 * j) 0).toNat + 2 ^ 32 * (ws.getD (2 * j + 1) 0).toNat else (ws.getD j 0).toNat
    match (if ty.regs = 2 then fp64 else fp32).decode bits with
    | .fin _ q => some q
    | _ => none)

/-- An entry of the escalation unit goes before another (07 R171): stage-0 completion, then lower slot, then lower lane. -/
def EscEntry.first (a b : EscEntry) : Bool :=
  a.key < b.key || (a.key == b.key && (a.slot < b.slot || (a.slot == b.slot && a.lane < b.lane)))

/-- Put an entry into the unit at its place. -/
def insertEsc (e : EscEntry) : List EscEntry → List EscEntry
  | [] => [e]
  | y :: t => if e.first y then e :: y :: t else y :: insertEsc e t

/-- Put lanes into the escalation unit of a stove. -/
def State.escalate (s : State) (stove : Nat) (es : List EscEntry) : State :=
  let st := s.stove stove
  s.setStove stove { st with esc := es.foldl (fun t e => insertEsc e t) st.esc }

/-- A geometric instruction (07 R169-R174): `na` and `nb` coordinates in the runs, the stage-0 latency for F32 and F64, and the
predicate on all coordinates. Lanes with a coordinate that is not finite raise GEOMNF or write 0x80000000; lanes that stage 0 does
not resolve go to the escalation unit, staying at the instruction with F = 00. With another F the results of all lanes are under way until
the flag falls with the last escalated lane (R173, 03 R74: until then each element holds its earlier value or the result, assumption 39). -/
def geom (x : LArgs) (na nb : Nat) (lat : Nat × Nat) (op : Bool → List Q → GRes) (s : State) : Res :=
  onIssue s fun i f =>
    let c := i.src x.lit
    let act := i.active x.guard
    let key := (s.hearth (hearthOf i.stove)).cycles.toNat + (if x.ty == .f64 then lat.2 else lat.1)
    let tb := x.modx.getLsbD 0
    let nfr := x.modx.getLsbD 1
    let val := fun l => match coords c x.a x.ty na l, coords c x.b x.ty nb l with
      | some a, some b => let r := op tb (a ++ b); some (BitVec.ofInt 32 r.1, r.2)
      | _, _ => if nfr then some (0x80000000#32, 0) else none
    let res := (lanesOf act).map fun l => (l, val l)
    let bad := maskOf fun l => res.any fun r => r.1 == l && r.2.isNone
    let esc := maskOf fun l => res.any fun r => r.1 == l && (r.2.map (·.2)).getD 0 != 0
    let latch := x.f == .none && (esc == 0 || laneCount i.lanes == 1)
    let writes := fun (m : LaneMask) =>
      ((res.filter fun r => m.getLsbD r.1).map fun r =>
        match r.2 with
        | some v => destWrites i.view x.d latch r.1 0 [v.1]
        | none => []).flatten
    let now := writes (~~~esc)
    let g := f.raise i cGEOMNF bad
    if x.f == .none then
      let g1 := g.writeAll now
      let stay := esc ||| (if f.phase = .handler then 0 else bad)
      let g2 := { g1.setPc (i.lanes &&& ~~~stay) i.next with escLanes := g1.escLanes ||| esc, escs := g1.escs + laneCount esc }
      let es := (lanesOf esc).map fun l => (⟨i.slot, l, writes (laneBit l), none, some i.next, key, i.seed⟩ : EscEntry)
      (s.escalate i.stove es).setFlue i.stove i.slot g2
    else if esc = 0 then s.setFlue i.stove i.slot ((g.await i x.f (act &&& ~~~bad) now).finish i bad)
    else
      let last := (lanesOf esc).getLastD 0
      let es := (lanesOf esc).map fun l => (⟨i.slot, l, [], if l = last then i.flag x.f else none, none, key, i.seed⟩ : EscEntry)
      (s.escalate i.stove es).setFlue i.stove i.slot
        { (g.setFlag (i.flag x.f)).finish i bad with
          escs := g.escs + laneCount esc, outs := g.outs ++ [{ writes := now ++ writes esc, seed := i.seed }] }

/-- The points of a list of coordinates. -/
def ptsOf (n : Nat) (l : List Q) (j : Nat) : Pt := (l.drop (n * j)).take n

def execGori2 (x : LArgs) (s : State) : Res :=
  geom x 4 2 (4, 8) (fun tb l => gori2 tb (ptsOf 2 l 0) (ptsOf 2 l 1) (ptsOf 2 l 2)) s
def execGori3 (x : LArgs) (s : State) : Res :=
  geom x 9 3 (6, 12) (fun tb l => gori3 tb (ptsOf 3 l 0) (ptsOf 3 l 1) (ptsOf 3 l 2) (ptsOf 3 l 3)) s
def execGinc (x : LArgs) (s : State) : Res :=
  geom x 6 2 (6, 12) (fun tb l => ginc tb (ptsOf 2 l 0) (ptsOf 2 l 1) (ptsOf 2 l 2) (ptsOf 2 l 3)) s
def execGins (x : LArgs) (s : State) : Res :=
  geom x 12 3 (8, 16) (fun tb l => gins tb (ptsOf 3 l 0) (ptsOf 3 l 1) (ptsOf 3 l 2) (ptsOf 3 l 3) (ptsOf 3 l 4)) s
def execGsegx (x : LArgs) (s : State) : Res :=
  geom x 4 4 (6, 12) (fun tb l => gsegx tb (ptsOf 2 l 0) (ptsOf 2 l 1) (ptsOf 2 l 2) (ptsOf 2 l 3)) s

/-- GEOM_ESCALATION_COMPLETE (07 R171-R173): the first lane of the unit writes its result, and steps past when it waited at
the instruction; with the last lane of an instruction that selects a flag all its results have arrived, and the flag falls. -/
def execGeomEscalationComplete (stove : Nat) (s : State) : Res :=
  match (s.stove stove).esc with
  | [] => .next s
  | e :: rest =>
    let s1 := s.setStove stove { s.stove stove with esc := rest }
    .next (s1.modFlue stove e.slot fun f =>
      let d := f.writeAll e.writes
      let g := { (if e.flag.isSome then d.arriveSeed e.seed else d).clearFlag e.flag with escs := f.escs - 1 }
      Flue.checkStuck (match e.step with
        | none => g
        | some a => Flue.settle f { g.stepAll (laneBit e.lane) a with escLanes := g.escLanes &&& ~~~laneBit e.lane }))

end Sys2Proof.Machine
end

