-- ==== Sys2Proof/Machine/Spdm.lean ====
section
/-! DEFINITION. Attestation (14 R339, R340, 22 R444, R449): the leaf index of the root of trust, signed reports, and the SPDM
requests that the device answers. Codes and the order of requests are SPDM 1.3's, which R340 names (assumption 24). -/

namespace Sys2Proof.Machine

/-! ### Signing (14 R339) -/

/-- Reserve the next block of 1024 leaves: the store is written before any leaf of the block signs. -/
def Rot.reserve (r : Rot) : Rot :=
  { r with monoLeaf := r.monoLeaf + 1024, nextLeaf := r.monoLeaf, leafEnd := r.monoLeaf + 1024 }

/-- What follows the leaf index in a signature: the 32-byte randomiser, and 8 layers of 2304 bytes. -/
def xmssTail (leaf : Nat) (msg : List Byte) : List Byte := (List.range (32 + 8 * 2304)).map fun j => Config.xmssByte leaf msg j

/-- Sign a report with the next leaf; none when the root of trust signs nothing. -/
def State.sign (s : State) (msg : List Byte) : Option (List Byte) × State :=
  if !s.rot.trusted || s.testMode then (none, s)
  else
    let r := if s.rot.nextLeaf = s.rot.leafEnd then s.rot.reserve else s.rot
    if 2 ^ 40 ≤ r.nextLeaf then (none, s)
    else (some (leBytes 5 r.nextLeaf ++ xmssTail r.nextLeaf msg), { s with rot := { r with nextLeaf := r.nextLeaf + 1 } })

/-! ### Requests -/

/-- Codes of SPDM 1.3 responses. -/
def spdmVersion : Nat := 0x04
def spdmCapabilities : Nat := 0x61
def spdmAlgorithms : Nat := 0x63
def spdmDigests : Nat := 0x01
def spdmCertificate : Nat := 0x02
def spdmChallengeAuth : Nat := 0x03
def spdmMeasurements : Nat := 0x60
def spdmKeyExchangeRsp : Nat := 0x64
def spdmFinishRsp : Nat := 0x65
def spdmKeyUpdateAck : Nat := 0x69
def spdmEndSessionAck : Nat := 0x6C
def spdmError : Nat := 0x7F

/-- A connection. -/
def State.conn (s : State) (n : Nat) : Spdm := Tab.getD s.spdm n {}
/-- Put a connection. -/
def State.setConn (s : State) (n : Nat) (c : Spdm) : State := { s with spdm := Tab.put s.spdm n c }

/-- Answer a request; a request that cannot be answered gets an error. Before the responder works (22 R441), where
a failure of stage 1 or 2 leaves the package (R442), none is. -/
def State.respond (s : State) (n : Nat) (ok : Spdm → Bool) (k : Spdm → State → State) : State :=
  if s.stage < 2 then s
  else if ok (s.conn n) then k (s.conn n) s else s.say (.spdm n spdmError [])

/-- Add a signature to a response, or answer with an error. -/
def State.signed (s : State) (n code : Nat) (msg : List Byte) : State :=
  match s.sign msg with
  | (some sig, s1) => s1.say (.spdm n code (msg ++ sig))
  | (none, s1) => s1.say (.spdm n spdmError [])

/-- The code of a context's state (14 R324). -/
def CState.code : CState → Nat
  | .building => 0
  | .ready => 1
  | .running => 2
  | .suspended => 3
  | .faulted => 4
  | .destroyed => 5

/-- The context whose report a connection asks for, when its owner's session asks (14 R340). -/
def State.ownReport (s : State) (c : Spdm) (cid : Nat) : Option Context :=
  if c.session && c.owner = some cid then s.ctx? cid else none

/-- The measurements of the firmware that runs, and of the older generation while it still answers (22 R449). -/
def State.fwMeasurements (s : State) : List (List Byte) :=
  leBytes 64 s.fw.measurement.toNat :: (match s.fw.old with
    | some (_, m) => [leBytes 64 m.toNat]
    | none => [])

/-- A report (14 R340): the challenge, MEAS, the measurement of the running firmware, the state code and EPOCH. Before stage 6 it
carries state code 0 and no context measurement (22 R444). -/
def State.report (s : State) (nonce : BitVec 256) (c : Option Context) : List Byte :=
  leBytes 32 nonce.toNat ++ (match c with
    | some x => x.meas
    | none => []) ++ leBytes 64 s.fw.measurement.toNat ++
  (match c with
    | some x => leBytes 4 (CState.code x.state) ++ leBytes 4 x.epoch.toNat
    | none => leBytes 4 0)

def execGetVersion (conn : Nat) (s : State) : Res :=
  .next (s.respond conn (fun _ => true) fun _ s => (s.setConn conn { versioned := true }).say (.spdm conn spdmVersion [0x13]))

def execGetCapabilities (conn : Nat) (caps : Word) (s : State) : Res :=
  .next (s.respond conn (fun c => c.versioned) fun c s =>
    (s.setConn conn { c with caps := some caps }).say (.spdm conn spdmCapabilities []))

/-- NEGOTIATE_ALGORITHMS (14 R340): the one algorithm of each kind that the device has. -/
def execNegotiateAlgorithms (conn : Nat) (offer : SpdmAlgs) (s : State) : Res :=
  .next (s.respond conn (fun c => c.caps.isSome && offer.xmssmt && offer.sha384 && offer.p384 && offer.gcm) fun c s =>
    (s.setConn conn { c with algs := true }).say (.spdm conn spdmAlgorithms []))

def execGetDigests (conn : Nat) (s : State) : Res :=
  .next (s.respond conn (fun c => c.algs) fun _ s =>
    s.say (.spdm conn spdmDigests (leBytes 48 (Config.sha3x384 Config.certChain).toNat)))

def execGetCertificate (conn off len : Nat) (s : State) : Res :=
  .next (s.respond conn (fun c => c.algs) fun _ s =>
    s.say (.spdm conn spdmCertificate ((Config.certChain.drop off).take len)))

/-- CHALLENGE (14 R340, 22 R444). -/
def execChallenge (conn : Nat) (nonce : BitVec 256) (cid : Nat) (s : State) : Res :=
  .next (s.respond conn (fun c => c.algs && (s.stage < 6 || (s.ownReport c cid).isSome)) fun c s =>
    s.signed conn spdmChallengeAuth (s.report nonce (if s.stage < 6 then none else s.ownReport c cid)))

/-- GET_MEASUREMENTS (14 R340, 22 R449). -/
def execGetMeasurements (conn cid : Nat) (s : State) : Res :=
  .next (s.respond conn (fun c => c.algs && (s.stage < 6 || (s.ownReport c cid).isSome)) fun c s =>
    s.signed conn spdmMeasurements ((if s.stage < 6 then [] else match s.ownReport c cid with
      | some x => x.meas
      | none => []) ++ s.fwMeasurements.flatten))

/-- The root of trust derives keys: not in test mode (22 R450), nor after a stage that it does not trust (R442). -/
def State.derives (s : State) : Bool := s.rot.trusted && !s.testMode

/-- KEY_EXCHANGE: the device's share, signed. -/
def execKeyExchange (conn : Nat) (share : List Byte) (s : State) : Res :=
  .next (s.respond conn (fun c => c.algs && s.derives) fun c s =>
    (s.setConn conn { c with keyed := true, session := false, keyGen := c.keyGen + 1 }).signed conn spdmKeyExchangeRsp
      (Config.spdmShare (c.keyGen + 1) share))

/-- FINISH: the session stands when it verifies. -/
def execFinish (conn : Nat) (verify : List Byte) (s : State) : Res :=
  .next (s.respond conn (fun c => c.keyed && s.derives && Config.spdmFinish c.keyGen verify) fun c s =>
    (s.setConn conn { c with session := true, owner := Config.spdmOwner conn c.keyGen }).say (.spdm conn spdmFinishRsp []))

def execKeyUpdateRequest (conn : Nat) (s : State) : Res :=
  .next (s.respond conn (fun c => c.session && s.derives) fun c s =>
    (s.setConn conn { c with keyGen := c.keyGen + 1 }).say (.spdm conn spdmKeyUpdateAck []))

def execEndSession (conn : Nat) (s : State) : Res :=
  .next (s.respond conn (fun c => c.session) fun c s =>
    (s.setConn conn { c with keyed := false, session := false, owner := none }).say (.spdm conn spdmEndSessionAck []))

end Sys2Proof.Machine
end

