-- ==== Sys2Proof/Machine/Link.lean ====
section
/-! DEFINITION. Hosts, devices and peers (12 R297, R298, 20): requests of hosts, DMA and the binding of interfaces, flits and
ports, and the streams of a roster. What chapter 20 leaves open of flits is in assumption 26. -/

namespace Sys2Proof.Machine

/-! ### Hosts (12 R297, 20 R424) -/

/-- Tile-path writes of a context by virtual address from a network port, in pieces of at most 4 KiB. The fuel bounds the pieces. -/
def State.tileWriteVa (s : State) (cid src : Nat) : Nat → DWord → List Byte → State
  | 0, _, _ => s
  | _ + 1, _, [] => s
  | fuel + 1, va, b :: bs =>
    let k := 4096 - va.toNat % 4096
    let s1 := match s.devPa cid va .store with
      | .ok pa => s.tileWrite cid pa ((b :: bs).take k) src
      | _ => s
    s1.tileWriteVa cid src fuel (va + BitVec.ofNat 64 k) ((b :: bs).drop k)

/-- A context whose memory agents outside may reach. -/
def State.reachable (s : State) (cid : Nat) : Bool :=
  match s.ctx? cid with
  | some c => c.state != .building && c.state != .destroyed
  | none => false

/-- The send window of the host attachment of a chimney, 0 to 15 (01 R24). -/
def State.hostWin (s : State) (chimney : Nat) : HostWin := if chimney < 16 then Tab.getD s.hosts chimney {} else {}

/-- A request and `n` bytes of write data are within the window, together with the others that have not been answered (20 R424). -/
def HostWin.fits (w : HostWin) (tag n : Nat) : Bool :=
  let others := w.waiting.filter fun x => x.1 != tag
  others.length + 1 ≤ w.tags && others.foldl (fun m x => m + x.2) 0 + n ≤ w.bytes

/-- A request waits for its page; it is presented again until it is answered (assumption 25). -/
def State.hostWaits (s : State) (req : HostReq) (n : Nat) : State :=
  let w := s.hostWin req.chimney
  { s with hosts := Tab.put s.hosts req.chimney { w with waiting := w.waiting.filter (fun x => x.1 != req.tag) ++ [(req.tag, n)] } }

/-- A request is answered, and what it took of the window is free. -/
def State.hostAnswer (s : State) (req : HostReq) (r : Reply) : State :=
  ({ s with hosts := Tab.modify s.hosts req.chimney fun w => { w with waiting := w.waiting.filter fun x => x.1 != req.tag } }).say r

/-- The network port of a chimney. -/
def chimneyPort (c : Nat) : Nat := portIo (ioDie (64 + c))

/-- HOST_WRITE (12 R297, 20 R424): applied as a tile-path write, or answered with an error and not performed. A page that is not
resident is waited for. -/
def execHostWrite (req : HostReq) (bytes : List Byte) (s : State) : Res :=
  if !s.reachable req.cid || !(s.hostWin req.chimney).fits req.tag bytes.length then .next (s.say (.hostError req.tag))
  else match s.hostWritable req.cid (bytes.length / 4096 + 2) req.va bytes.length with
    | .wait => .next ((s.hostWaits req bytes.length).wantRange req.cid req.va bytes.length)
    | .cause _ => .next (s.hostAnswer req (.hostError req.tag))
    | .ok _ => .next ((s.tileWriteVa req.cid (chimneyPort req.chimney) (bytes.length / 4096 + 2) req.va bytes).hostAnswer req (.hostDone req.tag))

/-- HOST_READ (12 R297, 20 R424): read at the slices, or an error. -/
def execHostRead (req : HostReq) (len : Nat) (s : State) : Res :=
  if !s.reachable req.cid || !(s.hostWin req.chimney).fits req.tag 0 then .next (s.say (.hostError req.tag))
  else match s.devRead req.cid req.va len with
    | .wait => .next ((s.hostWaits req 0).wantRange req.cid req.va len)
    | .cause _ => .next (s.hostAnswer req (.hostError req.tag))
    | .ok bs => .next ((s.devTouch req.cid req.va len (chimneyPort req.chimney)).hostAnswer req (.hostData req.tag bs))

/-! ### Devices (20 R425) -/

/-- The key of an interface of a port. -/
def ifaceKey (port iface : Nat) : Nat := port * 65536 + iface

/-- An interface that fails is in ERROR and unbound. -/
def State.ifaceError (s : State) (port iface : Nat) : State :=
  let t := Tab.getD s.tdisp (ifaceKey port iface) {}
  ({ s with tdisp := Tab.put s.tdisp (ifaceKey port iface) { t with state := .error } }).modCtx t.cid fun c =>
    { c with iface := Tab.del c.iface t.index }

/-- DEVICE_DMA (20 R425): translated through the context's tables and applied on the tile path; DMA that fails is dropped, and
the interface enters ERROR. -/
def execDeviceDma (port iface : Nat) (dma : Dma) (s : State) : Res :=
  let t := Tab.getD s.tdisp (ifaceKey port iface) {}
  let drop := fun (s : State) => s.say (.deviceDropped port iface)
  if t.state ≠ .run || !s.reachable t.cid then .next (drop s)
  else if dma.write then
    match s.hostWritable t.cid (dma.bytes.length / 4096 + 2) dma.va dma.bytes.length with
    | .wait => .next (s.wantRange t.cid dma.va dma.bytes.length)
    | .cause _ => .next (drop (s.ifaceError port iface))
    | .ok _ => .next (s.tileWriteVa t.cid (portIo port) (dma.bytes.length / 4096 + 2) dma.va dma.bytes)
  else match s.devRead t.cid dma.va dma.len with
    | .wait => .next (s.wantRange t.cid dma.va dma.len)
    | .cause _ => .next (drop (s.ifaceError port iface))
    | .ok bs => .next ((s.devTouch t.cid dma.va dma.len (portIo port)).say (.deviceData port iface bs))

/-- An interface that a context has, or is getting. -/
def TState.taken (t : TState) : Bool := t == .run || t == .configLocked

/-- TDISP_BIND (20 R425): only on a request that carries the owner's session; a port, 0 to 3 (01 R24), has at most 64 streams. The
interface is in CONFIG_LOCKED, and the firmware moves it to RUN. -/
def execTdispBind (port iface cid index : Nat) (ownerSession : Bool) (s : State) : Res :=
  match s.ctx? cid with
  | none => .next (s.say .refused)
  | some c =>
    let bound := (s.tdisp.filter fun (x : Nat × Tdisp) => x.1 / 65536 == port && x.2.state.taken).length
    if 4 ≤ port || !ownerSession || !s.reachable cid || 32 ≤ index || (Tab.get? c.iface index).isSome || 65536 ≤ iface || 64 ≤ bound ||
       (Tab.getD s.tdisp (ifaceKey port iface) {}).state.taken then .next (s.say .refused)
    else
      let s1 := s.setCtx cid { c with iface := Tab.put c.iface index (ifaceKey port iface) }
      .next { s1 with tdisp := Tab.put s1.tdisp (ifaceKey port iface) { state := .configLocked, cid := cid, index := index } }

/-- Interfaces in CONFIG_LOCKED go on to RUN (20 R425: as TDISP specifies), with the next control-island cycle (DESIGN CHOICE, assumption
26). -/
def State.startIfaces (s : State) : State :=
  { s with tdisp := Tab.mapVals (fun (t : Tdisp) => if t.state = .configLocked then { t with state := .run } else t) s.tdisp }

/-! ### Streams (20 R426-R429) -/

/-- The outstanding collectives of a flue of a context among whose members an identity is. -/
def Flue.collsWith (f : Flue) (cid : Nat) (id : BitVec 256) : List EngineOp :=
  if f.cid = cid then (Tab.getD f.ops 3 []).filter fun o => o.peers.contains id else []

/-- The collectives that a member takes part in, with the stove that runs them. Of a group that is switched out no stove does, and 0
stands for it. -/
def State.collsOf (s : State) (cid : Nat) (id : BitVec 256) : List (Nat × EngineOp) :=
  let on := fun (n : Nat) (f : Flue) => (f.collsWith cid id).map fun o => (n, o)
  (s.stoves.map fun x => (x.2.flues.map fun p => on x.1 p.2).flatten ++
    (x.2.groups.map fun g => (g.2.saved.map fun v => on x.1 v.2.flue).flatten).flatten).flatten ++
  (s.parts.map fun p => (p.2.switched.map fun w => (w.flues.map fun v => on 0 v.2).flatten).flatten).flatten

/-- A member of a collective is lost (20 R428, 10 R244): the collectives with it that have met no end yet get MEMBER_LOST, and complete in
their order (10 R226). -/
def State.endColls (s : State) (cid : Nat) (id : BitVec 256) : State :=
  (s.collsOf cid id).foldl (fun (s : State) x => s.modOp x.1 x.2.uid fun o =>
    if o.status = .ok ∧ o.progress < o.units then { o with status := .memberLost } else o) s

/-- The data of a collective's end on channel 3: the status and the identity of the member that is lost (assumption 26). -/
def lostData (id : BitVec 256) : List Byte := 8 :: leBytes 32 id.toNat

/-- The end passes to the other members of those collectives that the package can reach (20 R428). -/
def State.passEnd (s : State) (cid : Nat) (id : BitVec 256) : State :=
  let ids := ((s.collsOf cid id).map fun x => x.2.peers).flatten
  match s.ctx? cid with
  | none => s
  | some c => (c.roster.filter fun p => p.2.lstate == .active && p.2.idHash != id && ids.contains p.2.idHash).foldl
      (fun (s : State) p => s.request cid p.1 3 7 0 [lostData id]) s

/-- The flues of a context that await answers of a peer get them no more (20 R427). -/
def State.loseAnswers (s : State) (cid r : Nat) : State :=
  let k := fun (f : Flue) => if f.cid = cid then f.loseAnswers r else f
  (s.modFluesOf cid fun f => f.loseAnswers r).mapSaved k

/-- A stream leaves ACTIVE for LOST (20 R427-R429): its keys are gone, held writes stay held, answers that are awaited come as ROSTER, and
every collective that the peer is a member of ends with MEMBER_LOST. -/
def State.streamLost (s : State) (cid r : Nat) : State :=
  match s.peer? cid r with
  | none => s
  | some p =>
    if p.lstate = .active then
      let s1 := (s.modPeer cid r fun p =>
        { p with lstate := .lost, keyed := false, asked := [], out := [], parts := [], tried := false }).say (.memberLost cid r)
      ((((s1.dropSent cid r).loseAnswers cid r).passEnd cid p.idHash).endColls cid p.idHash).kicksDue cid
    else s

/-- Take `n` pages in the service state for a context; none when there are not as many. -/
def State.takePages (s : State) (cid : Nat) : Nat → Option (List Nat × State)
  | 0 => some ([], s)
  | n + 1 =>
    match s.takePage cid .service with
    | (none, _) => none
    | (some p, s1) => (s1.takePages cid n).map fun r => (p :: r.1, r.2)

/-- The replay pages of a stream over chimneys (20 R423): 20 MiB, taken at its first keying. -/
def State.replayPages (s : State) (cid r : Nat) : Option State :=
  match s.peer? cid r with
  | none => none
  | some p =>
    if p.path / 2 % 2 = 0 || !p.replay.isEmpty then some s
    else (s.takePages cid 5120).map fun q => q.2.modPeer cid r fun p => { p with replay := q.1 }

/-- A session stands: the stream is ACTIVE, its counters start at zero (20 R426, R429). Held writes are delivered when the peer
context is the same, and discarded otherwise (R427). -/
def State.streamUp (s : State) (cid r : Nat) (pcid : BitVec 16) : State :=
  match s.peer? cid r with
  | none => s
  | some p =>
    let held := if p.pcid = pcid then p.held else []
    let s1 := s.modPeer cid r fun p =>
      { p with lstate := .active, keyed := true, pcid := pcid, ctrTx := 0, ctrRx := 0, keyGen := 0, rxGen := 0, held := held, asked := [], parts := []
               out := (held.map Held.flits).flatten, tried := false }
    s1.pump cid r

/-- A keying that starts is one more of the entry's epochs (20 R419). -/
def State.keyAgain (s : State) (cid r : Nat) : State :=
  (s.modPeer cid r fun p => { p with sepoch := p.sepoch + 1, tried := true }).sayKeyExchange cid r

/-- The keying of a LOST stream that has none going on starts with the peer's return (20 R419, R429). -/
def State.keyLost (s : State) (cid r : Nat) (p : Peer) : State := if p.tried then s else s.keyAgain cid r

/-- KEYING_COMPLETE (20 R429): an exchange of a stream in KEYING or LOST ends. -/
def execKeyingComplete (cid roster : Nat) (peer : PeerId) (s : State) : Res :=
  match s.peer? cid roster with
  | none => .next s
  | some p =>
    let go := fun (l : LState) => s.modPeer cid roster fun p => { p with lstate := l, tried := false }
    match p.lstate with
    | .keying =>
      if peer.idHash ≠ p.idHash || peer.measH ≠ p.measH then .next (go .excluded)
      else if !peer.ok then .next (go .lost)
      else match s.replayPages cid roster with
        | none => .next (go .lost)
        | some s1 => .next (s1.streamUp cid roster peer.pcid)
    | .lost =>
      let s0 := s.keyLost cid roster p
      let ends := fun (l : LState) => s0.modPeer cid roster fun p => { p with lstate := l, tried := false }
      if peer.measH ≠ p.measH then .next (ends .excluded)
      else if !peer.ok || peer.idHash ≠ p.idHash then .next (ends .lost)
      else match s0.replayPages cid roster with
        | none => .next (ends .lost)
        | some s1 => .next (s1.streamUp cid roster peer.pcid)
    | _ => .next s

/-- KEYING_TIMEOUT (20 R429). -/
def execKeyingTimeout (cid roster : Nat) (s : State) : Res :=
  .next (s.modPeer cid roster fun p => if p.lstate = .keying then { p with lstate := .lost, tried := false } else p)

/-- KEYING_RETRY (20 R429): the firmware keys a LOST stream again. -/
def execKeyingRetry (cid roster : Nat) (s : State) : Res :=
  match s.peer? cid roster with
  | some p => if p.lstate = .lost then .next (s.keyAgain cid roster) else .next s
  | none => .next s

/-- PEER_RESET (20 R427-R429): a member reset, or a session that is lost. -/
def execPeerReset (cid roster : Nat) (s : State) : Res := .next (s.streamLost cid roster)

/-- READMIT (20 R429): the owner's session gives an EXCLUDED peer a new MEASH, and keying starts. -/
def execReadmit (cid roster : Nat) (meash : BitVec 128) (ownerSession : Bool) (s : State) : Res :=
  match s.peer? cid roster with
  | some p =>
    if p.lstate = .excluded && ownerSession then
      .next ((s.modPeer cid roster fun p => { p with lstate := .keying, measH := meash }).keyAgain cid roster)
    else .next (s.say .refused)
  | none => .next (s.say .refused)

/-- KEY_UPDATE (20 R426): a counter that reaches 2^48 starts again under a new key. No flit goes before it: `State.sendFlit` makes it of its
own accord. -/
def execKeyUpdate (cid roster : Nat) (s : State) : Res :=
  match s.peer? cid roster, s.linkPort cid roster 0 with
  | some p, some n => .next (if p.lstate = .active && 2 ^ 48 ≤ p.ctrTx then s.keyUpdate n cid roster else s)
  | _, _ => .next s

/-! ### Flits (20 R420-R423) -/

/-- Streams with the roster index of a flit that may use a port (20 R419, R420): ACTIVE, PATH allows straits (0-63) or chimneys. -/
def State.streamsOf (s : State) (port sid : Nat) : List (Nat × Peer) :=
  s.ctxs.filterMap fun (x : Nat × Context) =>
    match Tab.get? x.2.roster sid with
    | some p =>
      if p.lstate = .active && p.mayUse port then some (x.1, p) else none
    | none => none

/-- The line of a local address may be reached by the peer of a context (20 R418, 19 R408). -/
def State.peerMay (s : State) (cid pa : Nat) (write : Bool) : Bool :=
  pageArea pa && (match (s.ownOf pa).state with
    | .owned => (s.ownOf pa).owner == cid
    | .sharedClear => !write || (s.ownOf pa).owner == cid
    | _ => false)

/-- An atomic's operation, type and values in its flit, and whether more values follow under its tag (assumption 26). -/
def flitAtom (data : List Byte) : Option (BitVec 3 × Ty × Bool × List (DWord × DWord)) :=
  (tyOfCode ((data.getD 1 0).setWidth 4)).map fun ty =>
    ((data.getD 0 0).setWidth 3, ty, (data.getD 0 0).getLsbD 7,
      (List.range ((data.length - 2) / 16)).map fun j => (field64 data (2 + 16 * j), field64 data (10 + 16 * j)))

/-- The answer to a request on the port that it came by: channel 2. -/
def State.answerFlit (s : State) (port cid r : Nat) (f : Flit) (kind : Byte) (addr : DWord) (data : List Byte) : State :=
  s.sendFlit port cid r ⟨2, kind, f.tagId, addr.toNat, data⟩

/-- An answer takes the request or the write that it pairs with off those under way (20 R420, R427). -/
def State.answered (s : State) (cid r : Nat) (tag : BitVec 16) : State :=
  ((s.modPeer cid r fun p => { p with held := p.held.eraseP fun h => h.tag == tag, asked := p.asked.erase tag }).freeSlots
    (· == (cid, r, tag))).kicksDue cid

/-- Why a request of a peer is refused, for its answer (20 R418, 19 R416); `none` when it is performed. -/
def State.refusal (s : State) (cid pa : Nat) (write reads : Bool) : Option Byte :=
  if !s.peerMay cid pa write then some (BitVec.ofNat 8 cOWNER) else if reads && s.bad pa then some (BitVec.ofNat 8 cUNCORR) else none

/-- An atomic of the peer is performed, as one operation over all its values (09 R213). -/
def State.peerAtomic (s : State) (port cid r : Nat) (f : Flit) (addr : DWord) (aop : BitVec 3) (ty : Ty) (vs : List (DWord × DWord)) : State :=
  let pa := addr.toNat
  let n := atomBytes ty
  match s.refusal cid pa true true with
  | some c => s.answerFlit port cid r f 5 addr [c]
  | none =>
    if pa % n ≠ 0 then s.answerFlit port cid r f 5 addr [BitVec.ofNat 8 cALIGN]
    else
      let old := BitVec.ofNat 64 (leNat (Memory.read s.mem pa n))
      let new := vs.foldl (fun o v => atomNew aop.toNat ty o v.1 v.2) old
      (s.tileWrite cid pa (leBytes n new.toNat) (portIo (ioDie port))).answerFlit port cid r f 5 addr (leBytes n old.toNat)

/-- A flit of a stream is delivered (20 R418, R420, R427, 12 R298): a request is performed by this package's slices, or refused with a cause; an
answer ends the request that its tag names, whose value has been taken as a free value (assumption 13); an end of a collective takes
effect (R428); a message of channel 4 that begins as a KEY_UPDATE gives the peer's direction its next key. -/
def State.deliver (s : State) (port cid r : Nat) (f : Flit) (addr : DWord) (data : List Byte) : State :=
  let pa := addr.toNat
  let src := portIo (ioDie port)
  match f.kind.toNat with
  | 1 => match s.refusal cid pa false true with
    | some c => s.answerFlit port cid r f 2 addr [c]
    | none => (s.touch cid (pa / 128) src).answerFlit port cid r f 2 addr (Memory.read s.mem (pa / 128 * 128) 128)
  | 3 => match s.refusal cid pa true false with
    | some c => s.answerFlit port cid r f 6 addr [c]
    | none => (s.tileWrite cid pa data src).answerFlit port cid r f 6 addr []
  | 4 =>
    match flitAtom data with
    | some (aop, ty, more, vs) =>
      let mine := fun (x : AtomPart) => x.tag == f.tagId
      let before := (((s.peer? cid r).map fun p => p.parts.filter mine).getD []).map (·.vals) |>.flatten
      if more then s.modPeer cid r fun p => { p with parts := p.parts ++ [⟨f.tagId, vs⟩] }
      else (s.modPeer cid r fun p => { p with parts := p.parts.filter fun x => !mine x }).peerAtomic port cid r f addr aop ty (before ++ vs)
    | none => s.answerFlit port cid r f 5 addr [BitVec.ofNat 8 cILLEGAL]
  | 2 => s.answered cid r f.tagId
  | 5 => s.answered cid r f.tagId
  | 6 => s.answered cid r f.tagId
  | 7 => if data.length = 33 && data.headD 0 = 8 then s.endColls cid (BitVec.ofNat 256 (leNat data.tail)) else s
  | 8 => if data.getD 1 0 = spdmKeyUpdate then s.modPeer cid r fun p => { p with rxGen := p.rxGen + 1, ctrRx := 0 } else s
  | _ => s

/-- The key that a stream's received flits are under. -/
def State.receiveKey (s : State) (cid r : Nat) (p : Peer) : List Byte := s.streamKey cid r p.sepoch p.rxGen false

/-- A flit in order on a port belongs to a stream: its tag is checked, and it is delivered, or the stream is lost (20 R426). -/
def State.streamFlit (s : State) (port : Nat) (f : Flit) : State :=
  let all := s.streamsOf port f.sid.toNat
  let r := f.sid.toNat
  match all.find? fun x => flitTag (s.receiveKey x.1 r x.2) (flitIv x.1 r false f.ctr) f == f.gtag with
  | some x =>
    let body := Config.gcmOpen (s.receiveKey x.1 r x.2) (flitIv x.1 r false f.ctr) (flitAad f) (flitText f)
    ((s.modPeer x.1 r fun p => { p with ctrRx := f.ctr.toNat + 1 }).deliver port x.1 r f
      (BitVec.ofNat 64 (leNat (body.take 8))) (dataOf (body.drop 8))).pumpAll
  | none => match all with
    | x :: _ => s.streamLost x.1 r
    | [] => s

/-- FLIT_RECEIVE (20 R420-R423, R426): a flit whose CRC fails, or on a channel above 4, is discarded and the last ACKSEQ is
returned; a flit out of order is discarded. -/
def execFlitReceive (port : Nat) (flit : Flit) (s : State) : Res :=
  let p := s.port port
  if !p.up then .next s
  else if crc64 (flitBytes flit) ≠ flit.crc || 4 < flit.vc.toNat then .next (s.say (.flit port (ackFlit p)))
  else
    let again := flit.kind = 0 && flit.ackSeq = p.acked
    let s1 := (s.setPort port { p.ack flit.ackSeq with hold := flit.hold }).pumpAll
    if flit.kind = 0 then .next (if again then s1.replayAll port else s1)
    else if flit.seq ≠ p.expect then .next s1
    else
      let q := s1.port port
      .next ((s1.setPort port { q with expect := q.expect + 1 }).streamFlit port flit)

end Sys2Proof.Machine
end

