-- ==== Sys2Proof/Machine/Matrix.lean ====
section
/-! DEFINITION. Matrix instructions (10 R247-R263): gangs, operand-slot claims, products, accumulator transfers; and the two
events of every engine operation (10 R226-R229). -/

namespace Sys2Proof.Machine

/-! ### Gang instructions (10 R248, R249) -/

/-- How the execution of a complete gang rendezvous ends: every member steps past, every member raises a cause, or the
instruction has moved its members itself. -/
inductive GangEnd where
  | step (s : State)
  | cause (c : Nat) (faddr : Option DWord)
  | own (s : State)

/-- Members step past, and the flag falls of those that raised it. -/
def State.stepMembers (s : State) (stove : Nat) (rv : GangRv) : State :=
  rv.arrivals.foldl (fun s a => s.modFlue stove a.2.slot fun f =>
    Flue.settle f ((if a.2.active = 0 then f else f.clearFlag rv.flag).stepAll a.2.lanes rv.next)) s

/-- A complete rendezvous executes once, when the guard held in every member. -/
def State.gangRun (s : State) (stove : Nat) (rv : GangRv) (run : Nat → GangRv → State → GangEnd) : State :=
  let held := rv.arrivals.filter fun a => a.2.active != 0
  if held.isEmpty then s.stepMembers stove rv
  else if held.length < rv.arrivals.length then s.failMembers stove rv cILLEGAL rv.pc
  else match run stove rv s with
    | .step s1 => s1.stepMembers stove rv
    | .cause c a => s.failMembers stove rv c (a.getD rv.pc)
    | .own s1 => s1

/-- The member's arrival joins a rendezvous; a flue that has already arrived adds its lanes. -/
def GangRv.join (rv : GangRv) (gfl : Nat) (a : GangArrival) : GangRv :=
  let b := match Tab.get? rv.arrivals gfl with
    | some o => { a with lanes := o.lanes ||| a.lanes, active := o.active ||| a.active }
    | none => a
  { rv with arrivals := Tab.put rv.arrivals gfl b }

/-- The operands that are captured at an arrival are those of the first (10 R225). -/
def GangRv.agrees (rv : GangRv) (o : GangRv) : Bool := rv.a == o.a && rv.b == o.b && rv.c == o.c && rv.block == o.block

/-- A gang instruction: `mask` gives the flues of the rendezvous or a cause at issue (a flue whose guard holds in no lane raises
none: it arrives, and steps past where no rendezvous is named), `n` the length of the operand block,
`useC` whether C is an operand, `run` what it executes. A member whose guard holds in no lane commits nothing (13 R308, where 10 R248 says
that each member commits on its arrival: DEDUCED, assumption 59) and raises no flag (03 R70). -/
def gangOp (x : LArgs) (instr : Instr) (n : Nat) (useC : Bool) (mask : Issue → Flue → State → Option Word)
    (run : Nat → GangRv → State → GangEnd) (s : State) : Res :=
  onIssue s fun i f =>
    let acting := i.groupActs x.guard
    if f.phase = .handler then outside s i f acting s
    else match mask i f s with
    | none => s.upd i fun f => (f.raise i cBOUND acting).finish i acting
    | some m =>
      let me : GangArrival := ⟨i.slot, i.lanes, i.active x.guard⟩
      let fresh : GangRv := {
        group := f.group, mask := m, pc := i.pc, depth := f.curDepth, next := i.next, instr := instr, flag := i.flag x.f
        a := (i.uni x x.a).setWidth 64, b := (i.uni x x.b).setWidth 64, c := if useC then i.uni x x.c else 0
        block := if n = 0 then [] else i.block x n, dyn := f.fpmode }
      if m = 0 then
        if acting = 0 then s.upd i fun f => f.finish i 0
        else
          let s1 := (s.commit i.stove i.slot).upd i fun f => f.setFlag (i.flag x.f)
          s1.gangRun i.stove (fresh.join f.gflue me) run
      else
        let latch := (s.stove i.stove).latch
        let same := fun (r : GangRv) => r.group == f.group && r.mask == m && r.pc == i.pc && r.depth == f.curDepth
        match latch.find? same with
        | none =>
          if 8 ≤ latch.length then s
          else State.gangArrive (if acting = 0 then s else s.commit i.stove i.slot) i x f fresh me run
        | some rv => if rv.agrees fresh then State.gangArrive (if acting = 0 then s else s.commit i.stove i.slot) i x f rv me run
                     else s.upd i fun f => f.raise i cILLEGAL i.lanes
where
  /-- An arrival that is taken: a drained member breaks the rendezvous, the last one completes it. -/
  State.gangArrive (s : State) (i : Issue) (x : LArgs) (f : Flue) (rv : GangRv) (me : GangArrival)
      (run : Nat → GangRv → State → GangEnd) : State :=
    let rv1 := rv.join f.gflue me
    let st := s.stove i.stove
    let others := st.latch.filter fun r => r != rv
    let first := me.active != 0 && (Tab.get? rv.arrivals f.gflue).all fun o => o.active == 0
    let s1 := if first then s.upd i fun f => f.setFlag (i.flag x.f) else s
    let drained := (s.groupOf i.stove f).drained
    let st1 := s1.stove i.stove
    if rv1.mask &&& drained != 0 then (s1.setStove i.stove { st1 with latch := others }).failMembers i.stove rv1 cILLEGAL rv1.pc
    else if (fluesOf rv1.mask).all fun g => (Tab.get? rv1.arrivals g).isSome then
      (s1.setStove i.stove { st1 with latch := others }).gangRun i.stove rv1 run
    else (s1.setStove i.stove { st1 with latch := others ++ [rv1] }).gangCheck i.stove f.group

/-- The mask of a gang instruction other than GANG. -/
def ownMask (_ : Issue) (f : Flue) (_ : State) : Option Word := some f.gang

/-- Change the flues that have arrived. -/
def State.modMembers (s : State) (stove : Nat) (rv : GangRv) (k : GangArrival → Flue → Flue) : State :=
  rv.arrivals.foldl (fun s a => s.modFlue stove a.2.slot (k a.2)) s

/-- A member's flue: the flue of the first arrived member. -/
def State.leader (s : State) (stove : Nat) (rv : GangRv) : Flue :=
  match rv.arrivals with
  | a :: _ => (s.flue? stove a.2.slot).getD {}
  | [] => {}

/-! ### GANG, OSCLAIM, OSREL -/

/-- The mask that GANG names, or none for BOUND (10 R247). -/
def gangMask (x : LArgs) (i : Issue) (f : Flue) (s : State) : Option Word :=
  let a := i.uni x x.a
  let n := laneCount a
  if a = 0 then
    if i.groupActs x.guard != 0 && (List.range 32).any fun k => holdsSlot (s.stove i.stove) f k then none else some f.gang
  else if n < 2 || 6 < n || !a.getLsbD f.gflue || (fluesOf a).any (fun g => (s.groupOf i.stove f).nflue ≤ g) || f.gang != 0 then none
  else some a

def execGang (x : LArgs) (s : State) : Res :=
  gangOp x (.gang x) 0 false (gangMask x) (fun stove rv s =>
    .step (s.modMembers stove rv fun _ f => { f with gang := rv.a.setWidth 32 })) s

/-- The predicate write of OSCLAIM: with F = 00 the members wait for it at the instruction, otherwise they step past and the flag
counts it (10 R248). The latch `l` keeps its value: OSCLAIM writes no `v` register (05 R111). -/
def claimWrite (x : LArgs) (rv : GangRv) (v : Bool) (a : GangArrival) (f : Flue) : Flue :=
  let ws := (lanesOf a.active).map fun l => (⟨.p (predNum x.d), l, if v then 1 else 0, false⟩ : LaneWrite)
  if rv.flag.isNone then
    { f with rvs := f.rvs ++ [{ pc := rv.pc, depth := rv.depth, next := rv.next, mask := a.lanes, done := true, writes := ws, keepL := true,
                                members := (lanesOf a.lanes).map fun l => (l, {}) }] }
  else Flue.settle f { f.stepAll a.lanes rv.next with outs := f.outs ++ [{ flag := rv.flag, writes := ws }] }

/-- OSCLAIM on a slot (10 R250). -/
def claimRun (x : LArgs) (stove : Nat) (rv : GangRv) (s : State) : GangEnd :=
  let k := rv.a.toNat
  if 32 ≤ k then .cause cBOUND none
  else
    let f := s.leader stove rv
    let st := s.stove stove
    let c := Tab.getD st.claims k {}
    if c.held then .own (s.modMembers stove rv (claimWrite x rv (holdsSlot st f k)))
    else
      let mine : Claim := { held := true, group := f.group, gang := f.gang, solo := if f.gang = 0 then f.gflue else 0, cid := f.cid }
      let slots := if c.cid = f.cid then st.slots else Memory.clear st.slots (slotBase k) 18432
      .own ((s.setStove stove { st with claims := Tab.put st.claims k mine, slots := slots }).modMembers stove rv (claimWrite x rv true))

def execOsclaim (x : LArgs) (s : State) : Res := gangOp x (.osclaim x) 0 false ownMask (claimRun x) s

/-- OSREL: the slot is free once no outstanding operation names it (10 R250). -/
def releaseRun (stove : Nat) (rv : GangRv) (s : State) : GangEnd :=
  let k := rv.a.toNat
  let st := s.stove stove
  if 32 ≤ k then .cause cBOUND none
  else if !holdsSlot st (s.leader stove rv) k then .cause cOSLOT none
  else .step (s.setStove stove
    ({ st with claims := Tab.modify st.claims k fun c => { c with releasing := true } } : Stove).freeSlots1)

def execOsrel (x : LArgs) (s : State) : Res := gangOp x (.osrel x) 0 false ownMask releaseRun s

/-! ### Types (10 R252, R253) -/

/-- Fields of a slot word. -/
def aSlot (w : Word) : Nat := (w.extractLsb' 0 5).toNat
def bSlot (w : Word) : Nat := (w.extractLsb' 5 5).toNat
def mSlot (w : Word) : Nat := (w.extractLsb' 10 5).toNat

/-- Types, path and depth of a product (10 R253). -/
def aTy (x : LArgs) : Nat := (x.modx.extractLsb' 0 3).toNat
def bTy (x : LArgs) : Nat := (x.modx.extractLsb' 3 3).toNat
def mxZ (x : LArgs) : Bool := x.modx.getLsbD 8
/-- Bytes of an element in a slot's row (I4X apart). -/
def tyBytes (c : Nat) : Nat := if c = 2 || c = 3 then 2 else 1
/-- The depth K of MMA and MMAB. -/
def depthOf (x : LArgs) : Nat := if aTy x = 5 || bTy x = 5 then 256 else if tyBytes (aTy x) = 2 then 64 else 128
/-- Slots that one 128-row operand takes at a depth. -/
def slotsPer (c k : Nat) : Nat := if c = 5 then 1 else k * tyBytes c / 128

/-! ### Elements of slots -/

/-- The format of an element type of R151. -/
def elemFmt (c : Nat) : Fmt := if c = 0 then e4m3 else if c = 1 then e5m2 else if c = 2 then fp16 else bf16

/-- An element at a byte of a slot's row. -/
def slotElem (m : Memory) (c slot row byte : Nat) : FVal :=
  let n := leNat (Memory.read m (slotBase slot + 128 * row + byte) (tyBytes c))
  if c = 4 then .fin false (Q.ofInt (BitVec.ofNat 8 n).toInt) else (elemFmt c).decode n

/-- The 32 elements of group `g` of a row of an operand whose first slot is given, with the XO flag of an I4X decode. -/
def slotGroup (m : Memory) (c slot row g : Nat) : List FVal × FlagSet :=
  if c = 5 then
    let b := Memory.read m (slotBase slot + 16384 + 16 * row + 2 * g) 2 ++ Memory.read m (slotBase slot + 128 * row + 16 * g) 16
    let es := i4Decode b
    (es.map fun e => e.val, flagIf (es.any fun e => e.xo) flagXO)
  else
    ((List.range 32).map fun t =>
      let byte := (32 * g + t) * tyBytes c
      slotElem m c (slot + byte / 128) row (byte % 128), 0)

/-- The 32 elements of group `g` of a sparse row (10 R257): N' of each 128 K are stored. -/
def sparseGroup (m : Memory) (c slot mask row g keep : Nat) : List FVal :=
  (List.range 32).map fun j =>
    let k := 32 * g + j
    let t := k / 128
    let bits := leNat (Memory.read m (slotBase mask + 128 * row + 16 * t) 16)
    let b := k % 128
    let rank := ((List.range b).filter fun q => bits.testBit q).length
    if bits.testBit b && rank < keep then slotElem m c slot row ((t * keep + rank) * tyBytes c) else .fin false (Q.ofInt 0)

/-- One group applied to an accumulator element (02 R45, R46). -/
def applyGroup (int : Bool) (acc : Word) (a b : List FVal) : Word :=
  if int then accInt acc ((a.zip b).map fun p => (p.1.q.num, p.2.q.num)) else accFloat acc (a.zip b)

/-- One step over rows and columns: accumulator keys with their new values. `rows` gives the accumulator row and A's group,
`cols` the column and B's group. -/
def stepCells (int zero : Bool) (acc : SMap 32) (rows cols : List (Nat × List FVal)) : List (Nat × Word) :=
  (rows.map fun r => cols.map fun c =>
    let key := 1024 * r.1 + c.1
    (key, applyGroup int (if zero then 0 else SMap.get acc key) r.2 c.2)).flatten

/-! ### Units of matrix operations -/

/-- The first accumulator row of a flue's group. -/
def State.accBase (s : State) (stove : Nat) (f : Flue) : Nat := (s.groupOf stove f).accRow0

/-- A step of MMA or MMA.H (10 R255, R256): column block and group. B lies in the slots of the stove given. -/
def State.mmaUnit (s : State) (stove : Nat) (f : Flue) (op : EngineOp) (x : LArgs) (bstove bslot : Nat) : UnitOut :=
  let r := regionOf (op.a.setWidth 32)
  let k := depthOf x
  let cb := op.progress / (k / 32)
  let g := op.progress % (k / 32)
  let base := s.accBase stove f
  let am := (s.stove stove).slots
  let bm := (s.stove bstove).slots
  let a := (List.range r.m).map fun i => (base + r.row + i, slotGroup am (aTy x) (aSlot (op.b.setWidth 32)) i g)
  let b := (List.range (min 128 (r.n - 128 * cb))).map fun j =>
    (r.col + 128 * cb + j, slotGroup bm (bTy x) (bslot + cb * slotsPer (bTy x) k) j g)
  { acc := stepCells (aTy x == 4) (mxZ x && g == 0) (s.stove stove).acc (a.map fun p => (p.1, p.2.1)) (b.map fun p => (p.1, p.2.1))
    flags := (a ++ b).foldl (fun (fl : FlagSet) p => fl ||| p.2.2) 0 }

/-- Stored values of each 128 K, and the logical depth of MMAS (10 R257). -/
def sparseKeep (x : LArgs) : Nat := if x.modx.getLsbD 6 then 32 else 64
def sparseDepth (x : LArgs) : Nat := 128 / (sparseKeep x * tyBytes (aTy x)) * 128

/-- A step of MMAS. -/
def State.mmasUnit (s : State) (stove : Nat) (f : Flue) (op : EngineOp) (x : LArgs) : UnitOut :=
  let r := regionOf (op.a.setWidth 32)
  let w : Word := op.b.setWidth 32
  let k := sparseDepth x
  let cb := op.progress / (k / 32)
  let g := op.progress % (k / 32)
  let base := s.accBase stove f
  let m := (s.stove stove).slots
  let a := (List.range r.m).map fun i => (base + r.row + i, sparseGroup m (aTy x) (aSlot w) (mSlot w) i g (sparseKeep x))
  let b := (List.range (min 128 (r.n - 128 * cb))).map fun j =>
    (r.col + 128 * cb + j, (slotGroup m (bTy x) (bSlot w + cb * slotsPer (bTy x) k) j g).1)
  { acc := stepCells (aTy x == 4) (mxZ x && g == 0) (s.stove stove).acc a b }

/-- A step of MMAB: one group of all sixteen products (10 R258). -/
def State.mmabUnit (s : State) (stove : Nat) (f : Flue) (op : EngineOp) (x : LArgs) : UnitOut :=
  let r := regionOf (op.a.setWidth 32)
  let w : Word := op.b.setWidth 32
  let g := op.progress
  let base := s.accBase stove f
  let m := (s.stove stove).slots
  let parts := (List.range 16).map fun p =>
    let a := (List.range r.m).map fun i =>
      (base + r.row + 32 * (p % 4) + i, slotGroup m (aTy x) (aSlot w + p / 4) (32 * (p % 4) + i) g)
    let b := (List.range r.n).map fun j => (r.col + 64 * (p / 4) + j, slotGroup m (bTy x) (bSlot w + p / 2) (64 * (p % 2) + j) g)
    (stepCells (aTy x == 4) (mxZ x && g == 0) (s.stove stove).acc (a.map fun q => (q.1, q.2.1)) (b.map fun q => (q.1, q.2.1)),
     (a ++ b).foldl (fun (fl : FlagSet) q => fl ||| q.2.2) 0)
  { acc := (parts.map (·.1)).flatten, flags := parts.foldl (fun (fl : FlagSet) p => fl ||| p.2) 0 }

/-- A row of ACCZ. -/
def State.acczUnit (s : State) (stove : Nat) (f : Flue) (op : EngineOp) : UnitOut :=
  let r := regionOf (op.a.setWidth 32)
  let row := s.accBase stove f + r.row + op.progress
  { acc := (List.range r.n).map fun j => (1024 * row + r.col + j, 0) }

/-- The cell of a tensor for column `j` and row `i` of a region (10 R261). -/
def regionCell (d : Descriptor) (cs : List Int) (i j : Nat) : Option Nat :=
  d.cell [d.coord cs 0 + (j : Int), d.coord cs 1 + (i : Int), d.coord cs 2, d.coord cs 3, d.coord cs 4]

/-- The FP32 or INT32 word that a cell loads as, with the flags of the widening: a signalling NaN raises NV (02 R29), which goes
where the flags of ACCST go (DEDUCED, assumption 48). -/
def loadElem (fmt : Nat) (b : List Byte) : Word × FlagSet :=
  let n := leNat b
  if fmt = 1 ∨ fmt = 2 then
    let r := toFp32 ((if fmt = 1 then fp16 else bf16).decode n)
    (BitVec.ofNat 32 r.bits, r.flags)
  else (BitVec.ofNat 32 n, 0)

/-- A row of ACCLD. -/
def State.accldUnit (s : State) (stove : Nat) (f : Flue) (op : EngineOp) : EngRes UnitOut × State :=
  let r := regionOf (op.a.setWidth 32)
  let d := op.src.getD {}
  let cs := blockCoords op.block 0
  let row := s.accBase stove f + r.row + op.progress
  let q := s.readCells stove f d ((List.range r.n).map fun j => regionCell d cs op.progress j)
  match q.1 with
  | .wait p => (.wait p, q.2)
  | .err c => (.err c, q.2)
  | .ok bs => (.ok { acc := bs.zipIdx.map fun p => (1024 * row + r.col + p.2, (loadElem d.fmt p.1).1)
                     flags := bs.foldl (fun (fl : FlagSet) b => fl ||| (loadElem d.fmt b).2) 0 }, q.2)

def accI (x : LArgs) : Bool := x.modx.getLsbD 0
def accSat (x : LArgs) : Bool := x.modx.getLsbD 1
def accBlk (x : LArgs) : Bool := x.modx.getLsbD 2

/-- A row of ACCST (10 R262): elements outside the extents are neither converted nor written. -/
def State.accstUnit (s : State) (stove : Nat) (f : Flue) (op : EngineOp) (x : LArgs) : UnitOut :=
  let r := regionOf (op.a.setWidth 32)
  let d := op.dst.getD {}
  let cs := blockCoords op.block 0
  let row := s.accBase stove f + r.row + op.progress
  let inn := (List.range r.n).filter fun (j : Nat) => (d.inside
    [d.coord cs 0 + (j : Int), d.coord cs 1 + (op.progress : Int), d.coord cs 2, d.coord cs 3, d.coord cs 4])
  let vs := inn.map fun j =>
    let w := SMap.get (s.stove stove).acc (1024 * row + r.col + j)
    if accI x then FVal.fin false (Q.ofInt w.toInt) else fp32.decode w.toNat
  let out := encodeRun d op.rm (accSat x) (accBlk x) (fp32.decode (op.block.getD 5 0).toNat) vs
  let lead := inn.headD 0
  let cells := (List.range (inn.length / d.gran)).map fun t => regionCell d cs op.progress (lead + t * d.gran)
  let at0 := [d.coord cs 0 + (lead : Int), d.coord cs 1 + (op.progress : Int), d.coord cs 2, d.coord cs 3, d.coord cs 4].map Int.toNat
  let scales := out.2.1.zipIdx.map fun p =>
    (⟨0, d.scaleAddr ((at0.headD 0 + p.2 * d.blockLen) :: at0.tail), [p.1]⟩ : EngWrite)
  { writes := cellWrites d cells out.1 ++ scales, flags := out.2.2 }

/-! ### Matrix products (10 R255-R259) -/

/-- Count an operation in MX for every member, behind a STOVE-scope release of their earlier writes (10 R226). -/
def State.addMx (s : State) (stove : Nat) (rv : GangRv) (op : EngineOp) : State :=
  let op1 := { op with uid := s.stamp, members := rv.arrivals.map (·.1), a := rv.a, b := rv.b }
  let r := (s.release stove).tick.mixOps stove rv.group 1 op1
  r.2.modMembers stove rv fun _ f => f.addOp 1 r.1

/-- The slots that an operation uses are below 32 and held: a cause otherwise (10 R255). -/
def slotCause (st : Stove) (f : Flue) (ks : List Nat) : Option Nat :=
  if ks.any fun k => 32 ≤ k then some cBOUND
  else if ks.any fun k => !holdsSlot st f k then some cOSLOT
  else none

/-- A run of slots. -/
def slotRun (k n : Nat) : List Nat := (List.range n).map fun j => k + j
/-- Column blocks of a region. -/
def colBlocks (n : Nat) : Nat := (n + 127) / 128

/-- MMA. -/
def mmaRun (x : LArgs) (stove : Nat) (rv : GangRv) (s : State) : GangEnd :=
  let f := s.leader stove rv
  let r := regionOf (rv.a.setWidth 32)
  let w : Word := rv.b.setWidth 32
  let k := depthOf x
  let ks := slotRun (aSlot w) (slotsPer (aTy x) k) ++ slotRun (bSlot w) (colBlocks r.n * slotsPer (bTy x) k)
  if !r.fits (s.groupOf stove f).accN || w.extractLsb' 10 22 != 0 then .cause cBOUND none
  else match slotCause (s.stove stove) f ks with
    | some c => .cause c none
    | none => .step (s.addMx stove rv { instr := .mma x, units := colBlocks r.n * (k / 32), slots := ks })

def execMma (x : LArgs) (s : State) : Res := gangOp x (.mma x) 0 false ownMask (mmaRun x) s

/-- MMAS. -/
def mmasRun (x : LArgs) (stove : Nat) (rv : GangRv) (s : State) : GangEnd :=
  let f := s.leader stove rv
  let r := regionOf (rv.a.setWidth 32)
  let w : Word := rv.b.setWidth 32
  let k := sparseDepth x
  let ks := [aSlot w, mSlot w] ++ slotRun (bSlot w) (colBlocks r.n * slotsPer (bTy x) k)
  if !r.fits (s.groupOf stove f).accN || w.extractLsb' 15 17 != 0 then .cause cBOUND none
  else match slotCause (s.stove stove) f ks with
    | some c => .cause c none
    | none => .step (s.addMx stove rv { instr := .mmas x, units := colBlocks r.n * (k / 32), slots := ks })

def execMmas (x : LArgs) (s : State) : Res := gangOp x (.mmas x) 0 false ownMask (mmasRun x) s

/-- MMAB: the sixteen results lie within the group's rows and the columns (R254 for the last of them). -/
def mmabRun (x : LArgs) (stove : Nat) (rv : GangRv) (s : State) : GangEnd :=
  let f := s.leader stove rv
  let r := regionOf (rv.a.setWidth 32)
  let w : Word := rv.b.setWidth 32
  let ks := slotRun (aSlot w) 4 ++ slotRun (bSlot w) 8
  if !r.ok || 32 < r.m || 64 < r.n || (s.groupOf stove f).accN < r.row + 96 + r.m || 1024 < r.col + 192 + r.n ||
     w.extractLsb' 10 22 != 0 then .cause cBOUND none
  else match slotCause (s.stove stove) f ks with
    | some c => .cause c none
    | none => .step (s.addMx stove rv { instr := .mmab x, units := depthOf x / 32, slots := ks })

def execMmab (x : LArgs) (s : State) : Res := gangOp x (.mmab x) 0 false ownMask (mmabRun x) s

/-- ACCZ. -/
def acczRun (x : LArgs) (stove : Nat) (rv : GangRv) (s : State) : GangEnd :=
  let r := regionOf (rv.a.setWidth 32)
  if !r.fits (s.groupOf stove (s.leader stove rv)).accN then .cause cBOUND none
  else .step (s.addMx stove rv { instr := .accz x, units := r.m })

def execAccz (x : LArgs) (s : State) : Res := gangOp x (.accz x) 0 false ownMask (acczRun x) s

/-- MMA.H: the gang's operation is counted and arrives at the hearth rendezvous (10 R256). -/
def mmaHRun (x : LArgs) (stove : Nat) (rv : GangRv) (s : State) : GangEnd :=
  let f := s.leader stove rv
  let r := regionOf (rv.a.setWidth 32)
  let w : Word := rv.b.setWidth 32
  let k := depthOf x
  let h := hearthOf stove
  let lowest := (namedStoves h rv.c).headD stove == stove
  let ks := slotRun (aSlot w) (slotsPer (aTy x) k) ++
    (if lowest then slotRun (bSlot w) (colBlocks r.n * slotsPer (bTy x) k) else [])
  if rv.c.extractLsb' 16 16 != 0 || !rv.c.getLsbD (stove % 16) || !r.fits (s.groupOf stove f).accN || w.extractLsb' 10 22 != 0 then
    .cause cBOUND none
  else match slotCause (s.stove stove) f ks with
    | some c => .cause c none
    | none =>
      let uid := s.stamp
      let s1 := s.addMx stove rv { instr := .mmaH x, units := colBlocks r.n * (k / 32), slots := ks, started := false, c := rv.c }
      let s2 := (s1.modMembers stove rv fun a f => { f with mmahWait := f.mmahWait ||| a.lanes }).refreshMmah stove
      let hh := s2.hearth h
      let me : HArrival := ⟨stove, r.n, bSlot w⟩
      let same := fun (q : HearthRv) => q.part == f.part && q.kslot == f.kslot && q.pc == rv.pc && q.mask == rv.c && !q.running
      let old := (hh.hrvs.find? same).getD { part := f.part, kslot := f.kslot, pc := rv.pc, next := rv.next, mask := rv.c }
      let now := { old with arrivals := Tab.put old.arrivals uid me }
      .own ((s2.setHearth h { hh with hrvs := (hh.hrvs.filter fun q => q != old) ++ [now] }).hearthCheck h now)

def execMmaH (x : LArgs) (s : State) : Res := gangOp x (.mmaH x) 0 true ownMask (mmaHRun x) s

/-! ### Accumulator transfers (10 R260-R263) -/

/-- The box of a region on a tensor. -/
def regionBox (r : Region) (k : Nat) : Nat := if k = 0 then r.n else if k = 1 then r.m else 1

/-- ACCLD. -/
def accldRun (x : LArgs) (stove : Nat) (rv : GangRv) (s : State) : GangEnd :=
  let f := s.leader stove rv
  let r := regionOf (rv.a.setWidth 32)
  match s.tid? f.cid rv.b.toNat with
  | none => .cause cBOUND none
  | some d =>
    if !r.fits (s.groupOf stove f).accN || !(d.fmt ≤ 2 || d.fmt == 7) || accI x != (d.fmt == 7) then .cause cBOUND none
    else match s.engCheck stove f [(d.space, d.rowSpans (regionBox r) (blockCoords rv.block 0))] none with
      | some (c, o) => .cause c (some o)
      | none => .step ((s.useTids stove f.cid [rv.b.toNat]).addMx stove rv { instr := .accld x, units := r.m, block := rv.block, src := some d })

def execAccld (x : LArgs) (s : State) : Res := gangOp x (.accld x) 5 false ownMask (accldRun x) s

/-- ACCST. -/
def accstRun (x : LArgs) (stove : Nat) (rv : GangRv) (s : State) : GangEnd :=
  let f := s.leader stove rv
  let r := regionOf (rv.a.setWidth 32)
  match s.tid? f.cid rv.b.toNat with
  | none => .cause cBOUND none
  | some d =>
    let cs := blockCoords rv.block 0
    let c0 := d.coord cs 0
    if !r.fits (s.groupOf stove f).accN || (d.fmt == 6 && (!accBlk x || c0 % 32 != 0)) || (accBlk x && d.fmt != 6 && d.sblk == 0) ||
       (accBlk x && (c0 % (d.blockLen : Int) != 0 || r.n % d.blockLen != 0)) then .cause cBOUND none
    else match s.engCheck stove f [(d.space, d.rowSpans (regionBox r) cs)] none with
      | some (c, o) => .cause c (some o)
      | none => .step ((s.useTids stove f.cid [rv.b.toNat]).addMx stove rv
          { instr := .accst x, units := r.m, block := rv.block, dst := some d, rm := resolveRm rv.dyn x.rm })

def execAccst (x : LArgs) (s : State) : Res := gangOp x (.accst x) 6 false ownMask (accstRun x) s

/-- Rows that ACCMV moves. -/
def accmvN (x : LArgs) : Nat := (x.modx.extractLsb' 0 3).toNat + 1

/-- ACCMV (10 R260): a queued transfer of the issuing flue alone. `op` gives it, from the acting lanes, the row and the column. -/
def accmvOp (x : LArgs) (op : Issue → LaneMask → Nat → Nat → EngineOp) (s : State) : Res :=
  onIssue s fun i f =>
    let act := i.active x.guard
    if act = 0 then s.upd i fun f => f.finish i 0
    else
      let w := i.uni x x.a
      let row := (w.extractLsb' 0 7).toNat
      let col := (w.extractLsb' 7 10).toNat
      if w.extractLsb' 17 15 != 0 || col % 32 != 0 || (s.groupOf i.stove f).accN < row + accmvN x then
        s.upd i fun f => (f.raise i cBOUND act).finish i act
      else if 63 ≤ f.engCount 1 then s
      else
        let s1 := ((s.commit i.stove i.slot).release i.stove).tick
        let o := op i act row col
        let r := s1.mixOps i.stove f.group 1 { o with uid := s.stamp, members := [f.gflue], units := 1, seed := i.seed }
        r.2.upd i fun f => (((f.addOp 1 r.1).claimLatch i.seed o.writes).setFlag o.flag).finish i 0

/-- ACCMV.RD. -/
def execAccmvRd (x : LArgs) (s : State) : Res :=
  accmvOp x (fun i act row col =>
    let ws := ((lanesOf act).map fun l => (List.range (accmvN x)).map fun k =>
      (⟨i.view.loc x.d k, l, BitVec.ofNat 32 (1024 * (row + k) + col + l), x.f == .none && k == 0 && x.d.latches⟩ : LaneWrite)).flatten
    { instr := .accmvRd x, flag := i.flag x.f, held := if x.f == .none then i.lanes else 0, writes := ws }) s

/-- ACCMV.WR. -/
def execAccmvWr (x : LArgs) (s : State) : Res :=
  accmvOp x (fun i act row col =>
    let ps := ((lanesOf act).map fun l => ((i.src x.lit).run x.b (accmvN x) l).zipIdx.map fun p =>
      (1024 * (row + p.2) + col + l, p.1)).flatten
    { instr := .accmvWr x, puts := ps }) s

/-! ### The events of engine operations (10 R226-R229) -/

/-- The oldest operation of a class of a flue (operations of one class complete in issue order). -/
def Flue.headOp (f : Flue) (cls : Nat) : Option EngineOp := (Tab.getD f.ops cls []).head?

/-- Every member of the operation is resident and has it as its oldest of the class. -/
def State.opReady (s : State) (stove gid cls : Nat) (op : EngineOp) : Bool :=
  op.members.all fun g => match s.slotOf stove gid g with
    | some slot => match s.flue? stove slot with
      | some f => match f.headOp cls with
        | some o => o.uid == op.uid
        | none => false
      | none => false
    | none => false

/-- What the next unit of an operation does; MMA.H is run for its whole hearth at once. -/
def State.unitOf (s : State) (stove : Nat) (f : Flue) (op : EngineOp) (peers : List (Nat × List Byte)) : EngRes UnitOut × State :=
  match op.instr with
  | .tcopy x => s.tcopyUnit stove f op x
  | .gather _ => s.indexedUnit stove f op true
  | .scatter _ => s.indexedUnit stove f op false
  | .stream x => s.streamUnit stove f op x
  | .collAllred x => s.collUnit stove f op x peers
  | .collRedsc x => s.collUnit stove f op x peers
  | .collAllga x => s.collUnit stove f op x peers
  | .collA2a x => s.collUnit stove f op x peers
  | .collBcast x => s.collUnit stove f op x peers
  | .mma x => (.ok (s.mmaUnit stove f op x stove (bSlot (op.b.setWidth 32))), s)
  | .mmaH x => (.ok (s.mmaUnit stove f op x (op.block.getD 1 0).toNat (op.block.getD 0 0).toNat), s)
  | .mmas x => (.ok (s.mmasUnit stove f op x), s)
  | .mmab x => (.ok (s.mmabUnit stove f op x), s)
  | .accz _ => (.ok (s.acczUnit stove f op), s)
  | .accld _ => s.accldUnit stove f op
  | .accst x => (.ok (s.accstUnit stove f op x), s)
  | _ => (.ok { acc := op.puts.map fun p => (1024 * s.accBase stove f + p.1, p.2) }, s)

/-- The scratchpad offset of an operation's arrival word (10 R239). -/
def EngineOp.arrival (op : EngineOp) : Option Nat :=
  let last := match op.block.getLast? with
    | some w => w.toNat
    | none => 0
  match op.instr with
  | .tcopy x => if mxAw x then some last else none
  | .gather x => if mxAw x then some last else none
  | .scatter x => if mxAw x then some last else none
  | _ => none

/-- The operation is a matrix product, whose steps are counted (14 R341). -/
def EngineOp.product (op : EngineOp) : Bool :=
  match op.instr with
  | .mma _ => true
  | .mmaH _ => true
  | .mmas _ => true
  | .mmab _ => true
  | _ => false

/-- ACCMV.RD writes its registers from the accumulator, and its flag falls. -/
def Flue.accmvWrite (f : Flue) (op : EngineOp) (acc : SMap 32) (base : Nat) : Flue :=
  if op.writes.isEmpty then f
  else
    let g := f.writeLate op.seed (op.writes.map fun w => { w with val := SMap.get acc (1024 * base + w.val.toNat) })
    let h := g.clearFlag op.flag
    Flue.checkStuck { h with ops := Tab.mapVals (fun (l : List EngineOp) => l.map fun o =>
        if o.uid == op.uid then { o with writes := [], held := 0, flag := none } else o) h.ops }

/-- Where the arrival word of an operation lies; `none` when it cannot be reached (10 R239). -/
def State.arrivalAt (s : State) (stove : Nat) (f : Flue) (off : Nat) : Option Nat :=
  (s.kernel? f.part f.kslot).bind fun k => scpAddr k (dieOf stove) off

/-- An arrival word counts a unit (10 R239): what the group's flues had acquired till then orders the units counted before; the word's
generation as it counts this one is noted. -/
def EngineOp.note (op : EngineOp) (acq : List (Nat × Word)) (addr : Nat) (gen : Word) : EngineOp :=
  { op with sure := op.ordered acq,
            mark := some ⟨addr, gen, match op.mark with | some m => if m.gen = gen then m.older else op.progress | none => 0⟩ }

/-- A unit counted in the word at an address: every operation of the group that counts there settles what its flues have acquired of it, and
they acquire it anew. -/
def State.noteUnit (s : State) (stove gid uid addr : Nat) (gen : Word) : State :=
  let acq := s.groupAcq stove gid
  let settle := fun (o : EngineOp) =>
    if o.uid = uid then o.note acq addr gen
    else if o.mark.any fun m => m.addr == addr then { o with sure := o.ordered acq } else o
  let on := fun (f : Flue) =>
    { f with acquired := Tab.del f.acquired addr, ops := Tab.mapVals (fun (l : List EngineOp) => l.map settle) f.ops }
  let st := s.stove stove
  let s1 := s.setStove stove { st with
    flues := Tab.mapVals (fun (f : Flue) => if f.group = gid then on f else f) st.flues
    groups := Tab.modify st.groups gid fun g => g.mapSaved on }
  s1.modLoose stove gid fun l => l.map fun p => (p.1, settle p.2)

/-- The effects of a unit become visible, and the progress index rises (10 R227, R239, R263). `seen` is the stove as the operation
reads it. -/
def State.applyUnit (s : State) (stove : Nat) (f : Flue) (op : EngineOp) (seen : Stove) (out : UnitOut)
    (places : List (Loc × List Byte)) : State :=
  let s1 := places.foldl (fun s p => s.engStore stove f p) s
  let st := s1.stove stove
  let slots1 := out.slotw.foldl (fun m w => writePieces m w.1 w.2) st.slots
  let slots2 := match out.clear with
    | some (k, d) => slots1.filter fun p => !(slotBase k ≤ p.1 && p.1 < slotBase k + 18432) || d.inBox (p.1 - slotBase k)
    | none => slots1
  let s2 := s1.setStove stove { st with slots := slots2, acc := SMap.setAll st.acc out.acc }
  let s3 := match op.arrival.bind (s2.arrivalAt stove f) with
    | some a => (s2.noteUnit stove f.group op.uid a (Memory.read4 (s2.die (dieOf stove)).scp (a + 8))).modScp stove f.cid fun m =>
        awArrive m a out.count
    | none => s2
  let s4 := if op.product then s3.count f.cid 10 else s3
  (s4.modOpFlues stove op.uid fun g => (g.raiseFlags 0 out.flags).accmvWrite op seen.acc (s4.accBase stove f)).modOp stove op.uid fun o =>
    { o with progress := o.progress + 1, flags := o.flags ||| out.clflags }

/-- The operations of a running hearth rendezvous that must step together: stove and operation (10 R256). -/
def State.hearthOps (s : State) (stove uid : Nat) : List (Nat × Nat) :=
  match (s.hearth (hearthOf stove)).hrvs.find? fun rv => rv.running && rv.arrivals.any fun a => a.1 == uid with
  | some rv => rv.arrivals.map fun a => (a.2.stove, a.1)
  | none => [(stove, uid)]

/-- A flue that counts an operation, with the operation. -/
def State.opFlue (s : State) (stove uid : Nat) : Option (Flue × EngineOp) :=
  (s.stove stove).flues.findSome? fun p => (p.2.allOps.find? fun o => o.uid == uid).map fun o => (p.2, o)

/-- The stoves that an operation reads, each with the operation that tells what is read there in any values: its own, and at MMA.H
the one that B comes from. -/
def State.readStoves (s : State) (stove : Nat) (op : EngineOp) : List (Nat × EngineOp) :=
  (stove, op) :: match op.instr with
    | .mmaH _ => ((s.hearthOps stove op.uid).filter fun p => p.1 != stove && p.1 == (op.block.getD 1 0).toNat).filterMap fun p =>
        (s.opFlue p.1 p.2).map fun q => (p.1, q.2)
    | _ => []

/-- The state as a unit reads it: slots and accumulators that it may read in any values hold free values. -/
def State.seenBy (s : State) (stove : Nat) (f : Flue) (op : EngineOp) : State :=
  (s.readStoves stove op).foldl (fun s p =>
    if p.2.mixed.isEmpty && p.2.mixedAcc.isEmpty then s
    else { s.setStove p.1 ((s.stove p.1).seenBy p.2 (s.accBase stove f) s.freeIdx) with freeIdx := s.freeIdx + 720896 }) s

/-- What a unit has left in the machine, with the slots and accumulators of the state before it. -/
def State.unseen (r s : State) (stove : Nat) (op : EngineOp) : State :=
  (s.readStoves stove op).foldl (fun r p =>
    r.setStove p.1 { r.stove p.1 with slots := (s.stove p.1).slots, acc := (s.stove p.1).acc }) r

/-- Run one unit of an operation: an error becomes its status, a page that is being made resident only pauses it (10 R228), and is asked of
the host when it is paged out (19 R412); an
arrival word that cannot be reached ends it as well (10 R239). -/
def State.runUnit (s : State) (stove : Nat) (f : Flue) (op : EngineOp) (peers : List (Nat × List Byte)) : State :=
  let v := s.seenBy stove f op
  let q := v.unitOf stove f op peers
  let r := q.2.unseen s stove op
  let ends := fun (s : State) (c : EngStatus) => s.modOp stove op.uid fun o => { o with status := c }
  let ask := fun (s : State) (va : Option DWord) => match va with
    | some a => s.askPage f.cid a
    | none => s
  match q.1 with
  | .wait va => ask r va
  | .err c => ends r c
  | .ok out =>
    let p := r.place stove f out.writes
    match p.1 with
    | .wait va => ask p.2 va
    | .err c => ends p.2 c
    | .ok places =>
      if op.arrival.any fun off => (p.2.arrivalAt stove f off).isNone then ends p.2 .owner
      else p.2.applyUnit stove f op (v.stove stove) out places

/-- An operation that has done its last unit or met an error completes in that cycle (10 R226, R228). -/
def State.endIfDone (s : State) (stove cls uid : Nat) : State :=
  match s.opFlue stove uid with
  | some (_, o) => if o.units ≤ o.progress || o.status ≠ .ok then s.finishOp stove cls o o.status else s
  | none => s

/-- ENGINE_UNIT_COMPLETE (10 R227): the oldest operation of a class completes a unit, and with its last unit it completes itself (R226). MMA.H
steps on every stove of its hearth rendezvous, and on none while a named stove's gang is away. -/
def execEngineUnitComplete (r : FlueRef) (cls : EngClass) (peers : List (Nat × List Byte)) (s : State) : Res :=
  match s.flue? r.stove r.slot with
  | none => .next s
  | some f =>
    match f.headOp (clsNum cls) with
    | none => .next s
    | some op =>
      if op.status ≠ .ok || op.units ≤ op.progress || !op.started then .next s
      else
        let all := s.hearthOps r.stove op.uid
        let ready := all.all fun p => match s.opFlue p.1 p.2 with
          | some (g, o) => s.opReady p.1 g.group (clsNum cls) o
          | none => false
        if !ready then .next s
        else
          let s1 := all.foldl (fun s p => match s.opFlue p.1 p.2 with
            | some (g, o) => if o.units ≤ o.progress then s else s.runUnit p.1 g o peers
            | none => s) s
          .next (all.foldl (fun s p => s.endIfDone p.1 (clsNum cls) p.2) s1)

/-- The ends that reach a collective from other ranks (10 R244, 20 R427, R428). -/
def outsideEnd (cls : EngClass) (st : EngStatus) : Bool :=
  cls == .cl && (st == .mismatch || st == .memberLost || st == .aborted || st == .roster)

/-- ENGINE_OPERATION_COMPLETE (10 R226, R228, R229): the oldest operation of a class completes whose end came while it was not the oldest, or
at issue; `ext` is an end that reaches a collective from outside. -/
def execEngineOperationComplete (r : FlueRef) (cls : EngClass) (ext : EngStatus) (s : State) : Res :=
  match s.flue? r.stove r.slot with
  | none => .next s
  | some f =>
    match f.headOp (clsNum cls) with
    | none => .next s
    | some op =>
      let ended := (op.units ≤ op.progress && op.started) || op.status != .ok || outsideEnd cls ext
      if !ended || !s.opReady r.stove f.group (clsNum cls) op then .next s
      else .next (s.finishOp r.stove (clsNum cls) op (if op.status = .ok then (if op.units ≤ op.progress then .ok else ext) else op.status))

end Sys2Proof.Machine
end

