-- ==== Sys2Proof/Machine/Partition.lean ====
section
/-! DEFINITION. Partitions and clocks (21, 01 R16-R21): forming, testing, draining and resetting a partition, and the clocks of
hearths under targets, power and heat. Readings are in assumption 27. -/

namespace Sys2Proof.Machine

/-! ### Forming (21 R430-R433) -/

/-- The share of a resource in a partition. -/
def shareOf (t : Tab Nat) (n : Nat) : Nat := Tab.getD t n 0

/-- The controls of R433 are within their ranges, together with those of the other partitions, and name straits 0 to 63, chimneys and
stacks 0 to 15 (01 R24). -/
def State.controlsOk (s : State) (part : Nat) (x : PartSpec) : Bool :=
  let others := s.parts.filter fun (p : Nat × Partition) => p.1 != part
  let sum := fun (k : Partition → Nat) => others.foldl (fun n (p : Nat × Partition) => n + k p.2) 0
  let fits := fun (n : Nat) (l : List (Nat × Nat)) (k : Partition → Tab Nat) =>
    l.all fun r => r.1 < n && r.2 ≤ 64 && sum (fun p => shareOf (k p) r.1) + (l.filter fun q => q.1 == r.1).foldl (fun n q => n + q.2) 0 ≤ 64
  fits 64 x.straits (·.straits) && fits 16 x.chimneys (·.chimneys) && fits 16 x.hbms (·.hbms) &&
  x.cshare + sum (·.cshare) ≤ 64 && x.ways != 0 && x.qslots ≤ 256 && x.qslots + sum (·.qslots) ≤ 1024 &&
  (x.slice == 0 || (2 ^ 16 ≤ x.slice && x.slice ≤ 2 ^ 30))

/-- The hearths of a request: 1 to 64 that passed test, each once, none in another partition (21 R430). -/
def State.hearthsOk (s : State) (part : Nat) (hs : List Nat) : Bool :=
  !hs.isEmpty && hs.all (fun h => h < 64 && !s.badHearths.contains h && (match Tab.get? s.remap h with
    | some r => r.part == part
    | none => true)) && hs.all fun h => (hs.filter (· == h)).length == 1

/-- No context has groups on a partition, those that wait or are ready (17 R386) among them. -/
def State.idlePart (s : State) (part : Nat) (p : Partition) : Bool :=
  p.switched.isEmpty && p.kernels.all (fun k => k.2.records.isEmpty) && (s.partStoves part).all fun n => (s.stove n).groups.isEmpty && (s.stove n).flues.isEmpty

/-- Write the remap table of a partition's hearths: logical numbers in ascending physical order (21 R432). -/
def writeRemap (t : Tab Remap) (part : Nat) (hs : List Nat) : Tab Remap :=
  let sorted := (List.range 64).filter fun h => hs.contains h
  let put := fun (t : Tab Remap) (x : Nat × Nat) => Tab.put t x.1 (⟨part, x.2⟩ : Remap)
  sorted.zipIdx.foldl put (t.filter fun (x : Nat × Remap) => x.2.part != part)

/-- FORM_PARTITION (21 R430-R433, R439): at the partition stage or later, a partition that is new or has no groups enters FORMING. The
firmware gives up its own hearth (22 R441) to a partition that takes it (DESIGN CHOICE, assumption 27). -/
def execFormPartition (part : Nat) (spec : PartSpec) (s : State) : Res :=
  let old := (s.part? part).getD {}
  let may := match s.part? part with
    | none => true
    | some p => (p.state == .failed || p.state == .running || p.state == .forming) && s.idlePart part p
  if s.stage < 4 || 64 ≤ part || !may || !s.hearthsOk part spec.hearths || !s.controlsOk part spec then .next (s.say .refused)
  else
    let tab := fun (l : List (Nat × Nat)) => l.foldl (fun (t : Tab Nat) x => Tab.put t x.1 x.2) []
    let p : Partition := { old with
      state := .forming, hearths := (List.range 64).filter fun h => spec.hearths.contains h
      straits := tab spec.straits, chimneys := tab spec.chimneys, hbms := tab spec.hbms
      cshare := spec.cshare, ways := spec.ways, qslots := spec.qslots, slice := spec.slice, current := none, drainFor := [] }
    let fw := if spec.hearths.any fun h => s.fw.hearth = some h then { s.fw with hearth := none } else s.fw
    .next ({ s.setPart part p with remap := writeRemap s.remap part spec.hearths, fw := fw })

/-- PARTITION_TEST_COMPLETE (21 R439). -/
def execPartitionTestComplete (part : Nat) (failed : Bool) (s : State) : Res :=
  match s.part? part with
  | some p =>
    if p.state ≠ .forming then .next s
    else if failed then .next ((s.setPart part { p with state := .failed }).say (.report s.stage [part]))
    else .next (s.setPart part { p with state := .running })
  | none => .next s

/-! ### Drain and reset (21 R439, R440) -/

/-- DRAIN (21 R439): the operator's request. The groups leave by WHOLE_GROUP_SWITCH_OUT. -/
def execDrainPartition (part : Nat) (s : State) : Res :=
  match s.part? part with
  | some p => if p.state = .running then .next (s.setPart part { p with state := .draining }) else .next s
  | none => .next s

/-- A hearth rendezvous of a context that the drain is not for: its groups go on after it (10 R256). -/
def Partition.keepsRv (p : Partition) (rv : HearthRv) : Bool := match Tab.get? p.kernels rv.kslot with
  | some k => !p.drainFor.contains k.cid
  | none => false

/-- The stoves and hearths of a partition are scrubbed and their translation caches emptied; cached lines of the faulted
contexts go (21 R440). Every write that the stoves accepted has reached memory. -/
def State.scrubPart (s : State) (part : Nat) (p : Partition) : State :=
  let s1 := (s.releaseAll part).llcDrop fun _ l => p.drainFor.contains l.cid
  let on := s1.partStoves part
  { s1 with
    stoves := s1.stoves.filter fun (x : Nat × Stove) => !on.contains x.1
    hearths := s1.hearths.map fun (x : Nat × Hearth) =>
      if p.hearths.contains x.1 then (x.1, { x.2 with cycles := 0, tlb := [], walk := [], hrvs := x.2.hrvs.filter p.keepsRv }) else x }

/-- DRAIN_COMPLETE (21 R439): no flue of the partition is resident, and what its hearths sent has arrived. -/
def execDrainComplete (part : Nat) (s : State) : Res :=
  match s.part? part with
  | some p =>
    if p.state = .draining && (s.partStoves part).all (fun n => (s.stove n).flues.isEmpty && (s.stove n).groups.isEmpty) then
      let s1 := s.scrubPart part p
      .next (s1.setPart part { p with state := .resetting })
    else .next s
  | none => .next s

/-- RESET_COMPLETE (21 R439, R440): the partition runs again, its rotation from the lowest CID and its switched-out groups with age zero (17
R383); or a hearth fails, and every context
with groups on the partition faults. -/
def execResetComplete (part : Nat) (failed : Bool) (s : State) : Res :=
  match s.part? part with
  | some p =>
    if p.state ≠ .resetting then .next s
    else if failed then
      let cids := (p.switched.map (fun w => w.group.cid) ++ (p.kernels.filter fun k => !k.2.records.isEmpty).map fun k => k.2.cid).dedup
      let s1 := s.setPart part { p with state := .failed, drainFor := [] }
      .next ((cids.foldl (fun (s : State) c => s.contextFault c 0 0 0) s1).say (.report s.stage [part]))
    else .next (s.setPart part { p with
      state := .running, drainFor := [], current := none, switched := p.switched.map fun w => { w with age := 0 } })
  | none => .next s

/-! ### Clocks (01 R16, R19, R21, 21 R437) -/

/-- The clock that a hearth is to have: the least of its target and the power and thermal limits. -/
def Hearth.wanted (h : Hearth) : Nat := min h.target (min h.powerCap h.thermalCap)
/-- A lowering takes the clock at once; a raise waits until the voltage has settled. -/
def Hearth.reclock (h : Hearth) : Hearth :=
  if h.wanted ≤ h.clock then { h with clock := h.wanted, raisePending := false } else { h with raisePending := true }

/-- SETCLK (21 R437): a multiple of 50 from 500 to 1500; any other value is refused. -/
def execSetclk (part hearth mhz : Nat) (s : State) : Res :=
  match (s.part? part).bind fun p => p.hearths[hearth]? with
  | none => .next (s.say .refused)
  | some h =>
    if mhz % 50 ≠ 0 || mhz < 500 || 1500 < mhz then .next (s.say .refused)
    else .next (s.setHearth h { s.hearth h with target := mhz }.reclock)

/-- HEARTH_VOLTAGE_SETTLED (21 R437). -/
def execHearthVoltageSettled (hearth : Nat) (s : State) : Res :=
  let h := s.hearth hearth
  if h.raisePending then .next (s.setHearth hearth { h with clock := h.wanted, raisePending := false }) else .next s

/-- CSHARE as it is in effect: a partition that has not formed has none yet (21 R439). -/
def Partition.share (p : Partition) : Nat := if p.state = .forming || p.state = .failed then 0 else p.cshare

/-- The hearth that the next power step lowers (01 R19): of the partition with the lowest CSHARE that still holds a hearth above
500 MHz, the higher number on a tie, the hearth with the highest clock, the higher logical hearth on a tie. -/
def State.powerVictim (s : State) : Option Nat :=
  let above := s.parts.filter fun (x : Nat × Partition) => x.2.hearths.any fun h => 500 < (s.hearth h).clock
  match above.foldl (fun (m : Option Partition) (x : Nat × Partition) => match m with
    | none => some x.2
    | some p => if x.2.share ≤ p.share then some x.2 else m) none with
  | none => none
  | some p => p.hearths.foldl (fun (m : Option Nat) h => match m with
    | none => some h
    | some o => if (s.hearth o).clock ≤ (s.hearth h).clock then some h else m) none

/-- POWER_EXCESS_PREDICTED (01 R19). -/
def execPowerExcessPredicted (s : State) : Res :=
  match s.powerVictim with
  | none => .next s
  | some h =>
    let x := s.hearth h
    .next { s.setHearth h { x with powerCap := x.clock - 50 }.reclock with powerSteps := h :: s.powerSteps }

/-- POWER_RECOVERY_STEP (01 R19): the last step is taken back, 50 MHz. A hearth whose steps have all been taken back and whose target the
limit still keeps from goes on behind the others, a step at a time; once the limit has reached the target there is none. -/
def execPowerRecoveryStep (s : State) : Res :=
  match s.powerSteps with
  | [] => .next s
  | h :: rest =>
    let x := s.hearth h
    let cap := x.powerCap + 50
    let more := !rest.contains h && cap < x.target
    let lifted := if rest.contains h || more then cap else 1500
    .next { s.setHearth h { x with powerCap := lifted }.reclock with powerSteps := if more then rest ++ [h] else rest }

/-- Change the hearths of a die. -/
def State.modDie (s : State) (die : Nat) (k : Hearth → Hearth) : State :=
  (List.range 8).foldl (fun s j => s.setHearth (8 * die + j) (k (s.hearth (8 * die + j)))) s

/-- JUNCTION_OVERTEMP (01 R21). -/
def execJunctionOvertemp (die : Nat) (s : State) : Res :=
  let s1 := s.modDie die fun h => { h with thermalCap := 500 }.reclock
  .next (s1.setDie die { s1.die die with hot := true })

/-- THERMAL_RETURN_STEP (01 R21): one 50 MHz step for each hearth of the die. -/
def execThermalReturnStep (die : Nat) (s : State) : Res :=
  if !(s.die die).hot then .next s
  else
    let s1 := s.modDie die fun h => { h with thermalCap := min 1500 (h.thermalCap + 50) }.reclock
    if (List.range 8).all fun j => 1500 ≤ (s1.hearth (8 * die + j)).thermalCap then
      .next (s1.setDie die { s1.die die with hot := false })
    else .next s1

end Sys2Proof.Machine
end

