-- ==== Sys2Proof/Machine/Special.lean ====
section
/-! DEFINITION. Special functions (07 R158-R162). Class 5: the result may arrive later, under a flag or the interlock. -/

namespace Sys2Proof.Machine

/-- Run a per-lane operation whose result may arrive under a flag (03 R71, R72). -/
def late (x : LArgs) (n : Nat) (op : Src → Nat → LaneRes) (s : State) : Res :=
  onFlue s fun i f => runLate i f x.f x.guard x.d n (op (i.src x.lit))

/-- A function of one operand (07 R159-R161). -/
def sfuOp (fn : SfuFn) (x : LArgs) (c : Src) (l : Nat) : LaneRes :=
  let r := sfu (fmtOf x.ty) fn (fElem x.ty (c.read x.a x.ty l) 0)
  { val := BitVec.ofNat 64 r.bits, flags := r.flags }

/-- SQRT (07 R159): correctly rounded. -/
def sqrtOp (x : LArgs) (c : Src) (l : Nat) : LaneRes :=
  let r := fSqrt (fmtOf x.ty) (c.rm x.rm) (fElem x.ty (c.read x.a x.ty l) 0)
  { val := BitVec.ofNat 64 r.bits, flags := r.flags }

/-- FDIV (07 R160): IEEE 754 division. -/
def fdivOp (x : LArgs) (c : Src) (l : Nat) : LaneRes :=
  let f := fmtOf x.ty
  let r := fDiv f (c.rm x.rm) (f.decode (fElem x.ty (c.read x.a x.ty l) 0)) (f.decode (fElem x.ty (c.read x.b x.ty l) 0))
  { val := BitVec.ofNat 64 r.bits, flags := r.flags }

def execRcp (x : LArgs) (s : State) : Res := late x x.ty.regs (sfuOp .rcp x) s
def execRsq (x : LArgs) (s : State) : Res := late x x.ty.regs (sfuOp .rsq x) s
def execSqrt (x : LArgs) (s : State) : Res := late x x.ty.regs (sqrtOp x) s
def execFdiv (x : LArgs) (s : State) : Res := late x x.ty.regs (fdivOp x) s
def execExp2 (x : LArgs) (s : State) : Res := late x x.ty.regs (sfuOp .exp2 x) s
def execLog2 (x : LArgs) (s : State) : Res := late x x.ty.regs (sfuOp .log2 x) s
def execSin (x : LArgs) (s : State) : Res := late x x.ty.regs (sfuOp .sin x) s
def execCos (x : LArgs) (s : State) : Res := late x x.ty.regs (sfuOp .cos x) s
def execTanh (x : LArgs) (s : State) : Res := late x x.ty.regs (sfuOp .tanh x) s

end Sys2Proof.Machine
end

