-- ==== Sys2Proof/Machine/Start.lean ====
section
/-! DEFINITION. Start-up, recovery, firmware generations and manufacturing test (22, 01 R21). -/

namespace Sys2Proof.Machine

/-! ### Reset and the stages (22 R441-R444, R450) -/

/-- The package resets (01 R21, 22 R441, R450): it stands as at reset, and keeps what lies outside: the monotonic store, the draws
of the root of trust, the firmware generation loaded last (R449), the answers given, and the turns to come. A TESTMODE request that was
accepted takes effect. -/
def State.restart (s : State) : State :=
  { State.reset with
    testMode := s.testPending
    rot := { monoLeaf := s.rot.monoLeaf, monoVersion := s.rot.monoVersion, nonces := s.rot.nonces, image := s.rot.image }
    fw := { gen := s.fw.gen, measurement := s.fw.measurement }
    outbox := s.outbox, turns := s.turns, turnIdx := s.turnIdx, freeIdx := s.freeIdx, stamp := s.stamp }

/-- THERMAL_TRIP (01 R21): the trip pin is asserted, and the package resets. -/
def execThermalTrip (s : State) : Res := .next (s.say .trip).restart
/-- PACKAGE_RESET (22 R441). -/
def execPackageReset (s : State) : Res := .next s.restart
/-- LOCKSTEP_MISMATCH (22 R447): the package resets. -/
def execLockstepMismatch (s : State) : Res := .next s.restart

/-- The start stays in the last stage that it completed (22 R442). -/
def State.halt (s : State) : State := { s with halted := true }
/-- The root of trust releases no key and signs nothing (22 R442). -/
def State.distrust (s : State) : State := { s with rot := { s.rot with trusted := false } }

/-- The image that the boot ROM verifies: the generation that the operator loaded last, or the one that the module was made with. -/
def State.bootFw (s : State) : FwImage := s.rot.image.getD ⟨Config.bootImage.1, Config.bootImage.2.1, Config.bootImage.2.2⟩
/-- Stage 1's check of signature and security version (22 R441, R448). -/
def State.bootOk (s : State) : Bool := Config.fwVerify s.bootFw && s.rot.monoVersion ≤ s.bootFw.version

/-- The send windows of the chimneys' hosts that the service firmware sets, within the bounds of 20 R424. -/
def hostWindows : Tab HostWin :=
  (List.range 16).map fun j => (j, { tags := min 65536 (Config.hostWindow j).1, bytes := min (2 ^ 26) (Config.hostWindow j).2 })

/-- The lowest physical hearth that passes its built-in test (22 R441). -/
def firstHearth (failed : List Nat) : Option Nat := (List.range 64).find? fun h => !failed.contains h

/-- A stage ends (22 R441-R443), with the parts that failed or were not complete; the failures are reported. Stage 1's outcome is the boot
ROM's own check. Stage 5 is complete when no partition is FORMING any more. -/
def State.stageEnd (s : State) (rep : StageReport) (overrun : Bool) : State :=
  let failing := rep.hearths ++ rep.hbms ++ rep.ports ++ rep.parts
  let failed := overrun || !failing.isEmpty || (if s.stage = 0 then !s.bootOk else !rep.ok)
  let s0 := if failed then s.say (.report (s.stage + 1) failing) else s
  if s.halted then s
  else match s.stage with
    | 0 =>
      if !s.bootOk then s0.distrust.halt
      else
        let t := !s.testMode
        { s0 with stage := 1, rot := if t then { s0.rot.reserve with trusted := true } else s0.rot
                  fw := { s0.fw with measurement := s.bootFw.measurement } }
    | 1 => match firstHearth rep.hearths with
      | some h => if !rep.ok || overrun then s0.distrust.halt else { s0 with stage := 2, fw := { s0.fw with hearth := some h } }
      | none => s0.distrust.halt
    | 2 =>
      if !rep.hbms.isEmpty then s0.halt
      else { s0 with stage := 3, ports := (List.range 80).map fun j => (j, { up := !rep.ports.contains j }), hosts := hostWindows }
    | 3 => { s0 with stage := 4, badHearths := rep.hearths }
    | 4 => if s.parts.any fun (x : Nat × Partition) => x.2.state == .forming && !rep.parts.contains x.1 then s else
      { s0 with
        stage := 6
        parts := s0.parts.map fun (x : Nat × Partition) =>
          if x.2.state = .forming && rep.parts.contains x.1 then (x.1, { x.2 with state := .failed }) else x }
    | _ => s

/-- STAGE_COMPLETE (22 R441, R442). -/
def execStageComplete (rep : StageReport) (s : State) : Res := .next (s.stageEnd rep false)
/-- STAGE_TIMEOUT (22 R443): stage 1 has no limit, and at stage 5 every partition still FORMING is not yet formed. -/
def execStageTimeout (rep : StageReport) (s : State) : Res :=
  if s.stage = 0 then .next s
  else
    let late := (s.parts.filter fun (x : Nat × Partition) => x.2.state == .forming).map (·.1)
    .next (s.stageEnd { rep with parts := if s.stage = 4 then late else rep.parts } true)

/-! ### Recovery (22 R445-R447) -/

/-- What a page service has changed is as it was, its result not having been posted (22 R446). -/
def State.undo (s : State) (e : RingEntry) : State :=
  let s1 : State := { s.resealed fun l => e.undoMem.any fun b => b.1 / 128 == l with
    mem := e.undoMem.foldl (fun m b => Memory.write m b.1 [b.2]) s.mem }
  let s2 : State := { s1.rekeyed fun l => e.undoOwn.any fun o => o.1 == l / 32 with
    own := e.undoOwn.foldl (fun t o => match o.2 with
      | some r => Tab.put t o.1 r
      | none => Tab.del t o.1) s1.own }
  if e.undoMem.isEmpty && e.undoOwn.isEmpty then s else s2.shootdown e.cid 0 (2 ^ 57) []

/-- Recovery starts: the schedulers freeze, the service cores restart on the current generation, and every entry whose result is not yet
posted gets 0xFFFFFFFE, with nothing changed (22 R445, R446). The bindings, PENDING bits and ready pools that step 3 rebuilds from the
control blocks are those of the state. -/
def State.recoverNow (s : State) : State :=
  let answerAll := fun (e : RingEntry) =>
    { e with answer := some (0xFFFFFFFE#32), pages := [], freeing := [], undoMem := [], undoOwn := [] }
  let s1 := (s.parts.map fun (x : Nat × Partition) => x.2.ring).flatten.foldl State.undo s
  { s1 with
    fw := { s1.fw with frozen := true, recoverAge := 0, heartbeat := 0, old := none }
    parts := s1.parts.map fun (x : Nat × Partition) => (x.1, { x.2 with ring := x.2.ring.map answerAll }) }

/-- Recovery is complete: the schedulers go on. -/
def State.recovered (s : State) : State := { s with fw := { s.fw with frozen := false, recoverAge := 0 } }

/-- HEARTBEAT_TIMEOUT (22 R445): no heartbeat for 2^24 control-island cycles. -/
def execHeartbeatTimeout (s : State) : Res := if 2 ^ 24 ≤ s.fw.heartbeat then .next s.recoverNow else .next s
/-- SERVICE_MACHINE_CHECK (22 R445). -/
def execServiceMachineCheck (s : State) : Res := .next s.recoverNow
/-- The management port takes requests: from stage 2 on (22 R441). After a failure of stage 1 or 2 the package stays before it, and only the
status request would be answered (R442). -/
def State.managed (s : State) : Bool := 2 ≤ s.stage
/-- RECOVER (22 R445). -/
def execRecover (s : State) : Res := if s.managed then .next s.recoverNow else .next s
/-- RECOVERY_TIMEOUT (22 R447): recovery has not completed within 2^32 control-island cycles, and the package resets. -/
def execRecoveryTimeout (s : State) : Res := if s.fw.frozen && 2 ^ 32 ≤ s.fw.recoverAge then .next s.restart else .next s

/-! ### Firmware generations and test mode (22 R448-R450) -/

/-- FIRMWARE_LOAD (22 R448, R449): accepted when its signature verifies and its security version is at least the store's. The new
generation serves entries from the next ring number on. -/
def execFirmwareLoad (fw : FwImage) (s : State) : Res :=
  if !s.managed then .next s
  else if !s.rot.trusted || s.fw.old.isSome || !Config.fwVerify fw || fw.version < s.rot.monoVersion then .next (s.say .refused)
  else
    let new : Firmware := { s.fw with
      gen := s.fw.gen + 1, measurement := fw.measurement, old := some (s.fw.gen, s.fw.measurement)
      switchAt := s.parts.map fun (x : Nat × Partition) => (x.1, x.2.ringSeq) }
    .next ({ s with rot := { s.rot with monoVersion := fw.version, image := some fw }, fw := new } : State).oldDone

/-- TESTMODE (22 R450): a signed request takes effect at the next reset. -/
def execTestmode (sig : List Byte) (s : State) : Res :=
  if !s.managed then .next s
  else if Config.testmodeVerify sig then .next { s with testPending := true } else .next (s.say .refused)

end Sys2Proof.Machine
end

