-- ==== Sys2Proof/Machine/Dispatch.lean ====
section
/-! DEFINITION. The meaning of every instruction, one arm per constructor. -/

namespace Sys2Proof.Machine

/-- Execute an instruction: the burner's issue, the executing hart, or the event itself. -/
def exec (i : Instr) (s : State) : Host.Outcome State Fault Refusal :=
  match i with
  | .clauseIssue r pc => Sys2Proof.Machine.execClauseIssue r pc s
  | .pcGroupPromotion r pc => Sys2Proof.Machine.execPcGroupPromotion r pc s
  | .iadd x => Sys2Proof.Machine.execIadd x s
  | .iaddI32Short x => Sys2Proof.Machine.execIaddI32Short x s
  | .isub x => Sys2Proof.Machine.execIsub x s
  | .isubI32Short x => Sys2Proof.Machine.execIsubI32Short x s
  | .imul x => Sys2Proof.Machine.execImul x s
  | .imulI32Short x => Sys2Proof.Machine.execImulI32Short x s
  | .imulh x => Sys2Proof.Machine.execImulh x s
  | .imad x => Sys2Proof.Machine.execImad x s
  | .imadw x => Sys2Proof.Machine.execImadw x s
  | .ineg x => Sys2Proof.Machine.execIneg x s
  | .iabs x => Sys2Proof.Machine.execIabs x s
  | .imin x => Sys2Proof.Machine.execImin x s
  | .iminI32Short x => Sys2Proof.Machine.execIminI32Short x s
  | .imax x => Sys2Proof.Machine.execImax x s
  | .imaxI32Short x => Sys2Proof.Machine.execImaxI32Short x s
  | .andBits x => Sys2Proof.Machine.execAndBits x s
  | .andShort x => Sys2Proof.Machine.execAndShort x s
  | .orBits x => Sys2Proof.Machine.execOrBits x s
  | .orShort x => Sys2Proof.Machine.execOrShort x s
  | .xorBits x => Sys2Proof.Machine.execXorBits x s
  | .xorShort x => Sys2Proof.Machine.execXorShort x s
  | .andn x => Sys2Proof.Machine.execAndn x s
  | .andnShort x => Sys2Proof.Machine.execAndnShort x s
  | .notBits x => Sys2Proof.Machine.execNotBits x s
  | .shl x => Sys2Proof.Machine.execShl x s
  | .shlShort x => Sys2Proof.Machine.execShlShort x s
  | .shr x => Sys2Proof.Machine.execShr x s
  | .shrShort x => Sys2Proof.Machine.execShrShort x s
  | .sar x => Sys2Proof.Machine.execSar x s
  | .sarShort x => Sys2Proof.Machine.execSarShort x s
  | .rotl x => Sys2Proof.Machine.execRotl x s
  | .bfx x => Sys2Proof.Machine.execBfx x s
  | .bfi x => Sys2Proof.Machine.execBfi x s
  | .popc x => Sys2Proof.Machine.execPopc x s
  | .clz x => Sys2Proof.Machine.execClz x s
  | .brev x => Sys2Proof.Machine.execBrev x s
  | .lea x => Sys2Proof.Machine.execLea x s
  | .leaShort x => Sys2Proof.Machine.execLeaShort x s
  | .mov x => Sys2Proof.Machine.execMov x s
  | .movShort x => Sys2Proof.Machine.execMovShort x s
  | .sel x => Sys2Proof.Machine.execSel x s
  | .icmp x => Sys2Proof.Machine.execIcmp x s
  | .fadd x => Sys2Proof.Machine.execFadd x s
  | .faddF32Short x => Sys2Proof.Machine.execFaddF32Short x s
  | .faddF16x2Short x => Sys2Proof.Machine.execFaddF16x2Short x s
  | .faddBf16x2Short x => Sys2Proof.Machine.execFaddBf16x2Short x s
  | .fsub x => Sys2Proof.Machine.execFsub x s
  | .fsubF32Short x => Sys2Proof.Machine.execFsubF32Short x s
  | .fmul x => Sys2Proof.Machine.execFmul x s
  | .fmulF32Short x => Sys2Proof.Machine.execFmulF32Short x s
  | .fmulF16x2Short x => Sys2Proof.Machine.execFmulF16x2Short x s
  | .fmulBf16x2Short x => Sys2Proof.Machine.execFmulBf16x2Short x s
  | .ffma x => Sys2Proof.Machine.execFfma x s
  | .fmin x => Sys2Proof.Machine.execFmin x s
  | .fminF32Short x => Sys2Proof.Machine.execFminF32Short x s
  | .fmax x => Sys2Proof.Machine.execFmax x s
  | .fmaxF32Short x => Sys2Proof.Machine.execFmaxF32Short x s
  | .fcmp x => Sys2Proof.Machine.execFcmp x s
  | .fclass x => Sys2Proof.Machine.execFclass x s
  | .frnd x => Sys2Proof.Machine.execFrnd x s
  | .fcvt x => Sys2Proof.Machine.execFcvt x s
  | .icvtf x => Sys2Proof.Machine.execIcvtf x s
  | .fcvti x => Sys2Proof.Machine.execFcvti x s
  | .fdot2 x => Sys2Proof.Machine.execFdot2 x s
  | .fscale x => Sys2Proof.Machine.execFscale x s
  | .cvtn x => Sys2Proof.Machine.execCvtn x s
  | .cvtw x => Sys2Proof.Machine.execCvtw x s
  | .bscale x => Sys2Proof.Machine.execBscale x s
  | .pack x => Sys2Proof.Machine.execPack x s
  | .packI4x x => Sys2Proof.Machine.execPackI4x x s
  | .unpack x => Sys2Proof.Machine.execUnpack x s
  | .resrd x => Sys2Proof.Machine.execResrd x s
  | .reswr x => Sys2Proof.Machine.execReswr x s
  | .rcp x => Sys2Proof.Machine.execRcp x s
  | .rsq x => Sys2Proof.Machine.execRsq x s
  | .sqrt x => Sys2Proof.Machine.execSqrt x s
  | .fdiv x => Sys2Proof.Machine.execFdiv x s
  | .exp2 x => Sys2Proof.Machine.execExp2 x s
  | .log2 x => Sys2Proof.Machine.execLog2 x s
  | .sin x => Sys2Proof.Machine.execSin x s
  | .cos x => Sys2Proof.Machine.execCos x s
  | .tanh x => Sys2Proof.Machine.execTanh x s
  | .gori2 x => Sys2Proof.Machine.execGori2 x s
  | .gori3 x => Sys2Proof.Machine.execGori3 x s
  | .ginc x => Sys2Proof.Machine.execGinc x s
  | .gins x => Sys2Proof.Machine.execGins x s
  | .gsegx x => Sys2Proof.Machine.execGsegx x s
  | .geomEscalationComplete stove => Sys2Proof.Machine.execGeomEscalationComplete stove s
  | .plop x => Sys2Proof.Machine.execPlop x s
  | .pmovGet x => Sys2Proof.Machine.execPmovGet x s
  | .pmovSet x => Sys2Proof.Machine.execPmovSet x s
  | .pcnt x => Sys2Proof.Machine.execPcnt x s
  | .pmask x => Sys2Proof.Machine.execPmask x s
  | .mpred x => Sys2Proof.Machine.execMpred x s
  | .peek x => Sys2Proof.Machine.execPeek x s
  | .vote x => Sys2Proof.Machine.execVote x s
  | .voteBal x => Sys2Proof.Machine.execVoteBal x s
  | .matchLanes x => Sys2Proof.Machine.execMatchLanes x s
  | .redux x => Sys2Proof.Machine.execRedux x s
  | .scan x => Sys2Proof.Machine.execScan x s
  | .conv x => Sys2Proof.Machine.execConv x s
  | .rendezvousResultWrite r pc => Sys2Proof.Machine.execRendezvousResultWrite r pc s
  | .bra x => Sys2Proof.Machine.execBra x s
  | .bru x => Sys2Proof.Machine.execBru x s
  | .jmpi x => Sys2Proof.Machine.execJmpi x s
  | .call x => Sys2Proof.Machine.execCall x s
  | .calli x => Sys2Proof.Machine.execCalli x s
  | .ret x => Sys2Proof.Machine.execRet x s
  | .unwind x => Sys2Proof.Machine.execUnwind x s
  | .spawn x => Sys2Proof.Machine.execSpawn x s
  | .join x => Sys2Proof.Machine.execJoin x s
  | .bar x => Sys2Proof.Machine.execBar x s
  | .bara x => Sys2Proof.Machine.execBara x s
  | .barw x => Sys2Proof.Machine.execBarw x s
  | .yield x => Sys2Proof.Machine.execYield x s
  | .exitLanes x => Sys2Proof.Machine.execExitLanes x s
  | .nop x => Sys2Proof.Machine.execNop x s
  | .tilerel x => Sys2Proof.Machine.execTilerel x s
  | .launch x => Sys2Proof.Machine.execLaunch x s
  | .commit x => Sys2Proof.Machine.execCommit x s
  | .ld x => Sys2Proof.Machine.execLd x s
  | .st x => Sys2Proof.Machine.execSt x s
  | .ldc x => Sys2Proof.Machine.execLdc x s
  | .atom x => Sys2Proof.Machine.execAtom x s
  | .red x => Sys2Proof.Machine.execRed x s
  | .fence x => Sys2Proof.Machine.execFence x s
  | .pfenceGen x => Sys2Proof.Machine.execPfenceGen x s
  | .pfenceConst x => Sys2Proof.Machine.execPfenceConst x s
  | .pfenceTile x => Sys2Proof.Machine.execPfenceTile x s
  | .pref x => Sys2Proof.Machine.execPref x s
  | .cinv x => Sys2Proof.Machine.execCinv x s
  | .awset x => Sys2Proof.Machine.execAwset x s
  | .awwait x => Sys2Proof.Machine.execAwwait x s
  | .awadd x => Sys2Proof.Machine.execAwadd x s
  | .awwaitReturn r lane => Sys2Proof.Machine.execAwwaitReturn r lane s
  | .postedWriteApply stove idx => Sys2Proof.Machine.execPostedWriteApply stove idx s
  | .tidset x => Sys2Proof.Machine.execTidset x s
  | .tidclr x => Sys2Proof.Machine.execTidclr x s
  | .tcopy x => Sys2Proof.Machine.execTcopy x s
  | .gather x => Sys2Proof.Machine.execGather x s
  | .scatter x => Sys2Proof.Machine.execScatter x s
  | .stream x => Sys2Proof.Machine.execStream x s
  | .collAllred x => Sys2Proof.Machine.execCollAllred x s
  | .collRedsc x => Sys2Proof.Machine.execCollRedsc x s
  | .collAllga x => Sys2Proof.Machine.execCollAllga x s
  | .collA2a x => Sys2Proof.Machine.execCollA2a x s
  | .collBcast x => Sys2Proof.Machine.execCollBcast x s
  | .waitc x => Sys2Proof.Machine.execWaitc x s
  | .ectlStat x => Sys2Proof.Machine.execEctlStat x s
  | .ectlClr x => Sys2Proof.Machine.execEctlClr x s
  | .ectlCncl x => Sys2Proof.Machine.execEctlCncl x s
  | .ectlCnt x => Sys2Proof.Machine.execEctlCnt x s
  | .engineUnitComplete r cls peers => Sys2Proof.Machine.execEngineUnitComplete r cls peers s
  | .engineOperationComplete r cls ext => Sys2Proof.Machine.execEngineOperationComplete r cls ext s
  | .gang x => Sys2Proof.Machine.execGang x s
  | .osclaim x => Sys2Proof.Machine.execOsclaim x s
  | .osrel x => Sys2Proof.Machine.execOsrel x s
  | .mma x => Sys2Proof.Machine.execMma x s
  | .mmaH x => Sys2Proof.Machine.execMmaH x s
  | .mmas x => Sys2Proof.Machine.execMmas x s
  | .mmab x => Sys2Proof.Machine.execMmab x s
  | .accz x => Sys2Proof.Machine.execAccz x s
  | .accld x => Sys2Proof.Machine.execAccld x s
  | .accst x => Sys2Proof.Machine.execAccst x s
  | .accmvRd x => Sys2Proof.Machine.execAccmvRd x s
  | .accmvWr x => Sys2Proof.Machine.execAccmvWr x s
  | .trap x => Sys2Proof.Machine.execTrap x s
  | .rth x => Sys2Proof.Machine.execRth x s
  | .syscall x => Sys2Proof.Machine.execSyscall x s
  | .syscallResult part seq val => Sys2Proof.Machine.execSyscallResult part seq val s
  | .rdsr x => Sys2Proof.Machine.execRdsr x s
  | .rdsrCyclo x => Sys2Proof.Machine.execRdsrCyclo x s
  | .wrsr x => Sys2Proof.Machine.execWrsr x s
  | .wrsrYdl x => Sys2Proof.Machine.execWrsrYdl x s
  | .bkpt x => Sys2Proof.Machine.execBkpt x s
  | .causeDelivery r => Sys2Proof.Machine.execCauseDelivery r s
  | .handlerTimeout r => Sys2Proof.Machine.execHandlerTimeout r s
  | .frameGrant stove => Sys2Proof.Machine.execFrameGrant stove s
  | .refillComplete r => Sys2Proof.Machine.execRefillComplete r s
  | .escapeSpillStart stove => Sys2Proof.Machine.execEscapeSpillStart stove s
  | .escapeSpillFrameDone stove => Sys2Proof.Machine.execEscapeSpillFrameDone stove s
  | .flueDrainComplete r => Sys2Proof.Machine.execFlueDrainComplete r s
  | .flueRecall stove group gflue => Sys2Proof.Machine.execFlueRecall stove group gflue s
  | .sliceEnd part => Sys2Proof.Machine.execSliceEnd part s
  | .yieldDeadlineExpiry r => Sys2Proof.Machine.execYieldDeadlineExpiry r s
  | .slotPreemption part => Sys2Proof.Machine.execSlotPreemption part s
  | .wholeGroupSwitchOut stove group => Sys2Proof.Machine.execWholeGroupSwitchOut stove group s
  | .stovePop stove => Sys2Proof.Machine.execStovePop stove s
  | .affinityLapse part kslot entry => Sys2Proof.Machine.execAffinityLapse part kslot entry s
  | .gridRecordFormation part kslot => Sys2Proof.Machine.execGridRecordFormation part kslot s
  | .kernelTake cid q => Sys2Proof.Machine.execKernelTake cid q s
  | .kernelStart part kslot => Sys2Proof.Machine.execKernelStart part kslot s
  | .kernelRetire part kslot => Sys2Proof.Machine.execKernelRetire part kslot s
  | .kick cid q tail => Sys2Proof.Machine.execKick cid q tail s
  | .queueReset cid q val => Sys2Proof.Machine.execQueueReset cid q val s
  | .kickPageIgnoredWrite cid q off size val => Sys2Proof.Machine.execKickPageIgnoredWrite cid q off size val s
  | .queueBind cid q => Sys2Proof.Machine.execQueueBind cid q s
  | .queueUnbind cid q => Sys2Proof.Machine.execQueueUnbind cid q s
  | .watchdogExpiry cid q => Sys2Proof.Machine.execWatchdogExpiry cid q s
  | .grant cid mask => Sys2Proof.Machine.execGrant cid mask s
  | .encnew x => Sys2Proof.Machine.execEncnew x s
  | .encin x => Sys2Proof.Machine.execEncin x s
  | .encout x => Sys2Proof.Machine.execEncout x s
  | .encsealSeal x => Sys2Proof.Machine.execEncsealSeal x s
  | .encsealUnseal x => Sys2Proof.Machine.execEncsealUnseal x s
  | .encsealDestroy x => Sys2Proof.Machine.execEncsealDestroy x s
  | .threadHostInterrupt hart => Sys2Proof.Machine.execThreadHostInterrupt hart s
  | .networkTagFailure p => Sys2Proof.Machine.execNetworkTagFailure p s
  | .mapPage c => Sys2Proof.Machine.execMapPage c s
  | .unmap c => Sys2Proof.Machine.execUnmap c s
  | .protect c => Sys2Proof.Machine.execProtect c s
  | .freePage c => Sys2Proof.Machine.execFreePage c s
  | .sharePage c => Sys2Proof.Machine.execSharePage c s
  | .unshare c => Sys2Proof.Machine.execUnshare c s
  | .attach c => Sys2Proof.Machine.execAttach c s
  | .walk c => Sys2Proof.Machine.execWalk c s
  | .demandZeroFill cid va stove => Sys2Proof.Machine.execDemandZeroFill cid va stove s
  | .pageMigration cid va frame => Sys2Proof.Machine.execPageMigration cid va frame s
  | .pageout cid va => Sys2Proof.Machine.execPageout cid va s
  | .pagein cid img => Sys2Proof.Machine.execPagein cid img s
  | .hostWrite req bytes => Sys2Proof.Machine.execHostWrite req bytes s
  | .hostRead req len => Sys2Proof.Machine.execHostRead req len s
  | .deviceDma port iface dma => Sys2Proof.Machine.execDeviceDma port iface dma s
  | .tdispBind port iface cid index ownerSession => Sys2Proof.Machine.execTdispBind port iface cid index ownerSession s
  | .flitReceive port flit => Sys2Proof.Machine.execFlitReceive port flit s
  | .keyUpdate cid roster => Sys2Proof.Machine.execKeyUpdate cid roster s
  | .keyingComplete cid roster peer => Sys2Proof.Machine.execKeyingComplete cid roster peer s
  | .keyingTimeout cid roster => Sys2Proof.Machine.execKeyingTimeout cid roster s
  | .keyingRetry cid roster => Sys2Proof.Machine.execKeyingRetry cid roster s
  | .peerReset cid roster => Sys2Proof.Machine.execPeerReset cid roster s
  | .readmit cid roster meash ownerSession => Sys2Proof.Machine.execReadmit cid roster meash ownerSession s
  | .getVersion conn => Sys2Proof.Machine.execGetVersion conn s
  | .getCapabilities conn caps => Sys2Proof.Machine.execGetCapabilities conn caps s
  | .negotiateAlgorithms conn offer => Sys2Proof.Machine.execNegotiateAlgorithms conn offer s
  | .getDigests conn => Sys2Proof.Machine.execGetDigests conn s
  | .getCertificate conn off len => Sys2Proof.Machine.execGetCertificate conn off len s
  | .challenge conn nonce cid => Sys2Proof.Machine.execChallenge conn nonce cid s
  | .getMeasurements conn cid => Sys2Proof.Machine.execGetMeasurements conn cid s
  | .keyExchange conn share => Sys2Proof.Machine.execKeyExchange conn share s
  | .finish conn verify => Sys2Proof.Machine.execFinish conn verify s
  | .keyUpdateRequest conn => Sys2Proof.Machine.execKeyUpdateRequest conn s
  | .endSession conn => Sys2Proof.Machine.execEndSession conn s
  | .pmuForward cid => Sys2Proof.Machine.execPmuForward cid s
  | .formPartition part spec => Sys2Proof.Machine.execFormPartition part spec s
  | .partitionTestComplete part failed => Sys2Proof.Machine.execPartitionTestComplete part failed s
  | .drainPartition part => Sys2Proof.Machine.execDrainPartition part s
  | .drainComplete part => Sys2Proof.Machine.execDrainComplete part s
  | .resetComplete part failed => Sys2Proof.Machine.execResetComplete part failed s
  | .setclk part hearth mhz => Sys2Proof.Machine.execSetclk part hearth mhz s
  | .powerExcessPredicted => Sys2Proof.Machine.execPowerExcessPredicted s
  | .powerRecoveryStep => Sys2Proof.Machine.execPowerRecoveryStep s
  | .junctionOvertemp die => Sys2Proof.Machine.execJunctionOvertemp die s
  | .thermalReturnStep die => Sys2Proof.Machine.execThermalReturnStep die s
  | .thermalTrip => Sys2Proof.Machine.execThermalTrip s
  | .packageReset => Sys2Proof.Machine.execPackageReset s
  | .stageComplete rep => Sys2Proof.Machine.execStageComplete rep s
  | .stageTimeout rep => Sys2Proof.Machine.execStageTimeout rep s
  | .heartbeatTimeout => Sys2Proof.Machine.execHeartbeatTimeout s
  | .serviceMachineCheck => Sys2Proof.Machine.execServiceMachineCheck s
  | .recover => Sys2Proof.Machine.execRecover s
  | .lockstepMismatch => Sys2Proof.Machine.execLockstepMismatch s
  | .recoveryTimeout => Sys2Proof.Machine.execRecoveryTimeout s
  | .firmwareLoad fw => Sys2Proof.Machine.execFirmwareLoad fw s
  | .testmode sig => Sys2Proof.Machine.execTestmode sig s
  | .instructionComplete r idx => Sys2Proof.Machine.execInstructionComplete r idx s
  | .applicationCoreAccess hart op => Sys2Proof.Machine.execApplicationCoreAccess hart op s
  | .threadFault hart => Sys2Proof.Machine.execThreadFault hart s
  | .hearthVoltageSettled hearth => Sys2Proof.Machine.execHearthVoltageSettled hearth s
  | .cidPurgeComplete cid => Sys2Proof.Machine.execCidPurgeComplete cid s

end Sys2Proof.Machine
end

