-- ==== Sys2Proof/Machine/Ready.lean ====
section
/-! DEFINITION. When a PC group is ready (05 R103): the lanes that wait for something else, and the instructions that wait at
issue (03 R72, R75, 07 R172, 08 R191, R192, R195, 09 R212, 10 R227, R245, R248, 11 R266, R270). -/

namespace Sys2Proof.Machine

/-! ### Lanes that wait -/

/-- Lanes that an AWWAIT without a flag holds (09 R221). -/
def Flue.awLanes (f : Flue) : LaneMask :=
  f.awaits.foldl (fun m a => if a.flag.isNone then m ||| laneBit a.lane else m) 0
/-- Lanes of a posted SYSCALL (11 R267). -/
def Flue.serviceLanes (f : Flue) : LaneMask := f.service.foldl (fun m c => m ||| c.lanes) 0

/-! ### Instructions that wait at issue -/

/-- The flag that an instruction selects counts 63 already (03 R75). -/
def flagFull (i : Issue) (f : Flue) (ins : Instr) : Bool :=
  match i.flag (flagSel ins) with
  | some n => 63 ≤ f.flagCount n
  | none => false

/-- The escalation unit lacks room for 32 more lanes (07 R172). -/
def escFull (s : State) (i : Issue) : Bool := 256 < (s.stove i.stove).esc.length + 32

/-- A SYS release whose writes to peers are not all acknowledged, once the region has committed (09 R212). -/
def peersWait (s : State) (f : Flue) : Bool := s.unacked f.cid && !s.peerLost f.cid && !f.regionOpen

/-- A releasing memory instruction waits. -/
def memWaits (s : State) (i : Issue) (f : Flue) (x : LArgs) : Bool :=
  i.active x.guard != 0 && releases x && mxScope x == 2 && peersWait s f

/-- An engine operation waits while its class counts 63 (10 R227). -/
def engWaits (i : Issue) (f : Flue) (x : LArgs) (cls : Nat) : Bool := i.active x.guard != 0 && 63 ≤ f.engCount cls

/-- A gang instruction waits while the latch holds eight other rendezvous (10 R248). -/
def latchWaits (s : State) (i : Issue) (f : Flue) (mask : Word) : Bool :=
  let latch := (s.stove i.stove).latch
  f.phase != .handler && mask != 0 && 8 ≤ latch.length &&
    !latch.any fun r => r.group == f.group && r.mask == mask && r.pc == i.pc && r.depth == f.curDepth

/-- A geometric instruction waits for room in the escalation unit. -/
def escWaits (s : State) (i : Issue) (ins : Instr) : Bool :=
  match ins with
  | .gori2 _ => escFull s i
  | .gori3 _ => escFull s i
  | .ginc _ => escFull s i
  | .gins _ => escFull s i
  | .gsegx _ => escFull s i
  | _ => false

/-- A flue has an operation outstanding that can raise a sticky flag: an instruction whose flags are still to come, STREAM, ACCST,
or an MMA with I4X operands (10 R241, R263, 11 R270). -/
def Flue.mayFlag (f : Flue) : Bool :=
  !f.quiet || f.allOps.any fun o => match o.instr with
    | .stream _ => true
    | .accst _ => true
    | .accld _ => true
    | .mma x => aTy x == 5 || bTy x == 5
    | .mmaH x => aTy x == 5 || bTy x == 5
    | .mmas x => aTy x == 5 || bTy x == 5
    | .mmab x => aTy x == 5 || bTy x == 5
    | _ => false

/-- The instruction waits at issue for something that the other group of its cycle may take from it. -/
def insHeld (s : State) (i : Issue) (f : Flue) (ins : Instr) : Bool :=
  flagFull i f ins || match ins with
  | .st x => memWaits s i f x
  | .atom x => memWaits s i f x
  | .red x => memWaits s i f x
  | .fence x => memWaits s i f x
  | .launch x => i.groupActs x.guard != 0 && f.phase != .handler &&
      (peersWait s f || match s.queue? f.cid ((i.src x.lit).word x.b (lowLane i.lanes)).toNat with
        | some q => q.lfeed && decide (q.size ≤ (q.tail - q.head).toNat) && !f.regionOpen
        | none => false)
  | .syscall x => i.groupActs x.guard != 0 && peersWait s f
  | .spawn x => i.active x.guard != 0 && f.phase != .handler &&
      (match s.kernel? f.part f.kslot with
        | some k => decide (k.freeEntries < if x.d.isScalar then 1 else laneCount (i.active x.guard))
        | none => true)
  | .barw x => i.groupActs x.guard != 0 && f.phase != .handler && barwWaits s i.stove f x && !f.regionOpen
  | .waitc x => i.groupActs x.guard != 0 && decide (mxN x < f.engCount (mxCls x))
  | .rth x => i.groupActs x.guard != 0 && f.phase == .handler && !f.idle
  | .rdsr x => x.idx.toNat == 0x13 && f.mayFlag
  | .wrsr x => x.idx.toNat == 0x13 && f.mayFlag
  | .tcopy x => engWaits i f x 0
  | .stream x => engWaits i f x 0
  | .gather x => engWaits i f x 2
  | .scatter x => engWaits i f x 2
  | .collAllred x => engWaits i f x 3
  | .collRedsc x => engWaits i f x 3
  | .collAllga x => engWaits i f x 3
  | .collA2a x => engWaits i f x 3
  | .collBcast x => engWaits i f x 3
  | .accmvRd x => engWaits i f x 1
  | .accmvWr x => engWaits i f x 1
  | .gang x => latchWaits s i f (if i.groupActs x.guard = 0 then f.gang else (gangMask x i f s).getD 0)
  | .osclaim _ => latchWaits s i f f.gang
  | .osrel _ => latchWaits s i f f.gang
  | .mma x => latchWaits s i f f.gang || engWaits i f x 1
  | .mmaH x => latchWaits s i f f.gang || engWaits i f x 1
  | .mmas x => latchWaits s i f f.gang || engWaits i f x 1
  | .mmab x => latchWaits s i f f.gang || engWaits i f x 1
  | .accz x => latchWaits s i f f.gang || engWaits i f x 1
  | .accld x => latchWaits s i f f.gang || engWaits i f x 1
  | .accst x => latchWaits s i f f.gang || engWaits i f x 1
  | _ => false

/-- The instruction waits at issue. -/
def insWaits (s : State) (i : Issue) (f : Flue) (ins : Instr) : Bool := escWaits s i ins || insHeld s i f ins

/-! ### Groups -/

/-- What a burner would issue for lanes that stand inside a clause: the instruction with its place, the flue as it stands
being what it reads. -/
def issueAt (s : State) (stove slot : Nat) (f : Flue) (lanes : LaneMask) (pc : DWord) : Option (Instr × Issue) :=
  (instrAt f pc).map fun r =>
    (r.1, { stove := stove, slot := slot, lanes := lanes, pc := pc, next := r.2.2.1, header := r.2.1.header, word := r.2.1.word,
            last := r.2.2.2, seed := s.freeIdx, view := f })

/-- The instruction behind a header may issue in the cycle in which its clause does (05 R103): the clause is tried on the state. -/
def State.firstReady (s : State) (stove slot : Nat) (lanes : LaneMask) (pc : DWord) (h : Word) (ws : List Word) : Bool :=
  let s1 := s.openClause stove slot lanes pc h ws
  match s1.flue? stove slot with
  | none => false
  | some g => match issueAt s1 stove slot g lanes (pc + 4) with
    | some (ins, i) => !insWaits s1 i g ins
    | none => false

/-- A group of lanes that stand together is ready (05 R103): inside a clause its instruction may issue, and at a header its clause
and the first instruction may, which no held lane and no busy flag of its WAIT holds back (03 R72, R73). A fetch fault or a fault
of the clause is met whatever WAIT names (04 R97). -/
def State.groupReady (s : State) (stove slot : Nat) (f : Flue) (lanes : LaneMask) (pc : DWord) : Bool :=
  match issueAt s stove slot f lanes pc with
  | some (ins, i) => !insWaits s i f ins
  | none =>
    f.heldLanes &&& lanes == 0 &&
    match (s.fetch stove f.cid pc).1 with
    | .words h ws => (clauseError h ws pc f.demand).isSome ||
        (!f.waitBusy h && ((hdrYp h && f.sliceEnd) || s.firstReady stove slot lanes pc h (ws.take (hdrCount h))))
    | .cause _ => true
    | .wait => true

/-- The PC groups of a flue: address and lanes, in the order of their lowest lane. -/
def Flue.groups (f : Flue) : List (DWord × LaneMask) :=
  (lanesOf f.eligible).foldl (fun gs l =>
    if gs.any fun g => g.1 == f.pcOf l then gs else gs ++ [(f.pcOf l, f.lanesAt (f.pcOf l))]) []

/-- The PC groups that are ready: lanes at the same address are one group, which is not ready while one of its lanes escalates, waits
at an AWWAIT, for a posted call or for an MMA.H (05 R103, R108, 07 R172); lanes that have arrived at a rendezvous, a barrier or the
gang latch leave those that have still to arrive there. -/
def State.readyGroups (s : State) (stove slot : Nat) (f : Flue) : List (DWord × LaneMask) :=
  if !f.mayIssue then []
  else
    let whole := f.escLanes ||| f.awLanes ||| f.serviceLanes ||| f.mmahWait
    let arrived := f.rvLanes ||| s.barWait stove f ||| (s.stove stove).latchLanes slot
    ((f.groups.filter fun g => g.2 &&& whole == 0).map fun g => (g.1, g.2 &&& ~~~arrived)).filter fun g =>
      g.2 != 0 && s.groupReady stove slot f g.2 g.1

/-- The flue is ready (05 R103). -/
def State.flueReady (s : State) (stove slot : Nat) (f : Flue) : Bool := !(s.readyGroups stove slot f).isEmpty

end Sys2Proof.Machine
end

