-- ==== Sys2Proof/Machine/Turn.lean ====
section
/-! DEFINITION. What a turn of the schedule does: a burner's issue opportunity (05 R103-R107, 08 R185), a cycle of a clock island
(05 R118, 13 R314, 15 R354, 17 R379, 22 R445), an application core's fetch, an event. -/

namespace Sys2Proof.Machine

/-! ### The flue that a burner selects (05 R104) -/

/-- The slots that a burner serves (01 R23). -/
def burnerSlots (st : Stove) (burner : Nat) : List (Nat × Flue) := st.flues.filter fun p => p.1 % 4 == burner

/-- Whether a flue goes before another: handler mode first, then the flue that issued least recently; otherwise the higher
priority, then the flue dispatched earlier. On a tie the lower slot stands. -/
def goesBefore (a b : Nat × Flue) : Bool :=
  match a.2.phase == .handler, b.2.phase == .handler with
  | true, false => true
  | false, true => false
  | true, true => a.2.lastIssue < b.2.lastIssue || (a.2.lastIssue == b.2.lastIssue && a.1 < b.1)
  | false, false => b.2.prio < a.2.prio ||
      (a.2.prio == b.2.prio && (a.2.stamp < b.2.stamp || (a.2.stamp == b.2.stamp && a.1 < b.1)))

/-- The ready flue that a burner takes. -/
def State.pickFlue (s : State) (stove burner : Nat) : Option (Nat × Flue) :=
  ((burnerSlots (s.stove stove) burner).filter fun p => s.flueReady stove p.1 p.2).foldl (fun m p => match m with
    | none => some p
    | some q => if goesBefore p q then some p else some q) none

/-! ### The PC groups that it takes (05 R105, R106, 08 R185) -/

/-- The promotion stamp of a group: the earliest of its lanes', 0 when it is not promoted. -/
def Flue.promotedAt (f : Flue) (lanes : LaneMask) : Nat :=
  (lanesOf lanes).foldl (fun m l =>
    let p := Tab.getD f.promoted l 0
    if p = 0 then m else if m = 0 then p else min m p) 0

/-- A group has more lanes than another, or as many at a lower address. -/
def larger (a b : DWord × LaneMask) : Bool :=
  laneCount b.2 < laneCount a.2 || (laneCount a.2 == laneCount b.2 && a.1.toNat < b.1.toNat)

/-- The best of some groups by an order. -/
def best (r : DWord × LaneMask → DWord × LaneMask → Bool) (gs : List (DWord × LaneMask)) : Option (DWord × LaneMask) :=
  gs.foldl (fun m g => match m with
    | none => some g
    | some b => if r g b then some g else some b) none

/-- The first group: the one promoted earliest, or with none promoted the largest. -/
def Flue.firstGroup (f : Flue) (gs : List (DWord × LaneMask)) : Option (DWord × LaneMask) :=
  let pr := gs.filter fun g => f.promotedAt g.2 != 0
  if pr.isEmpty then best larger gs
  else best (fun a b => f.promotedAt a.2 < f.promotedAt b.2 ||
    (f.promotedAt a.2 == f.promotedAt b.2 && a.1.toNat < b.1.toNat)) pr

/-- Classes of which one burner issues only one instruction in a cycle (05 R106). -/
def soloClass (i : Instr) : Bool := [1, 2, 3, 6].contains (instrClass i)
/-- CALL, CALLI, RET and UNWIND (08 R185). -/
def frameOp : Instr → Bool
  | .call _ => true
  | .calli _ => true
  | .ret _ => true
  | .unwind _ => true
  | _ => false
/-- UNWIND. -/
def isUnwind : Instr → Bool
  | .unwind _ => true
  | _ => false

/-- Two instructions issue together. -/
def pairable (a b : Option Instr) : Bool :=
  match a, b with
  | some x, some y => !(soloClass x && soloClass y) && !(frameOp x && frameOp y) && !isUnwind x && !isUnwind y
  | _, _ => true

/-- The groups that issue: promoted groups in the order in which they were promoted, before the largest (05 R105). -/
def State.chosen (s : State) (stove : Nat) (f : Flue) (gs : List (DWord × LaneMask)) : List (DWord × LaneMask) :=
  match f.firstGroup gs with
  | none => []
  | some a => match f.firstGroup (gs.filter fun g => g.1 != a.1) with
    | none => [a]
    | some b => if pairable (s.peekAt stove f a.1) (s.peekAt stove f b.1) then [a, b] else [a]

/-! ### Issue -/

/-- Chain a step. -/
def andThen (r : Res) (k : State → Res) : Res :=
  match r with
  | .next s => k s
  | .fault e => .fault e
  | .refused e => .refused e

/-- The clauses of the groups that stand at headers issue (03 R56); one that faults does not keep the other from issuing
(04 R97). -/
def openAll (stove slot : Nat) : List (DWord × LaneMask) → State → Res
  | [], s => .next s
  | g :: gs, s =>
    match s.flue? stove slot with
    | none => .next s
    | some f =>
      if (instrAt f g.1).isSome then openAll stove slot gs s
      else andThen (s.takeClause ⟨stove, slot⟩ g.1) (openAll stove slot gs)

/-- Where the instruction of a group stands now: where it stood, or behind its header once its clause has issued. -/
def Flue.standsAt (f : Flue) (g : DWord × LaneMask) : DWord := if (instrAt f g.1).isSome then g.1 else g.1 + 4

/-- The instruction that one group issues now, if it does: every operand is read in `view` (06 R129), and an instruction that the
other group has taken the room from waits after all. -/
def State.taken (s : State) (stove slot : Nat) (view : Flue) (g : DWord × LaneMask) : Option (Instr × Issue) :=
  match s.flue? stove slot with
  | none => none
  | some f =>
    let pc := view.standsAt g
    if !(lanesOf g.2).all (fun l => view.pcOf l == pc) then none
    else (issueAt s stove slot view g.2 pc).filter fun r => !insHeld s r.2 f r.1

/-- An instruction issues. -/
def issueOne (ins : Instr) (i : Issue) (s : State) : Res :=
  let s1 := { s.count i.view.cid 2 with issue := some i, freeIdx := s.freeIdx + 1 }
  andThen (exec ins s1) fun t => .next { t with issue := none }

/-- The groups that still have to issue, those that have issued, and the state. -/
structure Round where
  issued : List (DWord × LaneMask)
  state : State

/-- The instructions of the chosen groups issue. -/
def runAll (stove slot : Nat) (view : Flue) : List (DWord × LaneMask) → Round → Host.Outcome Round Fault Refusal
  | [], r => .next r
  | g :: gs, r =>
    match r.state.taken stove slot view g with
    | none => runAll stove slot view gs r
    | some (ins, i) => match issueOne ins i r.state with
      | .next t => runAll stove slot view gs ⟨r.issued ++ [g], t⟩
      | .fault e => .fault e
      | .refused e => .refused e

/-- Take the words of some lanes out of a table. -/
def dropKeys {α : Type} (t : Tab α) (m : LaneMask) : Tab α := t.filter fun p => !m.getLsbD p.1

/-- Counts of groups passed over (05 R107): groups whose instruction issued start again, ready groups whose instruction did not
count one more, up to promotion. `f` is the flue as the burner found it. -/
def Flue.passOver (f : Flue) (ready issued : List (DWord × LaneMask)) (stamp : Nat) (g : Flue) : Flue :=
  let done := issued.foldl (fun m x => m ||| x.2) 0
  let g0 := { g with passed := dropKeys g.passed done, promoted := dropKeys g.promoted done }
  (ready.filter fun x => !issued.any fun y => y.1 == x.1).foldl (fun g x =>
    let n := (lanesOf x.2).foldl (fun m l => max m (SMap.get f.passed l).toNat) 0
    let p := f.promotedAt x.2
    let g1 := { g with passed := SMap.setAll g.passed ((lanesOf x.2).map fun l => (l, BitVec.ofNat 7 (min (n + 1) 64))) }
    let q := if p = 0 && 64 ≤ n + 1 then stamp + 1 else p
    if q = 0 then g1
    else { g1 with promoted := (lanesOf x.2).foldl (fun t l => Tab.put t l q) g1.promoted }) g0

/-- What the flue keeps of an issue opportunity: latches of lanes whose group changed (05 R111), counts, the order of issue, and
rendezvous that nothing can complete any more (08 R177). -/
def State.afterIssue (s : State) (stove slot : Nat) (f : Flue) (ready issued : List (DWord × LaneMask)) : State :=
  let s1 := (s.tick).modFlue stove slot fun g =>
    { (f.passOver ready issued s.stamp (Flue.settle f g)).checkStuck with lastIssue := s.stamp + 1 }
  s1.setStove stove { s1.stove stove with idle := 0 }

/-- Whether each element of the results under way to a flue that is about to issue has been written yet is open (03 R74): a free
choice for each. -/
def State.trickle (s : State) (stove slot : Nat) : State :=
  match s.flue? stove slot with
  | none => s
  | some f =>
    let q := f.outs.zipIdx.foldl (fun (a : Flue × Nat) (p : Outstanding × Nat) =>
      (List.range p.1.writes.length).reverse.foldl (fun (a : Flue × Nat) k =>
        (if Config.freeBool a.2 then a.1.trickle p.2 k else a.1, a.2 + 1)) a) (f, s.freeIdx)
    { s.setFlue stove slot q.1 with freeIdx := q.2 }

/-- One element of an ACCMV.RD is written ahead of the rest (03 R74). -/
def Flue.trickleAcc (f : Flue) (op : EngineOp) (k : Nat) (acc : SMap 32) (base : Nat) : Flue :=
  match op.writes[k]? with
  | none => f
  | some w =>
    let left := fun (o : EngineOp) => if o.uid = op.uid then { o with writes := o.writes.eraseIdx k } else o
    ({ f with ops := Tab.mapVals (fun (l : List EngineOp) => l.map left) f.ops } : Flue).writeLate op.seed
      [{ w with val := SMap.get acc (1024 * base + w.val.toNat) }]

/-- The same of the ACCMV.RD that the flue's matrix operations have come to (10 R260), all of whose elements but one may have been written. -/
def State.trickleAcc (s : State) (stove slot : Nat) : State :=
  match s.flue? stove slot with
  | none => s
  | some f => match f.headOp 1 with
    | none => s
    | some op =>
      if op.writes.length ≤ 1 then s
      else
        let v := s.seenBy stove f op
        let q := (List.range op.writes.length).reverse.foldl (fun (a : Flue × Nat) k => match a.1.headOp 1 with
          | some o => (if Config.freeBool a.2 && 1 < o.writes.length then a.1.trickleAcc o k (v.stove stove).acc (s.accBase stove f) else a.1, a.2 + 1)
          | none => a) (f, v.freeIdx)
        { s.setFlue stove slot q.1 with freeIdx := q.2 }

/-- A burner's issue opportunity: flues that wait for a page or for ring room leave their slots, and the ready flue that the
burner takes issues one or two instructions: it may find elements of late results written that nothing has waited for. Without a
ready flue nothing happens. -/
def issueTurn (stove burner : Nat) (s : State) : Res :=
  let s0 := (burnerSlots (s.stove stove) burner).foldl (fun s p =>
    if p.2.pageWait.isSome || p.2.ringWait then s.waitOut stove p.1 else s) s
  let s1 := (burnerSlots (s0.stove stove) burner).foldl (fun s p => s.modFlue stove p.1 Flue.normalise) s0
  match s1.pickFlue stove burner with
  | none => .next s1
  | some (slot, f) =>
    let ready := s1.readyGroups stove slot f
    let gs := s1.chosen stove f ready
    andThen (openAll stove slot gs (((s1.trickle stove slot).trickleAcc stove slot).count f.cid 1)) fun s2 =>
      match s2.flue? stove slot with
      | none => .next s2
      | some view => match runAll stove slot view gs ⟨[], s2⟩ with
        | .next r => .next (r.state.afterIssue stove slot f ready r.issued)
        | .fault e => .fault e
        | .refused e => .refused e

/-! ### Clock islands -/

/-- A flue counts an island cycle: its yield counter outside handler mode (13 R314), and the time since a slice end that has not
taken it out yet (13 R317). -/
def Flue.cycle (f : Flue) : Flue :=
  { f with ycount := if f.phase = .handler then f.ycount else f.ycount + 1
           hlimit := if f.sliceEnd then f.hlimit + 1 else f.hlimit }

/-- A flue waits for frame room (05 R118). -/
def Flue.waitsRoom (f : Flue) : Bool := f.phase == .frameWait || f.phase == .refillWait

/-- A cycle of a hearth's island. -/
def hearthCycle (h : Nat) (s : State) : State :=
  let x := s.hearth h
  let s1 := s.setHearth h { x with cycles := x.cycles + 1 }
  s1.mapStoves fun n st =>
    if hearthOf n ≠ h then st
    else
      let busy := st.flues.any fun p => s1.flueReady n p.1 p.2
      let full := st.flues.any fun p => p.2.waitsRoom
      { st with flues := Tab.mapVals Flue.cycle st.flues, idle := if !busy && full then st.idle + 1 else 0 }

/-- A queue's watchdog counts a cycle in which a group of the queue is resident (15 R354). -/
def State.watchQueue (s : State) (cid q : Nat) (x : Queue) : Queue :=
  if x.state == .bound && x.wdog != 0 && s.stoves.any (fun st => st.2.groups.any fun g => g.2.cid == cid && g.2.queue == q)
  then { x with wcount := x.wcount + 1 } else x

/-- A cycle of the control island: ready entries age (17 R379; those of a partition that drains do not, 21 R439), a new round of pops starts
(R380), interfaces that are locked start, watchdogs count, the firmware posts its heartbeat or does not, and a recovery may complete (22
R445; assumption 27). -/
def controlCycle (s : State) : State :=
  let older := fun (r : RecEntry) =>
    if r.record.ready then { r with age := r.age + 1, record := { r.record with affLost := r.record.affLost || 2047 ≤ r.age } } else r
  let ageKernel := fun (k : Kernel) => { k with records := Tab.mapVals older k.records }
  let ageGroup := fun (w : SwitchedGroup) => { w with age := w.age + 1 }
  let agePart := fun (p : Partition) =>
    { p with kernels := Tab.mapVals ageKernel p.kernels
             switched := if p.state = .running then p.switched.map ageGroup else p.switched
             popNext := 0
             sliceAge := if p.state == .running then p.sliceAge + 1 else 0 }
  let watch := fun (c : Nat × Context) =>
    (c.1, { c.2 with queues := c.2.queues.map fun (q : Nat × Queue) => (q.1, s.watchQueue c.1 q.1 q.2) })
  let s1 := { s with parts := Tab.mapVals agePart s.parts, ctxs := if s.fw.frozen then s.ctxs else s.ctxs.map watch }
  let b := s1.startIfaces.sealOn.takeBool
  let s2 := b.2
  if s2.fw.frozen then
    if b.1 then s2.recovered else { s2 with fw := { s2.fw with recoverAge := s2.fw.recoverAge + 1 } }
  else { s2 with fw := { s2.fw with heartbeat := if b.1 then 0 else s2.fw.heartbeat + 1 } }

/-- A cycle of an island (01 R15): hearths 0 to 63, the control island 64, fabric 65 to 72, I/O 73 to 76. -/
def cycleTurn (island : Nat) (s : State) : State :=
  let s1 : State := { s with islands := SMap.set s.islands island (SMap.get s.islands island + 1) }
  if island < 64 then hearthCycle island s else if island = 64 then controlCycle s1 else if island < 77 then s1 else s

/-! ### Application cores -/

/-- The word that a hart fetches: of its context's memory, or outside every context of the free pages. -/
def State.hartWord (s : State) (h : Nat) : DevRes Word × State :=
  let x := s.hart h
  let q := s.coreAt x x.pc 4 .fetch
  match q.1 with
  | .ok pa => match paKind pa with
    | .hbm => (.ok (Memory.read4 q.2.mem pa), q.2)
    | _ =>
      let r := q.2.coreAsk x.cid pa 4
      (.ok (BitVec.ofNat 32 (leNat r.1)), r.2)
  | .cause c => (.cause c, q.2)
  | .wait => (.wait, s.askPage x.cid x.pc)

/-- The hart stands at an ECALL that calls a page service (19 R410): it waits there for the service's answer. -/
def Hart.callsPages (x : Hart) (w : Word) : Bool :=
  w == 0x73 && (x.mode == .vs || x.mode == .vu) && x.inside.isSome && SMap.get x.x 17 / 256 == 0x504C01#64 &&
    isPageService ((SMap.get x.x 17).setWidth 16)

/-- An application core executes the enclave instruction at its pc (14 R333). A word of custom-0 that is none of them raises an
illegal-instruction exception; any other word belongs to RV64GCH, whose meaning no file of the spec gives. -/
def hartTurn (h : Nat) (s : State) : Res :=
  let q := s.hartWord h
  match q.1 with
  | .wait => .next q.2
  | .cause _ => .next (q.2.coreFault h)
  | .ok w =>
    if (s.hart h).callsPages w then .next q.2
    else if w.extractLsb' 0 7 != 0x0B#7 then .refused (.baseInstruction w)
    else match decodeEnclave ((s.hart h).reg (w.extractLsb' 20 5)) w with
      | .error _ => .next (q.2.illegalInst h)
      | .ok i => andThen (exec i { q.2 with core := some h }) fun t => .next { t with core := none }

/-! ### A turn -/

/-- Take the next turn from the list, or a free one when the list is empty (assumption 2). -/
def State.nextTurn (s : State) : Turn × State :=
  match s.turns with
  | t :: ts => (t, { s with turns := ts })
  | [] => (Config.turn s.turnIdx, { s with turnIdx := s.turnIdx + 1 })

/-- What a turn does. -/
def runTurn (t : Turn) (s : State) : Res :=
  match t with
  | .issue stove burner => issueTurn stove burner s
  | .cycle island => .next (cycleTurn island s)
  | .hart h => if h < 16 then hartTurn h s else .next s
  | .event i => exec i s

end Sys2Proof.Machine
end

