-- ==== Sys2Proof/Machine/Step.lean ====
section
/-! DEFINITION. One step of the machine: the next turn of the schedule. And the state in which the next step runs a given
instruction (assumption 28: how a program comes to run). -/

namespace Sys2Proof.Machine

/-- One step. -/
def step (s : State) : Host.Outcome State Fault Refusal :=
  let n := s.nextTurn
  runTurn n.1 n.2

/-! ### A placed instruction -/

/-- The physical page at which the placed program's page tables begin: five tables and then the code page. -/
def placedPa : Nat := 0x60000000
/-- The virtual address of the placed clause. -/
def placedVa : DWord := 0x10000#64

/-- Page tables that map the code page, and the bytes at its start. -/
def placeCode (m : Memory) (bs : List Byte) : Memory :=
  let entry := fun (m : Memory) (k : Nat) (idx flags : Nat) =>
    Memory.write m (placedPa + 4096 * k + 8 * idx) (leBytes 8 (placedPa + 4096 * (k + 1) + flags))
  let m1 := entry (entry (entry (entry m 0 0 1) 1 0 1) 2 0 1) 3 0 1
  Memory.write (entry m1 4 16 0x2B) (placedPa + 4096 * 5) bs

/-- The header of a clause that holds one instruction of `n` words: its class, COUNT, SETA 0 and SETB 1 (03 R52). -/
def placedHeader (i : Instr) (n : Nat) : Word :=
  BitVec.ofNat 32 (n + 16 * instrClass i + 1 * 2 ^ 23)

/-- The words that an instruction takes of those given. -/
def placedWords (ws : List Word) : List Word :=
  match decodeWords ws with
  | .ok (_, rest) => ws.take (ws.length - rest.length)
  | .error _ => ws.take 1

/-- A flue of one group of a running kernel, its lanes at the placed clause. -/
def placedStove (stamp : Nat) : Stove where
  flues := [(0, { cid := 1, stamp := stamp, frames := [{ uid := 0, demand := 64 }],
                  pc := (List.range 32).map fun l => (l, placedVa) })]
  groups := [(0, { cid := 1, nflue := 1 })]

/-- The state with a clause of one instruction placed for slot 0 of stove 0, which burner 0 issues next. -/
def State.placeFlue (s : State) (ws : List Word) : State :=
  let one := placedWords ws
  let h := match decodeWords ws with
    | .ok (i, _) => placedHeader i one.length
    | .error _ => placedHeader (.nop { guard := ⟨false, 0⟩, d := .zero, a := .zero, b := .zero, dem := 0, ofs := 0, lit := none }) 1
  let page := placedPa / 4096
  let own := (List.range 6).foldl (fun t k => Tab.put t (page + k) ({ owner := 1, state := .owned } : Own)) s.own
  let kernel : Kernel := { cid := 1, state := .running, launch := { flues := 1, demand := 64 } }
  let part : Partition := { state := .running, hearths := [0], kernels := [(0, kernel)] }
  let ctx : Context := { state := .running, ptroot := placedPa }
  { s with
    stage := 6
    mem := placeCode s.mem ((h :: one).flatMap bytesOfWord)
    own := own
    uncorr := s.uncorr.filter fun x => x.1 / 32 < page || page + 6 ≤ x.1 / 32
    side := s.side.filter fun x => x.1 / 32 < page || page + 6 ≤ x.1 / 32
    stoves := Tab.put s.stoves 0 (placedStove s.stamp)
    hearths := Tab.put s.hearths 0 { Tab.getD s.hearths 0 {} with tlb := [], walk := [] }
    remap := Tab.put s.remap 0 { part := 0, lhearth := 0 }
    parts := Tab.put s.parts 0 part
    ctxs := Tab.put s.ctxs 1 ctx
    turns := .issue 0 0 :: s.turns }

/-- The state with a word placed for hart 0, outside every context, which fetches next. -/
def State.placeHart (s : State) (w : Word) : State :=
  { s with
    mem := Memory.write s.mem placedPa (bytesOfWord w)
    own := Tab.del s.own (placedPa / 4096)
    side := s.side.filter fun x => x.1 != placedPa / 128
    harts := Tab.put s.harts 0 { Tab.getD s.harts 0 {} with pc := BitVec.ofNat 64 placedPa, inside := none }
    turns := .hart 0 :: s.turns }

/-- The state in which the next step fetches and runs an instruction given by its table word: an enclave word on hart 0, any
other in a clause of its own for a flue. -/
def State.withFetchWord (s : State) (nbits w : Nat) : State :=
  let ws := tableWords nbits w
  match decodeEnclave 0 (ws.headD 0) with
  | .ok _ => s.placeHart (ws.headD 0)
  | .error _ => s.placeFlue ws

end Sys2Proof.Machine
end

