-- ==== Sys2Proof/Safety.lean ====
section
/-! DEFINITION. The terms in which claims are stated: what it is for an instruction to issue, what an instruction of each shape does
and what it leaves unchanged, and what a safe state is. -/

namespace Sys2Proof.Machine

/-- Writing the first element changes what the second reads: the same register and, but for scalars, the same lane. -/
def RegLoc.hits (r : RegLoc) (l : Nat) (r' : RegLoc) (l' : Nat) : Bool :=
  match r, r' with
  | .v u n, .v u' n' => u == u' && n == n' && l == l'
  | .h n, .h n' => n == n' && l == l'
  | .o n, .o n' => n == n' && l == l'
  | .s n, .s n' => n == n'
  | .p n, .p n' => n == n' && l == l' && n != 0
  | _, _ => false

/-- A register that a result can be read back from. -/
def RegLoc.isReal : RegLoc → Bool
  | .none => false
  | .p n => n != 0
  | _ => true

/-- What a frame is apart from its registers. -/
def Frame.shape (fr : Frame) : Nat × Nat × DWord × Bool := (fr.uid, fr.demand, fr.ret, fr.spilled)

end Sys2Proof.Machine

namespace Sys2Proof.Claims

open Sys2Proof.Machine

/-! ### Issue -/

/-- A burner is issuing an instruction to the flue `f`. -/
def Issuing (s : State) (i : Issue) (f : Flue) : Prop := s.issue = some i ∧ s.flue? i.stove i.slot = some f

/-- The frame that a `v` register of the issuing flue names still stands in it. -/
def FrameStands (i : Issue) (f : Flue) : Prop :=
  i.view.phase ≠ .handler → (frameOf f.frames i.view.top.uid).isSome = true

/-- The lanes of the group stand at the word after the instruction, the others where they stood. -/
def StepsPast (i : Issue) (f g : Flue) : Prop :=
  ∀ l < 32, g.pcOf l = if i.lanes.getLsbD l = true then i.next else f.pcOf l

/-- Two flues differ at most in registers, latch, sticky flags and program counters; the frames stay what they are apart from
their registers. -/
def SameButLanes (f g : Flue) : Prop :=
  g = { f with pc := g.pc, fpst := g.fpst, frames := g.frames, hframe := g.hframe, o := g.o, s := g.s, p := g.p, l := g.l, lown := g.lown } ∧
  g.frames.map Frame.shape = f.frames.map Frame.shape

/-- Word `j` of a 64-bit value. -/
def wordAt (v : DWord) (j : Nat) : Word := (v >>> (32 * j)).setWidth 32

/-- The registers read the same but for those of destination `d`, `n` registers long, in the lanes of a mask (06 R127). -/
def KeepsOthers (i : Issue) (f g : Flue) (d : Opnd) (n : Nat) (act : LaneMask) : Prop :=
  ∀ (r : RegLoc) (l : Nat), l < 32 →
    (∀ j < n, ∀ l' < 32, act.getLsbD l' = true → (i.view.loc d j).hits l' r l = false) → g.readLoc r l = f.readLoc r l

/-- The destination holds the value of each lane of a mask: the registers of a vector destination lane by lane, those of a scalar
destination the value of the lowest lane (03 R64, 06 R127). -/
def Delivered (i : Issue) (g : Flue) (d : Opnd) (n : Nat) (act : LaneMask) (v : Nat → DWord) : Prop :=
  if d.isScalar = true then act ≠ 0 → ∀ j < n, g.readLoc (i.view.loc d j) 0 = wordAt (v (lowLane act)) j
  else ∀ l < 32, act.getLsbD l = true → ∀ j < n, (i.view.loc d j).isReal = true → g.readLoc (i.view.loc d j) l = wordAt (v l) j

/-- The sticky flags of the lanes of a mask take up the flags raised; the others keep theirs (06 R128). -/
def Raised (f g : Flue) (act : LaneMask) (fl : Nat → FlagSet) : Prop :=
  ∀ l < 32, SMap.get g.fpst l = if act.getLsbD l = true then SMap.get f.fpst l ||| fl l else SMap.get f.fpst l

/-- The latch takes the first word of a `v` or `o` result in the lanes of a mask, where no result under way reaches it any more, and
stays elsewhere (05 R111). -/
def Latched (f g : Flue) (d : Opnd) (act : LaneMask) (v : Nat → DWord) : Prop :=
  ∀ l < 32, let on := act.getLsbD l = true ∧ d.latches = true
    SMap.get g.l l = (if on then wordAt (v l) 0 else SMap.get f.l l) ∧ Tab.get? g.lown l = if on then none else Tab.get? f.lown l

/-- What a plain vector instruction does (06 R124-R130): in every active lane a value and flags that `P` admits are delivered to
the destination, the group steps past, and nothing else of the machine changes: every other register element, flag, lane, flue,
and every byte of every memory. -/
def LaneResult (s t : State) (i : Issue) (f : Flue) (gd : Guard) (d : Opnd) (n : Nat) (P : Nat → DWord → FlagSet → Prop) : Prop :=
  ∃ (g : Flue) (v : Nat → DWord) (fl : Nat → FlagSet),
    t = s.setFlue i.stove i.slot g ∧ SameButLanes f g ∧ StepsPast i f g ∧
    (∀ l < 32, (i.active gd).getLsbD l = true → P l (v l) (fl l)) ∧
    Delivered i g d n (i.active gd) v ∧ KeepsOthers i f g d n (i.active gd) ∧
    Raised f g (i.active gd) fl ∧ Latched f g d (i.active gd) v

/-- What an instruction that writes predicates does (06 R147, R148): in every active lane each predicate that `w` names takes its
value, `p0` none; sticky flags rise as `fl` says, the group steps past, and nothing else of the machine changes. -/
def PredResult (s t : State) (i : Issue) (f : Flue) (gd : Guard) (w : Nat → Nat → Option Bool) (fl : Nat → FlagSet) : Prop :=
  ∃ g : Flue, t = s.setFlue i.stove i.slot g ∧ g = { f with pc := g.pc, fpst := g.fpst, p := g.p } ∧ StepsPast i f g ∧
    (∀ n l, l < 32 → g.pred n l =
      if (i.active gd).getLsbD l = true ∧ n ≠ 0 then (w n l).getD (f.pred n l) else f.pred n l) ∧
    Raised f g (i.active gd) fl

/-! ### Values -/

/-- An exact integer in an element of a type: clamped with SAT, otherwise the one value of the element's range that is equal to it
modulo 2^n (06 R132). -/
def fit (ty : Ty) (sat : Bool) (z : Int) : Int :=
  if sat then max (elemMin ty) (min (elemMax ty) z)
  else elemMin ty + (z - elemMin ty) % ((2 ^ elemWidth ty : Nat) : Int)

/-- The value of a lane has the elements `z`, fitted, and no flag rises. -/
def HasElems (ty : Ty) (sat : Bool) (z : Nat → Int) (v : DWord) (fl : FlagSet) : Prop :=
  fl = 0 ∧ ∀ k < elemCount ty, elemOf ty v k = fit ty sat (z k)

/-- The low `w` bits of the value of a lane are `b`, and no flag rises. -/
def HasBits (w : Nat) (b : Nat → Bool) (v : DWord) (fl : FlagSet) : Prop := fl = 0 ∧ ∀ k < w, v.getLsbD k = b k

/-- A rational number. -/
def Rational (q : Q) : ℚ := (q.num : ℚ) / (q.den : ℚ)

/-- The integer that a mode rounds a number to (02 R30): RTZ the nearest one toward zero, RUP and RDN the nearest one above and below,
RNE the nearest with a tie to the even one, RNA the nearest with a tie away from zero. -/
def NearestInt (rm : Rm) (v : ℚ) (z : Int) : Prop :=
  match rm with
  | .rtz => |(z : ℚ)| ≤ |v| ∧ |v| - |(z : ℚ)| < 1 ∧ 0 ≤ v * z
  | .rup => v ≤ z ∧ (z : ℚ) - v < 1
  | .rdn => (z : ℚ) ≤ v ∧ v - z < 1
  | .rna => |v - z| ≤ 1 / 2 ∧ (|v - z| = 1 / 2 → |v| < |(z : ℚ)|)
  | _ => |v - z| ≤ 1 / 2 ∧ (|v - z| = 1 / 2 → z % 2 = 0)

/-- The value of an encoding that is finite. -/
def ValueIs (f : Fmt) (bits : Nat) (v : ℚ) : Prop := ∃ n q, f.decode bits = .fin n q ∧ Rational q = v

/-- A result is an exact value rounded once into a format, with its flags (02 R30-R32, R35). A zero keeps the sign given, another value its
own. `u * 2^j` is the value rounded to the format's precision with no bound on the exponent: when it passes the largest finite number the
result overflows, to what the mode says. Otherwise the result is the multiple of its last place that the mode names, inexact when that is
not the value itself, and then underflowing when `u * 2^j` lies below the normal range. -/
def RoundedTo (f : Fmt) (rm : Rm) (zeroNeg : Bool) (v : ℚ) (r : FRes) : Prop :=
  (v = 0 → r = { bits := f.signBit zeroNeg }) ∧
  (v ≠ 0 → ∃ (j u : Int) (vmax : ℚ), ValueIs f f.maxBits vmax ∧
    2 ^ f.mant ≤ |v / 2 ^ j| ∧ |v / 2 ^ j| < 2 ^ (f.mant + 1) ∧ NearestInt rm (v / 2 ^ j) u ∧
    r.bits / 2 ^ (f.width - 1) % 2 = (if v < 0 then 1 else 0) ∧
    if vmax < |(u : ℚ) * 2 ^ j| then r = { bits := overflowBits f rm false (decide (v < 0)), flags := overflowFlags }
    else ∃ (z : Int) (w : ℚ), let k := max j (f.emin - (f.mant : Int))
      NearestInt rm (v / 2 ^ k) z ∧ w = z * 2 ^ k ∧ ValueIs f r.bits w ∧
        r.flags = if w = v then 0 else if |(u : ℚ) * 2 ^ j| < 2 ^ f.emin then flagUF ||| flagNX else flagNX)

/-- The integer that a mode rounds a real number to, as `NearestInt` says of rational ones (02 R30). -/
def NearestReal (rm : Rm) (v : ℝ) (z : Int) : Prop :=
  match rm with
  | .rtz => |(z : ℝ)| ≤ |v| ∧ |v| - |(z : ℝ)| < 1 ∧ 0 ≤ v * z
  | .rup => v ≤ z ∧ (z : ℝ) - v < 1
  | .rdn => (z : ℝ) ≤ v ∧ v - z < 1
  | .rna => |v - z| ≤ 1 / 2 ∧ (|v - z| = 1 / 2 → |v| < |(z : ℝ)|)
  | _ => |v - z| ≤ 1 / 2 ∧ (|v - z| = 1 / 2 → z % 2 = 0)

/-- A result is an exact real value that is not zero, rounded once into a format that has infinities, with its flags, as `RoundedTo` says of
rational ones (02 R30-R32). -/
def RoundedReal (f : Fmt) (rm : Rm) (v : ℝ) (r : FRes) : Prop :=
  ∃ (j u : Int) (vmax : ℚ), ValueIs f f.maxBits vmax ∧
    2 ^ f.mant ≤ |v / 2 ^ j| ∧ |v / 2 ^ j| < 2 ^ (f.mant + 1) ∧ NearestReal rm (v / 2 ^ j) u ∧
    (r.bits / 2 ^ (f.width - 1) % 2 = 1 ↔ v < 0) ∧
    (((vmax : ℝ) < |(u : ℝ) * 2 ^ j| → (r = { bits := overflowBits f rm false true, flags := overflowFlags } ∧ v < 0) ∨
      (r = { bits := overflowBits f rm false false, flags := overflowFlags } ∧ 0 < v)) ∧
     (|(u : ℝ) * 2 ^ j| ≤ vmax → ∃ (z : Int) (w : ℚ), let k := max j (f.emin - (f.mant : Int))
      NearestReal rm (v / 2 ^ k) z ∧ (w : ℝ) = z * 2 ^ k ∧ ValueIs f r.bits w ∧ ((w : ℝ) = v → r.flags = 0) ∧
        ((w : ℝ) ≠ v → |(u : ℝ) * 2 ^ j| < 2 ^ f.emin → r.flags = flagUF ||| flagNX) ∧
        ((w : ℝ) ≠ v → 2 ^ f.emin ≤ |(u : ℝ) * 2 ^ j| → r.flags = flagNX)))

/-- The functions that the special functions of 07 R159 stand for. -/
noncomputable def sfuReal (fn : SfuFn) (x : ℝ) : ℝ :=
  match fn with
  | .rcp => 1 / x
  | .rsq => 1 / Real.sqrt x
  | .exp2 => (2 : ℝ) ^ x
  | .log2 => Real.logb 2 x
  | .sin => Real.sin x
  | .cos => Real.cos x
  | .tanh => Real.tanh x

/-- What a special function gives at a finite input that its table of special values does not name (07 R159, R160). In F16 and BF16 the exact
result rounded with RNE. In F32 a value within the function's bound, or, where rounding the exact result overflows, what stands for it. Where
RCP, RSQ, EXP2 or LOG2 is representable, that value, and no flag; and NX wherever the result is not the exact one. -/
def SfuOf (m : Fmt) (fn : SfuFn) (v : ℚ) (r : FRes) : Prop :=
  let e := sfuReal fn v
  (m.width = 16 → e ≠ 0 → RoundedReal m .rne e r) ∧
  (m.width = 32 → e ≠ 0 → ((m.decode r.bits).isInf = true → RoundedReal m .rne e r) ∧
    ((m.decode r.bits).isInf = false → ∃ w, ValueIs m r.bits w ∧
      |(w : ℝ) - e| ≤ fn.ulps * 2 ^ (max (Int.log 2 |e|) m.emin - (m.mant : Int)))) ∧
  (fn ∈ [SfuFn.rcp, .rsq, .exp2, .log2] → ∀ (b : Nat) (w : ℚ), ValueIs m b w → (w : ℝ) = e → ValueIs m r.bits w ∧ r.flags = 0) ∧
  (∀ w, ValueIs m r.bits w → (w : ℝ) ≠ e → r.flags &&& flagNX = flagNX)

/-- The exact sum of two decoded operands, or what stands for it (06 R139, 02 R27, R31, R32): a NaN operand gives the canonical NaN
and invalid only when an operand signals; infinities of one sign, or one infinity, give the infinity; opposite infinities are
invalid; two finite operands give their exact sum rounded once. -/
def SumOf (f : Fmt) (rm : Rm) (x y : FVal) (r : FRes) : Prop :=
  ((x.isNan = true ∨ y.isNan = true) → r = nanRes f (x.isSnan || y.isSnan)) ∧
  (∀ a b, x = .inf a → y = .inf b → r = if a = b then infRes f false a else nanRes f true) ∧
  (∀ a n q, (x = .inf a ∧ y = .fin n q) ∨ (x = .fin n q ∧ y = .inf a) → r = infRes f false a) ∧
  (∀ a p b q, x = .fin a p → y = .fin b q → r = roundTo f rm false (zeroSumNeg rm a b) (p.add q))

/-- The exact product, or what stands for it (06 R139). -/
def ProductOf (f : Fmt) (rm : Rm) (x y : FVal) (r : FRes) : Prop :=
  ((x.isNan = true ∨ y.isNan = true) → r = nanRes f (x.isSnan || y.isSnan)) ∧
  ((x.isInf = true ∧ y.isZero = true) ∨ (x.isZero = true ∧ y.isInf = true) → r = nanRes f true) ∧
  ((x.isInf = true ∧ y.isNan = false ∧ y.isZero = false) ∨ (y.isInf = true ∧ x.isNan = false ∧ x.isZero = false) →
    r = infRes f false (x.negSign != y.negSign)) ∧
  (∀ a p b q, x = .fin a p → y = .fin b q → r = roundTo f rm false (a != b) (p.mul q))

/-- The fused product and sum, rounded once (06 R140): a NaN operand gives the canonical NaN, invalid when an operand signals or the
product is zero times infinity; that product alone is invalid; an infinite product with C the infinity of the other sign is invalid, and
otherwise gives its own infinity; an infinite C with a finite product gives that infinity. -/
def FusedOf (f : Fmt) (rm : Rm) (x y z : FVal) (r : FRes) : Prop :=
  let nan := x.isNan || y.isNan || z.isNan
  let bad := (x.isInf && y.isZero) || (x.isZero && y.isInf)
  (nan = true → r = nanRes f (x.isSnan || y.isSnan || z.isSnan || bad)) ∧
  (nan = false → bad = true → r = nanRes f true) ∧
  (nan = false → bad = false → x.isInf = true ∨ y.isInf = true →
    let a := x.negSign != y.negSign
    r = if z = .inf (!a) then nanRes f true else infRes f false a) ∧
  (∀ a p b q c, x = .fin a p → y = .fin b q → z = .inf c → r = infRes f false c) ∧
  (∀ a p b q c u, x = .fin a p → y = .fin b q → z = .fin c u →
    r = roundTo f rm false (zeroSumNeg rm (a != b) c) ((p.mul q).add u))

/-- The lesser (`max` false) or greater number of two encodings (06 R141): a number before a NaN, the canonical NaN for two, invalid when
one signals; among numbers one of the two that no other of them passes, and of two zeros the negative is the lesser. -/
def PickOf (f : Fmt) (max : Bool) (a b : Nat) (r : FRes) : Prop :=
  let x := f.decode a
  let y := f.decode b
  r.flags = flagIf (x.isSnan || y.isSnan) flagNV ∧
  (x.isNan = true → y.isNan = true → r.bits = f.nan) ∧
  (x.isNan = true → y.isNan = false → r.bits = b) ∧
  (x.isNan = false → y.isNan = true → r.bits = a) ∧
  (x.isNan = false → y.isNan = false → (r.bits = a ∨ r.bits = b) ∧
    (x.lt y = true → r.bits = if max then b else a) ∧ (y.lt x = true → r.bits = if max then a else b) ∧
    (x.eqv y = true → x.negSign ≠ y.negSign → (f.decode r.bits).negSign = !max))

/-- A value converted into a format (02 R31, R35, 06 R145): a NaN gives the canonical NaN, invalid when it signals; an infinity the
format's infinity, or what stands for it; a number its value rounded once. -/
def ConvertedTo (f : Fmt) (rm : Rm) (sat : Bool) (x : FVal) (r : FRes) : Prop :=
  (∀ sn, x = .nan sn → r = nanRes f sn) ∧ (∀ n, x = .inf n → r = infRes f sat n) ∧ (∀ n q, x = .fin n q → r = roundTo f rm sat n q)

/-- A value converted to an integer of a range (02 R35, 06 R146): a NaN gives zero, what lies outside the range its nearer end, both
invalid; otherwise the integer that the mode names, inexact when it is not the value. -/
def IntegerOf (rm : Rm) (lo hi : Int) (x : FVal) (y : Int) (fl : FlagSet) : Prop :=
  (x.isNan = true → y = 0 ∧ fl = flagNV) ∧ (∀ n, x = .inf n → y = (if n then lo else hi) ∧ fl = flagNV) ∧
  (∀ n q, x = .fin n q → ∃ z, NearestInt rm (Rational q) z ∧
    (z < lo → y = lo ∧ fl = flagNV) ∧ (lo ≤ z → hi < z → y = hi ∧ fl = flagNV) ∧
    (lo ≤ z → z ≤ hi → y = z ∧ fl = if (z : ℚ) = Rational q then 0 else flagNX))

/-- The sum of two products and an addend, rounded once (06 R144): a NaN operand gives the canonical NaN; zero times infinity and infinite
terms of both signs are invalid, with a NaN operand or without, and so is a signalling operand; infinite terms of one sign give that
infinity; finite ones their exact sum rounded once. Three exact zeros of one sign keep it (the model's reading, assumption 44), and any other
zero is negative in RDN alone. -/
def DotOf (rm : Rm) (a0 b0 a1 b1 c : FVal) (r : FRes) : Prop :=
  let xs := [a0, b0, a1, b1, c]
  let inf := fun (a b : FVal) (n : Bool) =>
    ((a.isInf && !b.isNan && !b.isZero) || (b.isInf && !a.isNan && !a.isZero)) && (a.negSign != b.negSign) == n
  let some_ := fun (n : Bool) => inf a0 b0 n || inf a1 b1 n || c == .inf n
  let bad := (a0.isInf && b0.isZero) || (a0.isZero && b0.isInf) || (a1.isInf && b1.isZero) || (a1.isZero && b1.isInf) ||
    (some_ true && some_ false)
  (xs.any FVal.isNan = true → r = nanRes fp32 (xs.any FVal.isSnan || bad)) ∧
  (xs.any FVal.isNan = false → bad = true → r = nanRes fp32 true) ∧
  (xs.any FVal.isNan = false → bad = false → ∀ n, some_ n = true → r = infRes fp32 false n) ∧
  (∀ n0 p0 m0 q0 n1 p1 m1 q1 k u, a0 = .fin n0 p0 → b0 = .fin m0 q0 → a1 = .fin n1 p1 → b1 = .fin m1 q1 → c = .fin k u →
    let same := Rational p0 * Rational q0 = 0 ∧ Rational p1 * Rational q1 = 0 ∧ Rational u = 0 ∧ (n0 != m0) = (n1 != m1) ∧ (n0 != m0) = k
    r = roundTo fp32 rm false (if same then k else rm == .rdn) (((p0.mul q0).add (p1.mul q1)).add u))

/-- The quotient of a value by a scale, rounded once into a narrow format (02 R42): a NaN operand gives the canonical NaN, invalid when it
signals; two infinities or two zeros are invalid; an infinite quotient is what stands for infinity in the format, with the divide-by-zero
flag for a zero scale. -/
def NarrowOf (f : Fmt) (rm : Rm) (sat : Bool) (x s : FVal) (r : FRes) : Prop :=
  ((x.isNan = true ∨ s.isNan = true) → r = nanRes f (x.isSnan || s.isSnan)) ∧
  ((x.isInf = true ∧ s.isInf = true) ∨ (x.isZero = true ∧ s.isZero = true) → r = nanRes f true) ∧
  (∀ a b q, x = .inf a → s = .fin b q → r = infRes f sat (a != b)) ∧
  (∀ a p b, x = .fin a p → s = .inf b → r = { bits := f.signBit (a != b) }) ∧
  (∀ a p b q, x = .fin a p → s = .fin b q → p.isZero = false → q.isZero = true →
    r = { bits := (infRes f sat (a != b)).bits, flags := (infRes f sat (a != b)).flags ||| flagDZ }) ∧
  (∀ a p b q, x = .fin a p → s = .fin b q → q.isZero = false → r = roundTo f rm sat (a != b) (p.div q))

/-- What CVTN makes of a value, a scale and a residue (07 R152): an element and flags, and with RM = EF a new residue. Without EF the element
is the rounded quotient, or in I8 the integer of -128 to 127 that it clamps to. With EF the element is the rounded exact sum of quotient and
residue, and the new residue what the rounding left over, rounded to FP32 at the nearest and never beyond its largest finite number (02 R43);
an infinity among the three, or a zero scale, gives the narrowed quotient and no residue (assumption 29); a NaN operand gives the NaN and no
residue. -/
def CvtnOf (code : Nat) (sat : Bool) (rm : Rm) (x s e : FVal) (bits : Nat) (fl : FlagSet) (res : Option Word) : Prop :=
  let m := narrowFmt code
  (rm ≠ .ef → res = none ∧ (code ≠ 4 → NarrowOf m rm sat x s ⟨bits, fl⟩) ∧
    (code = 4 → (∀ a p b q, x = .fin a p → s = .fin b q → q.isZero = false →
      ∃ y, IntegerOf rm (-128) 127 (.fin (a != b) (p.div q)) y fl ∧ bits = (y % 256).toNat) ∧
      (x.isNan = true ∨ s.isNan = true → bits = 0 ∧ fl = flagNV) ∧
      (∀ a b q, x = .inf a → s = .fin b q → bits = (if a != b then 0x80 else 0x7F) ∧ fl = flagNV))) ∧
  (rm = .ef → ∃ w, res = some w ∧
    (∀ a p b q c u, x = .fin a p → s = .fin b q → e = .fin c u → q.isZero = false →
      let t := (p.div q).add u
      (code ≠ 4 → let y := roundTo m .rne sat ((a != b) && c) t
        bits = y.bits ∧
        (∀ n v, m.decode y.bits = .fin n v → w = BitVec.ofNat 32 (roundTo fp32 .rne true false (t.sub v)).bits ∧
          fl = y.flags ||| (roundTo fp32 .rne true false (t.sub v)).flags) ∧
        ((m.decode y.bits).isNan = true ∨ (m.decode y.bits).isInf = true → w = 0 ∧ fl = y.flags)) ∧
      (code = 4 → ∃ y fy, IntegerOf .rne (-128) 127 (.fin false t) y fy ∧ bits = (y % 256).toNat ∧
        w = BitVec.ofNat 32 (roundTo fp32 .rne false false (t.sub (Q.ofInt y))).bits ∧
        fl = fy ||| (roundTo fp32 .rne false false (t.sub (Q.ofInt y))).flags)) ∧
    (code ≠ 4 → x.isNan = false → s.isNan = false → e.isNan = false →
      x.isInf = true ∨ s.isInf = true ∨ e.isInf = true ∨ s.isZero = true → NarrowOf m .rne sat x s ⟨bits, fl⟩ ∧ w = 0) ∧
    (x.isNan = true ∨ s.isNan = true ∨ e.isNan = true → bits = (if code = 4 then 0 else m.nan) ∧ w = 0))

/-- The value of a lane of a floating type is packed from the results of its elements, whose flags are ORed (06 R126, R127). -/
def HasFloats (ty : Ty) (R : Nat → FRes → Prop) (v : DWord) (fl : FlagSet) : Prop :=
  ∃ r : Nat → FRes, v = (fLane ty r).val ∧ fl = (fLane ty r).flags ∧ ∀ k, R k (r k)

/-- The exact integer that element `k` of the result of a row stands for, from the elements of A, B and C (06 R131). -/
def intExact (r : LRow) (x : LArgs) (c : Src) (l k : Nat) : Int :=
  let a := elemOf x.ty (c.read x.a x.ty l) k
  let b := elemOf x.ty (c.read x.b x.ty l) k
  match r with
  | .iadd => a + b
  | .isub => a - b
  | .imul => a * b
  | .imulh => a * b / ((2 ^ elemWidth x.ty : Nat) : Int)
  | .imad => a * b + elemOf x.ty (c.read x.c x.ty l) k
  | .ineg => -a
  | .iabs => (a.natAbs : Int)
  | .imin => min a b
  | .imax => max a b
  | _ => 0

/-- Bit `k` of the result of a logic, shift or move row (06 R131-R135), `w` bits wide. -/
def bitSpec (r : LRow) (x : LArgs) (c : Src) (w l k : Nat) : Bool :=
  let a := c.read x.a x.ty l
  let b := c.read x.b x.ty l
  let n := (c.word x.b l).toNat
  match r with
  | .andBits => a.getLsbD k && b.getLsbD k
  | .orBits => a.getLsbD k || b.getLsbD k
  | .xorBits => a.getLsbD k != b.getLsbD k
  | .andn => a.getLsbD k && !b.getLsbD k
  | .notBits => !a.getLsbD k
  | .shl => decide (n ≤ k) && a.getLsbD (k - n)
  | .shr => decide (k + n < w) && a.getLsbD (k + n)
  | .sar => if k + n < w then a.getLsbD (k + n) else a.getLsbD (w - 1)
  | .rotl => a.getLsbD ((k + (w - n % w)) % w)
  | .brev => a.getLsbD (w - 1 - k)
  | .mov => a.getLsbD k
  | _ => false

/-! ### Results that arrive later -/

/-- A register element that holds what is written to it: its frame stands, and it is no predicate. -/
def Holds (f : Flue) (r : RegLoc) : Prop :=
  match r with
  | .v u _ => (frameOf f.frames u).isSome = true
  | .p _ => False
  | _ => True

/-- The register elements that a list of writes names take their values, those that it does not name stay. -/
def Written (f g : Flue) (ws : List LaneWrite) : Prop :=
  ∀ (r : RegLoc) (l : Nat), l < 32 →
    ((∀ w ∈ ws, w.loc.hits w.lane r l = false) → g.readLoc r l = f.readLoc r l) ∧
    (∀ v, Holds f r → (∃ w ∈ ws, w.loc.hits w.lane r l = true) → (∀ w ∈ ws, w.loc.hits w.lane r l = true → w.val = v) →
      g.readLoc r l = v)

/-- A list of writes is a result of `n` registers: in each lane that has one, word `j` of its value for the `j`-th register of
`d`, and nothing else. -/
def WritesOf (view : Flue) (d : Opnd) (n : Nat) (ws : List LaneWrite) (v : Nat → Option DWord) : Prop :=
  ∀ (r : RegLoc) (l : Nat) (w : Word), (∃ x ∈ ws, x.loc = r ∧ x.lane = l ∧ x.val = w) ↔
    ∃ j < n, l < 32 ∧ r = view.loc d j ∧ ∃ y, v l = some y ∧ w = wordAt y j

/-- With an acting lane one result more is outstanding, counted by the flag that F selects or held for the lanes of the group
(03 R70, R72); in the lanes whose latch it is to reach no other result under way reaches it (05 R111). With none nothing is. -/
def Awaits (i : Issue) (f g : Flue) (x : LArgs) (ws : List LaneWrite) : Prop :=
  (i.active x.guard = 0 → g.outs = f.outs ∧ g.flags = f.flags ∧ g.lown = f.lown) ∧
  (i.active x.guard ≠ 0 →
    g.outs = f.outs ++ [{ flag := i.flag x.f, held := if x.f = .none then i.lanes else 0, writes := ws, seed := i.seed }] ∧
    (∀ k, SMap.get g.flags k = SMap.get f.flags k + if i.flag x.f = some k then 1 else 0) ∧
    ∀ l, Tab.get? g.lown l = if (ws.any fun w => w.toLatch && w.lane == l) = true then some i.seed else Tab.get? f.lown l)

/-- Of the elements of a result only the first word goes to the latch, and only with a `v` or `o` destination and F = 00 (05 R111, 06
R130). -/
def LatchesFirst (view : Flue) (x : LArgs) (ws : List LaneWrite) : Prop :=
  ∀ w ∈ ws, w.toLatch = true ↔ x.f = .none ∧ x.d.latches = true ∧ w.loc = view.loc x.d 0

/-- What an instruction does whose result arrives later (03 R70-R72): the group steps past, flags rise, and with an acting lane one
result is outstanding, counted by the flag that F selects, or, with F = 00, holding the lanes of the group at their next clause; no
register changes yet, nor anything else. -/
def LateResult (s t : State) (i : Issue) (f : Flue) (x : LArgs) (n : Nat) (P : Nat → DWord → FlagSet → Prop) : Prop :=
  ∃ (g : Flue) (v : Nat → DWord) (fl : Nat → FlagSet) (ws : List LaneWrite),
    t = s.setFlue i.stove i.slot g ∧ g = { f with pc := g.pc, fpst := g.fpst, outs := g.outs, flags := g.flags, lown := g.lown } ∧
    StepsPast i f g ∧
    (∀ l < 32, (i.active x.guard).getLsbD l = true → P l (v l) (fl l)) ∧ Raised f g (i.active x.guard) fl ∧
    Awaits i f g x ws ∧ LatchesFirst i.view x ws ∧
    (if x.d.isScalar = true then i.active x.guard ≠ 0 →
        WritesOf i.view x.d n ws fun l => if l = 0 then some (v (lowLane (i.active x.guard))) else none
      else WritesOf i.view x.d n ws fun l => if (i.active x.guard).getLsbD l = true then some (v l) else none)

/-- The exact quotient of two decoded operands, or what stands for it (07 R160). -/
def QuotientOf (f : Fmt) (rm : Rm) (x y : FVal) (r : FRes) : Prop :=
  ((x.isNan = true ∨ y.isNan = true) → r = nanRes f (x.isSnan || y.isSnan)) ∧
  ((x.isInf = true ∧ y.isInf = true) ∨ (x.isZero = true ∧ y.isZero = true) → r = nanRes f true) ∧
  (∀ a b q, x = .inf a → y = .fin b q → r = infRes f false (a != b)) ∧
  (∀ a p b, x = .fin a p → y = .inf b → r = { bits := f.signBit (a != b) }) ∧
  (∀ a p b q, x = .fin a p → y = .fin b q → p.isZero = false → q.isZero = true →
    r = { bits := f.signBit (a != b) + f.inf, flags := flagDZ }) ∧
  (∀ a p b q, x = .fin a p → y = .fin b q → q.isZero = false → r = roundTo f rm false (a != b) (p.div q))

/-- A result of a predicate is the sign of a rational number. -/
def SignOf (r : Int) (d : ℚ) : Prop := (r = 1 ↔ 0 < d) ∧ (r = -1 ↔ d < 0) ∧ (r = 0 ↔ d = 0)
/-- The first number of a list that is not zero. -/
def firstOf : List ℚ → ℚ
  | [] => 0
  | d :: ds => if d ≠ 0 then d else firstOf ds
/-- Coordinate `j` of a point. -/
def coordOf (p : Pt) (j : Nat) : ℚ := Rational (ptAt p j)
/-- orient2d (07 R166). -/
def orient2 (a b c : Pt) : ℚ :=
  (coordOf b 0 - coordOf a 0) * (coordOf c 1 - coordOf a 1) - (coordOf b 1 - coordOf a 1) * (coordOf c 0 - coordOf a 0)
/-- orient3d (07 R166). -/
def orient3 (a b c d : Pt) : ℚ := Matrix.det fun (r j : Fin 3) => coordOf ([a, b, c].getD r.val []) j.val - coordOf d j.val
/-- The normal (b - a) x (c - a), component `j`. -/
def normal3 (a b c : Pt) (j : Nat) : ℚ :=
  let d := fun (p : Pt) (k : Nat) => coordOf p (k % 3) - coordOf a (k % 3)
  d b (j + 1) * d c (j + 2) - d b (j + 2) * d c (j + 1)
/-- incircle (07 R166). -/
def incircle2 (a b c d : Pt) : ℚ := Matrix.det fun (r j : Fin 3) =>
  let u := fun (k : Nat) => coordOf ([a, b, c].getD r.val []) k - coordOf d k
  if j.val < 2 then u j.val else u 0 ^ 2 + u 1 ^ 2
/-- insphere (07 R166). -/
def insphere3 (a b c d e : Pt) : ℚ := Matrix.det fun (r j : Fin 4) =>
  let u := fun (k : Nat) => coordOf ([a, b, c, d].getD r.val []) k - coordOf e k
  if j.val < 3 then u j.val else u 0 ^ 2 + u 1 ^ 2 + u 2 ^ 2
/-- The orientation of three points in the plane, with R167's terms when TB is set. -/
def orientTb (tb : Bool) (a b c : Pt) : ℚ :=
  firstOf (orient2 a b c :: if tb then [coordOf a 1 - coordOf b 1, coordOf b 0 - coordOf a 0] else [])
/-- A point lies in the closed box that two points span (07 R168). -/
def InBox (x u v : Pt) : Prop := ∀ j < 2, min (coordOf u j) (coordOf v j) ≤ coordOf x j ∧ coordOf x j ≤ max (coordOf u j) (coordOf v j)
/-- Two points of the plane are equal. -/
def SamePt (p q : Pt) : Prop := coordOf p 0 = coordOf q 0 ∧ coordOf p 1 = coordOf q 1

/-- What GSEGX gives (07 R168). -/
def SegmentsOf (tb : Bool) (p q r s : Pt) (y : Int) : Prop :=
  let o1 := orientTb tb p q r
  let o2 := orientTb tb p q s
  let o3 := orientTb tb r s p
  let o4 := orientTb tb r s q
  let differ := fun (x z : ℚ) => ¬((0 < x ∧ 0 < z) ∨ (x < 0 ∧ z < 0) ∨ (x = 0 ∧ z = 0))
  if tb = true then (y = 0 ↔ SamePt p q ∨ SamePt r s) ∧ (y = 1 ↔ ¬(SamePt p q ∨ SamePt r s) ∧ differ o1 o2 ∧ differ o3 o4) ∧
    (y ≠ 0 → y ≠ 1 → y = -1)
  else
    let touches := (o1 = 0 ∧ InBox r p q) ∨ (o2 = 0 ∧ InBox s p q) ∨ (o3 = 0 ∧ InBox p r s) ∨ (o4 = 0 ∧ InBox q r s)
    let crosses := o1 * o2 < 0 ∧ o3 * o4 < 0
    (y = 1 ↔ crosses) ∧ (y = 0 ↔ ¬crosses ∧ touches) ∧ (y ≠ 0 → y ≠ 1 → y = -1)

/-- What a geometric predicate gives in a lane, with the stage that resolves it (07 R166-R170); none for coordinates that are not
finite, which raise GEOMNF unless NFR is set. -/
def geomValue (x : LArgs) (na nb : Nat) (op : Bool → List Q → GRes) (c : Src) (l : Nat) : Option GRes :=
  match coords c x.a x.ty na l, coords c x.b x.ty nb l with
  | some a, some b => some (op (x.modx.getLsbD 0) (a ++ b))
  | _, _ => if x.modx.getLsbD 1 then some (-2147483648, 0) else none

/-- What a geometric instruction does (07 R169-R174), `val` telling what each lane finds: a lane whose coordinates are not finite raises GEOMNF
and stays (in handler mode it steps past). A lane that stage 0 does not resolve goes to the escalation unit, in the order of R171. With F = 00
it takes its result there and stays, and every other acting lane writes its result and steps past, the latch along with it when no lane
escalates, and not when one does and the group has more. With F not 00 every lane but the failing ones steps past, one flag counts the
instruction, and all results are under way: with no lane escalating as any late result, else until the last escalated lane, whose turn in the
unit makes them arrive and the flag fall. -/
def GeomResult (s t : State) (i : Issue) (f : Flue) (x : LArgs) (val : Nat → Option GRes) : Prop :=
  let act := i.active x.guard
  let esc := maskOf fun l => act.getLsbD l && ((val l).map (·.2)).getD 0 != 0
  let bad := maskOf fun l => act.getLsbD l && (val l).isNone
  let good := act &&& ~~~bad
  let out := fun (l : Nat) => (val l).map fun r => (BitVec.ofInt 32 r.1).setWidth 64
  let old := (s.stove i.stove).esc
  let inOrder := fun (q : List EscEntry) => q.Pairwise fun a b => b.first a = false
  ∃ (g : Flue) (es q : List EscEntry), q.Perm (old ++ es) ∧ (inOrder old → inOrder q) ∧
    t = (s.setStove i.stove { s.stove i.stove with esc := q }).setFlue i.stove i.slot g ∧
    g.pending = (f.raise i cGEOMNF bad).pending ∧
    g = { f with pc := g.pc, frames := g.frames, hframe := g.hframe, o := g.o, l := g.l, lown := g.lown, pending := g.pending,
                 escLanes := if x.f = .none then f.escLanes ||| esc else f.escLanes,
                 escs := f.escs + laneCount esc, outs := g.outs, flags := g.flags } ∧
    (∀ l < 32, g.pcOf l = if i.lanes.getLsbD l = true ∧ (bad.getLsbD l = true → f.phase = .handler) ∧
      (esc.getLsbD l = true → x.f ≠ .none) then i.next else f.pcOf l) ∧
    es.map (·.lane) = lanesOf esc ∧
    (∀ e ∈ es, e.slot = i.slot ∧ e.seed = i.seed ∧ e.step = (if x.f = .none then some i.next else none) ∧
      (x.f = .none → e.flag = none ∧ WritesOf i.view x.d 1 e.writes fun l => if l = e.lane then out l else none) ∧
      (x.f ≠ .none → e.writes = [] ∧ ((∀ l, esc.getLsbD l = true → l ≤ e.lane) → e.flag = i.flag x.f) ∧
        ((∃ l, esc.getLsbD l = true ∧ e.lane < l) → e.flag = none))) ∧
    (x.f = .none → g.outs = f.outs ∧ g.flags = f.flags ∧ g.frames.map Frame.shape = f.frames.map Frame.shape ∧
      KeepsOthers i f g x.d 1 (good &&& ~~~esc) ∧
      (∀ l < 32, act.getLsbD l = true → esc.getLsbD l = false → (i.view.loc x.d 0).isReal = true →
        ∀ r, val l = some r → g.readLoc (i.view.loc x.d 0) l = BitVec.ofInt 32 r.1) ∧
      (esc = 0 → Latched f g x.d good fun l => (out l).getD 0) ∧ (esc ≠ 0 → laneCount i.lanes ≠ 1 → g.l = f.l ∧ g.lown = f.lown)) ∧
    (x.f ≠ .none → g.frames = f.frames ∧ g.hframe = f.hframe ∧ g.o = f.o ∧ g.l = f.l ∧ g.lown = f.lown ∧
      (good = 0 → g.outs = f.outs ∧ g.flags = f.flags) ∧
      (good ≠ 0 → (∀ k, SMap.get g.flags k = SMap.get f.flags k + if i.flag x.f = some k then 1 else 0) ∧
        ∃ ws, g.outs = f.outs ++ [{ flag := if esc = 0 then i.flag x.f else none, writes := ws, seed := i.seed }] ∧
          (∀ w ∈ ws, w.toLatch = false) ∧ WritesOf i.view x.d 1 ws fun l => if good.getLsbD l = true then out l else none))

/-- What a cross-lane instruction does whose members all arrive together (08 R175, R176, R180): the members' latch reads zero; with F = 00 they
stay, and a completed rendezvous holds the results until its latency ends; with F not 00 they step past, and the flag that F selects counts the
results when a member acts. A lane of the group outside the mask raises ILLEGAL when its guard holds and steps past when not. -/
def RvResult (s t : State) (i : Issue) (f : Flue) (x : LArgs) (n : Nat) (v : Nat → Option DWord) (fl : Nat → FlagSet) : Prop :=
  let m := (i.src x.lit).word x.c 0
  let gd := fun (l : Nat) => (i.view.guard x.guard).getLsbD l
  let mem := fun (l : Nat) => decide (l < 32) && m.getLsbD l
  let acts := m &&& i.view.guard x.guard ≠ 0
  ∃ (g : Flue) (ws : List LaneWrite) (rv : Rendezvous), t = s.setFlue i.stove i.slot g ∧
    g = { f with pc := g.pc, pending := g.pending, l := g.l, lown := g.lown, rvs := g.rvs, outs := g.outs, flags := g.flags, fpst := g.fpst } ∧
    g.pending = (f.pend cILLEGAL (i.lanes &&& ~~~m &&& i.view.guard x.guard) i.pc (f.resumeAt i.pc)).pending ∧
    (∀ l < 32, g.pcOf l = if mem l = true then (if x.f = .none then f.pcOf l else i.next)
      else if i.lanes.getLsbD l = true ∧ (gd l = true → f.phase = .handler) then i.next else f.pcOf l) ∧
    (∀ l < 32, SMap.get g.l l = (if mem l = true then 0 else SMap.get f.l l) ∧
      Tab.get? g.lown l = if mem l = true then none else Tab.get? f.lown l) ∧
    (∀ l < 32, SMap.get g.fpst l = if mem l = true ∧ gd l = true then SMap.get f.fpst l ||| fl l else SMap.get f.fpst l) ∧
    WritesOf f x.d n ws v ∧
    (x.f = .none → g.rvs = f.rvs ++ [rv] ∧ rv.done = true ∧ rv.pc = i.pc ∧ rv.next = i.next ∧ rv.lanes = m ∧ rv.writes = ws ∧
      rv.keepL = false ∧ g.outs = f.outs ∧ g.flags = f.flags) ∧
    (x.f ≠ .none → g.rvs = f.rvs ∧ g.outs = f.outs ++ [{ writes := ws, more := if acts then (i.flag x.f).toList else [] }] ∧
      ∀ k, SMap.get g.flags k = SMap.get f.flags k + if acts ∧ i.flag x.f = some k then 1 else 0)

/-! ### Control -/

/-- Two states differ at most in one flue, in which identifiers the stoves have cached, and in the count that orders events. -/
def SameButFlue (s t : State) (stove slot : Nat) : Prop :=
  (∀ a b, ¬(a = stove ∧ b = slot) → t.flue? a b = s.flue? a b) ∧ (∀ a g, t.group? a g = s.group? a g) ∧
  (∀ n, { t.stove n with flues := [], groups := [], idCache := [] } = { s.stove n with flues := [], groups := [], idCache := [] }) ∧
  { t with stoves := [], stamp := 0 } = { s with stoves := [], stamp := 0 }

/-- What an instruction does that changes the issuing flue alone: `P` tells what its flue becomes. -/
def FlueResult (ins : Instr) (s : State) (i : Issue) (P : Flue → Prop) : Prop :=
  ∃ (t : State) (g : Flue), exec ins s = .next t ∧ t.flue? i.stove i.slot = some g ∧ SameButFlue s t i.stove i.slot ∧ P g

/-- The program counters: lanes of the first mask to their targets, lanes of the second past the instruction. -/
def Moves (i : Issue) (f g : Flue) (m : LaneMask) (target : Nat → DWord) (past : LaneMask) : Prop :=
  ∀ l < 32, g.pcOf l = if m.getLsbD l = true then target l else if past.getLsbD l = true then i.next else f.pcOf l

/-- The latch reads zero in the lanes of a mask, where no result under way reaches it any more, and stays in the others (05 R111). -/
def LatchZero (f g : Flue) (m : LaneMask) : Prop :=
  ∀ l < 32, SMap.get g.l l = (if m.getLsbD l = true then 0 else SMap.get f.l l) ∧
    Tab.get? g.lown l = if m.getLsbD l = true then none else Tab.get? f.lown l

/-- No other part of the machine takes notice when lanes of the flue exit or park: no region is open, no rendezvous, no barrier that
lanes of the flue have begun to take, no gang; and no parked lane has a step to make. -/
def Alone (s : State) (i : Issue) (f : Flue) : Prop :=
  f.regionOpen = false ∧ f.later = [] ∧ f.rvs = [] ∧ f.awaits = [] ∧ f.mmahWait = 0 ∧ f.escLanes = 0 ∧
  (s.stove i.stove).esc = [] ∧ (s.stove i.stove).latch = [] ∧
  ∀ gr, s.group? i.stove f.group = some gr → gr.barriers = []

/-! ### Memory -/

/-- An access of `n` bytes at a virtual address passes the checks of 09 R203 with no walk: the address is canonical and aligned, no kick
page lies there, and the stove's TLB maps it to local memory at `pa` and lets the context do what it asks. -/
def Maps (s : State) (stove cid : Nat) (va : DWord) (n : Nat) (k : Acc) (dcl : Bool) (pa : Nat) : Prop :=
  canonical va = true ∧ va.toNat % n = 0 ∧ (∀ c, s.ctx? cid = some c → c.kickPage va = false) ∧ paKind pa = .hbm ∧
  (k = .load ∨ k = .atom → s.bad pa = false) ∧
  ∃ e, tlbFind (s.stove stove).tlb cid (va.toNat % 2 ^ 57) = some e ∧ judge cid k dcl e (e.pa + (va.toNat % 2 ^ 57 - e.va)) = .ok pa

/-- The 32-bit offset of an effective address in a space other than GEN (09 R201). -/
def offsetOf (ea : DWord) : Nat := (ea.setWidth 32 : Word).toNat

/-- An access of `n` bytes passes its checks with no walk and lands at a location (09 R201-R204): GEN at its virtual address, PRIV at the
offset in the flue's window, SHR at the offset in the group's shared memory, SCP at the kernel's scratchpad blocks on the die. -/
def Lands (s : State) (stove : Nat) (f : Flue) (space : Nat) (ea : DWord) (n : Nat) (k : Acc) (dcl : Bool) (loc : Loc) : Prop :=
  let off := offsetOf ea
  match space with
  | 0 => ∃ pa, loc = .gen pa ∧ Maps s stove f.cid ea n k dcl pa
  | 1 => ∃ kn pa, s.kernel? f.part f.kslot = some kn ∧ off % n = 0 ∧ off + n ≤ kn.launch.privsz ∧ loc = .gen pa ∧
      Maps s stove f.cid (privBase kn (Tab.getD (s.stove stove).groups f.group {}).window f.gflue + BitVec.ofNat 64 off) 1 k dcl pa
  | 2 => off % n = 0 ∧ off + n ≤ (Tab.getD (s.stove stove).groups f.group {}).sharedSize ∧ loc = .shr off
  | _ => ∃ kn a, s.kernel? f.part f.kslot = some kn ∧ off % n = 0 ∧ off + n ≤ 2 ^ 26 ∧ scpAddr kn (dieOf stove) off = some a ∧
      loc = .scp a

/-- A line reads, and would read when it left the LLC: it is no uncorrectable line, and its side-table entry matches unless the LLC, which
lists a line once, holds it changed (09 R223, 19 R415, R416). -/
def Whole (s : State) (pa : Nat) : Prop :=
  s.bad pa = false ∧ Tab.sorted s.llc = true ∧ ∀ e, Tab.get? s.side (pa / 128) = some e →
    e = s.sideEntry (pa / 128) ∨ ∃ x, Tab.get? s.llc (pa / 128) = some x ∧ x.dirty = true

/-- Every write that a stove has accepted lies in one line, which is whole. -/
def PostedWhole (s : State) (ps : List Posted) : Prop := ∀ p ∈ ps, Whole s p.pa ∧ p.pa % 128 + p.kind.size ≤ 128

/-- The memory that holds a location. -/
def memoryOf (s : State) (stove : Nat) (f : Flue) (loc : Loc) : Memory :=
  match loc with
  | .gen _ => s.mem
  | .shr _ => (Tab.getD (s.stove stove).groups f.group {}).shared
  | .scp _ => (s.die (dieOf stove)).scp

/-- The lanes that a memory instruction runs: on the scalar path one for all (03 R64, 09 R198). -/
def memLanes (x : LArgs) (act : LaneMask) : List Nat := if scalarPath x then (lanesOf act).take 1 else lanesOf act

/-- Of the machine nothing but the issuing flue, the shared memory of its group, the scratchpad of its die, the posted writes of its stove and
what only counts or caches has changed: no other flue, group, die, slot or accumulator, no context, partition or hart. -/
def OnlyStores (s t : State) (i : Issue) (f : Flue) : Prop :=
  t.mem = s.mem ∧ t.parts = s.parts ∧ t.ctxs = s.ctxs ∧ t.harts = s.harts ∧
  (∀ a b, ¬(a = i.stove ∧ b = i.slot) → t.flue? a b = s.flue? a b) ∧
  (∀ a g, ¬(a = i.stove ∧ g = f.group) → t.group? a g = s.group? a g) ∧
  (∀ d, d ≠ dieOf i.stove → (t.die d).scp = (s.die d).scp) ∧
  ∀ n, (t.stove n).slots = (s.stove n).slots ∧ (t.stove n).acc = (s.stove n).acc ∧
    (n ≠ i.stove → (t.stove n).posted = (s.stove n).posted)

/-- The memory of every stove, hearth, die and group, and everything but caches, counts of accesses and flues, is what it was. -/
def SameMemory (s t : State) : Prop :=
  t.mem = s.mem ∧ t.dies = s.dies ∧ t.parts = s.parts ∧ t.ctxs = s.ctxs ∧ t.harts = s.harts ∧
  (∀ a g, t.group? a g = s.group? a g) ∧ ∀ n, (t.stove n).slots = (s.stove n).slots ∧ (t.stove n).acc = (s.stove n).acc ∧
    (t.stove n).posted = (s.stove n).posted

/-- The issuing flue of a load: its lanes step past, and the words of each lane that ran are under way to the destination. -/
def LoadResult (t : State) (i : Issue) (f : Flue) (x : LArgs) (w : Nat → List Word) : Prop :=
  ∃ (g : Flue) (ws : List LaneWrite), t.flue? i.stove i.slot = some g ∧
    g = { f with pc := g.pc, outs := g.outs, flags := g.flags, lown := g.lown } ∧
    StepsPast i f g ∧ Awaits i f g x ws ∧ LatchesFirst i.view x ws ∧
    ∀ (r : RegLoc) (l : Nat) (v : Word), (∃ y ∈ ws, y.loc = r ∧ y.lane = l ∧ y.val = v) ↔
      ∃ j, ∃ l0 ∈ memLanes x (i.active x.guard), r = i.view.loc x.d j ∧ l = (if x.d.isScalar = true then 0 else l0) ∧
        (w l0)[j]? = some v

/-- The byte of a space at an address once lanes have stored in ascending order. -/
def storedByte (lanes : List Nat) (loc : Nat → Loc) (bs : Nat → List Byte) (space a : Nat) (old : Byte) : Byte :=
  lanes.foldl (fun b l =>
    if (loc l).space = space ∧ (loc l).addr ≤ a ∧ a < (loc l).addr + (bs l).length then (bs l).getD (a - (loc l).addr) 0 else b) old

/-- Atomics of lanes, one after the other (09 R213, R215): the old value of each, and the memory. -/
def atomRun (aop : Nat) (ty : Ty) (b c : Nat → DWord) (addr : Nat → Nat) : List Nat → Memory → List (Nat × DWord) × Memory
  | [], m => ([], m)
  | l :: ls, m =>
    let old := BitVec.ofNat 64 (leNat (Memory.read m (addr l) (atomBytes ty)))
    let r := atomRun aop ty b c addr ls
      (Memory.write m (addr l) (leBytes (atomBytes ty) (atomNew aop ty old (b l) (c l)).toNat))
    ((l, old) :: r.1, r.2)

/-- Memory once posted writes have been applied in order (09 R208, R213). -/
def postedRun (ps : List Posted) (m : Memory) : Memory :=
  ps.foldl (fun m p => Memory.write m p.pa (p.kind.result (Memory.read m p.pa p.kind.size))) m

/-- The release that an instruction asks for finds nothing to wait for (09 R206, 12 R298). -/
def NothingToRelease (s : State) (i : Issue) (f : Flue) : Prop :=
  f.regionOpen = false ∧ (s.stove i.stove).posted = [] ∧ ∀ c, s.ctx? f.cid = some c → ∀ p ∈ c.roster, p.2.held = []

/-! ### Engines and matrix operations -/

/-- The outstanding operations of a class of a flue, oldest first (10 R226). -/
def opsOf (f : Flue) (cls : Nat) : List EngineOp := Tab.getD f.ops cls []

/-- A lane whose PC group has changed has a latch of zero, every other lane keeps its latch (05 R111). -/
def LatchSettles (f g : Flue) : Prop :=
  ∀ l < 32, let new := g.eligible.getLsbD l = true ∧ g.groupOf l ≠ f.groupOf l
    SMap.get g.l l = (if new then 0 else SMap.get f.l l) ∧ Tab.get? g.lown l = if new then none else Tab.get? f.lown l

/-- Every lane of the group is live and not parked (05 R102). -/
def GroupUp (i : Issue) (f : Flue) : Prop := i.lanes &&& ~~~f.unparked = 0

/-- The flue has no open region and its stove no posted write: committing and releasing change nothing. -/
def NothingHeld (s : State) (i : Issue) (f : Flue) : Prop := f.regionOpen = false ∧ (s.stove i.stove).posted = []

/-- The rows of bytes of an operation, by space, lie in what its flue may reach: SHR rows in the group's shared memory, SCP rows in
the blocks of the kernel on the die (10 R494). -/
def Reachable (s : State) (stove : Nat) (f : Flue) (sides : List (Nat × List (Nat × Nat))) : Prop :=
  ∀ p ∈ sides, ∀ r ∈ p.2, (p.1 = 2 → r.1 + r.2 ≤ (Tab.getD (s.stove stove).groups f.group {}).sharedSize) ∧
    (p.1 = 3 → r.1 + r.2 ≤ 2 ^ 26 ∧ ∃ k, s.kernel? f.part f.kslot = some k ∧ r.1 + r.2 ≤ 65536 * (Tab.getD k.scp (dieOf stove) []).length)

/-- An operation apart from what it may read in any values because nothing orders its reads (10 R238, 12 R275). -/
def plain (o : EngineOp) : EngineOp := { o with mixed := [], mixedAcc := [] }
/-- A flue with its operations taken so. -/
def plainFlue (f : Flue) : Flue := { f with ops := Tab.mapVals (fun (l : List EngineOp) => l.map plain) f.ops }

/-- Two states differ at most in one flue, in what outstanding operations may read in any values, in which identifiers the stoves have
cached, and in the count that orders events. -/
def SameButOrder (s t : State) (stove slot : Nat) : Prop :=
  (∀ a b, ¬(a = stove ∧ b = slot) → (t.flue? a b).map plainFlue = (s.flue? a b).map plainFlue) ∧
  (∀ a g, (t.group? a g).map (fun x => x.mapSaved plainFlue) = (s.group? a g).map fun x => x.mapSaved plainFlue) ∧
  (∀ n, { t.stove n with flues := [], groups := [], idCache := [] } = { s.stove n with flues := [], groups := [], idCache := [] }) ∧
  { t with stoves := [], stamp := 0, parts := [] } = { s with stoves := [], stamp := 0, parts := [] }

/-- An operation that `P` describes joins a class of a flue as the youngest, numbered by the count that orders events; the others stay. With
every operation of the group that is outstanding or has completed without an order ordered before it, it reads nothing in any values (10 R226, R238). -/
def Joins (s : State) (i : Issue) (f g : Flue) (cls : Nat) (P : EngineOp → Prop) : Prop :=
  ∃ op, P op ∧ op.uid = s.stamp ∧ op.members = [f.gflue] ∧ op.progress = 0 ∧
    (opsOf g cls).map plain = (opsOf f cls ++ [op]).map plain ∧ (∀ k, k ≠ cls → (opsOf g k).map plain = (opsOf f k).map plain) ∧
    ((∀ p ∈ s.groupOps i.stove f.group, p.1 = cls ∧ f.gflue ∈ p.2.members) →
      (∀ gr, s.group? i.stove f.group = some gr → ∀ p ∈ gr.loose, p.1 = cls ∧ f.gflue ∈ p.2.members) → op.mixed = [] ∧ op.mixedAcc = [])

/-- An engine instruction is issued to a class: with fewer than 63 operations of it outstanding one that `P` describes joins it and the group
steps past; otherwise nothing happens yet (10 R226). -/
def Queued (ins : Instr) (s : State) (i : Issue) (f : Flue) (cls : Nat) (P : EngineOp → Prop) : Prop :=
  ((opsOf f cls).length < 63 → ∃ (t : State) (g : Flue), exec ins s = .next t ∧ t.flue? i.stove i.slot = some g ∧
    SameButOrder s t i.stove i.slot ∧ g = { f with pc := g.pc, ops := g.ops } ∧ StepsPast i f g ∧
    Joins s i f g cls fun op => P op ∧ op.started = true) ∧
  (63 ≤ (opsOf f cls).length → exec ins s = .next s)

/-- Lanes raise a cause at the instruction, which issues nothing; the others step past. -/
def Raises (ins : Instr) (s : State) (i : Issue) (f : Flue) (c : Nat) (m : LaneMask) : Prop :=
  FlueResult ins s i fun g => g = { f with pc := g.pc, pending := (f.raise i c m).pending } ∧
    Moves i f g 0 (fun _ => 0) (if f.phase = .handler then i.lanes else i.lanes &&& ~~~m)

/-- The fields of a descriptor in its 64 bytes (10 R231). -/
def DescribedBy (b : List Byte) (d : Descriptor) : Prop :=
  let n := fun (a k : Nat) => leNat ((b.drop a).take k)
  d.base.toNat = n 0 8 ∧ d.sbase.toNat = n 8 8 ∧ d.ext = [n 16 4, n 20 4, n 24 4, n 28 4, n 32 4] ∧
  d.str = [n 36 4, n 40 4, n 44 4, n 48 4] ∧ d.box = [n 52 1 + 1, n 53 1 + 1, n 54 1 + 1, n 55 1 + 1, n 56 1 + 1] ∧
  d.fmt = n 57 1 ∧ d.rank = n 58 1 ∧ d.tr = decide (n 59 1 % 2 = 1) ∧ d.sblk = n 60 1 ∧ d.space = n 61 1

/-- What a gang instruction does in a flue that is a gang of one: the group steps past, and nothing else of the flue changes but its
operations of class MX, as `P` says (10 R247, R248). -/
def SoloResult (ins : Instr) (s : State) (i : Issue) (f : Flue) (P : List EngineOp → Prop) : Prop :=
  FlueResult ins s i fun g => g = { f with pc := g.pc, ops := g.ops, l := g.l, lown := g.lown } ∧ StepsPast i f g ∧ LatchSettles f g ∧
    P (opsOf g 1) ∧ ∀ k, k ≠ 1 → opsOf g k = opsOf f k

/-- A gang of one counts a new operation in MX and steps past. -/
def SoloIssues (ins : Instr) (s : State) (i : Issue) (f : Flue) (P : EngineOp → Prop) : Prop :=
  ∃ (t : State) (g : Flue), exec ins s = .next t ∧ t.flue? i.stove i.slot = some g ∧ SameButOrder s t i.stove i.slot ∧
    g = { f with pc := g.pc, ops := g.ops, l := g.l, lown := g.lown } ∧ StepsPast i f g ∧ LatchSettles f g ∧ Joins s i f g 1 P

/-- The region word of a matrix instruction names rows and columns that the group has (10 R252, R254). -/
def RegionFits (s : State) (i : Issue) (f : Flue) (a : Word) : Prop :=
  a.toNat < 2 ^ 26 ∧ a.toNat % 128 + (a.toNat / 128 % 128 + 1) ≤ (Tab.getD (s.stove i.stove).groups f.group {}).accN ∧
  16 * (a.toNat / 2 ^ 14 % 64) + 16 * (a.toNat / 2 ^ 20 % 64 + 1) ≤ 1024

/-- The flue holds, as a gang of one, the slots of a list (10 R250). -/
def HoldsSlots (s : State) (i : Issue) (f : Flue) (ks : List Nat) : Prop :=
  ∀ k ∈ ks, k < 32 ∧ ∃ c, Tab.get? (s.stove i.stove).claims k = some c ∧ c.held = true ∧ c.group = f.group ∧ c.gang = 0 ∧ c.solo = f.gflue

/-- WAITC has waited (10 R245): the issuing flue becomes what `P` says, and of the operations of its group that have completed without an
order those of the class that the flue was a member of are ordered now (12 R275); nothing else of the machine changes. -/
def Waited (ins : Instr) (s : State) (i : Issue) (f : Flue) (cls : Nat) (P : Flue → Prop) : Prop :=
  ∃ (t : State) (g : Flue), exec ins s = .next t ∧ t.flue? i.stove i.slot = some g ∧ P g ∧
    (∀ a b, ¬(a = i.stove ∧ b = i.slot) → t.flue? a b = s.flue? a b) ∧
    (∀ a n, t.group? a n = (s.group? a n).map fun gr =>
      if a = i.stove ∧ n = f.group then { gr with loose := gr.loose.filter fun p => !(p.1 == cls && p.2.members.contains f.gflue) } else gr) ∧
    (∀ n, { t.stove n with flues := [], groups := [], idCache := [] } = { s.stove n with flues := [], groups := [], idCache := [] }) ∧
    { t with stoves := [], stamp := 0 } = { s with stoves := [], stamp := 0 }

/-- An operation is the oldest of its class in one flue, and no other flue or class counts it. -/
def SoleOp (s : State) (stove slot : Nat) (f : Flue) (cls : Nat) (op : EngineOp) (rest : List EngineOp) : Prop :=
  s.flue? stove slot = some f ∧ opsOf f cls = op :: rest ∧ op.members = [f.gflue] ∧ s.slotOf stove f.group f.gflue = some slot ∧
  (∀ o ∈ rest, o.uid ≠ op.uid) ∧ (∀ k, k ≠ cls → ∀ o ∈ opsOf f k, o.uid ≠ op.uid) ∧
  (∀ p ∈ (s.stove stove).flues, ∀ o ∈ p.2.allOps, o.uid = op.uid → p = (slot, f) ∧ o = op) ∧
  ∀ rv ∈ (s.hearth (hearthOf stove)).hrvs, ∀ a ∈ rv.arrivals, a.1 ≠ op.uid

/-! ### Contexts and pages -/

/-- The thread that a hart runs leaves ENCIN: the hart has its own registers back, the exit record in rd, and the thread keeps what it had
and the address where it resumes (14 R333). -/
def ThreadLeaves (s t : State) (h cid n : Nat) (rec resume : DWord) : Prop :=
  let x := s.hart h
  t.hart h = { x with x := if x.exitRd = 0 then x.hostX else SMap.set x.hostX x.exitRd.toNat rec, f := x.hostF, pc := x.hostPc,
                      mode := x.hostMode, vsatp := x.hostVsatp, inside := none, resv := none } ∧ t.mem = s.mem ∧
  ∃ c, t.ctx? cid = some c ∧
    Tab.get? c.threads n = some { hart := none, pc := resume, mode := x.mode, atp := x.vsatp, x := x.x, f := x.f }

/-- An enclave instruction retires with a status (14 R334): the negative of a number, or a value. -/
def Retires (s t : State) (h : Nat) (rd : BitVec 5) (v : DWord) : Prop :=
  (t.hart h).pc = (s.hart h).pc + 4 ∧ (rd ≠ 0 → SMap.get (t.hart h).x rd.toNat = v) ∧
  ∀ n, n ≠ rd.toNat → SMap.get (t.hart h).x n = SMap.get (s.hart h).x n

/-- No flue buffers a sector and no stove has a posted write. -/
def NoneBuffered (s : State) : Prop := ∀ st ∈ s.stoves, st.2.posted = [] ∧ ∀ f ∈ st.2.flues, f.2.sectors = []

/-- A caller of a page service has its status: a thread in a0, past the ECALL; a ring entry holds it (19 R410). -/
def Answers (s t : State) (c : Caller) (status : Nat) : Prop :=
  match c with
  | .hart h => (t.hart h).pc = (s.hart h).pc + 4 ∧ (t.hart h).x = SMap.set (s.hart h).x 10 (BitVec.ofNat 64 status)
  | .ring p q => ∃ pt, t.part? p = some pt ∧ (∃ e ∈ pt.ring, e.seq = q) ∧ ∀ e ∈ pt.ring, e.seq = q → e.answer = some (BitVec.ofNat 32 status)

/-- A caller asks for a page service with a block that is in order, and no other service of its context is being done. -/
def Asks (s : State) (c : Caller) (svc cid : Nat) (a : DWord) (r : PageReq) : Prop :=
  s.caller c svc = some (cid, a) ∧ s.serving cid = false ∧ s.readBlock cid a = .ok r

/-- An eight-byte entry of a table in local memory takes a value, and no other byte of memory changes. -/
def EntryBecomes (s t : State) (a : Nat) (e : DWord) : Prop :=
  Memory.read8 t.mem a = e ∧ ∀ x, x < a ∨ a + 8 ≤ x → Memory.byte t.mem x = Memory.byte s.mem x

/-- A place for an entry: aligned, in local memory, readable. -/
def EntryPlace (s : State) (a : Nat) : Prop := a % 8 = 0 ∧ paKind a = .hbm ∧ s.bad a = false

/-- No stove and no hearth holds a translation of a virtual address of a context (19 R406). -/
def Untranslated (t : State) (cid : Nat) (va : DWord) : Prop :=
  (∀ n, tlbFind (t.stove n).tlb cid (va.toNat % 2 ^ 57) = none) ∧ ∀ n, tlbFind (t.hearth n).tlb cid (va.toNat % 2 ^ 57) = none

end Sys2Proof.Claims
end

