-- ==== Sys2Proof/Certificates/Slice0/Obligations.lean ====
section
/-! DEFINITION. The statements about the machine. -/

open Sys2Proof Sys2Proof.Machine Sys2Proof.Claims

/-! ### Encodings -/

/-- Decoding the words of a well-formed instruction gives it back, with whatever words follow; and so, with the value that rs2 holds, for the
word of an enclave instruction (03 R56-R63, R77-R82, 04 R90-R93, 14 R333). -/
def Obligations.EncodeDecode : Prop :=
  (∀ (i : Instr) (rest : List Word), i.wf = true → (∃ w ws, encode i = w :: ws) → (∀ f x, i.code ≠ .enclave f x) →
    decodeWords (encode i ++ rest) = .ok (i, rest)) ∧
  (∀ (i : Instr) f x, i.wf = true → i.code = .enclave f x → ∃ sel w, encode i = [w] ∧ decodeEnclave sel w = .ok i)
/-! ### Integer, logic and address instructions (chapter 6) -/

/-- IADD, ISUB, IMUL, IMULH, IMAD, INEG, IABS, IMIN and IMAX complete in every form: each element of the destination is the exact
integer of its row modulo 2^n, clamped where SAT is set, and nothing else changes but the latch and the group's counters. IMADW
completes with the 64-bit sum of the full product and C (06 R131, R132). -/
def Obligations.IntegerArithmeticResults : Prop :=
  (∀ r ∈ [LRow.iadd, .isub, .imul, .imulh, .imad, .ineg, .iabs, .imin, .imax], ∀ (x : LArgs) (s : State) (i : Issue) (f : Flue),
    r.check x = none → Issuing s i f → FrameStands i f →
    ∃ t, exec (r.instr x) s = .next t ∧ LaneResult s t i f x.guard x.d x.ty.regs fun l =>
      HasElems x.ty (decide (r ∈ [LRow.iadd, .isub, .ineg, .iabs]) && x.modx.getLsbD 0) (intExact r x (i.src x.lit) l)) ∧
  (∀ (x : LArgs) (s : State) (i : Issue) (f : Flue), LRow.imadw.check x = none → Issuing s i f → FrameStands i f →
    ∃ t, exec (.imadw x) s = .next t ∧ LaneResult s t i f x.guard x.d 2 fun l v fl =>
      let c := i.src x.lit
      fl = 0 ∧ v = BitVec.ofInt 64 (elemOf x.ty (c.read x.a x.ty l) 0 * elemOf x.ty (c.read x.b x.ty l) 0) +
        c.read x.c (if x.ty = .i32 then .i64 else .z64) l)

/-- AND, OR, XOR, ANDN, NOT, SHL, SHR, SAR, ROTL, BREV and MOV complete in every form with the bits that their rows give (06 R131, R132, R135). -/
def Obligations.LogicShiftResults : Prop :=
  ∀ r ∈ [LRow.andBits, .orBits, .xorBits, .andn, .notBits, .shl, .shr, .sar, .rotl, .brev, .mov],
    ∀ (x : LArgs) (s : State) (i : Issue) (f : Flue), r.check x = none → Issuing s i f → FrameStands i f →
    ∃ t, exec (r.instr x) s = .next t ∧ LaneResult s t i f x.guard x.d x.ty.regs fun l =>
      HasBits (32 * x.ty.regs) (bitSpec r x (i.src x.lit) (32 * x.ty.regs) l)

/-- BFX, BFI, POPC, CLZ, LEA and SEL complete in every form: the field, the merged field, the count of one bits, the count of leading
zero bits, the scaled address and the selected operand (06 R131, R133-R135). That SEL may have a scalar D, and that it writes one of its two
operands there when lanes disagree, is the model's choice (assumption 15). -/
def Obligations.FieldCountAddressResults : Prop :=
  ∀ (x : LArgs) (s : State) (i : Issue) (f : Flue), Issuing s i f → FrameStands i f →
    let c := i.src x.lit
    let pos := fun l => (c.word x.b l).toNat % 256
    let wid := fun l => min ((c.word x.b l).toNat / 256 % 256) 32
    let w := 32 * x.ty.regs
    (LRow.bfx.check x = none → ∃ t, exec (.bfx x) s = .next t ∧ LaneResult s t i f x.guard x.d 1 fun l =>
      HasBits 32 fun k =>
        let bit := fun j => if pos l + j < 32 then (c.word x.a l).getLsbD (pos l + j) else x.ty == .i32 && (c.word x.a l).getLsbD 31
        if k < wid l then bit k else x.ty == .i32 && decide (0 < wid l) && bit (wid l - 1)) ∧
    (LRow.bfi.check x = none → ∃ t, exec (.bfi x) s = .next t ∧ LaneResult s t i f x.guard x.d 1 fun l =>
      HasBits 32 fun k => if pos l ≤ k ∧ k < pos l + wid l then (c.word x.a l).getLsbD (k - pos l) else (c.word x.c l).getLsbD k) ∧
    (LRow.popc.check x = none → ∃ t, exec (.popc x) s = .next t ∧ LaneResult s t i f x.guard x.d 1 fun l v fl =>
      fl = 0 ∧ v.toNat = ((List.range w).filter fun k => (c.read x.a x.ty l).getLsbD k).length) ∧
    (LRow.clz.check x = none → ∃ t, exec (.clz x) s = .next t ∧ LaneResult s t i f x.guard x.d 1 fun l v fl =>
      fl = 0 ∧ v.toNat ≤ w ∧ (∀ k < w, w - v.toNat ≤ k → (c.read x.a x.ty l).getLsbD k = false) ∧
        (v.toNat < w → (c.read x.a x.ty l).getLsbD (w - 1 - v.toNat) = true)) ∧
    (LRow.lea.check x = none → ∃ t, exec (.lea x) s = .next t ∧ LaneResult s t i f x.guard x.d x.ty.regs fun l v fl =>
      let b := c.word x.b l
      let ext : DWord := if x.ty = .z64 ∧ x.modx.getLsbD 3 = false then b.signExtend 64 else b.setWidth 64
      fl = 0 ∧ v = c.read x.a x.ty l + ext * BitVec.ofNat 64 ([4, 1, 2, 8, 16].getD (x.modx.extractLsb' 0 3).toNat 0)) ∧
    (LRow.sel.check x = none → ∃ t, exec (.sel x) s = .next t ∧ LaneResult s t i f x.guard x.d x.ty.regs fun l v fl =>
      let p := i.view.predMask (x.modx.extractLsb' 0 5).toNat
      fl = 0 ∧ (v = c.read x.a x.ty l ∨ v = c.read x.b x.ty l) ∧
        (x.d.isScalar = false → v = if p.getLsbD l = true then c.read x.a x.ty l else c.read x.b x.ty l) ∧
        (x.d.isScalar = true → i.active x.guard &&& p = i.active x.guard → v = c.read x.a x.ty l) ∧
        (x.d.isScalar = true → i.active x.guard &&& p = 0 → i.active x.guard ≠ 0 → v = c.read x.b x.ty l))

/-- Every short form completes, and does what the long form does that it stands for: its row with RM = RNE, C and MODX unused, no flag
and no literal (03 R58, 04 R93). -/
def Obligations.ShortFormsStandForLong : Prop :=
  ∀ (r : SRow) (x : SArgs) (s : State) (i : Issue) (f : Flue), r.check x = none → Issuing s i f →
    ∃ t, exec (r.instr x) s = .next t ∧ exec (r.form.row.instr (r.toLong x)) s = .next t

/-! ### Comparisons and predicates -/

/-- ICMP and FCMP complete: D takes the condition and E its negation, each combined with the chaining predicate as it stood, by AND, OR or XOR;
`p0` is not written; D and E naming one other predicate is no instruction (06 R136-R138). The truth and the invalid flag of a floating comparison: an unordered pair fails every ordered condition
and meets NE and UNO; the loud conditions are invalid on any NaN, the others on a signalling one only (06 R136). -/
def Obligations.ComparisonResults : Prop :=
  (∀ (x : LArgs) (s : State) (i : Issue) (f : Flue), Issuing s i f →
     let c := i.src x.lit
     let op := (x.modx.extractLsb' 5 2).toNat
     let comb := fun (l : Nat) (b : Bool) =>
       let p := i.view.pred (x.modx.extractLsb' 7 4).toNat l
       if op = 0 then b && p else if op = 1 then b || p else b != p
     let writes := fun (truth : Nat → Bool) (n l : Nat) =>
       if n = (x.modx.extractLsb' 0 5).toNat then some (comb l (!truth l))
       else if x.d = .pred (BitVec.ofNat 5 n) ∧ n < 32 then some (comb l (truth l)) else none
     (∀ cond, x.c = .cond cond → LRow.icmp.check x = none →
       ∃ t, exec (.icmp x) s = .next t ∧ PredResult s t i f x.guard (writes fun l =>
         let a := elemOf x.ty (c.read x.a x.ty l) 0
         let b := elemOf x.ty (c.read x.b x.ty l) 0
         match cond with
         | .eq => decide (a = b) | .ne => decide (a ≠ b) | .lt => decide (a < b) | .le => decide (a ≤ b)
         | .gt => decide (a > b) | .ge => decide (a ≥ b) | _ => false) fun _ => 0) ∧
     (∀ cond, x.c = .cond cond → LRow.fcmp.check x = none →
       ∃ t, exec (.fcmp x) s = .next t ∧
         let r := fun l => fCmp (fmtOf x.ty) cond (fElem x.ty (c.read x.a x.ty l) 0) (fElem x.ty (c.read x.b x.ty l) 0)
         PredResult s t i f x.guard (writes fun l => (r l).1) fun l => (r l).2)) ∧
  (∀ (x : LArgs) (n : BitVec 5), n ≠ 0 → x.d = .pred n → x.modx.extractLsb' 0 5 = n →
     LRow.icmp.check x ≠ none ∧ LRow.fcmp.check x ≠ none) ∧
  (∀ (f : Fmt) (a b : Nat),
     let x := f.decode a
     let y := f.decode b
     let un := x.isNan || y.isNan
     let sn := x.isSnan || y.isSnan
     (un = true →
       (∀ c ∈ [Cond.eq, .lt, .le, .gt, .ge, .ord, .qlt, .qle, .qgt, .qge], (fCmp f c a b).1 = false) ∧
       (∀ c ∈ [Cond.ne, .uno], (fCmp f c a b).1 = true) ∧
       (∀ c ∈ [Cond.lt, .le, .gt, .ge], (fCmp f c a b).2 = flagNV)) ∧
     (∀ c ∈ [Cond.eq, .ne, .ord, .uno, .qlt, .qle, .qgt, .qge], (fCmp f c a b).2 = if sn then flagNV else 0) ∧
     (un = false →
       (∀ c, (fCmp f c a b).2 = 0 ∨ c ∈ [Cond.eq, .ne, .ord, .uno, .qlt, .qle, .qgt, .qge]) ∧
       (fCmp f .ord a b).1 = true ∧ (fCmp f .uno a b).1 = false ∧
       (fCmp f .lt a b).1 = x.lt y ∧ (fCmp f .gt a b).1 = y.lt x ∧ (fCmp f .eq a b).1 = x.eqv y ∧
       (fCmp f .ne a b).1 = !x.eqv y ∧ (fCmp f .le a b).1 = (x.lt y || x.eqv y) ∧ (fCmp f .ge a b).1 = (y.lt x || x.eqv y) ∧
       (fCmp f .qlt a b).1 = x.lt y ∧ (fCmp f .qgt a b).1 = y.lt x ∧ (fCmp f .qle a b).1 = (x.lt y || x.eqv y) ∧
       (fCmp f .qge a b).1 = (y.lt x || x.eqv y)))

/-- PLOP, MPRED and PMOV.SET complete with the predicates that R148 gives, every source read before any write; PMOV.GET, PCNT and
PMASK deliver the predicate word, the count and the mask. MPRED with D and E naming one predicate other than `p0`, and PMOV.GET into a scalar,
are no instructions (06 R148). -/
def Obligations.PredicateResults : Prop :=
  ∀ (x : LArgs) (s : State) (i : Issue) (f : Flue), Issuing s i f →
    let c := i.src x.lit
    (∀ d a b e : BitVec 5, x.d = .pred d → x.a = .pred a → x.b = .pred b → x.c = .pred e →
      ∃ t, exec (.plop x) s = .next t ∧ PredResult s t i f x.guard (fun n l =>
        if n = d.toNat then some (x.modx.getLsbD ((if i.view.pred a.toNat l then 4 else 0) + (if i.view.pred b.toNat l then 2 else 0) +
          (if i.view.pred e.toNat l then 1 else 0))) else none) fun _ => 0) ∧
    (∀ d : BitVec 5, x.d = .pred d →
      ∃ t, exec (.mpred x) s = .next t ∧ PredResult s t i f x.guard (fun n l =>
        if n = (x.modx.extractLsb' 0 5).toNat then some (!(c.word x.a l).getLsbD l)
        else if n = d.toNat then some ((c.word x.a l).getLsbD l) else none) fun _ => 0) ∧
    (∃ t, exec (.pmovSet x) s = .next t ∧ PredResult s t i f x.guard (fun n l =>
        if n < 32 ∧ (c.word x.b l).getLsbD n = true then some ((c.word x.a l).getLsbD n) else none) fun _ => 0) ∧
    (FrameStands i f → LRow.pmovGet.check x = none → ∃ t, exec (.pmovGet x) s = .next t ∧
      LaneResult s t i f x.guard x.d 1 fun l => HasBits 32 fun n => i.view.pred n l) ∧
    (FrameStands i f → ∀ p : BitVec 5, x.a = .pred p → LRow.pcnt.check x = none → ∃ t, exec (.pcnt x) s = .next t ∧
      LaneResult s t i f x.guard x.d 1 fun _ v fl =>
        fl = 0 ∧ v.toNat = ((List.range 32).filter fun l => (i.active x.guard).getLsbD l && i.view.pred p.toNat l).length) ∧
    (FrameStands i f → ∀ p : BitVec 5, x.a = .pred p → LRow.pmask.check x = none → ∃ t, exec (.pmask x) s = .next t ∧
      LaneResult s t i f x.guard x.d 1 fun _ =>
        HasBits 32 fun l => (i.active x.guard).getLsbD l && i.view.pred p.toNat l) ∧
    (∀ n : BitVec 5, n ≠ 0 → x.d = .pred n → x.modx.extractLsb' 0 5 = n → LRow.mpred.check x ≠ none) ∧
    (x.d.isScalar = true → LRow.pmovGet.check x ≠ none)

/-! ### Floating point -/

/-- FADD, FSUB, FMUL, FFMA, FMIN and FMAX complete in every form and type: each element is the exact sum, difference, product, fused
product and sum, or the picked operand, rounded once by the mode that RM names, DYN resolved; the flags of the elements rise
(06 R139-R141). Rounding once: the result is the value's neighbour that the mode names, with the overflow, underflow and inexact flags of 02
R30-R32, in every format that has infinities. -/
def Obligations.FloatArithmeticResults : Prop :=
  (∀ (x : LArgs) (s : State) (i : Issue) (f : Flue), Issuing s i f → FrameStands i f →
    let c := i.src x.lit
    let m := fmtOf x.ty
    let rm := resolveRm i.view.fpmode x.rm
    let el := fun (o : Opnd) (l k : Nat) => fElem x.ty (c.read o x.ty l) k
    (LRow.fadd.check x = none → ∃ t, exec (.fadd x) s = .next t ∧ LaneResult s t i f x.guard x.d x.ty.regs fun l =>
      HasFloats x.ty fun k => SumOf m rm (m.decode (el x.a l k)) (m.decode (el x.b l k))) ∧
    (LRow.fsub.check x = none → ∃ t, exec (.fsub x) s = .next t ∧ LaneResult s t i f x.guard x.d x.ty.regs fun l =>
      HasFloats x.ty fun k => SumOf m rm (m.decode (el x.a l k)) (m.decode (el x.b l k)).negate) ∧
    (LRow.fmul.check x = none → ∃ t, exec (.fmul x) s = .next t ∧ LaneResult s t i f x.guard x.d x.ty.regs fun l =>
      HasFloats x.ty fun k => ProductOf m rm (m.decode (el x.a l k)) (m.decode (el x.b l k))) ∧
    (LRow.ffma.check x = none → ∃ t, exec (.ffma x) s = .next t ∧ LaneResult s t i f x.guard x.d x.ty.regs fun l =>
      HasFloats x.ty fun k => FusedOf m rm (m.decode (el x.a l k)) (m.decode (el x.b l k)) (m.decode (el x.c l k))) ∧
    (LRow.fmin.check x = none → ∃ t, exec (.fmin x) s = .next t ∧ LaneResult s t i f x.guard x.d x.ty.regs fun l =>
      HasFloats x.ty fun k => PickOf m false (el x.a l k) (el x.b l k)) ∧
    (LRow.fmax.check x = none → ∃ t, exec (.fmax x) s = .next t ∧ LaneResult s t i f x.guard x.d x.ty.regs fun l =>
      HasFloats x.ty fun k => PickOf m true (el x.a l k) (el x.b l k))) ∧
  (∀ m ∈ [fp64, fp32, fp16, bf16, e5m2], ∀ (rm : Rm) (zeroNeg : Bool) (q : Q), 0 < q.den →
    RoundedTo m rm zeroNeg (Rational q) (roundTo m rm false zeroNeg q))

/-- FCLASS, FRND, FSCALE, FDOT2, FCVT, ICVTF and FCVTI complete in every form: the one class bit of 06 R142; the operand rounded to an
integer by the mode, inexact only where MODX asks; the operand scaled by a power of two and rounded once; the sum of two products and C
rounded once; a number converted once, an integer likewise; the integer that the mode names, clamped to the type's range with
invalid (06 R142-R146). The sign of an exact zero of FDOT2 is the model's reading (assumption 44). -/
def Obligations.FloatConversionResults : Prop :=
  ∀ (x : LArgs) (s : State) (i : Issue) (f : Flue), Issuing s i f → FrameStands i f →
    let c := i.src x.lit
    let m := fmtOf x.ty
    let rm := resolveRm i.view.fpmode x.rm
    let frm := fromTy x.modx
    let el := fun (o : Opnd) (l k : Nat) => fElem x.ty (c.read o x.ty l) k
    let from_ := fun (l : Nat) => (fmtOf frm).decode (fElem frm (c.read x.a frm l) 0)
    (LRow.fclass.check x = none → ∃ t, exec (.fclass x) s = .next t ∧ LaneResult s t i f x.guard x.d 1 fun l v fl =>
      let y := m.decode (el x.a l 0)
      fl = 0 ∧ (∀ sn, y = .nan sn → v = if sn then 2 ^ 8 else 2 ^ 9) ∧ (∀ n, y = .inf n → v = if n then 1 else 2 ^ 7) ∧
        (∀ n q, y = .fin n q → v = if Rational q = 0 then (if n then 2 ^ 3 else 2 ^ 4)
          else if |Rational q| < 2 ^ m.emin then (if n then 2 ^ 2 else 2 ^ 5) else if n then 2 else 2 ^ 6)) ∧
    (LRow.frnd.check x = none → ∃ t, exec (.frnd x) s = .next t ∧ LaneResult s t i f x.guard x.d x.ty.regs fun l =>
      HasFloats x.ty fun k r =>
        let y := m.decode (el x.a l k)
        (∀ sn, y = .nan sn → r = nanRes m sn) ∧ (y.isInf = true → r = { bits := el x.a l k }) ∧
        (∀ n q, y = .fin n q → ∃ z, NearestInt rm (Rational q) z ∧ r.bits = (roundTo m .rne false n (Q.ofInt z)).bits ∧
          r.flags = if x.modx.getLsbD 0 = true ∧ (z : ℚ) ≠ Rational q then flagNX else 0)) ∧
    (LRow.fscale.check x = none → ∃ t, exec (.fscale x) s = .next t ∧ LaneResult s t i f x.guard x.d x.ty.regs fun l =>
      HasFloats x.ty fun k r =>
        let y := m.decode (el x.a l k)
        let b := (c.word x.b l).toInt
        (∀ sn, y = .nan sn → r = nanRes m sn) ∧ (y.isInf = true ∨ y.isZero = true → r = { bits := el x.a l k }) ∧
        (∀ n q, y = .fin n q → q.isZero = false → r = roundTo m rm false n (q.mul (Q.pow2 (max (-5000) (min 5000 b)))))) ∧
    (LRow.fdot2.check x = none → ∃ t, exec (.fdot2 x) s = .next t ∧ LaneResult s t i f x.guard x.d 1 fun l v fl =>
      ∃ r : FRes, v = BitVec.ofNat 64 r.bits ∧ fl = r.flags ∧
        DotOf rm (m.decode (el x.a l 0)) (m.decode (el x.b l 0)) (m.decode (el x.a l 1)) (m.decode (el x.b l 1))
          (fp32.decode (fElem .f32 (c.read x.c .f32 l) 0)) r) ∧
    (LRow.fcvt.check x = none → ∃ t, exec (.fcvt x) s = .next t ∧ LaneResult s t i f x.guard x.d x.ty.regs fun l v fl =>
      ∃ r : FRes, v = BitVec.ofNat 64 r.bits ∧ fl = r.flags ∧ ConvertedTo m rm false (from_ l) r) ∧
    (LRow.icvtf.check x = none → ∃ t, exec (.icvtf x) s = .next t ∧ LaneResult s t i f x.guard x.d x.ty.regs fun l v fl =>
      let r := roundTo m rm false false (Q.ofInt (elemOf frm (c.read x.a frm l) 0))
      v = BitVec.ofNat 64 r.bits ∧ fl = r.flags) ∧
    (LRow.fcvti.check x = none → ∃ t, exec (.fcvti x) s = .next t ∧ LaneResult s t i f x.guard x.d x.ty.regs fun l v fl =>
      ∃ y, v = BitVec.ofInt 64 y ∧ IntegerOf rm (elemMin x.ty) (elemMax x.ty) (from_ l) y fl)

/-! ### Chapter 7: narrow conversion, special functions, geometry -/

/-- CVTN completes in every form: the element at POS takes the narrowed quotient, the rest of D the bytes of C with INS and zeros without; the
flags of the operations rise; with RM = EF the residue register of the lane, and no other, takes what the narrowing left over (07 R152).
CVTW, BSCALE and the pair forms of PACK complete with the widened product, the block scale and the two converted halves (R153-R155); RESRD
and RESWR move residues (R157). PACK.I4X and UNPACK.I4X complete: PACK builds one block from the values of the active lanes, +0 standing for
every other lane, and gives each active lane its word of the block; UNPACK gives each active lane its element of the block in lanes 0-4 (07
R155, R156). The model's readings: what EF narrows where a value is not finite (assumption 29), the outlier and the flags of I4X (assumption
45), and `one` as a word of narrow elements (assumption 46). -/
def Obligations.NarrowBlockConversionResults : Prop :=
  (∀ (x : LArgs) (s : State) (i : Issue) (f : Flue), Issuing s i f → FrameStands i f →
     let c := i.src x.lit
     let code := fmtCode x
     let w := narrowBits code
     let rm := resolveRm i.view.fpmode x.rm
     let fa := fun (o : Opnd) (l : Nat) => fp32.decode (c.read o .f32 l).toNat
     let act := i.active x.guard
     (LRow.cvtn.check x = none → ∃ (t : State) (h : Flue) (bits : Nat → Nat) (left : Nat → Option Word),
       exec (.cvtn x) s = .next t ∧ h = { f with e := h.e } ∧
       (∀ n l, l < 32 → h.residue n l = if n = cvRes x ∧ act.getLsbD l = true then (left l).getD (f.residue n l) else f.residue n l) ∧
       LaneResult s t i h x.guard x.d 1 fun l v fl =>
         CvtnOf code (cvSat x) rm (fa x.a l) (fa x.b l) (fp32.decode (i.view.residue (cvRes x) l).toNat) (bits l) fl (left l) ∧
         ∀ k < 32, v.getLsbD k = if w * cvPos x ≤ k ∧ k < w * cvPos x + w then (bits l).testBit (k - w * cvPos x)
           else cvIns x && (c.word x.c l).getLsbD k) ∧
     (LRow.cvtw.check x = none → ∃ t, exec (.cvtw x) s = .next t ∧ LaneResult s t i f x.guard x.d 1 fun l v fl =>
       let e := (c.word x.a l).toNat / 2 ^ (w * cvPos x) % 2 ^ w
       let a := if code = 4 then FVal.fin false (Q.ofInt (BitVec.ofNat 8 e).toInt)
         else if ((narrowFmt code).decode e).isNan = true then .nan false else (narrowFmt code).decode e
       ∃ r : FRes, v = BitVec.ofNat 64 r.bits ∧ fl = r.flags ∧ ProductOf fp32 rm a (fa x.b l) r) ∧
     (LRow.bscale.check x = none → ∃ t, exec (.bscale x) s = .next t ∧ LaneResult s t i f x.guard x.d 1 fun l v fl =>
       let a := fa x.a l
       fl = (if a.isSnan = true then flagNV else 0) ∧
       ((a.isNan = true ∨ a.isInf = true) → v = if cvSat x = true then 0x7FC00000 else 0xFF) ∧
       (∀ n q, a = .fin n q → ∃ k : Int, (Rational q = 0 → k = 0) ∧
         (Rational q ≠ 0 → ∃ j : Int, 2 ^ j ≤ |Rational q| ∧ |Rational q| < 2 ^ (j + 1) ∧ k = max 0 (min 254 (j - emaxOf code + 127))) ∧
         (cvSat x = false → v = BitVec.ofInt 64 k) ∧ (cvSat x = true → ValueIs fp32 v.toNat (2 ^ (k - 127))))) ∧
     (LRow.pack.check x = none → ∃ t, exec (.pack x) s = .next t ∧ LaneResult s t i f x.guard x.d 1 fun l v fl =>
       ∃ p q : FRes, v = BitVec.ofNat 64 (p.bits + 65536 * q.bits) ∧ fl = p.flags ||| q.flags ∧
         ConvertedTo (narrowFmt code) rm (cvSat x) (fa x.a l) p ∧ ConvertedTo (narrowFmt code) rm (cvSat x) (fa x.b l) q) ∧
     (LRow.resrd.check x = none → ∃ t, exec (.resrd x) s = .next t ∧ LaneResult s t i f x.guard x.d 1 fun l v fl =>
       fl = 0 ∧ v = (i.view.residue (cvRes x) l).setWidth 64) ∧
     (∃ (t : State) (g : Flue), exec (.reswr x) s = .next t ∧ t = s.setFlue i.stove i.slot g ∧
       g = { f with e := g.e, pc := g.pc } ∧ StepsPast i f g ∧
       ∀ n l, l < 32 → g.residue n l = if n = cvRes x ∧ act.getLsbD l = true then c.word x.a l else f.residue n l)) ∧
  (∀ (x : LArgs) (s : State) (i : Issue) (f : Flue), Issuing s i f → FrameStands i f →
     let c := i.src x.lit
     (LRow.packI4x.check x = none → ∃ t, exec (.packI4x x) s = .next t ∧ LaneResult s t i f x.guard x.d 1 fun l v fl =>
       let b := i4Encode ((List.range 32).map fun k => if (i.active x.guard).getLsbD k = true
         then fp32.decode (c.read x.a .f32 k).toNat else .fin false (Q.ofInt 0)) ((c.word x.b 0).toNat % 256)
       fl = b.flags.getD l 0 ∧ v.toNat < 2 ^ 32 ∧
         ∀ j < 4, v.toNat / 256 ^ j % 256 = (b.block.getD (4 * l + j) 0).toNat) ∧
     (LRow.unpack.check x = none → ∃ t, exec (.unpack x) s = .next t ∧ LaneResult s t i f x.guard x.d 1 fun l v fl =>
       ∀ block : List Byte, block.length = 18 → (∀ j < 18, block.getD j 0 = ((c.word x.a (j / 4)) >>> (8 * (j % 4))).setWidth 8) →
         ∀ e, (i4Decode block)[l]? = some e → ∃ r : FRes, ConvertedTo fp32 .rne false e.val r ∧
           v = BitVec.ofNat 64 r.bits ∧ fl = r.flags ||| if e.xo = true then flagXO else 0))

/-- The special functions complete in every form: the value and the flags of the function, under the flag that F selects or the interlock (07
R158). SQRT is the exact root and FDIV the exact quotient, rounded once (R159, R160). RCP, RSQ, EXP2, LOG2, SIN, COS and TANH at finite inputs:
in F16 and BF16 the exact result rounded once, in F32 a value within the bound of R159 in units in the last place, which one being free
(assumption 41). The special values, in the formats that have infinities, are the table's (07 R161). -/
def Obligations.SpecialFunctionResults : Prop :=
  (∀ (x : LArgs) (s : State) (i : Issue) (f : Flue), Issuing s i f →
     let c := i.src x.lit
     let m := fmtOf x.ty
     let rm := resolveRm i.view.fpmode x.rm
     let el := fun (o : Opnd) (l : Nat) => fElem x.ty (c.read o x.ty l) 0
     (∀ p ∈ [(LRow.rcp, SfuFn.rcp), (.rsq, .rsq), (.exp2, .exp2), (.log2, .log2), (.sin, .sin), (.cos, .cos), (.tanh, .tanh)],
       p.1.check x = none → ∃ t, exec (p.1.instr x) s = .next t ∧ LateResult s t i f x x.ty.regs fun l v fl =>
         v = BitVec.ofNat 64 (sfu m p.2 (el x.a l)).bits ∧ fl = (sfu m p.2 (el x.a l)).flags) ∧
     (LRow.sqrt.check x = none → ∃ t, exec (.sqrt x) s = .next t ∧ LateResult s t i f x x.ty.regs fun l v fl =>
       v = BitVec.ofNat 64 (fSqrt m rm (el x.a l)).bits ∧ fl = (fSqrt m rm (el x.a l)).flags) ∧
     (LRow.fdiv.check x = none → ∃ t, exec (.fdiv x) s = .next t ∧ LateResult s t i f x x.ty.regs fun l v fl =>
       ∃ r : FRes, v = BitVec.ofNat 64 r.bits ∧ fl = r.flags ∧ QuotientOf m rm (m.decode (el x.a l)) (m.decode (el x.b l)) r)) ∧
  (∀ m ∈ [fp64, fp32, fp16, bf16], ∀ (rm : Rm) (a : Nat),
     let one := m.bias * 2 ^ m.mant
     let nv : FRes := { bits := m.nan, flags := flagNV }
     let ninf := 2 ^ (m.width - 1) + m.inf
     let nzero := 2 ^ (m.width - 1)
     (∀ sg, m.decode a = .nan sg →
       ∀ fn : SfuFn, sfu m fn a = nanRes m sg ∧ fSqrt m rm a = nanRes m sg) ∧
     (m.decode a = .inf true → sfu m .rcp a = { bits := nzero } ∧ sfu m .rsq a = nv ∧ fSqrt m rm a = nv ∧ sfu m .exp2 a = { bits := 0 } ∧
       sfu m .log2 a = nv ∧ sfu m .sin a = nv ∧ sfu m .cos a = nv ∧ sfu m .tanh a = { bits := nzero + one }) ∧
     (m.decode a = .inf false → sfu m .rcp a = { bits := 0 } ∧ sfu m .rsq a = { bits := 0 } ∧ fSqrt m rm a = { bits := m.inf } ∧
       sfu m .exp2 a = { bits := m.inf } ∧ sfu m .log2 a = { bits := m.inf } ∧ sfu m .sin a = nv ∧ sfu m .cos a = nv ∧
       sfu m .tanh a = { bits := one }) ∧
     (∀ n q, m.decode a = .fin n q → q.isZero = true →
       sfu m .rcp a = { bits := if n then ninf else m.inf, flags := flagDZ } ∧
       sfu m .rsq a = { bits := if n then ninf else m.inf, flags := flagDZ } ∧ fSqrt m rm a = { bits := a } ∧
       sfu m .exp2 a = { bits := one } ∧ sfu m .log2 a = { bits := ninf, flags := flagDZ } ∧
       sfu m .sin a = { bits := if n then nzero else 0 } ∧ sfu m .cos a = { bits := one } ∧
       sfu m .tanh a = { bits := if n then nzero else 0 }) ∧
     (∀ q, m.decode a = .fin true q → q.isZero = false → sfu m .rsq a = nv ∧ fSqrt m rm a = nv ∧ sfu m .log2 a = nv) ∧
     (∀ q, m.decode a = .fin false q → q.isZero = false → RoundedReal m rm (Real.sqrt (Rational q)) (fSqrt m rm a)) ∧
     (∀ fn n q, m ≠ fp64 → m.decode a = .fin n q → q.isZero = false → (n = true → fn ≠ .rsq ∧ fn ≠ .log2) →
       SfuOf m fn (Rational q) (sfu m fn a)))

/-- The geometric predicates complete in every form (07 R166-R174): what the lanes find goes to the destination, to the flag or to the
escalation unit as `GeomResult` says. The predicates are the exact signs of the determinants of 07 R166, whatever stage resolves them; with
TB a zero determinant is resolved by the terms of R167 in order; and GSEGX follows from four orientations as in R168. With F not 00 a result
reaches its register at any time before the flag falls (assumption 39). -/
def Obligations.GeometricPredicateResults : Prop :=
  (∀ (x : LArgs) (s : State) (i : Issue) (f : Flue), Issuing s i f → FrameStands i f →
     let c := i.src x.lit
     (LRow.gori2.check x = none → ∃ t, exec (.gori2 x) s = .next t ∧
       GeomResult s t i f x (geomValue x 4 2 (fun tb l => gori2 tb (ptsOf 2 l 0) (ptsOf 2 l 1) (ptsOf 2 l 2)) c)) ∧
     (LRow.gori3.check x = none → ∃ t, exec (.gori3 x) s = .next t ∧
       GeomResult s t i f x (geomValue x 9 3 (fun tb l => gori3 tb (ptsOf 3 l 0) (ptsOf 3 l 1) (ptsOf 3 l 2) (ptsOf 3 l 3)) c)) ∧
     (LRow.ginc.check x = none → ∃ t, exec (.ginc x) s = .next t ∧
       GeomResult s t i f x (geomValue x 6 2 (fun tb l => ginc tb (ptsOf 2 l 0) (ptsOf 2 l 1) (ptsOf 2 l 2) (ptsOf 2 l 3)) c)) ∧
     (LRow.gins.check x = none → ∃ t, exec (.gins x) s = .next t ∧ GeomResult s t i f x
       (geomValue x 12 3 (fun tb l => gins tb (ptsOf 3 l 0) (ptsOf 3 l 1) (ptsOf 3 l 2) (ptsOf 3 l 3) (ptsOf 3 l 4)) c)) ∧
     (LRow.gsegx.check x = none → ∃ t, exec (.gsegx x) s = .next t ∧
       GeomResult s t i f x (geomValue x 4 4 (fun tb l => gsegx tb (ptsOf 2 l 0) (ptsOf 2 l 1) (ptsOf 2 l 2) (ptsOf 2 l 3)) c))) ∧
  (∀ a b c d e : Pt, (∀ p ∈ [a, b, c, d, e], ∀ q ∈ p, 0 < q.den) →
     SignOf (gori2 false a b c).1 (orient2 a b c) ∧
     SignOf (gori2 true a b c).1 (firstOf [orient2 a b c, coordOf a 1 - coordOf b 1, coordOf b 0 - coordOf a 0]) ∧
     SignOf (gori3 false a b c d).1 (orient3 a b c d) ∧
     SignOf (gori3 true a b c d).1 (firstOf [orient3 a b c d, -normal3 a b c 0, -normal3 a b c 1, -normal3 a b c 2]) ∧
     SignOf (ginc false a b c d).1 (incircle2 a b c d) ∧
     SignOf (ginc true a b c d).1 (firstOf [incircle2 a b c d, -orient2 a b c]) ∧
     SignOf (gins false a b c d e).1 (insphere3 a b c d e) ∧
     SignOf (gins true a b c d e).1 (firstOf [insphere3 a b c d e, -orient3 a b c d]) ∧
     ∀ tb, SegmentsOf tb a b c d (gsegx tb a b c d).1)

/-- A result arrives: INSTRUCTION_COMPLETE writes the outstanding result's elements and its flags fall; the latch of a lane takes it only
while its instruction is still the lane's most recent one (03 R70, R74, 05 R111). GEOM_ESCALATION_COMPLETE serves the first lane of the
unit: its writes, its flag with the results that the flag stands for, and its step when it waited at the instruction, made also by a lane
that a handler runs, and kept for a parked lane until the current depth falls to its own (05 R102, 07 R171-R173, 13 R302). No other register,
flag or lane changes, nor does memory. -/
def Obligations.LateResultsArrive : Prop :=
  (∀ (s : State) (r : FlueRef) (n : Nat) (f : Flue) (o : Outstanding), s.flue? r.stove r.slot = some f → f.outs[n]? = some o →
    f.rvs = [] → (∀ w ∈ o.writes, w.lane < 32) →
    ∃ g : Flue, exec (.instructionComplete r n) s = .next (s.setFlue r.stove r.slot g) ∧
      g = { f with frames := g.frames, hframe := g.hframe, o := g.o, s := g.s, p := g.p, l := g.l, lown := g.lown, flags := g.flags,
                   outs := f.outs.eraseIdx n } ∧
      Written f g o.writes ∧
      (∀ k, SMap.get g.flags k = SMap.get f.flags k - (if o.flag = some k then 1 else 0) - BitVec.ofNat 6 (o.more.count k)) ∧
      (∀ l < 32, Tab.get? f.lown l ≠ some o.seed ∨ (∀ w ∈ o.writes, w.lane = l → w.toLatch = false) →
        SMap.get g.l l = SMap.get f.l l ∧ Tab.get? g.lown l = Tab.get? f.lown l) ∧
      ∀ w ∈ o.writes, w.toLatch = true → Tab.get? f.lown w.lane = some o.seed →
        (∀ y ∈ o.writes, y.toLatch = true → y.lane = w.lane → y.val = w.val) →
        SMap.get g.l w.lane = w.val ∧ Tab.get? g.lown w.lane = none) ∧
  (∀ (s : State) (stove : Nat) (e : EscEntry) (rest : List EscEntry) (f : Flue), (s.stove stove).esc = e :: rest →
    s.flue? stove e.slot = some f → f.rvs = [] → (∀ w ∈ e.writes, w.lane < 32) → e.lane < 32 →
    (e.flag ≠ none → e.step = none ∧ e.writes = []) →
    (∀ o ∈ f.outs, o.seed = e.seed → o.flag = none ∧ o.more = [] ∧ ∀ w ∈ o.writes, w.lane < 32 ∧ w.toLatch = false) →
    let up := fun l => f.live.getLsbD l && (f.depthOf l == f.curDepth || (f.phase == .handler && f.clanes.getLsbD l))
    let under := f.outs.find? fun o => o.seed == e.seed
    let ws := if e.flag = none then e.writes else (under.map (·.writes)).getD []
    ∃ g : Flue, exec (.geomEscalationComplete stove) s =
        .next ((s.setStove stove { s.stove stove with esc := rest }).setFlue stove e.slot g) ∧
      g = { f with pc := g.pc, later := g.later, frames := g.frames, hframe := g.hframe, o := g.o, s := g.s, p := g.p, l := g.l,
                   lown := g.lown, flags := g.flags, outs := if e.flag = none then f.outs else f.outs.eraseP fun o => o.seed == e.seed,
                   escs := f.escs - 1, escLanes := g.escLanes } ∧
      Written f g ws ∧ (∀ k, SMap.get g.flags k = SMap.get f.flags k - if e.flag = some k then 1 else 0) ∧
      (∀ l < 32, g.pcOf l = if l = e.lane ∧ up l = true then e.step.getD (f.pcOf l) else f.pcOf l) ∧
      (∀ l, Tab.get? g.later l =
        if l = e.lane ∧ e.step.isSome = true ∧ f.live.getLsbD l = true ∧ up l = false then e.step else Tab.get? f.later l) ∧
      (∀ l < 32, let moved := e.step.isSome = true ∧ g.eligible.getLsbD l = true ∧ g.groupOf l ≠ f.groupOf l
        (moved → SMap.get g.l l = 0) ∧
        (¬moved → (∀ w ∈ e.writes, w.lane = l → w.toLatch = false) → SMap.get g.l l = SMap.get f.l l) ∧
        ∀ w ∈ e.writes, ¬moved → w.toLatch = true → w.lane = l → (∀ y ∈ e.writes, y.toLatch = true → y.lane = l → y.val = w.val) →
          SMap.get g.l l = w.val) ∧
      ∀ l < 32, g.escLanes.getLsbD l = (f.escLanes.getLsbD l && !(e.step.isSome && l == e.lane)))

/-! ### Chapter 8: cross-lane instructions -/

/-- Every cross-lane instruction completes when all members of its mask arrive together: `l` reads zero in the members, the flue holds
their results until the latency of the rendezvous ends (F = 00: the members stay) or under the flag (F not 00: they step past);
a lane of the group outside the mask raises ILLEGAL if its guard holds and steps past if not. The results of PEEK, VOTE,
VOTE.BAL, MATCH, REDUX and SCAN are those of the values captured from all members; CONV has none (08 R175-R183). -/
def Obligations.RendezvousCompletes : Prop :=
  ∀ (x : LArgs) (s : State) (i : Issue) (f : Flue), Issuing s i f →
    let c := i.src x.lit
    let m := c.word x.c 0
    let gd := fun (l : Nat) => (i.view.guard x.guard).getLsbD l
    let mem := fun (l : Nat) => decide (l < 32) && m.getLsbD l
    m ≠ 0 → i.lanes &&& m = m → f.live &&& m = m → (∀ l < 32, m.getLsbD l = true → i.view.curDepth ≤ i.view.depthOf l) →
    (∀ rv ∈ f.rvs, rv.pc = i.pc → rv.depth = i.view.curDepth → rv.done = true) →
    let each := fun (w : Nat → DWord) (l : Nat) => if mem l = true ∧ gd l = true then some (w l) else none
    let votes := maskOf fun l => mem l && c.view.pred (predNum x.a) l
    let words := fun (p : Nat → Bool) => ((List.range 32).filter fun l => mem l && p l).map fun l => (c.read x.a x.ty l).setWidth 32
    let comb := fun (p : Nat → Nat → Bool) (l : Nat) =>
      combineAll (x.modx.extractLsb' 0 3).toNat x.ty (resolveRm f.fpmode x.rm) (words (p l))
    (LRow.peek.check x = none → ∃ t, exec (.peek x) s = .next t ∧ RvResult s t i f x x.ty.regs (fun l =>
      let j := peekLane (x.modx.extractLsb' 0 2).toNat l (c.word x.b l)
      if mem l = true ∧ gd l = true ∧ 0 ≤ j ∧ j ≤ 31 ∧ mem j.toNat = true then some (c.read x.a x.ty j.toNat) else none) fun _ => 0) ∧
    (LRow.vote.check x = none → ∃ t, exec (.vote x) s = .next t ∧ RvResult s t i f x 1 (each fun _ =>
      let k := (x.modx.extractLsb' 0 2).toNat
      if (if k = 0 then votes ≠ 0 else if k = 1 then votes = m else votes = 0 ∨ votes = m) then 1 else 0) fun _ => 0) ∧
    (LRow.voteBal.check x = none → ∃ t, exec (.voteBal x) s = .next t ∧ RvResult s t i f x 1 (fun l =>
      if x.d.isScalar = true then (if l = 0 ∧ m &&& i.view.guard x.guard ≠ 0 then some (votes.setWidth 64) else none)
      else each (fun _ => votes.setWidth 64) l) fun _ => 0) ∧
    (LRow.matchLanes.check x = none → ∃ t, exec (.matchLanes x) s = .next t ∧ RvResult s t i f x 1 (each fun l =>
      let same := maskOf fun k => mem k && (c.read x.a x.ty k == c.read x.a x.ty l)
      if x.modx.getLsbD 0 = true then (if same = m then m.setWidth 64 else 0) else same.setWidth 64) fun _ => 0) ∧
    (LRow.redux.check x = none → ∃ t, exec (.redux x) s = .next t ∧ RvResult s t i f x 1 (each fun l => (comb (fun _ _ => true) l).1.setWidth 64)
      fun l => (comb (fun _ _ => true) l).2) ∧
    (LRow.scan.check x = none →
      let p := fun (l k : Nat) => if x.modx.getLsbD 3 = true then decide (k < l) else decide (k ≤ l)
      ∃ t, exec (.scan x) s = .next t ∧ RvResult s t i f x 1 (each fun l => (comb p l).1.setWidth 64) fun l => (comb p l).2) ∧
    (LRow.conv.check x = none → ∃ t, exec (.conv x) s = .next t ∧ RvResult s t i f x 1 (fun _ => none) fun _ => 0)

/-- A rendezvous waits for members that have not arrived: the lanes that did arrive stay at the instruction with the values captured from them,
while some lane of the flue can still run, and the flag that the instruction selects has risen when one of them acts (03 R70). A mask that names a lane that has exited makes the arriving lanes raise ILLEGAL (08 R175, R177).
The latency of a complete rendezvous ends: its results are written, its members step past (a parked one that no handler runs once the current
depth falls to its own, 05 R102) and read `l` as zero (08 R176, R180), but those of an OSCLAIM, whose latch only a change of PC group clears
(05 R111). The
combinations of REDUX and SCAN on integers: the sum modulo 2^32, the least and the greatest member, signed for I32 and unsigned otherwise,
the conjunction, disjunction and exclusive or bit by bit; with no member the identity (08 R183). -/
def Obligations.RendezvousProgress : Prop :=
  (∀ (x : LArgs) (s : State) (i : Issue) (f : Flue), Issuing s i f →
     let c := i.src x.lit
     let m := c.word x.c 0
     let arr := i.lanes &&& m
     arr ≠ 0 → (∀ rv ∈ f.rvs, rv.pc = i.pc → rv.depth = i.view.curDepth → rv.done = true) →
     ∀ ins ∈ [Instr.peek x, .vote x, .voteBal x, .matchLanes x, .redux x, .scan x, .conv x],
       (arr ≠ m → f.live &&& m = m → (∀ l < 32, m.getLsbD l = true → i.view.curDepth ≤ i.view.depthOf l) →
         (∃ l < 32, f.eligible.getLsbD l = true ∧ m.getLsbD l = false ∧ ∀ v ∈ f.openRvs, v.lanes.getLsbD l = false) →
         ∃ (g : Flue) (rv : Rendezvous), exec ins s = .next (s.setFlue i.stove i.slot g) ∧
           g = { f with pc := g.pc, pending := g.pending, rvs := f.rvs ++ [rv], flags := g.flags } ∧
           (∀ k, SMap.get g.flags k = SMap.get f.flags k + if arr &&& i.view.guard x.guard ≠ 0 ∧ i.flag x.f = some k then 1 else 0) ∧
           rv.flags = (if arr &&& i.view.guard x.guard ≠ 0 then (i.flag x.f).toList else []) ∧
           rv.done = false ∧ rv.pc = i.pc ∧ rv.next = i.next ∧ rv.mask = m ∧ rv.lanes = arr ∧ rv.depth = i.view.curDepth ∧
           (∀ l < 32, arr.getLsbD l = true → g.pcOf l = f.pcOf l) ∧
           ∀ l < 32, arr.getLsbD l = true → ∃ r, Tab.get? rv.members l = some r ∧ r.a = c.read x.a x.ty l ∧ r.b = c.word x.b l ∧
             r.guard = (i.view.guard x.guard).getLsbD l) ∧
       (f.live &&& m ≠ m → (∃ l < 32, f.eligible.getLsbD l = true ∧ ∀ v ∈ f.openRvs, v.lanes.getLsbD l = false) → ∃ (g : Flue) (p : Pending), exec ins s = .next (s.setFlue i.stove i.slot g) ∧
         g = { f with pc := g.pc, pending := g.pending } ∧ Tab.get? g.pending cILLEGAL = some p ∧ p.lanes &&& arr = arr ∧
         ∀ l < 32, arr.getLsbD l = true → g.pcOf l = if f.phase = .handler then i.next else f.pcOf l)) ∧
  (∀ (s : State) (r : FlueRef) (pc : DWord) (f : Flue) (rv : Rendezvous), s.flue? r.stove r.slot = some f →
     f.rvs.find? (fun v => v.done && v.pc == pc) = some rv → (∀ v ∈ f.rvs, v.done = true) → (∀ w ∈ rv.writes, w.lane < 32) →
     ∃ g : Flue, exec (.rendezvousResultWrite r pc) s = .next (s.setFlue r.stove r.slot g) ∧
       g = { f with pc := g.pc, later := g.later, frames := g.frames, hframe := g.hframe, o := g.o, s := g.s, p := g.p, l := g.l,
                    lown := g.lown, rvs := f.rvs.filter fun v => v != rv } ∧
       let up := fun l => f.live.getLsbD l && (f.depthOf l == f.curDepth || (f.phase == .handler && f.clanes.getLsbD l))
       Written f g rv.writes ∧ (∀ l < 32, g.pcOf l = if rv.lanes.getLsbD l = true ∧ up l = true then rv.next else f.pcOf l) ∧
       (∀ l < 32, Tab.get? g.later l =
         if rv.lanes.getLsbD l = true ∧ f.live.getLsbD l = true ∧ up l = false then some rv.next else Tab.get? f.later l) ∧
       (rv.keepL = false → ∀ l < 32, rv.lanes.getLsbD l = true → SMap.get g.l l = 0) ∧
       (rv.keepL = true → (∀ w ∈ rv.writes, w.toLatch = false) →
         ∀ l < 32, SMap.get g.l l = if g.eligible.getLsbD l = true ∧ g.groupOf l ≠ f.groupOf l then 0 else SMap.get f.l l)) ∧
  (∀ (ty : Ty) (rm : Rm) (ws : List Word), ty ∈ [Ty.b32, .i32, .z32] →
     let v := fun opc => (combineAll opc ty rm ws).1
     let ord := fun (w : Word) => if ty = .i32 then w.toInt else (w.toNat : Int)
     (∀ opc, (combineAll opc ty rm ws).2 = 0) ∧
     v 0 = BitVec.ofNat 32 (ws.map BitVec.toNat).sum ∧
     (ws ≠ [] → v 1 ∈ ws ∧ v 2 ∈ ws) ∧ (∀ w ∈ ws, ord (v 1) ≤ ord w ∧ ord w ≤ ord (v 2)) ∧
     (∀ w : Word, ws = [] → ord w ≤ ord (v 1) ∧ ord (v 2) ≤ ord w) ∧
     (∀ k < 32, (v 3).getLsbD k = ws.all (·.getLsbD k) ∧ (v 4).getLsbD k = ws.any (·.getLsbD k) ∧
       (v 5).getLsbD k = decide ((ws.filter (·.getLsbD k)).length % 2 = 1)))

/-! ### Chapter 8: control instructions -/

/-- BRA, BRU, JMPI and NOP complete: the lanes that take a transfer stand at their target with `l` zero, the others step past; a target that is
not canonical raises XLATE, one that is not aligned to a line ILLEGAL, and those lanes stay (in handler mode they step past); NOP only
steps past, and leaves `l` (08 R186, R196, 03 R79). -/
def Obligations.BranchResults : Prop :=
  ∀ (x : CArgs) (s : State) (i : Issue) (f : Flue), Issuing s i f →
    let act := i.active x.guard
    let target := ofsTarget i.header x.ofs
    let taken := fun (ins : Instr) (m : LaneMask) =>
      (canonical target = true → FlueResult ins s i fun g =>
        g = { f with pc := g.pc, l := g.l, lown := g.lown } ∧ Moves i f g m (fun _ => target) i.lanes ∧ LatchZero f g m) ∧
      (canonical target = false → FlueResult ins s i fun g =>
        g = { f with pc := g.pc, pending := (f.raise i cXLATE m).pending } ∧
        Moves i f g 0 (fun _ => 0) (if f.phase = .handler then i.lanes else i.lanes &&& ~~~m))
    taken (.bra x) act ∧
    taken (.bru x) (if act = 0 then 0 else i.lanes) ∧
    (let a := fun l => (i.src x.lit).read x.a .z64 l
     let line := maskOf fun l => act.getLsbD l && ((a l).toNat % 64 != 0)
     let canon := maskOf fun l => act.getLsbD l && ((a l).toNat % 64 == 0) && !canonical (a l)
     let good := act &&& ~~~line &&& ~~~canon
     FlueResult (.jmpi x) s i fun g =>
       g = { f with pc := g.pc, l := g.l, lown := g.lown, pending := ((f.raise i cILLEGAL line).raise i cXLATE canon).pending } ∧
       Moves i f g good a (if f.phase = .handler then i.lanes else i.lanes &&& ~~~act) ∧ LatchZero f g good) ∧
    FlueResult (.nop x) s i fun g => g = { f with pc := g.pc } ∧ Moves i f g 0 (fun _ => 0) i.lanes

/-- CALL and CALLI complete outside handler mode: with frame room the acting lanes stand at their targets one deeper, on a new frame that reads
zero and remembers the return address, and the other lanes of the group at the return address; without room the flue waits for a frame, from the island cycle on (26 R485). At
depth 255 the acting lanes raise BOUND; a lane whose target is not canonical raises XLATE, one whose target is not aligned to a line
ILLEGAL, and stays (05 R114, R117, 08 R188, 03 R79). RET, UNWIND and EXIT complete outside handler mode. RET moves its lanes one depth up to the
return address of their frame; UNWIND moves every live lane deeper than its operand to that depth, out of every interlock and posted call
that it was waiting for; both raise BOUND where there is no such depth. When no live lane is left at a depth its frame goes, and a spilled
frame there is waited for; a parked lane that is parked no longer makes the step kept for it (05 R102). EXIT ends its lanes; the last one
drains the flue (05 R115, R116, 08 R189, R190). -/
def Obligations.CallReturnResults : Prop :=
  (∀ (x : CArgs) (s : State) (i : Issue) (f : Flue), Issuing s i f → Alone s i f → f.phase = .run →
     let act := i.active x.guard
     let demand := 8 * (x.dem.toNat + 1)
     let back := nextClause i.header (i.word.extractLsb' 0 4).toNat
     let others := i.lanes &&& ~~~act
     let called := fun (ins : Instr) (m : LaneMask) (target : Nat → DWord) (held : Tab Pending) =>
       (demand / 8 ≤ (s.stove i.stove).freeForNew → FlueResult ins s i fun g =>
         g = { f with pc := g.pc, l := g.l, lown := g.lown, depth := g.depth, nextUid := f.nextUid + 1, call := none, pending := held,
                      frames := f.frames ++ [{ uid := f.nextUid, demand := demand, ret := back }] } ∧
         (∀ l < 32, g.pcOf l = if m.getLsbD l = true then target l else if others.getLsbD l = true then back else f.pcOf l) ∧
         (∀ l < 32, g.depthOf l = if m.getLsbD l = true then f.curDepth + 1 else f.depthOf l) ∧ LatchZero f g (m ||| others)) ∧
       ((s.stove i.stove).freeForNew < demand / 8 → FlueResult ins s i fun g =>
         ∃ c : FrameCall, g = { f with phase := .frameWait, call := some c, waitStamp := s.islandCycle i.stove, pending := held } ∧ c.demand = demand ∧
           c.ret = back ∧ c.movers = m ∧ c.others = others ∧ ∀ l < 32, m.getLsbD l = true → SMap.get c.targets l = target l)
     act ≠ 0 →
       (f.curDepth = 255 → ∀ ins ∈ [Instr.call x, .calli x],
         FlueResult ins s i fun g => g = { f with pending := (f.raise i cBOUND act).pending }) ∧
       (f.curDepth < 255 → f.frames ≠ [] →
         (let to_ := ofsTarget i.header x.ofs
          (canonical to_ = true → called (.call x) act (fun _ => to_) f.pending) ∧
          (canonical to_ = false → FlueResult (.call x) s i fun g =>
            g = { f with pc := g.pc, pending := (f.raise i cXLATE act).pending } ∧ Moves i f g 0 (fun _ => 0) others)) ∧
         (let a := fun l => (i.src x.lit).read x.a .z64 l
          let line := maskOf fun l => act.getLsbD l && ((a l).toNat % 64 != 0)
          let canon := maskOf fun l => act.getLsbD l && ((a l).toNat % 64 == 0) && !canonical (a l)
          let good := act &&& ~~~line &&& ~~~canon
          let held := ((f.raise i cILLEGAL line).raise i cXLATE canon).pending
          (good ≠ 0 → called (.calli x) good a held) ∧
          (good = 0 → FlueResult (.calli x) s i fun g => g = { f with pc := g.pc, pending := held } ∧
            ∀ l < 32, g.pcOf l = if others.getLsbD l = true then back else f.pcOf l)))) ∧
  (∀ (x : CArgs) (s : State) (i : Issue) (f : Flue), Issuing s i f → Alone s i f → f.phase = .run → f.live &&& i.lanes = i.lanes →
     let act := i.active x.guard
     let fallen := fun (g : Flue) => g.frames = f.frames.take (g.maxDepth + 1) ∧
       g.phase = if (f.frames.take (g.maxDepth + 1)).getLastD {} |>.spilled then .refillWait else .run
     let moved := fun (ins : Instr) (m past : LaneMask) (n : Nat) (h : Flue) => FlueResult ins s i fun g =>
       g = { h with pc := g.pc, l := g.l, lown := g.lown, depth := g.depth, frames := g.frames, phase := g.phase, waitStamp := g.waitStamp,
                    granted := g.granted, clauses := leaveAll f.clauses false m } ∧
       Moves i f g m (fun _ => (f.frames.getD (n + 1) {}).ret) past ∧ LatchZero f g m ∧
       (∀ l < 32, g.depthOf l = if m.getLsbD l = true then n else f.depthOf l) ∧ fallen g
     act ≠ 0 →
       (f.curDepth = 0 → FlueResult (.ret x) s i fun g =>
         g = { f with pc := g.pc, pending := (f.raise i cBOUND act).pending } ∧ Moves i f g 0 (fun _ => 0) (i.lanes &&& ~~~act)) ∧
       (0 < f.curDepth → f.curDepth < 256 → moved (.ret x) act (i.lanes &&& ~~~act) (f.curDepth - 1) f) ∧
       (let n := ((i.src x.lit).word x.a (lowLane i.lanes)).toInt
        (n < 0 ∨ (f.curDepth : Int) ≤ n → FlueResult (.unwind x) s i fun g =>
          g = { f with pending := (f.raise i cBOUND act).pending, pc := g.pc } ∧ Moves i f g 0 (fun _ => 0) 0) ∧
        (0 ≤ n → n < f.curDepth → f.curDepth < 256 →
          let m := f.live &&& maskOf fun l => decide (n.toNat < f.depthOf l)
          moved (.unwind x) m 0 n.toNat { f with
            outs := f.outs.map fun o => { o with held := o.held &&& ~~~m }
            ops := f.ops.map fun p => (p.1, p.2.map fun o => { o with held := o.held &&& ~~~m })
            service := f.service.map fun c => if c.lanes &&& m = 0 then c else { c with
              lanes := c.lanes &&& ~~~m, dest := c.dest.map fun w => { w with toLatch := false } } })) ∧
       (f.live &&& ~~~act ≠ 0 → FlueResult (.exitLanes x) s i fun g =>
         g = { f with pc := g.pc, live := f.live &&& ~~~act, frames := g.frames, phase := g.phase, waitStamp := g.waitStamp,
                      granted := g.granted } ∧
         Moves i f g 0 (fun _ => 0) (i.lanes &&& ~~~act) ∧ fallen g) ∧
       (f.live &&& ~~~act = 0 → ∃ (t : State) (g : Flue), exec (.exitLanes x) s = .next t ∧ t.flue? i.stove i.slot = some g ∧
         g.phase = .drain ∧ g.live = 0 ∧ g.frames = f.frames ∧ t.mem = s.mem)) ∧
  (∀ (f : Flue) (stamp : Nat), f.live ≠ 0 → Tab.sorted f.later = true → (∀ p ∈ f.later, p.1 < 32) →
     let g := f.fall stamp
     let up := fun l => g.live.getLsbD l && g.depthOf l == g.curDepth
     ∀ l < 32, g.pcOf l = (if up l = true then (Tab.get? f.later l).getD (f.pcOf l) else f.pcOf l) ∧
       Tab.get? g.later l = if f.live.getLsbD l = true ∧ up l = false then Tab.get? f.later l else none)

/-- BAR, BARA and BARW complete outside handler mode. Lanes that do not complete their flue's arrival wait at BAR, or step past BARA; an
operand that differs from that of the lanes before raises ILLEGAL. The arrival of a flue sets or meets the target, and is refused with BOUND
or ILLEGAL; one that comes again before the generation completes is held, and a third refused with ILLEGAL; the last one advances the
generation, the count returns to zero, and the waiting lanes step past. BARW waits
while the flue's last arrival is pending (08 R191, 18 R388, R389). -/
def Obligations.BarrierResults : Prop :=
  ∀ (x : CArgs) (s : State) (i : Issue) (f : Flue) (gr : Group), Issuing s i f → f.phase = .run → f.regionOpen = false →
    (s.stove i.stove).posted = [] → s.group? i.stove f.group = some gr → i.active x.guard ≠ 0 →
    let b := (x.ofs.extractLsb' 0 4).toNat
    let y := s.bar i.stove f.group b
    let me := y.flue f.gflue
    let a := (i.src x.lit).word x.a (lowLane i.lanes)
    let n := if a = 0 then gr.nflue else a.toNat
    let live := f.live &&& maskOf fun l => f.depthOf l == f.curDepth
    let done := live ≠ 0 ∧ live &&& ~~~(me.lmask ||| i.lanes) = 0 ∧ me.lmask ||| i.lanes ≠ 0
    let drained := laneCount gr.drained
    let mine := if gr.drained.getLsbD f.gflue = true then 0 else 1
    i.lanes &&& ~~~live = 0 →
    let takes := fun (ins : Instr) (waits : Bool) =>
      (me.lmask ≠ 0 → me.la ≠ a → ∃ (t : State) (g : Flue), exec ins s = .next t ∧ t.flue? i.stove i.slot = some g ∧
        g = { f with pending := (f.raise i cILLEGAL i.lanes).pending } ∧ t.bar i.stove f.group b = y ∧ t.mem = s.mem) ∧
      ((me.lmask = 0 ∨ me.la = a) → ¬done → ∃ (t : State) (g : Flue), exec ins s = .next t ∧
        t.flue? i.stove i.slot = some g ∧ t.mem = s.mem ∧ g = { f with pc := g.pc } ∧
        Moves i f g 0 (fun _ => 0) (if waits then 0 else i.lanes) ∧
        let z := (t.bar i.stove f.group b).flue f.gflue
        z.lmask = me.lmask ||| i.lanes ∧ z.la = a ∧ z.wait = (if waits then me.wait ||| i.lanes else me.wait) ∧ z.arr = me.arr ∧
          (t.bar i.stove f.group b).count = y.count ∧ (t.bar i.stove f.group b).gen = y.gen) ∧
      ((me.lmask = 0 ∨ me.la = a) → done → me.arr = true → y.target ≠ 0 →
        ∃ (t : State) (g : Flue), exec ins s = .next t ∧ t.flue? i.stove i.slot = some g ∧ t.mem = s.mem ∧
          let z := t.bar i.stove f.group b
          z.count = y.count ∧ z.target = y.target ∧ z.gen = y.gen ∧ (z.flue f.gflue).arr = true ∧ (z.flue f.gflue).lmask = 0 ∧
          if me.held = true then g = { f with pending := (f.raise i cILLEGAL i.lanes).pending } ∧ (z.flue f.gflue).held = true
          else g = { f with pc := g.pc } ∧ Moves i f g 0 (fun _ => 0) (if waits then 0 else i.lanes) ∧
            (z.flue f.gflue).held = true ∧ (z.flue f.gflue).ha = a) ∧
      ((me.lmask = 0 ∨ me.la = a) → done → me.arr = false →
        ((y.target = 0 ∧ gr.nflue < n) ∨ (y.target ≠ 0 ∧ n ≠ y.target) → ∃ (t : State) (g : Flue), exec ins s = .next t ∧
          t.flue? i.stove i.slot = some g ∧ t.mem = s.mem ∧
          g = { f with pending := (f.raise i (if y.target = 0 then cBOUND else cILLEGAL) i.lanes).pending } ∧
          ((t.bar i.stove f.group b).flue f.gflue).lmask = 0 ∧ ((t.bar i.stove f.group b).flue f.gflue).arr = false ∧
          (t.bar i.stove f.group b).count = y.count ∧ (t.bar i.stove f.group b).target = y.target) ∧
        (let count := if y.target = 0 then drained + mine else y.count + mine
         ((y.target = 0 ∧ n ≤ gr.nflue) ∨ (y.target ≠ 0 ∧ y.target = n)) →
          (count < n → ∃ (t : State) (g : Flue), exec ins s = .next t ∧ t.flue? i.stove i.slot = some g ∧ t.mem = s.mem ∧
            g = { f with pc := g.pc } ∧ Moves i f g 0 (fun _ => 0) (if waits then 0 else i.lanes) ∧
            (t.bar i.stove f.group b).count = count ∧ (t.bar i.stove f.group b).target = n ∧
            (t.bar i.stove f.group b).gen = y.gen ∧ ((t.bar i.stove f.group b).flue f.gflue).arr = true ∧
            ((t.bar i.stove f.group b).flue f.gflue).pend = true ∧ ((t.bar i.stove f.group b).flue f.gflue).lmask = 0) ∧
          (n ≤ count → (∀ p ∈ y.flues, p.2.held = false) → Tab.sorted y.flues = true → Tab.sorted (s.stove i.stove).flues = true →
            me.wait = 0 →
            s.slotOf i.stove f.group f.gflue = some i.slot →
            ∃ (t : State) (g : Flue), exec ins s = .next t ∧ t.flue? i.stove i.slot = some g ∧ t.mem = s.mem ∧
              g = { f with pc := g.pc, l := g.l, lown := g.lown } ∧ Moves i f g 0 (fun _ => 0) i.lanes ∧
              (t.bar i.stove f.group b).count = 0 ∧ (t.bar i.stove f.group b).target = 0 ∧
              (t.bar i.stove f.group b).gen = y.gen + 1 ∧
              (∀ k, ((t.bar i.stove f.group b).flue k).pend = false ∧ ((t.bar i.stove f.group b).flue k).wait = 0) ∧
              ∀ k slot h, k ≠ f.gflue → s.slotOf i.stove f.group k = some slot → s.flue? i.stove slot = some h →
                ∃ h', t.flue? i.stove slot = some h' ∧ ∀ l < 32, h'.pcOf l =
                  if (y.flue k).wait.getLsbD l = true ∧ h.live.getLsbD l = true ∧
                      (h.depthOf l = h.curDepth ∨ (h.phase = .handler ∧ h.clanes.getLsbD l = true)) then SMap.get (y.flue k).next l
                  else h.pcOf l)))
    takes (.bar x) true ∧ takes (.bara x) false ∧
    FlueResult (.barw x) s i fun g => if me.pend = true then g = f else g = { f with pc := g.pc } ∧ Moves i f g 0 (fun _ => 0) i.lanes

/-- SPAWN and JOIN complete outside handler mode. SPAWN forms one record for each acting lane whose frame address is canonical and aligned to 64
bytes, in an entry that was free, and the lane receives its handle; the other lanes raise XLATE or ALIGN and form none. JOIN takes one from
the counter of the record that each lane names, which is ready at zero; a lane that names none raises BOUND (08 R192, 17 R373, R374, R376).
TILEREL and YIELD complete outside handler mode. TILEREL marks the tile of the group released and counts as progress of the queue; an index
that is not a tile raises BOUND. YIELD starts the yield counter again, and at a slice end stops the flue past it with its region committed
(08 R193, R194, 13 R314, 15 R354). -/
def Obligations.SpawnJoinTileResults : Prop :=
  (∀ (x : CArgs) (s : State) (i : Issue) (f : Flue) (k : Kernel), Issuing s i f → f.phase = .run → f.regionOpen = false →
     (s.stove i.stove).posted = [] → s.kernel? f.part f.kslot = some k → i.active x.guard ≠ 0 →
     let c := i.src x.lit
     let act := i.active x.guard
     let a := fun l => c.read x.a .z64 l
     let bad := maskOf fun l => act.getLsbD l && !canonical (a l)
     let odd := maskOf fun l => act.getLsbD l && canonical (a l) && (a l).toNat % 64 != 0
     let good := act &&& ~~~bad &&& ~~~odd
     (CRow.spawn.check x = none → FrameStands i f → x.d.isScalar = false → laneCount act ≤ 4096 - k.records.length →
       Tab.sorted k.records = true → (∀ p ∈ k.records, p.1 < 4096) →
       ∃ (t : State) (g : Flue) (k' : Kernel) (e : Nat → Nat), exec (.spawn x) s = .next t ∧ t.flue? i.stove i.slot = some g ∧
         t.kernel? f.part f.kslot = some k' ∧ t.mem = s.mem ∧ k' = { k with records := k'.records } ∧
         g = { f with pc := g.pc, frames := g.frames, hframe := g.hframe, o := g.o, l := g.l, pending := g.pending } ∧
         (∀ l < 32, ∀ l' < 32, good.getLsbD l = true → good.getLsbD l' = true → e l = e l' → l = l') ∧
         (∀ l < 32, good.getLsbD l = true → e l < 4096 ∧ Tab.get? k.records (e l) = none ∧ ∃ r, Tab.get? k'.records (e l) = some r ∧
           r.record.code = ofsTarget i.header x.ofs ∧ r.record.frame = a l ∧ r.record.join = c.word x.b l ∧ r.record.spawned = true ∧
           r.record.index = k.handleOf (e l) ∧ (r.record.ready = true ↔ c.word x.b l = 0) ∧
           ((i.view.loc x.d 0).isReal = true → g.readLoc (i.view.loc x.d 0) l = k.handleOf (e l))) ∧
         (∀ j, (∀ l < 32, good.getLsbD l = true → e l ≠ j) → Tab.get? k'.records j = Tab.get? k.records j) ∧
         KeepsOthers i f g x.d 1 good ∧ g.pending = ((f.raise i cXLATE bad).raise i cALIGN odd).pending ∧
         Moves i f g 0 (fun _ => 0) (i.lanes &&& ~~~bad &&& ~~~odd)) ∧
     (let names := fun (l j : Nat) => (Option.map (·.1) (k.byHandle (c.word x.a l))) = some j
      let count := fun (j : Nat) => ((lanesOf act).filter fun l => decide (names l j)).length
      let lost := maskOf fun l => act.getLsbD l && (k.byHandle (c.word x.a l)).isNone
      (∀ j r, Tab.get? k.records j = some r → count j ≤ r.record.join.toNat) →
       ∃ (t : State) (g : Flue) (k' : Kernel), exec (.join x) s = .next t ∧ t.flue? i.stove i.slot = some g ∧
         t.kernel? f.part f.kslot = some k' ∧ t.mem = s.mem ∧ k' = { k with records := k'.records } ∧
         (∀ j, Tab.get? k'.records j = (Tab.get? k.records j).map fun r => if count j = 0 then r else
           let n := r.record.join - BitVec.ofNat 32 (count j)
           { r with record := { r.record with join := n, ready := n == 0 } }) ∧
         g = { f with pc := g.pc, pending := (f.raise i cBOUND lost).pending } ∧
         Moves i f g 0 (fun _ => 0) (i.lanes &&& ~~~lost))) ∧
  (∀ (x : CArgs) (s : State) (i : Issue) (f : Flue) (gr : Group) (k : Kernel), Issuing s i f → f.phase = .run → f.regionOpen = false →
     (s.stove i.stove).posted = [] → s.group? i.stove f.group = some gr → gr.part = f.part → gr.kslot = f.kslot →
     s.kernel? f.part f.kslot = some k → i.active x.guard ≠ 0 →
     let n := ((i.src x.lit).word x.a (lowLane i.lanes)).toNat
     (gr.record.spawned = false → k.ntiles ≤ n → FlueResult (.tilerel x) s i fun g => g = { f with pending := (f.raise i cBOUND i.lanes).pending, pc := g.pc } ∧
       Moves i f g 0 (fun _ => 0) 0) ∧
     ((gr.record.spawned = true ∨ n < k.ntiles) → k.ntiles ≤ 64 → k.obmap = 0 → ∃ (t : State) (g : Flue) (gr' : Group),
       exec (.tilerel x) s = .next t ∧ t.flue? i.stove i.slot = some g ∧ g = { f with pc := g.pc } ∧
       Moves i f g 0 (fun _ => 0) i.lanes ∧ t.group? i.stove f.group = some gr' ∧ gr' = { gr with tiles := gr'.tiles } ∧
       (∀ j < 64, gr'.tiles.getLsbD j = (gr.tiles.getLsbD j || (!gr.record.spawned && j == n))) ∧ t.mem = s.mem ∧
       ∀ c qu, s.ctx? f.cid = some c → Tab.get? c.queues k.queue = some qu →
         t.queue? f.cid k.queue = some { qu with wcount := 0 }) ∧
     FlueResult (.yield x) s i fun g =>
       g = { f with pc := g.pc, ycount := 0, preempt := f.preempt || f.sliceEnd } ∧ Moves i f g 0 (fun _ => 0) i.lanes)

/-- LAUNCH completes outside handler mode: the launch record at A is copied to the ring of an LFEED queue at its tail, and the tail rises; an
A that is not aligned to 128 bytes raises ALIGN, a queue that the context has not, or that is not LFEED, BOUND; with the ring full the group
stays (08 R195, 15 R350). -/
def Obligations.LaunchResults : Prop :=
  ∀ (x : CArgs) (s : State) (i : Issue) (f : Flue) (c : Context), Issuing s i f → f.phase = .run → f.regionOpen = false →
    (s.stove i.stove).posted = [] → s.ctx? f.cid = some c → (∀ p ∈ c.roster, p.2.held = []) → i.active x.guard ≠ 0 →
    let a := (i.src x.lit).read x.a .z64 (lowLane i.lanes)
    let q := ((i.src x.lit).word x.b (lowLane i.lanes)).toNat
    (a.toNat % 128 ≠ 0 → FlueResult (.launch x) s i fun g =>
      g = { f with pending := (f.raise i cALIGN i.lanes).pending, pc := g.pc } ∧ Moves i f g 0 (fun _ => 0) 0) ∧
    (a.toNat % 128 = 0 → (∀ qu, Tab.get? c.queues q = some qu → qu.lfeed = false) → FlueResult (.launch x) s i fun g =>
      g = { f with pending := (f.raise i cBOUND i.lanes).pending, pc := g.pc } ∧ Moves i f g 0 (fun _ => 0) 0) ∧
    (∀ qu, a.toNat % 128 = 0 → Tab.get? c.queues q = some qu → qu.lfeed = true →
      (qu.size ≤ (qu.tail - qu.head).toNat → FlueResult (.launch x) s i fun g => g = f) ∧
      (let ring := qu.ring + BitVec.ofNat 64 (qu.tail.toNat % qu.size * 128)
       ∀ src dst, (qu.tail - qu.head).toNat < qu.size → Maps s i.stove f.cid a 128 .load false src →
        Maps s i.stove f.cid ring 128 .store false dst → Whole s dst → qu.state ≠ .unbound →
        ∃ (t : State) (g : Flue), exec (.launch x) s = .next t ∧ t.flue? i.stove i.slot = some g ∧ g = { f with pc := g.pc } ∧
          Moves i f g 0 (fun _ => 0) i.lanes ∧ t.queue? f.cid q = some { qu with tail := qu.tail + 1 } ∧
          ∀ j, Memory.byte t.mem j =
            if dst ≤ j ∧ j < dst + 128 then Memory.byte s.mem (src + (j - dst)) else Memory.byte s.mem j))

/-! ### Chapter 9: memory -/

/-- LD and LDC complete when the checks of every acting lane pass: the bytes at the location of each lane, for LD with the flue's own
buffered bytes over them, are under way to its registers, and no memory changes, whichever copies leave the caches meanwhile. The stove's
caches are taken to hold what memory holds (09 R197-R205, R210). -/
def Obligations.LoadResults : Prop :=
  ∀ (x : LArgs) (s : State) (i : Issue) (f : Flue) (loc : Nat → Loc), Issuing s i f → (s.stove i.stove).posted = [] →
    let c := i.src x.lit
    let lanes := memLanes x (i.active x.guard)
    let inLine := fun (l : Nat) => ∀ pa, loc l = .gen pa → Whole s pa ∧ pa % 128 + mxSize x ≤ 128
    let same := fun (t : Tab Line) => ∀ line ln, Tab.get? t line = some ln → ln.cid = f.cid → ln.data = Memory.read s.mem (line * 128) 128
    (LRow.ld.check x = none → same (s.stove i.stove).l1 →
      (∀ l ∈ lanes, inLine l ∧ Lands s i.stove f (mxSpace x) (effAddr c (mxSpace x) x.a x.b l) (mxSize x) .load false (loc l)) →
      ∃ t, exec (.ld x) s = .next t ∧ SameMemory s t ∧ LoadResult t i f x fun l =>
        loadWords (mxSize x) (mxSx x)
          (overlay f.sectors (loc l).space (loc l).addr (Memory.read (memoryOf s i.stove f (loc l)) (loc l).addr (mxSize x)))) ∧
    (LRow.ldc.check x = none → same (s.stove i.stove).kcache →
      (∀ l ∈ lanes, inLine l ∧ Lands s i.stove f 0 (effAddr c 0 x.a x.b l) (mxSize x) .load false (loc l)) →
      ∃ t, exec (.ldc x) s = .next t ∧ SameMemory s t ∧ LoadResult t i f x fun l =>
        loadWords (mxSize x) (mxSx x) (Memory.read s.mem (loc l).addr (mxSize x)))

/-- ST and RED complete when the checks of every acting lane pass. Outside a region a store to GEN or PRIV is posted with its bytes, one to SHR or
SCP is made at once, in ascending order of lanes; a RED to GEN or PRIV posts one write for each place, with the operands of the lanes that
name it in ascending order, and acts at once in SHR or SCP. Inside a region ST changes no memory, and the flue's buffer holds the bytes. Every
other byte of every memory, every register and flag, every other flue, group, die, slot and accumulator stays (09 R206-R210, R213, R215). A
store of 64 or 128 bits of `l`, `lane` or `flue` extends the value with zeros (the model's choice, assumption 57). -/
def Obligations.StoreResults : Prop :=
  ∀ (x : LArgs) (s : State) (i : Issue) (f : Flue) (loc : Nat → Loc), Issuing s i f →
    let c := i.src x.lit
    let lanes := lanesOf (i.active x.guard)
    let steps := fun (t : State) => ∃ g, t.flue? i.stove i.slot = some g ∧ g = { f with pc := g.pc } ∧ StepsPast i f g
    let bs := fun l => storeBytes c x.c (mxSize x) l
    let made := fun (t : State) (sh scp : Memory → Memory) =>
      steps t ∧ OnlyStores s t i f ∧
      (∀ gr, s.group? i.stove f.group = some gr → t.group? i.stove f.group = some { gr with shared := sh gr.shared }) ∧
      (t.die (dieOf i.stove)).scp = scp (s.die (dieOf i.stove)).scp
    (LRow.st.check x = none → f.regionOpen = false → (releases x = true → NothingToRelease s i f) →
      (∀ l ∈ lanes, Lands s i.stove f (mxSpace x) (effAddr c (mxSpace x) x.a x.b l) (mxSize x) .store (mxDcl x) (loc l)) →
      ∃ (t : State) (sh scp : Memory → Memory), exec (.st x) s = .next t ∧ made t sh scp ∧
        (∀ m a, Memory.byte (sh m) a = storedByte lanes loc bs 2 a (Memory.byte m a)) ∧
        (∀ m a, Memory.byte (scp m) a = storedByte lanes loc bs 3 a (Memory.byte m a)) ∧
        (t.stove i.stove).posted = (s.stove i.stove).posted ++
          (lanes.filter fun l => (loc l).space == 0).map fun l => ⟨f.cid, (loc l).addr, .store (bs l)⟩) ∧
    (LRow.st.check x = none → f.regionOpen = true → releases x = false → i.active x.guard ≠ 0 → i.active x.guard &&& ~~~f.restart = 0 →
      (∀ l ∈ lanes, Lands s i.stove f (mxSpace x) (effAddr c (mxSpace x) x.a x.b l) (mxSize x) .store (mxDcl x) (loc l)) →
      f.sectors.length + 2 * lanes.length ≤ 256 → (∀ q ∈ f.sectors, q.bytes.length = 16) →
      ∃ (t : State) (g : Flue), exec (.st x) s = .next t ∧ t.flue? i.stove i.slot = some g ∧
        g = { f with pc := g.pc, sectors := g.sectors } ∧ StepsPast i f g ∧ SameMemory s t ∧
        ∀ sp a, bufferedByte g.sectors sp a = lanes.foldl (fun (o : Option Byte) l =>
          if sameBytes (loc l).space sp = true ∧ (loc l).addr ≤ a ∧ a < (loc l).addr + (bs l).length then (bs l)[a - (loc l).addr]? else o)
          (bufferedByte f.sectors sp a)) ∧
    (LRow.red.check x = none → f.regionOpen = false → (releases x = true → NothingToRelease s i f) →
      (∀ l ∈ lanes, Lands s i.stove f (mxSpace x) (atomAddr c (mxSpace x) x.a l) (atomBytes x.ty) .store (mxDcl x) (loc l)) →
      ∃ (t : State) (sh scp : Memory → Memory), exec (.red x) s = .next t ∧ made t sh scp ∧
        (let run := fun (sp : Nat) (m : Memory) =>
           (atomRun (mxAop x) x.ty (fun l => c.read x.b x.ty l) (fun _ => 0) (fun l => (loc l).addr)
             (lanes.filter fun l => (loc l).space == sp) m).2
         ∀ m a, Memory.byte (sh m) a = Memory.byte (run 2 m) a ∧ Memory.byte (scp m) a = Memory.byte (run 3 m) a) ∧
        (let gens := lanes.filter fun l => (loc l).space == 0
         (t.stove i.stove).posted = (s.stove i.stove).posted ++ (gens.map fun l => (loc l).addr).eraseDups.map fun a =>
          ⟨f.cid, a, .red (BitVec.ofNat 3 (mxAop x)) x.ty ((gens.filter fun l => (loc l).addr == a).map fun l => c.read x.b x.ty l)⟩))

/-- ATOM completes when the checks of every acting lane pass: the lanes act one after the other, in ascending order, each on what the one
before left, and each receives the value it found; with `zero` as destination nothing is delivered, and when no source differs by lane the
instruction acts once for all (03 R64, 09 R198, R213-R215). -/
def Obligations.AtomicResults : Prop :=
  ∀ (x : LArgs) (s : State) (i : Issue) (f : Flue) (loc : Nat → Loc), Issuing s i f → LRow.atom.check x = none → NothingToRelease s i f →
    let c := i.src x.lit
    let lanes := memLanes x (i.active x.guard)
    (∀ l ∈ lanes, Lands s i.stove f (mxSpace x) (atomAddr c (mxSpace x) x.a l) (atomBytes x.ty) .atom (mxDcl x) (loc l) ∧
      ∀ pa, loc l = .gen pa → Whole s pa ∧ pa % 128 + atomBytes x.ty ≤ 128) →
    let run := fun (sp : Nat) (m : Memory) =>
      atomRun (mxAop x) x.ty (fun l => c.read x.b x.ty l) (fun l => c.read x.c x.ty l) (fun l => (loc l).addr)
        (lanes.filter fun l => (loc l).space == sp) m
    ∃ t, exec (.atom x) s = .next t ∧ (∀ a, Memory.byte t.mem a = Memory.byte (run 0 s.mem).2 a) ∧ (t.stove i.stove).posted = [] ∧
      (∀ a, Memory.byte (t.die (dieOf i.stove)).scp a = Memory.byte (run 3 (s.die (dieOf i.stove)).scp).2 a) ∧
      (∀ gr, s.group? i.stove f.group = some gr → ∃ sh, t.group? i.stove f.group = some { gr with shared := sh } ∧
        ∀ a, Memory.byte sh a = Memory.byte (run 2 gr.shared).2 a) ∧
      (x.d = .zero → ∃ g, t.flue? i.stove i.slot = some g ∧ g = { f with pc := g.pc } ∧ StepsPast i f g) ∧
      (x.d ≠ .zero → LoadResult t i f x fun l =>
        match ((run 0 s.mem).1 ++ (run 2 (Tab.getD (s.stove i.stove).groups f.group {}).shared).1 ++
            (run 3 (s.die (dieOf i.stove)).scp).1).find? fun p => p.1 == l with
        | some p => wordsOf x.ty.regs p.2
        | none => [])

/-- A memory access fails lane by lane, and stores nothing there: in GEN an address that is not canonical raises XLATE and one that is not
aligned ALIGN; in SHR and SCP an offset that is not aligned raises ALIGN and one that ends beyond the space BOUND. A failing lane stays
at the instruction (in handler mode it steps past), and the cause holds the address of the lowest lane that raised it (09 R203, 13 R300). -/
def Obligations.AccessFaults : Prop :=
  ∀ (x : LArgs) (s : State) (i : Issue) (f : Flue), Issuing s i f → f.regionOpen = false → x.d.isScalar = false →
    f.pending = [] → i.active x.guard ≠ 0 → releases x = false →
    let c := i.src x.lit
    let act := i.active x.guard
    let end_ := if mxSpace x = 2 then (Tab.getD (s.stove i.stove).groups f.group {}).sharedSize else 2 ^ 26
    ∀ p ∈ [(Instr.ld x, mxSize x, effAddr c (mxSpace x) x.a x.b), (.st x, mxSize x, effAddr c (mxSpace x) x.a x.b),
           (.red x, atomBytes x.ty, atomAddr c (mxSpace x) x.a), (.atom x, atomBytes x.ty, atomAddr c (mxSpace x) x.a)],
      let ea := p.2.2
      let cause := fun (l : Nat) =>
        if mxSpace x = 0 then (if canonical (ea l) = false then some cXLATE else if (ea l).toNat % p.2.1 ≠ 0 then some cALIGN else none)
        else if mxSpace x = 1 then none
        else if offsetOf (ea l) % p.2.1 ≠ 0 then some cALIGN
        else if end_ < offsetOf (ea l) + p.2.1 then some cBOUND else none
      (∀ l < 32, act.getLsbD l = true → (cause l).isSome = true) →
      FlueResult p.1 s i fun g =>
        g = { f with pc := g.pc, pending := g.pending } ∧
        Moves i f g 0 (fun _ => 0) (if f.phase = .handler then i.lanes else i.lanes &&& ~~~act) ∧
        ∀ k, let m := maskOf fun l => act.getLsbD l && decide (cause l = some k)
          (m = 0 → Tab.get? g.pending k = none) ∧
          (m ≠ 0 → ∃ q, Tab.get? g.pending k = some q ∧ q.lanes = m ∧ q.faddr = ea (lowLane m) ∧ q.resume = f.resumeAt i.pc)

/-- FENCE, PFENCE, PREF and CINV complete. A releasing FENCE makes the stove's posted writes visible in order before its lanes step past; at SYS
scope it stays while a write to a peer is not acknowledged. PFENCE drops the lines of the context from the L1 or the constant cache, or
applies the posted writes; CINV in its form for all drops its cache's lines of the context; PREF changes no memory, but that posted REDs to
the line it fetches act first (09 R206, R217-R219, 12 R281, R298). COMMIT completes: with an open region and a lane that acts, every buffered byte becomes what the stove sees at its address, every
other byte that the stove sees, of memory, the shared window and the scratchpad, stays, and the region closes; otherwise it only steps past
(08 R196, 09 R210; assumption 11). -/
def Obligations.FenceCommitResults : Prop :=
  (∀ (x : LArgs) (s : State) (i : Issue) (f : Flue), Issuing s i f → f.regionOpen = false →
     let act := i.active x.guard
     let ps := (s.stove i.stove).posted
     let st := fun (t : State) => t.stove i.stove
     let steps := fun (t : State) => ∃ g, t.flue? i.stove i.slot = some g ∧ g = { f with pc := g.pc } ∧ StepsPast i f g
     let whole := PostedWhole s ps
     let others := fun (t : Tab Line) => t.filter fun n => n.2.cid != f.cid
     ((releases x = false ∨ act = 0) → ∃ t, exec (.fence x) s = .next t ∧ steps t ∧ SameMemory s t) ∧
     (releases x = true → act ≠ 0 → whole →
       let held := ∃ c, s.ctx? f.cid = some c ∧ ∃ p ∈ c.roster, p.2.held ≠ []
       let lost := ∃ c, s.ctx? f.cid = some c ∧ ∃ p ∈ c.roster, p.2.held ≠ [] ∧ p.2.lstate ≠ .active
       ∃ t, exec (.fence x) s = .next t ∧ t.mem = postedRun ps s.mem ∧ (st t).posted = [] ∧
         ((mxScope x ≠ 2 ∨ ¬held) → steps t) ∧ (mxScope x = 2 → held → ¬lost → t.flue? i.stove i.slot = some f) ∧
         (mxScope x = 2 → lost → f.phase = .run → ∃ g, t.flue? i.stove i.slot = some g ∧
           g = { f with pc := g.pc, pending := (f.raise i cROSTER act).pending } ∧ Moves i f g 0 (fun _ => 0) (i.lanes &&& ~~~act))) ∧
     (∃ t, exec (.pfenceGen x) s = .next t ∧ steps t ∧ SameMemory s t ∧ (st t).kcache = (s.stove i.stove).kcache ∧
       (st t).l1 = if act = 0 then (s.stove i.stove).l1 else others (s.stove i.stove).l1) ∧
     (∃ t, exec (.pfenceConst x) s = .next t ∧ steps t ∧ SameMemory s t ∧ (st t).l1 = (s.stove i.stove).l1 ∧
       (st t).kcache = if act = 0 then (s.stove i.stove).kcache else others (s.stove i.stove).kcache) ∧
     (whole → ∃ t, exec (.pfenceTile x) s = .next t ∧ steps t ∧
       (act = 0 → t.mem = s.mem) ∧ (act ≠ 0 → t.mem = postedRun ps s.mem ∧ (st t).posted = [])) ∧
     (∃ t, exec (.pref x) s = .next t ∧ steps t ∧ ((∀ p ∈ ps, p.kind.isRed = false) → SameMemory s t)) ∧
     (∃ t, exec (.cinv x) s = .next t ∧ steps t ∧ SameMemory s t ∧
       (x.modx.getLsbD 1 = true → act ≠ 0 →
         (st t).l1 = (if x.modx.getLsbD 0 = true then (s.stove i.stove).l1 else others (s.stove i.stove).l1) ∧
         (st t).kcache = if x.modx.getLsbD 0 = true then others (s.stove i.stove).kcache else (s.stove i.stove).kcache))) ∧
  (∀ (x : CArgs) (s : State) (i : Issue) (f : Flue) (gr : Group), Issuing s i f → s.group? i.stove f.group = some gr →
     ((f.regionOpen = false ∨ i.active x.guard = 0) →
       FlueResult (.commit x) s i fun g => g = { f with pc := g.pc } ∧ Moves i f g 0 (fun _ => 0) i.lanes) ∧
     (f.regionOpen = true → i.active x.guard ≠ 0 →
       (∀ c ∈ f.sectors, c.bytes.length = 16 ∧ c.space ≤ 3 ∧ (c.space ≤ 1 → paKind (16 * c.addr) = .hbm ∧ 16 * c.addr < localTop)) →
       (f.sectors.map fun c => (c.space, c.addr)).Nodup →
       (∀ c ∈ f.sectors, ∀ d ∈ f.sectors, c ≠ d → sameBytes c.space d.space = true → c.addr = d.addr →
         ∀ k : Nat, c.bytes[k]?.join = none ∨ d.bytes[k]?.join = none) →
       ∃ (t : State) (g : Flue) (gr' : Group), exec (.commit x) s = .next t ∧ t.flue? i.stove i.slot = some g ∧
         t.group? i.stove f.group = some gr' ∧ g = { f with pc := g.pc, regionOpen := false, sectors := [], restart := 0 } ∧
         Moves i f g 0 (fun _ => 0) i.lanes ∧ t.mem = s.mem ∧
         (∀ a, Memory.byte gr'.shared a = (bufferedByte f.sectors 2 a).getD (Memory.byte gr.shared a)) ∧
         (∀ a, Memory.byte (t.die (dieOf i.stove)).scp a =
           (bufferedByte f.sectors 3 a).getD (Memory.byte (s.die (dieOf i.stove)).scp a)) ∧
         ∀ a, (t.lineSeen i.stove (a / 128))[a % 128]? =
           (s.lineSeen i.stove (a / 128))[a % 128]?.map fun b => (bufferedByte f.sectors 0 a).getD b))

/-- A posted write is applied at its home slice: the bytes it covers, and no other, become what its kind makes of them, unless an earlier write
of the stove to the same line is still posted (09 R208, R213, 12 R281). Arrival words. AWSET arms a word with a target that is not zero, its
count zero, its generation kept, under the setting flue; AWADD counts bytes, and at the target the count returns to zero and the generation
rises, with OVR set when it went past the target or the word is not armed; AWWAIT leaves its lanes waiting for a word to leave the
generation that they give, and without a flag steps past and holds the lanes of its group at their next clause (03 R72; assumption 31); the return gives a lane the generation
that the word has then (09 R220-R222, 18 R396-R398). -/
def Obligations.PostedArrivalResults : Prop :=
  (∀ (s : State) (stove n : Nat) (p : Posted), (s.stove stove).posted[n]? = some p → s.bad p.pa = false →
     let ps := (s.stove stove).posted
     (∀ q ∈ ps.take n, q.pa / 128 ≠ p.pa / 128) → ∃ t, exec (.postedWriteApply stove n) s = .next t ∧
       (t.stove stove).posted = ps.eraseIdx n ∧
       (∀ a, Memory.byte t.mem a = if p.pa ≤ a ∧ a < p.pa + p.kind.size
         then (p.kind.result (Memory.read s.mem p.pa p.kind.size)).getD (a - p.pa) 0 else Memory.byte s.mem a) ∧
       (∀ a b, t.flue? a b = s.flue? a b) ∧ ∀ a, a ≠ stove → (t.stove a).posted = (s.stove a).posted) ∧
  (∀ (x : LArgs) (s : State) (i : Issue) (f : Flue) (addr : Nat → Nat), Issuing s i f →
     let c := i.src x.lit
     let act := i.active x.guard
     let die := dieOf i.stove
     let word := fun (t : State) (a k : Nat) => Memory.read4 (t.die die).scp (a + 4 * k)
     let steps := fun (t : State) => ∃ g, t.flue? i.stove i.slot = some g ∧ g = { f with pc := g.pc } ∧ StepsPast i f g
     (∀ l < 32, act.getLsbD l = true → Lands s i.stove f 3 ((c.word x.a l).setWidth 64) 16 .load false (.scp (addr l))) →
     let apart := ∀ l < 32, ∀ l' < 32, act.getLsbD l = true → act.getLsbD l' = true → l < l' →
       addr l + 16 ≤ addr l' ∨ addr l' + 16 ≤ addr l
     let elsewhere := fun (t : State) => t.mem = s.mem ∧ ∀ a, (∀ l < 32, act.getLsbD l = true → a < addr l ∨ addr l + 16 ≤ a) →
       Memory.byte (t.die die).scp a = Memory.byte (s.die die).scp a
     (NothingToRelease s i f → apart → (∀ l < 32, act.getLsbD l = true → c.word x.b l ≠ 0) →
       ∃ t, exec (.awset x) s = .next t ∧ steps t ∧ elsewhere t ∧ ∀ l < 32, act.getLsbD l = true →
         word t (addr l) 0 = c.word x.b l ∧ word t (addr l) 1 = 0 ∧ word t (addr l) 2 = word s (addr l) 2 ∧
         word t (addr l) 3 = BitVec.ofNat 32 (2 ^ 31 + s.lstove i.stove % 1024 * 32 + i.slot % 32)) ∧
     (NothingToRelease s i f → apart → ∃ t, exec (.awadd x) s = .next t ∧ steps t ∧ elsewhere t ∧ ∀ l < 32, act.getLsbD l = true →
       let n := (word s (addr l) 1).toNat + (c.word x.b l).toNat
       let target := (word s (addr l) 0).toNat
       word t (addr l) 0 = word s (addr l) 0 ∧
       ((word s (addr l) 3).getLsbD 31 = false → word t (addr l) 1 = word s (addr l) 1 ∧ word t (addr l) 2 = word s (addr l) 2 ∧
         word t (addr l) 3 = word s (addr l) 3 ||| 0x40000000) ∧
       ((word s (addr l) 3).getLsbD 31 = true → n < target → word t (addr l) 1 = BitVec.ofNat 32 n ∧
         word t (addr l) 2 = word s (addr l) 2 ∧ word t (addr l) 3 = word s (addr l) 3) ∧
       ((word s (addr l) 3).getLsbD 31 = true → target ≤ n → word t (addr l) 1 = 0 ∧ word t (addr l) 2 = word s (addr l) 2 + 1 ∧
         word t (addr l) 3 = if target < n then word s (addr l) 3 ||| 0x40000000 else word s (addr l) 3)) ∧
     (act ≠ 0 → ∃ (t : State) (g : Flue) (new : List AwWait), exec (.awwait x) s = .next t ∧ t.flue? i.stove i.slot = some g ∧
       SameMemory s t ∧ g = { f with pc := g.pc, awaits := f.awaits ++ new, flags := g.flags, lown := g.lown } ∧ StepsPast i f g ∧
       new.map (fun w => (w.lane, w.addr, w.expect)) = (lanesOf act).map (fun l => (l, addr l, c.word x.b l)) ∧
       (∀ w ∈ new, w.loc = i.view.loc x.d 0 ∧ w.flag = i.flag x.f ∧ w.seed = i.seed ∧ w.held = if x.f = .none then i.lanes else 0) ∧
       (∀ l, Tab.get? g.lown l = if act.getLsbD l = true ∧ x.f = .none ∧ x.d.latches = true then some i.seed else Tab.get? f.lown l) ∧
       ∀ k, SMap.get g.flags k = SMap.get f.flags k + if i.flag x.f = some k then 1 else 0) ∧
     ∀ (w : AwWait), w ∈ f.awaits → f.openRvs = [] → w.lane < 32 → (∀ v ∈ f.awaits, v.lane = w.lane → v = w) → f.awaits.Nodup →
       (word s w.addr 2 ≠ w.expect → ∃ g : Flue, exec (.awwaitReturn ⟨i.stove, i.slot⟩ w.lane) s = .next (s.setFlue i.stove i.slot g) ∧
         g.awaits = f.awaits.filter (fun v => v != w) ∧ g.pc = f.pc ∧ Written f g [⟨w.loc, w.lane, word s w.addr 2, w.toLatch⟩] ∧
         SMap.get g.l w.lane = (if w.toLatch = true ∧ Tab.get? f.lown w.lane = some w.seed then word s w.addr 2 else SMap.get f.l w.lane) ∧
         ∀ k, SMap.get g.flags k =
           SMap.get f.flags k - if w.flag = some k ∧ (∀ v ∈ f.awaits, v ≠ w → v.seed ≠ w.seed) then 1 else 0) ∧
       (word s w.addr 2 = w.expect → exec (.awwaitReturn ⟨i.stove, i.slot⟩ w.lane) s = .next (s.setFlue i.stove i.slot f)))

/-! ### Chapter 10: engines -/

/-- TCOPY, GATHER, SCATTER and STREAM issue: with the identifiers valid, the tensors alike and their rows within reach, one operation with the
contents of the descriptors read now joins its class; an identifier that is not valid raises BOUND, a slot that the gang does not hold
OSLOT, and nothing is issued (10 R225, R226, R234-R240, R494). COLL issues, in each of its five kinds: with a process group that the kernel
is in, its table readable and the tensors shaped as the kind asks and of its formats (assumption 32), one operation joins class CL with the
number of ranks and its own rank; a member that is not on the roster makes it end with that status; a group that the kernel is not in, and
formats that the kind does not take, raise BOUND (10 R242, R243, 20 R428). -/
def Obligations.EngineIssueResults : Prop :=
  (∀ (x : LArgs) (s : State) (i : Issue) (f : Flue), Issuing s i f → NothingHeld s i f → i.active x.guard ≠ 0 →
     let a := (i.src x.lit).word x.a 0
     let b := (i.src x.lit).word x.b 0
     let blk := fun n => (i.src x.lit).run x.c n 0
     let tid := fun (w : Word) => s.tid? f.cid w.toNat
     let awOff := fun n => ((blk (n + 1)).getD n 0).toNat
     let aw := fun (on : Bool) (n : Nat) (sides : List (Nat × List (Nat × Nat))) =>
       (on = true → awOff n % 16 = 0 ∧ Reachable s i.stove f (sides ++ [(3, [(awOff n, 16)])])) ∧ (on = false → Reachable s i.stove f sides)
     let good4 := fun (d : Descriptor) (c : Int) => d.fmt = 6 → c % 32 = 0
     let sc := blockCoords (blk 10) 0
     let dc := blockCoords (blk 10) 5
     (∀ sd dd, mxDs x = false → mxSs x = false → tid b = some sd → tid a = some dd → sd.fmt = dd.fmt →
       (∀ k < 5, sd.boxAt k = dd.boxAt k) → good4 sd (sd.coord sc 0) → good4 dd (dd.coord dc 0) →
       aw (mxAw x) 10 [(sd.space, sd.rowSpans sd.boxAt sc), (dd.space, dd.rowSpans dd.boxAt dc)] →
       Queued (.tcopy x) s i f 0 fun op => op.instr = .tcopy x ∧ op.src = some sd ∧ op.dst = some dd ∧ op.units = rowsOf sd.boxAt ∧
         op.block.take 10 = blk 10 ∧ op.status = .ok ∧ op.slots = []) ∧
     (∀ d, (mxDs x != mxSs x) = true → tid (if mxDs x then b else a) = some d → d.fits = true →
       good4 d (d.coord (blockCoords (blk 5) 0) 0) →
       let slot := if mxDs x then a else b
       (HoldsSlots s i f [slot.toNat] → f.gang = 0 → aw (mxAw x) 5 [(d.space, d.rowSpans d.boxAt (blockCoords (blk 5) 0))] →
         Queued (.tcopy x) s i f 0 fun op => op.instr = .tcopy x ∧ op.slots = [slot.toNat] ∧ op.units = rowsOf d.boxAt ∧
           (if mxDs x then op.src else op.dst) = some d ∧ (if mxDs x then op.dst else op.src) = none ∧ op.block.take 5 = blk 5) ∧
       (slot.toNat < 32 → Tab.get? (s.stove i.stove).claims slot.toNat = none → Raises (.tcopy x) s i f cOSLOT i.lanes)) ∧
     (mxDs x = false → mxSs x = false → (tid b = none ∨ tid a = none) → Raises (.tcopy x) s i f cBOUND i.lanes) ∧
     (∀ g : Bool, ∀ ind idx od, tid (if g then b else a) = some ind → tid ((blk 3).getD 0 0) = some idx →
       tid (if g then a else b) = some od → (if g then mxDs x else mxSs x) = false → idx.fmt = 7 → idx.rank = 1 → ind.rank ≤ 2 →
       od.fmt = ind.fmt → good4 ind ((blk 3).getD 2 0).toInt → good4 od (od.coord (blockCoords (blk 8) 3) 0) →
       aw (mxAw x) 8 [(ind.space, ind.wholeSpans),
         (idx.space, idx.rowSpans (fun k => if k = 0 then ind.boxAt 1 else 1) [((blk 3).getD 1 0).toInt, 0, 0, 0, 0]),
         (od.space, od.rowSpans ind.boxAt (blockCoords (blk 8) 3))] →
       Queued (if g then .gather x else .scatter x) s i f 2 fun op => op.instr = (if g then .gather x else .scatter x) ∧
         op.src = some (if g then ind else od) ∧ op.dst = some (if g then od else ind) ∧ op.aux = [idx] ∧ op.units = ind.boxAt 1 ∧
         op.block.take 8 = blk 8) ∧
     (∀ g : Bool, tid (if g then b else a) = none → Raises (if g then .gather x else .scatter x) s i f cBOUND i.lanes) ∧
     (let n := 2 * ((x.modx.extractLsb' 0 3).toNat + 1)
      let pairs := chainPairs (blk n)
      let used := (pairs.filter fun p => decide (p.1 = 12 ∨ p.1 = 13)).map (·.2)
      ∀ (src dst : Descriptor) (aux : List Descriptor), tid b = some src → tid a = some dst → aux.length = used.length →
        (∀ (j : Nat) (w : Word), used[j]? = some w → tid w = aux[j]?) →
        ((∀ p ∈ pairs, 1 ≤ p.1 ∧ p.1 ≤ 13 ∧ (5 ≤ p.1 → p.1 ≤ 10 → p.2 = 0)) →
          (∀ d ∈ dst :: aux, d.rank = src.rank ∧ d.ext = src.ext) →
          ((dst.fmt = 6 ∨ dst.sblk ≠ 0) → dst.extent 0 % dst.blockLen = 0) →
          Reachable s i.stove f ((src :: dst :: aux).map fun d => (d.space, d.wholeSpans)) →
          Queued (.stream x) s i f 0 fun op => op.instr = .stream x ∧ op.src = some src ∧ op.dst = some dst ∧ op.aux = aux ∧
            op.units = src.runs ∧ op.block = blk n) ∧
        ((∃ p ∈ pairs, p.1 = 0 ∨ 13 < p.1 ∨ (5 ≤ p.1 ∧ p.1 ≤ 10 ∧ p.2 ≠ 0)) → Raises (.stream x) s i f cBOUND i.lanes))) ∧
  (∀ (x : LArgs) (s : State) (i : Issue) (f : Flue) (k : Kernel) (src dst : Descriptor) (h : List Byte) (ms : List (Nat × BitVec 256))
     (c : Context), Issuing s i f → NothingHeld s i f → i.active x.guard ≠ 0 → s.kernel? f.part f.kslot = some k →
     s.ctx? f.cid = some c → s.tid? f.cid ((i.src x.lit).word x.a 0).toNat = some dst → s.tid? f.cid ((i.src x.lit).word x.b 0).toNat = some src →
     let blk := (i.src x.lit).run x.c 2 0
     let pg := (blk.getD 0 0).toNat
     let kinds : List (Instr × Nat) := [(.collAllred x, 0), (.collRedsc x, 1), (.collAllga x, 2), (.collA2a x, 3), (.collBcast x, 4)]
     let last := src.rank - 1
     let fmts := fun (kind : Nat) =>
       if kind ≤ 1 then (src.fmt ≤ 2 ∧ dst.fmt ≤ 2) ∨ (x.modx.getLsbD 5 = false ∧ src.fmt = 7 ∧ dst.fmt = 7) else src.fmt = dst.fmt
     ∀ p ∈ kinds, (x.modx.extractLsb' 0 3).toNat = p.2 →
       ((k.npg ≤ pg ∨ k.pgmask.getLsbD pg = false) → Raises p.1 s i f cBOUND i.lanes) ∧
       (s.devRead f.cid k.launch.pgtab 64 = .ok h → s.pgMembers f.cid k.launch.pgtab pg (leNat (h.take 4)) 0 = .ok ms → ¬fmts p.2 →
         Raises p.1 s i f cBOUND i.lanes) ∧
       (pg < k.npg → k.pgmask.getLsbD pg = true → s.devRead f.cid k.launch.pgtab 64 = .ok h →
         s.pgMembers f.cid k.launch.pgtab pg (leNat (h.take 4)) 0 = .ok ms →
         dst.rank = src.rank → (∀ j < last, dst.extent j = src.extent j) → fmts p.2 →
         (p.2 = 1 → src.extent last % ms.length = 0 ∧ dst.extent last = src.extent last / ms.length) →
         (p.2 = 2 → dst.extent last = src.extent last * ms.length) →
         (p.2 ≠ 1 → p.2 ≠ 2 → dst.extent last = src.extent last) →
         (p.2 = 3 → src.extent last % ms.length = 0) →
         (src.fmt = 6 → p.2 = 1 ∨ p.2 = 3 → src.total / ms.length % 32 = 0) →
         (p.2 = 4 → (blk.getD 1 0).toNat < ms.length) →
         Reachable s i.stove f [(src.space, src.wholeSpans), (dst.space, dst.wholeSpans)] →
         Queued p.1 s i f 3 fun op => op.instr = p.1 ∧ op.src = some src ∧ op.dst = some dst ∧ op.units = (src.total + 31) / 32 ∧
           op.block.take 2 = blk ∧ op.block[2]? = some (BitVec.ofNat 32 ms.length) ∧
           (op.status = .ok ∨ op.status = .roster) ∧
           (op.status = .ok ↔ ∀ m ∈ ms, m.1 = k.srank ∨ ∃ q ∈ c.roster, q.2.idHash = m.2 ∧ q.2.lstate = .active)))

/-- TIDSET makes an identifier's entry what the 64 bytes at its address describe, as a load finds them, TIDCLR makes it invalid, and no other entry nor memory
changes; an identifier of 256 or more and a descriptor that R233 refuses raise BOUND and leave the entries (10 R231-R233, 16 R364). WAITC
stays while its class counts more than N operations, then steps past, or raises ENGINE once an error stands in the class's status. ECTL
reads the status, clears it with the progress register, reads the count, or cancels the outstanding operations and gives how many there were
(10 R226, R229, R245, R246); the lanes that wait for an MMA.H so cancelled step past it (the model's choice, assumption 59). -/
def Obligations.TensorEngineControlResults : Prop :=
  (∀ (x : LArgs) (s : State) (i : Issue) (f : Flue) (c : Context) (pa : Nat), Issuing s i f → NothingHeld s i f → i.active x.guard ≠ 0 →
     s.ctx? f.cid = some c →
     let ea := (i.src x.lit).read x.a .z64 0
     let b := Memory.read s.mem pa 64
     let steps := fun (t : State) => ∃ g, t.flue? i.stove i.slot = some g ∧ g = { f with pc := g.pc } ∧ StepsPast i f g
     let others := fun (t : State) (n : Nat) => t.mem = s.mem ∧
       (∀ cid m, ¬(cid = f.cid ∧ m = n) → t.tid? cid m = s.tid? cid m) ∧ ∀ st, (f.cid, n) ∉ (t.stove st).idCache
     let same := ∀ line ln, Tab.get? (s.stove i.stove).l1 line = some ln → ln.cid = f.cid → ln.data = Memory.read s.mem (line * 128) 128
     (Maps s i.stove f.cid ea 64 .load false pa → pa % 128 + 64 ≤ 128 → same →
       let n := ((i.src x.lit).word x.b 0).toNat
       (n < 256 → descOk b = true → ∃ t d, exec (.tidset x) s = .next t ∧ steps t ∧ t.tid? f.cid n = some d ∧ DescribedBy b d ∧ others t n) ∧
       ((256 ≤ n ∨ descOk b = false) → ∃ t g, exec (.tidset x) s = .next t ∧ t.flue? i.stove i.slot = some g ∧
         g = { f with pc := g.pc, pending := (f.raise i cBOUND i.lanes).pending } ∧
         Moves i f g 0 (fun _ => 0) (if f.phase = .handler then i.lanes else 0) ∧ (∀ cid m, t.tid? cid m = s.tid? cid m) ∧ t.mem = s.mem)) ∧
     (let n := ((i.src x.lit).word x.a 0).toNat
      (n < 256 → ∃ t, exec (.tidclr x) s = .next t ∧ steps t ∧ t.tid? f.cid n = none ∧ others t n) ∧
      (256 ≤ n → Raises (.tidclr x) s i f cBOUND i.lanes))) ∧
  (∀ (x : LArgs) (s : State) (i : Issue) (f : Flue), Issuing s i f → NothingHeld s i f → i.active x.guard ≠ 0 →
     let cls := (x.modx.extractLsb' 0 2).toNat
     let n := (x.modx.extractLsb' 2 6).toNat
     let e := Tab.getD f.estat cls {}
     let gets := fun (ws : List LaneWrite) (w : Word) => WritesOf i.view x.d 1 ws fun l =>
       if x.d.isScalar = true then if l = 0 then some (w.setWidth 64) else none
       else if (i.active x.guard).getLsbD l = true then some (w.setWidth 64) else none
     let count := BitVec.ofNat 32 (opsOf f cls).length
     (n < (opsOf f cls).length → exec (.waitc x) s = .next s) ∧
     ((opsOf f cls).length ≤ n → e.code = 0 → Waited (.waitc x) s i f cls fun g => g = { f with pc := g.pc } ∧ StepsPast i f g) ∧
     ((opsOf f cls).length ≤ n → e.code ≠ 0 → Waited (.waitc x) s i f cls fun g =>
       g = { f with pc := g.pc, pending := (f.raise i cENGINE i.lanes).pending } ∧
       Moves i f g 0 (fun _ => 0) (if f.phase = .handler then i.lanes else 0)) ∧
     (FlueResult (.ectlStat x) s i fun g => g = { f with pc := g.pc, outs := g.outs, flags := g.flags, lown := g.lown } ∧ StepsPast i f g ∧
       ∃ ws, Awaits i f g x ws ∧ gets ws (BitVec.ofNat 32 (2 ^ 24 * e.code.toNat + 2 ^ 16 * e.flags.toNat))) ∧
     (FlueResult (.ectlCnt x) s i fun g => g = { f with pc := g.pc, outs := g.outs, flags := g.flags, lown := g.lown } ∧ StepsPast i f g ∧
       ∃ ws, Awaits i f g x ws ∧ gets ws count) ∧
     (FlueResult (.ectlClr x) s i fun g =>
       g = { f with pc := g.pc, outs := g.outs, flags := g.flags, lown := g.lown, estat := g.estat, prog := 0xFFFFFFFF#32 } ∧ StepsPast i f g ∧
       Tab.getD g.estat cls {} = {} ∧ (∀ k, k ≠ cls → Tab.getD g.estat k {} = Tab.getD f.estat k {}) ∧ Awaits i f g x []) ∧
     (let alone := ∀ o ∈ opsOf f cls, (∀ o' ∈ f.allOps, o'.uid = o.uid → o'.flag = none) ∧ ∀ k, k ≠ cls → ∀ o' ∈ opsOf f k, o'.uid ≠ o.uid
      (alone → (∀ o ∈ opsOf f cls, o.started = true) →
       ∃ t g ws, exec (.ectlCncl x) s = .next t ∧ t.flue? i.stove i.slot = some g ∧ t.mem = s.mem ∧
         (t.stove i.stove).acc = (s.stove i.stove).acc ∧ (t.stove i.stove).slots = (s.stove i.stove).slots ∧
         g = { f with pc := g.pc, outs := g.outs, flags := g.flags, lown := g.lown, ops := g.ops, estat := g.estat } ∧ StepsPast i f g ∧
         opsOf g cls = [] ∧ (∀ k, k ≠ cls → opsOf g k = opsOf f k) ∧ (Tab.getD g.estat cls {}).code = e.code ∧
         Awaits i f g x ws ∧ gets ws count) ∧
      (∀ o rv, alone → f.phase ≠ .handler → f.mmahWait &&& (i.lanes ||| ~~~f.unparked) = 0 → opsOf f cls = [o] → o.started = false →
        (s.hearth (hearthOf i.stove)).hrvs = [rv] → o.uid ∈ rv.arrivals.map (·.1) →
        ∃ t g, exec (.ectlCncl x) s = .next t ∧ t.flue? i.stove i.slot = some g ∧ t.mem = s.mem ∧ opsOf g cls = [] ∧ g.mmahWait = 0 ∧
          Moves i f g f.mmahWait (fun _ => rv.next) i.lanes)))

/-! ### Chapter 10: gangs and matrix operations -/

/-- GANG. A mask of zero in a gang of one that holds no slot steps past; a mask of two to six flues of the group, the issuer among them, waits
in the latch until the last of them arrives, and then every member's `sr.gang` is the mask and every member steps past; any other mask
raises BOUND; in handler mode PRIV (10 R247, R248, 13 R303). OSCLAIM and OSREL in a gang of one. OSCLAIM of a free slot claims it, zeroing
it when another context held it last, and gives true; of its own slot it gives true, of another's false, and changes no claim; the latch keeps its value when that
arrives (05 R111). OSREL frees a
slot that the gang holds and no operation names, and raises OSLOT of any other; a slot of 32 or more raises BOUND (10 R250). -/
def Obligations.GangSlotResults : Prop :=
  (∀ (x : LArgs) (s : State) (i : Issue) (f : Flue), Issuing s i f → NothingHeld s i f → i.active x.guard ≠ 0 → x.f = .none → GroupUp i f →
     let a := (i.src x.lit).word x.a 0
     let gr := Tab.getD (s.stove i.stove).groups f.group {}
     let good := f.gang = 0 ∧ 2 ≤ laneCount a ∧ laneCount a ≤ 6 ∧ a.getLsbD f.gflue = true ∧ ∀ n < 32, a.getLsbD n = true → n < gr.nflue
     let is := fun (r : GangRv) => r.group = f.group ∧ r.mask = a ∧ r.pc = i.pc ∧ r.depth = f.curDepth
     (f.phase = .handler → Raises (.gang x) s i f cPRIV i.lanes) ∧
     (f.phase ≠ .handler → a = 0 → f.gang = 0 → (∀ k < 32, Tab.get? (s.stove i.stove).claims k = none) →
       SoloResult (.gang x) s i f fun l => l = opsOf f 1) ∧
     (f.phase ≠ .handler → a ≠ 0 → ¬good → Raises (.gang x) s i f cBOUND i.lanes) ∧
     (f.phase ≠ .handler → good → a &&& gr.drained = 0 →
       ((s.stove i.stove).latch = [] → ∃ (t : State) (r : GangRv), exec (.gang x) s = .next t ∧ t.flue? i.stove i.slot = some f ∧
         (t.stove i.stove).latch = [r] ∧ is r ∧ r.a = a.setWidth 64 ∧ r.arrivals = [(f.gflue, ⟨i.slot, i.lanes, i.active x.guard⟩)] ∧
         t.mem = s.mem ∧ ∀ p q, t.flue? p q = s.flue? p q) ∧
       (∀ r, (s.stove i.stove).latch = [r] → is r → r.next = i.next → r.flag = none → r.instr = .gang x →
         r.a = a.setWidth 64 → r.b = ((i.src x.lit).word x.b 0).setWidth 64 → r.c = 0 → r.block = [] →
         (r.arrivals.map (·.1)).Pairwise (· < ·) → (∀ n, n ∈ r.arrivals.map (·.1) ↔ n < 32 ∧ a.getLsbD n = true ∧ n ≠ f.gflue) →
         (i.slot :: r.arrivals.map (·.2.slot)).Nodup →
         (∀ p ∈ r.arrivals, p.2.active ≠ 0 ∧ ∃ h, s.flue? i.stove p.2.slot = some h ∧ p.2.lanes &&& ~~~h.unparked = 0) →
         ∃ t, exec (.gang x) s = .next t ∧ (t.stove i.stove).latch = [] ∧ t.mem = s.mem ∧
           ∀ p ∈ (f.gflue, ⟨i.slot, i.lanes, i.active x.guard⟩) :: r.arrivals, ∀ h, s.flue? i.stove p.2.slot = some h →
             ∃ g, t.flue? i.stove p.2.slot = some g ∧ g = { h with gang := a, pc := g.pc, l := g.l, lown := g.lown } ∧
               ∀ l < 32, g.pcOf l = if p.2.lanes.getLsbD l = true then i.next else h.pcOf l))) ∧
  (∀ (x : LArgs) (s : State) (i : Issue) (f : Flue), Issuing s i f → NothingHeld s i f → i.active x.guard ≠ 0 → f.gang = 0 → f.phase ≠ .handler →
     GroupUp i f →
     let k := ((i.src x.lit).word x.a 0).toNat
     let st := s.stove i.stove
     let answer := fun (ws : List LaneWrite) (v : Bool) => ∀ w, w ∈ ws ↔ ∃ l < 32, (i.active x.guard).getLsbD l = true ∧
       w = ⟨.p (predNum x.d), l, if v then 1 else 0, false⟩
     let claims := fun (v : Bool) (P : State → Prop) => ∃ t g, exec (.osclaim x) s = .next t ∧ t.flue? i.stove i.slot = some g ∧ t.mem = s.mem ∧
       (t.stove i.stove).acc = st.acc ∧ P t ∧
       (x.f = .none → ∃ rv, g = { f with rvs := f.rvs ++ [rv] } ∧ rv.pc = i.pc ∧ rv.mask = i.lanes ∧ rv.done = true ∧ rv.next = i.next ∧
         rv.keepL = true ∧ answer rv.writes v) ∧
       (∀ n, i.flag x.f = some n → ∃ ws, g = { f with pc := g.pc, l := g.l, lown := g.lown, outs := f.outs ++ [{ flag := some n, writes := ws }], flags := g.flags } ∧
         answer ws v ∧ StepsPast i f g ∧ LatchSettles f g ∧ ∀ m, SMap.get g.flags m = SMap.get f.flags m + if n = m then 1 else 0)
     (k < 32 → (∀ c, Tab.get? st.claims k = some c → c.held = false) →
       claims true fun t => (∃ c, Tab.get? (t.stove i.stove).claims k = some c ∧ c.held = true ∧ c.group = f.group ∧ c.gang = 0 ∧
           c.solo = f.gflue ∧ c.cid = f.cid) ∧
         (∀ n, n ≠ k → Tab.get? (t.stove i.stove).claims n = Tab.get? st.claims n) ∧
         ∀ a, Memory.byte (t.stove i.stove).slots a =
           if slotBase k ≤ a ∧ a < slotBase k + 18432 ∧ (Tab.getD st.claims k {}).cid ≠ f.cid then 0 else Memory.byte st.slots a) ∧
     (∀ c, k < 32 → Tab.get? st.claims k = some c → c.held = true →
       claims (decide (c.group = f.group ∧ c.gang = 0 ∧ c.solo = f.gflue)) fun t =>
         (t.stove i.stove).claims = st.claims ∧ (t.stove i.stove).slots = st.slots) ∧
     (32 ≤ k → x.f = .none → Raises (.osclaim x) s i f cBOUND i.lanes) ∧
     (x.f = .none → (32 ≤ k → Raises (.osrel x) s i f cBOUND i.lanes) ∧
       (k < 32 → ¬HoldsSlots s i f [k] → Raises (.osrel x) s i f cOSLOT i.lanes) ∧
       (HoldsSlots s i f [k] → (∀ p ∈ st.flues, ∀ o ∈ p.2.allOps, k ∉ o.slots) →
         (∀ gr, s.group? i.stove f.group = some gr → gr.saved = []) →
         ∃ t g, exec (.osrel x) s = .next t ∧ t.flue? i.stove i.slot = some g ∧ g = { f with pc := g.pc, l := g.l, lown := g.lown } ∧ StepsPast i f g ∧
           LatchSettles f g ∧ t.mem = s.mem ∧ (t.stove i.stove).slots = st.slots ∧
           ∃ c, Tab.get? (t.stove i.stove).claims k = some c ∧ c.held = false)))

/-- MMA, MMAS, MMAB, ACCZ, ACCLD and ACCST in a gang of one are counted in MX and step past, when the region lies in the group's rows and the
columns and the slots are held; a region that does not fit raises BOUND, a slot that is not held OSLOT (10 R252-R255, R257-R259, R261-R263).
ACCMV issues: its position names a column that is a multiple of 32 and rows that the group has, and then one operation of class MX holds the
lanes' registers that it will write, or the words that it will store; otherwise the acting lanes raise BOUND (10 R260). The
extents of the last product of MMAB, and that the lanes of ACCMV that raise BOUND are those that act, are the model's reading (assumption 33). -/
def Obligations.MatrixIssueResults : Prop :=
  (∀ (x : LArgs) (s : State) (i : Issue) (f : Flue), Issuing s i f → NothingHeld s i f → i.active x.guard ≠ 0 → f.gang = 0 →
     f.phase ≠ .handler → x.f = .none → GroupUp i f →
     let a := (i.src x.lit).word x.a 0
     let b := (i.src x.lit).word x.b 0
     let at' := (x.modx.extractLsb' 0 3).toNat
     let bt := (x.modx.extractLsb' 3 3).toNat
     let size := fun (c : Nat) => if c = 2 ∨ c = 3 then 2 else 1
     let k := if at' = 5 ∨ bt = 5 then 256 else if size at' = 2 then 64 else 128
     let per := fun (c k : Nat) => if c = 5 then 1 else k * size c / 128
     let cols := 16 * (a.toNat / 2 ^ 20 % 64 + 1)
     let blocks := (cols + 127) / 128
     let aSl := b.toNat % 32
     let bSl := b.toNat / 32 % 32
     let run := fun (m n : Nat) => (List.range n).map fun j => m + j
     let isOp := fun (ins : Instr) (units : Nat) (ks : List Nat) (op : EngineOp) =>
       op.instr = ins ∧ op.a = a.setWidth 64 ∧ op.b = b.setWidth 64 ∧ op.units = units ∧ op.slots = ks ∧ op.started = true ∧ op.status = .ok
     let checked := fun (ins : Instr) (fits : Prop) (ks : List Nat) (units : Nat) =>
       (fits → HoldsSlots s i f ks → SoloIssues ins s i f (isOp ins units ks)) ∧
       (¬fits → Raises ins s i f cBOUND i.lanes) ∧
       (fits → (∀ n ∈ ks, n < 32) → ¬HoldsSlots s i f ks → Raises ins s i f cOSLOT i.lanes)
     let kl := 128 / ((if x.modx.getLsbD 6 then 32 else 64) * size at') * 128
     checked (.mma x) (RegionFits s i f a ∧ b.toNat < 2 ^ 10) (run aSl (per at' k) ++ run bSl (blocks * per bt k)) (blocks * (k / 32)) ∧
     checked (.mmas x) (RegionFits s i f a ∧ b.toNat < 2 ^ 15)
       ([aSl, b.toNat / 2 ^ 10 % 32] ++ run bSl (blocks * per bt kl)) (blocks * (kl / 32)) ∧
     (let rows := a.toNat / 128 % 128 + 1
      checked (.mmab x) (a.toNat < 2 ^ 26 ∧ rows ≤ 32 ∧ cols ≤ 64 ∧
         a.toNat % 128 + 96 + rows ≤ (Tab.getD (s.stove i.stove).groups f.group {}).accN ∧ 16 * (a.toNat / 2 ^ 14 % 64) + 192 + cols ≤ 1024 ∧
         b.toNat < 2 ^ 10) (run aSl 4 ++ run bSl 8) (k / 32) ∧
      checked (.accz x) (RegionFits s i f a) [] rows ∧
      ∀ d, s.tid? f.cid b.toNat = some d →
        let cs := fun n => blockCoords ((i.src x.lit).run x.c n 0) 0
        let box := fun j => if j = 0 then cols else if j = 1 then rows else 1
        (RegionFits s i f a → (d.fmt ≤ 2 ∨ d.fmt = 7) → (x.modx.getLsbD 0 = true ↔ d.fmt = 7) →
          Reachable s i.stove f [(d.space, d.rowSpans box (cs 5))] →
          SoloIssues (.accld x) s i f fun op => isOp (.accld x) rows [] op ∧ op.src = some d ∧ op.block = (i.src x.lit).run x.c 5 0) ∧
        (RegionFits s i f a → (d.fmt = 6 → x.modx.getLsbD 2 = true ∧ d.coord (cs 6) 0 % 32 = 0) →
          (x.modx.getLsbD 2 = true → (d.fmt = 6 ∨ d.sblk ≠ 0) ∧ d.coord (cs 6) 0 % d.blockLen = 0 ∧ cols % d.blockLen = 0) →
          Reachable s i.stove f [(d.space, d.rowSpans box (cs 6))] →
          SoloIssues (.accst x) s i f fun op => isOp (.accst x) rows [] op ∧ op.dst = some d ∧
            op.rm = resolveRm f.fpmode x.rm ∧ op.block = (i.src x.lit).run x.c 6 0)) ∧
     (s.tid? f.cid b.toNat = none → Raises (.accld x) s i f cBOUND i.lanes ∧ Raises (.accst x) s i f cBOUND i.lanes)) ∧
  (∀ (x : LArgs) (s : State) (i : Issue) (f : Flue), Issuing s i f → NothingHeld s i f →
     let act := i.active x.guard
     let w := (i.src x.lit).word x.a 0
     let n := (x.modx.extractLsb' 0 3).toNat + 1
     let row := w.toNat % 128
     let col := w.toNat / 128 % 1024
     let good := w.toNat < 2 ^ 17 ∧ col % 32 = 0 ∧ row + n ≤ (Tab.getD (s.stove i.stove).groups f.group {}).accN
     act ≠ 0 →
     (∀ ins, ins = Instr.accmvRd x ∨ ins = Instr.accmvWr x → ¬good → Raises ins s i f cBOUND act) ∧
     (good → (opsOf f 1).length < 63 →
       (∃ (t : State) (g : Flue), exec (.accmvRd x) s = .next t ∧ t.flue? i.stove i.slot = some g ∧ SameButOrder s t i.stove i.slot ∧
         g = { f with pc := g.pc, ops := g.ops, flags := g.flags, lown := g.lown } ∧ StepsPast i f g ∧
         (∀ k, SMap.get g.flags k = SMap.get f.flags k + if i.flag x.f = some k then 1 else 0) ∧
         Joins s i f g 1 fun op => op.instr = .accmvRd x ∧ op.flag = i.flag x.f ∧ op.held = (if x.f = .none then i.lanes else 0) ∧
           ∀ (r : RegLoc) (l : Nat) (v : Word), (∃ y ∈ op.writes, y.loc = r ∧ y.lane = l ∧ y.val = v) ↔
             ∃ j < n, l < 32 ∧ act.getLsbD l = true ∧ r = i.view.loc x.d j ∧ v = BitVec.ofNat 32 (1024 * (row + j) + col + l)) ∧
       (∃ (t : State) (g : Flue), exec (.accmvWr x) s = .next t ∧ t.flue? i.stove i.slot = some g ∧ SameButOrder s t i.stove i.slot ∧
         g = { f with pc := g.pc, ops := g.ops } ∧ StepsPast i f g ∧
         Joins s i f g 1 fun op => op.instr = .accmvWr x ∧ ∀ (k : Nat) (v : Word), (k, v) ∈ op.puts ↔
           ∃ j < n, ∃ l < 32, act.getLsbD l = true ∧ k = 1024 * (row + j) + col + l ∧ v = i.view.readLoc (i.view.loc x.b j) l)) ∧
     (good → 63 ≤ (opsOf f 1).length → exec (.accmvRd x) s = .next s ∧ exec (.accmvWr x) s = .next s))

/-- MMA.H executes for its gang and arrives at the hearth rendezvous: with every named stove there it starts and its lanes step past; while a
named stove that has a group of the kernel is missing its lanes stay; a mask that leaves out its own stove raises BOUND (10 R256). The next
unit of the oldest MX operation of a flue, whose reads are ordered. ACCZ makes a row of its region zero, a step of MMA applies one group of 32 products to every
element of a column block, ACCMV.WR stores its words and ACCMV.RD writes its registers; every other accumulator element stays, as does all
memory, and the progress index rises by one, or with the last unit the operation leaves MX in that step (10 R226, R227, R255, R259, R260). -/
def Obligations.MatrixUnitResults : Prop :=
  (∀ (x : LArgs) (s : State) (i : Issue) (f : Flue), Issuing s i f → NothingHeld s i f → i.active x.guard ≠ 0 → f.gang = 0 →
     f.phase ≠ .handler → x.f = .none → GroupUp i f →
     let a := (i.src x.lit).word x.a 0
     let b := (i.src x.lit).word x.b 0
     let c := (i.src x.lit).word x.c 0
     let h := s.hearth (hearthOf i.stove)
     let ks := slotRun (aSlot b) (slotsPer (aTy x) (depthOf x)) ++ slotRun (bSlot b) (colBlocks (regionOf a).n * slotsPer (bTy x) (depthOf x))
     (c.toNat < 2 ^ 16 → c.getLsbD (i.stove % 16) = false → Raises (.mmaH x) s i f cBOUND i.lanes) ∧
     (RegionFits s i f a → b.toNat < 2 ^ 10 → HoldsSlots s i f ks → (∀ p ∈ (s.stove i.stove).flues, ∀ o ∈ p.2.allOps, o.uid < s.stamp) →
       h.hrvs = [] → f.mmahWait = 0 →
       ∀ gr, s.group? i.stove f.group = some gr →
         let issued := fun (t : State) (g : Flue) (started : Bool) => exec (.mmaH x) s = .next t ∧ t.flue? i.stove i.slot = some g ∧ t.mem = s.mem ∧
           (t.stove i.stove).acc = (s.stove i.stove).acc ∧ (∃ gr', t.group? i.stove f.group = some gr' ∧ gr'.mmah = true) ∧
           Joins s i f g 1 fun op => op.instr = .mmaH x ∧ op.started = started ∧
             ∃ rv, (t.hearth (hearthOf i.stove)).hrvs = [rv] ∧ rv.mask = c ∧ rv.running = started ∧ rv.arrivals.map (·.1) = [s.stamp]
         (c = BitVec.ofNat 32 (2 ^ (i.stove % 16)) → ∃ t g, issued t g true ∧
           g = { f with pc := g.pc, ops := g.ops, l := g.l, lown := g.lown } ∧ StepsPast i f g ∧ LatchSettles f g) ∧
         (c.toNat < 2 ^ 16 → c.getLsbD (i.stove % 16) = true → c ≠ BitVec.ofNat 32 (2 ^ (i.stove % 16)) →
           (∀ n < 16, c.getLsbD n = true → ∃ k g2, s.group? (16 * hearthOf i.stove + n) k = some g2 ∧ g2.part = f.part ∧ g2.kslot = f.kslot) →
           ∃ t g, issued t g false ∧ g = { f with ops := g.ops, mmahWait := i.lanes }))) ∧
  (∀ (s : State) (stove slot : Nat) (f : Flue) (op : EngineOp) (rest : List EngineOp), SoleOp s stove slot f 1 op rest →
     op.status = .ok → op.started = true → op.progress < op.units → op.mixed = [] → op.mixedAcc = [] →
     let base := (Tab.getD (s.stove stove).groups f.group {}).accRow0
     let r := regionOf (op.a.setWidth 32)
     let acc := (s.stove stove).acc
     let done := fun (t : State) (g : Flue) => exec (.engineUnitComplete ⟨stove, slot⟩ .mx []) s = .next t ∧ t.flue? stove slot = some g ∧
       t.mem = s.mem ∧ (t.stove stove).slots = (s.stove stove).slots ∧ (∀ k, Tab.getD g.estat k {} = Tab.getD f.estat k {}) ∧
       (op.progress + 1 < op.units → g.estat = f.estat ∧ ∃ op', opsOf g 1 = op' :: rest ∧ op'.uid = op.uid ∧
         op'.progress = op.progress + 1 ∧ op'.units = op.units ∧ op'.status = .ok) ∧
       (op.units = op.progress + 1 → opsOf g 1 = rest)
     (∀ x, op.instr = .accz x → op.writes = [] → op.flag = none → ∃ t g, done t g ∧ g = { f with ops := g.ops, estat := g.estat } ∧ ∀ key, SMap.get (t.stove stove).acc key =
       if 1024 * (base + r.row + op.progress) + r.col ≤ key ∧ key < 1024 * (base + r.row + op.progress) + r.col + r.n then 0
       else SMap.get acc key) ∧
     (∀ x, op.instr = .mma x → op.writes = [] → op.flag = none → r.col + r.n ≤ 1024 →
       let steps := depthOf x / 32
       let cb := op.progress / steps
       let k := op.progress % steps
       let slots := (s.stove stove).slots
       let b : Word := op.b.setWidth 32
       ∃ t g, done t g ∧ g = { f with ops := g.ops, estat := g.estat, fpst := g.fpst } ∧
         (∀ m < r.m, ∀ n < min 128 (r.n - 128 * cb),
           let key := 1024 * (base + r.row + m) + (r.col + 128 * cb + n)
           SMap.get (t.stove stove).acc key =
             applyGroup (aTy x == 4) (if mxZ x = true ∧ k = 0 then 0 else SMap.get acc key) (slotGroup slots (aTy x) (aSlot b) m k).1
               (slotGroup slots (bTy x) (bSlot b + cb * slotsPer (bTy x) (depthOf x)) n k).1) ∧
         (∀ key, (∀ m < r.m, ∀ n < min 128 (r.n - 128 * cb), key ≠ 1024 * (base + r.row + m) + (r.col + 128 * cb + n)) →
           SMap.get (t.stove stove).acc key = SMap.get acc key) ∧
         ∀ l, l ≠ 0 → SMap.get g.fpst l = SMap.get f.fpst l) ∧
     (∀ x, op.instr = .accmvWr x → op.writes = [] → op.flag = none → (op.puts.map (·.1)).Nodup →
       ∃ t g, done t g ∧ g = { f with ops := g.ops, estat := g.estat } ∧
       (∀ p ∈ op.puts, SMap.get (t.stove stove).acc (1024 * base + p.1) = p.2) ∧
       ∀ key, (∀ p ∈ op.puts, key ≠ 1024 * base + p.1) → SMap.get (t.stove stove).acc key = SMap.get acc key) ∧
     (∀ x, op.instr = .accmvRd x → op.puts = [] → op.writes ≠ [] → f.openRvs = [] → ∃ t g, done t g ∧ (t.stove stove).acc = acc ∧
       g = { f with ops := g.ops, estat := g.estat, frames := g.frames, hframe := g.hframe, o := g.o, s := g.s, p := g.p, l := g.l, lown := g.lown,
                    flags := g.flags } ∧
       Written f g (op.writes.map fun w => { w with val := SMap.get acc (1024 * base + w.val.toNat) }) ∧
       ∀ k, SMap.get g.flags k = SMap.get f.flags k - if op.flag = some k then 1 else 0))

/-- The oldest operation of a class ends once all its units are done or an error has stopped it, and not before: it leaves the count of its
class, the others stay; the first error's code stays in the class's status with the progress index, later ones change neither; a class CL end adds its
flags (10 R226, R228, R229). -/
def Obligations.EngineOperationEnds : Prop :=
  ∀ (s : State) (stove slot : Nat) (f : Flue) (cls : EngClass) (op : EngineOp) (rest : List EngineOp),
    SoleOp s stove slot f (clsNum cls) op rest → op.flag = none →
    let done := op.units ≤ op.progress ∧ op.started = true
    let e := Tab.getD f.estat (clsNum cls) {}
    (done ∨ op.status ≠ .ok → ∃ t g, exec (.engineOperationComplete ⟨stove, slot⟩ cls .ok) s = .next t ∧ t.flue? stove slot = some g ∧
      t.mem = s.mem ∧ (t.stove stove).acc = (s.stove stove).acc ∧ (t.stove stove).slots = (s.stove stove).slots ∧
      g = { f with ops := g.ops, estat := g.estat, prog := g.prog } ∧ opsOf g (clsNum cls) = rest ∧
      (∀ k, k ≠ clsNum cls → opsOf g k = opsOf f k ∧ Tab.getD g.estat k {} = Tab.getD f.estat k {}) ∧
      (Tab.getD g.estat (clsNum cls) {}).flags = (if cls = .cl then e.flags ||| op.flags else e.flags) ∧
      ((op.status = .ok ∨ e.code ≠ 0) → (Tab.getD g.estat (clsNum cls) {}).code = e.code ∧ g.prog = f.prog) ∧
      (op.status ≠ .ok → e.code = 0 → (Tab.getD g.estat (clsNum cls) {}).code = engCode op.status ∧
        g.prog = BitVec.ofNat 32 op.progress)) ∧
    (op.progress < op.units → op.status = .ok → exec (.engineOperationComplete ⟨stove, slot⟩ cls .ok) s = .next s)

/-! ### Chapters 11 and 13: system instructions and traps -/

/-- TRAP and BKPT complete: their group steps past and the acting lanes hold TRAPI or BKPT with the code IDX, the address of word 0, the address
behind the instruction and, for TRAP, each lane's A. Delivery moves the lowest pending cause of a quiet flue into the exception
registers and its lanes to the handler, discarding an open region; REGOVF is never delivered so. RTH waits until
the flue has no instruction outstanding, and then resumes the lanes, or delivers the next cause; outside handler mode it raises PRIV (11 R265, R266, R271, 13 R300, R301, R304). -/
def Obligations.TrapDeliveryReturn : Prop :=
  (∀ (x : YArgs) (s : State) (i : Issue) (f : Flue), Issuing s i f → f.regionOpen = false →
    let act := i.active x.guard
    ∀ p ∈ [(Instr.trap x, cTRAPI, fun l => (i.src x.lit).word x.a l), (Instr.bkpt x, cBKPT, fun _ => 0)],
      FlueResult p.1 s i fun g => g = { f with pc := g.pc, pending := g.pending } ∧ StepsPast i f g ∧
        (act = 0 → g.pending = f.pending) ∧
        (act ≠ 0 → (∀ c, c ≠ p.2.1 → Tab.get? g.pending c = Tab.get? f.pending c) ∧
          ∃ q, Tab.get? g.pending p.2.1 = some q ∧
            (Tab.get? f.pending p.2.1 = none → q.lanes = act ∧ q.faddr = i.pc ∧ q.code = x.idx.setWidth 8 ∧
              q.resume = (if f.phase = .handler then f.hpc else i.wordAfter) ∧ ∀ l < 32, act.getLsbD l = true → SMap.get q.args l = p.2.2 l) ∧
            ∀ o, Tab.get? f.pending p.2.1 = some o → q.lanes = o.lanes ||| act ∧ q.faddr = o.faddr ∧ q.resume = o.resume)) ∧
  (∀ (s : State) (stove slot : Nat) (f : Flue) (c : Nat) (p : Pending) (rest : Tab Pending), s.flue? stove slot = some f →
    f.pending = (c, p) :: rest → f.phase = .run ∨ f.phase = .frameWait → f.quiet = true → f.service = [] → f.awaits = [] →
    c ≠ cREGOVF → s.handlerOf f ≠ 0 → c < 17 →
    ∃ t g, exec (.causeDelivery ⟨stove, slot⟩) s = .next t ∧ t.flue? stove slot = some g ∧ t.mem = s.mem ∧ (t.stove stove).acc = (s.stove stove).acc ∧
      g.phase = .handler ∧ g.pending = rest ∧ g.clanes = p.lanes ∧ g.faddr = p.faddr ∧ g.hpc = p.resume ∧ g.regionOpen = false ∧
      g.cause.toNat / 2 ^ 24 = p.code.toNat ∧ g.cause.toNat / 2 ^ 19 % 32 = c ∧ g.cause.toNat / 2 ^ 17 % 4 = 0 ∧
      g.rvs = [] ∧ g.flags = [] ∧ g.frames = f.frames ∧ g.o = f.o ∧ g.s = f.s ∧ g.p = f.p ∧ g.depth = f.depth ∧ g.live = f.live ∧ g.ops = f.ops ∧
      g.entry = f.entry ∧ g.restart = f.restart ∧ g.fpst = f.fpst ∧
      (∀ l < 32, SMap.get g.l l = 0 ∧ g.pcOf l = if p.lanes.getLsbD l = true then s.handlerOf f else f.pcOf l) ∧
      ∀ n l, l < 32 → g.readLoc (.h n) l = if c = cTRAPI ∧ n = 0 ∧ p.lanes.getLsbD l = true then SMap.get p.args l else 0) ∧
  (∀ (x : YArgs) (s : State) (i : Issue) (f : Flue), Issuing s i f → i.active x.guard ≠ 0 →
    let toEntry := f.live &&& f.restart &&& if f.hpcWritten then ~~~f.clanes else 0xFFFFFFFF#32
    let resumed := fun l => if toEntry.getLsbD l = true then f.entry else if f.clanes.getLsbD l = true then f.hpc else f.pcOf l
    (f.phase ≠ .handler → Raises (.rth x) s i f cPRIV i.lanes) ∧
    (f.phase = .handler → f.idle = false → exec (.rth x) s = .next s) ∧
    (f.phase = .handler → f.idle = true → f.pending = [] → FlueResult (.rth x) s i fun g =>
      g = { f with pc := g.pc, phase := .run, restart := 0, l := [], lown := [], rvs := [], flags := [], later := g.later, clauses := g.clauses } ∧
      ∀ l < 32, g.pcOf l = resumed l ∧
        Tab.get? g.later l = if (toEntry ||| f.clanes).getLsbD l = true then none else Tab.get? f.later l) ∧
    (∀ c p rest, f.phase = .handler → f.idle = true → f.pending = (c, p) :: rest → c ≠ cREGOVF → FlueResult (.rth x) s i fun g =>
      g.phase = .handler ∧ g.pending = rest ∧ g.clanes = p.lanes ∧ g.faddr = p.faddr ∧ g.hpc = p.resume ∧ g.hpcWritten = false ∧
      g.frames = f.frames ∧ g.o = f.o ∧ g.s = f.s ∧ g.p = f.p ∧ g.rvs = [] ∧
      ∀ l < 32, SMap.get g.l l = 0 ∧ g.pcOf l = if p.lanes.getLsbD l = true then s.handlerOf f else resumed l))

/-- SYSCALL completes: with room in its partition's ring one entry that names the call is posted and the group waits at the instruction; with
the ring full nothing is posted and the flue asks to be descheduled. The firmware's result, 0xFFFF_FFFF for a service that it does not
implement, frees the entry, reaches D in the lanes that acted, and the group steps past (11 R267, R268). -/
def Obligations.SystemCallResults : Prop :=
  (∀ (x : YArgs) (s : State) (i : Issue) (f : Flue) (p : Partition), Issuing s i f → NothingToRelease s i f → i.active x.guard ≠ 0 →
    s.part? f.part = some p →
    (p.ring.length < 256 → ∃ (t : State) (g : Flue) (p' : Partition), exec (.syscall x) s = .next t ∧ t.flue? i.stove i.slot = some g ∧
      t.part? f.part = some p' ∧ t.mem = s.mem ∧
      (∃ call, g = { f with service := f.service ++ [call] } ∧ call.part = f.part ∧ call.seq = p.ringSeq ∧ call.lanes = i.lanes ∧
        call.next = i.next ∧ ∀ (r : RegLoc) (l : Nat), (∃ w ∈ call.dest, w.loc = r ∧ w.lane = l) ↔ r = i.view.loc x.d 0 ∧
          if x.d.isScalar = true then l = 0 else l < 32 ∧ (i.active x.guard).getLsbD l = true) ∧
      ∃ e, p' = { p with ring := p.ring ++ [e], ringSeq := p.ringSeq + 1 } ∧ e.seq = p.ringSeq ∧ e.cid = f.cid ∧ e.stove = s.lstove i.stove ∧
        e.slot = i.slot ∧ e.svc = x.idx ∧ e.a = (i.src x.lit).word x.a (lowLane i.lanes) ∧ e.b = (i.src x.lit).word x.b (lowLane i.lanes) ∧
        e.answer = none) ∧
    (256 ≤ p.ring.length → FlueResult (.syscall x) s i fun g => g = { f with ringWait := true })) ∧
  (∀ (s : State) (part : Nat) (val : Word) (p : Partition) (e : RingEntry) (stove slot : Nat) (f : Flue) (call : InService),
    s.part? part = some p → p.ring = [e] → e.answer = none → (e.svc.toNat < 0x100 ∨ 0x107 < e.svc.toNat) → e.pages = [] → e.freeing = [] →
    s.flue? stove slot = some f → f.service = [call] → call.part = part → call.seq = e.seq → f.openRvs = [] →
    let v := if Config.firmwareServes e.gen e.svc = true then val else 0xFFFFFFFF#32
    ∃ (t : State) (g : Flue) (p' : Partition), exec (.syscallResult part e.seq val) s = .next t ∧ t.flue? stove slot = some g ∧ t.mem = s.mem ∧
      t.part? part = some p' ∧ p'.ring = [] ∧ g.service = [] ∧ g.live = f.live ∧ g.depth = f.depth ∧ g.pending = f.pending ∧
      Written f g (call.dest.map fun w => { w with val := v }) ∧
      ∀ l < 32, g.pcOf l = if call.lanes.getLsbD l = true ∧ f.mayStep.getLsbD l = true then call.next else f.pcOf l)

/-- RDSR completes for every special register with the value that the machine holds for it, and changes nothing else; RDSR of `sr.cyclo` keeps
the high word for `sr.cychi`. WRSR writes the registers that it may, restarts the yield counter with `sr.ydl`, raises PRIV for every
other register and for `sr.hpc` outside handler mode, and ILLEGAL for a mode that R34 refuses (11 R269-R272). -/
def Obligations.SpecialRegisterResults : Prop :=
  ∀ (x : YArgs) (s : State) (i : Issue) (f : Flue), Issuing s i f → FrameStands i f →
    let v := i.view
    let act := i.active x.guard
    let idx := x.idx.toNat
    let n := fun k => BitVec.ofNat 64 k
    let w := fun (b : Word) => (b.setWidth 64 : DWord)
    (∀ (k : Kernel) (g : Group), YRow.rdsr.check x = none → s.kernel? v.part v.kslot = some k → s.group? i.stove v.group = some g →
      let at' := g.record.index.toNat
      let coord := fun (c : Nat) => n (if g.record.spawned then 0 else c)
      let one : List (Nat × (Nat → DWord)) := [
        (0x00, fun l => n l), (0x01, fun _ => n i.slot), (0x02, fun _ => n v.gflue), (0x03, fun _ => coord (at' % k.launch.gx)),
        (0x04, fun _ => coord (at' / k.launch.gx % k.launch.gy)), (0x05, fun _ => coord (at' / k.launch.gx / k.launch.gy)),
        (0x06, fun _ => n (16 * s.lhearth (i.stove / 16) + i.stove % 16)), (0x07, fun _ => n (s.lhearth (i.stove / 16))),
        (0x08, fun _ => n v.part), (0x09, fun _ => n k.srank), (0x0A, fun _ => n (v.frames.length - 1)),
        (0x0B, fun _ => if v.phase = .handler then w v.cause else 0), (0x0C, fun _ => w v.clanes),
        (0x0D, fun _ => w (v.faddr.setWidth 32)), (0x0E, fun _ => w ((v.faddr >>> 32).setWidth 32)), (0x10, fun _ => w v.prog),
        (0x12, fun _ => w v.cycLatch), (0x13, fun l => (SMap.get v.fpst l).setWidth 64), (0x14, fun _ => v.fpmode.setWidth 64),
        (0x15, fun _ => w v.ydl), (0x16, fun _ => w v.gang)]
      (∀ p ∈ one, idx = p.1 → ∃ t, exec (.rdsr x) s = .next t ∧ LaneResult s t i f x.guard x.d 1 fun l y fl => y = p.2 l ∧ fl = 0) ∧
      (∀ p ∈ [(0x0F, v.entry), (0x17, v.hpc)], idx = p.1 → ∃ t, exec (.rdsr x) s = .next t ∧
        LaneResult s t i f x.guard x.d 2 fun _ y fl => y = p.2 ∧ fl = 0) ∧
      ∀ m c, m < 16 → idx = 0x18 + m → s.ctx? v.cid = some c → c.state ≠ .suspended → ∃ t, exec (.rdsr x) s = .next t ∧
        LaneResult s t i f x.guard x.d 1 fun _ y fl => y = w (SMap.get c.pmval m) ∧ fl = 0) ∧
    (let cyc := (s.hearth (i.stove / 16)).cycles
     YRow.rdsrCyclo.check x = none → ∃ g, exec (.rdsrCyclo x) s = .next (s.setFlue i.stove i.slot g) ∧ StepsPast i f g ∧
       SameButLanes f { g with cycLatch := f.cycLatch } ∧ (act ≠ 0 → g.cycLatch = (cyc >>> 32).setWidth 32) ∧
       (act = 0 → g.cycLatch = f.cycLatch) ∧ Delivered i g x.d 1 act (fun _ => w (cyc.setWidth 32)) ∧ KeepsOthers i f g x.d 1 act) ∧
    (let a := (i.src x.lit).word x.a (lowLane act)
     let wrote := fun (g' : Flue → Flue) => FlueResult (.wrsr x) s i fun g => g = { g' f with pc := g.pc } ∧ StepsPast i f g
     (act = 0 → wrote id ∧ FlueResult (.wrsrYdl x) s i fun g => g = { f with pc := g.pc } ∧ StepsPast i f g) ∧
     (act ≠ 0 →
       (idx = 0x13 → FlueResult (.wrsr x) s i fun g => g = { f with pc := g.pc, fpst := g.fpst } ∧ StepsPast i f g ∧
         ∀ l < 32, SMap.get g.fpst l = if act.getLsbD l = true then ((i.src x.lit).word x.a l).setWidth 6 else SMap.get f.fpst l) ∧
       (idx = 0x14 → a.toNat % 8 < 5 → wrote fun f => { f with fpmode := a.setWidth 3 }) ∧
       (idx = 0x14 → 5 ≤ a.toNat % 8 → Raises (.wrsr x) s i f cILLEGAL act) ∧
       (idx = 0x17 → f.phase = .handler →
         wrote fun f => { f with hpc := (i.src x.lit).read x.a .z64 (lowLane act), hpcWritten := true }) ∧
       (idx ∉ [0x13, 0x14, 0x15, 0x17] ∨ (idx = 0x17 ∧ f.phase ≠ .handler) → Raises (.wrsr x) s i f cPRIV act) ∧
       FlueResult (.wrsrYdl x) s i fun g => g = { f with pc := g.pc, ydl := a, ycount := 0 } ∧ StepsPast i f g))

/-! ### Chapter 5: frames and the life of a flue -/

/-- A PC group that was passed over 64 times is promoted, and no other. The first request for frame room that fits is granted: a call takes
effect with its frame reading zero, a refill may proceed; one that does not fit waits, and so does one of a flue whose cause is delivered
first or that is to leave its slot (05 R99). A granted refill reads the frame back from the spill
stack, and the flue runs (05 R107, R114, R115, R117, R121, R122). A flue in DRAIN leaves its slot once every flag is clear and no operation
is left, and not before; with the last flue of a group the group completes and its kernel counts one live group less (05 R99, 17 R385). The
escape spill engine starts after 256 idle cycles for the waiting flue of the greatest depth, the lower slot on a tie, and spills until its request can be met. It writes the lowest
frame that may go to its place in the spill stack, byte for byte, and marks it spilled; nothing else in memory changes; a stack with no room
for it is a context fault (05 R118, R119, R121, R122). -/
def Obligations.FrameRoomDrainEvents : Prop :=
  (((∀ (s : State) (stove slot : Nat) (f : Flue) (pc : DWord), s.flue? stove slot = some f →
      let m := f.eligible &&& maskOf fun l => f.pcOf l == pc
      let due := (∃ l < 32, m.getLsbD l = true ∧ 64 ≤ (SMap.get f.passed l).toNat) ∧ ∀ l < 32, m.getLsbD l = true → Tab.getD f.promoted l 0 = 0
      ∃ t g, exec (.pcGroupPromotion ⟨stove, slot⟩ pc) s = .next t ∧ t.flue? stove slot = some g ∧ SameButFlue s t stove slot ∧
        g = { f with promoted := g.promoted } ∧ (¬due → g = f) ∧
        (due → ∀ l < 32, Tab.get? g.promoted l = if m.getLsbD l = true then some (s.stamp + 1) else Tab.get? f.promoted l)) ∧
    (∀ (s : State) (stove slot stamp n : Nat) (rest : List (Nat × Nat × Nat)) (f : Flue), (s.stove stove).requests = (stamp, slot, n) :: rest →
      s.flue? stove slot = some f →
      ((s.stove stove).freeGranules < n ∨ f.stopped = true ∨ f.delivers = true → exec (.frameGrant stove) s = .next s) ∧
      (n ≤ (s.stove stove).freeGranules → f.stopped = false → f.delivers = false → (s.stove stove).spill = none →
        (f.call = none → FlueResult (.frameGrant stove) s ⟨stove, slot, 0, 0, 0, 0, 0, false, 0, {}⟩ fun g => g = { f with granted := true }) ∧
        (∀ c, f.call = some c → f.phase = .frameWait → f.frames ≠ [] → f.curDepth < 255 →
          Alone s ⟨stove, slot, 0, 0, 0, 0, 0, false, 0, {}⟩ f → c.movers &&& c.others = 0 →
          FlueResult (.frameGrant stove) s ⟨stove, slot, 0, 0, 0, 0, 0, false, 0, {}⟩ fun g =>
            g = { f with pc := g.pc, l := g.l, lown := g.lown, depth := g.depth, phase := .run, nextUid := f.nextUid + 1, call := none,
                         frames := f.frames ++ [{ uid := f.nextUid, demand := c.demand, ret := c.ret }] } ∧
            LatchZero f g (c.movers ||| c.others) ∧
            ∀ l < 32, g.pcOf l = (if c.movers.getLsbD l = true then SMap.get c.targets l
                else if c.others.getLsbD l = true then c.ret else f.pcOf l) ∧
              g.depthOf l = if c.movers.getLsbD l = true then f.curDepth + 1 else f.depthOf l))) ∧
    (∀ (s : State) (stove slot : Nat) (f : Flue) (fr : Frame) (below : List Frame) (lines : List Nat), s.flue? stove slot = some f →
      f.frames = below ++ [fr] → f.rvs = [] →
      (f.phase ≠ .refillWait ∨ f.granted = false ∨ f.stopped = true → exec (.refillComplete ⟨stove, slot⟩) s = .next s) ∧
      (f.phase = .refillWait → f.granted = true → f.stopped = false → s.spillLines stove f below.length .load = .ok lines → (∀ pa ∈ lines, paKind pa = .hbm) →
        ∃ (t : State) (g : Flue) (fr' : Frame), exec (.refillComplete ⟨stove, slot⟩) s = .next t ∧ t.flue? stove slot = some g ∧ t.mem = s.mem ∧
          g = { f with phase := .run, granted := false, frames := below ++ [fr'] } ∧ fr'.shape = (fr.uid, fr.demand, fr.ret, false) ∧
          ∀ n pa, lines[n]? = some pa → ∀ l < 32, SMap.get fr'.regs (32 * n + l) = BitVec.ofNat 32 (leNat (Memory.read s.mem (pa + 4 * l) 4))))) ∧
   (∀ (s : State) (stove slot : Nat) (f : Flue) (g : Group) (k : Kernel), s.flue? stove slot = some f → s.group? stove f.group = some g →
      s.kernel? g.part g.kslot = some k →
      let quiet := f.phase = .drain ∧ f.quiet = true ∧ f.flags = [] ∧ ∀ o ∈ f.ops, o.2 = []
      let mates := g.saved = [] ∧ ∀ p ∈ (s.stove stove).flues, p.2.group = f.group → p.1 = slot
      (¬quiet → exec (.flueDrainComplete ⟨stove, slot⟩) s = .next s) ∧
      (quiet → ∃ t, exec (.flueDrainComplete ⟨stove, slot⟩) s = .next t ∧ t.flue? stove slot = none ∧
        (¬mates → t.group? stove f.group = some g ∧ ∀ j, j ≠ slot → t.flue? stove j = s.flue? stove j) ∧
        (mates → (s.stove stove).posted = [] → k.obmap = 0 → (s.hearth (hearthOf stove)).hrvs = [] →
          t.group? stove f.group = none ∧ t.mem = s.mem ∧ (∃ k', t.kernel? g.part g.kslot = some k' ∧ k'.live = k.live - 1 ∧ k'.state = k.state) ∧
          ∀ j, j ≠ slot → t.flue? stove j = s.flue? stove j)))) ∧
  (∀ (s : State) (stove : Nat), let st := s.stove stove
     Tab.sorted st.flues = true →
     ((st.spill ≠ none ∨ st.idle < 256) → exec (.escapeSpillStart stove) s = .next s) ∧
     (st.spill = none → 256 ≤ st.idle → (∃ p ∈ st.flues, p.2.request ≠ none) →
       ∃ t j f, exec (.escapeSpillStart stove) s = .next t ∧ t = s.setStove stove { st with spill := some j } ∧
         s.flue? stove j = some f ∧ f.request ≠ none ∧
         ∀ p ∈ st.flues, p.2.request ≠ none → p.2.curDepth < f.curDepth ∨ (p.2.curDepth = f.curDepth ∧ j ≤ p.1)) ∧
     (∀ j f k lines, st.spill = some j → s.flue? stove j = some f → f.request ≠ none → st.esc = [] →
       (st.canMeet j = true → exec (.escapeSpillFrameDone stove) s = .next s) ∧
       (st.canMeet j = false → f.spillable.head? = some k → s.spillLines stove f k .store = .ok lines →
       let fr := f.frames.getD k {}
       (4 * (f.spillWord k + fr.demand) ≤ s.spillExtent f →
         (∀ pa ∈ lines, paKind pa = .hbm ∧ pa % 128 = 0 ∧ Whole s pa) → lines.Nodup →
         ∃ t g, exec (.escapeSpillFrameDone stove) s = .next t ∧ t.flue? stove j = some g ∧
           g = { f with frames := f.frames.set k { fr with regs := [], spilled := true } } ∧
           (∀ n pa, lines[n]? = some pa → ∀ l < 32, BitVec.ofNat 32 (leNat (Memory.read t.mem (pa + 4 * l) 4)) = SMap.get fr.regs (32 * n + l)) ∧
           ∀ a, (∀ pa ∈ lines, a < pa ∨ pa + 128 ≤ a) → Memory.byte t.mem a = Memory.byte s.mem a) ∧
       (s.spillExtent f < 4 * (f.spillWord k + fr.demand) → ∀ c, s.ctx? f.cid = some c → c.state = .running → c.fkind = 0 →
         ∃ t c', exec (.escapeSpillFrameDone stove) s = .next t ∧ t.ctx? f.cid = some c' ∧ c'.state = .faulted ∧ c'.fkind = 1))))

/-! ### Chapter 13: switch-outs -/

/-- A flue that was switched out alone comes back to the lowest free slot of its stove once its recall is due and there is room, with its yield
counter at zero, its latch zero and everything else as saved, but for the registers that are saved in HANDLER only; an image that
fails its tag faults the context instead. A whole group leaves its stove only when all its flues' instructions are
complete and no cause is to be delivered, outside a slice end only for the firmware or a seal, and all of it goes to its partition's pool; the
stove that makes room is the one whose lowest-priority group is the lowest, and a victim of slot pre-emption leaves its slot and stays with its
group (13 R311, R312, R315, R316, R318, 17 R382, R383). A slice end, once the slice has lasted, marks the flues of the current context on the partition's stoves and makes the next context with
work current, and does neither where one context holds all the work. A flue past its yield deadline is stopped and its kernel counts an
overrun; the counter has to reach the deadline first. A handler that runs 65,536 cycles past a slice end faults its context (13 R313, R314,
R317, R319, 21 R435). -/
def Obligations.SwitchSliceEvents : Prop :=
  ((∀ (s : State) (stove gid gfl : Nat) (g : Group) (v : SavedFlue), s.group? stove gid = some g → Tab.get? g.saved gfl = some v →
     (v.due = false → exec (.flueRecall stove gid gfl) s = .next s) ∧
     (∀ p, s.part? v.flue.part = some p → p.slice ≠ 0 → p.currentCid ≠ some v.flue.cid → exec (.flueRecall stove gid gfl) s = .next s) ∧
     (v.due = true → (∃ c, s.ctx? v.flue.cid = some c ∧ c.takes = true) → (∀ c ∈ v.flue.service, c.result = none) → v.flue.granules ≤ (s.stove stove).freeForNew →
       (∀ p, s.part? v.flue.part = some p → (p.slice = 0 ∨ p.currentCid = some v.flue.cid) ∧ p.chosen = none) →
       ∀ j, j < 32 → s.flue? stove j = none → (∀ i < j, s.flue? stove i ≠ none) →
         (s.badRuns v.flue.cid (v.run :: g.headerRun.toList) = true → ∃ t c, exec (.flueRecall stove gid gfl) s = .next t ∧
           t.ctx? v.flue.cid = some c ∧ c.state = .faulted) ∧
         (s.badRuns v.flue.cid (v.run :: g.headerRun.toList) = false →
           ∃ t f g', exec (.flueRecall stove gid gfl) s = .next t ∧ t.flue? stove j = some f ∧
             f = { v.flue with ycount := 0, l := [], waitStamp := s.islandCycle stove, clanes := f.clanes, faddr := f.faddr, hpc := f.hpc,
                               hframe := f.hframe } ∧
             (v.flue.phase = .handler →
               f.clanes = v.flue.clanes ∧ f.faddr = v.flue.faddr ∧ f.hpc = v.flue.hpc ∧ f.hframe = v.flue.hframe) ∧
             t.mem = s.mem ∧ t.group? stove gid = some g' ∧
             Tab.get? g'.saved gfl = none ∧ (∀ i, i ≠ j → t.flue? stove i = s.flue? stove i)))) ∧
   (∀ (s : State) (stove gid : Nat) (g : Group), s.group? stove gid = some g →
     let fl := (s.stove stove).flues.filter fun p => p.2.group == gid
     ((∃ p ∈ fl, p.2.quiet = false ∨ p.2.phase = .drain ∨ (p.2.phase ≠ .handler ∧ p.2.pending ≠ [])) → exec (.wholeGroupSwitchOut stove gid) s = .next s) ∧
     (s.firmwareSwitches g.part = false → s.notItsSlice g.part g.cid = false → (∀ p ∈ fl, p.2.sliceEnd = false) → (∃ p ∈ fl, p.2.halt = false) →
       exec (.wholeGroupSwitchOut stove gid) s = .next s) ∧
     (fl ≠ [] → (s.firmwareSwitches g.part = true ∨ ∀ p ∈ fl, p.2.halt = true ∧ p.2.phase ≠ .handler) →
       (∀ p ∈ fl, p.2.quiet = true ∧ p.2.phase ≠ .drain ∧ p.2.regionOpen = false ∧ p.2.awaits = [] ∧
         p.2.phase ≠ .frameWait ∧ (p.2.phase = .handler ∨ p.2.pending = [])) → (s.stove stove).posted = [] → (fl.map (·.2.gflue)).Nodup → g.saved = [] → s.groupOut stove gid ≠ none →
       ∃ t p w, exec (.wholeGroupSwitchOut stove gid) s = .next t ∧ t.group? stove gid = none ∧ (∀ q ∈ fl, t.flue? stove q.1 = none) ∧
         t.mem = s.mem ∧ s.part? g.part = some p ∧ (∃ p', t.part? g.part = some p' ∧ p'.switched = p.switched ++ [w]) ∧
         w.group.uid = g.uid ∧ w.group.record = g.record ∧ w.group.shared = g.shared ∧ w.flues.length = fl.length ∧
         ∀ q ∈ fl, ∃ h, Tab.get? w.flues q.2.gflue = some h ∧
           h = { q.2 with rvs := [], l := [], lown := [], flags := [], call := none, granted := false, pageWait := none, ringWait := false, stays := false,
                          preempt := false, halt := false, sliceEnd := false, hlimit := 0, passed := [], promoted := [],
                          clauses := q.2.clauses.filter q.2.uses })) ∧
   (∀ (s : State) (part : Nat) (p : Partition), s.part? part = some p →
     (∀ n ∈ s.partStoves part, ∀ f ∈ (s.stove n).flues, f.2.preempt = false) → p.chosen = none →
     (s.starved part p = none → exec (.slotPreemption part) s = .next s) ∧
     (∀ x n, s.chooseStove x = some n → n ∈ x.stoves ∧ ∃ q, (s.stove n).lowestPrio = some q ∧ q < x.prio ∧
       ∀ m ∈ x.stoves, ∀ q', (s.stove m).lowestPrio = some q' → q ≤ q') ∧
     (∀ x n slot f rest s1, s.starved part p = some x → s.chooseStove x = some n →
       s.victimsFor n x.prio = (slot, .pre) :: rest → s.flue? n slot = some f → f.quiet = true → f.pending = [] → s.flueOut n slot .pre = some s1 →
       ∃ t g, t.part? part = some { p with chosen := some ⟨n, x.key, x.prio⟩ } ∧ exec (.slotPreemption part) s = .next t ∧ t.flue? n slot = none ∧ t.group? n f.group = some g ∧ t.mem = s.mem ∧
         ∃ v, Tab.get? g.saved f.gflue = some v ∧ v.due = true ∧ v.flue.live = f.live ∧ v.flue.frames.map Frame.shape = f.frames.map Frame.shape))) ∧
  ((∀ (s : State) (part : Nat) (p : Partition) (cur : Nat), s.part? part = some p → p.current = some cur →
     let next := match p.working.find? fun c => cur < c with
       | some c => some c
       | none => p.working.head?
     (p.slice = 0 ∨ p.state ≠ .running ∨ p.sliceAge < p.slice → exec (.sliceEnd part) s = .next s) ∧
     (p.slice ≠ 0 → p.state = .running → p.slice ≤ p.sliceAge → next = some cur → ∃ t, exec (.sliceEnd part) s = .next t ∧ ∀ a b, t.flue? a b = s.flue? a b) ∧
     (∀ c, p.slice ≠ 0 → p.state = .running → p.slice ≤ p.sliceAge → next = some c → c ≠ cur →
       ∃ t p', exec (.sliceEnd part) s = .next t ∧ t.part? part = some p' ∧ p' = { p with current := some c, sliceAge := 0 } ∧ t.mem = s.mem ∧
         ∀ a b f, s.flue? a b = some f → t.flue? a b = some
           (if a ∈ s.partStoves part ∧ f.cid = cur ∧ f.sliceEnd = false then { f with sliceEnd := true, hlimit := 0 } else f))) ∧
   (∀ (s : State) (stove slot : Nat) (f : Flue) (k : Kernel), s.flue? stove slot = some f → s.kernel? f.part f.kslot = some k →
     let due := f.sliceEnd = true ∧ f.ydl ≠ 0 ∧ f.ydl.toNat ≤ f.ycount ∧ f.phase ≠ .handler ∧ f.preempt = false
     (¬due → exec (.yieldDeadlineExpiry ⟨stove, slot⟩) s = .next s) ∧
     (due → ∃ t k', exec (.yieldDeadlineExpiry ⟨stove, slot⟩) s = .next t ∧ t.mem = s.mem ∧
       t.flue? stove slot = some { f with preempt := true, overrun := true } ∧ t.kernel? f.part f.kslot = some k' ∧
       k' = { k with overrun := min (k.overrun + 1) (2 ^ 32 - 1) })) ∧
   (∀ (s : State) (stove slot : Nat) (f : Flue) (c : Context), s.flue? stove slot = some f → s.ctx? f.cid = some c →
     let due := f.phase = .handler ∧ f.sliceEnd = true ∧ 65536 ≤ f.hlimit
     (¬due → exec (.handlerTimeout ⟨stove, slot⟩) s = .next s) ∧
     (due → c.state = .running → ∃ t c', exec (.handlerTimeout ⟨stove, slot⟩) s = .next t ∧ t.ctx? f.cid = some c' ∧ c'.state = .faulted ∧
       (c.fkind = 0 → c'.fkind = 3))))

/-! ### Chapters 16 and 17: kernels and dispatch -/

/-- The life of a kernel. A bound queue's next record that passes its checks becomes a WAITING kernel with the fields inherited from record,
queue and context, and HEAD rises; one that fails them retires at once. A kernel with nothing to wait for runs, and its scratchpad blocks,
taken from the free ones, read zero. A running one forms its grid records in ascending order, ready when nothing is left to join; while a
bitmap block that it has to read is not resident it forms none. It is RETIRING
once every record is used and no group lives, and when it leaves the table RETIRED rises (15 R344, R346, R352, 16 R357, R360-R363,
17 R375-R376). A ready record of age 2048 loses its hint (17 R379). A stove takes the
entry that goes first in the pop order, unless a higher stove has popped in that cycle. A record becomes a group whose flues stand in the lowest free slots, with every lane at the entry
address at depth 0 on a frame of the launch's demand, the frame address and the index in `s0` to `s2`, every other register zero; the
record's entry is free with its generation one higher and the kernel has one live group more. With nothing to take, or an entry that a due
recall keeps off, nothing happens (05 R100, 17 R373, R380, R382, R384). -/
def Obligations.KernelEvents : Prop :=
  ((∀ (s : State) (cid q kslot : Nat) (c : Context) (qu : Queue) (p : Partition) (raw : List Byte), s.ctx? cid = some c →
     Tab.get? c.queues q = some qu → s.part? qu.part = some p →
     let open' := qu.state = .bound ∧ qu.head ≠ qu.tail ∧ (c.state = .ready ∨ c.state = .running) ∧ c.sealing = .none ∧ p.state = .running ∧
       s.fw.frozen = false
     let named := fun n => (Tab.get? c.queues n).isSome
     let l := parseLaunch raw
     (¬open' → exec (.kernelTake cid q) s = .next s) ∧
     (open' → kslot < 256 → Tab.get? p.kernels kslot = none → (∀ j < kslot, Tab.get? p.kernels j ≠ none) →
       s.devRead cid (qu.ring + BitVec.ofNat 64 (qu.head.toNat % qu.size * 128)) 128 = .ok raw →
       (launchOk l raw named = false → l.done = 0 → ∃ t c' qu', exec (.kernelTake cid q) s = .next t ∧ t.ctx? cid = some c' ∧
         Tab.get? c'.queues q = some qu' ∧ qu' = { qu with head := qu.head + 1, retired := qu.retired + 1, wcount := 0 } ∧
         (∀ a b, (t.kernel? a b).map (fun k => { k with waitMask := 0 }) = (s.kernel? a b).map fun k => { k with waitMask := 0 }) ∧ t.mem = s.mem) ∧
       (launchOk l raw named = true → l.pgtab = 0 → l.deps = 0 →
         ∃ t c' qu' k, exec (.kernelTake cid q) s = .next t ∧ t.ctx? cid = some c' ∧ Tab.get? c'.queues q = some qu' ∧
           qu' = { qu with head := qu.head + 1 } ∧ t.mem = s.mem ∧ t.kernel? qu.part kslot = some k ∧ k.state = .waiting ∧ k.cid = cid ∧
           k.queue = q ∧ k.launch = l ∧ k.seq = qu.head ∧ k.live = 0 ∧ k.records = [] ∧ k.nextIdx = 0 ∧
           k.prio = (if l.prio.getLsbD 7 = true then l.prio.toNat % 8 else if qu.prio.getLsbD 7 = true then qu.prio.toNat % 8 else c.prio) ∧
           k.fdom = (if l.fdom.getLsbD 7 = true then l.fdom.toNat % 4 else if qu.fdom.getLsbD 7 = true then qu.fdom.toNat % 4 else c.fdom) ∧
           k.handler = (if l.handler ≠ 0 then l.handler else if qu.handler ≠ 0 then qu.handler else c.handler) ∧
           k.share = (if l.share ≠ 0 then l.share else if qu.share ≠ 0 then qu.share else if c.share ≠ 0 then c.share else 1)))) ∧
   (∀ (s : State) (part kslot : Nat) (p : Partition) (k : Kernel), s.part? part = some p → s.kernel? part kslot = some k →
     (k.state ≠ .waiting ∨ p.state ≠ .running ∨ s.fw.frozen = true → exec (.kernelStart part kslot) s = .next s) ∧
     (k.state = .waiting → p.state = .running → s.fw.frozen = false →
       (s.waitMask part kslot k ≠ 0 → ∃ t, exec (.kernelStart part kslot) s = .next t ∧
         t.kernel? part kslot = some { k with waitMask := s.waitMask part kslot k } ∧ t.mem = s.mem) ∧
       (s.waitMask part kslot k = 0 → ∃ t k', exec (.kernelStart part kslot) s = .next t ∧ t.mem = s.mem ∧ t.kernel? part kslot = some k' ∧
         k' = { k with state := .running, waitMask := 0, scp := k'.scp } ∧
         ∀ d bs, Tab.get? k'.scp d = some bs → bs.length ≤ k.launch.scpBlk ∧ ∀ b ∈ bs, b < 1024 ∧ Tab.get? (s.die d).blocks b = none ∧
           Tab.get? (t.die d).blocks b = some k.cid ∧ ∀ a, b * 65536 ≤ a → a < (b + 1) * 65536 → Memory.byte (t.die d).scp a = 0)) ∧
     (let i := k.nextIdx
      let last := min (k.gfirst + k.gcount) (k.launch.gx * k.launch.gy * k.launch.gz)
      let may := k.state = .running ∧ i < last ∧ (k.records.filter fun e => !e.2.record.spawned).length < 256 ∧
        1024 ≤ 4096 - k.records.length ∧ p.state = .running ∧ s.fw.frozen = false ∧
        ∃ c, s.ctx? k.cid = some c ∧ (c.state = .ready ∨ c.state = .running) ∧ c.sealing = .none
      (¬may → exec (.gridRecordFormation part kslot) s = .next s) ∧
      (may → s.formationWaits p k i = true →
        ∃ t, exec (.gridRecordFormation part kslot) s = .next t ∧ t.kernel? part kslot = some k ∧ t.mem = s.mem) ∧
      (∀ e, may → s.formationWaits p k i = false → e < 4096 → Tab.get? k.records e = none → (∀ j < e, Tab.get? k.records j ≠ none) →
        ∃ t k' r, exec (.gridRecordFormation part kslot) s = .next t ∧ t.mem = s.mem ∧ t.kernel? part kslot = some k' ∧
          k' = { k with nextIdx := i + 1, records := k'.records } ∧ Tab.get? k'.records e = some r ∧
          (∀ j, j ≠ e → Tab.get? k'.records j = Tab.get? k.records j) ∧ r.record.code = k.launch.code ∧ r.record.frame = k.launch.args ∧
          r.record.index = BitVec.ofNat 32 i ∧ r.record.spawned = false ∧ r.age = 0 ∧ (r.record.ready = true ↔ r.record.join = 0) ∧
          (k.maps = [] → r.record.join = 0))) ∧
     (∀ e r, Tab.get? k.records e = some r → ∃ t k' r', exec (.affinityLapse part kslot e) s = .next t ∧ t.kernel? part kslot = some k' ∧
       Tab.get? k'.records e = some r' ∧ (∀ j, j ≠ e → Tab.get? k'.records j = Tab.get? k.records j) ∧
       r' = if r.record.ready = true ∧ 2048 ≤ r.age then { r with record := { r.record with affLost := true } } else r) ∧
     (let ended := min (k.gfirst + k.gcount) (k.launch.gx * k.launch.gy * k.launch.gz) ≤ k.nextIdx ∧ k.live = 0 ∧
        ∀ e ∈ k.records, e.2.record.spawned = true ∧ e.2.record.ready = false
      (k.state = .waiting ∨ (k.state = .running ∧ ¬ended) → exec (.kernelRetire part kslot) s = .next s) ∧
      (k.state = .running → ended → ∃ t, exec (.kernelRetire part kslot) s = .next t ∧
        t.kernel? part kslot = some { k with state := .retiring, status := 0 } ∧ t.mem = s.mem) ∧
      (∀ c qu, k.state = .retiring → k.obmap = 0 → k.status = 0 → k.launch.done = 0 → k.scp = [] →
        (∀ n ∈ s.partStoves part, (s.stove n).posted = []) → s.ctx? k.cid = some c → (∀ q ∈ c.roster, q.2.held = []) → Tab.get? c.queues k.queue = some qu →
        ∃ t c', exec (.kernelRetire part kslot) s = .next t ∧ t.kernel? part kslot = none ∧ t.mem = s.mem ∧ t.ctx? k.cid = some c' ∧
          Tab.get? c'.queues k.queue = some { qu with retired := qu.retired + 1, wcount := 0 })))) ∧
  (∀ (s : State) (stove part : Nat) (p : Partition), s.partOf stove = some part → s.part? part = some p →
     let cs := s.candidates part p stove
     let st := s.stove stove
     (cs = [] ∨ p.state ≠ .running ∨ s.fw.frozen = true ∨ s.lstove stove < p.popNext → exec (.stovePop stove) s = .next s) ∧
     (∀ c, ∀ g ∈ st.groups, (∃ v ∈ g.2.saved, v.2.due = true) → firstOf p cs = some c → c.prio ≤ g.2.prio → exec (.stovePop stove) s = .next s) ∧
     (∀ c kslot entry k e, p.popNext ≤ s.lstove stove → p.state = .running → s.fw.frozen = false → firstOf p cs = some c → c.what = .record kslot entry →
       (∀ g ∈ st.groups, ∀ v ∈ g.2.saved, v.2.due = false) → Tab.get? p.kernels kslot = some k → Tab.get? k.records entry = some e →
       ∃ t k', exec (.stovePop stove) s = .next t ∧ t.mem = s.mem ∧ t.kernel? part kslot = some k' ∧ k'.live = k.live + 1 ∧
         (∃ p', t.part? part = some p' ∧ p'.popNext = s.lstove stove) ∧
         Tab.get? k'.records entry = none ∧ SMap.get k'.gens entry = SMap.get k.gens entry + 1 ∧
         (∀ j, j ≠ entry → Tab.get? k'.records j = Tab.get? k.records j) ∧
         ∃ gid g, t.group? stove gid = some g ∧ g.part = part ∧ g.kslot = kslot ∧ g.cid = k.cid ∧ g.record = e.record ∧
           g.nflue = k.launch.flues ∧ g.sharedSize = k.launch.shared ∧ g.accN = k.launch.accRows ∧ g.shared = [] ∧ g.barriers = [] ∧
           g.drained = 0 ∧
           ∀ j slot, j < k.launch.flues → st.freeSlots[j]? = some slot → ∃ f, t.flue? stove slot = some f ∧ f.phase = .run ∧ f.cid = k.cid ∧
             f.group = gid ∧ f.gflue = j ∧ f.live = 0xFFFFFFFF#32 ∧ f.frames.map Frame.shape = [(0, k.launch.demand, 0, false)] ∧
             (∀ l < 32, f.pcOf l = e.record.code ∧ f.depthOf l = 0 ∧ SMap.get f.fpst l = 0) ∧
             SMap.get f.s 0 = e.record.frame.setWidth 32 ∧ SMap.get f.s 1 = (e.record.frame >>> 32).setWidth 32 ∧
             SMap.get f.s 2 = e.record.index ∧ (∀ n, 2 < n → SMap.get f.s n = 0) ∧ f.o = [] ∧ f.p = [] ∧ f.flags = [] ∧ f.pending = [] ∧
             (∀ n l, f.readLoc (.v 0 n) l = 0) ∧ f.fpmode = 0 ∧ f.ydl = 0 ∧ f.gang = 0 ∧ f.prog = 0xFFFFFFFF#32))

/-! ### Chapter 15: queues -/

/-- Queue events. A notify with a tail in range moves TAIL, and makes an UNBOUND queue PENDING; any other sets BADKICK; while peers have
writes of the context to acknowledge the notify waits. Writing 1 to RESET of a FAULTED queue makes it UNBOUND and empty; ignored writes
change nothing. A PENDING queue that goes first is bound to the lowest free hardware slot; an idle one without PIN is unbound; a watchdog
that has run out marks its queue, and the kernel that runs retires FAULTED where its fault domain is the kernel, while a cause of the context
that has no handler goes first (27 R490); a grant adds partitions at
once and drops those where no queue of the context is bound (12 R298, 15 R348, R349, R351, R354, R355, R495, 22 R445). -/
def Obligations.QueueEvents : Prop :=
  ∀ (s : State) (cid q : Nat) (c : Context) (qu : Queue), s.ctx? cid = some c → Tab.get? c.queues q = some qu →
    let becomes := fun (ins : Instr) (qu' : Queue) => ∃ t c', exec ins s = .next t ∧ t.ctx? cid = some c' ∧ t.mem = s.mem ∧
      Tab.get? c'.queues q = some qu' ∧ (∀ j, j ≠ q → Tab.get? c'.queues j = Tab.get? c.queues j) ∧ t.parts = s.parts ∧ t.stoves = s.stoves
    (∀ tail : Word, let d := (tail - qu.tail).toNat
      let fits := 0 < d ∧ d ≤ qu.size - (qu.tail - qu.head).toNat
      (s.ackDue cid = true → becomes (.kick cid q tail) { qu with kicks := qu.kicks ++ [tail] }) ∧
      (s.ackDue cid = false → qu.lfeed = true ∨ ¬fits → becomes (.kick cid q tail) { qu with badKick := true }) ∧
      (s.ackDue cid = false → qu.lfeed = false → fits → qu.state ≠ .unbound → becomes (.kick cid q tail) { qu with tail := tail }) ∧
      (s.ackDue cid = false → qu.lfeed = false → fits → qu.state = .unbound →
        becomes (.kick cid q tail) { qu with tail := tail, state := .pending, waited := s.stamp })) ∧
    (qu.state = .faulted → becomes (.queueReset cid q 1)
      { qu with head := qu.tail, state := .unbound, slot := 0xFFFF, badKick := false, wdx := false, fdomLast := 0, fcount := 0 }) ∧
    (∀ v : Word, v ≠ 1 ∨ qu.state ≠ .faulted → exec (.queueReset cid q v) s = .next s) ∧
    (∀ off size v, exec (.kickPageIgnoredWrite cid q off size v) s = .next s) ∧
    (qu.state ≠ .pending ∨ s.bindTarget c = none ∨ s.fw.frozen = true → exec (.queueBind cid q) s = .next s) ∧
    (∀ p j, qu.state = .pending → s.bindTarget c = some p → s.bindFirst c qu = true → s.fw.frozen = false → j < 1024 → j ∉ s.slotsInUse →
      (∀ k < j, k ∈ s.slotsInUse) → becomes (.queueBind cid q) { qu with state := .bound, slot := j, part := p }) ∧
    (let idle := qu.state = .bound ∧ qu.pin = false ∧ qu.head = qu.tail ∧ s.fw.frozen = false ∧
       ∀ p ∈ s.parts, ∀ k ∈ p.2.kernels, ¬(k.2.cid = cid ∧ k.2.queue = q ∧ k.2.state = .running)
     (¬idle → exec (.queueUnbind cid q) s = .next s) ∧
     (idle → becomes (.queueUnbind cid q) { qu with state := .unbound, slot := 0xFFFF })) ∧
    (qu.state ≠ .bound ∨ qu.wdog = 0 ∨ qu.wcount < qu.wdog ∨ s.faultFirst cid = true → exec (.watchdogExpiry cid q) s = .next s) ∧
    (qu.state = .bound → qu.wdog ≠ 0 → qu.wdog ≤ qu.wcount → s.faultFirst cid = false →
      (∀ p ∈ s.parts, ∀ k ∈ p.2.kernels, ¬(k.2.cid = cid ∧ k.2.queue = q ∧ k.2.state = .running)) →
      becomes (.watchdogExpiry cid q) { qu with wdx := true, wcount := 0 }) ∧
    (∀ part k kslot, qu.state = .bound → qu.wdog ≠ 0 → qu.wdog ≤ qu.wcount → s.faultFirst cid = false → s.kernel? part kslot = some k →
      k.cid = cid → k.queue = q → k.state = .running → k.fdom = 0 →
      (∀ p ∈ s.parts, ∀ o ∈ p.2.kernels, o.2.cid = cid → o.2.queue = q → o.2.state = .running → p.1 = part ∧ o.1 = kslot) →
      ∃ t k', exec (.watchdogExpiry cid q) s = .next t ∧
        t.kernel? part kslot = some k' ∧ k'.state = .retiring ∧ k'.status = 2 ∧ k'.faultCause = 32 ∧ k'.records = []) ∧
    (∀ mask : DWord, (c.state = .destroyed → ∃ t, exec (.grant cid mask) s = .next t ∧ t.ctxs = s.ctxs) ∧
      (c.state ≠ .destroyed → ∃ t c', exec (.grant cid mask) s = .next t ∧ t.ctx? cid = some c' ∧ c'.grantWant = mask ∧ c'.queues = c.queues ∧
        ∀ n < 64, c'.grant.getLsbD n = true ↔ mask.getLsbD n = true ∨
          (c.grant.getLsbD n = true ∧ ∃ r ∈ c.queues, r.2.state = .bound ∧ r.2.part = n)))

/-! ### Chapter 14: contexts -/

/-- The enclave instructions of a hart in HS or M. ENCIN puts a thread of an eligible context on the hart; ENCOUT, an interrupt and a fault
take it off with their exit record. ENCNEW measures the next manifest item, and with the last one the context is READY, keyed and
measured, and its CID is in rd; an item that fails destroys it. SEAL suspends a quiet context, UNSEAL readies it with EPOCH one higher, DESTROY
ends it with its keys erased, and the purge then frees the CID. Statuses of R334 tell what was refused; on a FAULTED context SEAL and UNSEAL
give BADSTATE whatever the operation; an image that fails its check gives BADIMAGE and changes nothing; while one of SEAL and DESTROY acts,
the other and ENCIN wait (00 R8, 14 R325, R333-R337; assumption 23). -/
def Obligations.ContextLifecycle : Prop :=
  ∀ (x : RArgs) (s : State) (h : Nat), s.core = some h →
    let me := s.hart h
    let a := me.reg x.rs1
    let b := me.reg x.rs2
    let refuses := fun (ins : Instr) (n : Nat) => ∃ t, exec ins s = .next t ∧ Retires s t h x.rd (0 - BitVec.ofNat 64 n) ∧ t.ctxs = s.ctxs ∧ t.mem = s.mem
    (me.mode = .m ∨ me.mode = .hs →
      (s.ctx? a.toNat = none → refuses (.encin x) 2 ∧ (∀ ins ∈ [Instr.encsealSeal x, .encsealUnseal x, .encsealDestroy x], refuses ins 2)) ∧
      (s.stage < 6 → refuses (.encnew x) 1) ∧
      (6 ≤ s.stage → s.testMode = false → s.building a.toNat = none → a.toNat % 4096 ≠ 0 → refuses (.encnew x) 3) ∧
      (∀ cid c it s1, 6 ≤ s.stage → s.testMode = false → s.building a.toNat = some cid → s.ctx? cid = some c →
        s.hostBytes c.named (c.manifest + 32 * c.bprog) 32 = some it → s.item cid c it = .ok s1 →
        (c.bprog + 1 ≠ c.nitems → exec (.encnew x) s = .next s1) ∧
        (∀ c1, c.bprog + 1 = c.nitems → s1.ctx? cid = some c1 → c1.roster = [] → s1.hart h = me →
          ∃ t c', exec (.encnew x) s = .next t ∧ t.ctx? cid = some c' ∧ Retires s t h x.rd (BitVec.ofNat 64 cid) ∧ t.mem = s1.mem ∧
            c' = { c1 with state := .ready, keyed := true, meas := shake256 (c1.absorbed ++ leBytes 4 c1.nitems) 64 })) ∧
      (∀ cid c, 6 ≤ s.stage → s.testMode = false → s.building a.toNat = some cid → s.ctx? cid = some c → (∀ th ∈ c.threads, th.2.hart = none) →
        let destroys := fun (n : Nat) => ∃ t c', exec (.encnew x) s = .next t ∧ Retires s t h x.rd (0 - BitVec.ofNat 64 n) ∧
          t.ctx? cid = some c' ∧ c'.state = .destroyed ∧ c'.keyed = false ∧ cid ∈ t.purge
        (s.hostBytes c.named (c.manifest + 32 * c.bprog) 32 = none → destroys 6) ∧
        ∀ it, s.hostBytes c.named (c.manifest + 32 * c.bprog) 32 = some it →
          (s.item cid c it = .badItem → destroys 6) ∧ (s.item cid c it = .noMem → destroys 5)) ∧
      (∀ c th, s.ctx? a.toNat = some c →
        (c.state ≠ .ready → c.state ≠ .running → refuses (.encin x) 1) ∧
        (c.acting = true → exec (.encin x) s = .next s) ∧
        (c.acting = false → c.state = .ready ∨ c.state = .running →
          (Tab.get? c.threads b.toNat = none → refuses (.encin x) 3) ∧
          (Tab.get? c.threads b.toNat = some th → th.hart ≠ none → refuses (.encin x) 8) ∧
          (Tab.get? c.threads b.toNat = some th → th.hart = none → s.badLines (c.threadLines b.toNat) = true → refuses (.encin x) 7) ∧
          (Tab.get? c.threads b.toNat = some th → th.hart = none → s.badLines (c.threadLines b.toNat) = false →
            ∃ t c', exec (.encin x) s = .next t ∧ t.mem = s.mem ∧
            t.hart h = { me with x := th.x, f := th.f, pc := th.pc, mode := th.mode, vsatp := th.atp, inside := some (a.toNat, b.toNat),
                                 hostX := me.x, hostF := me.f, hostPc := me.pc + 4, hostMode := me.mode, hostVsatp := me.vsatp,
                                 exitRd := x.rd, resv := none } ∧
            t.ctx? a.toNat = some c' ∧ c'.state = .running ∧ Tab.get? c'.threads b.toNat = some { th with hart := some h } ∧
            ∀ n, n ≠ h → t.hart n = s.hart n))) ∧
      (∀ c, s.ctx? a.toNat = some c →
        (c.state = .faulted → refuses (.encsealSeal x) 1 ∧ refuses (.encsealUnseal x) 1) ∧
        (2 < b.toNat → (c.state ≠ .faulted → refuses (.encsealSeal x) 3 ∧ refuses (.encsealUnseal x) 3) ∧ refuses (.encsealDestroy x) 3)) ∧
      (∀ c, s.ctx? a.toNat = some c → b.toNat ≤ 2 → c.threads = [] →
        let idle := (∀ st ∈ s.stoves, (∀ g ∈ st.2.groups, g.2.cid ≠ a.toNat) ∧ ∀ f ∈ st.2.flues, f.2.cid ≠ a.toNat) ∧
          ∀ p ∈ s.parts, (∀ w ∈ p.2.switched, w.group.cid ≠ a.toNat) ∧ ∀ k ∈ p.2.kernels, k.2.cid ≠ a.toNat
        (c.state ≠ .ready → c.state ≠ .running → c.sealing ≠ .reached → refuses (.encsealSeal x) 1) ∧
        (c.state ≠ .suspended → refuses (.encsealUnseal x) 1) ∧ (c.state = .destroyed → refuses (.encsealDestroy x) 1) ∧
        (c.state = .ready ∨ c.state = .running → c.sealing = .ending → exec (.encsealSeal x) s = .next s) ∧
        (c.state = .ready ∨ c.state = .running → c.sealing = .going → exec (.encsealDestroy x) s = .next s) ∧
        (c.state = .ready ∨ c.state = .running → c.sealing ≠ .reached → c.sealing ≠ .ending → idle → (∀ p ∈ c.roster, p.2.lstate = .active → p.2.held = []) →
          ∃ t c', exec (.encsealSeal x) s = .next t ∧ Retires s t h x.rd 0 ∧ t.mem = s.mem ∧ t.ctx? a.toNat = some c' ∧ c'.state = .suspended ∧
            c'.epoch = c.epoch ∧ (∀ q u, Tab.get? c.queues q = some u → Tab.get? c'.queues q = some
              (if u.state = .faulted then u else { u with state := .stopped, slot := 0xFFFF })) ∧
            ∀ r p, Tab.get? c.roster r = some p → Tab.get? c'.roster r = some
              (if p.lstate = .active then { p with lstate := .suspended, keyed := false } else p)) ∧
        (c.state = .suspended → s.badImages a.toNat c = true → refuses (.encsealUnseal x) 7) ∧
        (c.state = .suspended → s.badImages a.toNat c = false → ∃ t c', exec (.encsealUnseal x) s = .next t ∧ Retires s t h x.rd 0 ∧ t.mem = s.mem ∧
          t.ctx? a.toNat = some c' ∧ c'.state = .ready ∧ c'.epoch = c.epoch + 1 ∧ (∀ q u, Tab.get? c.queues q = some u →
            ∃ u', Tab.get? c'.queues q = some u' ∧ u'.state =
              if u.state ≠ .stopped then u.state else if u.tail = u.head then .unbound else .pending) ∧
          ∀ r p, Tab.get? c.roster r = some p → Tab.get? c'.roster r = some
            (if p.lstate = .idle ∨ p.lstate = .suspended then { p with lstate := .keying, sepoch := p.sepoch + 1, tried := true } else p)) ∧
        (c.state ≠ .destroyed → c.sealing ≠ .going → idle → NoneBuffered s → Tab.sorted s.own = true → (∀ o ∈ s.own, o.2.owner = a.toNat → o.2.state ≠ .sharedClear) →
          ∃ t c', exec (.encsealDestroy x) s = .next t ∧ Retires s t h x.rd 0 ∧ t.ctx? a.toNat = some c' ∧ c'.state = .destroyed ∧
            c'.keyed = false ∧ a.toNat ∈ t.purge ∧ ∀ p o, Tab.get? s.own p = some o → o.owner = a.toNat → o.state ≠ .free →
              Tab.get? t.own p = some { owner := 0, state := .free, version := o.version + 1 } ∧
              ∀ n < 4096, Memory.byte t.mem (4096 * p + n) = 0))) ∧
    (∀ cid n c, me.inside = some (cid, n) → s.ctx? cid = some c →
      (me.mode = .vs ∨ me.mode = .vu → ∃ t, exec (.encout x) s = .next t ∧ ThreadLeaves s t h cid n (a <<< 8) (me.pc + 4)) ∧
      (∃ t, exec (.threadHostInterrupt h) s = .next t ∧ ThreadLeaves s t h cid n 1 me.pc) ∧
      (∃ t, exec (.threadFault h) s = .next t ∧ ThreadLeaves s t h cid n 2 me.pc)) ∧
    (me.inside = none → exec (.threadHostInterrupt h) s = .next s ∧ exec (.threadFault h) s = .next s)

/-- What happens to a context without its asking: a packet whose tag does not match faults it, with the first fault kept and its queues as they were, and one whose tag
matches changes nothing; the forwarding of the counters adds what was counted; after the purge nothing is tagged with a destroyed CID any
more and it is free (14 R323, R331, R337, R338, R342; assumption 23). -/
def Obligations.ContextEvents : Prop :=
  ∀ (s : State) (cid : Nat) (c : Context), s.ctx? cid = some c →
    (∀ p : Packet, (p.flow.extractLsb' 20 12).toNat = cid →
      (packetGenuine p c = true → exec (.networkTagFailure p) s = .next s) ∧
      (packetGenuine p c = false → c.state = .ready ∨ c.state = .running → c.threads = [] →
        ∃ t c', exec (.networkTagFailure p) s = .next t ∧ t.ctx? cid = some c' ∧
          c'.state = .faulted ∧ c'.fkind = (if c.fkind = 0 then 4 else c.fkind) ∧ c'.meas = c.meas ∧
          ∀ q u, Tab.get? c.queues q = some u → u.state = .bound →
            ∃ u', Tab.get? c'.queues q = some u' ∧ u'.state = .bound ∧ u'.head = u.head ∧ u'.tail = u.tail) ∧
      (packetGenuine p c = false → c.state ≠ .ready → c.state ≠ .running →
        ∃ t, exec (.networkTagFailure p) s = .next t ∧ t.ctxs = s.ctxs ∧ t.mem = s.mem)) ∧
    (∃ t c', exec (.pmuForward cid) s = .next t ∧ t.ctx? cid = some c' ∧ c' = { c with pmval := c'.pmval } ∧ t.mem = s.mem ∧
      ∀ n < 16, SMap.get c'.pmval n = SMap.get c.pmval n + s.counted cid n ∧ t.counted cid n = 0) ∧
    (cid ∉ s.purge → exec (.cidPurgeComplete cid) s = .next s) ∧
    (cid ∈ s.purge → ∃ t, exec (.cidPurgeComplete cid) s = .next t ∧ t.ctx? cid = none ∧ cid ∉ t.purge ∧ t.mem = s.mem ∧
      (∀ j, j ≠ cid → t.ctx? j = s.ctx? j) ∧
      ∀ n, (∀ l ∈ (t.stove n).l1, l.2.cid ≠ cid) ∧ (∀ l ∈ (t.stove n).kcache, l.2.cid ≠ cid) ∧ (∀ e ∈ (t.stove n).tlb, e.cid ≠ cid) ∧
        ∀ e ∈ (t.hearth n).tlb, e.cid ≠ cid)

/-! ### Chapter 19: pages -/

/-- The page services. A block that is not in order gets BADARG, an address that is not canonical or aligned BADVA, a place that is taken
EXISTS, one that is not mapped NOTMAPPED, and then nothing changes. MAP and ATTACH install the leaf or the demand-zero mark (whose bits are the
model's choice, assumption 10), also in the place of a table with no leaf, which is then free; UNMAP removes
it, PROTECT changes its permissions, and no old translation is left; SHARE and UNSHARE change the state of the context's pages; FREE unmaps
them and, for a thread, frees and scrubs them; WALK writes the level that fails, or 0xFF. While a service of the context is being done the
next one waits (19 R402, R406, R407, R410, R417; assumption 22). -/
def Obligations.PageServiceResults : Prop :=
  ∀ (s : State) (c : Caller), NoneBuffered s →
    let asks : List (Instr × Nat) := [(.mapPage c, 0x100), (.unmap c, 0x101), (.protect c, 0x102), (.freePage c, 0x103), (.sharePage c, 0x104),
      (.unshare c, 0x105), (.attach c, 0x106), (.walk c, 0x107)]
    let answers := fun (ins : Instr) (n : Nat) => ∃ t, exec ins s = .next t ∧ Answers s t c n ∧ t.mem = s.mem ∧ t.own = s.own
    let owners := fun (t : State) => ∀ a, t.ownOf a = { s.ownOf a with cmp := (t.ownOf a).cmp }
    (∀ p ∈ asks, (s.caller c p.2 = none → exec p.1 s = .next s) ∧
      (∀ cid a, s.caller c p.2 = some (cid, a) → (s.serving cid = true → exec p.1 s = .next s) ∧
        (s.serving cid = false → s.readBlock cid a = .cause 6 → answers p.1 6))) ∧
    (∀ p ∈ asks.take 7, ∀ cid a r, Asks s c p.2 cid a r → (canonical r.va = false ∨ r.va.toNat % (4096 * 512 ^ r.lvl) ≠ 0) → answers p.1 1) ∧
    (∀ p ∈ [(Instr.mapPage c, 0x100, false), (.attach c, 0x106, true)], ∀ cid a r, Asks s c p.2.1 cid a r → r.vaOk = true →
      (r.pa ≠ 0 → s.mapPaOk cid r p.2.2 = false → answers p.1 2) ∧
      ((r.pa = 0 ∧ p.2.2 = false) ∨ (r.pa ≠ 0 ∧ s.mapPaOk cid r p.2.2 = true) → ∀ at' e, s.leafPos cid r.va r.lvl = .entry at' e →
        (pteV e = true → s.emptyTable e = false → answers p.1 3) ∧
        (s.emptyTable e = true → EntryPlace s at' → at' / 4096 ≠ ptePa e / 4096 → ∃ t, exec p.1 s = .next t ∧ Answers s t c 0 ∧
          Untranslated t cid r.va ∧ (t.ownOf (ptePa e / 4096 * 4096)).state = .free ∧
          Memory.read8 t.mem at' = if r.pa = 0 then permBits r.perm ||| 0x100 else r.pa ||| permBits r.perm ||| 3) ∧
        (pteV e = false → EntryPlace s at' → ∃ t, exec p.1 s = .next t ∧ Answers s t c 0 ∧ owners t ∧ Untranslated t cid r.va ∧
          EntryBecomes s t at' (if r.pa = 0 then permBits r.perm ||| 0x100 else r.pa ||| permBits r.perm ||| 3)))) ∧
    (∀ p ∈ [(Instr.unmap c, 0x101), (.protect c, 0x102), (.freePage c, 0x103), (.sharePage c, 0x104), (.unshare c, 0x105)],
      ∀ cid a r, Asks s c p.2 cid a r → r.vaOk = true → ∀ at', s.leafPos cid r.va r.lvl = .entry at' 0 → answers p.1 4) ∧
    (∀ cid r at' e, r.vaOk = true → s.leafPos cid r.va r.lvl = .entry at' e → pteV e = true → pteLeaf e = true → ptePa e < localTop →
      EntryPlace s at' →
      let pages := leafPages r.lvl e
      let all := fun st => ∀ p ∈ pages, (s.ownOf (p * 4096)).owner = cid ∧ (s.ownOf (p * 4096)).state = st
      (∀ p ∈ pages, (s.ownOf (p * 4096)).state ≠ .transit) →
      (∀ a, Asks s c 0x101 cid a r → ∃ t, exec (.unmap c) s = .next t ∧ Answers s t c 0 ∧ t.own = s.own ∧ Untranslated t cid r.va ∧ EntryBecomes s t at' 0) ∧
      (∀ a, Asks s c 0x102 cid a r → ∃ t, exec (.protect c) s = .next t ∧ Answers s t c 0 ∧ owners t ∧ Untranslated t cid r.va ∧
        EntryBecomes s t at' ((e &&& ~~~0xB8#64) ||| permBits r.perm)) ∧
      (∀ a, Asks s c 0x103 cid a r → all .owned → ∃ t, exec (.freePage c) s = .next t ∧ Answers s t c 0 ∧ Untranslated t cid r.va ∧
        Memory.read8 t.mem at' = 0 ∧ ∀ h, c = .hart h → ∀ p ∈ pages, (t.ownOf (p * 4096)).state = .free ∧
          (t.ownOf (p * 4096)).version = (s.ownOf (p * 4096)).version + 1 ∧ ∀ n < 4096, Memory.byte t.mem (4096 * p + n) = 0) ∧
      (∀ a, Asks s c 0x104 cid a r → (all .owned → ∃ t, exec (.sharePage c) s = .next t ∧ Answers s t c 0 ∧ t.mem = s.mem ∧
          ∀ p ∈ pages, (t.ownOf (p * 4096)).state = .sharedClear ∧ (t.ownOf (p * 4096)).owner = cid) ∧
        (¬all .owned → answers (.sharePage c) 2)) ∧
      (∀ a, Asks s c 0x105 cid a r → (∀ x, s.ctxs = [(cid, x)] → all .sharedClear → ∃ t, exec (.unshare c) s = .next t ∧ Answers s t c 0 ∧
          t.mem = s.mem ∧ ∀ p ∈ pages, (t.ownOf (p * 4096)).state = .owned ∧ (t.ownOf (p * 4096)).owner = cid) ∧
        (¬all .sharedClear → answers (.unshare c) 2))) ∧
    (∀ cid a r pa, Asks s c 0x107 cid a r → s.devPa cid a .store = .ok pa →
      (canonical r.va = false → answers (.walk c) 1) ∧
      (canonical r.va = true → r.blk % 32 = 0 → paKind (r.blk + 24) = .hbm → s.bad (r.blk + 24) = false → ∃ t, exec (.walk c) s = .next t ∧
        Answers s t c 0 ∧ (∀ x, x < r.blk + 24 ∨ r.blk + 28 ≤ x → Memory.byte t.mem x = Memory.byte s.mem x) ∧
        ((∃ l p e, s.walk cid r.va = .leaf l p e) → leNat (Memory.read t.mem (r.blk + 24) 4) = 0xFF) ∧
        ∀ l p e, l < 5 → s.walk cid r.va = .miss l p e → leNat (Memory.read t.mem (r.blk + 24) 4) = l))

/-- Pages that come and go. The first access to a demand-zero page gets it a page of the context that reads zero, with the mark's
permissions; a migration and a page-out first put the page in transit, where its translations are gone; the page-out then hands the host a
sealed image with the next sequence number, or refuses, and the page stays, where a line of it cannot be read (assumption 60); an image that is not the one on record is refused and changes nothing, the right one comes
back (19 R411, R412, R413; assumptions 10 and 22). -/
def Obligations.PageEvents : Prop :=
  ∀ (s : State) (cid : Nat) (c : Context) (va : DWord), s.ctx? cid = some c → NoneBuffered s →
    let noBits := ∀ p ∈ s.parts, ∀ k ∈ p.2.kernels, k.2.bits = []
    (∀ lvl a e stove p s1, s.walk cid va = .miss lvl a e →
      (pteDemand e = false → exec (.demandZeroFill cid va stove) s = .next s) ∧
      (pteDemand e = true → lvl ≤ 1 → s.pickRun (512 ^ lvl) (s.stackOrder stove) = (none, s1) → exec (.demandZeroFill cid va stove) s = .next s) ∧
      (pteDemand e = true → lvl ≤ 1 → s.pickRun (512 ^ lvl) (s.stackOrder stove) = (some p, s1) → EntryPlace s a → noBits →
        (a / 4096 < p ∨ p + 512 ^ lvl ≤ a / 4096) → ∃ t, exec (.demandZeroFill cid va stove) s = .next t ∧
          Memory.read8 t.mem a = (BitVec.ofNat 64 (p * 4096) ||| (e &&& 0xB8#64) ||| 3) ∧
          ∀ j < 512 ^ lvl, (t.ownOf ((p + j) * 4096)).owner = cid ∧ (t.ownOf ((p + j) * 4096)).state = .owned ∧
            ∀ n < 4096, Memory.byte t.mem (4096 * (p + j) + n) = 0)) ∧
    (∀ lvl a e pages frame, s.ownLeaf cid va .owned = some (lvl, a, e, pages) →
      let gone := fun (ins : Instr) => ∃ t c', exec ins s = .next t ∧ t.mem = s.mem ∧ t.ctx? cid = some c' ∧ Untranslated t cid va ∧
        ∀ p ∈ pages, (t.ownOf (p * 4096)).state = .transit ∧ (t.ownOf (p * 4096)).owner = cid ∧ Tab.get? c'.moves p =
          some (ins == .pageMigration cid va frame)
      gone (.pageMigration cid va frame) ∧
      (c.state = .ready ∨ c.state = .running ∨ c.state = .suspended → lvl = 0 → gone (.pageout cid va))) ∧
    (c.state ≠ .ready → c.state ≠ .running → c.state ≠ .suspended → ∀ img, exec (.pageout cid va) s = .next (s.say .refused) ∧
      exec (.pagein cid img) s = .next (s.say .refused)) ∧
    (∀ a e p, c.state = .ready ∨ c.state = .running ∨ c.state = .suspended → s.ownLeaf cid va .owned = none →
      s.ownLeaf cid va .transit = some (0, a, e, [p]) → Tab.get? c.moves p = some false → EntryPlace s a → a / 4096 ≠ p →
      ((∃ j < 32, s.bad (p * 4096 + 128 * j) = true) → ∃ t, exec (.pageout cid va) s = .next t ∧ t.outbox.getLast? = some .refused ∧
        (t.ownOf (p * 4096)).state = .owned ∧ (t.ownOf (p * 4096)).owner = cid) ∧
      ((∀ j < 32, s.bad (p * 4096 + 128 * j) = false) → ∃ (t : State) (c' : Context) (img : SealedImage), exec (.pageout cid va) s = .next t ∧ t.outbox.getLast? = some (.pageImage img) ∧
        t.ctx? cid = some c' ∧ img.cid = cid ∧ img.va.toNat = va.toNat / 4096 * 4096 ∧ img.perm = bitsPerm e ∧
        img.seq = SMap.get c.pageSeqs (va.toNat / 4096 % 2 ^ 45) + 1 ∧ SMap.get c'.pageSeqs (va.toNat / 4096 % 2 ^ 45) = img.seq ∧
        img.data = Config.gcmSeal c.kseal (imageIv img) (imageAad img) (Memory.read s.mem (p * 4096) 4096) ∧
        (t.ownOf (p * 4096)).state = .free ∧
        Memory.read8 t.mem a = (img.seq.setWidth 64 <<< 32 ||| (e &&& 0xB8#64) ||| 0x200))) ∧
    (∀ (img : SealedImage) (a : Nat) (e : DWord), c.state = .ready ∨ c.state = .running ∨ c.state = .suspended →
      s.walk cid img.va = .miss 0 a e →
      let right := ptePaged e = true ∧ img.cid = cid ∧ canonical img.va = true ∧ img.va.toNat % 4096 = 0 ∧ img.seq = e.extractLsb' 32 32 ∧
        img.perm = bitsPerm e ∧ img.tag = Config.gcmTag c.kseal (imageIv img) (imageAad img) img.data
      (¬right → exec (.pagein cid img) s = .next (s.say .badImage)) ∧
      (∀ p s1, right → s.takePageFor cid img.va = (some p, s1) → EntryPlace s a → a / 4096 ≠ p → noBits →
        ∃ t, exec (.pagein cid img) s = .next t ∧ t.outbox.getLast? = some (.status 0) ∧ (t.ownOf (p * 4096)).owner = cid ∧
          (t.ownOf (p * 4096)).state = .owned ∧ Memory.read8 t.mem a = (BitVec.ofNat 64 (p * 4096) ||| (e &&& 0xB8#64) ||| 3) ∧
          ∀ n b, n < 4096 → (Config.gcmOpen c.kseal (imageIv img) (imageAad img) img.data)[n]? = some b → Memory.byte t.mem (p * 4096 + n) = b))

/-! ### Chapters 12 and 20: hosts, devices, peers -/

/-- Hosts and devices. A request of a host at none of the sixteen chimneys, beyond its window or to a context that cannot be reached is answered
with an error and does nothing, one whose address fails is answered with an error, one whose page is not resident waits and counts in the
window; one that is in order within a page writes its bytes at the slices, or returns the bytes read, and what it took of the window is free. DMA of
an interface that does not run is dropped; DMA that fails is dropped and the interface enters ERROR, unbound; a binding needs the owner's
session, one of the four ports, a free index and a free stream, and leaves the interface in CONFIG_LOCKED (12 R297, 01 R24, 20 R424, R425;
assumptions 25, 26). -/
def Obligations.HostDeviceResults : Prop :=
  ∀ (s : State),
    let same := fun (t : State) => t.mem = s.mem ∧ t.ctxs = s.ctxs ∧ ∀ k, (t.stove k).l1 ⊆ (s.stove k).l1 ∧ (t.stove k).flues = (s.stove k).flues
    let answers := fun (ins : Instr) (r : Reply) => ∃ t, exec ins s = .next t ∧ t.outbox = s.outbox ++ [r] ∧ same t ∧ t.tdisp = s.tdisp
    (∀ (req : HostReq) (bytes : List Byte) (n : Nat),
      let w := s.hostWin req.chimney
      let others := w.waiting.filter fun x => x.1 != req.tag
      let room := fun (k : Nat) => req.chimney < 16 ∧ others.length < (Tab.getD s.hosts req.chimney {}).tags ∧
        others.foldl (fun m x => m + x.2) 0 + k ≤ (Tab.getD s.hosts req.chimney {}).bytes
      let errors := fun ins : Instr => exec ins s = .next (s.say (.hostError req.tag))
      let window := fun (t : State) (l : List (Nat × Nat)) => t.hostWin req.chimney = { w with waiting := l } ∧
        ∀ k, k ≠ req.chimney → t.hostWin k = s.hostWin k
      let answered := fun (ins : Instr) (r : Reply) => ∃ t, exec ins s = .next t ∧ t.outbox = s.outbox ++ [r] ∧ same t ∧ t.tdisp = s.tdisp ∧
        window t others
      let waits := fun (ins : Instr) (k : Nat) => ∃ t, exec ins s = .next t ∧ same t ∧ t.tdisp = s.tdisp ∧ window t (others ++ [(req.tag, k)])
      (s.reachable req.cid = false ∨ ¬room bytes.length → errors (.hostWrite req bytes)) ∧
      (s.reachable req.cid = false ∨ ¬room 0 → errors (.hostRead req n)) ∧
      (s.reachable req.cid = true → room bytes.length →
        (∀ c, bytes ≠ [] → s.devPa req.cid req.va .store = .cause c → answered (.hostWrite req bytes) (.hostError req.tag)) ∧
        (bytes ≠ [] → s.devPa req.cid req.va .store = .wait → waits (.hostWrite req bytes) bytes.length) ∧
        (∀ pa, req.va.toNat % 4096 + bytes.length ≤ 4096 → s.devPa req.cid req.va .store = .ok pa →
          paKind pa = .hbm → (∀ j < bytes.length, Whole s (pa + j)) → ∃ t, exec (.hostWrite req bytes) s = .next t ∧
            t.outbox = s.outbox ++ [.hostDone req.tag] ∧ t.mem = Memory.write s.mem pa bytes ∧ t.ctxs = s.ctxs ∧ window t others ∧
            ∀ k, (t.stove k).l1 ⊆ (s.stove k).l1 ∧ (t.stove k).flues = (s.stove k).flues)) ∧
      (s.reachable req.cid = true → room 0 →
        (∀ c, s.devRead req.cid req.va n = .cause c → answered (.hostRead req n) (.hostError req.tag)) ∧
        (s.devRead req.cid req.va n = .wait → waits (.hostRead req n) 0) ∧
        (∀ bs, s.devRead req.cid req.va n = .ok bs → answered (.hostRead req n) (.hostData req.tag bs)) ∧
        (∀ pa, 0 < n → req.va.toNat % 64 + n ≤ 64 → s.devPa req.cid req.va .load = .ok pa → paKind pa = .hbm → s.bad pa = false →
          answered (.hostRead req n) (.hostData req.tag (Memory.read s.mem pa n))))) ∧
    (∀ (port iface : Nat) (dma : Dma),
      let key := ifaceKey port iface
      let x := Tab.getD s.tdisp key {}
      (x.state ≠ .run ∨ s.reachable x.cid = false → exec (.deviceDma port iface dma) s = .next (s.say (.deviceDropped port iface))) ∧
      (∀ c, x.state = .run → s.reachable x.cid = true →
        (dma.write = true ∧ dma.bytes ≠ [] ∧ s.devPa x.cid dma.va .store = .cause c) ∨
          (dma.write = false ∧ s.devRead x.cid dma.va dma.len = .cause c) →
        ∃ t c', exec (.deviceDma port iface dma) s = .next t ∧ t.outbox = s.outbox ++ [.deviceDropped port iface] ∧ t.mem = s.mem ∧
          (Tab.getD t.tdisp key {}).state = .error ∧ t.ctx? x.cid = some c' ∧ Tab.get? c'.iface x.index = none) ∧
      (∀ pa, x.state = .run → s.reachable x.cid = true → dma.write = true → dma.va.toNat % 4096 + dma.bytes.length ≤ 4096 →
        s.devPa x.cid dma.va .store = .ok pa → paKind pa = .hbm → (∀ j < dma.bytes.length, Whole s (pa + j)) →
        ∃ t, exec (.deviceDma port iface dma) s = .next t ∧ t.outbox = s.outbox ∧ t.mem = Memory.write s.mem pa dma.bytes ∧
          t.tdisp = s.tdisp) ∧
      (∀ bs, x.state = .run → s.reachable x.cid = true → dma.write = false → s.devRead x.cid dma.va dma.len = .ok bs →
        answers (.deviceDma port iface dma) (.deviceData port iface bs))) ∧
    (∀ (port iface cid index : Nat) (owner : Bool),
      let key := ifaceKey port iface
      let bound := (s.tdisp.filter fun (x : Nat × Tdisp) => x.1 / 65536 == port && (x.2.state == .run || x.2.state == .configLocked)).length
      let ok := port < 4 ∧ owner = true ∧ s.reachable cid = true ∧ index < 32 ∧ iface < 65536 ∧ bound < 64 ∧
        (Tab.getD s.tdisp key {}).state ≠ .run ∧ (Tab.getD s.tdisp key {}).state ≠ .configLocked ∧
        ∀ c, s.ctx? cid = some c → Tab.get? c.iface index = none
      (¬ok → exec (.tdispBind port iface cid index owner) s = .next (s.say .refused)) ∧
      (ok → ∃ t c c', exec (.tdispBind port iface cid index owner) s = .next t ∧ s.ctx? cid = some c ∧ t.ctx? cid = some c' ∧
        c' = { c with iface := c'.iface } ∧ Tab.get? c'.iface index = some key ∧ t.mem = s.mem ∧ t.outbox = s.outbox ∧
        Tab.getD t.tdisp key {} = { state := .configLocked, cid := cid, index := index } ∧
        ∀ k, k ≠ key → Tab.get? t.tdisp k = Tab.get? s.tdisp k))

/-- Streams. A keying that ends with the identity and the measurement of the roster makes the entry ACTIVE, its counters zero; a mismatch
excludes it, another failure or the time limit leaves it LOST; each keying that starts raises the epoch, that of a LOST entry with the peer's
return too; the writes held for the same peer context go out again, or wait while no port is up; a reset of the peer loses it: the flits of its
session are discarded and their slots free, and lanes that await an answer of the peer raise ROSTER; only the owner readmits an excluded one,
with the new measurement; a counter that reaches 2^48 starts again under a new key (20 R419, R421, R426, R427, R429; assumption 26). -/
def Obligations.StreamEvents : Prop :=
  ∀ (s : State) (cid r : Nat) (p : Peer), s.peer? cid r = some p →
    let quiet := fun (t : State) => t.mem = s.mem ∧ t.stoves = s.stoves ∧ ∀ n, n ≠ r → t.peer? cid n = s.peer? cid n
    let becomes := fun (ins : Instr) (out : List Reply) (p' : Peer) => ∃ t, exec ins s = .next t ∧ t.peer? cid r = some p' ∧
      t.outbox = s.outbox ++ out ∧ t.ports = s.ports ∧ quiet t
    let tells := fun (t : State) (n : Nat) (rep : Reply) (made : Flit → Prop) => ∃ g, t.outbox = s.outbox ++ [.flit n g, rep] ∧
      g.vc = 4 ∧ g.kind = 8 ∧ g.sid = BitVec.ofNat 16 r ∧ g.seq = (s.port n).sendSeq + 1 ∧ crc64 (flitBytes g) = g.crc ∧ made g ∧
      ∀ m, m ≠ n → t.port m = s.port m
    let starts := fun (ins : Instr) (p' : Peer) => ∃ t, exec ins s = .next t ∧ t.peer? cid r = some { p' with sepoch := p.sepoch + 1, tried := true } ∧
      quiet t ∧ (s.linkPort cid r 0 = none → t.outbox = s.outbox ++ [.keyExchange cid r] ∧ t.ports = s.ports) ∧
      ∀ n, s.linkPort cid r 0 = some n → tells t n (.keyExchange cid r) fun g => g.ctr = 0 ∧ g.gtag = 0 ∧
        dataOf g.payload = [0x13, 0xE4, 0, 0]
    let kept := fun (peer : PeerId) => if p.pcid = peer.pcid then p.held else []
    let epoch := p.sepoch + if p.lstate = .lost ∧ p.tried = false then 1 else 0
    let up := fun (peer : PeerId) => ({ p with
      lstate := .active, keyed := true, pcid := peer.pcid, sepoch := epoch, ctrTx := 0, ctrRx := 0, keyGen := 0, rxGen := 0, tried := false
      held := kept peer, asked := [], parts := [], out := ((kept peer).map Held.flits).flatten } : Peer)
    let ends := fun (ins : Instr) (l : LState) => ∃ t, exec ins s = .next t ∧ quiet t ∧
      t.peer? cid r = some { p with lstate := l, sepoch := epoch, tried := false } ∧
      (p.lstate = .keying ∨ p.tried = true → t.outbox = s.outbox ∧ t.ports = s.ports)
    (∀ peer : PeerId,
      let same := peer.idHash = p.idHash ∧ peer.measH = p.measH
      (p.lstate = .keying → ¬same → ends (.keyingComplete cid r peer) .excluded) ∧
      (p.lstate = .keying → same → peer.ok = false → ends (.keyingComplete cid r peer) .lost) ∧
      (p.lstate = .lost → peer.measH ≠ p.measH → ends (.keyingComplete cid r peer) .excluded) ∧
      (p.lstate = .lost → peer.measH = p.measH → peer.ok = false ∨ peer.idHash ≠ p.idHash → ends (.keyingComplete cid r peer) .lost) ∧
      (p.lstate = .keying ∨ p.lstate = .lost → same → peer.ok = true → p.path / 2 % 2 = 0 ∨ p.replay ≠ [] →
        (∃ t q, exec (.keyingComplete cid r peer) s = .next t ∧ t.peer? cid r = some q ∧ quiet t ∧
          q = { up peer with ctrTx := q.ctrTx, keyGen := q.keyGen, out := q.out }) ∧
        ((∀ n < 80, (s.port n).up = true → p.mayUse n = false) →
          becomes (.keyingComplete cid r peer) (if p.lstate = .lost ∧ p.tried = false then [.keyExchange cid r] else []) (up peer))) ∧
      (p.lstate ≠ .keying → p.lstate ≠ .lost → exec (.keyingComplete cid r peer) s = .next s)) ∧
    (p.lstate = .keying → becomes (.keyingTimeout cid r) [] { p with lstate := .lost, tried := false }) ∧
    (p.lstate ≠ .keying → becomes (.keyingTimeout cid r) [] p) ∧
    (p.lstate = .lost → starts (.keyingRetry cid r) p) ∧
    (p.lstate ≠ .lost → exec (.keyingRetry cid r) s = .next s) ∧
    (p.lstate = .active → s.collsOf cid p.idHash = [] → (∀ c, s.ctx? cid = some c → ∀ q ∈ c.queues, q.2.kicks = []) →
      ∃ t, exec (.peerReset cid r) s = .next t ∧
        t.peer? cid r = some { p with lstate := .lost, keyed := false, asked := [], out := [], parts := [], tried := false } ∧
        (∀ n, n ≠ r → t.peer? cid n = s.peer? cid n) ∧ t.mem = s.mem ∧ t.outbox = s.outbox ++ [.memberLost cid r] ∧
        (∀ n, (∀ x ∈ (t.port n).slots, ¬(x.1 = cid ∧ x.2.1 = r)) ∧ (t.port n).sendSeq = (s.port n).sendSeq ∧
          (t.port n).replay.length = (s.port n).replay.length ∧
          ∀ (j : Nat) (x : Sent), (s.port n).replay[j]? = some x → ∃ y, (t.port n).replay[j]? = some y ∧ y.flit.seq = x.flit.seq ∧
            (¬(x.cid = cid ∧ x.roster = r) → y = x) ∧ (x.cid = cid → x.roster = r → y.flit.sid = 0xFFFF ∧ y.flit.payload = [])) ∧
        ∀ stove slot f, s.flue? stove slot = some f →
          (f.cid ≠ cid ∨ (∀ o ∈ f.outs, ∀ q ∈ o.peers, q.roster ≠ r) → t.flue? stove slot = some f) ∧
          (f.cid = cid → ∃ g, t.flue? stove slot = some g ∧ (∀ o ∈ g.outs, ∀ q ∈ o.peers, q.roster ≠ r) ∧
            ∀ o ∈ f.outs, ∀ q ∈ o.peers, q.roster = r → q.lanes ≠ 0 →
              ∃ e, Tab.get? g.pending cROSTER = some e ∧ e.lanes &&& q.lanes = q.lanes)) ∧
    (p.lstate ≠ .active → exec (.peerReset cid r) s = .next s) ∧
    (∀ m owner, (p.lstate ≠ .excluded ∨ owner = false → exec (.readmit cid r m owner) s = .next (s.say .refused)) ∧
      (p.lstate = .excluded → owner = true → starts (.readmit cid r m owner) { p with lstate := .keying, measH := m })) ∧
    (∀ n, p.lstate = .active → 2 ^ 48 ≤ p.ctrTx → s.linkPort cid r 0 = some n → ∃ t, exec (.keyUpdate cid r) s = .next t ∧
      t.peer? cid r = some { p with ctrTx := 0, keyGen := p.keyGen + 1 } ∧ quiet t ∧
      tells t n (.keyUpdate cid r) fun g =>
        let key := s.streamKey cid r p.sepoch p.keyGen true
        g.ctr = BitVec.ofNat 64 p.ctrTx ∧ g.gtag = flitTag key (flitIv cid r true g.ctr) g ∧
        g.payload = (Config.gcmSeal key (flitIv cid r true g.ctr) (flitAad g) (leBytes 8 0 ++ payloadOf [0x13, 0xE9, 0, 0])).drop 8) ∧
    (p.lstate ≠ .active ∨ p.ctrTx < 2 ^ 48 ∨ s.linkPort cid r 0 = none → exec (.keyUpdate cid r) s = .next s)

/-- A flit that a port receives while no flit waits to be sent. One whose CRC fails, or on a channel above 4, is discarded and the last number
received in order is acknowledged; one out of order is discarded; a link flit that acknowledges the same again makes the port replay, and when
that would be a flit's sixteenth replay the port goes down. Of a stream in order, a read request is answered with the line, a write is applied and
acknowledged, an atomic is performed over all the values that came under its tag and answered with the earlier value, each refused with a cause
when the peer may not, an answer ends the request or write that it pairs with and frees its slot, a KEY_UPDATE gives the peer's direction its
next key, and a flit whose tag no stream makes is a tag failure that loses the stream (20 R418, R420-R423, R426, R427, 09 R213; assumption 26). -/
def Obligations.FlitResults : Prop :=
  ∀ (s : State) (port : Nat) (f : Flit), (∀ c r q, s.peer? c r = some q → q.out = []) → (∀ x ∈ s.ports, x.2.up = true ∨ x.2.replay = []) →
    let p := s.port port
    let good := crc64 (flitBytes f) = f.crc ∧ f.vc.toNat ≤ 4
    let kept := p.replay.filter fun x => BitVec.slt 0 (x.flit.seq - f.ackSeq)
    let rest := fun t : State => t.mem = s.mem ∧ t.stoves = s.stoves ∧ ∀ c, t.ctx? c = s.ctx? c
    (p.up = false → exec (.flitReceive port f) s = .next s) ∧
    (p.up = true → ¬good → ∃ g, exec (.flitReceive port f) s = .next (s.say (.flit port g)) ∧ g.kind = 0 ∧ g.ackSeq = p.expect - 1 ∧
      crc64 (flitBytes g) = g.crc) ∧
    (p.up = true → good → f.kind ≠ 0 → f.seq ≠ p.expect → ∃ t, exec (.flitReceive port f) s = .next t ∧ rest t ∧ t.outbox = s.outbox ∧
      ∃ q, t.port port = q ∧ q.replay = kept ∧ q.acked = f.ackSeq ∧ q.hold = f.hold ∧ q.sendSeq = p.sendSeq ∧ q.expect = p.expect) ∧
    (p.up = true → good → f.kind = 0 →
      let again := f.ackSeq = p.acked
      let worn := ∃ x ∈ kept, 15 ≤ x.replays
      (¬(again ∧ worn) → ∃ t, exec (.flitReceive port f) s = .next t ∧ rest t ∧ (t.port port).up = true ∧
        (t.port port).replay = (if again then kept.map fun x => { x with replays := x.replays + 1 } else kept) ∧
        t.outbox = s.outbox ++ (if again then kept.map fun x => .flit port x.flit else [])) ∧
      (again → worn → ∃ t, exec (.flitReceive port f) s = .next t ∧ (t.port port).up = false ∧ t.mem = s.mem ∧
        ((∀ n < 80, n ≠ port → (s.port n).up = false) → rest t ∧ t.outbox = s.outbox ∧ (t.port port).replay = kept))) ∧
    (∀ cid c x, p.up = true → good → f.kind ≠ 0 → f.seq = p.expect → Tab.sorted s.ctxs = true →
      s.streamsOf port f.sid.toNat = [(cid, x)] → s.ctx? cid = some c → Tab.get? c.roster f.sid.toNat = some x →
      (∀ q ∈ c.queues, q.2.kicks = []) → x.ctrTx < 2 ^ 48 →
      let sid := f.sid.toNat
      let key := s.streamKey cid sid x.sepoch x.rxGen false
      let body := Config.gcmOpen key (flitIv cid sid false f.ctr) (flitAad f) (flitText f)
      let addr := leNat (body.take 8)
      let data := dataOf (body.drop 8)
      let mine := s.streamKey cid sid x.sepoch x.keyGen true
      let answered := fun (t : State) (kind : Byte) (d : List Byte) => ∃ g, t.outbox = s.outbox ++ [.flit port g] ∧ g.kind = kind ∧ g.vc = 2 ∧
        g.sid = f.sid ∧ g.tagId = f.tagId ∧ g.seq = p.sendSeq + 1 ∧ g.ctr = BitVec.ofNat 64 x.ctrTx ∧ crc64 (flitBytes g) = g.crc ∧
        g.gtag = flitTag mine (flitIv cid sid true g.ctr) g ∧
        leBytes 8 g.addr.toNat ++ g.payload = (let b := Config.gcmSeal mine (flitIv cid sid true g.ctr) (flitAad g) (leBytes 8 addr ++ payloadOf d)
          leBytes 8 (leNat (b.take 8) % 2 ^ 64) ++ b.drop 8)
      let ours := flitTag key (flitIv cid sid false f.ctr) f = f.gtag
      let y := fun t : State => t.peer? cid sid
      let counted := { x with ctrRx := f.ctr.toNat + 1 }
      let plain := fun (t : State) => t.mem = s.mem ∧ t.outbox = s.outbox
      (¬ours → s.collsOf cid x.idHash = [] → ∃ t, exec (.flitReceive port f) s = .next t ∧
        y t = some { x with lstate := .lost, keyed := false, asked := [], out := [], parts := [], tried := false } ∧ t.mem = s.mem ∧
        t.outbox = s.outbox ++ [.memberLost cid sid]) ∧
      (ours → ∃ t, exec (.flitReceive port f) s = .next t ∧ (t.port port).expect = p.expect + 1 ∧
        (f.kind = 1 → t.mem = s.mem ∧ answered t 2 (match s.refusal cid addr false true with
          | some k => [k]
          | none => Memory.read s.mem (addr / 128 * 128) 128)) ∧
        (∀ k, f.kind = 3 → s.refusal cid addr true false = some k → t.mem = s.mem ∧ answered t 6 [k]) ∧
        (f.kind = 3 → s.refusal cid addr true false = none → (∀ j < data.length, Whole s (addr + j)) →
          answered t 6 [] ∧ t.mem = Memory.write s.mem addr data) ∧
        (f.kind = 4 → flitAtom data = none → t.mem = s.mem ∧ answered t 5 [BitVec.ofNat 8 cILLEGAL]) ∧
        (∀ aop ty vs, f.kind = 4 → flitAtom data = some (aop, ty, true, vs) →
          plain t ∧ y t = some { counted with parts := x.parts ++ [⟨f.tagId, vs⟩] }) ∧
        (∀ aop ty vs, f.kind = 4 → flitAtom data = some (aop, ty, false, vs) →
          let n := atomBytes ty
          let old := BitVec.ofNat 64 (leNat (Memory.read s.mem addr n))
          let all := ((x.parts.filter fun z => z.tag == f.tagId).map (·.vals)).flatten ++ vs
          (∀ k, s.refusal cid addr true true = some k → t.mem = s.mem ∧ answered t 5 [k]) ∧
          (s.refusal cid addr true true = none → addr % n ≠ 0 → t.mem = s.mem ∧ answered t 5 [BitVec.ofNat 8 cALIGN]) ∧
          (s.refusal cid addr true true = none → addr % n = 0 → Whole s addr → answered t 5 (leBytes n old.toNat) ∧
            t.mem = Memory.write s.mem addr (leBytes n (all.foldl (fun o v => atomNew aop.toNat ty o v.1 v.2) old).toNat))) ∧
        (f.kind ∈ [2, 5, 6] → plain t ∧ y t = some { counted with
            held := x.held.eraseP fun h => h.tag == f.tagId
            asked := x.asked.erase f.tagId } ∧
          ∀ n, (cid, sid, f.tagId) ∉ (t.port n).slots) ∧
        (f.kind = 7 → plain t ∧ y t = some counted) ∧
        (f.kind = 8 → plain t ∧ y t = some (if data.getD 1 0 = 0xE9 then { x with rxGen := x.rxGen + 1, ctrRx := 0 } else counted))))

/-- Memory operations of an application core. On a kick page an aligned 4-byte load returns TAIL, HEAD or QSTAT, a 4-byte store to KICK
notifies and one to RESET resets, and everything else is dropped. Elsewhere a load reads the bytes, a store and an AMO write them at the slice,
where every L1 copy of the line goes; LR reserves the line, and SC stores only on a reservation that holds; an access that is not allowed, and a read of an uncorrectable
line, is an exception that changes no memory, and one whose page is not resident waits for it. While peers have writes of the context to acknowledge a release waits: a FENCE has the hart's next
operations wait, an AMO or SC with rl is made later. What a register receives is RV64's (01 R24, 12 R296, R298, 15 R348; assumption 25). -/
def Obligations.CoreAccessResults : Prop :=
  ∀ (s : State) (h cid n : Nat) (c : Context), (s.hart h).inside = some (cid, n) → s.ctx? cid = some c →
    let x := s.hart h
    let run := fun op => exec (.applicationCoreAccess h op) s
    let put := fun (t : State) (rd : BitVec 5) (v : DWord) => ∀ k, SMap.get (t.hart h).x k =
      if rd ≠ 0 ∧ k = rd.toNat then v else SMap.get x.x k
    let fails := fun op => ∃ t, run op = .next t ∧ t.mem = s.mem ∧ t.stoves = s.stoves ∧ (t.hart h).illegal = x.illegal + 1 ∧ (t.hart h).x = x.x
    let waits := fun op => ∃ t, run op = .next t ∧ t.mem = s.mem ∧ t.stoves = s.stoves ∧ t.harts = s.harts
    let only := fun (t : State) (pa len : Nat) => (∀ k, k < pa ∨ pa + len ≤ k → Memory.byte t.mem k = Memory.byte s.mem k) ∧
      ∀ st, Tab.get? (t.stove st).l1 (pa / 128) = none
    (16 ≤ h → ∀ op, run op = .next s) ∧
    (h < 16 → s.ackDue cid = true → (x.fenced = true → ∀ op, run op = .next s) ∧
      (x.fenced = false → ∀ op, Sys2Proof.Machine.CoreOp.releases op = true →
        run op = .next (match op with | .fence _ _ => s.setHart h { x with fenced := true } | _ => s))) ∧
    (h < 16 → s.ackDue cid = false → x.fenced = true → ∀ op, run op = exec (.applicationCoreAccess h op) (s.setHart h { x with fenced := false })) ∧
    (h < 16 → s.ackDue cid = false → x.fenced = false →
    (∀ p q, run (.fence p q) = .next s) ∧
    (∀ va q off qu, c.kickAt va = some (q, off) → Tab.get? c.queues q = some qu →
      (∀ rd len sx, ∃ t, run (.load rd va len sx) = .next t ∧ t.mem = s.mem ∧ t.ctxs = s.ctxs ∧ put t rd
        (if len ≠ 4 then 0 else loaded (leBytes 4 (if off = 0 then qu.tail.toNat else if off = 4 then qu.head.toNat
         else if off = 12 then qu.fstatTop * 2 ^ 28 + QState.code qu.state else 0)) sx)) ∧
      (∀ v : DWord, off = 0 → run (.store va 4 v) = exec (.kick cid q (v.setWidth 32)) s) ∧
      (∀ v : DWord, off = 8 → run (.store va 4 v) = exec (.queueReset cid q (v.setWidth 32)) s) ∧
      (∀ len v, len ≠ 4 ∨ (off ≠ 0 ∧ off ≠ 8) → run (.store va len v) = .next s)) ∧
    (∀ va pa len, c.kickAt va = none → va.toNat % len = 0 → paKind pa = .hbm → s.bad pa = false → pa % len = 0 →
      (∀ rd sx, len ∈ [1, 2, 4, 8] → s.corePa x va len .load = .ok pa → ∃ t, run (.load rd va len sx) = .next t ∧ t.mem = s.mem ∧
        put t rd (loaded (Memory.read s.mem pa len) sx)) ∧
      (∀ v : DWord, len ∈ [1, 2, 4, 8] → s.corePa x va len .store = .ok pa → ∃ t, run (.store va len v) = .next t ∧
        Memory.read t.mem pa len = leBytes len v.toNat ∧ only t pa len ∧ (t.hart h).x = x.x) ∧
      (∀ rd op v aq rl, len ∈ [4, 8] → s.corePa x va len .atom = .ok pa → ∃ t, run (.amo rd op va len v aq rl) = .next t ∧
        put t rd (loaded (Memory.read s.mem pa len) true) ∧ only t pa len ∧
        Memory.read t.mem pa len = leBytes len (amoNew op len (BitVec.ofNat 64 (leNat (Memory.read s.mem pa len))) v).toNat) ∧
      (∀ rd aq rl, len ∈ [4, 8] → s.corePa x va len .load = .ok pa → ∃ t, run (.lr rd va len aq rl) = .next t ∧ t.mem = s.mem ∧
        put t rd (loaded (Memory.read s.mem pa len) true) ∧ (t.hart h).resv = some (pa / 128) ∧
        (t.hart h).resvVal = loaded (Memory.read s.mem pa len) true) ∧
      (∀ rd v aq rl, len ∈ [4, 8] → s.corePa x va len .store = .ok pa → ∃ t, run (.sc rd va len v aq rl) = .next t ∧
        (t.hart h).resv = none ∧ ((put t rd 1 ∧ t.mem = s.mem) ∨ (x.resv = some (pa / 128) ∧ put t rd 0 ∧ only t pa len ∧
          Memory.read t.mem pa len = leBytes len v.toNat)))) ∧
    (∀ va pa len, c.kickAt va = none → va.toNat % 64 + len ≤ 64 → s.bad pa = true →
      (∀ rd sx, s.corePa x va len .load = .ok pa → fails (.load rd va len sx)) ∧
      (∀ rd op v aq rl, s.corePa x va len .atom = .ok pa → fails (.amo rd op va len v aq rl)) ∧
      (∀ rd aq rl, s.corePa x va len .load = .ok pa → fails (.lr rd va len aq rl))) ∧
    (∀ va len, c.kickAt va = none → va.toNat % 64 + len ≤ 64 → va.toNat % len = 0 →
      (∀ rd sx, s.corePa x va len .load = .wait → waits (.load rd va len sx)) ∧
      (∀ v, s.corePa x va len .store = .wait → waits (.store va len v)) ∧
      (∀ rd op v aq rl, s.corePa x va len .atom = .wait → waits (.amo rd op va len v aq rl)) ∧
      (∀ rd aq rl, s.corePa x va len .load = .wait → waits (.lr rd va len aq rl)) ∧
      (∀ rd v aq rl, s.corePa x va len .store = .wait → waits (.sc rd va len v aq rl))) ∧
    (∀ va len cause, c.kickAt va = none → va.toNat % 64 + len ≤ 64 →
      (∀ rd sx, s.corePa x va len .load = .cause cause → fails (.load rd va len sx)) ∧
      (∀ v, s.corePa x va len .store = .cause cause → fails (.store va len v)) ∧
      (∀ rd op v aq rl, va.toNat % len ≠ 0 ∨ s.corePa x va len .atom = .cause cause → fails (.amo rd op va len v aq rl)) ∧
      (∀ rd aq rl, va.toNat % len ≠ 0 ∨ s.corePa x va len .load = .cause cause → fails (.lr rd va len aq rl)) ∧
      (∀ rd v aq rl, va.toNat % len ≠ 0 ∨ s.corePa x va len .store = .cause cause → fails (.sc rd va len v aq rl))))

/-! ### Chapter 14: attestation -/

/-- Requests of SPDM connections. Before stage 2 is complete, where a failure of it or of stage 1 leaves the package, none is answered;
one out of its order is answered with an error and changes nothing; GET_VERSION starts a connection anew, each later request takes it one
stage on, a session stands when FINISH verifies, and END_SESSION ends it. A report is given to the owner's session alone, or before stage 6
without a context's measurement; each signature takes the next leaf, whose block the store has reserved, and without trust, in test mode or
past the last leaf nothing is signed, and without trust or in test mode no key is derived (14 R339, R340, 22 R441, R442, R444, R450; assumption 24). -/
def Obligations.SpdmResults : Prop :=
  ∀ (s : State) (n : Nat) (caps : Word) (offer : SpdmAlgs) (nonce : BitVec 256) (cid off len : Nat) (share verify : List Byte),
    let c := s.conn n
    let silent := s.stage < 2
    let derives := s.rot.trusted = true ∧ s.testMode = false
    let algs := offer.xmssmt = true ∧ offer.sha384 = true ∧ offer.p384 = true ∧ offer.gcm = true
    let mayReport := c.algs = true ∧ (s.stage < 6 ∨ (c.session = true ∧ c.owner = some cid ∧ ∃ x, s.ctx? cid = some x))
    let asks : List (Instr × Prop) := [(.getVersion n, True), (.getCapabilities n caps, c.versioned = true),
      (.negotiateAlgorithms n offer, c.caps.isSome = true ∧ algs), (.getDigests n, c.algs = true), (.getCertificate n off len, c.algs = true),
      (.challenge n nonce cid, mayReport), (.getMeasurements n cid, mayReport), (.keyExchange n share, c.algs = true ∧ derives),
      (.keyUpdateRequest n, c.session = true ∧ derives),
      (.endSession n, c.session = true)]
    let gives := fun (ins : Instr) (code : Nat) (data : List Byte) (c' : Spdm) => exec ins s = .next ((s.setConn n c').say (.spdm n code data))
    let reserved := if s.rot.nextLeaf = s.rot.leafEnd then s.rot.monoLeaf else s.rot.nextLeaf
    let signs := s.rot.trusted = true ∧ s.testMode = false ∧ reserved < 2 ^ 40
    let signed := fun (ins : Instr) (code : Nat) (msg : List Byte) (keeps : State → Prop) => ∃ t, exec ins s = .next t ∧ keeps t ∧
      { t with rot := s.rot, outbox := s.outbox, spdm := s.spdm } = s ∧
      (¬signs → t.outbox = s.outbox ++ [.spdm n 0x7F []] ∧ t.rot = s.rot) ∧
      (signs → t.outbox = s.outbox ++ [.spdm n code (msg ++ leBytes 5 reserved ++ xmssTail reserved msg)] ∧ t.rot.nextLeaf = reserved + 1 ∧
        t.rot.monoLeaf = s.rot.monoLeaf + if s.rot.nextLeaf = s.rot.leafEnd then 1024 else 0)
    (silent → exec (.finish n verify) s = .next s) ∧ (∀ p ∈ asks, (silent → exec p.1 s = .next s) ∧ (¬silent → ¬p.2 → exec p.1 s = .next (s.say (.spdm n 0x7F [])))) ∧
    (¬silent →
      gives (.getVersion n) 0x04 [0x13] { versioned := true } ∧
      (c.versioned = true → gives (.getCapabilities n caps) 0x61 [] { c with caps := some caps }) ∧
      (c.caps.isSome = true → algs → gives (.negotiateAlgorithms n offer) 0x63 [] { c with algs := true }) ∧
      (c.algs = true → exec (.getDigests n) s = .next (s.say (.spdm n 0x01 (leBytes 48 (Config.sha3x384 Config.certChain).toNat))) ∧
        exec (.getCertificate n off len) s = .next (s.say (.spdm n 0x02 ((Config.certChain.drop off).take len)))) ∧
      (c.algs = true → derives → signed (.keyExchange n share) 0x64 (Config.spdmShare (c.keyGen + 1) share) fun t =>
          t.conn n = { c with keyed := true, session := false, keyGen := c.keyGen + 1 }) ∧
      (c.keyed = true → derives → ∃ t, exec (.finish n verify) s = .next t ∧ t = if Config.spdmFinish c.keyGen verify = true then
          (s.setConn n { c with session := true, owner := Config.spdmOwner n c.keyGen }).say (.spdm n 0x65 [])
        else s.say (.spdm n 0x7F [])) ∧
      (c.keyed = false ∨ ¬derives → exec (.finish n verify) s = .next (s.say (.spdm n 0x7F []))) ∧
      (c.session = true → derives → gives (.keyUpdateRequest n) 0x69 [] { c with keyGen := c.keyGen + 1 }) ∧
      (c.session = true → gives (.endSession n) 0x6C [] { c with keyed := false, session := false, owner := none }) ∧
      (c.algs = true → s.stage < 6 → signed (.challenge n nonce cid) 0x03 (leBytes 32 nonce.toNat ++ leBytes 64 s.fw.measurement.toNat ++ leBytes 4 0)
        (fun t => t.spdm = s.spdm)) ∧
      (∀ x : Context, c.algs = true → s.stage = 6 → c.session = true → c.owner = some cid → s.ctx? cid = some x →
        signed (.challenge n nonce cid) 0x03 (leBytes 32 nonce.toNat ++ x.meas ++ leBytes 64 s.fw.measurement.toNat ++
          leBytes 4 (CState.code x.state) ++ leBytes 4 x.epoch.toNat) (fun t => t.spdm = s.spdm) ∧
        signed (.getMeasurements n cid) 0x60 (x.meas ++ leBytes 64 s.fw.measurement.toNat ++ match s.fw.old with
          | some o => leBytes 64 o.2.toNat
          | none => []) (fun t => t.spdm = s.spdm)))

/-! ### Chapters 21 and 01: partitions, clocks -/

/-- The life of a partition. A request whose hearths or shares do not fit, before the partition stage, or for one that has groups, those
that wait among them, is refused;
one that fits makes it FORMING, with its hearths in ascending physical order as logical hearths 0, 1, …; the test makes it RUNNING or FAILED;
a drain stops a RUNNING one, and once nothing is resident its stoves and hearths are scrubbed; a reset that succeeds lets it run, with nothing
left of the drain and its groups with age zero, one that fails makes it FAILED and faults the contexts with groups on it (21 R430-R433, R439, R440; assumption 27). -/
def Obligations.PartitionLife : Prop :=
  ∀ (s : State) (n : Nat),
    let becomes := fun (ins : Instr) (p' : Partition) => ∃ t, exec ins s = .next t ∧ t.part? n = some p' ∧ t.mem = s.mem ∧
      (∀ k, k ≠ n → t.part? k = s.part? k) ∧ t.harts = s.harts
    (∀ spec : PartSpec,
      let fits := 4 ≤ s.stage ∧ n < 64 ∧ s.hearthsOk n spec.hearths = true ∧ s.controlsOk n spec = true
      let idle := fun (p : Partition) => p.switched = [] ∧ (∀ k ∈ p.kernels, k.2.records = []) ∧
        ∀ st ∈ s.partStoves n, (s.stove st).groups = [] ∧ (s.stove st).flues = []
      let free := ∀ p, s.part? n = some p → (p.state = .failed ∨ p.state = .running ∨ p.state = .forming) ∧ idle p
      (¬(fits ∧ free) → exec (.formPartition n spec) s = .next (s.say .refused)) ∧
      (fits → free → ∃ t p, exec (.formPartition n spec) s = .next t ∧ t.part? n = some p ∧ p.state = .forming ∧ p.cshare = spec.cshare ∧
        p.ways = spec.ways ∧ p.qslots = spec.qslots ∧ p.slice = spec.slice ∧ p.current = none ∧ t.mem = s.mem ∧ t.stoves = s.stoves ∧
        (∀ h, t.fw.hearth = some h → s.fw.hearth = some h ∧ h ∉ spec.hearths) ∧
        (∀ h, h ∈ p.hearths ↔ h ∈ spec.hearths) ∧ List.Pairwise (· < ·) p.hearths ∧ (∀ k, k ≠ n → t.part? k = s.part? k) ∧
        ∀ k h, p.hearths[k]? = some h → Tab.get? t.remap h = some ⟨n, k⟩)) ∧
    (s.part? n = none → exec (.drainPartition n) s = .next s ∧ exec (.drainComplete n) s = .next s ∧
      ∀ failed, exec (.partitionTestComplete n failed) s = .next s ∧ exec (.resetComplete n failed) s = .next s) ∧
    (∀ p, s.part? n = some p →
      (p.state = .forming → becomes (.partitionTestComplete n false) { p with state := .running } ∧
        ∃ t, exec (.partitionTestComplete n true) s = .next t ∧ t.part? n = some { p with state := .failed } ∧
          t.outbox = s.outbox ++ [.report s.stage [n]]) ∧
      (p.state ≠ .forming → ∀ failed, exec (.partitionTestComplete n failed) s = .next s) ∧
      (p.state = .running → becomes (.drainPartition n) { p with state := .draining }) ∧
      (p.state ≠ .running → exec (.drainPartition n) s = .next s) ∧
      (let empty := ∀ st ∈ s.partStoves n, (s.stove st).flues = [] ∧ (s.stove st).groups = []
       (¬(p.state = .draining ∧ empty) → exec (.drainComplete n) s = .next s) ∧
       (p.state = .draining → empty → ∃ t, exec (.drainComplete n) s = .next t ∧ t.part? n = some { p with state := .resetting } ∧
         (∀ st ∈ s.partStoves n, t.stove st = {}) ∧ (∀ st, st ∉ s.partStoves n → (t.stove st).flues = (s.stove st).flues) ∧
         (∀ h ∈ p.hearths, (t.hearth h).tlb = [] ∧ (t.hearth h).walk = [] ∧ (t.hearth h).cycles = 0 ∧
           (t.hearth h).clock = (s.hearth h).clock ∧ ∀ rv, rv ∈ (t.hearth h).hrvs ↔
             rv ∈ (s.hearth h).hrvs ∧ ∃ k, Tab.get? p.kernels rv.kslot = some k ∧ k.cid ∉ p.drainFor) ∧
         ((∀ st ∈ s.partStoves n, (s.stove st).posted = []) → t.mem = s.mem))) ∧
      (p.state ≠ .resetting → ∀ failed, exec (.resetComplete n failed) s = .next s) ∧
      (p.state = .resetting → becomes (.resetComplete n false) { p with
        state := .running, drainFor := [], current := none, switched := p.switched.map fun w => { w with age := 0 } }) ∧
      (p.state = .resetting → p.switched = [] → (∀ k ∈ p.kernels, k.2.records = []) → ∃ t, exec (.resetComplete n true) s = .next t ∧
        t.part? n = some { p with state := .failed, drainFor := [] } ∧ t.outbox = s.outbox ++ [.report s.stage [n]] ∧ t.ctxs = s.ctxs) ∧
      (p.state = .resetting → ∃ t, exec (.resetComplete n true) s = .next t ∧ ∀ cid c, s.ctx? cid = some c → c.eligible = true →
        (∃ w ∈ p.switched, w.group.cid = cid) ∨ (∃ k ∈ p.kernels, k.2.cid = cid ∧ k.2.records ≠ []) →
        ∃ c', t.ctx? cid = some c' ∧ c'.state = .faulted))

/-- Clocks. A target must be a multiple of 50 MHz from 500 to 1500; a hearth has the least of its target and its limits, a lowering at once,
a raise when the voltage has settled. A predicted excess lowers by 50 MHz the fastest hearth above 500 MHz of the partition with the least
share, none counting before it is formed, a recovery takes the last step back, 50 MHz, and goes on while the target is not reached; heat holds a die at 500 MHz, and each return step gives 50 MHz back (01 R16, R19, R21, 21 R437; assumption 27). -/
def Obligations.ClockEvents : Prop :=
  ∀ (s : State),
    let reclocked := fun (t : State) (n : Nat) (h : Hearth) =>
      let want := min h.target (min h.powerCap h.thermalCap)
      if want ≤ (s.hearth n).clock then t.hearth n = { h with clock := want, raisePending := false } else t.hearth n = { h with raisePending := true }
    let sameBut := fun (t : State) (which : Nat → Prop) => (∀ n, ¬which n → t.hearth n = s.hearth n) ∧ t.mem = s.mem ∧ t.stoves = s.stoves ∧
      t.parts = s.parts ∧ t.outbox = s.outbox
    (∀ part hearth mhz,
      let target := (s.part? part).bind fun p => p.hearths[hearth]?
      (target = none ∨ mhz % 50 ≠ 0 ∨ mhz < 500 ∨ 1500 < mhz → exec (.setclk part hearth mhz) s = .next (s.say .refused)) ∧
      (∀ h, target = some h → mhz % 50 = 0 → 500 ≤ mhz → mhz ≤ 1500 → ∃ t, exec (.setclk part hearth mhz) s = .next t ∧
        sameBut t (· = h) ∧ reclocked t h { s.hearth h with target := mhz })) ∧
    (∀ h, ((s.hearth h).raisePending = false → exec (.hearthVoltageSettled h) s = .next s) ∧
      ((s.hearth h).raisePending = true → ∃ t, exec (.hearthVoltageSettled h) s = .next t ∧ sameBut t (· = h) ∧
        t.hearth h = { s.hearth h with
          clock := min (s.hearth h).target (min (s.hearth h).powerCap (s.hearth h).thermalCap), raisePending := false })) ∧
    (let share := fun (p : Partition) => if p.state = .forming ∨ p.state = .failed then 0 else p.cshare
     let above := fun (p : Partition) => ∃ h ∈ p.hearths, 500 < (s.hearth h).clock
     ((∀ x ∈ s.parts, ¬above x.2) → exec .powerExcessPredicted s = .next s) ∧
     (Tab.sorted s.parts = true → (∃ x ∈ s.parts, above x.2) → ∃ t x h, exec .powerExcessPredicted s = .next t ∧ x ∈ s.parts ∧ h ∈ x.2.hearths ∧
       (∀ y ∈ s.parts, above y.2 → share x.2 < share y.2 ∨ (share x.2 = share y.2 ∧ y.1 ≤ x.1)) ∧ above x.2 ∧
       (∀ (j k h' : Nat), x.2.hearths[j]? = some h → x.2.hearths[k]? = some h' → (∀ m, x.2.hearths[m]? = some h → m = j) →
         (s.hearth h').clock < (s.hearth h).clock ∨ ((s.hearth h').clock = (s.hearth h).clock ∧ k ≤ j)) ∧
       t.powerSteps = h :: s.powerSteps ∧ sameBut t (· = h) ∧ reclocked t h { s.hearth h with powerCap := (s.hearth h).clock - 50 })) ∧
    (s.powerSteps = [] → exec .powerRecoveryStep s = .next s) ∧
    (∀ h rest, s.powerSteps = h :: rest →
      let cap := (s.hearth h).powerCap + 50
      let more := h ∉ rest ∧ cap < (s.hearth h).target
      ∃ t, exec .powerRecoveryStep s = .next t ∧ t.powerSteps = (if more then rest ++ [h] else rest) ∧ sameBut t (· = h) ∧
        reclocked t h { s.hearth h with powerCap := if h ∈ rest ∨ more then cap else 1500 }) ∧
    (∀ d, ∃ t, exec (.junctionOvertemp d) s = .next t ∧ (t.die d).hot = true ∧ sameBut t (fun n => n / 8 = d) ∧
      ∀ j < 8, reclocked t (8 * d + j) { s.hearth (8 * d + j) with thermalCap := 500 }) ∧
    (∀ d, ((s.die d).hot = false → exec (.thermalReturnStep d) s = .next s) ∧
      ((s.die d).hot = true → ∃ t, exec (.thermalReturnStep d) s = .next t ∧ sameBut t (fun n => n / 8 = d) ∧
        (∀ j < 8, reclocked t (8 * d + j) { s.hearth (8 * d + j) with thermalCap := min 1500 ((s.hearth (8 * d + j)).thermalCap + 50) }) ∧
        ((t.die d).hot = false ↔ ∀ j < 8, 1450 ≤ (s.hearth (8 * d + j)).thermalCap)))

/-! ### Chapter 22: start, recovery, firmware -/

/-- Every reset of the package — a reset request, a thermal trip, a lockstep mismatch, a recovery that has not completed within 2^32 control
cycles — starts again at stage 1 with no context, partition, flue or key; the monotonic store, the firmware generation that was loaded last and
the answers already given outlast it, the trip pin is asserted by a trip alone, and a TESTMODE request whose signature verifies takes effect with
it; before stage 2 no such request is taken (01 R21, 22 R441, R444, R447, R449, R450; assumption 27). -/
def Obligations.PackageResetResults : Prop :=
  ∀ (s : State),
    let restarts := fun (ins : Instr) (out : List Reply) => ∃ t, exec ins s = .next t ∧ t.stage = 0 ∧ t.halted = false ∧ t.ctxs = [] ∧ t.parts = [] ∧
      t.stoves = [] ∧ t.llc = [] ∧ t.side = [] ∧ t.flows = [] ∧ t.counts = [] ∧ t.hearths = [] ∧ t.dies = [] ∧ t.own = [] ∧ t.remap = [] ∧
      t.harts = [] ∧ t.ports = [] ∧ t.spdm = [] ∧ t.tdisp = [] ∧ t.hosts = [] ∧
      t.fw = { gen := s.fw.gen, measurement := s.fw.measurement } ∧ t.testPending = false ∧ t.rot.trusted = false ∧
      t.rot.monoLeaf = s.rot.monoLeaf ∧ t.rot.monoVersion = s.rot.monoVersion ∧ t.rot.image = s.rot.image ∧
      t.testMode = s.testPending ∧ t.outbox = s.outbox ++ out
    restarts .packageReset [] ∧ restarts .thermalTrip [.trip] ∧ restarts .lockstepMismatch [] ∧
    (s.fw.frozen = true → 2 ^ 32 ≤ s.fw.recoverAge → restarts .recoveryTimeout []) ∧
    (s.fw.frozen = false ∨ s.fw.recoverAge < 2 ^ 32 → exec .recoveryTimeout s = .next s) ∧
    ∀ sig, (s.stage < 2 → exec (.testmode sig) s = .next s) ∧ (2 ≤ s.stage → ∃ t, exec (.testmode sig) s = .next t ∧
      t = if Config.testmodeVerify sig = true then { s with testPending := true } else s.say .refused)

/-- The stages of the start. The boot ROM verifies signature and security version of the firmware loaded last, and the root of trust is
trusted from then on; a stage that succeeds is followed by the next, the second with the lowest hearth that passes its test for the firmware; a
failure of the first, or no hearth or a passed limit at the second, takes the root of trust its trust and halts, a memory stack that is not
trained halts, failed ports are down, failed hearths are left out, and partitions that fail are FAILED; the fifth stage is complete when none
is FORMING any more, and at its limit those that are FAILED with it. A halted start stays where it is, and every failure is reported (22 R441-R443,
R448, R449; assumption 27). -/
def Obligations.StartStages : Prop :=
  ∀ (s : State) (rep : StageReport),
    let boot := s.bootFw
    let good := Config.fwVerify boot = true ∧ s.rot.monoVersion ≤ boot.version
    let failing := rep.hearths ++ rep.hbms ++ rep.ports ++ rep.parts
    let done := fun (ok : Prop) (P : State → Prop) => ∃ t, exec (.stageComplete rep) s = .next t ∧ P t ∧ t.ctxs = s.ctxs ∧ t.mem = s.mem ∧
      t.stoves = s.stoves ∧ (ok → failing = [] → t.outbox = s.outbox) ∧
      (¬(ok ∧ failing = []) → t.outbox = s.outbox ++ [.report (s.stage + 1) failing])
    let late := fun (l : List Nat) (P : State → Prop) => ∃ t, exec (.stageTimeout rep) s = .next t ∧ P t ∧ t.ctxs = s.ctxs ∧ t.mem = s.mem ∧
      t.stoves = s.stoves ∧ t.outbox = s.outbox ++ [.report (s.stage + 1) (rep.hearths ++ rep.hbms ++ rep.ports ++ l)]
    let stops := fun t : State => t.halted = true ∧ t.stage = s.stage
    let linked := fun t : State => t.stage = 3 ∧ t.halted = false ∧ (∀ j < 80, ((t.port j).up = true ↔ j ∉ rep.ports)) ∧
      ∀ j < 16, t.hostWin j = { tags := min 65536 (Config.hostWindow j).1, bytes := min (2 ^ 26) (Config.hostWindow j).2 }
    let passes := fun (h : Nat) => h < 64 ∧ h ∉ rep.hearths
    (∀ im, s.rot.image = some im → boot = im) ∧
    (s.rot.image = none → boot = ⟨Config.bootImage.1, Config.bootImage.2.1, Config.bootImage.2.2⟩) ∧
    (s.halted = true → exec (.stageComplete rep) s = .next s ∧ exec (.stageTimeout rep) s = .next s) ∧
    (s.stage = 0 → exec (.stageTimeout rep) s = .next s) ∧
    (s.halted = false →
      (s.stage = 0 → s.testMode = false → done good fun t =>
        (good → t.stage = 1 ∧ t.halted = false ∧ t.rot.trusted = true ∧ t.rot.nextLeaf = s.rot.monoLeaf ∧
          t.rot.monoLeaf = s.rot.monoLeaf + 1024 ∧ t.fw.measurement = boot.measurement) ∧
        (¬good → stops t ∧ t.rot = { s.rot with trusted := false })) ∧
      (s.stage = 0 → s.testMode = true → done good fun t =>
        (good → t.stage = 1 ∧ t.halted = false ∧ t.rot = s.rot ∧ t.fw.measurement = boot.measurement) ∧
        (¬good → stops t ∧ t.rot = { s.rot with trusted := false })) ∧
      (s.stage = 1 → rep.ok = false ∨ (∀ h, ¬passes h) → done (rep.ok = true) fun t => stops t ∧ t.rot = { s.rot with trusted := false }) ∧
      (∀ h, s.stage = 1 → rep.ok = true → passes h → (∀ k < h, ¬passes k) → done True fun t =>
        t.stage = 2 ∧ t.halted = false ∧ t.rot = s.rot ∧ t.fw = { s.fw with hearth := some h }) ∧
      (s.stage = 2 → rep.hbms ≠ [] → done False fun t => stops t ∧ t.rot = s.rot) ∧
      (s.stage = 2 → rep.hbms = [] → done (rep.ok = true) linked) ∧
      (s.stage = 3 → done (rep.ok = true) fun t => t.stage = 4 ∧ t.halted = false ∧ t.badHearths = rep.hearths) ∧
      (s.stage = 4 → (∃ x ∈ s.parts, x.2.state = .forming ∧ x.1 ∉ rep.parts) → exec (.stageComplete rep) s = .next s) ∧
      (s.stage = 4 → (∀ x ∈ s.parts, x.2.state = .forming → x.1 ∈ rep.parts) → done (rep.ok = true) fun t =>
        t.stage = 6 ∧ t.halted = false ∧ ∀ n p, s.part? n = some p →
          t.part? n = some (if p.state = .forming then { p with state := .failed } else p)) ∧
      (s.stage = 1 → late rep.parts fun t => stops t ∧ t.rot = { s.rot with trusted := false }) ∧
      (s.stage = 2 → rep.hbms ≠ [] → late rep.parts fun t => stops t ∧ t.rot = s.rot) ∧
      (s.stage = 2 → rep.hbms = [] → late rep.parts linked) ∧
      (s.stage = 3 → late rep.parts fun t => t.stage = 4 ∧ t.halted = false ∧ t.badHearths = rep.hearths) ∧
      (s.stage = 4 → late ((s.parts.filter fun x => x.2.state == .forming).map (·.1)) fun t => t.stage = 6 ∧ ∀ n p, s.part? n = some p →
        t.part? n = some (if p.state = .forming then { p with state := .failed } else p)))

/-- Recovery and firmware. A heartbeat that has been missing for 2^24 control cycles, a machine check or a request to recover freezes the
schedulers, and every service call whose result is not yet posted gets 0xFFFFFFFE, with what a page service had changed as it was, while flues
and contexts stay. An image that is signed and not older than the store's version becomes the next generation and raises that version, and the
calls already in a ring still belong to the older one; any other is refused; before stage 2 no request is taken (22 R441, R445, R446, R448, R449;
assumption 27). -/
def Obligations.RecoveryAndFirmware : Prop :=
  ∀ (s : State),
    let rings := (s.parts.map fun x => x.2.ring).flatten
    let recovers := fun ins : Instr => ∃ t, exec ins s = .next t ∧ t.fw.frozen = true ∧ t.fw.recoverAge = 0 ∧ t.fw.gen = s.fw.gen ∧
      t.fw.old = none ∧ t.ctxs = s.ctxs ∧ t.harts = s.harts ∧ (∀ a b, t.flue? a b = s.flue? a b) ∧
      (∀ n p, s.part? n = some p → ∃ p', t.part? n = some p' ∧
        p' = { p with ring := p'.ring } ∧ p'.ring.length = p.ring.length ∧ ∀ (j : Nat) (e : RingEntry), p.ring[j]? = some e →
          p'.ring[j]? = some { e with answer := some 0xFFFFFFFE#32, pages := [], freeing := [], undoMem := [], undoOwn := [] }) ∧
      (∀ a, (∀ e ∈ rings, ∀ b ∈ e.undoMem, b.1 ≠ a) → Memory.byte t.mem a = Memory.byte s.mem a) ∧
      (∀ a, (∀ e ∈ rings, ∀ o ∈ e.undoOwn, o.1 ≠ a) → Tab.get? t.own a = Tab.get? s.own a) ∧
      ∀ l e r, rings = l ++ e :: r → (∀ x ∈ l ++ r, x.undoMem = [] ∧ x.undoOwn = []) →
        ((e.undoMem.map (·.1)).Nodup → ∀ b ∈ e.undoMem, Memory.byte t.mem b.1 = b.2) ∧
        ((e.undoOwn.map (·.1)).Nodup → ∀ o ∈ e.undoOwn, Tab.get? t.own o.1 = o.2)
    (2 ≤ s.stage → recovers .recover) ∧ (s.stage < 2 → exec .recover s = .next s) ∧ recovers .serviceMachineCheck ∧
    (2 ^ 24 ≤ s.fw.heartbeat → recovers .heartbeatTimeout) ∧
    (s.fw.heartbeat < 2 ^ 24 → exec .heartbeatTimeout s = .next s) ∧
    ∀ fw : FwImage,
      let mayCome := s.rot.trusted = true ∧ s.fw.old = none ∧ s.rot.monoVersion ≤ fw.version
      let older := ∃ x ∈ s.parts, ∃ e ∈ x.2.ring, e.gen ≠ s.fw.gen + 1
      (s.stage < 2 → exec (.firmwareLoad fw) s = .next s) ∧
      (2 ≤ s.stage → ¬mayCome → exec (.firmwareLoad fw) s = .next (s.say .refused)) ∧
      (2 ≤ s.stage → mayCome → ∃ t, exec (.firmwareLoad fw) s = .next t ∧ if Config.fwVerify fw = false then t = s.say .refused else
        t.fw.gen = s.fw.gen + 1 ∧ t.fw.measurement = fw.measurement ∧
        t.rot = { s.rot with monoVersion := fw.version, image := some fw } ∧ t.mem = s.mem ∧ t.stoves = s.stoves ∧ t.parts = s.parts ∧
        (older → t.fw.old = some (s.fw.gen, s.fw.measurement)) ∧ (¬older → t.fw.old = none) ∧
        ∀ n p, s.part? n = some p → Tab.get? t.fw.switchAt n = some p.ringSeq)


/-! ### Chapters 03, 04, 08: clauses; steps -/

/-- A clause issues. Lanes at line offset 60 outside every clause stand at the next line first. The lanes of a flue that stand at a header take
the words that lie in memory from there, as many as its COUNT says. A clause that its header or an instruction breaks executes nothing and
raises ILLEGAL at the first word that offends, its resume address the header, whatever WAIT names; a busy flag that WAIT names holds the lanes
where they are; otherwise they stand at the first instruction, it is their most recent clause, clauses that share words with it are forgotten but for those inside
which lanes of theirs stand, a
region entry opens its region there, and a yield point returns the yield counter to zero, or at a slice end stops the flue (03 R52-R56, R73, 04
R94-R98, 13 R306, R314; assumption 18). -/
def Obligations.ClauseIssueOpens : Prop :=
  ∀ (s : State) (stove slot : Nat) (f : Flue) (pc : DWord), s.flue? stove slot = some f →
    let run := exec (.clauseIssue ⟨stove, slot⟩ pc) s
    run = exec (.clauseIssue ⟨stove, slot⟩ pc) (s.setFlue stove slot f.normalise) ∧
    ∀ pa : Nat, f.normalise = f → Maps s stove f.cid pc 4 .fetch false pa → pa % 64 = pc.toNat % 64 → s.bad pa = false →
    let lanes := f.lanesAt pc
    let line := wordsOfBytes ((64 - pa % 64) / 4) (Memory.read s.mem pa (64 - pa % 64))
    let h := line.headD 0
    let body := (line.drop 1).take (hdrCount h)
    let breaks := if headerOk h pc = true then bodyFault h f.demand 15 1 body else some 0
    let may := f.mayIssue = true ∧ lanes ≠ 0 ∧ f.inside pc = none ∧ f.heldLanes &&& lanes = 0
    let stops := hdrYp h = true ∧ f.sliceEnd = true ∧ f.phase = .run
    let becomes := fun P : Flue → Prop => ∃ t g, run = .next t ∧ t.flue? stove slot = some g ∧ t.mem = s.mem ∧
      (∀ a b, ¬(a = stove ∧ b = slot) → t.flue? a b = s.flue? a b) ∧ P g
    (¬may → becomes fun g => g = f) ∧
    (∀ k, may → breaks = some k → f.phase = .run → becomes fun g => g = { f with pending := g.pending } ∧
      g.pending = [(0, { lanes := lanes, faddr := pc + BitVec.ofNat 64 (4 * k), resume := pc, codeAt := pc + BitVec.ofNat 64 (4 * k) })]) ∧
    (may → breaks = none → f.waitBusy h = true → becomes fun g => g = f) ∧
    (may → breaks = none → f.waitBusy h = false → stops → f.regionOpen = false → becomes fun g => g = { f with preempt := true }) ∧
    (may → breaks = none → f.waitBusy h = false → ¬stops → f.regionOpen = false → becomes fun g =>
      let enters := hdrRe h = true ∧ f.phase ≠ .handler
      let hm := f.phase == .handler
      g = { f with pc := g.pc, clauses := g.clauses, entry := if enters then pc else f.entry, restart := if enters then lanes else f.restart, regionOpen := decide enters,
                   ycount := if hdrYp h = true then 0 else f.ycount } ∧
      (∃ c cs, g.clauses = c :: cs ∧ c.header = pc ∧ c.word = h ∧ c.words = body ∧ c.members hm &&& lanes = lanes ∧
        (∀ d ∈ cs, d.members hm &&& lanes = 0 ∧ (c.overlaps d = false ∨ g.uses d = true)) ∧
        ∀ d ∈ f.clauses, ¬(d.header = pc ∧ d.word = h ∧ d.words = body) → c.overlaps d = false → d.leave hm lanes ∈ cs) ∧
      Moves ⟨stove, slot, lanes, pc, pc + 4, pc, h, false, 0, f⟩ f g 0 (fun _ => 0) lanes)

/-- A step runs the decoded instruction. A turn that names an event is that event. A turn of one of the sixteen harts fetches the word at its pc and
runs the enclave instruction that it decodes to, with the hart as the core that executes; a custom-0 word that is none, and a fetch that is not
allowed, is an exception, an ECALL that calls a page service waits for it, and any other word of the base set is refused. A burner's turn runs, for the lanes that it chose, the instruction that their counter names
in an open clause, or the first of the clause that issues there, with the issue in the state; and then the latches, counts and the order of
issue follow (05 R103-R111, 06 R129, 14 R333; assumptions 2 and 28). Outside an issue no instruction runs. -/
def Obligations.StepRunsDecoded : Prop :=
  (∀ (s : State) (i : Instr) (ts : List Turn), s.turns = .event i :: ts → step s = exec i { s with turns := ts }) ∧
  (∀ (s : State) (h : Nat) (ts : List Turn), s.turns = .hart h :: ts →
    let s0 := { s with turns := ts }
    (16 ≤ h → step s = .next s0) ∧
    let u := (s0.hartWord h).2
    (h < 16 → (s0.hartWord h).1 = .wait → step s = .next u) ∧
    (∀ c, h < 16 → (s0.hartWord h).1 = .cause c → step s = .next (u.illegalInst h)) ∧
    ∀ w : Word, h < 16 → (s0.hartWord h).1 = .ok w →
      let pages := w = 0x73 ∧ ((s.hart h).mode = .vs ∨ (s.hart h).mode = .vu) ∧ (s.hart h).inside ≠ none ∧
        SMap.get (s.hart h).x 17 / 256 = 0x504C01#64 ∧ isPageService ((SMap.get (s.hart h).x 17).setWidth 16) = true
      (pages → step s = .next u) ∧
      (¬pages → w.extractLsb' 0 7 ≠ 0x0B#7 → step s = .refused (.baseInstruction w)) ∧
      (∀ i, w.extractLsb' 0 7 = 0x0B#7 → decodeEnclave ((s.hart h).reg (w.extractLsb' 20 5)) w = .ok i →
        step s = andThen (exec i { u with core := some h }) fun t => .next { t with core := none }) ∧
      (∀ e, w.extractLsb' 0 7 = 0x0B#7 → decodeEnclave ((s.hart h).reg (w.extractLsb' 20 5)) w = .error e →
        step s = .next (u.illegalInst h))) ∧
  (∀ (s : State) (stove burner slot : Nat) (ts : List Turn) (f : Flue) (pc : DWord) (lanes : LaneMask),
    s.turns = .issue stove burner :: ts → (∀ p ∈ burnerSlots (s.stove stove) burner, p.2.pageWait = none ∧ p.2.ringWait = false) →
    let s0 := { s with turns := ts }
    let s1 := (burnerSlots (s0.stove stove) burner).foldl (fun s p => s.modFlue stove p.1 Flue.normalise) s0
    let s2 := ((s1.trickle stove slot).trickleAcc stove slot).count f.cid 1
    let ready := s1.readyGroups stove slot f
    s1.pickFlue stove burner = some (slot, f) → s1.flue? stove slot = some f → s1.chosen stove f ready = [(pc, lanes)] →
    let runs := fun (u : State) (view : Flue) (at' : DWord) => ∀ ins (c : OpenClause) next last,
      (∀ l < 32, lanes.getLsbD l = true → view.pcOf l = at') → instrAt view at' = some (ins, c, next, last) →
      let i : Issue := ⟨stove, slot, lanes, at', next, c.header, c.word, last, u.freeIdx, view⟩
      (insHeld u i view ins = false →
        step s = andThen (exec ins { u.count view.cid 2 with issue := some i, freeIdx := u.freeIdx + 1 }) fun t =>
          .next (({ t with issue := none } : State).afterIssue stove slot f ready [(pc, lanes)])) ∧
      (insHeld u i view ins = true → step s = .next (u.afterIssue stove slot f ready []))
    ∀ g, s2.flue? stove slot = some g →
      ((instrAt g pc).isSome = true → runs s2 g pc) ∧
      (∀ s3 view, instrAt g pc = none → s2.takeClause ⟨stove, slot⟩ pc = .next s3 → s3.flue? stove slot = some view →
        instrAt view pc = none → runs s3 view (pc + 4))) ∧
  (∀ (s : State) (i : Instr), s.issue = none → i.code ≠ .event → (∀ n x, i.code ≠ .enclave n x) → exec i s = .fault .noIssue) ∧
  (∀ (s : State) (i : Instr) n x, s.core = none → i.code = .enclave n x → exec i s = .fault .noIssue)




/-! ### Words; reset; memory -/

/-- The other direction of the encoding: words that decode are those that encode the instruction, which is well formed, followed by what is
left; and a custom-0 word that decodes is that of its enclave instruction (03 R56-R63, R77-R82, 04 R90-R95, 14 R333). -/
def Obligations.DecodeEncode : Prop :=
  (∀ (ws rest : List Word) (i : Instr), decodeWords ws = .ok (i, rest) → i.wf = true ∧ ws = encode i ++ rest) ∧
  (∀ (sel : DWord) (w : Word) (i : Instr), decodeEnclave sel w = .ok i → i.wf = true ∧ encode i = [w])

/-- The worked words of chapters 3 and 4: the clause at 0x7F40_2080 holds a short IADD, an FFMA with a literal and a negated guard, and a BRA;
the fill word is IADD of zeros; OP 0x037 is unassigned. -/
def Obligations.DecodeSpecWords : Prop :=
  decodeWords [0x0000C0D4#32] = .ok (.iaddI32Short { guard := ⟨false, 0⟩, d := .v 3, a := .v 1, b := .s 4 }, []) ∧
  decodeWords [0x88F2140C#32, 0x05FD4000#32, 0x3FC00000#32, 0xC003C788#32] = .ok (.ffma
    { guard := ⟨true, 9⟩, d := .v 5, a := .v 1, b := .v 2, c := .lit, f := .none, ty := .f32, rm := .rne, modx := 0,
      lit := some 0x3FC00000#32 }, [0xC003C788#32]) ∧
  decodeWords [0xC003C788#32, 0xE23FFFFE#32] = .ok (.bra
    { guard := ⟨false, 1⟩, d := .zero, a := .zero, b := .zero, dem := 0, ofs := 0x3FFFFE#22, lit := none }, []) ∧
  decodeWords [0x001C78F1#32] = .ok (.iaddI32Short { guard := ⟨false, 0⟩, d := .zero, a := .zero, b := .zero }, []) ∧
  decodeWords [0x8DC00C00#32, 0xE3C40000#32] = .error .unassignedOpcode

/-- The package after reset: no stage of the start is complete, no context, partition, flue or cached line exists, no page is owned, nothing is
signed, and memory lists no byte in its canonical form; what a byte reads then is the model's choice (22 R441, R444; assumption 1). -/
def Obligations.ResetState : Prop :=
  let s := State.reset
  s.stage = 0 ∧ s.halted = false ∧ s.testMode = false ∧ (∀ n, s.ctx? n = none) ∧ (∀ n, s.part? n = none) ∧ (∀ a b, s.flue? a b = none) ∧
  (∀ a g, s.group? a g = none) ∧ (∀ n, (s.stove n).l1 = [] ∧ (s.stove n).tlb = [] ∧ (s.stove n).posted = []) ∧
  (∀ pa, (s.ownOf pa).state = .free) ∧ s.rot.trusted = false ∧ Memory.wf s.mem = true ∧ s.mem = [] ∧ s.issue = none ∧ s.core = none

/-- Every step keeps memory in its canonical form: addresses rising, and no byte listed that an unlisted address reads as (00 R1, 12 R273; the canonical form is the model's, assumption 1). -/
def Obligations.StepKeepsMemoryForm : Prop :=
  ∀ s t : State, Memory.wf s.mem = true → step s = .next t → Memory.wf t.mem = true

/-- Every register form of the chapters on numbers completes, whatever its operands hold: the group steps past, one value for each active lane
goes to the destination, or is under way to it under the flag or the interlock that F selects, the predicates or residues that it names take
their values, a geometric one ends as its stage has it, and every other register, flag, lane, flue and byte of memory is unchanged (06 R124-R148,
07 R151-R158, R166-R174, 03 R70, R72). -/
def Obligations.RegisterFormsComplete : Prop :=
  ∀ (x : LArgs) (s : State) (i : Issue) (f : Flue), Issuing s i f → FrameStands i f →
    (∀ p ∈ [(LRow.iadd, x.ty.regs), (.isub, x.ty.regs), (.imul, x.ty.regs), (.imulh, x.ty.regs), (.imad, x.ty.regs), (.imadw, 2),
        (.ineg, x.ty.regs), (.iabs, x.ty.regs), (.imin, x.ty.regs), (.imax, x.ty.regs), (.andBits, x.ty.regs), (.orBits, x.ty.regs),
        (.xorBits, x.ty.regs), (.andn, x.ty.regs), (.notBits, x.ty.regs), (.shl, x.ty.regs), (.shr, x.ty.regs), (.sar, x.ty.regs),
        (.rotl, x.ty.regs), (.brev, x.ty.regs), (.mov, x.ty.regs), (.bfx, 1), (.bfi, 1), (.popc, 1), (.clz, 1), (.lea, x.ty.regs),
        (.sel, x.ty.regs), (.pmovGet, 1), (.pcnt, 1), (.pmask, 1), (.fadd, x.ty.regs), (.fsub, x.ty.regs), (.fmul, x.ty.regs), (.ffma, x.ty.regs), (.fmin, x.ty.regs), (.fmax, x.ty.regs),
        (.fclass, 1), (.frnd, x.ty.regs), (.fscale, x.ty.regs), (.fcvt, x.ty.regs), (.icvtf, x.ty.regs), (.fcvti, x.ty.regs), (.fdot2, 1),
        (.cvtw, 1), (.bscale, 1), (.pack, 1), (.packI4x, 1), (.unpack, 1), (.resrd, 1)],
      p.1.check x = none → ∃ t, exec (p.1.instr x) s = .next t ∧ LaneResult s t i f x.guard x.d p.2 fun _ _ _ => True) ∧
    (∀ r ∈ [LRow.icmp, .fcmp, .plop, .mpred, .pmovSet], r.check x = none → ∃ t w fl, exec (r.instr x) s = .next t ∧ PredResult s t i f x.guard w fl) ∧
    (∀ r ∈ [LRow.gori2, .gori3, .ginc, .gins, .gsegx], r.check x = none → ∃ t val, exec (r.instr x) s = .next t ∧ GeomResult s t i f x val) ∧
    (LRow.reswr.check x = none → ∃ (t : State) (g : Flue), exec (.reswr x) s = .next t ∧ t = s.setFlue i.stove i.slot g ∧
      g = { f with e := g.e, pc := g.pc } ∧ StepsPast i f g) ∧
    (LRow.cvtn.check x = none → ∃ (t : State) (h : Flue), exec (.cvtn x) s = .next t ∧ h = { f with e := h.e } ∧
      LaneResult s t i h x.guard x.d 1 fun _ _ _ => True) ∧
    (∀ r ∈ [LRow.rcp, .rsq, .sqrt, .exp2, .log2, .sin, .cos, .tanh, .fdiv],
      r.check x = none → ∃ t, exec (r.instr x) s = .next t ∧ LateResult s t i f x x.ty.regs fun _ _ _ => True)
end

