-- ==== Sys2Proof/Laws/Tab.lean ====
section
/-! SUPPORT. Laws of tables, word maps and memories: a read after a write, what a write leaves alone, and the canonical form that
every write keeps. -/

namespace Sys2Proof.Machine

/-! ### Tables -/

section
variable {α : Type}

@[simp] theorem Tab.get?_nil (k : Nat) : Tab.get? ([] : Tab α) k = none := rfl

theorem Tab.get?_put_same (t : Tab α) (k : Nat) (a : α) : Tab.get? (Tab.put t k a) k = some a := by
  induction t with
  | nil => simp [Tab.put, Tab.get?]
  | cons p t ih =>
    obtain ⟨k', a'⟩ := p
    simp only [Tab.put]
    split
    · simp [Tab.get?]
    · split
      · simp [Tab.get?]
      · rename_i h1 h2
        have : k' ≠ k := fun e => h2 e.symm
        simp [Tab.get?, this, ih]

theorem Tab.get?_put_other (t : Tab α) {k j : Nat} (a : α) (h : j ≠ k) : Tab.get? (Tab.put t k a) j = Tab.get? t j := by
  induction t with
  | nil => simp [Tab.put, Tab.get?, h.symm]
  | cons p t ih =>
    obtain ⟨k', a'⟩ := p
    simp only [Tab.put]
    split
    · simp [Tab.get?, h.symm]
    · split
      · rename_i h1 h2
        subst h2
        simp [Tab.get?, h.symm]
      · simp [Tab.get?, ih]

/-- Reading a table after a write. -/
theorem Tab.get?_put (t : Tab α) (k j : Nat) (a : α) : Tab.get? (Tab.put t k a) j = if j = k then some a else Tab.get? t j := by
  split
  · subst j; exact Tab.get?_put_same t k a
  · exact Tab.get?_put_other t a ‹_›

/-- Reading a table after a deletion. -/
theorem Tab.get?_del (t : Tab α) (k j : Nat) : Tab.get? (Tab.del t k) j = if j = k then none else Tab.get? t j := by
  induction t with
  | nil => simp [Tab.del]
  | cons p t ih =>
    obtain ⟨k', a'⟩ := p
    simp only [Tab.del]
    split
    · rename_i h
      rw [ih]
      split
      · rfl
      · rename_i hj
        have : k' ≠ j := fun e => hj (by omega)
        simp [Tab.get?, this]
    · rename_i h
      simp only [Tab.get?, ih]
      split <;> simp_all

theorem Tab.get?_mapVals {β : Type} (f : α → β) (t : Tab α) (k : Nat) :
    Tab.get? (t.map fun p => (p.1, f p.2)) k = (Tab.get? t k).map f := by
  induction t with
  | nil => rfl
  | cons p t ih =>
    simp only [List.map_cons, Tab.get?]
    split
    · rfl
    · exact ih

/-! ### Strictly rising keys -/

/-- Every key of the table is above a bound. -/
def Tab.above (t : Tab α) (k : Nat) : Prop := ∀ p ∈ t, k < p.1

theorem Tab.sorted_cons (k : Nat) (a : α) (t : Tab α) :
    Tab.sorted ((k, a) :: t) = true ↔ Tab.above t k ∧ Tab.sorted t = true := by
  induction t generalizing k a with
  | nil => simp [Tab.sorted, Tab.above]
  | cons p t ih =>
    obtain ⟨k', a'⟩ := p
    have hs : Tab.sorted ((k, a) :: (k', a') :: t) = (decide (k < k') && Tab.sorted ((k', a') :: t)) := rfl
    rw [hs]
    simp only [Bool.and_eq_true, decide_eq_true_eq]
    constructor
    · rintro ⟨hk, h⟩
      refine ⟨?_, h⟩
      intro q hq
      rcases List.mem_cons.1 hq with rfl | hq
      · exact hk
      · exact Nat.lt_trans hk (((ih k' a').1 h).1 q hq)
    · rintro ⟨hk, h⟩
      exact ⟨hk (k', a') List.mem_cons_self, h⟩

theorem Tab.above_put (t : Tab α) {b k : Nat} (a : α) (h : Tab.above t b) (hk : b < k) : Tab.above (Tab.put t k a) b := by
  induction t with
  | nil =>
    intro q hq
    rcases List.mem_cons.1 hq with rfl | hq
    · exact hk
    · cases hq
  | cons p t ih =>
    obtain ⟨k', a'⟩ := p
    have h' : Tab.above t b := fun q hq => h q (List.mem_cons_of_mem _ hq)
    have hp := h (k', a') List.mem_cons_self
    intro q hq
    simp only [Tab.put] at hq
    split at hq
    · rcases List.mem_cons.1 hq with rfl | hq
      · exact hk
      · exact h q hq
    · split at hq
      · rcases List.mem_cons.1 hq with rfl | hq
        · exact hk
        · exact h' q hq
      · rcases List.mem_cons.1 hq with rfl | hq
        · exact hp
        · exact ih h' q hq

/-- A write keeps the keys strictly rising. -/
theorem Tab.sorted_put (t : Tab α) (k : Nat) (a : α) (h : Tab.sorted t = true) : Tab.sorted (Tab.put t k a) = true := by
  induction t with
  | nil => rfl
  | cons p t ih =>
    obtain ⟨k', a'⟩ := p
    obtain ⟨hab, hs⟩ := (Tab.sorted_cons k' a' t).1 h
    simp only [Tab.put]
    split
    · rename_i hlt
      refine (Tab.sorted_cons _ _ _).2 ⟨?_, h⟩
      intro q hq
      rcases List.mem_cons.1 hq with rfl | hq
      · exact hlt
      · exact Nat.lt_trans hlt (hab q hq)
    · split
      · rename_i he
        subst he
        exact (Tab.sorted_cons _ _ _).2 ⟨hab, hs⟩
      · rename_i h1 h2
        exact (Tab.sorted_cons _ _ _).2 ⟨Tab.above_put t a hab (by omega), ih hs⟩

theorem Tab.mem_del {t : Tab α} {k : Nat} {p : Nat × α} (h : p ∈ Tab.del t k) : p ∈ t := by
  induction t with
  | nil => cases h
  | cons q t ih =>
    obtain ⟨k', a'⟩ := q
    simp only [Tab.del] at h
    split at h
    · exact List.mem_cons_of_mem _ (ih h)
    · rcases List.mem_cons.1 h with rfl | h
      · exact List.mem_cons_self
      · exact List.mem_cons_of_mem _ (ih h)

/-- A deletion keeps the keys strictly rising. -/
theorem Tab.sorted_del (t : Tab α) (k : Nat) (h : Tab.sorted t = true) : Tab.sorted (Tab.del t k) = true := by
  induction t with
  | nil => rfl
  | cons p t ih =>
    obtain ⟨k', a'⟩ := p
    obtain ⟨hab, hs⟩ := (Tab.sorted_cons k' a' t).1 h
    simp only [Tab.del]
    split
    · exact ih hs
    · exact (Tab.sorted_cons _ _ _).2 ⟨fun q hq => hab q (Tab.mem_del hq), ih hs⟩

theorem Tab.sorted_filter (t : Tab α) (f : Nat × α → Bool) (h : Tab.sorted t = true) : Tab.sorted (t.filter f) = true := by
  induction t with
  | nil => rfl
  | cons p t ih =>
    obtain ⟨k', a'⟩ := p
    obtain ⟨hab, hs⟩ := (Tab.sorted_cons k' a' t).1 h
    simp only [List.filter_cons]
    split
    · exact (Tab.sorted_cons _ _ _).2 ⟨fun q hq => hab q (List.mem_of_mem_filter hq), ih hs⟩
    · exact ih hs

theorem Tab.mem_put {t : Tab α} {k : Nat} {a : α} {p : Nat × α} (h : p ∈ Tab.put t k a) : p = (k, a) ∨ p ∈ t := by
  induction t with
  | nil =>
    rcases List.mem_cons.1 h with rfl | h
    · exact .inl rfl
    · cases h
  | cons q t ih =>
    obtain ⟨k', a'⟩ := q
    simp only [Tab.put] at h
    split at h
    · rcases List.mem_cons.1 h with rfl | h
      · exact .inl rfl
      · exact .inr h
    · split at h
      · rcases List.mem_cons.1 h with rfl | h
        · exact .inl rfl
        · exact .inr (List.mem_cons_of_mem _ h)
      · rcases List.mem_cons.1 h with rfl | h
        · exact .inr List.mem_cons_self
        · exact (ih h).imp_right (List.mem_cons_of_mem _)

end

/-! ### Word maps -/

section
variable {w : Nat}

@[simp] theorem SMap.get_nil (k : Nat) : SMap.get ([] : SMap w) k = 0#w := rfl

/-- Reading a word map after a write. -/
theorem SMap.get_set (m : SMap w) (k j : Nat) (v : BitVec w) : SMap.get (SMap.set m k v) j = if j = k then v else SMap.get m j := by
  unfold SMap.get SMap.set
  split
  · rename_i h
    rw [Tab.get?_del]
    split <;> simp [h]
  · rw [Tab.get?_put]
    split <;> simp

@[simp] theorem SMap.get_set_same (m : SMap w) (k : Nat) (v : BitVec w) : SMap.get (SMap.set m k v) k = v := by simp [SMap.get_set]

theorem SMap.get_set_other (m : SMap w) {k j : Nat} (v : BitVec w) (h : j ≠ k) : SMap.get (SMap.set m k v) j = SMap.get m j := by
  simp [SMap.get_set, h]

/-- A write keeps the canonical form. -/
theorem SMap.wf_set (m : SMap w) (k : Nat) (v : BitVec w) (h : SMap.wf m = true) : SMap.wf (SMap.set m k v) = true := by
  unfold SMap.wf at *
  simp only [Bool.and_eq_true, List.all_eq_true, bne_iff_ne, ne_eq] at *
  unfold SMap.set
  split
  · exact ⟨Tab.sorted_del m k h.1, fun p hp => h.2 p (Tab.mem_del hp)⟩
  · rename_i hv
    refine ⟨Tab.sorted_put m k v h.1, fun p hp => ?_⟩
    rcases Tab.mem_put hp with rfl | hp
    · exact hv
    · exact h.2 p hp

/-- A list of writes keeps the canonical form. -/
theorem SMap.wf_setAll (l : List (Nat × BitVec w)) (m : SMap w) (h : SMap.wf m = true) : SMap.wf (SMap.setAll m l) = true := by
  unfold SMap.setAll
  induction l generalizing m with
  | nil => exact h
  | cons p l ih => exact ih _ (SMap.wf_set m p.1 p.2 h)

/-- A key that no write of a list names reads as before. -/
theorem SMap.get_setAll_other (l : List (Nat × BitVec w)) (m : SMap w) (j : Nat) (h : ∀ p ∈ l, p.1 ≠ j) :
    SMap.get (SMap.setAll m l) j = SMap.get m j := by
  unfold SMap.setAll
  induction l generalizing m with
  | nil => rfl
  | cons p l ih =>
    rw [List.foldl_cons, ih _ fun q hq => h q (List.mem_cons_of_mem _ hq)]
    exact SMap.get_set_other _ _ (Ne.symm (h p List.mem_cons_self))

/-- Writes that set a function of the key at distinct keys: each named key reads its value, the others as before. -/
theorem SMap.get_setAll_map (ks : List Nat) (f : Nat → BitVec w) (m : SMap w) (j : Nat) :
    SMap.get (SMap.setAll m (ks.map fun k => (k, f k))) j = if j ∈ ks then f j else SMap.get m j := by
  unfold SMap.setAll
  induction ks generalizing m with
  | nil => simp
  | cons k ks ih =>
    rw [List.map_cons, List.foldl_cons, ih, SMap.get_set]
    by_cases h1 : j ∈ ks
    · simp [h1]
    · by_cases h2 : j = k
      · simp [h2]
      · simp [h1, h2]

end

/-! ### Memories -/

theorem Memory.byte_setByte (m : Memory) (a j : Nat) (b : Byte) :
    Memory.byte (Memory.setByte m a b) j = if j = a then b else Memory.byte m j := SMap.get_set m a j b

/-- Reading a byte after a run of bytes is written: the run's byte inside it, the old byte elsewhere. -/
theorem Memory.byte_write (bs : List Byte) (m : Memory) (a j : Nat) :
    Memory.byte (Memory.write m a bs) j = if a ≤ j ∧ j < a + bs.length then bs.getD (j - a) 0 else Memory.byte m j := by
  induction bs generalizing m a with
  | nil => simp [Memory.write]
  | cons b bs ih =>
    rw [Memory.write, ih, Memory.byte_setByte]
    simp only [List.length_cons]
    by_cases h1 : j = a
    · subst h1
      simp
    · by_cases h2 : a + 1 ≤ j ∧ j < a + 1 + bs.length
      · have e : j - a = (j - (a + 1)) + 1 := by omega
        rw [if_pos h2, if_pos (by omega), e, List.getD_cons_succ]
      · rw [if_neg h2, if_neg h1, if_neg (by omega)]

theorem Memory.read_length (m : Memory) (a n : Nat) : (Memory.read m a n).length = n := by
  induction n generalizing a with
  | zero => rfl
  | succ n ih => simp [Memory.read, ih]

/-- A read after a write of the same run gives what was written. -/
theorem Memory.read_congr (m m' : Memory) (a n : Nat) (h : ∀ j, a ≤ j → j < a + n → Memory.byte m j = Memory.byte m' j) :
    Memory.read m a n = Memory.read m' a n := by
  induction n generalizing a with
  | zero => rfl
  | succ n ih =>
    simp only [Memory.read]
    rw [h a (by omega) (by omega), ih (a + 1) fun j h1 h2 => h j (by omega) (by omega)]

theorem Memory.read_write_same (bs : List Byte) (m : Memory) (a : Nat) : Memory.read (Memory.write m a bs) a bs.length = bs := by
  induction bs generalizing m a with
  | nil => rfl
  | cons b bs ih =>
    rw [List.length_cons, Memory.read]
    have h0 : Memory.byte (Memory.write m a (b :: bs)) a = b := by simp [Memory.byte_write]
    rw [h0, Memory.write, ih]

/-- Every write of bytes keeps the canonical form. -/
theorem Memory.wf_write (bs : List Byte) (m : Memory) (a : Nat) (h : Memory.wf m = true) : Memory.wf (Memory.write m a bs) = true := by
  induction bs generalizing m a with
  | nil => exact h
  | cons b bs ih => exact ih _ _ (SMap.wf_set m a b h)

/-- Clearing a run keeps the canonical form. -/
theorem Memory.wf_clear (m : Memory) (a n : Nat) (h : Memory.wf m = true) : Memory.wf (Memory.clear m a n) = true := by
  unfold Memory.wf SMap.wf at *
  simp only [Bool.and_eq_true, List.all_eq_true, bne_iff_ne, ne_eq] at *
  exact ⟨Tab.sorted_filter m _ h.1, fun p hp => h.2 p (List.mem_of_mem_filter hp)⟩

theorem Tab.get?_filter {α : Type} (t : Tab α) (f : Nat → Bool) (k : Nat) :
    Tab.get? (t.filter fun p => f p.1) k = if f k then Tab.get? t k else none := by
  induction t with
  | nil => simp
  | cons p t ih =>
    obtain ⟨k', a'⟩ := p
    simp only [List.filter_cons]
    by_cases hk : k' = k
    · subst hk
      by_cases hf : f k' = true
      · simp [hf, Tab.get?]
      · simp [hf, ih]
    · by_cases hf : f k' = true
      · simp [hf, Tab.get?, hk, ih]
      · simp [hf, Tab.get?, hk, ih]

/-- Reading a byte after a run is cleared. -/
theorem Memory.byte_clear (m : Memory) (a n j : Nat) :
    Memory.byte (Memory.clear m a n) j = if a ≤ j ∧ j < a + n then 0#8 else Memory.byte m j := by
  unfold Memory.byte Memory.clear SMap.get
  rw [Tab.get?_filter m (fun k => !(a ≤ k && k < a + n)) j]
  by_cases h : a ≤ j ∧ j < a + n
  · simp [h]
  · have : (!(decide (a ≤ j) && decide (j < a + n))) = true := by
      simp only [Bool.not_eq_true', Bool.and_eq_false_iff, decide_eq_false_iff_not]
      omega
    simp [this, h]

/-- Two canonical maps that read the same everywhere are equal data. -/
theorem Memory.wf_nil : Memory.wf [] = true := rfl

/-! ### Lane masks -/

theorem mem_lanesOf (m : LaneMask) (l : Nat) : l ∈ lanesOf m ↔ l < 32 ∧ m.getLsbD l = true := by
  simp [lanesOf]

theorem lanesOf_nodup (m : LaneMask) : (lanesOf m).Nodup := List.Nodup.filter _ List.nodup_range

theorem laneBit_getLsbD (l j : Nat) (h : l < 32) : (laneBit l).getLsbD j = decide (j = l) := by
  unfold laneBit
  rw [if_pos h]
  by_cases hj : j < 32
  · rw [BitVec.getLsbD_ofNat]
    simp only [hj, decide_true, Bool.true_and]
    rw [Nat.testBit_two_pow]
    simp only [eq_comm]
  · have h1 : j ≠ l := by omega
    simp [h1, BitVec.getLsbD_of_ge _ _ (by omega : 32 ≤ j)]

theorem maskOf_getLsbD (f : Nat → Bool) (j : Nat) : (maskOf f).getLsbD j = (decide (j < 32) && f j) := by
  have key : ∀ (l : List Nat) (m : LaneMask), (∀ x ∈ l, x < 32) →
      (l.foldl (fun m l => if f l then m ||| laneBit l else m) m).getLsbD j = (m.getLsbD j || (decide (j ∈ l) && f j)) := by
    intro l
    induction l with
    | nil => intro m _; simp
    | cons x l ih =>
      intro m hx
      rw [List.foldl_cons, ih _ fun y hy => hx y (List.mem_cons_of_mem _ hy)]
      have hx32 := hx x List.mem_cons_self
      by_cases hf : f x = true
      · rw [if_pos hf, BitVec.getLsbD_or, laneBit_getLsbD x j hx32]
        by_cases hj : j = x
        · subst hj; simp [hf]
        · simp [hj]
      · rw [if_neg hf]
        by_cases hj : j = x
        · subst hj; simp [hf]
        · simp [hj]
  unfold maskOf
  rw [key _ _ fun x hx => List.mem_range.1 hx]
  simp

end Sys2Proof.Machine
end

