-- ==== Sys2Proof/Laws/Flue.lean ====
section
/-! SUPPORT. Laws of a flue's registers: what a write of register elements changes and leaves, and what the plain vector
instruction leaves. -/

namespace Sys2Proof.Machine

/-! ### Elements of registers -/

/-- A flue has room for the element: a `v` register's frame still stands. -/
def Flue.hasLoc (f : Flue) (r : RegLoc) : Bool :=
  match r with
  | .v u _ => (frameOf f.frames u).isSome
  | _ => true

/-- The value that an element takes: a predicate keeps bit 0, and the absent register nothing. -/
def RegLoc.holds (r : RegLoc) (v : Word) : Word :=
  match r with
  | .p _ => if v.getLsbD 0 then 1 else 0
  | _ => v

theorem regKey_inj {n l n' l' : Nat} (h : l < 32) (h' : l' < 32) : regKey n l = regKey n' l' ↔ n = n' ∧ l = l' := by
  unfold regKey
  omega

/-! ### Frames -/

theorem frameOf_writeFrames (fs : List Frame) (u k u' : Nat) (v : Word) :
    frameOf (writeFrames fs u k v) u' =
      (frameOf fs u').map fun fr => if u' = u then { fr with regs := SMap.set fr.regs k v } else fr := by
  induction fs with
  | nil => rfl
  | cons fr fs ih =>
    simp only [writeFrames, List.map_cons] at *
    by_cases h1 : fr.uid = u
    · rw [if_pos h1]
      by_cases h2 : u = u'
      · subst h2
        simp [frameOf, h1]
      · have : fr.uid ≠ u' := fun e => h2 (h1.symm.trans e)
        simp only [frameOf]
        rw [if_neg this, if_neg this]
        exact ih
    · rw [if_neg h1]
      by_cases h2 : fr.uid = u'
      · subst h2
        simp [frameOf, h1]
      · simp only [frameOf]
        rw [if_neg h2, if_neg h2]
        exact ih

theorem hasLoc_writeLoc (f : Flue) (r r' : RegLoc) (l : Nat) (v : Word) : (f.writeLoc r l v).hasLoc r' = f.hasLoc r' := by
  cases r' <;> try rfl
  rename_i u n
  cases r <;> try rfl
  · simp only [Flue.hasLoc, Flue.writeLoc, frameOf_writeFrames, Option.isSome_map]
  · simp only [Flue.hasLoc, Flue.writeLoc, Flue.setPred]
    split <;> rfl

/-! ### One element -/

theorem predMask_setPred (f : Flue) (n m : Nat) (lanes bits : LaneMask) :
    (f.setPred n lanes bits).predMask m =
      if m = n ∧ n ≠ 0 then (f.predMask m &&& ~~~lanes) ||| (bits &&& lanes) else f.predMask m := by
  unfold Flue.setPred Flue.predMask
  by_cases hn : n = 0
  · simp [hn]
  · by_cases hm : m = 0
    · have h1 : ¬ (m = n) := by omega
      simp [hm, hn, Ne.symm hn]
    · simp only [hn, if_false, hm, SMap.get_set]
      by_cases h : m = n
      · subst h; simp [hm]
      · simp [h]

theorem setPred_only (f : Flue) (n : Nat) (lanes bits : LaneMask) :
    f.setPred n lanes bits = { f with p := (f.setPred n lanes bits).p } := by
  unfold Flue.setPred
  split <;> rfl

/-- Reading a predicate after a masked write of one. -/
theorem pred_setPred (f : Flue) (n m : Nat) (lanes bits : LaneMask) (j : Nat) (hj : j < 32) :
    (f.setPred n lanes bits).pred m j =
      if m = n ∧ n ≠ 0 ∧ lanes.getLsbD j = true then bits.getLsbD j else f.pred m j := by
  unfold Flue.pred
  rw [predMask_setPred]
  by_cases h : m = n ∧ n ≠ 0
  · rw [if_pos h, BitVec.getLsbD_or, BitVec.getLsbD_and, BitVec.getLsbD_and, BitVec.getLsbD_not]
    cases hb : lanes.getLsbD j
    · simp [hj]
    · simp [h]
  · have h' : ¬ (m = n ∧ n ≠ 0 ∧ lanes.getLsbD j = true) := fun e => h ⟨e.1, e.2.1⟩
    rw [if_neg h, if_neg h']

theorem readLoc_setPred (f : Flue) (n : Nat) (lanes bits : LaneMask) (r : RegLoc) (l : Nat) (h : ∀ m, r ≠ .p m) :
    (f.setPred n lanes bits).readLoc r l = f.readLoc r l := by
  rw [setPred_only]
  cases r <;> try rfl
  exact absurd rfl (h _)

/-- Reading another element than the one written. -/
theorem readLoc_writeLoc_other (f : Flue) (r r' : RegLoc) (l l' : Nat) (v : Word) (hl : l < 32) (hl' : l' < 32)
    (h : r.hits l r' l' = false) : (f.writeLoc r l v).readLoc r' l' = f.readLoc r' l' := by
  have key : ∀ n n', ¬ (n = n' ∧ l = l') → regKey n' l' ≠ regKey n l := by
    intro n n' hne he
    exact hne (((regKey_inj hl' hl).1 he).imp Eq.symm Eq.symm)
  cases r with
  | v u n =>
    cases r' <;> try rfl
    rename_i u' n'
    simp only [Flue.writeLoc, Flue.readLoc, frameOf_writeFrames]
    cases hf : frameOf f.frames u' with
    | none => rfl
    | some fr =>
      by_cases hu : u' = u
      · subst hu
        have : ¬ (n = n' ∧ l = l') := by
          rintro ⟨rfl, rfl⟩
          simp [RegLoc.hits] at h
        simp [SMap.get_set, key n n' this]
      · simp [hu]
  | h n =>
    cases r' <;> try rfl
    rename_i n'
    have : ¬ (n = n' ∧ l = l') := by
      rintro ⟨rfl, rfl⟩
      simp [RegLoc.hits] at h
    simp [Flue.writeLoc, Flue.readLoc, SMap.get_set, key n n' this]
  | o n =>
    cases r' <;> try rfl
    rename_i n'
    have : ¬ (n = n' ∧ l = l') := by
      rintro ⟨rfl, rfl⟩
      simp [RegLoc.hits] at h
    simp [Flue.writeLoc, Flue.readLoc, SMap.get_set, key n n' this]
  | s n =>
    cases r' <;> try rfl
    rename_i n'
    have : n' ≠ n := by
      rintro rfl
      simp [RegLoc.hits] at h
    simp [Flue.writeLoc, Flue.readLoc, SMap.get_set, this]
  | p n =>
    by_cases hr : ∃ m, r' = .p m
    · obtain ⟨m, rfl⟩ := hr
      have : ¬ (m = n ∧ n ≠ 0 ∧ (laneBit l).getLsbD l' = true) := by
        rintro ⟨rfl, hn, hb⟩
        rw [laneBit_getLsbD l l' hl, decide_eq_true_eq] at hb
        subst hb
        simp [RegLoc.hits, hn] at h
      have e := pred_setPred f n m (laneBit l) (if v.getLsbD 0 then laneBit l else 0) l' hl'
      rw [if_neg this] at e
      exact congrArg (fun b : Bool => if b then (1 : Word) else 0) e
    · exact readLoc_setPred _ _ _ _ _ _ fun m e => hr ⟨m, e⟩
  | none => rfl

/-- Reading the element that was written. -/
theorem readLoc_writeLoc_same (f : Flue) (r r' : RegLoc) (l l' : Nat) (v : Word) (hl : l < 32)
    (hf : f.hasLoc r = true) (h : r.hits l r' l' = true) : (f.writeLoc r l v).readLoc r' l' = r.holds v := by
  cases r <;> cases r' <;> simp only [RegLoc.hits, Bool.false_eq_true, Bool.and_eq_true, beq_iff_eq, bne_iff_ne, ne_eq] at h
  · obtain ⟨⟨rfl, rfl⟩, rfl⟩ := h
    simp only [Flue.hasLoc, Option.isSome_iff_exists] at hf
    obtain ⟨fr, hfr⟩ := hf
    simp [Flue.writeLoc, Flue.readLoc, frameOf_writeFrames, hfr, RegLoc.holds]
  · obtain ⟨rfl, rfl⟩ := h
    simp [Flue.writeLoc, Flue.readLoc, RegLoc.holds]
  · obtain ⟨rfl, rfl⟩ := h
    simp [Flue.writeLoc, Flue.readLoc, RegLoc.holds]
  · subst h
    simp [Flue.writeLoc, Flue.readLoc, RegLoc.holds]
  · obtain ⟨⟨rfl, rfl⟩, hn⟩ := h
    have hb : (laneBit l).getLsbD l = true := by simp [laneBit_getLsbD l l hl]
    rename_i n
    have e := pred_setPred f n n (laneBit l) (if v.getLsbD 0 then laneBit l else 0) l hl
    have hc : n = n ∧ n ≠ 0 ∧ (laneBit l).getLsbD l = true := ⟨rfl, hn, hb⟩
    rw [if_pos hc] at e
    refine (congrArg (fun b : Bool => if b then (1 : Word) else 0) e).trans ?_
    by_cases hv : v.getLsbD 0 = true
    · simp only [RegLoc.holds, hv, hb, if_true]
    · have h0 : (0 : LaneMask).getLsbD l = false := by simp
      simp only [RegLoc.holds, hv, h0, if_false, Bool.false_eq_true]

/-! ### Lists of elements -/

theorem hasLoc_write1 (f : Flue) (w : LaneWrite) (r : RegLoc) : (f.write1 w).hasLoc r = f.hasLoc r := by
  unfold Flue.write1
  split
  · exact (show _ = (f.writeLoc w.loc w.lane w.val).hasLoc r by cases r <;> rfl).trans (hasLoc_writeLoc ..)
  · exact hasLoc_writeLoc ..

theorem hasLoc_writeAll (ws : List LaneWrite) (f : Flue) (r : RegLoc) : (f.writeAll ws).hasLoc r = f.hasLoc r := by
  unfold Flue.writeAll
  induction ws generalizing f with
  | nil => rfl
  | cons w ws ih => rw [List.foldl_cons, ih, hasLoc_write1]

theorem readLoc_write1 (f : Flue) (w : LaneWrite) (r : RegLoc) (l : Nat) :
    (f.write1 w).readLoc r l = (f.writeLoc w.loc w.lane w.val).readLoc r l := by
  unfold Flue.write1
  split
  · cases r <;> rfl
  · rfl

/-- An element that no write of a list hits reads as before. -/
theorem readLoc_writeAll_other (ws : List LaneWrite) (f : Flue) (r : RegLoc) (l : Nat) (hl : l < 32)
    (hw : ∀ w ∈ ws, w.lane < 32) (h : ∀ w ∈ ws, w.loc.hits w.lane r l = false) :
    (f.writeAll ws).readLoc r l = f.readLoc r l := by
  unfold Flue.writeAll
  induction ws generalizing f with
  | nil => rfl
  | cons w ws ih =>
    rw [List.foldl_cons, ih _ (fun x hx => hw x (List.mem_cons_of_mem _ hx)) fun x hx => h x (List.mem_cons_of_mem _ hx)]
    rw [readLoc_write1]
    exact readLoc_writeLoc_other _ _ _ _ _ _ (hw w List.mem_cons_self) hl (h w List.mem_cons_self)

/-- An element that a write of the list hits reads a value that some such write gives it. -/
theorem readLoc_writeAll_hit (ws : List LaneWrite) (f : Flue) (r : RegLoc) (l : Nat) (v : Word) (hl : l < 32)
    (hw : ∀ w ∈ ws, w.lane < 32) (hf : f.hasLoc r = true) (hx : ∃ w ∈ ws, w.loc.hits w.lane r l = true)
    (h : ∀ w ∈ ws, w.loc.hits w.lane r l = true → w.loc.holds w.val = v) :
    (f.writeAll ws).readLoc r l = v := by
  induction ws generalizing f with
  | nil => obtain ⟨w, hw, -⟩ := hx; cases hw
  | cons w ws ih =>
    have hcons : f.writeAll (w :: ws) = (f.write1 w).writeAll ws := rfl
    rw [hcons]
    by_cases hlater : ∃ x ∈ ws, x.loc.hits x.lane r l = true
    · exact ih _ (fun x hx => hw x (List.mem_cons_of_mem _ hx)) (by rw [hasLoc_write1]; exact hf) hlater
        fun x hx => h x (List.mem_cons_of_mem _ hx)
    · have hno : ∀ x ∈ ws, x.loc.hits x.lane r l = false := by
        intro x hx
        by_contra hc
        exact hlater ⟨x, hx, by simpa using hc⟩
      rw [readLoc_writeAll_other ws _ r l hl (fun x hx => hw x (List.mem_cons_of_mem _ hx)) hno, readLoc_write1]
      have hw1 : w.loc.hits w.lane r l = true := by
        obtain ⟨x, hx, hh⟩ := hx
        rcases List.mem_cons.1 hx with rfl | hx
        · exact hh
        · exact absurd ⟨x, hx, hh⟩ hlater
      have hfw : f.hasLoc w.loc = true := by
        cases hloc : w.loc <;> try rfl
        rw [hloc] at hw1
        cases r <;> simp [RegLoc.hits] at hw1
        obtain ⟨⟨rfl, rfl⟩, -⟩ := hw1
        exact hf
      rw [readLoc_writeLoc_same f w.loc r w.lane l w.val (hw w List.mem_cons_self) hfw hw1]
      exact h w List.mem_cons_self hw1

/-! ### What writes of elements leave alone -/

/-- The flue with the registers and the latch of another, and what reaches the latch. -/
def Flue.withRegs (f g : Flue) : Flue :=
  { f with frames := g.frames, hframe := g.hframe, o := g.o, s := g.s, p := g.p, l := g.l, lown := g.lown }

theorem writeLoc_withRegs (f : Flue) (r : RegLoc) (l : Nat) (v : Word) : f.writeLoc r l v = f.withRegs (f.writeLoc r l v) := by
  cases r <;> try rfl
  simp only [Flue.writeLoc, Flue.setPred]
  split <;> rfl

theorem write1_withRegs (f : Flue) (w : LaneWrite) : f.write1 w = f.withRegs (f.write1 w) := by
  unfold Flue.write1
  split
  · conv_lhs => rw [writeLoc_withRegs]
    rfl
  · exact writeLoc_withRegs ..

/-- Writes of elements change registers and the latch, nothing else of the flue. -/
theorem writeAll_withRegs (ws : List LaneWrite) (f : Flue) : f.writeAll ws = f.withRegs (f.writeAll ws) := by
  unfold Flue.writeAll
  induction ws generalizing f with
  | nil => rfl
  | cons w ws ih =>
    rw [List.foldl_cons, ih (f.write1 w), write1_withRegs f w]
    rfl

theorem writeFrames_shape (fs : List Frame) (u k : Nat) (v : Word) :
    (writeFrames fs u k v).map Frame.shape = fs.map Frame.shape := by
  simp only [writeFrames, List.map_map]
  refine List.map_congr_left fun fr _ => ?_
  simp only [Function.comp]
  split <;> rfl

/-- Writes of elements leave every frame's identity, demand, return address and place. -/
theorem writeAll_shape (ws : List LaneWrite) (f : Flue) : (f.writeAll ws).frames.map Frame.shape = f.frames.map Frame.shape := by
  unfold Flue.writeAll
  induction ws generalizing f with
  | nil => rfl
  | cons w ws ih =>
    rw [List.foldl_cons, ih]
    have h1 : (f.write1 w).frames = (f.writeLoc w.loc w.lane w.val).frames := by unfold Flue.write1; split <;> rfl
    rw [h1]
    cases w.loc <;> try rfl
    · exact writeFrames_shape ..
    · simp only [Flue.writeLoc, Flue.setPred]; split <;> rfl

/-! ### The latch, the sticky flags, program counters -/

theorem get_l_write1 (f : Flue) (w : LaneWrite) (l : Nat) :
    SMap.get (f.write1 w).l l = if w.toLatch = true ∧ l = w.lane then w.val else SMap.get f.l l := by
  have h : (f.writeLoc w.loc w.lane w.val).l = f.l := by
    cases w.loc <;> try rfl
    simp only [Flue.writeLoc, Flue.setPred]; split <;> rfl
  unfold Flue.write1
  by_cases hw : w.toLatch = true
  · simp [hw, h, SMap.get_set]
  · simp [hw, h]

theorem get_lown_write1 (f : Flue) (w : LaneWrite) (l : Nat) :
    Tab.get? (f.write1 w).lown l = if w.toLatch = true ∧ l = w.lane then none else Tab.get? f.lown l := by
  have h : (f.writeLoc w.loc w.lane w.val).lown = f.lown := by
    cases w.loc <;> try rfl
    simp only [Flue.writeLoc, Flue.setPred]; split <;> rfl
  unfold Flue.write1
  by_cases hw : w.toLatch = true
  · simp [hw, h, Tab.get?_del]
  · simp [hw, h]

/-- After writes of elements no result under way reaches the latches that they gave a value. -/
theorem get_lown_writeAll (ws : List LaneWrite) (f : Flue) (l : Nat) :
    Tab.get? (f.writeAll ws).lown l = if ∃ w ∈ ws, w.toLatch = true ∧ w.lane = l then none else Tab.get? f.lown l := by
  unfold Flue.writeAll
  induction ws generalizing f with
  | nil => simp
  | cons w ws ih =>
    rw [List.foldl_cons, ih, get_lown_write1]
    by_cases h1 : ∃ x ∈ ws, x.toLatch = true ∧ x.lane = l
    · obtain ⟨x, hx, hh⟩ := h1
      rw [if_pos ⟨x, hx, hh⟩, if_pos ⟨x, List.mem_cons_of_mem _ hx, hh⟩]
    · rw [if_neg h1]
      by_cases h2 : w.toLatch = true ∧ l = w.lane
      · rw [if_pos h2, if_pos ⟨w, List.mem_cons_self, h2.1, h2.2.symm⟩]
      · rw [if_neg h2, if_neg]
        rintro ⟨x, hx, ha, hb⟩
        rcases List.mem_cons.1 hx with rfl | hx
        · exact h2 ⟨ha, hb.symm⟩
        · exact h1 ⟨x, hx, ha, hb⟩

theorem pcOf_setPc (f : Flue) (m : LaneMask) (pc : DWord) (l : Nat) :
    (f.setPc m pc).pcOf l = if l < 32 ∧ m.getLsbD l = true then pc else f.pcOf l := by
  unfold Flue.setPc Flue.pcOf
  simp only
  rw [SMap.get_setAll_map (lanesOf m) (fun _ => pc) f.pc l]
  simp only [mem_lanesOf]

theorem get_clearL (f : Flue) (m : LaneMask) (l : Nat) :
    SMap.get (f.clearL m).l l = if l < 32 ∧ m.getLsbD l = true then 0#32 else SMap.get f.l l := by
  unfold Flue.clearL
  simp only
  rw [SMap.get_setAll_map (lanesOf m) (fun _ => (0 : Word)) f.l l]
  simp only [mem_lanesOf]
  rfl

theorem get_fpst_raiseFlags (f : Flue) (lane : Nat) (x : FlagSet) (l : Nat) :
    SMap.get (f.raiseFlags lane x).fpst l = if l = lane then SMap.get f.fpst l ||| x else SMap.get f.fpst l := by
  unfold Flue.raiseFlags
  by_cases hx : x = 0
  · subst hx; simp
  · simp only [hx, if_false, SMap.get_set]
    split
    · subst l; rfl
    · rfl

theorem get_fpst_raiseAll (ls : List Nat) (f : Flue) (x : Nat → FlagSet) (l : Nat) (hn : ls.Nodup) :
    SMap.get (f.raiseAll ls x).fpst l = if l ∈ ls then SMap.get f.fpst l ||| x l else SMap.get f.fpst l := by
  unfold Flue.raiseAll
  induction ls generalizing f with
  | nil => simp
  | cons a ls ih =>
    obtain ⟨ha, hn⟩ := List.nodup_cons.1 hn
    rw [List.foldl_cons, ih _ hn, get_fpst_raiseFlags]
    by_cases h1 : l ∈ ls
    · have h2 : l ≠ a := fun e => ha (e ▸ h1)
      simp [h1, h2]
    · by_cases h2 : l = a
      · subst h2; simp [h1]
      · simp [h1, h2]

theorem raiseAll_only (ls : List Nat) (f : Flue) (x : Nat → FlagSet) :
    f.raiseAll ls x = { f with fpst := (f.raiseAll ls x).fpst } := by
  unfold Flue.raiseAll
  induction ls generalizing f with
  | nil => rfl
  | cons a ls ih =>
    rw [List.foldl_cons]
    conv_lhs => rw [ih]
    have : f.raiseFlags a (x a) = { f with fpst := (f.raiseFlags a (x a)).fpst } := by
      unfold Flue.raiseFlags
      split <;> rfl
    rw [this]

end Sys2Proof.Machine
end

