-- ==== Sys2Proof/Laws/Vector.lean ====
section
/-! SUPPORT. What the plain vector instruction does, said once (06 R124-R130): `runLanes_result` and `alu_result`. -/

namespace Sys2Proof.Machine

open Sys2Proof.Claims

theorem getLsbD_active (i : Issue) (g : Guard) (l : Nat) :
    (i.active g).getLsbD l = (i.lanes.getLsbD l && (i.view.guard g).getLsbD l) := by
  unfold Issue.active
  rw [BitVec.getLsbD_and]

theorem mem_destWrites {view : Flue} {d : Opnd} {latch : Bool} {lane : Nat} {ws : List Word} {j : Nat} {w : LaneWrite} :
    w ∈ destWrites view d latch lane j ws ↔
      ∃ k, k < ws.length ∧ w = ⟨view.loc d (j + k), lane, ws.getD k 0, latch && d.latches && (j + k == 0)⟩ := by
  induction ws generalizing j with
  | nil => simp [destWrites]
  | cons a ws ih =>
    simp only [destWrites, List.mem_cons, ih, List.length_cons]
    constructor
    · rintro (rfl | ⟨k, hk, rfl⟩)
      · exact ⟨0, by omega, by simp⟩
      · exact ⟨k + 1, by omega, by simp [Nat.add_assoc, Nat.add_comm 1 k]⟩
    · rintro ⟨k, hk, rfl⟩
      cases k with
      | zero => exact .inl (by simp)
      | succ k => exact .inr ⟨k, by omega, by simp [Nat.add_assoc, Nat.add_comm 1 k]⟩

theorem wordsOf_length {n : Nat} (h : n = 1 ∨ n = 2) (v : DWord) : (wordsOf n v).length = n := by
  rcases h with rfl | rfl <;> rfl

theorem wordsOf_getD {n : Nat} (v : DWord) {k : Nat} (h : n = 1 ∨ n = 2) (hk : k < n) : (wordsOf n v).getD k 0 = wordAt v k := by
  rcases h with rfl | rfl
  · have : k = 0 := by omega
    subst this
    simp [wordsOf, wordAt]
  · have : k = 0 ∨ k = 1 := by omega
    rcases this with rfl | rfl <;> simp [wordsOf, wordAt]

theorem loc_isScalar {view : Flue} {d : Opnd} (h : d.isScalar = true) (j : Nat) : ∃ n, view.loc d j = .s n := by
  cases d <;> simp_all [Opnd.isScalar, Flue.loc]

theorem hits_of_loc {view : Flue} {d : Opnd} {j k l l' : Nat} (hd : d.isScalar = false) (hreal : (view.loc d j).isReal = true)
    (h : (view.loc d k).hits l' (view.loc d j) l = true) : l' = l ∧ (k = j ∨ ∃ n, d = .pred n) := by
  cases d <;> simp_all [Opnd.isScalar, Flue.loc, RegLoc.isReal]
  · by_cases hp : view.phase = .handler
    · simp [hp, RegLoc.hits] at h
      exact ⟨h.2, by omega⟩
    · simp [hp, RegLoc.hits] at h
      exact ⟨h.2, by omega⟩
  · simp [RegLoc.hits] at h
    exact ⟨h.2, by omega⟩
  · simp [RegLoc.hits] at h
    exact h.1

theorem hits_self (view : Flue) (d : Opnd) (j l : Nat) (h : (view.loc d j).isReal = true) :
    (view.loc d j).hits l (view.loc d j) l = true := by
  cases hl : view.loc d j <;> simp_all [RegLoc.hits, RegLoc.isReal]

/-- Writes of a result to a `v`, `o` or scalar destination (no predicate), or to `zero`. -/
def plainDest : Opnd → Bool
  | .pred _ => false
  | _ => true

theorem mem_resultWrites {view : Flue} {d : Opnd} {n : Nat} {latch : Bool} {act : LaneMask} {v : Nat → DWord} {w : LaneWrite}
    (hn : n = 1 ∨ n = 2) (hd : d.isScalar = false) :
    w ∈ resultWrites view d n latch (lanesOf act) v ↔
      ∃ l k, l < 32 ∧ act.getLsbD l = true ∧ k < n ∧ w = ⟨view.loc d k, l, wordAt (v l) k, latch && d.latches && (k == 0)⟩ := by
  unfold resultWrites
  rw [if_neg (by simp [hd])]
  simp only [List.mem_flatten, List.mem_map, exists_exists_and_eq_and, mem_lanesOf, mem_destWrites, wordsOf_length hn, Nat.zero_add]
  constructor
  · rintro ⟨l, ⟨hl, ha⟩, k, hk, rfl⟩
    exact ⟨l, k, hl, ha, hk, by rw [wordsOf_getD (v l) hn hk]⟩
  · rintro ⟨l, k, hl, ha, hk, rfl⟩
    exact ⟨l, ⟨hl, ha⟩, k, hk, by rw [wordsOf_getD (v l) hn hk]⟩

theorem lanesOf_ne_nil {act : LaneMask} (h : act ≠ 0) : lanesOf act ≠ [] := by
  intro e
  apply h
  apply BitVec.eq_of_getLsbD_eq
  intro k hk
  by_contra hc
  have hb : act.getLsbD k = true := by
    cases hk' : act.getLsbD k
    · exact absurd (by rw [hk']; simp) hc
    · rfl
  have : k ∈ lanesOf act := (mem_lanesOf act k).2 ⟨hk, hb⟩
  rw [e] at this
  cases this

theorem lanesOf_zero : lanesOf (0 : LaneMask) = [] := by decide

theorem lowLane_mem {act : LaneMask} (h : act ≠ 0) : lowLane act ∈ lanesOf act := by
  unfold lowLane
  cases hl : lanesOf act with
  | nil => exact absurd hl (lanesOf_ne_nil h)
  | cons a as => simp

theorem mem_resultWrites_scalar {view : Flue} {d : Opnd} {n : Nat} {latch : Bool} {act : LaneMask} {v : Nat → DWord} {w : LaneWrite}
    (hn : n = 1 ∨ n = 2) (hd : d.isScalar = true) :
    w ∈ resultWrites view d n latch (lanesOf act) v ↔
      act ≠ 0 ∧ ∃ k, k < n ∧ w = ⟨view.loc d k, 0, wordAt (v (lowLane act)) k, false⟩ := by
  have hlat : d.latches = false := by cases d <;> simp_all [Opnd.isScalar, Opnd.latches]
  unfold resultWrites
  rw [if_pos hd]
  by_cases h0 : act = 0
  · subst h0
    rw [lanesOf_zero]
    simp
  · have hm := lanesOf_ne_nil h0
    cases hl : lanesOf act with
    | nil => exact absurd hl hm
    | cons a as =>
      have hlow : lowLane act = a := by simp [lowLane, hl]
      simp only [mem_destWrites, wordsOf_length hn, Nat.zero_add, hlat, hlow]
      constructor
      · rintro ⟨k, hk, rfl⟩
        exact ⟨h0, k, hk, by rw [wordsOf_getD (v a) hn hk]; simp⟩
      · rintro ⟨-, k, hk, rfl⟩
        exact ⟨k, hk, by rw [wordsOf_getD (v a) hn hk]; simp⟩

/-! ### Reading a delivered result -/

theorem resultWrites_lane {view : Flue} {d : Opnd} {n : Nat} {latch : Bool} {act : LaneMask} {v : Nat → DWord}
    (hn : n = 1 ∨ n = 2) : ∀ w ∈ resultWrites view d n latch (lanesOf act) v, w.lane < 32 := by
  intro w hw
  by_cases hd : d.isScalar = true
  · obtain ⟨-, k, -, rfl⟩ := (mem_resultWrites_scalar hn hd).1 hw
    exact Nat.zero_lt_succ _
  · obtain ⟨l, k, hl, -, -, rfl⟩ := (mem_resultWrites hn (by simpa using hd)).1 hw
    exact hl

theorem holds_of_plain {view : Flue} {d : Opnd} (hd : plainDest d = true) (j : Nat) (v : Word) : (view.loc d j).holds v = v := by
  cases d <;> try rfl
  · unfold Flue.loc
    simp only
    split <;> rfl
  · simp [plainDest] at hd

/-- A delivered result reads back. -/
theorem resultWrites_delivered (i : Issue) (h : Flue) (d : Opnd) (n : Nat) (latch : Bool) (act : LaneMask) (v : Nat → DWord)
    (hn : n = 1 ∨ n = 2) (hd : plainDest d = true)
    (hf : i.view.phase ≠ .handler → (frameOf h.frames i.view.top.uid).isSome = true) :
    Delivered i (h.writeAll (resultWrites i.view d n latch (lanesOf act) v)) d n act v := by
  have hloc : ∀ j, h.hasLoc (i.view.loc d j) = true := by
    intro j
    cases d <;> try rfl
    unfold Flue.loc
    simp only
    split
    · rfl
    · exact hf ‹_›
  unfold Delivered
  split
  · rename_i hs
    intro h0 j hj
    obtain ⟨m, hm⟩ := loc_isScalar (view := i.view) hs j
    refine readLoc_writeAll_hit _ _ _ _ _ (by omega) (resultWrites_lane hn) (hloc j) ?_ ?_
    · exact ⟨_, (mem_resultWrites_scalar hn hs).2 ⟨h0, j, hj, rfl⟩, by rw [hm]; simp [RegLoc.hits]⟩
    · intro w hw hh
      obtain ⟨-, k, hk, rfl⟩ := (mem_resultWrites_scalar hn hs).1 hw
      rw [holds_of_plain hd]
      have hkj : k = j := by
        cases d <;> simp_all [Opnd.isScalar, Flue.loc, RegLoc.hits]
        omega
      rw [hkj]
  · rename_i hs
    have hs' : d.isScalar = false := by simpa using hs
    intro l hl ha j hj hr
    refine readLoc_writeAll_hit _ _ _ _ _ hl (resultWrites_lane hn) (hloc j) ?_ ?_
    · exact ⟨_, (mem_resultWrites hn hs').2 ⟨l, j, hl, ha, hj, rfl⟩, hits_self _ _ _ _ hr⟩
    · intro w hw hh
      obtain ⟨l', k, hl', ha', hk, rfl⟩ := (mem_resultWrites hn hs').1 hw
      rw [holds_of_plain hd]
      obtain ⟨rfl, hk'⟩ := hits_of_loc hs' hr hh
      rcases hk' with rfl | ⟨p, rfl⟩
      · rfl
      · simp [plainDest] at hd

/-- A delivered result leaves every other register element. -/
theorem resultWrites_keeps (i : Issue) (h : Flue) (d : Opnd) (n : Nat) (latch : Bool) (act : LaneMask) (v : Nat → DWord)
    (hn : n = 1 ∨ n = 2) : KeepsOthers i h (h.writeAll (resultWrites i.view d n latch (lanesOf act) v)) d n act := by
  intro r l hl hno
  refine readLoc_writeAll_other _ _ _ _ hl (resultWrites_lane hn) ?_
  intro w hw
  by_cases hd : d.isScalar = true
  · obtain ⟨h0, k, hk, rfl⟩ := (mem_resultWrites_scalar hn hd).1 hw
    have hm := (mem_lanesOf _ _).1 (lowLane_mem h0)
    have := hno k hk _ hm.1 hm.2
    obtain ⟨m, hm'⟩ := loc_isScalar (view := i.view) hd k
    rw [hm'] at this ⊢
    cases r <;> simp_all [RegLoc.hits]
  · obtain ⟨l', k, hl', ha, hk, rfl⟩ := (mem_resultWrites hn (by simpa using hd)).1 hw
    exact hno k hk l' hl' ha

/-- The latch after writes that give it at most one value in each lane. -/
theorem get_l_writeAll (ws : List LaneWrite) (f : Flue) (l : Nat) (v : Word)
    (h : ∀ w ∈ ws, w.toLatch = true → w.lane = l → w.val = v) :
    SMap.get (f.writeAll ws).l l = if ∃ w ∈ ws, w.toLatch = true ∧ w.lane = l then v else SMap.get f.l l := by
  unfold Flue.writeAll
  induction ws generalizing f with
  | nil => simp
  | cons w ws ih =>
    rw [List.foldl_cons, ih _ fun x hx => h x (List.mem_cons_of_mem _ hx), get_l_write1]
    by_cases hlater : ∃ x ∈ ws, x.toLatch = true ∧ x.lane = l
    · obtain ⟨x, hx, hh⟩ := hlater
      rw [if_pos ⟨x, hx, hh⟩, if_pos ⟨x, List.mem_cons_of_mem _ hx, hh⟩]
    · rw [if_neg hlater]
      by_cases hw : w.toLatch = true ∧ l = w.lane
      · rw [if_pos hw, if_pos ⟨w, List.mem_cons_self, hw.1, hw.2.symm⟩]
        exact h w List.mem_cons_self hw.1 hw.2.symm
      · rw [if_neg hw, if_neg]
        rintro ⟨x, hx, h1, h2⟩
        rcases List.mem_cons.1 hx with rfl | hx
        · exact hw ⟨h1, h2.symm⟩
        · exact hlater ⟨x, hx, h1, h2⟩

theorem resultWrites_latched (i : Issue) (h : Flue) (d : Opnd) (n : Nat) (act : LaneMask) (v : Nat → DWord)
    (hn : n = 1 ∨ n = 2) : Latched h (h.writeAll (resultWrites i.view d n true (lanesOf act) v)) d act v := by
  intro l hl
  have key : (∃ w ∈ resultWrites i.view d n true (lanesOf act) v, w.toLatch = true ∧ w.lane = l) ↔
      act.getLsbD l = true ∧ d.latches = true := by
    by_cases hd : d.isScalar = true
    · have hlat : d.latches = false := by cases d <;> simp_all [Opnd.isScalar, Opnd.latches]
      simp only [hlat, Bool.false_eq_true, and_false, iff_false]
      rintro ⟨w, hw, hto, -⟩
      obtain ⟨-, k, -, rfl⟩ := (mem_resultWrites_scalar hn hd).1 hw
      simp at hto
    · have hd' : d.isScalar = false := by simpa using hd
      constructor
      · rintro ⟨w, hw, hto, hlane⟩
        obtain ⟨l', k, -, ha, -, rfl⟩ := (mem_resultWrites hn hd').1 hw
        simp only [Bool.true_and, Bool.and_eq_true, beq_iff_eq] at hto hlane
        subst hlane
        exact ⟨ha, hto.1⟩
      · rintro ⟨ha, hlat⟩
        exact ⟨_, (mem_resultWrites hn hd').2 ⟨l, 0, hl, ha, by omega, rfl⟩, by simp [hlat], rfl⟩
  refine ⟨?_, ?_⟩
  · rw [get_l_writeAll _ _ _ (wordAt (v l) 0) (by
      intro w hw hto hlane
      by_cases hd : d.isScalar = true
      · obtain ⟨-, k, -, rfl⟩ := (mem_resultWrites_scalar hn hd).1 hw
        simp at hto
      · obtain ⟨l', k, -, -, -, rfl⟩ := (mem_resultWrites hn (by simpa using hd)).1 hw
        simp only [Bool.true_and, Bool.and_eq_true, beq_iff_eq] at hto hlane
        obtain ⟨-, rfl⟩ := hto
        subst hlane
        rfl)]
    simp only [key]
  · rw [get_lown_writeAll]
    simp only [key]

/-! ### The plain vector instruction -/

theorem finish_zero (f : Flue) (i : Issue) : f.finish i 0 = f.setPc i.lanes i.next := by
  unfold Flue.finish
  split
  · rfl
  · have h : ~~~(0 : LaneMask) = BitVec.allOnes 32 := by decide
    rw [h, BitVec.and_allOnes]

theorem readLoc_congr {f g : Flue} (h : g = { f with pc := g.pc, fpst := g.fpst }) (r : RegLoc) (l : Nat) :
    g.readLoc r l = f.readLoc r l := by
  rw [h]
  cases r <;> rfl

/-- What `runLanes` does. -/
theorem runLanes_result (s : State) (i : Issue) (f : Flue) (gd : Guard) (d : Opnd) (n : Nat) (op : Nat → LaneRes)
    (P : Nat → DWord → FlagSet → Prop) (hn : n = 1 ∨ n = 2) (hd : plainDest d = true) (hf : FrameStands i f)
    (hP : ∀ l < 32, (i.active gd).getLsbD l = true → P l (op l).val (op l).flags) :
    LaneResult s (s.setFlue i.stove i.slot (runLanes i f gd d n op)) i f gd d n P := by
  let v : Nat → DWord := fun l => (op l).val
  let act := i.active gd
  let f1 := f.writeAll (resultWrites i.view d n true (lanesOf act) v)
  let f2 := f1.raiseAll (lanesOf act) fun l => (op l).flags
  have hrun : runLanes i f gd d n op = f2.setPc i.lanes i.next := finish_zero f2 i
  have hf2 : f2 = { f1 with fpst := f2.fpst } := raiseAll_only ..
  have hf1 : f1 = f.withRegs f1 := writeAll_withRegs ..
  have hg : f2.setPc i.lanes i.next = { f1 with pc := (f2.setPc i.lanes i.next).pc, fpst := (f2.setPc i.lanes i.next).fpst } := by
    rw [hf2]
    rfl
  have hread : ∀ r l, (f2.setPc i.lanes i.next).readLoc r l = f1.readLoc r l := fun r l => readLoc_congr hg r l
  refine ⟨f2.setPc i.lanes i.next, v, fun l => (op l).flags, by rw [hrun], ⟨?_, ?_⟩, ?_, hP, ?_, ?_, ?_, ?_⟩
  · conv_lhs => rw [hg, hf1]
    rw [hg]
    rfl
  · have : (f2.setPc i.lanes i.next).frames = f1.frames := by rw [hg]
    rw [this]
    exact writeAll_shape ..
  · intro l hl
    rw [pcOf_setPc]
    have hpc : f2.pcOf l = f.pcOf l := by
      rw [hf2, hf1]
      rfl
    rw [hpc]
    simp [hl]
  · have := resultWrites_delivered i f d n true act v hn hd hf
    unfold Delivered at this ⊢
    simp only [hread]
    exact this
  · intro r l hl hno
    rw [hread]
    exact resultWrites_keeps i f d n true act v hn r l hl hno
  · intro l hl
    have h1 : (f2.setPc i.lanes i.next).fpst = f2.fpst := rfl
    have h2 : f1.fpst = f.fpst := by rw [hf1]; rfl
    rw [h1, get_fpst_raiseAll _ _ _ _ (lanesOf_nodup act), h2]
    simp only [mem_lanesOf, hl, true_and]
    rfl
  · intro l hl
    have h1 : (f2.setPc i.lanes i.next).l = f1.l := by rw [hg]
    have h2 : (f2.setPc i.lanes i.next).lown = f1.lown := by rw [hg]
    dsimp only
    rw [h1, h2]
    exact resultWrites_latched i f d n act v hn l hl

/-- An instruction that runs on the issuing flue answers a next state. -/
theorem onFlue_next {s : State} {i : Issue} {f : Flue} (h : Issuing s i f) (k : Issue → Flue → Flue) :
    onFlue s k = .next (s.setFlue i.stove i.slot (k i f)) := by
  simp [onFlue, onIssue, h.1, h.2]

theorem onIssue_next {s : State} {i : Issue} {f : Flue} (h : Issuing s i f) (k : Issue → Flue → State) :
    onIssue s k = .next (k i f) := by
  simp [onIssue, h.1, h.2]

/-- What `alu` does: the instruction answers a next state with a plain result. -/
theorem alu_result (s : State) (i : Issue) (f : Flue) (x : LArgs) (n : Nat) (op : Src → Nat → LaneRes)
    (P : Nat → DWord → FlagSet → Prop) (h : Issuing s i f) (hn : n = 1 ∨ n = 2) (hd : plainDest x.d = true)
    (hf : FrameStands i f) (hP : ∀ l < 32, (i.active x.guard).getLsbD l = true → P l (op (i.src x.lit) l).val (op (i.src x.lit) l).flags) :
    ∃ t, alu x n op s = .next t ∧ LaneResult s t i f x.guard x.d n P := by
  refine ⟨_, onFlue_next h _, ?_⟩
  exact runLanes_result s i f x.guard x.d n (op (i.src x.lit)) P hn hd hf hP

end Sys2Proof.Machine
end

