-- ==== Sys2Proof/Laws/Check.lean ====
section
/-! SUPPORT. What it means that an instruction passes its checks: every condition of the check holds, and so the shape of its
operands. -/

namespace Sys2Proof

theorem firstFault_none {l : List (Bool × DecodeError)} : firstFault l = none ↔ ∀ p ∈ l, p.1 = true := by
  induction l with
  | nil => simp [firstFault]
  | cons p l ih =>
    obtain ⟨ok, e⟩ := p
    cases ok <;> simp [firstFault, ih]

/-- The conditions of a long instruction that passes its check. -/
theorem LRow.check_none {r : LRow} {x : LArgs} (h : r.check x = none) :
    r.form.d.ok x.ty x.modx x.d = true ∧ r.form.a.ok x.ty x.modx x.a = true ∧
    r.form.b.ok x.ty x.modx x.b = true ∧ r.form.c.ok x.ty x.modx x.c = true ∧
    (if r.form.types.isEmpty then x.ty == .b32 else r.form.types.contains x.ty) = true ∧
    r.form.rm.ok x.rm = true ∧ r.form.modx x.ty x.rm x.modx = true ∧
    (x.f == .none || r.form.flag) = true ∧
    litOk [(r.form.a, x.a), (r.form.b, x.b), (r.form.c, x.c)] x.lit = true ∧
    scalarOk r.form.d x.d [(r.form.a, x.a), (r.form.b, x.b), (r.form.c, x.c)] = true ∧ predsOk r x = true ∧ extraOk r x = true := by
  have := firstFault_none.1 h
  simp only [List.mem_cons, List.not_mem_nil, or_false, forall_eq_or_imp, forall_eq] at this
  obtain ⟨h1, h2, h3, h4, h5, h6, h7, h8, h9, h10, h11, h12⟩ := this
  exact ⟨h1, h2, h8, h9, h10, h11, h12, h4, h3, h5, h6, h7⟩

namespace Machine

theorem plainDest_of_dst {w : Width} {ty : Ty} {m : BitVec 11} {o : Opnd} (h : (Kind.dst w).ok ty m o = true) : plainDest o = true := by
  cases o <;> simp_all [Kind.ok, plainDest]

theorem plainDest_of_dstV {w : Width} {ty : Ty} {m : BitVec 11} {o : Opnd} (h : (Kind.dstV w).ok ty m o = true) :
    plainDest o = true := by
  cases o <;> simp_all [Kind.ok, plainDest]

theorem regs_one_or_two (ty : Ty) : ty.regs = 1 ∨ ty.regs = 2 := by cases ty <;> simp [Ty.regs]

end Machine

end Sys2Proof
end

