-- ==== Sys2Proof/Laws/State.lean ====
section
/-! SUPPORT. Field by field, what the updates of the state change and leave: one lemma per field per update, and what is read back
from what was put. -/

namespace Sys2Proof.Machine

/-! ### `setStove` -/

@[simp] theorem State.setStove_stage (s : State) (n : Nat) (x : Stove) : (s.setStove n x).stage = s.stage := rfl
@[simp] theorem State.setStove_halted (s : State) (n : Nat) (x : Stove) : (s.setStove n x).halted = s.halted := rfl
@[simp] theorem State.setStove_badHearths (s : State) (n : Nat) (x : Stove) : (s.setStove n x).badHearths = s.badHearths := rfl
@[simp] theorem State.setStove_testMode (s : State) (n : Nat) (x : Stove) : (s.setStove n x).testMode = s.testMode := rfl
@[simp] theorem State.setStove_testPending (s : State) (n : Nat) (x : Stove) : (s.setStove n x).testPending = s.testPending := rfl
@[simp] theorem State.setStove_mem (s : State) (n : Nat) (x : Stove) : (s.setStove n x).mem = s.mem := rfl
@[simp] theorem State.setStove_own (s : State) (n : Nat) (x : Stove) : (s.setStove n x).own = s.own := rfl
@[simp] theorem State.setStove_uncorr (s : State) (n : Nat) (x : Stove) : (s.setStove n x).uncorr = s.uncorr := rfl
@[simp] theorem State.setStove_llc (s : State) (n : Nat) (x : Stove) : (s.setStove n x).llc = s.llc := rfl
@[simp] theorem State.setStove_side (s : State) (n : Nat) (x : Stove) : (s.setStove n x).side = s.side := rfl
@[simp] theorem State.setStove_flows (s : State) (n : Nat) (x : Stove) : (s.setStove n x).flows = s.flows := rfl
@[simp] theorem State.setStove_counts (s : State) (n : Nat) (x : Stove) : (s.setStove n x).counts = s.counts := rfl
@[simp] theorem State.setStove_hits (s : State) (n : Nat) (x : Stove) : (s.setStove n x).hits = s.hits := rfl
@[simp] theorem State.setStove_islands (s : State) (n : Nat) (x : Stove) : (s.setStove n x).islands = s.islands := rfl
@[simp] theorem State.setStove_hearths (s : State) (n : Nat) (x : Stove) : (s.setStove n x).hearths = s.hearths := rfl
@[simp] theorem State.setStove_dies (s : State) (n : Nat) (x : Stove) : (s.setStove n x).dies = s.dies := rfl
@[simp] theorem State.setStove_remap (s : State) (n : Nat) (x : Stove) : (s.setStove n x).remap = s.remap := rfl
@[simp] theorem State.setStove_parts (s : State) (n : Nat) (x : Stove) : (s.setStove n x).parts = s.parts := rfl
@[simp] theorem State.setStove_ctxs (s : State) (n : Nat) (x : Stove) : (s.setStove n x).ctxs = s.ctxs := rfl
@[simp] theorem State.setStove_purge (s : State) (n : Nat) (x : Stove) : (s.setStove n x).purge = s.purge := rfl
@[simp] theorem State.setStove_powerSteps (s : State) (n : Nat) (x : Stove) : (s.setStove n x).powerSteps = s.powerSteps := rfl
@[simp] theorem State.setStove_harts (s : State) (n : Nat) (x : Stove) : (s.setStove n x).harts = s.harts := rfl
@[simp] theorem State.setStove_ports (s : State) (n : Nat) (x : Stove) : (s.setStove n x).ports = s.ports := rfl
@[simp] theorem State.setStove_tdisp (s : State) (n : Nat) (x : Stove) : (s.setStove n x).tdisp = s.tdisp := rfl
@[simp] theorem State.setStove_hosts (s : State) (n : Nat) (x : Stove) : (s.setStove n x).hosts = s.hosts := rfl
@[simp] theorem State.setStove_rot (s : State) (n : Nat) (x : Stove) : (s.setStove n x).rot = s.rot := rfl
@[simp] theorem State.setStove_fw (s : State) (n : Nat) (x : Stove) : (s.setStove n x).fw = s.fw := rfl
@[simp] theorem State.setStove_spdm (s : State) (n : Nat) (x : Stove) : (s.setStove n x).spdm = s.spdm := rfl
@[simp] theorem State.setStove_outbox (s : State) (n : Nat) (x : Stove) : (s.setStove n x).outbox = s.outbox := rfl
@[simp] theorem State.setStove_turns (s : State) (n : Nat) (x : Stove) : (s.setStove n x).turns = s.turns := rfl
@[simp] theorem State.setStove_turnIdx (s : State) (n : Nat) (x : Stove) : (s.setStove n x).turnIdx = s.turnIdx := rfl
@[simp] theorem State.setStove_freeIdx (s : State) (n : Nat) (x : Stove) : (s.setStove n x).freeIdx = s.freeIdx := rfl
@[simp] theorem State.setStove_stamp (s : State) (n : Nat) (x : Stove) : (s.setStove n x).stamp = s.stamp := rfl
@[simp] theorem State.setStove_issue (s : State) (n : Nat) (x : Stove) : (s.setStove n x).issue = s.issue := rfl
@[simp] theorem State.setStove_core (s : State) (n : Nat) (x : Stove) : (s.setStove n x).core = s.core := rfl

/-! ### `setHearth` -/

@[simp] theorem State.setHearth_stage (s : State) (n : Nat) (x : Hearth) : (s.setHearth n x).stage = s.stage := rfl
@[simp] theorem State.setHearth_halted (s : State) (n : Nat) (x : Hearth) : (s.setHearth n x).halted = s.halted := rfl
@[simp] theorem State.setHearth_badHearths (s : State) (n : Nat) (x : Hearth) : (s.setHearth n x).badHearths = s.badHearths := rfl
@[simp] theorem State.setHearth_testMode (s : State) (n : Nat) (x : Hearth) : (s.setHearth n x).testMode = s.testMode := rfl
@[simp] theorem State.setHearth_testPending (s : State) (n : Nat) (x : Hearth) : (s.setHearth n x).testPending = s.testPending := rfl
@[simp] theorem State.setHearth_mem (s : State) (n : Nat) (x : Hearth) : (s.setHearth n x).mem = s.mem := rfl
@[simp] theorem State.setHearth_own (s : State) (n : Nat) (x : Hearth) : (s.setHearth n x).own = s.own := rfl
@[simp] theorem State.setHearth_uncorr (s : State) (n : Nat) (x : Hearth) : (s.setHearth n x).uncorr = s.uncorr := rfl
@[simp] theorem State.setHearth_llc (s : State) (n : Nat) (x : Hearth) : (s.setHearth n x).llc = s.llc := rfl
@[simp] theorem State.setHearth_side (s : State) (n : Nat) (x : Hearth) : (s.setHearth n x).side = s.side := rfl
@[simp] theorem State.setHearth_flows (s : State) (n : Nat) (x : Hearth) : (s.setHearth n x).flows = s.flows := rfl
@[simp] theorem State.setHearth_counts (s : State) (n : Nat) (x : Hearth) : (s.setHearth n x).counts = s.counts := rfl
@[simp] theorem State.setHearth_hits (s : State) (n : Nat) (x : Hearth) : (s.setHearth n x).hits = s.hits := rfl
@[simp] theorem State.setHearth_islands (s : State) (n : Nat) (x : Hearth) : (s.setHearth n x).islands = s.islands := rfl
@[simp] theorem State.setHearth_stoves (s : State) (n : Nat) (x : Hearth) : (s.setHearth n x).stoves = s.stoves := rfl
@[simp] theorem State.setHearth_dies (s : State) (n : Nat) (x : Hearth) : (s.setHearth n x).dies = s.dies := rfl
@[simp] theorem State.setHearth_remap (s : State) (n : Nat) (x : Hearth) : (s.setHearth n x).remap = s.remap := rfl
@[simp] theorem State.setHearth_parts (s : State) (n : Nat) (x : Hearth) : (s.setHearth n x).parts = s.parts := rfl
@[simp] theorem State.setHearth_ctxs (s : State) (n : Nat) (x : Hearth) : (s.setHearth n x).ctxs = s.ctxs := rfl
@[simp] theorem State.setHearth_purge (s : State) (n : Nat) (x : Hearth) : (s.setHearth n x).purge = s.purge := rfl
@[simp] theorem State.setHearth_powerSteps (s : State) (n : Nat) (x : Hearth) : (s.setHearth n x).powerSteps = s.powerSteps := rfl
@[simp] theorem State.setHearth_harts (s : State) (n : Nat) (x : Hearth) : (s.setHearth n x).harts = s.harts := rfl
@[simp] theorem State.setHearth_ports (s : State) (n : Nat) (x : Hearth) : (s.setHearth n x).ports = s.ports := rfl
@[simp] theorem State.setHearth_tdisp (s : State) (n : Nat) (x : Hearth) : (s.setHearth n x).tdisp = s.tdisp := rfl
@[simp] theorem State.setHearth_hosts (s : State) (n : Nat) (x : Hearth) : (s.setHearth n x).hosts = s.hosts := rfl
@[simp] theorem State.setHearth_rot (s : State) (n : Nat) (x : Hearth) : (s.setHearth n x).rot = s.rot := rfl
@[simp] theorem State.setHearth_fw (s : State) (n : Nat) (x : Hearth) : (s.setHearth n x).fw = s.fw := rfl
@[simp] theorem State.setHearth_spdm (s : State) (n : Nat) (x : Hearth) : (s.setHearth n x).spdm = s.spdm := rfl
@[simp] theorem State.setHearth_outbox (s : State) (n : Nat) (x : Hearth) : (s.setHearth n x).outbox = s.outbox := rfl
@[simp] theorem State.setHearth_turns (s : State) (n : Nat) (x : Hearth) : (s.setHearth n x).turns = s.turns := rfl
@[simp] theorem State.setHearth_turnIdx (s : State) (n : Nat) (x : Hearth) : (s.setHearth n x).turnIdx = s.turnIdx := rfl
@[simp] theorem State.setHearth_freeIdx (s : State) (n : Nat) (x : Hearth) : (s.setHearth n x).freeIdx = s.freeIdx := rfl
@[simp] theorem State.setHearth_stamp (s : State) (n : Nat) (x : Hearth) : (s.setHearth n x).stamp = s.stamp := rfl
@[simp] theorem State.setHearth_issue (s : State) (n : Nat) (x : Hearth) : (s.setHearth n x).issue = s.issue := rfl
@[simp] theorem State.setHearth_core (s : State) (n : Nat) (x : Hearth) : (s.setHearth n x).core = s.core := rfl

/-! ### `setDie` -/

@[simp] theorem State.setDie_stage (s : State) (n : Nat) (x : Die) : (s.setDie n x).stage = s.stage := rfl
@[simp] theorem State.setDie_halted (s : State) (n : Nat) (x : Die) : (s.setDie n x).halted = s.halted := rfl
@[simp] theorem State.setDie_badHearths (s : State) (n : Nat) (x : Die) : (s.setDie n x).badHearths = s.badHearths := rfl
@[simp] theorem State.setDie_testMode (s : State) (n : Nat) (x : Die) : (s.setDie n x).testMode = s.testMode := rfl
@[simp] theorem State.setDie_testPending (s : State) (n : Nat) (x : Die) : (s.setDie n x).testPending = s.testPending := rfl
@[simp] theorem State.setDie_mem (s : State) (n : Nat) (x : Die) : (s.setDie n x).mem = s.mem := rfl
@[simp] theorem State.setDie_own (s : State) (n : Nat) (x : Die) : (s.setDie n x).own = s.own := rfl
@[simp] theorem State.setDie_uncorr (s : State) (n : Nat) (x : Die) : (s.setDie n x).uncorr = s.uncorr := rfl
@[simp] theorem State.setDie_llc (s : State) (n : Nat) (x : Die) : (s.setDie n x).llc = s.llc := rfl
@[simp] theorem State.setDie_side (s : State) (n : Nat) (x : Die) : (s.setDie n x).side = s.side := rfl
@[simp] theorem State.setDie_flows (s : State) (n : Nat) (x : Die) : (s.setDie n x).flows = s.flows := rfl
@[simp] theorem State.setDie_counts (s : State) (n : Nat) (x : Die) : (s.setDie n x).counts = s.counts := rfl
@[simp] theorem State.setDie_hits (s : State) (n : Nat) (x : Die) : (s.setDie n x).hits = s.hits := rfl
@[simp] theorem State.setDie_islands (s : State) (n : Nat) (x : Die) : (s.setDie n x).islands = s.islands := rfl
@[simp] theorem State.setDie_stoves (s : State) (n : Nat) (x : Die) : (s.setDie n x).stoves = s.stoves := rfl
@[simp] theorem State.setDie_hearths (s : State) (n : Nat) (x : Die) : (s.setDie n x).hearths = s.hearths := rfl
@[simp] theorem State.setDie_remap (s : State) (n : Nat) (x : Die) : (s.setDie n x).remap = s.remap := rfl
@[simp] theorem State.setDie_parts (s : State) (n : Nat) (x : Die) : (s.setDie n x).parts = s.parts := rfl
@[simp] theorem State.setDie_ctxs (s : State) (n : Nat) (x : Die) : (s.setDie n x).ctxs = s.ctxs := rfl
@[simp] theorem State.setDie_purge (s : State) (n : Nat) (x : Die) : (s.setDie n x).purge = s.purge := rfl
@[simp] theorem State.setDie_powerSteps (s : State) (n : Nat) (x : Die) : (s.setDie n x).powerSteps = s.powerSteps := rfl
@[simp] theorem State.setDie_harts (s : State) (n : Nat) (x : Die) : (s.setDie n x).harts = s.harts := rfl
@[simp] theorem State.setDie_ports (s : State) (n : Nat) (x : Die) : (s.setDie n x).ports = s.ports := rfl
@[simp] theorem State.setDie_tdisp (s : State) (n : Nat) (x : Die) : (s.setDie n x).tdisp = s.tdisp := rfl
@[simp] theorem State.setDie_hosts (s : State) (n : Nat) (x : Die) : (s.setDie n x).hosts = s.hosts := rfl
@[simp] theorem State.setDie_rot (s : State) (n : Nat) (x : Die) : (s.setDie n x).rot = s.rot := rfl
@[simp] theorem State.setDie_fw (s : State) (n : Nat) (x : Die) : (s.setDie n x).fw = s.fw := rfl
@[simp] theorem State.setDie_spdm (s : State) (n : Nat) (x : Die) : (s.setDie n x).spdm = s.spdm := rfl
@[simp] theorem State.setDie_outbox (s : State) (n : Nat) (x : Die) : (s.setDie n x).outbox = s.outbox := rfl
@[simp] theorem State.setDie_turns (s : State) (n : Nat) (x : Die) : (s.setDie n x).turns = s.turns := rfl
@[simp] theorem State.setDie_turnIdx (s : State) (n : Nat) (x : Die) : (s.setDie n x).turnIdx = s.turnIdx := rfl
@[simp] theorem State.setDie_freeIdx (s : State) (n : Nat) (x : Die) : (s.setDie n x).freeIdx = s.freeIdx := rfl
@[simp] theorem State.setDie_stamp (s : State) (n : Nat) (x : Die) : (s.setDie n x).stamp = s.stamp := rfl
@[simp] theorem State.setDie_issue (s : State) (n : Nat) (x : Die) : (s.setDie n x).issue = s.issue := rfl
@[simp] theorem State.setDie_core (s : State) (n : Nat) (x : Die) : (s.setDie n x).core = s.core := rfl

/-! ### `setPart` -/

@[simp] theorem State.setPart_stage (s : State) (n : Nat) (x : Partition) : (s.setPart n x).stage = s.stage := rfl
@[simp] theorem State.setPart_halted (s : State) (n : Nat) (x : Partition) : (s.setPart n x).halted = s.halted := rfl
@[simp] theorem State.setPart_badHearths (s : State) (n : Nat) (x : Partition) : (s.setPart n x).badHearths = s.badHearths := rfl
@[simp] theorem State.setPart_testMode (s : State) (n : Nat) (x : Partition) : (s.setPart n x).testMode = s.testMode := rfl
@[simp] theorem State.setPart_testPending (s : State) (n : Nat) (x : Partition) : (s.setPart n x).testPending = s.testPending := rfl
@[simp] theorem State.setPart_mem (s : State) (n : Nat) (x : Partition) : (s.setPart n x).mem = s.mem := rfl
@[simp] theorem State.setPart_own (s : State) (n : Nat) (x : Partition) : (s.setPart n x).own = s.own := rfl
@[simp] theorem State.setPart_uncorr (s : State) (n : Nat) (x : Partition) : (s.setPart n x).uncorr = s.uncorr := rfl
@[simp] theorem State.setPart_llc (s : State) (n : Nat) (x : Partition) : (s.setPart n x).llc = s.llc := rfl
@[simp] theorem State.setPart_side (s : State) (n : Nat) (x : Partition) : (s.setPart n x).side = s.side := rfl
@[simp] theorem State.setPart_flows (s : State) (n : Nat) (x : Partition) : (s.setPart n x).flows = s.flows := rfl
@[simp] theorem State.setPart_counts (s : State) (n : Nat) (x : Partition) : (s.setPart n x).counts = s.counts := rfl
@[simp] theorem State.setPart_hits (s : State) (n : Nat) (x : Partition) : (s.setPart n x).hits = s.hits := rfl
@[simp] theorem State.setPart_islands (s : State) (n : Nat) (x : Partition) : (s.setPart n x).islands = s.islands := rfl
@[simp] theorem State.setPart_stoves (s : State) (n : Nat) (x : Partition) : (s.setPart n x).stoves = s.stoves := rfl
@[simp] theorem State.setPart_hearths (s : State) (n : Nat) (x : Partition) : (s.setPart n x).hearths = s.hearths := rfl
@[simp] theorem State.setPart_dies (s : State) (n : Nat) (x : Partition) : (s.setPart n x).dies = s.dies := rfl
@[simp] theorem State.setPart_remap (s : State) (n : Nat) (x : Partition) : (s.setPart n x).remap = s.remap := rfl
@[simp] theorem State.setPart_ctxs (s : State) (n : Nat) (x : Partition) : (s.setPart n x).ctxs = s.ctxs := rfl
@[simp] theorem State.setPart_purge (s : State) (n : Nat) (x : Partition) : (s.setPart n x).purge = s.purge := rfl
@[simp] theorem State.setPart_powerSteps (s : State) (n : Nat) (x : Partition) : (s.setPart n x).powerSteps = s.powerSteps := rfl
@[simp] theorem State.setPart_harts (s : State) (n : Nat) (x : Partition) : (s.setPart n x).harts = s.harts := rfl
@[simp] theorem State.setPart_ports (s : State) (n : Nat) (x : Partition) : (s.setPart n x).ports = s.ports := rfl
@[simp] theorem State.setPart_tdisp (s : State) (n : Nat) (x : Partition) : (s.setPart n x).tdisp = s.tdisp := rfl
@[simp] theorem State.setPart_hosts (s : State) (n : Nat) (x : Partition) : (s.setPart n x).hosts = s.hosts := rfl
@[simp] theorem State.setPart_rot (s : State) (n : Nat) (x : Partition) : (s.setPart n x).rot = s.rot := rfl
@[simp] theorem State.setPart_fw (s : State) (n : Nat) (x : Partition) : (s.setPart n x).fw = s.fw := rfl
@[simp] theorem State.setPart_spdm (s : State) (n : Nat) (x : Partition) : (s.setPart n x).spdm = s.spdm := rfl
@[simp] theorem State.setPart_outbox (s : State) (n : Nat) (x : Partition) : (s.setPart n x).outbox = s.outbox := rfl
@[simp] theorem State.setPart_turns (s : State) (n : Nat) (x : Partition) : (s.setPart n x).turns = s.turns := rfl
@[simp] theorem State.setPart_turnIdx (s : State) (n : Nat) (x : Partition) : (s.setPart n x).turnIdx = s.turnIdx := rfl
@[simp] theorem State.setPart_freeIdx (s : State) (n : Nat) (x : Partition) : (s.setPart n x).freeIdx = s.freeIdx := rfl
@[simp] theorem State.setPart_stamp (s : State) (n : Nat) (x : Partition) : (s.setPart n x).stamp = s.stamp := rfl
@[simp] theorem State.setPart_issue (s : State) (n : Nat) (x : Partition) : (s.setPart n x).issue = s.issue := rfl
@[simp] theorem State.setPart_core (s : State) (n : Nat) (x : Partition) : (s.setPart n x).core = s.core := rfl

/-! ### `setCtx` -/

@[simp] theorem State.setCtx_stage (s : State) (n : Nat) (x : Context) : (s.setCtx n x).stage = s.stage := rfl
@[simp] theorem State.setCtx_halted (s : State) (n : Nat) (x : Context) : (s.setCtx n x).halted = s.halted := rfl
@[simp] theorem State.setCtx_badHearths (s : State) (n : Nat) (x : Context) : (s.setCtx n x).badHearths = s.badHearths := rfl
@[simp] theorem State.setCtx_testMode (s : State) (n : Nat) (x : Context) : (s.setCtx n x).testMode = s.testMode := rfl
@[simp] theorem State.setCtx_testPending (s : State) (n : Nat) (x : Context) : (s.setCtx n x).testPending = s.testPending := rfl
@[simp] theorem State.setCtx_mem (s : State) (n : Nat) (x : Context) : (s.setCtx n x).mem = s.mem := rfl
@[simp] theorem State.setCtx_own (s : State) (n : Nat) (x : Context) : (s.setCtx n x).own = s.own := rfl
@[simp] theorem State.setCtx_uncorr (s : State) (n : Nat) (x : Context) : (s.setCtx n x).uncorr = s.uncorr := rfl
@[simp] theorem State.setCtx_llc (s : State) (n : Nat) (x : Context) : (s.setCtx n x).llc = s.llc := rfl
@[simp] theorem State.setCtx_side (s : State) (n : Nat) (x : Context) : (s.setCtx n x).side = s.side := rfl
@[simp] theorem State.setCtx_flows (s : State) (n : Nat) (x : Context) : (s.setCtx n x).flows = s.flows := rfl
@[simp] theorem State.setCtx_counts (s : State) (n : Nat) (x : Context) : (s.setCtx n x).counts = s.counts := rfl
@[simp] theorem State.setCtx_hits (s : State) (n : Nat) (x : Context) : (s.setCtx n x).hits = s.hits := rfl
@[simp] theorem State.setCtx_islands (s : State) (n : Nat) (x : Context) : (s.setCtx n x).islands = s.islands := rfl
@[simp] theorem State.setCtx_stoves (s : State) (n : Nat) (x : Context) : (s.setCtx n x).stoves = s.stoves := rfl
@[simp] theorem State.setCtx_hearths (s : State) (n : Nat) (x : Context) : (s.setCtx n x).hearths = s.hearths := rfl
@[simp] theorem State.setCtx_dies (s : State) (n : Nat) (x : Context) : (s.setCtx n x).dies = s.dies := rfl
@[simp] theorem State.setCtx_remap (s : State) (n : Nat) (x : Context) : (s.setCtx n x).remap = s.remap := rfl
@[simp] theorem State.setCtx_parts (s : State) (n : Nat) (x : Context) : (s.setCtx n x).parts = s.parts := rfl
@[simp] theorem State.setCtx_purge (s : State) (n : Nat) (x : Context) : (s.setCtx n x).purge = s.purge := rfl
@[simp] theorem State.setCtx_powerSteps (s : State) (n : Nat) (x : Context) : (s.setCtx n x).powerSteps = s.powerSteps := rfl
@[simp] theorem State.setCtx_harts (s : State) (n : Nat) (x : Context) : (s.setCtx n x).harts = s.harts := rfl
@[simp] theorem State.setCtx_ports (s : State) (n : Nat) (x : Context) : (s.setCtx n x).ports = s.ports := rfl
@[simp] theorem State.setCtx_tdisp (s : State) (n : Nat) (x : Context) : (s.setCtx n x).tdisp = s.tdisp := rfl
@[simp] theorem State.setCtx_hosts (s : State) (n : Nat) (x : Context) : (s.setCtx n x).hosts = s.hosts := rfl
@[simp] theorem State.setCtx_rot (s : State) (n : Nat) (x : Context) : (s.setCtx n x).rot = s.rot := rfl
@[simp] theorem State.setCtx_fw (s : State) (n : Nat) (x : Context) : (s.setCtx n x).fw = s.fw := rfl
@[simp] theorem State.setCtx_spdm (s : State) (n : Nat) (x : Context) : (s.setCtx n x).spdm = s.spdm := rfl
@[simp] theorem State.setCtx_outbox (s : State) (n : Nat) (x : Context) : (s.setCtx n x).outbox = s.outbox := rfl
@[simp] theorem State.setCtx_turns (s : State) (n : Nat) (x : Context) : (s.setCtx n x).turns = s.turns := rfl
@[simp] theorem State.setCtx_turnIdx (s : State) (n : Nat) (x : Context) : (s.setCtx n x).turnIdx = s.turnIdx := rfl
@[simp] theorem State.setCtx_freeIdx (s : State) (n : Nat) (x : Context) : (s.setCtx n x).freeIdx = s.freeIdx := rfl
@[simp] theorem State.setCtx_stamp (s : State) (n : Nat) (x : Context) : (s.setCtx n x).stamp = s.stamp := rfl
@[simp] theorem State.setCtx_issue (s : State) (n : Nat) (x : Context) : (s.setCtx n x).issue = s.issue := rfl
@[simp] theorem State.setCtx_core (s : State) (n : Nat) (x : Context) : (s.setCtx n x).core = s.core := rfl

/-! ### `setHart` -/

@[simp] theorem State.setHart_stage (s : State) (n : Nat) (x : Hart) : (s.setHart n x).stage = s.stage := rfl
@[simp] theorem State.setHart_halted (s : State) (n : Nat) (x : Hart) : (s.setHart n x).halted = s.halted := rfl
@[simp] theorem State.setHart_badHearths (s : State) (n : Nat) (x : Hart) : (s.setHart n x).badHearths = s.badHearths := rfl
@[simp] theorem State.setHart_testMode (s : State) (n : Nat) (x : Hart) : (s.setHart n x).testMode = s.testMode := rfl
@[simp] theorem State.setHart_testPending (s : State) (n : Nat) (x : Hart) : (s.setHart n x).testPending = s.testPending := rfl
@[simp] theorem State.setHart_mem (s : State) (n : Nat) (x : Hart) : (s.setHart n x).mem = s.mem := rfl
@[simp] theorem State.setHart_own (s : State) (n : Nat) (x : Hart) : (s.setHart n x).own = s.own := rfl
@[simp] theorem State.setHart_uncorr (s : State) (n : Nat) (x : Hart) : (s.setHart n x).uncorr = s.uncorr := rfl
@[simp] theorem State.setHart_llc (s : State) (n : Nat) (x : Hart) : (s.setHart n x).llc = s.llc := rfl
@[simp] theorem State.setHart_side (s : State) (n : Nat) (x : Hart) : (s.setHart n x).side = s.side := rfl
@[simp] theorem State.setHart_flows (s : State) (n : Nat) (x : Hart) : (s.setHart n x).flows = s.flows := rfl
@[simp] theorem State.setHart_counts (s : State) (n : Nat) (x : Hart) : (s.setHart n x).counts = s.counts := rfl
@[simp] theorem State.setHart_hits (s : State) (n : Nat) (x : Hart) : (s.setHart n x).hits = s.hits := rfl
@[simp] theorem State.setHart_islands (s : State) (n : Nat) (x : Hart) : (s.setHart n x).islands = s.islands := rfl
@[simp] theorem State.setHart_stoves (s : State) (n : Nat) (x : Hart) : (s.setHart n x).stoves = s.stoves := rfl
@[simp] theorem State.setHart_hearths (s : State) (n : Nat) (x : Hart) : (s.setHart n x).hearths = s.hearths := rfl
@[simp] theorem State.setHart_dies (s : State) (n : Nat) (x : Hart) : (s.setHart n x).dies = s.dies := rfl
@[simp] theorem State.setHart_remap (s : State) (n : Nat) (x : Hart) : (s.setHart n x).remap = s.remap := rfl
@[simp] theorem State.setHart_parts (s : State) (n : Nat) (x : Hart) : (s.setHart n x).parts = s.parts := rfl
@[simp] theorem State.setHart_ctxs (s : State) (n : Nat) (x : Hart) : (s.setHart n x).ctxs = s.ctxs := rfl
@[simp] theorem State.setHart_purge (s : State) (n : Nat) (x : Hart) : (s.setHart n x).purge = s.purge := rfl
@[simp] theorem State.setHart_powerSteps (s : State) (n : Nat) (x : Hart) : (s.setHart n x).powerSteps = s.powerSteps := rfl
@[simp] theorem State.setHart_ports (s : State) (n : Nat) (x : Hart) : (s.setHart n x).ports = s.ports := rfl
@[simp] theorem State.setHart_tdisp (s : State) (n : Nat) (x : Hart) : (s.setHart n x).tdisp = s.tdisp := rfl
@[simp] theorem State.setHart_hosts (s : State) (n : Nat) (x : Hart) : (s.setHart n x).hosts = s.hosts := rfl
@[simp] theorem State.setHart_rot (s : State) (n : Nat) (x : Hart) : (s.setHart n x).rot = s.rot := rfl
@[simp] theorem State.setHart_fw (s : State) (n : Nat) (x : Hart) : (s.setHart n x).fw = s.fw := rfl
@[simp] theorem State.setHart_spdm (s : State) (n : Nat) (x : Hart) : (s.setHart n x).spdm = s.spdm := rfl
@[simp] theorem State.setHart_outbox (s : State) (n : Nat) (x : Hart) : (s.setHart n x).outbox = s.outbox := rfl
@[simp] theorem State.setHart_turns (s : State) (n : Nat) (x : Hart) : (s.setHart n x).turns = s.turns := rfl
@[simp] theorem State.setHart_turnIdx (s : State) (n : Nat) (x : Hart) : (s.setHart n x).turnIdx = s.turnIdx := rfl
@[simp] theorem State.setHart_freeIdx (s : State) (n : Nat) (x : Hart) : (s.setHart n x).freeIdx = s.freeIdx := rfl
@[simp] theorem State.setHart_stamp (s : State) (n : Nat) (x : Hart) : (s.setHart n x).stamp = s.stamp := rfl
@[simp] theorem State.setHart_issue (s : State) (n : Nat) (x : Hart) : (s.setHart n x).issue = s.issue := rfl
@[simp] theorem State.setHart_core (s : State) (n : Nat) (x : Hart) : (s.setHart n x).core = s.core := rfl

/-! ### `say` -/

@[simp] theorem State.say_stage (s : State) (r : Reply) : (s.say r).stage = s.stage := rfl
@[simp] theorem State.say_halted (s : State) (r : Reply) : (s.say r).halted = s.halted := rfl
@[simp] theorem State.say_badHearths (s : State) (r : Reply) : (s.say r).badHearths = s.badHearths := rfl
@[simp] theorem State.say_testMode (s : State) (r : Reply) : (s.say r).testMode = s.testMode := rfl
@[simp] theorem State.say_testPending (s : State) (r : Reply) : (s.say r).testPending = s.testPending := rfl
@[simp] theorem State.say_mem (s : State) (r : Reply) : (s.say r).mem = s.mem := rfl
@[simp] theorem State.say_own (s : State) (r : Reply) : (s.say r).own = s.own := rfl
@[simp] theorem State.say_uncorr (s : State) (r : Reply) : (s.say r).uncorr = s.uncorr := rfl
@[simp] theorem State.say_llc (s : State) (r : Reply) : (s.say r).llc = s.llc := rfl
@[simp] theorem State.say_side (s : State) (r : Reply) : (s.say r).side = s.side := rfl
@[simp] theorem State.say_flows (s : State) (r : Reply) : (s.say r).flows = s.flows := rfl
@[simp] theorem State.say_counts (s : State) (r : Reply) : (s.say r).counts = s.counts := rfl
@[simp] theorem State.say_hits (s : State) (r : Reply) : (s.say r).hits = s.hits := rfl
@[simp] theorem State.say_islands (s : State) (r : Reply) : (s.say r).islands = s.islands := rfl
@[simp] theorem State.say_stoves (s : State) (r : Reply) : (s.say r).stoves = s.stoves := rfl
@[simp] theorem State.say_hearths (s : State) (r : Reply) : (s.say r).hearths = s.hearths := rfl
@[simp] theorem State.say_dies (s : State) (r : Reply) : (s.say r).dies = s.dies := rfl
@[simp] theorem State.say_remap (s : State) (r : Reply) : (s.say r).remap = s.remap := rfl
@[simp] theorem State.say_parts (s : State) (r : Reply) : (s.say r).parts = s.parts := rfl
@[simp] theorem State.say_ctxs (s : State) (r : Reply) : (s.say r).ctxs = s.ctxs := rfl
@[simp] theorem State.say_purge (s : State) (r : Reply) : (s.say r).purge = s.purge := rfl
@[simp] theorem State.say_powerSteps (s : State) (r : Reply) : (s.say r).powerSteps = s.powerSteps := rfl
@[simp] theorem State.say_harts (s : State) (r : Reply) : (s.say r).harts = s.harts := rfl
@[simp] theorem State.say_ports (s : State) (r : Reply) : (s.say r).ports = s.ports := rfl
@[simp] theorem State.say_tdisp (s : State) (r : Reply) : (s.say r).tdisp = s.tdisp := rfl
@[simp] theorem State.say_hosts (s : State) (r : Reply) : (s.say r).hosts = s.hosts := rfl
@[simp] theorem State.say_rot (s : State) (r : Reply) : (s.say r).rot = s.rot := rfl
@[simp] theorem State.say_fw (s : State) (r : Reply) : (s.say r).fw = s.fw := rfl
@[simp] theorem State.say_spdm (s : State) (r : Reply) : (s.say r).spdm = s.spdm := rfl
@[simp] theorem State.say_turns (s : State) (r : Reply) : (s.say r).turns = s.turns := rfl
@[simp] theorem State.say_turnIdx (s : State) (r : Reply) : (s.say r).turnIdx = s.turnIdx := rfl
@[simp] theorem State.say_freeIdx (s : State) (r : Reply) : (s.say r).freeIdx = s.freeIdx := rfl
@[simp] theorem State.say_stamp (s : State) (r : Reply) : (s.say r).stamp = s.stamp := rfl
@[simp] theorem State.say_issue (s : State) (r : Reply) : (s.say r).issue = s.issue := rfl
@[simp] theorem State.say_core (s : State) (r : Reply) : (s.say r).core = s.core := rfl

/-! ### `setFlue` -/

@[simp] theorem State.setFlue_stage (s : State) (a b : Nat) (x : Flue) : (s.setFlue a b x).stage = s.stage := rfl
@[simp] theorem State.setFlue_halted (s : State) (a b : Nat) (x : Flue) : (s.setFlue a b x).halted = s.halted := rfl
@[simp] theorem State.setFlue_badHearths (s : State) (a b : Nat) (x : Flue) : (s.setFlue a b x).badHearths = s.badHearths := rfl
@[simp] theorem State.setFlue_testMode (s : State) (a b : Nat) (x : Flue) : (s.setFlue a b x).testMode = s.testMode := rfl
@[simp] theorem State.setFlue_testPending (s : State) (a b : Nat) (x : Flue) : (s.setFlue a b x).testPending = s.testPending := rfl
@[simp] theorem State.setFlue_mem (s : State) (a b : Nat) (x : Flue) : (s.setFlue a b x).mem = s.mem := rfl
@[simp] theorem State.setFlue_own (s : State) (a b : Nat) (x : Flue) : (s.setFlue a b x).own = s.own := rfl
@[simp] theorem State.setFlue_uncorr (s : State) (a b : Nat) (x : Flue) : (s.setFlue a b x).uncorr = s.uncorr := rfl
@[simp] theorem State.setFlue_llc (s : State) (a b : Nat) (x : Flue) : (s.setFlue a b x).llc = s.llc := rfl
@[simp] theorem State.setFlue_side (s : State) (a b : Nat) (x : Flue) : (s.setFlue a b x).side = s.side := rfl
@[simp] theorem State.setFlue_flows (s : State) (a b : Nat) (x : Flue) : (s.setFlue a b x).flows = s.flows := rfl
@[simp] theorem State.setFlue_counts (s : State) (a b : Nat) (x : Flue) : (s.setFlue a b x).counts = s.counts := rfl
@[simp] theorem State.setFlue_hits (s : State) (a b : Nat) (x : Flue) : (s.setFlue a b x).hits = s.hits := rfl
@[simp] theorem State.setFlue_islands (s : State) (a b : Nat) (x : Flue) : (s.setFlue a b x).islands = s.islands := rfl
@[simp] theorem State.setFlue_hearths (s : State) (a b : Nat) (x : Flue) : (s.setFlue a b x).hearths = s.hearths := rfl
@[simp] theorem State.setFlue_dies (s : State) (a b : Nat) (x : Flue) : (s.setFlue a b x).dies = s.dies := rfl
@[simp] theorem State.setFlue_remap (s : State) (a b : Nat) (x : Flue) : (s.setFlue a b x).remap = s.remap := rfl
@[simp] theorem State.setFlue_parts (s : State) (a b : Nat) (x : Flue) : (s.setFlue a b x).parts = s.parts := rfl
@[simp] theorem State.setFlue_ctxs (s : State) (a b : Nat) (x : Flue) : (s.setFlue a b x).ctxs = s.ctxs := rfl
@[simp] theorem State.setFlue_purge (s : State) (a b : Nat) (x : Flue) : (s.setFlue a b x).purge = s.purge := rfl
@[simp] theorem State.setFlue_powerSteps (s : State) (a b : Nat) (x : Flue) : (s.setFlue a b x).powerSteps = s.powerSteps := rfl
@[simp] theorem State.setFlue_harts (s : State) (a b : Nat) (x : Flue) : (s.setFlue a b x).harts = s.harts := rfl
@[simp] theorem State.setFlue_ports (s : State) (a b : Nat) (x : Flue) : (s.setFlue a b x).ports = s.ports := rfl
@[simp] theorem State.setFlue_tdisp (s : State) (a b : Nat) (x : Flue) : (s.setFlue a b x).tdisp = s.tdisp := rfl
@[simp] theorem State.setFlue_hosts (s : State) (a b : Nat) (x : Flue) : (s.setFlue a b x).hosts = s.hosts := rfl
@[simp] theorem State.setFlue_rot (s : State) (a b : Nat) (x : Flue) : (s.setFlue a b x).rot = s.rot := rfl
@[simp] theorem State.setFlue_fw (s : State) (a b : Nat) (x : Flue) : (s.setFlue a b x).fw = s.fw := rfl
@[simp] theorem State.setFlue_spdm (s : State) (a b : Nat) (x : Flue) : (s.setFlue a b x).spdm = s.spdm := rfl
@[simp] theorem State.setFlue_outbox (s : State) (a b : Nat) (x : Flue) : (s.setFlue a b x).outbox = s.outbox := rfl
@[simp] theorem State.setFlue_turns (s : State) (a b : Nat) (x : Flue) : (s.setFlue a b x).turns = s.turns := rfl
@[simp] theorem State.setFlue_turnIdx (s : State) (a b : Nat) (x : Flue) : (s.setFlue a b x).turnIdx = s.turnIdx := rfl
@[simp] theorem State.setFlue_freeIdx (s : State) (a b : Nat) (x : Flue) : (s.setFlue a b x).freeIdx = s.freeIdx := rfl
@[simp] theorem State.setFlue_stamp (s : State) (a b : Nat) (x : Flue) : (s.setFlue a b x).stamp = s.stamp := rfl
@[simp] theorem State.setFlue_issue (s : State) (a b : Nat) (x : Flue) : (s.setFlue a b x).issue = s.issue := rfl
@[simp] theorem State.setFlue_core (s : State) (a b : Nat) (x : Flue) : (s.setFlue a b x).core = s.core := rfl

/-! ### `dropFlue` -/

@[simp] theorem State.dropFlue_stage (s : State) (a b : Nat) : (s.dropFlue a b).stage = s.stage := rfl
@[simp] theorem State.dropFlue_halted (s : State) (a b : Nat) : (s.dropFlue a b).halted = s.halted := rfl
@[simp] theorem State.dropFlue_badHearths (s : State) (a b : Nat) : (s.dropFlue a b).badHearths = s.badHearths := rfl
@[simp] theorem State.dropFlue_testMode (s : State) (a b : Nat) : (s.dropFlue a b).testMode = s.testMode := rfl
@[simp] theorem State.dropFlue_testPending (s : State) (a b : Nat) : (s.dropFlue a b).testPending = s.testPending := rfl
@[simp] theorem State.dropFlue_mem (s : State) (a b : Nat) : (s.dropFlue a b).mem = s.mem := rfl
@[simp] theorem State.dropFlue_own (s : State) (a b : Nat) : (s.dropFlue a b).own = s.own := rfl
@[simp] theorem State.dropFlue_uncorr (s : State) (a b : Nat) : (s.dropFlue a b).uncorr = s.uncorr := rfl
@[simp] theorem State.dropFlue_llc (s : State) (a b : Nat) : (s.dropFlue a b).llc = s.llc := rfl
@[simp] theorem State.dropFlue_side (s : State) (a b : Nat) : (s.dropFlue a b).side = s.side := rfl
@[simp] theorem State.dropFlue_flows (s : State) (a b : Nat) : (s.dropFlue a b).flows = s.flows := rfl
@[simp] theorem State.dropFlue_counts (s : State) (a b : Nat) : (s.dropFlue a b).counts = s.counts := rfl
@[simp] theorem State.dropFlue_hits (s : State) (a b : Nat) : (s.dropFlue a b).hits = s.hits := rfl
@[simp] theorem State.dropFlue_islands (s : State) (a b : Nat) : (s.dropFlue a b).islands = s.islands := rfl
@[simp] theorem State.dropFlue_hearths (s : State) (a b : Nat) : (s.dropFlue a b).hearths = s.hearths := rfl
@[simp] theorem State.dropFlue_dies (s : State) (a b : Nat) : (s.dropFlue a b).dies = s.dies := rfl
@[simp] theorem State.dropFlue_remap (s : State) (a b : Nat) : (s.dropFlue a b).remap = s.remap := rfl
@[simp] theorem State.dropFlue_parts (s : State) (a b : Nat) : (s.dropFlue a b).parts = s.parts := rfl
@[simp] theorem State.dropFlue_ctxs (s : State) (a b : Nat) : (s.dropFlue a b).ctxs = s.ctxs := rfl
@[simp] theorem State.dropFlue_purge (s : State) (a b : Nat) : (s.dropFlue a b).purge = s.purge := rfl
@[simp] theorem State.dropFlue_powerSteps (s : State) (a b : Nat) : (s.dropFlue a b).powerSteps = s.powerSteps := rfl
@[simp] theorem State.dropFlue_harts (s : State) (a b : Nat) : (s.dropFlue a b).harts = s.harts := rfl
@[simp] theorem State.dropFlue_ports (s : State) (a b : Nat) : (s.dropFlue a b).ports = s.ports := rfl
@[simp] theorem State.dropFlue_tdisp (s : State) (a b : Nat) : (s.dropFlue a b).tdisp = s.tdisp := rfl
@[simp] theorem State.dropFlue_hosts (s : State) (a b : Nat) : (s.dropFlue a b).hosts = s.hosts := rfl
@[simp] theorem State.dropFlue_rot (s : State) (a b : Nat) : (s.dropFlue a b).rot = s.rot := rfl
@[simp] theorem State.dropFlue_fw (s : State) (a b : Nat) : (s.dropFlue a b).fw = s.fw := rfl
@[simp] theorem State.dropFlue_spdm (s : State) (a b : Nat) : (s.dropFlue a b).spdm = s.spdm := rfl
@[simp] theorem State.dropFlue_outbox (s : State) (a b : Nat) : (s.dropFlue a b).outbox = s.outbox := rfl
@[simp] theorem State.dropFlue_turns (s : State) (a b : Nat) : (s.dropFlue a b).turns = s.turns := rfl
@[simp] theorem State.dropFlue_turnIdx (s : State) (a b : Nat) : (s.dropFlue a b).turnIdx = s.turnIdx := rfl
@[simp] theorem State.dropFlue_freeIdx (s : State) (a b : Nat) : (s.dropFlue a b).freeIdx = s.freeIdx := rfl
@[simp] theorem State.dropFlue_stamp (s : State) (a b : Nat) : (s.dropFlue a b).stamp = s.stamp := rfl
@[simp] theorem State.dropFlue_issue (s : State) (a b : Nat) : (s.dropFlue a b).issue = s.issue := rfl
@[simp] theorem State.dropFlue_core (s : State) (a b : Nat) : (s.dropFlue a b).core = s.core := rfl

/-! ### `setGroup` -/

@[simp] theorem State.setGroup_stage (s : State) (a b : Nat) (x : Group) : (s.setGroup a b x).stage = s.stage := rfl
@[simp] theorem State.setGroup_halted (s : State) (a b : Nat) (x : Group) : (s.setGroup a b x).halted = s.halted := rfl
@[simp] theorem State.setGroup_badHearths (s : State) (a b : Nat) (x : Group) : (s.setGroup a b x).badHearths = s.badHearths := rfl
@[simp] theorem State.setGroup_testMode (s : State) (a b : Nat) (x : Group) : (s.setGroup a b x).testMode = s.testMode := rfl
@[simp] theorem State.setGroup_testPending (s : State) (a b : Nat) (x : Group) : (s.setGroup a b x).testPending = s.testPending := rfl
@[simp] theorem State.setGroup_mem (s : State) (a b : Nat) (x : Group) : (s.setGroup a b x).mem = s.mem := rfl
@[simp] theorem State.setGroup_own (s : State) (a b : Nat) (x : Group) : (s.setGroup a b x).own = s.own := rfl
@[simp] theorem State.setGroup_uncorr (s : State) (a b : Nat) (x : Group) : (s.setGroup a b x).uncorr = s.uncorr := rfl
@[simp] theorem State.setGroup_llc (s : State) (a b : Nat) (x : Group) : (s.setGroup a b x).llc = s.llc := rfl
@[simp] theorem State.setGroup_side (s : State) (a b : Nat) (x : Group) : (s.setGroup a b x).side = s.side := rfl
@[simp] theorem State.setGroup_flows (s : State) (a b : Nat) (x : Group) : (s.setGroup a b x).flows = s.flows := rfl
@[simp] theorem State.setGroup_counts (s : State) (a b : Nat) (x : Group) : (s.setGroup a b x).counts = s.counts := rfl
@[simp] theorem State.setGroup_hits (s : State) (a b : Nat) (x : Group) : (s.setGroup a b x).hits = s.hits := rfl
@[simp] theorem State.setGroup_islands (s : State) (a b : Nat) (x : Group) : (s.setGroup a b x).islands = s.islands := rfl
@[simp] theorem State.setGroup_hearths (s : State) (a b : Nat) (x : Group) : (s.setGroup a b x).hearths = s.hearths := rfl
@[simp] theorem State.setGroup_dies (s : State) (a b : Nat) (x : Group) : (s.setGroup a b x).dies = s.dies := rfl
@[simp] theorem State.setGroup_remap (s : State) (a b : Nat) (x : Group) : (s.setGroup a b x).remap = s.remap := rfl
@[simp] theorem State.setGroup_parts (s : State) (a b : Nat) (x : Group) : (s.setGroup a b x).parts = s.parts := rfl
@[simp] theorem State.setGroup_ctxs (s : State) (a b : Nat) (x : Group) : (s.setGroup a b x).ctxs = s.ctxs := rfl
@[simp] theorem State.setGroup_purge (s : State) (a b : Nat) (x : Group) : (s.setGroup a b x).purge = s.purge := rfl
@[simp] theorem State.setGroup_powerSteps (s : State) (a b : Nat) (x : Group) : (s.setGroup a b x).powerSteps = s.powerSteps := rfl
@[simp] theorem State.setGroup_harts (s : State) (a b : Nat) (x : Group) : (s.setGroup a b x).harts = s.harts := rfl
@[simp] theorem State.setGroup_ports (s : State) (a b : Nat) (x : Group) : (s.setGroup a b x).ports = s.ports := rfl
@[simp] theorem State.setGroup_tdisp (s : State) (a b : Nat) (x : Group) : (s.setGroup a b x).tdisp = s.tdisp := rfl
@[simp] theorem State.setGroup_hosts (s : State) (a b : Nat) (x : Group) : (s.setGroup a b x).hosts = s.hosts := rfl
@[simp] theorem State.setGroup_rot (s : State) (a b : Nat) (x : Group) : (s.setGroup a b x).rot = s.rot := rfl
@[simp] theorem State.setGroup_fw (s : State) (a b : Nat) (x : Group) : (s.setGroup a b x).fw = s.fw := rfl
@[simp] theorem State.setGroup_spdm (s : State) (a b : Nat) (x : Group) : (s.setGroup a b x).spdm = s.spdm := rfl
@[simp] theorem State.setGroup_outbox (s : State) (a b : Nat) (x : Group) : (s.setGroup a b x).outbox = s.outbox := rfl
@[simp] theorem State.setGroup_turns (s : State) (a b : Nat) (x : Group) : (s.setGroup a b x).turns = s.turns := rfl
@[simp] theorem State.setGroup_turnIdx (s : State) (a b : Nat) (x : Group) : (s.setGroup a b x).turnIdx = s.turnIdx := rfl
@[simp] theorem State.setGroup_freeIdx (s : State) (a b : Nat) (x : Group) : (s.setGroup a b x).freeIdx = s.freeIdx := rfl
@[simp] theorem State.setGroup_stamp (s : State) (a b : Nat) (x : Group) : (s.setGroup a b x).stamp = s.stamp := rfl
@[simp] theorem State.setGroup_issue (s : State) (a b : Nat) (x : Group) : (s.setGroup a b x).issue = s.issue := rfl
@[simp] theorem State.setGroup_core (s : State) (a b : Nat) (x : Group) : (s.setGroup a b x).core = s.core := rfl

/-! ### `dropGroup` -/

@[simp] theorem State.dropGroup_stage (s : State) (a b : Nat) : (s.dropGroup a b).stage = s.stage := rfl
@[simp] theorem State.dropGroup_halted (s : State) (a b : Nat) : (s.dropGroup a b).halted = s.halted := rfl
@[simp] theorem State.dropGroup_badHearths (s : State) (a b : Nat) : (s.dropGroup a b).badHearths = s.badHearths := rfl
@[simp] theorem State.dropGroup_testMode (s : State) (a b : Nat) : (s.dropGroup a b).testMode = s.testMode := rfl
@[simp] theorem State.dropGroup_testPending (s : State) (a b : Nat) : (s.dropGroup a b).testPending = s.testPending := rfl
@[simp] theorem State.dropGroup_mem (s : State) (a b : Nat) : (s.dropGroup a b).mem = s.mem := rfl
@[simp] theorem State.dropGroup_own (s : State) (a b : Nat) : (s.dropGroup a b).own = s.own := rfl
@[simp] theorem State.dropGroup_uncorr (s : State) (a b : Nat) : (s.dropGroup a b).uncorr = s.uncorr := rfl
@[simp] theorem State.dropGroup_llc (s : State) (a b : Nat) : (s.dropGroup a b).llc = s.llc := rfl
@[simp] theorem State.dropGroup_side (s : State) (a b : Nat) : (s.dropGroup a b).side = s.side := rfl
@[simp] theorem State.dropGroup_flows (s : State) (a b : Nat) : (s.dropGroup a b).flows = s.flows := rfl
@[simp] theorem State.dropGroup_counts (s : State) (a b : Nat) : (s.dropGroup a b).counts = s.counts := rfl
@[simp] theorem State.dropGroup_hits (s : State) (a b : Nat) : (s.dropGroup a b).hits = s.hits := rfl
@[simp] theorem State.dropGroup_islands (s : State) (a b : Nat) : (s.dropGroup a b).islands = s.islands := rfl
@[simp] theorem State.dropGroup_hearths (s : State) (a b : Nat) : (s.dropGroup a b).hearths = s.hearths := rfl
@[simp] theorem State.dropGroup_dies (s : State) (a b : Nat) : (s.dropGroup a b).dies = s.dies := rfl
@[simp] theorem State.dropGroup_remap (s : State) (a b : Nat) : (s.dropGroup a b).remap = s.remap := rfl
@[simp] theorem State.dropGroup_parts (s : State) (a b : Nat) : (s.dropGroup a b).parts = s.parts := rfl
@[simp] theorem State.dropGroup_ctxs (s : State) (a b : Nat) : (s.dropGroup a b).ctxs = s.ctxs := rfl
@[simp] theorem State.dropGroup_purge (s : State) (a b : Nat) : (s.dropGroup a b).purge = s.purge := rfl
@[simp] theorem State.dropGroup_powerSteps (s : State) (a b : Nat) : (s.dropGroup a b).powerSteps = s.powerSteps := rfl
@[simp] theorem State.dropGroup_harts (s : State) (a b : Nat) : (s.dropGroup a b).harts = s.harts := rfl
@[simp] theorem State.dropGroup_ports (s : State) (a b : Nat) : (s.dropGroup a b).ports = s.ports := rfl
@[simp] theorem State.dropGroup_tdisp (s : State) (a b : Nat) : (s.dropGroup a b).tdisp = s.tdisp := rfl
@[simp] theorem State.dropGroup_hosts (s : State) (a b : Nat) : (s.dropGroup a b).hosts = s.hosts := rfl
@[simp] theorem State.dropGroup_rot (s : State) (a b : Nat) : (s.dropGroup a b).rot = s.rot := rfl
@[simp] theorem State.dropGroup_fw (s : State) (a b : Nat) : (s.dropGroup a b).fw = s.fw := rfl
@[simp] theorem State.dropGroup_spdm (s : State) (a b : Nat) : (s.dropGroup a b).spdm = s.spdm := rfl
@[simp] theorem State.dropGroup_outbox (s : State) (a b : Nat) : (s.dropGroup a b).outbox = s.outbox := rfl
@[simp] theorem State.dropGroup_turns (s : State) (a b : Nat) : (s.dropGroup a b).turns = s.turns := rfl
@[simp] theorem State.dropGroup_turnIdx (s : State) (a b : Nat) : (s.dropGroup a b).turnIdx = s.turnIdx := rfl
@[simp] theorem State.dropGroup_freeIdx (s : State) (a b : Nat) : (s.dropGroup a b).freeIdx = s.freeIdx := rfl
@[simp] theorem State.dropGroup_stamp (s : State) (a b : Nat) : (s.dropGroup a b).stamp = s.stamp := rfl
@[simp] theorem State.dropGroup_issue (s : State) (a b : Nat) : (s.dropGroup a b).issue = s.issue := rfl
@[simp] theorem State.dropGroup_core (s : State) (a b : Nat) : (s.dropGroup a b).core = s.core := rfl

/-! ### Reading back -/

theorem State.stove_setStove (s : State) (n k : Nat) (x : Stove) : (s.setStove n x).stove k = if k = n then x else s.stove k := by
  simp only [State.stove, State.setStove, Tab.getD, Tab.get?_put]
  split <;> rfl

theorem State.hearth_setHearth (s : State) (n k : Nat) (x : Hearth) : (s.setHearth n x).hearth k = if k = n then x else s.hearth k := by
  simp only [State.hearth, State.setHearth, Tab.getD, Tab.get?_put]
  split <;> rfl

theorem State.die_setDie (s : State) (n k : Nat) (x : Die) : (s.setDie n x).die k = if k = n then x else s.die k := by
  simp only [State.die, State.setDie, Tab.getD, Tab.get?_put]
  split <;> rfl

theorem State.hart_setHart (s : State) (n k : Nat) (x : Hart) : (s.setHart n x).hart k = if k = n then x else s.hart k := by
  simp only [State.hart, State.setHart, Tab.getD, Tab.get?_put]
  split <;> rfl

theorem State.part?_setPart (s : State) (n k : Nat) (x : Partition) : (s.setPart n x).part? k = if k = n then some x else s.part? k := by
  simp only [State.part?, State.setPart, Tab.get?_put]

theorem State.ctx?_setCtx (s : State) (n k : Nat) (x : Context) : (s.setCtx n x).ctx? k = if k = n then some x else s.ctx? k := by
  simp only [State.ctx?, State.setCtx, Tab.get?_put]

theorem State.ctx?_modCtx (s : State) (n k : Nat) (f : Context → Context) :
    (s.modCtx n f).ctx? k = if k = n then (s.ctx? n).map f else s.ctx? k := by
  unfold State.modCtx
  cases h : s.ctx? n with
  | none =>
    simp only [Option.map_none]
    split
    · next e => rw [e, h]
    · rfl
  | some c => simp only [State.ctx?_setCtx, Option.map_some]

theorem State.flue?_setFlue (s : State) (a b a' b' : Nat) (x : Flue) :
    (s.setFlue a b x).flue? a' b' = if a' = a ∧ b' = b then some x else s.flue? a' b' := by
  simp only [State.flue?, State.setFlue, State.stove_setStove]
  by_cases h : a' = a
  · subst h
    simp only [if_true, Tab.get?_put, true_and]
  · simp only [h, if_false, false_and]

theorem State.group?_setGroup (s : State) (a b a' b' : Nat) (x : Group) :
    (s.setGroup a b x).group? a' b' = if a' = a ∧ b' = b then some x else s.group? a' b' := by
  simp only [State.group?, State.setGroup, State.stove_setStove]
  by_cases h : a' = a
  · subst h
    simp only [if_true, Tab.get?_put, true_and]
  · simp only [h, if_false, false_and]

theorem State.group?_setFlue (s : State) (a b a' b' : Nat) (x : Flue) : (s.setFlue a b x).group? a' b' = s.group? a' b' := by
  simp only [State.group?, State.setFlue, State.stove_setStove]
  split
  · next e => rw [e]
  · rfl

end Sys2Proof.Machine
end

