-- ==== Sys2Proof/Laws/Memory.lean ====
section
/-! SUPPORT. What the operations over memory do to the bytes of memory: which of them leave it, which write it, and that each keeps its
canonical form. -/

namespace Sys2Proof.Machine

/-! ### Operations that write no byte of memory -/

/-- From one state to another only what follows an access on its way changes: the lines of the LLC with their entries, the counts, the
counters of flows, the copies in the caches of stoves, and the index of free values. -/
def Traffic (s t : State) : Prop :=
  (∃ llc side flows counts hits stoves idx, t = { s with llc := llc, side := side, flows := flows, counts := counts, hits := hits,
                                                         stoves := stoves, freeIdx := idx }) ∧
  ∀ n, ∃ a b, t.stove n = { s.stove n with l1 := a, kcache := b }

theorem Traffic.refl (s : State) : Traffic s s := ⟨⟨_, _, _, _, _, _, _, rfl⟩, fun _ => ⟨_, _, rfl⟩⟩
theorem Traffic.trans {s t u : State} (h : Traffic s t) (h' : Traffic t u) : Traffic s u := by
  refine ⟨?_, fun n => ?_⟩
  · obtain ⟨⟨_, _, _, _, _, _, _, rfl⟩, -⟩ := h
    obtain ⟨⟨_, _, _, _, _, _, _, rfl⟩, -⟩ := h'
    exact ⟨_, _, _, _, _, _, _, rfl⟩
  · obtain ⟨_, _, e⟩ := h.2 n
    obtain ⟨_, _, e'⟩ := h'.2 n
    exact ⟨_, _, by rw [e', e]⟩
theorem Traffic.foldl {α : Type} (k : State → α → State) (h : ∀ s a, Traffic s (k s a)) (l : List α) (s : State) :
    Traffic s (l.foldl k s) := by
  induction l generalizing s with
  | nil => exact .refl s
  | cons a l ih => exact (h s a).trans (ih _)
theorem Traffic.mem {s t : State} (h : Traffic s t) : t.mem = s.mem := by
  obtain ⟨⟨_, _, _, _, _, _, _, rfl⟩, -⟩ := h
  rfl
theorem Traffic.uncorr {s t : State} (h : Traffic s t) : t.uncorr = s.uncorr := by
  obtain ⟨⟨_, _, _, _, _, _, _, rfl⟩, -⟩ := h
  rfl
theorem Traffic.ctx? {s t : State} (h : Traffic s t) (c : Nat) : t.ctx? c = s.ctx? c := by
  obtain ⟨⟨_, _, _, _, _, _, _, rfl⟩, -⟩ := h
  rfl
/-- The writes that a stove has accepted stay. -/
theorem Traffic.posted {s t : State} (h : Traffic s t) (n : Nat) : (t.stove n).posted = (s.stove n).posted := by
  obtain ⟨_, _, e⟩ := h.2 n
  rw [e]
theorem Traffic.flue? {s t : State} (h : Traffic s t) (n k : Nat) : t.flue? n k = s.flue? n k := by
  obtain ⟨_, _, e⟩ := h.2 n
  unfold State.flue?
  rw [e]

theorem State.countN_traffic (s : State) (c code n : Nat) : Traffic s (s.countN c code n) := by
  unfold State.countN
  split
  · exact ⟨⟨_, _, _, _, _, _, _, rfl⟩, fun _ => ⟨_, _, rfl⟩⟩
  · exact .refl s
theorem State.count_traffic (s : State) (c code : Nat) : Traffic s (s.count c code) := s.countN_traffic c code 1
theorem State.sendPacket_traffic (s : State) (c src dst cls : Nat) : Traffic s (s.sendPacket c src dst cls) :=
  Traffic.trans ⟨⟨_, _, _, _, _, _, _, rfl⟩, fun _ => ⟨_, _, rfl⟩⟩ (State.count_traffic ..)
theorem State.exchange_traffic (s : State) (c src dst cls : Nat) : Traffic s (s.exchange c src dst cls) :=
  (s.sendPacket_traffic ..).trans (State.sendPacket_traffic ..)
theorem State.writeBack_traffic (s : State) (line : Nat) (l : LlcLine) : Traffic s (s.writeBack line l) := by
  unfold State.writeBack
  split
  · exact Traffic.trans ⟨⟨_, _, _, _, _, _, _, rfl⟩, fun _ => ⟨_, _, rfl⟩⟩ (State.countN_traffic ..)
  · exact .refl s
theorem State.llcDrop_traffic (s : State) (w : Nat → LlcLine → Bool) : Traffic s (s.llcDrop w) :=
  (Traffic.foldl _ (fun s (x : Nat × LlcLine) => s.writeBack_traffic x.1 x.2) _ s).trans
    ⟨⟨_, _, _, _, _, _, _, rfl⟩, fun _ => ⟨_, _, rfl⟩⟩
theorem State.llcFill_traffic (s : State) (c line src : Nat) : Traffic s (s.llcFill c line src) := by
  have h1 : Traffic s ((s.count c 4).countN c 5 (s.lineBursts line)) := (s.count_traffic c 4).trans (State.countN_traffic ..)
  unfold State.llcFill
  dsimp only
  split
  · exact h1.trans ⟨⟨_, _, _, _, _, _, _, rfl⟩, fun _ => ⟨_, _, rfl⟩⟩
  · exact (h1.trans (State.llcDrop_traffic ..)).trans ⟨⟨_, _, _, _, _, _, _, rfl⟩, fun _ => ⟨_, _, rfl⟩⟩
/-- Caches of stoves lose lines. -/
theorem Traffic.dropLines (s : State) (p q : Nat × Line → Bool) :
    Traffic s { s with stoves := s.stoves.map fun x => (x.1, { x.2 with l1 := x.2.l1.filter p, kcache := x.2.kcache.filter q }) } := by
  refine ⟨⟨_, _, _, _, _, _, _, rfl⟩, fun n => ?_⟩
  refine ⟨(s.stove n).l1.filter p, (s.stove n).kcache.filter q, ?_⟩
  have h := Tab.get?_mapVals (fun x : Stove => { x with l1 := x.l1.filter p, kcache := x.kcache.filter q }) s.stoves n
  simp only [State.stove, Tab.getD, h]
  cases Tab.get? s.stoves n <;> rfl
/-- A lookup at a home slice. -/
theorem State.touch_traffic (s : State) (c line src cls : Nat) : Traffic s (s.touch c line src cls) := by
  have h0 := (s.exchange_traffic c src (portSlice (sliceOf (128 * line))) cls).trans (State.count_traffic _ c 3)
  have hits : ∀ (u : State) h, Traffic u { u with hits := h } := fun u h => ⟨⟨_, _, _, _, _, _, _, rfl⟩, fun _ => ⟨_, _, rfl⟩⟩
  unfold State.touch
  dsimp only
  split
  · split
    · exact h0.trans (hits ..)
    · exact (((h0.trans (State.writeBack_traffic ..)).trans (Traffic.dropLines ..)).trans (State.llcFill_traffic ..)).trans (hits ..)
  · exact (h0.trans (State.llcFill_traffic ..)).trans (hits ..)

@[simp] theorem State.touch_mem (s : State) (c l src cls : Nat) : (s.touch c l src cls).mem = s.mem := (s.touch_traffic ..).mem
@[simp] theorem State.touch_uncorr (s : State) (c l src cls : Nat) : (s.touch c l src cls).uncorr = s.uncorr := (s.touch_traffic ..).uncorr
@[simp] theorem State.count_mem (s : State) (c code : Nat) : (s.count c code).mem = s.mem := (s.count_traffic ..).mem
@[simp] theorem State.countN_mem (s : State) (c code n : Nat) : (s.countN c code n).mem = s.mem := (s.countN_traffic ..).mem
@[simp] theorem State.sendPacket_mem (s : State) (c a b k : Nat) : (s.sendPacket c a b k).mem = s.mem := (s.sendPacket_traffic ..).mem
@[simp] theorem State.exchange_mem (s : State) (c a b k : Nat) : (s.exchange c a b k).mem = s.mem := (s.exchange_traffic ..).mem
@[simp] theorem State.resealed_mem (s : State) (w : Nat → Bool) : (s.resealed w).mem = s.mem := rfl
@[simp] theorem State.rekeyed_mem (s : State) (w : Nat → Bool) : (s.rekeyed w).mem = s.mem := rfl
@[simp] theorem State.markCmp_mem (s : State) (ps : List Nat) (on : Bool) : (s.markCmp ps on).mem = s.mem := rfl
@[simp] theorem State.breakResv_mem (s : State) (l : Nat) : (s.breakResv l).mem = s.mem := rfl
@[simp] theorem State.breakResv_uncorr (s : State) (l : Nat) : (s.breakResv l).uncorr = s.uncorr := rfl
@[simp] theorem State.invalidateL1_mem (s : State) (k : Option Nat) (l : Nat) : (s.invalidateL1 k l).mem = s.mem := rfl
@[simp] theorem State.ownPages_mem (s : State) (ps : List Nat) (c : Nat) (st : OState) : (s.ownPages ps c st).mem = s.mem := rfl

@[simp] theorem State.modCtx_mem (s : State) (c : Nat) (k : Context → Context) : (s.modCtx c k).mem = s.mem := by
  unfold State.modCtx; split <;> rfl

@[simp] theorem State.modFlue_mem (s : State) (a b : Nat) (k : Flue → Flue) : (s.modFlue a b k).mem = s.mem := by
  unfold State.modFlue; split <;> rfl

@[simp] theorem State.setKernel_mem (s : State) (p k : Nat) (x : Kernel) : (s.setKernel p k x).mem = s.mem := by
  unfold State.setKernel; split <;> rfl

@[simp] theorem State.dropKernel_mem (s : State) (p k : Nat) : (s.dropKernel p k).mem = s.mem := by
  unfold State.dropKernel; split <;> rfl

@[simp] theorem State.tick_mem (s : State) : s.tick.mem = s.mem := rfl

@[simp] theorem State.takeBytes_mem (n : Nat) (s : State) : (s.takeBytes n).2.mem = s.mem := by
  induction n generalizing s with
  | zero => rfl
  | succ n ih => simp only [State.takeBytes, ih]

@[simp] theorem State.takeBool_mem (s : State) : s.takeBool.2.mem = s.mem := rfl
@[simp] theorem State.takeFree_mem (s : State) : s.takeFree.2.mem = s.mem := rfl

theorem State.foldl_mem {α : Type} (k : State → α → State) (h : ∀ s a, (k s a).mem = s.mem) (l : List α) (s : State) :
    (l.foldl k s).mem = s.mem := by
  induction l generalizing s with
  | nil => rfl
  | cons a l ih => rw [List.foldl_cons, ih, h]

theorem State.touches_mem (ls : List Nat) (s : State) (c src : Nat) : (ls.foldl (fun s l => s.touch c l src) s).mem = s.mem :=
  State.foldl_mem _ (fun _ _ => State.touch_mem ..) ls s

@[simp] theorem State.translate_mem (s : State) (h : Nat) (st : Option Nat) (c : Nat) (va : DWord) (k : Acc) (d : Bool) :
    (s.translate h st c va k d).2.mem = s.mem := by
  unfold State.translate
  cases st <;> dsimp only <;> repeat' (first | split | rfl | exact State.touches_mem ..)

@[simp] theorem peerSays_mem (k : Acc) (pa : Nat) (s : State) : (peerSays k pa s).2.mem = s.mem := rfl

@[simp] theorem State.breakRange_mem (s : State) (pa n : Nat) : (s.breakRange pa n).mem = s.mem :=
  State.foldl_mem (fun s j => s.breakResv (pa / 128 + j)) (fun _ _ => rfl) _ s

@[simp] theorem State.checkVa_mem (s : State) (st c : Nat) (va : DWord) (k : Acc) (d : Bool) : (s.checkVa st c va k d).2.mem = s.mem := by
  unfold State.checkVa
  dsimp only
  repeat' (first | split | rfl | exact State.translate_mem ..)

@[simp] theorem State.check_mem (s : State) (st : Nat) (f : Flue) (sp : Nat) (ea : DWord) (n : Nat) (k : Acc) (d : Bool) :
    (s.check st f sp ea n k d).2.mem = s.mem := by
  unfold State.check
  dsimp only
  repeat' (first | split | rfl | exact State.checkVa_mem ..)

/-! ### Flits (20 R420-R427) -/

@[simp] theorem State.modPeer_mem (s : State) (c r : Nat) (k : Peer → Peer) : (s.modPeer c r k).mem = s.mem := State.modCtx_mem ..
@[simp] theorem State.setPort_mem (s : State) (n : Nat) (p : Port) : (s.setPort n p).mem = s.mem := rfl
@[simp] theorem State.freeSlots_mem (s : State) (w : Nat × Nat × BitVec 16 → Bool) : (s.freeSlots w).mem = s.mem := rfl
@[simp] theorem State.reserve_mem (s : State) (n : Nat) (x : Sent) : (s.reserve n x).mem = s.mem := by
  unfold State.reserve
  dsimp only
  split
  · rfl
  · exact State.setPort_mem ..
@[simp] theorem State.putFlit_mem (s : State) (n : Nat) (x : Sent) : (s.putFlit n x).mem = s.mem := by
  unfold State.putFlit
  simp only [State.say_mem, State.setPort_mem, State.reserve_mem]
@[simp] theorem State.sendNext_mem (s : State) (n c r : Nat) (o : OutFlit) : (s.sendNext n c r o).mem = s.mem := by
  unfold State.sendNext
  split
  · rfl
  · simp only [State.count_mem, State.putFlit_mem, State.modPeer_mem]
@[simp] theorem State.keyUpdate_mem (s : State) (n c r : Nat) : (s.keyUpdate n c r).mem = s.mem := by
  simp only [State.keyUpdate, State.say_mem, State.modPeer_mem, State.sendNext_mem]
@[simp] theorem State.sendFlit_mem (s : State) (n c r : Nat) (o : OutFlit) : (s.sendFlit n c r o).mem = s.mem := by
  unfold State.sendFlit
  rw [State.sendNext_mem]
  split
  · exact State.keyUpdate_mem ..
  · rfl
@[simp] theorem State.pump_mem (s : State) (c r : Nat) : (s.pump c r).mem = s.mem := by
  have h : ∀ (l : List OutFlit) (k : State × List OutFlit → OutFlit → State × List OutFlit), (∀ a o, (k a o).1.mem = a.1.mem) →
      ∀ a, (l.foldl k a).1.mem = a.1.mem := by
    intro l k hk
    induction l with
    | nil => intro a; rfl
    | cons o l ih => intro a; rw [List.foldl_cons, ih, hk]
  unfold State.pump
  split
  · rfl
  · split
    · rfl
    · simp only [State.modPeer_mem]
      refine h _ _ (fun a o => ?_) _
      split
      · rfl
      · split
        · rfl
        · exact State.sendFlit_mem ..
@[simp] theorem State.request_mem (s : State) (c r : Nat) (vc kind : Byte) (a : Nat) (d : List (List Byte)) :
    (s.request c r vc kind a d).mem = s.mem := by
  simp only [State.request, State.pump_mem, State.modPeer_mem]
@[simp] theorem State.hold_mem (s : State) (c r a : Nat) (k : PostedKind) : (s.hold c r a k).mem = s.mem := by
  simp only [State.hold, State.pump_mem, State.modPeer_mem]
@[simp] theorem State.holdParts_mem (c r n : Nat) : ∀ (s : State) (a : Nat) (bs : List Byte), (s.holdParts c r n a bs).mem = s.mem := by
  induction n with
  | zero => intro s _ _; rfl
  | succ n ih =>
    intro s a bs
    cases bs with
    | nil => rfl
    | cons b bs => rw [State.holdParts, ih, State.hold_mem]
theorem State.toPeer_store (s : State) (c r a : Nat) (bs : List Byte) (src cls : Nat) : s.toPeer c r a (.store bs) src cls =
    ((s.sendPacket c src (s.peerPort c r a) cls).breakRange (peerPa r a) bs.length).holdParts c r bs.length a bs := rfl
theorem State.toPeer_red (s : State) (c r a : Nat) (o : BitVec 3) (ty : Ty) (vs : List DWord) (src cls : Nat) :
    s.toPeer c r a (.red o ty vs) src cls =
    ((s.sendPacket c src (s.peerPort c r a) cls).breakRange (peerPa r a) (atomBytes ty)).hold c r a (.red o ty vs) := rfl
@[simp] theorem State.toPeer_mem (s : State) (c r a : Nat) (k : PostedKind) (src cls : Nat) : (s.toPeer c r a k src cls).mem = s.mem := by
  cases k with
  | store bs => rw [State.toPeer_store, State.holdParts_mem, State.breakRange_mem, State.sendPacket_mem]
  | red o ty vs => rw [State.toPeer_red, State.hold_mem, State.breakRange_mem, State.sendPacket_mem]
@[simp] theorem State.askPeer_mem (s : State) (c r a src cls : Nat) : (s.askPeer c r a src cls).mem = s.mem := by
  simp [State.askPeer]
@[simp] theorem State.readPeer_mem (s : State) (c pa r a n src cls : Nat) : (s.readPeer c pa r a n src cls).2.mem = s.mem :=
  State.askPeer_mem ..

/-! ### Stores outside a region -/

@[simp] theorem State.post_mem (s : State) (st c pa : Nat) (k : PostedKind) : (s.post st c pa k).mem = s.mem := by
  unfold State.post
  split <;> simp

/-- A store outside a region posts its bytes, or writes a shared memory or scratchpad: memory itself waits for the posted write. -/
@[simp] theorem State.storeLoc_mem (s : State) (st : Nat) (f : Flue) (l : Loc) (bs : List Byte) : (s.storeLoc st f l bs).mem = s.mem := by
  unfold State.storeLoc
  cases l with
  | gen pa => simp
  | shr a => dsimp only; split <;> simp
  | scp a => simp

@[simp] theorem State.commitSectors_mem (s : State) (st : Nat) (f : Flue) : (s.commitSectors st f).mem = s.mem :=
  State.foldl_mem _ (fun s _ => State.foldl_mem _ (fun _ _ => State.storeLoc_mem ..) _ s) _ s

@[simp] theorem State.commit_mem (s : State) (a b : Nat) : (s.commit a b).mem = s.mem := by
  unfold State.commit
  split
  · split <;> simp
  · rfl

@[simp] theorem State.discard_mem (s : State) (a b : Nat) : (s.discard a b).mem = s.mem := by
  unfold State.discard
  split
  · split <;> simp
  · rfl

@[simp] theorem State.tileRead_mem (s : State) (c pa n src cls : Nat) : (s.tileRead c pa n src cls).2.mem = s.mem := by
  unfold State.tileRead
  split <;> simp

/-! ### Operations that write memory keep its form -/

/-- From one state to another, memory keeps its canonical form. -/
structure KeepsForm (s t : State) : Prop where
  form : Memory.wf s.mem = true → Memory.wf t.mem = true

theorem KeepsForm.refl (s : State) : KeepsForm s s := ⟨id⟩
theorem KeepsForm.trans {s t u : State} (h : KeepsForm s t) (h' : KeepsForm t u) : KeepsForm s u := ⟨h'.form ∘ h.form⟩
/-- An operation that leaves memory keeps its form. -/
theorem KeepsForm.of_eq {s t : State} (h : t.mem = s.mem) : KeepsForm s t := ⟨fun w => h ▸ w⟩

theorem KeepsForm.foldl {α : Type} (k : State → α → State) (h : ∀ s a, KeepsForm s (k s a)) (l : List α) (s : State) :
    KeepsForm s (l.foldl k s) := by
  induction l generalizing s with
  | nil => exact .refl s
  | cons a l ih => exact (h s a).trans (ih _)

/-! ### Lines that read -/

/-- Only counters change. -/
def Counted (s t : State) : Prop := ∃ flows counts, t = { s with flows := flows, counts := counts }

theorem State.countN_counted (s : State) (c code n : Nat) : Counted s (s.countN c code n) := by
  unfold State.countN
  split <;> exact ⟨_, _, rfl⟩
theorem Counted.trans {s t u : State} (h : Counted s t) (h' : Counted t u) : Counted s u := by
  obtain ⟨_, _, rfl⟩ := h
  obtain ⟨_, _, rfl⟩ := h'
  exact ⟨_, _, rfl⟩
theorem State.sendPacket_counted (s : State) (c src dst cls : Nat) : Counted s (s.sendPacket c src dst cls) :=
  Counted.trans ⟨_, _, rfl⟩ (State.countN_counted ..)
theorem State.exchange_counted (s : State) (c src dst cls : Nat) : Counted s (s.exchange c src dst cls) :=
  (s.sendPacket_counted ..).trans (State.sendPacket_counted ..)

/-- Whether the tag of a line fails depends on memory, the records, the keys, the LLC and the side table. -/
theorem State.tagFails_congr {s t : State} (hm : t.mem = s.mem) (ho : t.own = s.own) (hc : t.ctxs = s.ctxs) (hl : t.llc = s.llc)
    (hs : t.side = s.side) (line : Nat) : t.tagFails line = s.tagFails line := by
  have hk : t.lineKey line = s.lineKey line := by
    unfold State.lineKey State.ownOf State.ctx?
    rw [ho, hc]
  have hf : t.lineForm line = s.lineForm line := by
    unfold State.lineForm State.ownOf
    rw [hm, ho]
  have he : t.sideEntry line = s.sideEntry line := by
    unfold State.sideEntry State.sideText State.ownOf
    rw [hk, hf, ho]
  unfold State.tagFails
  rw [hl, hs, he]
theorem Counted.tagFails {s t : State} (h : Counted s t) (line : Nat) : t.tagFails line = s.tagFails line := by
  obtain ⟨_, _, rfl⟩ := h
  exact State.tagFails_congr rfl rfl rfl rfl rfl line
theorem Counted.llcBad {s t : State} (h : Counted s t) (line : Nat) : t.llcBad line = s.llcBad line := by
  obtain ⟨_, _, rfl⟩ := h
  rfl

/-- A line of the LLC is not read from HBM, so its tag cannot fail. -/
theorem State.tagFails_held (s : State) (line : Nat) (l : LlcLine) (h : Tab.get? s.llc line = some l) : s.tagFails line = false := by
  simp [State.tagFails, h]
theorem State.writeBack_llc (s : State) (line : Nat) (l : LlcLine) : (s.writeBack line l).llc = s.llc := by
  unfold State.writeBack
  split
  · obtain ⟨_, _, e⟩ := State.countN_counted
      { s with side := Tab.put s.side line (if (Tab.get? s.uncorr line).isSome || l.bad then s.sideEntry line ^^^ 1 else s.sideEntry line) }
      l.cid 6 (s.lineBursts line)
    dsimp only
    rw [e]
  · rfl
/-- A line read from HBM fails when it failed before. -/
theorem State.llcFill_llcBad (s : State) (c line src : Nat) :
    (s.llcFill c line src).llcBad line = (s.llcBad line || s.tagFails line) := by
  unfold State.llcFill
  dsimp only
  split <;> simp [State.llcBad, Tab.get?_put]
/-- A lookup of a line that reads finds it reading. -/
theorem State.touch_llcBad (s : State) (c line src cls : Nat) (hl : s.llcBad line = false) (ht : s.tagFails line = false) :
    (s.touch c line src cls).llcBad line = false := by
  have h0 : Counted s ((s.exchange c src (portSlice (sliceOf (128 * line))) cls).count c 3) :=
    (s.exchange_counted ..).trans (State.countN_counted ..)
  have hl0 := (h0.llcBad line).trans hl
  have ht0 := (h0.tagFails line).trans ht
  unfold State.touch
  dsimp only
  split
  · rename_i old e
    split
    · exact hl0
    · refine (State.llcFill_llcBad ..).trans ?_
      have hw := State.writeBack_llc ((s.exchange c src (portSlice (sliceOf (128 * line))) cls).count c 3) line old
      rw [State.tagFails_held _ line old (hw ▸ e), Bool.or_false]
      unfold State.llcBad at hl0 ⊢
      rw [hw]
      exact hl0
  · refine (State.llcFill_llcBad ..).trans ?_
    rw [hl0, ht0]
    rfl

/-! ### Writes at the home slice -/

/-- On a line that reads, a write at the home slice is a write of memory. -/
theorem State.applyAt_mem (s : State) (c pa : Nat) (bs : List Byte) (src cls : Nat) (h : s.bad pa = false) :
    (s.applyAt c pa bs src cls).mem = Memory.write s.mem pa bs := by
  simp only [State.bad, Bool.or_eq_false_iff, Option.isSome_eq_false_iff, Option.isNone_iff_eq_none] at h
  have hb : (Tab.get? (Tab.modify (s.touch c (pa / 128) src cls).llc (pa / 128) fun l => { l with dirty := true }) (pa / 128)).elim
      false LlcLine.bad = false := by
    have := State.touch_llcBad s c (pa / 128) src cls h.1.2 h.2
    unfold State.llcBad at this
    unfold Tab.modify
    cases e : Tab.get? (s.touch c (pa / 128) src cls).llc (pa / 128) with
    | none => simp [e]
    | some l => rw [e] at this; simpa [Tab.get?_put] using this
  have hb' : ((Tab.get? (Tab.modify (s.touch c (pa / 128) src cls).llc (pa / 128) fun l => { l with dirty := true }) (pa / 128)).map
      fun l => l.bad).getD false = false := by
    cases e : Tab.get? (Tab.modify (s.touch c (pa / 128) src cls).llc (pa / 128) fun l => { l with dirty := true }) (pa / 128) with
    | none => rfl
    | some l => rw [e] at hb; exact hb
  have hu : (s.touch c (pa / 128) src cls).uncorr = s.uncorr := State.touch_uncorr ..
  unfold State.applyAt
  simp only [State.breakResv, State.llcBad, hb', hu, h.1.1, Bool.false_eq_true, if_false, State.touch_mem]

theorem State.applyAt_form (s : State) (c pa : Nat) (bs : List Byte) (src cls : Nat) : KeepsForm s (s.applyAt c pa bs src cls) := by
  refine ⟨fun h => ?_⟩
  have hm : ((s.touch c (pa / 128) src cls).breakResv (pa / 128)).mem = s.mem := State.touch_mem ..
  unfold State.applyAt
  dsimp only
  split
  · exact Memory.wf_write _ _ _ (hm ▸ h)
  · split
    · exact Memory.wf_write _ _ _ (hm ▸ h)
    · exact hm ▸ h

theorem State.applyPosted_form (s : State) (st : Nat) (p : Posted) : KeepsForm s (s.applyPosted st p) := by
  unfold State.applyPosted
  dsimp only
  split
  · exact .of_eq (by simp)
  · exact (State.applyAt_form ..).trans (.of_eq rfl)

theorem State.drainPosted_form (s : State) (st : Nat) (w : Posted → Bool) : KeepsForm s (s.drainPosted st w) :=
  KeepsForm.trans (.of_eq (State.setStove_mem ..)) (KeepsForm.foldl _ (fun s p => s.applyPosted_form st p) _ _)

theorem State.release_form (s : State) (st : Nat) : KeepsForm s (s.release st) := s.drainPosted_form st _

theorem State.fetchLine_form (s : State) (st c l : Nat) : KeepsForm s (s.fetchLine st c l).2 := by
  unfold State.fetchLine
  dsimp only
  split
  · exact (State.drainPosted_form ..).trans (.of_eq (State.touch_mem ..))
  · exact .of_eq (State.touch_mem ..)

theorem State.loadL1_form (s : State) (st c pa n : Nat) : KeepsForm s (s.loadL1 st c pa n).2 := by
  have miss : ∀ (u : State) (v : Stove) (k : Nat),
      KeepsForm u { (u.fetchLine st c (pa / 128)).2.setStove st v with freeIdx := k } := fun u v k =>
    (u.fetchLine_form st c (pa / 128)).trans (.of_eq (State.setStove_mem (u.fetchLine st c (pa / 128)).2 st v))
  unfold State.loadL1
  dsimp only
  split
  · exact miss ..
  · split
    · split
      · exact KeepsForm.trans (.of_eq (State.takeBool_mem s)) (miss ..)
      · exact .of_eq (State.takeBool_mem s)
    · exact miss ..

theorem State.loadConst_form (s : State) (st c pa n : Nat) : KeepsForm s (s.loadConst st c pa n).2 := by
  have miss : ∀ (u : State) (v : Stove) (k : Nat),
      KeepsForm u { (u.fetchLine st c (pa / 128)).2.setStove st v with freeIdx := k } := fun u v k =>
    (u.fetchLine_form st c (pa / 128)).trans (.of_eq (State.setStove_mem (u.fetchLine st c (pa / 128)).2 st v))
  unfold State.loadConst
  dsimp only
  split
  · exact miss ..
  · split
    · split
      · exact KeepsForm.trans (.of_eq (State.takeBool_mem s)) (miss ..)
      · exact .of_eq (State.takeBool_mem s)
    · exact miss ..

theorem State.lineFor_form (s : State) (st c seed : Nat) (k : Bool) (l : Nat) : KeepsForm s (s.lineFor st c seed k l).2 := by
  unfold State.lineFor
  split
  · split
    · exact State.loadConst_form ..
    · exact State.loadL1_form ..
  · exact .of_eq (by simp)
  · exact .of_eq (by simp)
  · exact .refl s
theorem readLines_form (k : State → Nat → List Byte × State) (h : ∀ s l, KeepsForm s (k s l).2) :
    ∀ (ls : List Nat) (s : State), KeepsForm s (readLines k ls s).2
  | [], s => .refl s
  | l :: ls, s => (h s l).trans (readLines_form k h ls _)
@[simp] theorem State.scpExchange_mem (s : State) (st c : Nat) (l : Loc) : (s.scpExchange st c l).mem = s.mem := by
  unfold State.scpExchange
  split <;> simp
/-- The reads of one LD or LDC. -/
theorem State.readLanes_form (s : State) (st : Nat) (f : Flue) (k : Bool) (n : Nat) (ls : List (Nat × Loc)) :
    KeepsForm s (s.readLanes st f k n ls).2 :=
  have h : KeepsForm s { s with freeIdx := s.freeIdx + 1 } := ⟨id⟩
  (h.trans (readLines_form (fun t l => t.lineFor st f.cid s.freeIdx k l) (fun _ _ => State.lineFor_form ..) (linesOf ls) _)).trans
    (KeepsForm.foldl _ (fun s (p : Nat × Loc) => .of_eq (s.scpExchange_mem st f.cid p.2)) ls _)

theorem State.tileWriteFuel_form (n : Nat) :
    ∀ (s : State) (c src cls pa : Nat) (bs : List Byte), KeepsForm s (s.tileWriteFuel c src cls n pa bs) := by
  induction n with
  | zero => intro s _ _ _ _ _; exact .refl s
  | succ n ih =>
    intro s c src cls pa bs
    cases bs with
    | nil => exact .refl s
    | cons b bs => exact (State.applyAt_form ..).trans (ih ..)

theorem State.tileWrite_form (s : State) (c pa : Nat) (bs : List Byte) (src cls : Nat) : KeepsForm s (s.tileWrite c pa bs src cls) := by
  unfold State.tileWrite
  split
  · exact State.tileWriteFuel_form ..
  · exact .of_eq (by simp)
  · exact .of_eq (by simp)
  · exact .refl s

theorem State.coreWrite_form (s : State) (c pa : Nat) (bs : List Byte) : KeepsForm s (s.coreWrite c pa bs) := by
  unfold State.coreWrite
  split
  · exact (State.applyAt_form ..).trans (.of_eq (State.invalidateL1_mem ..))
  · exact State.tileWrite_form ..

theorem State.atomLoc_form (s : State) (st : Nat) (f : Flue) (l : Loc) (aop : Nat) (ty : Ty) (b c : DWord) :
    KeepsForm s (s.atomLoc st f l aop ty b c).2 := by
  unfold State.atomLoc
  cases l with
  | gen pa => exact (s.drainPosted_form st _).trans ((State.applyAt_form ..).trans (.of_eq (State.invalidateL1_mem ..)))
  | shr a => exact .of_eq (by simp)
  | scp a => exact .of_eq (by simp)
theorem State.atomLanes_form (st : Nat) (f : Flue) (l : Loc) (aop : Nat) (ty : Ty) :
    ∀ (vs : List (Nat × DWord × DWord)) (s : State), KeepsForm s (s.atomLanes st f l aop ty vs).2
  | [], s => .refl s
  | _ :: vs, s => (s.atomLoc_form ..).trans (State.atomLanes_form st f l aop ty vs _)
/-- The lanes of an ATOM at one location. -/
theorem State.atomAt_form (s : State) (st : Nat) (f : Flue) (aop : Nat) (ty : Ty) (p : Loc × List (Nat × DWord × DWord)) :
    KeepsForm s (s.atomAt st f aop ty p).2 := by
  unfold State.atomAt
  dsimp only
  split
  · split
    · exact State.atomLanes_form ..
    · exact .of_eq (by simp)
    · exact .of_eq (by simp)
    · exact .of_eq rfl
  · exact State.atomLanes_form ..

theorem State.settlePages_form (s : State) (ps : List Nat) : KeepsForm s (s.settlePages ps) :=
  KeepsForm.foldl _ (fun s (x : Nat × Stove) => s.drainPosted_form x.1 _) _ _

theorem Memory.wf_clearAll (ps : List Nat) (m : Memory) (h : Memory.wf m = true) :
    Memory.wf (ps.foldl (fun m p => Memory.clear m (p * 4096) 4096) m) = true := by
  induction ps generalizing m with
  | nil => exact h
  | cons p ps ih => exact ih _ (Memory.wf_clear _ _ _ h)

theorem State.scrubPages_form (s : State) (ps : List Nat) : KeepsForm s (s.scrubPages ps) :=
  ⟨Memory.wf_clearAll ps s.mem⟩

theorem State.freePages_form (s : State) (ps : List Nat) : KeepsForm s (s.freePages ps) :=
  (s.settlePages_form ps).trans ((State.scrubPages_form ..).trans (.of_eq rfl))

theorem State.shootdown_form (s : State) (c va span : Nat) (ps : List Nat) : KeepsForm s (s.shootdown c va span ps) :=
  (s.settlePages_form ps).trans (.of_eq rfl)

end Sys2Proof.Machine
end

