-- ==== Sys2Proof/Laws/Ops.lean ====
section
/-! SUPPORT. What each shared operation on a flue can do, said once: transfers and steps, causes held pending, taking an exception and
returning from one, flags and late results, calls and lower depths. -/

namespace Sys2Proof.Machine

open Sys2Proof.Claims

/-! ### Steps and transfers (05 R108, R111) -/

theorem setPc_only (f : Flue) (m : LaneMask) (pc : DWord) : ∃ p, f.setPc m pc = { f with pc := p } := ⟨_, rfl⟩
theorem clearL_only (f : Flue) (m : LaneMask) : ∃ x t, f.clearL m = { f with l := x, lown := t } := ⟨_, _, rfl⟩

/-- A transfer moves the program counters and clears the latch of its lanes, and changes nothing else. -/
theorem transfer_only (f : Flue) (m : LaneMask) (pc : DWord) : ∃ p x t, f.transfer m pc = { f with pc := p, l := x, lown := t } :=
  ⟨_, _, _, rfl⟩
theorem pcOf_clearL (f : Flue) (m : LaneMask) (l : Nat) : (f.clearL m).pcOf l = f.pcOf l := rfl
theorem pcOf_transfer (f : Flue) (m : LaneMask) (pc : DWord) (l : Nat) :
    (f.transfer m pc).pcOf l = if l < 32 ∧ m.getLsbD l = true then pc else f.pcOf l := by
  unfold Flue.transfer
  rw [pcOf_clearL, pcOf_setPc]
theorem get_l_transfer (f : Flue) (m : LaneMask) (pc : DWord) (l : Nat) :
    SMap.get (f.transfer m pc).l l = if l < 32 ∧ m.getLsbD l = true then 0#32 else SMap.get f.l l := by
  unfold Flue.transfer
  exact get_clearL (f.setPc m pc) m l

/-- `finish` moves program counters and nothing else. -/
theorem finish_only (f : Flue) (i : Issue) (stay : LaneMask) : ∃ p, f.finish i stay = { f with pc := p } := by
  unfold Flue.finish
  split <;> exact setPc_only ..
/-- The lanes of the group step past but those that stay; in handler mode all of them step past. -/
theorem pcOf_finish (f : Flue) (i : Issue) (stay : LaneMask) (l : Nat) (hl : l < 32) :
    (f.finish i stay).pcOf l =
      if i.lanes.getLsbD l = true ∧ (f.phase = .handler ∨ stay.getLsbD l = false) then i.next else f.pcOf l := by
  unfold Flue.finish
  split
  · rename_i h
    rw [pcOf_setPc]
    simp [hl, h]
  · rename_i h
    rw [pcOf_setPc]
    simp [hl, h]

/-- The latch after a change of groups (05 R111). -/
theorem settle_only (f g : Flue) : ∃ x t, Flue.settle f g = { g with l := x, lown := t } := ⟨_, _, rfl⟩
theorem get_l_settle (f g : Flue) (l : Nat) (hl : l < 32) :
    SMap.get (Flue.settle f g).l l =
      if g.eligible.getLsbD l = true ∧ g.groupOf l ≠ f.groupOf l then 0#32 else SMap.get g.l l := by
  unfold Flue.settle
  rw [get_clearL, maskOf_getLsbD]
  simp [hl]

/-! ### Causes (13 R299, R300) -/

/-- Holding a cause changes the pending causes and nothing else. -/
theorem pend_only (f : Flue) (c : Nat) (m : LaneMask) (a r : DWord) (code : Byte) (args : SMap 32) :
    ∃ t, f.pend c m a r code args = { f with pending := t } := by
  unfold Flue.pend
  split
  · exact ⟨f.pending, rfl⟩
  · split <;> exact ⟨_, rfl⟩
theorem pend_none (f : Flue) (c : Nat) (a r : DWord) (code : Byte) (args : SMap 32) : f.pend c 0 a r code args = f := by
  unfold Flue.pend
  exact if_pos rfl
/-- A cause that is new is held with its lanes and addresses. -/
theorem pend_new (f : Flue) (c : Nat) (m : LaneMask) (a r : DWord) (code : Byte) (args : SMap 32) (hm : m ≠ 0)
    (h : Tab.get? f.pending c = none) : Tab.get? (f.pend c m a r code args).pending c = some ⟨m, a, r, code, args, a⟩ := by
  unfold Flue.pend
  rw [if_neg hm, h]
  exact Tab.get?_put_same ..
/-- A cause that is pending takes up the lanes and keeps its addresses. -/
theorem pend_again (f : Flue) (c : Nat) (m : LaneMask) (a r : DWord) (code : Byte) (args : SMap 32) (p : Pending) (hm : m ≠ 0)
    (h : Tab.get? f.pending c = some p) :
    ∃ q, Tab.get? (f.pend c m a r code args).pending c = some q ∧ q.lanes = p.lanes ||| m ∧ q.faddr = p.faddr ∧ q.resume = p.resume := by
  unfold Flue.pend
  rw [if_neg hm, h]
  exact ⟨_, Tab.get?_put_same .., rfl, rfl, rfl⟩
/-- The other causes stay as they are. -/
theorem pend_other (f : Flue) (c : Nat) (m : LaneMask) (a r : DWord) (code : Byte) (args : SMap 32) (j : Nat) (h : j ≠ c) :
    Tab.get? (f.pend c m a r code args).pending j = Tab.get? f.pending j := by
  unfold Flue.pend
  split
  · rfl
  · split <;> exact Tab.get?_put_other _ _ h
theorem raise_only (f : Flue) (i : Issue) (c : Nat) (m : LaneMask) : ∃ t, f.raise i c m = { f with pending := t } := pend_only ..
theorem raise_none (f : Flue) (i : Issue) (c : Nat) : f.raise i c 0 = f := pend_none ..

/-- Taking an exception (13 R301): everything that it changes. -/
theorem deliver_eq (f : Flue) (handler : DWord) (c : Nat) (p : Pending) (rest : Tab Pending) (h : f.pending = (c, p) :: rest) :
    ∃ pc hf, f.deliver handler = { f with pending := rest, cause := causeWord c p.code rest, clanes := p.lanes, faddr := p.faddr, hpc := p.resume,
                                          hpcWritten := false, hframe := hf, l := [], lown := [], phase := .handler, call := none,
                                          preempt := f.preempt && f.sliceEnd, pc := pc } ∧
      (c ≠ cTRAPI → hf = []) ∧ ∀ l < 32, (f.deliver handler).pcOf l = if p.lanes.getLsbD l = true then handler else f.pcOf l := by
  unfold Flue.deliver
  rw [h]
  refine ⟨_, _, rfl, fun hc => if_neg hc, fun l hl => ?_⟩
  unfold Flue.pcOf
  simp only
  rw [SMap.get_setAll_map (lanesOf p.lanes) (fun _ => handler) f.pc l]
  simp only [mem_lanesOf, hl, true_and]

theorem place_eq (f : Flue) (m : LaneMask) (pc : DWord) :
    f.place m pc = { f with pc := (f.setPc m pc).pc, later := f.later.filter fun t => !m.getLsbD t.1,
                            clauses := leaveAll f.clauses (f.phase == .handler) m } := rfl
/-- Lanes that resume (13 R304): program counters, steps that were kept for them, the clauses that they are in and the region-restart mask
change, nothing else. -/
theorem resume_only (f : Flue) : ∃ p t m c, f.resume = { f with pc := p, later := t, restart := m, clauses := c } := by
  unfold Flue.resume
  exact ⟨_, _, _, _, rfl⟩
/-- The return with no cause pending (11 R266). -/
theorem rth_quiet (f : Flue) (handler : DWord) (h : f.pending = []) :
    f.rth handler = { f.resume with rvs := [], flags := [], phase := .run, restart := 0, l := [], lown := [] } := by
  obtain ⟨p, t, m, c, e⟩ := resume_only f
  unfold Flue.rth
  rw [e]
  simp only [h]

/-! ### Flags and late results (03 R70-R72) -/

theorem setFlag_only (f : Flue) (fl : Option Nat) : ∃ x, f.setFlag fl = { f with flags := x } := by
  cases fl
  · exact ⟨f.flags, rfl⟩
  · exact ⟨_, rfl⟩
theorem clearFlag_only (f : Flue) (fl : Option Nat) : ∃ x, f.clearFlag fl = { f with flags := x } := by
  cases fl
  · exact ⟨f.flags, rfl⟩
  · exact ⟨_, rfl⟩
theorem get_setFlag (f : Flue) (fl : Option Nat) (k : Nat) :
    SMap.get (f.setFlag fl).flags k = SMap.get f.flags k + if fl = some k then 1 else 0 := by
  cases fl with
  | none => simp [Flue.setFlag]
  | some n =>
    unfold Flue.setFlag
    simp only
    rw [SMap.get_set]
    by_cases h : k = n
    · subst h
      simp
    · simp [h, Ne.symm h]
theorem get_clearFlag (f : Flue) (fl : Option Nat) (k : Nat) :
    SMap.get (f.clearFlag fl).flags k = SMap.get f.flags k - if fl = some k then 1 else 0 := by
  cases fl with
  | none => simp [Flue.clearFlag]
  | some n =>
    unfold Flue.clearFlag
    simp only
    rw [SMap.get_set]
    by_cases h : k = n
    · subst h
      simp
    · simp [h, Ne.symm h]
theorem await_none (f : Flue) (i : Issue) (x : FSel) (ws : List LaneWrite) : f.await i x 0 ws = f := by
  unfold Flue.await
  exact if_pos rfl
/-- Who reaches the latch after an instruction claims it (05 R111). -/
theorem get_claimLatch (f : Flue) (seed : Nat) (ws : List LaneWrite) (l : Nat) :
    Tab.get? (f.claimLatch seed ws).lown l =
      if (ws.any fun w => w.toLatch && w.lane == l) = true then some seed else Tab.get? f.lown l := by
  have key : ∀ (us : List LaneWrite) (t : Tab Nat), Tab.get? (us.foldl (fun t w => Tab.put t w.lane seed) t) l =
      if (us.any fun w => w.lane == l) = true then some seed else Tab.get? t l := by
    intro us
    induction us with
    | nil => intro t; simp
    | cons u us ih =>
      intro t
      rw [List.foldl_cons, ih, Tab.get?_put, List.any_cons]
      by_cases h1 : (us.any fun w => w.lane == l) = true
      · simp [h1]
      · by_cases h2 : l = u.lane
        · subst h2; simp
        · have : (u.lane == l) = false := by simpa using fun e : u.lane = l => h2 e.symm
          simp [h1, h2, this]
  unfold Flue.claimLatch
  simp only
  rw [key, List.any_filter]

/-- An acting instruction whose result comes later has one result outstanding, under its flag or holding its group, and its elements
are the ones that the latches of their lanes take. -/
theorem await_some (f : Flue) (i : Issue) (x : FSel) (m : LaneMask) (ws : List LaneWrite) (ps : List PeerLane) (hm : m ≠ 0) :
    ∃ fl lo, f.await i x m ws ps = { f with
        flags := fl, lown := lo,
        outs := f.outs ++ [{ flag := i.flag x, held := if x = .none then i.lanes else 0, writes := ws, seed := i.seed, peers := ps }] } ∧
      (∀ k, SMap.get fl k = SMap.get f.flags k + if i.flag x = some k then 1 else 0) ∧
      ∀ l, Tab.get? lo l = if (ws.any fun w => w.toLatch && w.lane == l) = true then some i.seed else Tab.get? f.lown l := by
  have e : (i.flag x).isNone = decide (x = .none) := by cases x <;> rfl
  obtain ⟨y, hy⟩ := setFlag_only f (i.flag x)
  refine ⟨y, (f.claimLatch i.seed ws).lown, ?_, fun k => by rw [← get_setFlag, hy], get_claimLatch f i.seed ws⟩
  unfold Flue.await
  rw [if_neg hm]
  simp only [hy, e, decide_eq_true_eq]
  rfl

/-! ### Calls and lower depths (05 R114-R116) -/

/-- A call pushes one frame of the demand, and moves the callers and the others. -/
theorem callNow_only (f : Flue) (c : FrameCall) : ∃ p d x t, f.callNow c =
    { f with pc := p, depth := d, l := x, lown := t, phase := .run, call := none, nextUid := f.nextUid + 1,
             frames := f.frames ++ [{ uid := f.nextUid, demand := c.demand, ret := c.ret }] } := ⟨_, _, _, _, rfl⟩
theorem pcOf_callNow (f : Flue) (c : FrameCall) (l : Nat) (hl : l < 32) :
    (f.callNow c).pcOf l = if c.others.getLsbD l = true then c.ret else if c.movers.getLsbD l = true then SMap.get c.targets l else f.pcOf l := by
  unfold Flue.callNow
  simp only
  rw [pcOf_clearL, pcOf_setPc]
  unfold Flue.pcOf
  simp only
  rw [SMap.get_setAll_map (lanesOf c.movers) (fun l => SMap.get c.targets l) f.pc l]
  simp only [mem_lanesOf, hl, true_and]
theorem dropLanes_only (f : Flue) (m : LaneMask) (n : Nat) :
    ∃ p d x t u c, f.dropLanes m n = { f with pc := p, depth := d, l := x, lown := t, later := u, clauses := c } := ⟨_, _, _, _, _, _, rfl⟩
theorem pcOf_dropLanes (f : Flue) (m : LaneMask) (n l : Nat) :
    (f.dropLanes m n).pcOf l = if l < 32 ∧ m.getLsbD l = true then (f.frames.getD (n + 1) {}).ret else f.pcOf l := pcOf_transfer ..
theorem depthOf_dropLanes (f : Flue) (m : LaneMask) (n l : Nat) (hn : n < 256) :
    (f.dropLanes m n).depthOf l = if l < 32 ∧ m.getLsbD l = true then n else f.depthOf l := by
  unfold Flue.dropLanes Flue.depthOf
  simp only
  rw [SMap.get_setAll_map (lanesOf m) (fun _ => BitVec.ofNat 8 n) f.depth l]
  simp only [mem_lanesOf]
  split
  · rw [BitVec.toNat_ofNat, Nat.mod_eq_of_lt (by omega)]
  · rfl

end Sys2Proof.Machine
end

