-- ==== Sys2Proof/Laws/PerInstr.lean ====
section
/-! SUPPORT. The family `Code` of statements about every instruction as syntax: the row that an instruction is encoded under gives
the instruction back, and an event row has no words. -/

namespace Sys2Proof.Laws.Code

/-- The instruction is the one that its row and arguments stand for. -/
def Statement (i : Instr) : Prop :=
  match i.code with
  | .long r x => r.instr x = i
  | .short r x => r.instr x = i
  | .control r x => r.instr x = i
  | .system r x => r.instr x = i
  | .enclave f x => encode i = [encEnclave f x]
  | .event => encode i = []

theorem clauseIssue (r : FlueRef) (pc : BitVec 64) : Statement (.clauseIssue r pc) := rfl
theorem pcGroupPromotion (r : FlueRef) (pc : BitVec 64) : Statement (.pcGroupPromotion r pc) := rfl
theorem iadd (x : LArgs) : Statement (.iadd x) := rfl
theorem iaddI32Short (x : SArgs) : Statement (.iaddI32Short x) := rfl
theorem isub (x : LArgs) : Statement (.isub x) := rfl
theorem isubI32Short (x : SArgs) : Statement (.isubI32Short x) := rfl
theorem imul (x : LArgs) : Statement (.imul x) := rfl
theorem imulI32Short (x : SArgs) : Statement (.imulI32Short x) := rfl
theorem imulh (x : LArgs) : Statement (.imulh x) := rfl
theorem imad (x : LArgs) : Statement (.imad x) := rfl
theorem imadw (x : LArgs) : Statement (.imadw x) := rfl
theorem ineg (x : LArgs) : Statement (.ineg x) := rfl
theorem iabs (x : LArgs) : Statement (.iabs x) := rfl
theorem imin (x : LArgs) : Statement (.imin x) := rfl
theorem iminI32Short (x : SArgs) : Statement (.iminI32Short x) := rfl
theorem imax (x : LArgs) : Statement (.imax x) := rfl
theorem imaxI32Short (x : SArgs) : Statement (.imaxI32Short x) := rfl
theorem andBits (x : LArgs) : Statement (.andBits x) := rfl
theorem andShort (x : SArgs) : Statement (.andShort x) := rfl
theorem orBits (x : LArgs) : Statement (.orBits x) := rfl
theorem orShort (x : SArgs) : Statement (.orShort x) := rfl
theorem xorBits (x : LArgs) : Statement (.xorBits x) := rfl
theorem xorShort (x : SArgs) : Statement (.xorShort x) := rfl
theorem andn (x : LArgs) : Statement (.andn x) := rfl
theorem andnShort (x : SArgs) : Statement (.andnShort x) := rfl
theorem notBits (x : LArgs) : Statement (.notBits x) := rfl
theorem shl (x : LArgs) : Statement (.shl x) := rfl
theorem shlShort (x : SArgs) : Statement (.shlShort x) := rfl
theorem shr (x : LArgs) : Statement (.shr x) := rfl
theorem shrShort (x : SArgs) : Statement (.shrShort x) := rfl
theorem sar (x : LArgs) : Statement (.sar x) := rfl
theorem sarShort (x : SArgs) : Statement (.sarShort x) := rfl
theorem rotl (x : LArgs) : Statement (.rotl x) := rfl
theorem bfx (x : LArgs) : Statement (.bfx x) := rfl
theorem bfi (x : LArgs) : Statement (.bfi x) := rfl
theorem popc (x : LArgs) : Statement (.popc x) := rfl
theorem clz (x : LArgs) : Statement (.clz x) := rfl
theorem brev (x : LArgs) : Statement (.brev x) := rfl
theorem lea (x : LArgs) : Statement (.lea x) := rfl
theorem leaShort (x : SArgs) : Statement (.leaShort x) := rfl
theorem mov (x : LArgs) : Statement (.mov x) := rfl
theorem movShort (x : SArgs) : Statement (.movShort x) := rfl
theorem sel (x : LArgs) : Statement (.sel x) := rfl
theorem icmp (x : LArgs) : Statement (.icmp x) := rfl
theorem fadd (x : LArgs) : Statement (.fadd x) := rfl
theorem faddF32Short (x : SArgs) : Statement (.faddF32Short x) := rfl
theorem faddF16x2Short (x : SArgs) : Statement (.faddF16x2Short x) := rfl
theorem faddBf16x2Short (x : SArgs) : Statement (.faddBf16x2Short x) := rfl
theorem fsub (x : LArgs) : Statement (.fsub x) := rfl
theorem fsubF32Short (x : SArgs) : Statement (.fsubF32Short x) := rfl
theorem fmul (x : LArgs) : Statement (.fmul x) := rfl
theorem fmulF32Short (x : SArgs) : Statement (.fmulF32Short x) := rfl
theorem fmulF16x2Short (x : SArgs) : Statement (.fmulF16x2Short x) := rfl
theorem fmulBf16x2Short (x : SArgs) : Statement (.fmulBf16x2Short x) := rfl
theorem ffma (x : LArgs) : Statement (.ffma x) := rfl
theorem fmin (x : LArgs) : Statement (.fmin x) := rfl
theorem fminF32Short (x : SArgs) : Statement (.fminF32Short x) := rfl
theorem fmax (x : LArgs) : Statement (.fmax x) := rfl
theorem fmaxF32Short (x : SArgs) : Statement (.fmaxF32Short x) := rfl
theorem fcmp (x : LArgs) : Statement (.fcmp x) := rfl
theorem fclass (x : LArgs) : Statement (.fclass x) := rfl
theorem frnd (x : LArgs) : Statement (.frnd x) := rfl
theorem fcvt (x : LArgs) : Statement (.fcvt x) := rfl
theorem icvtf (x : LArgs) : Statement (.icvtf x) := rfl
theorem fcvti (x : LArgs) : Statement (.fcvti x) := rfl
theorem fdot2 (x : LArgs) : Statement (.fdot2 x) := rfl
theorem fscale (x : LArgs) : Statement (.fscale x) := rfl
theorem cvtn (x : LArgs) : Statement (.cvtn x) := rfl
theorem cvtw (x : LArgs) : Statement (.cvtw x) := rfl
theorem bscale (x : LArgs) : Statement (.bscale x) := rfl
theorem pack (x : LArgs) : Statement (.pack x) := rfl
theorem packI4x (x : LArgs) : Statement (.packI4x x) := rfl
theorem unpack (x : LArgs) : Statement (.unpack x) := rfl
theorem resrd (x : LArgs) : Statement (.resrd x) := rfl
theorem reswr (x : LArgs) : Statement (.reswr x) := rfl
theorem rcp (x : LArgs) : Statement (.rcp x) := rfl
theorem rsq (x : LArgs) : Statement (.rsq x) := rfl
theorem sqrt (x : LArgs) : Statement (.sqrt x) := rfl
theorem fdiv (x : LArgs) : Statement (.fdiv x) := rfl
theorem exp2 (x : LArgs) : Statement (.exp2 x) := rfl
theorem log2 (x : LArgs) : Statement (.log2 x) := rfl
theorem sin (x : LArgs) : Statement (.sin x) := rfl
theorem cos (x : LArgs) : Statement (.cos x) := rfl
theorem tanh (x : LArgs) : Statement (.tanh x) := rfl
theorem gori2 (x : LArgs) : Statement (.gori2 x) := rfl
theorem gori3 (x : LArgs) : Statement (.gori3 x) := rfl
theorem ginc (x : LArgs) : Statement (.ginc x) := rfl
theorem gins (x : LArgs) : Statement (.gins x) := rfl
theorem gsegx (x : LArgs) : Statement (.gsegx x) := rfl
theorem geomEscalationComplete (stove : Nat) : Statement (.geomEscalationComplete stove) := rfl
theorem plop (x : LArgs) : Statement (.plop x) := rfl
theorem pmovGet (x : LArgs) : Statement (.pmovGet x) := rfl
theorem pmovSet (x : LArgs) : Statement (.pmovSet x) := rfl
theorem pcnt (x : LArgs) : Statement (.pcnt x) := rfl
theorem pmask (x : LArgs) : Statement (.pmask x) := rfl
theorem mpred (x : LArgs) : Statement (.mpred x) := rfl
theorem peek (x : LArgs) : Statement (.peek x) := rfl
theorem vote (x : LArgs) : Statement (.vote x) := rfl
theorem voteBal (x : LArgs) : Statement (.voteBal x) := rfl
theorem matchLanes (x : LArgs) : Statement (.matchLanes x) := rfl
theorem redux (x : LArgs) : Statement (.redux x) := rfl
theorem scan (x : LArgs) : Statement (.scan x) := rfl
theorem conv (x : LArgs) : Statement (.conv x) := rfl
theorem rendezvousResultWrite (r : FlueRef) (pc : BitVec 64) : Statement (.rendezvousResultWrite r pc) := rfl
theorem bra (x : CArgs) : Statement (.bra x) := rfl
theorem bru (x : CArgs) : Statement (.bru x) := rfl
theorem jmpi (x : CArgs) : Statement (.jmpi x) := rfl
theorem call (x : CArgs) : Statement (.call x) := rfl
theorem calli (x : CArgs) : Statement (.calli x) := rfl
theorem ret (x : CArgs) : Statement (.ret x) := rfl
theorem unwind (x : CArgs) : Statement (.unwind x) := rfl
theorem spawn (x : CArgs) : Statement (.spawn x) := rfl
theorem join (x : CArgs) : Statement (.join x) := rfl
theorem bar (x : CArgs) : Statement (.bar x) := rfl
theorem bara (x : CArgs) : Statement (.bara x) := rfl
theorem barw (x : CArgs) : Statement (.barw x) := rfl
theorem yield (x : CArgs) : Statement (.yield x) := rfl
theorem exitLanes (x : CArgs) : Statement (.exitLanes x) := rfl
theorem nop (x : CArgs) : Statement (.nop x) := rfl
theorem tilerel (x : CArgs) : Statement (.tilerel x) := rfl
theorem launch (x : CArgs) : Statement (.launch x) := rfl
theorem commit (x : CArgs) : Statement (.commit x) := rfl
theorem ld (x : LArgs) : Statement (.ld x) := rfl
theorem st (x : LArgs) : Statement (.st x) := rfl
theorem ldc (x : LArgs) : Statement (.ldc x) := rfl
theorem atom (x : LArgs) : Statement (.atom x) := rfl
theorem red (x : LArgs) : Statement (.red x) := rfl
theorem fence (x : LArgs) : Statement (.fence x) := rfl
theorem pfenceGen (x : LArgs) : Statement (.pfenceGen x) := rfl
theorem pfenceConst (x : LArgs) : Statement (.pfenceConst x) := rfl
theorem pfenceTile (x : LArgs) : Statement (.pfenceTile x) := rfl
theorem pref (x : LArgs) : Statement (.pref x) := rfl
theorem cinv (x : LArgs) : Statement (.cinv x) := rfl
theorem awset (x : LArgs) : Statement (.awset x) := rfl
theorem awwait (x : LArgs) : Statement (.awwait x) := rfl
theorem awadd (x : LArgs) : Statement (.awadd x) := rfl
theorem awwaitReturn (r : FlueRef) (lane : Nat) : Statement (.awwaitReturn r lane) := rfl
theorem postedWriteApply (stove idx : Nat) : Statement (.postedWriteApply stove idx) := rfl
theorem tidset (x : LArgs) : Statement (.tidset x) := rfl
theorem tidclr (x : LArgs) : Statement (.tidclr x) := rfl
theorem tcopy (x : LArgs) : Statement (.tcopy x) := rfl
theorem gather (x : LArgs) : Statement (.gather x) := rfl
theorem scatter (x : LArgs) : Statement (.scatter x) := rfl
theorem stream (x : LArgs) : Statement (.stream x) := rfl
theorem collAllred (x : LArgs) : Statement (.collAllred x) := rfl
theorem collRedsc (x : LArgs) : Statement (.collRedsc x) := rfl
theorem collAllga (x : LArgs) : Statement (.collAllga x) := rfl
theorem collA2a (x : LArgs) : Statement (.collA2a x) := rfl
theorem collBcast (x : LArgs) : Statement (.collBcast x) := rfl
theorem waitc (x : LArgs) : Statement (.waitc x) := rfl
theorem ectlStat (x : LArgs) : Statement (.ectlStat x) := rfl
theorem ectlClr (x : LArgs) : Statement (.ectlClr x) := rfl
theorem ectlCncl (x : LArgs) : Statement (.ectlCncl x) := rfl
theorem ectlCnt (x : LArgs) : Statement (.ectlCnt x) := rfl
theorem engineUnitComplete (r : FlueRef) (cls : EngClass) (peers : List (Nat × List Byte)) : Statement (.engineUnitComplete r cls peers) := rfl
theorem engineOperationComplete (r : FlueRef) (cls : EngClass) (ext : EngStatus) : Statement (.engineOperationComplete r cls ext) := rfl
theorem gang (x : LArgs) : Statement (.gang x) := rfl
theorem osclaim (x : LArgs) : Statement (.osclaim x) := rfl
theorem osrel (x : LArgs) : Statement (.osrel x) := rfl
theorem mma (x : LArgs) : Statement (.mma x) := rfl
theorem mmaH (x : LArgs) : Statement (.mmaH x) := rfl
theorem mmas (x : LArgs) : Statement (.mmas x) := rfl
theorem mmab (x : LArgs) : Statement (.mmab x) := rfl
theorem accz (x : LArgs) : Statement (.accz x) := rfl
theorem accld (x : LArgs) : Statement (.accld x) := rfl
theorem accst (x : LArgs) : Statement (.accst x) := rfl
theorem accmvRd (x : LArgs) : Statement (.accmvRd x) := rfl
theorem accmvWr (x : LArgs) : Statement (.accmvWr x) := rfl
theorem trap (x : YArgs) : Statement (.trap x) := rfl
theorem rth (x : YArgs) : Statement (.rth x) := rfl
theorem syscall (x : YArgs) : Statement (.syscall x) := rfl
theorem syscallResult (part seq : Nat) (val : Word) : Statement (.syscallResult part seq val) := rfl
theorem rdsr (x : YArgs) : Statement (.rdsr x) := rfl
theorem rdsrCyclo (x : YArgs) : Statement (.rdsrCyclo x) := rfl
theorem wrsr (x : YArgs) : Statement (.wrsr x) := rfl
theorem wrsrYdl (x : YArgs) : Statement (.wrsrYdl x) := rfl
theorem bkpt (x : YArgs) : Statement (.bkpt x) := rfl
theorem causeDelivery (r : FlueRef) : Statement (.causeDelivery r) := rfl
theorem handlerTimeout (r : FlueRef) : Statement (.handlerTimeout r) := rfl
theorem frameGrant (stove : Nat) : Statement (.frameGrant stove) := rfl
theorem refillComplete (r : FlueRef) : Statement (.refillComplete r) := rfl
theorem escapeSpillStart (stove : Nat) : Statement (.escapeSpillStart stove) := rfl
theorem escapeSpillFrameDone (stove : Nat) : Statement (.escapeSpillFrameDone stove) := rfl
theorem flueDrainComplete (r : FlueRef) : Statement (.flueDrainComplete r) := rfl
theorem flueRecall (stove group gflue : Nat) : Statement (.flueRecall stove group gflue) := rfl
theorem sliceEnd (part : Nat) : Statement (.sliceEnd part) := rfl
theorem yieldDeadlineExpiry (r : FlueRef) : Statement (.yieldDeadlineExpiry r) := rfl
theorem slotPreemption (part : Nat) : Statement (.slotPreemption part) := rfl
theorem wholeGroupSwitchOut (stove group : Nat) : Statement (.wholeGroupSwitchOut stove group) := rfl
theorem stovePop (stove : Nat) : Statement (.stovePop stove) := rfl
theorem affinityLapse (part kslot entry : Nat) : Statement (.affinityLapse part kslot entry) := rfl
theorem gridRecordFormation (part kslot : Nat) : Statement (.gridRecordFormation part kslot) := rfl
theorem kernelTake (cid q : Nat) : Statement (.kernelTake cid q) := rfl
theorem kernelStart (part kslot : Nat) : Statement (.kernelStart part kslot) := rfl
theorem kernelRetire (part kslot : Nat) : Statement (.kernelRetire part kslot) := rfl
theorem kick (cid q : Nat) (tail : Word) : Statement (.kick cid q tail) := rfl
theorem queueReset (cid q : Nat) (val : Word) : Statement (.queueReset cid q val) := rfl
theorem kickPageIgnoredWrite (cid q off size : Nat) (val : BitVec 64) : Statement (.kickPageIgnoredWrite cid q off size val) := rfl
theorem queueBind (cid q : Nat) : Statement (.queueBind cid q) := rfl
theorem queueUnbind (cid q : Nat) : Statement (.queueUnbind cid q) := rfl
theorem watchdogExpiry (cid q : Nat) : Statement (.watchdogExpiry cid q) := rfl
theorem grant (cid : Nat) (mask : BitVec 64) : Statement (.grant cid mask) := rfl
theorem encnew (x : RArgs) : Statement (.encnew x) := rfl
theorem encin (x : RArgs) : Statement (.encin x) := rfl
theorem encout (x : RArgs) : Statement (.encout x) := rfl
theorem encsealSeal (x : RArgs) : Statement (.encsealSeal x) := rfl
theorem encsealUnseal (x : RArgs) : Statement (.encsealUnseal x) := rfl
theorem encsealDestroy (x : RArgs) : Statement (.encsealDestroy x) := rfl
theorem threadHostInterrupt (hart : Nat) : Statement (.threadHostInterrupt hart) := rfl
theorem networkTagFailure (p : Packet) : Statement (.networkTagFailure p) := rfl
theorem mapPage (c : Caller) : Statement (.mapPage c) := rfl
theorem unmap (c : Caller) : Statement (.unmap c) := rfl
theorem protect (c : Caller) : Statement (.protect c) := rfl
theorem freePage (c : Caller) : Statement (.freePage c) := rfl
theorem sharePage (c : Caller) : Statement (.sharePage c) := rfl
theorem unshare (c : Caller) : Statement (.unshare c) := rfl
theorem attach (c : Caller) : Statement (.attach c) := rfl
theorem walk (c : Caller) : Statement (.walk c) := rfl
theorem demandZeroFill (cid : Nat) (va : BitVec 64) (stove : Nat) : Statement (.demandZeroFill cid va stove) := rfl
theorem pageMigration (cid : Nat) (va : BitVec 64) (frame : Nat) : Statement (.pageMigration cid va frame) := rfl
theorem pageout (cid : Nat) (va : BitVec 64) : Statement (.pageout cid va) := rfl
theorem pagein (cid : Nat) (img : SealedImage) : Statement (.pagein cid img) := rfl
theorem hostWrite (req : HostReq) (bytes : List Byte) : Statement (.hostWrite req bytes) := rfl
theorem hostRead (req : HostReq) (len : Nat) : Statement (.hostRead req len) := rfl
theorem deviceDma (port iface : Nat) (dma : Dma) : Statement (.deviceDma port iface dma) := rfl
theorem tdispBind (port iface cid index : Nat) (ownerSession : Bool) : Statement (.tdispBind port iface cid index ownerSession) := rfl
theorem flitReceive (port : Nat) (flit : Flit) : Statement (.flitReceive port flit) := rfl
theorem keyUpdate (cid roster : Nat) : Statement (.keyUpdate cid roster) := rfl
theorem keyingComplete (cid roster : Nat) (peer : PeerId) : Statement (.keyingComplete cid roster peer) := rfl
theorem keyingTimeout (cid roster : Nat) : Statement (.keyingTimeout cid roster) := rfl
theorem keyingRetry (cid roster : Nat) : Statement (.keyingRetry cid roster) := rfl
theorem peerReset (cid roster : Nat) : Statement (.peerReset cid roster) := rfl
theorem readmit (cid roster : Nat) (meash : BitVec 128) (ownerSession : Bool) : Statement (.readmit cid roster meash ownerSession) := rfl
theorem getVersion (conn : Nat) : Statement (.getVersion conn) := rfl
theorem getCapabilities (conn : Nat) (caps : Word) : Statement (.getCapabilities conn caps) := rfl
theorem negotiateAlgorithms (conn : Nat) (offer : SpdmAlgs) : Statement (.negotiateAlgorithms conn offer) := rfl
theorem getDigests (conn : Nat) : Statement (.getDigests conn) := rfl
theorem getCertificate (conn off len : Nat) : Statement (.getCertificate conn off len) := rfl
theorem challenge (conn : Nat) (nonce : BitVec 256) (cid : Nat) : Statement (.challenge conn nonce cid) := rfl
theorem getMeasurements (conn cid : Nat) : Statement (.getMeasurements conn cid) := rfl
theorem keyExchange (conn : Nat) (share : List Byte) : Statement (.keyExchange conn share) := rfl
theorem finish (conn : Nat) (verify : List Byte) : Statement (.finish conn verify) := rfl
theorem keyUpdateRequest (conn : Nat) : Statement (.keyUpdateRequest conn) := rfl
theorem endSession (conn : Nat) : Statement (.endSession conn) := rfl
theorem pmuForward (cid : Nat) : Statement (.pmuForward cid) := rfl
theorem formPartition (part : Nat) (spec : PartSpec) : Statement (.formPartition part spec) := rfl
theorem partitionTestComplete (part : Nat) (failed : Bool) : Statement (.partitionTestComplete part failed) := rfl
theorem drainPartition (part : Nat) : Statement (.drainPartition part) := rfl
theorem drainComplete (part : Nat) : Statement (.drainComplete part) := rfl
theorem resetComplete (part : Nat) (failed : Bool) : Statement (.resetComplete part failed) := rfl
theorem setclk (part hearth mhz : Nat) : Statement (.setclk part hearth mhz) := rfl
theorem powerExcessPredicted : Statement (.powerExcessPredicted) := rfl
theorem powerRecoveryStep : Statement (.powerRecoveryStep) := rfl
theorem junctionOvertemp (die : Nat) : Statement (.junctionOvertemp die) := rfl
theorem thermalReturnStep (die : Nat) : Statement (.thermalReturnStep die) := rfl
theorem thermalTrip : Statement (.thermalTrip) := rfl
theorem packageReset : Statement (.packageReset) := rfl
theorem stageComplete (rep : StageReport) : Statement (.stageComplete rep) := rfl
theorem stageTimeout (rep : StageReport) : Statement (.stageTimeout rep) := rfl
theorem heartbeatTimeout : Statement (.heartbeatTimeout) := rfl
theorem serviceMachineCheck : Statement (.serviceMachineCheck) := rfl
theorem recover : Statement (.recover) := rfl
theorem lockstepMismatch : Statement (.lockstepMismatch) := rfl
theorem recoveryTimeout : Statement (.recoveryTimeout) := rfl
theorem firmwareLoad (fw : FwImage) : Statement (.firmwareLoad fw) := rfl
theorem testmode (sig : List Byte) : Statement (.testmode sig) := rfl
theorem instructionComplete (r : FlueRef) (idx : Nat) : Statement (.instructionComplete r idx) := rfl
theorem applicationCoreAccess (hart : Nat) (op : CoreOp) : Statement (.applicationCoreAccess hart op) := rfl
theorem threadFault (hart : Nat) : Statement (.threadFault hart) := rfl
theorem hearthVoltageSettled (hearth : Nat) : Statement (.hearthVoltageSettled hearth) := rfl
theorem cidPurgeComplete (cid : Nat) : Statement (.cidPurgeComplete cid) := rfl

end Sys2Proof.Laws.Code
end

