-- ==== Sys2Proof/Tests/Slice0.lean ====
section
/-! SUPPORT. Tests of the model against values of the spec, and witnesses of the statements' hypotheses. Every expected word and value
is the spec's own (the place stands in each comment), or worked from its tables by hand. -/

namespace Sys2Proof.Tests

open Sys2Proof.Machine Sys2Proof.Claims

-- One theorem at a time: the evaluations below need much memory side by side.
set_option Elab.async false

/-! ### Terms -/

/-- A long instruction with no guard, no flag, RM and MODX zero. -/
def long (d a b c : Opnd) (ty : Ty := .b32) (modx : BitVec 11 := 0) (lit : Option Word := none) : LArgs :=
  { guard := ⟨false, 0⟩, d := d, a := a, b := b, c := c, f := .none, ty := ty, rm := .rne, modx := modx, lit := lit }
/-- A control instruction with no guard. -/
def ctl (d a b : Opnd) (ofs : BitVec 22 := 0) (lit : Option Word := none) : CArgs :=
  { guard := ⟨false, 0⟩, d := d, a := a, b := b, dem := 0, ofs := ofs, lit := lit }
/-- A system instruction with no guard. -/
def sys (d a b : Opnd) (idx : BitVec 16) (lit : Option Word := none) : YArgs :=
  { guard := ⟨false, 0⟩, d := d, a := a, b := b, idx := idx, lit := lit }
/-- A short instruction with no guard. -/
def short (d a b : Opnd) : SArgs := { guard := ⟨false, 0⟩, d := d, a := a, b := b }

/-! ### Decoding: the words that the spec writes out, family by family -/

-- 06, after R138: `(p1) ICMP.I32.LT.OR p3, p5, v4, 100, p2`.
theorem test_decode_icmp : decodeWords [0x86C20C24#32, 0xFE084125#32, 0x64#32] = .ok (.icmp
    { long (.pred 3) (.v 4) .lit (.cond .lt) .i32 0x125 (some 100) with guard := ⟨false, 1⟩ }, []) := rfl
-- 07, after R157: `CVTN.E4M3.SAT.B2.EF v6, v4, s3, v6, e1`.
theorem test_decode_cvtn : decodeWords [0x8C001820#32, 0xA6196A68#32] = .ok (.cvtn
    { long (.v 6) (.v 4) (.s 3) (.v 6) .f32 0x268 with rm := .ef }, []) := rfl
-- 26: `GORI2.F64 v8, s8, o0`, `GINC.F64.TB v11, s16, o0`, `ICVTF.F64.I32 s18, s6`.
theorem test_decode_gori2 : decodeWords [0x940022C0#32, 0x81C58000#32] = .ok (.gori2 (long (.v 8) (.s 8) (.o 0) .zero .f64), []) := rfl
theorem test_decode_ginc : decodeWords [0x94802F00#32, 0x81C58001#32] = .ok (.ginc (long (.v 11) (.s 16) (.o 0) .zero .f64 1), []) := rfl
theorem test_decode_icvtf : decodeWords [0x8A818AB0#32, 0xE3C58001#32] = .ok (.icvtf (long (.s 18) (.s 6) .zero .zero .f64 1), []) := rfl
-- 08, after R183: `PEEK.B32.XOR v7, v2, 16, s6`; 24: `MATCH.B32.ANY v7, v1, s5`; 26: `CONV 0xFFFF_FFFF`.
theorem test_decode_peek : decodeWords [0x9C001C14#32, 0xFF580003#32, 0x10#32] = .ok (.peek
    (long (.v 7) (.v 2) .lit (.s 6) .b32 3 (some 16)), []) := rfl
theorem test_decode_match : decodeWords [0x9C801C08#32, 0xE3540000#32] = .ok (.matchLanes (long (.v 7) (.v 1) .zero (.s 5)), []) := rfl
theorem test_decode_conv : decodeWords [0x9D41C78C#32, 0xE3FC0000#32, 0xFFFFFFFF#32] = .ok (.conv
    (long .zero .zero .zero .lit .b32 0 (some 0xFFFFFFFF#32)), []) := rfl
-- 24: `(p3) BRU next`, `BAR 0, zero`.
theorem test_decode_bru : decodeWords [0xC047C788#32, 0xE23FFFFE#32] = .ok (.bru
    { ctl .zero .zero .zero 0x3FFFFE#22 with guard := ⟨false, 3⟩ }, []) := rfl
theorem test_decode_bar : decodeWords [0xC241C788#32, 0xE2000000#32] = .ok (.bar (ctl .zero .zero .zero), []) := rfl
-- 09, after R208: `LD.GEN.B32.ACQ.PART.fa v4, v2, 0x40`; 24: `(p1) ATOM.SHR.Z32.ADD zero, v10, v9`, `(p5) RED.GEN.Z32.ADD v12, v14`.
theorem test_decode_ld : decodeWords [0xA0001015#32, 0xFFC400A8#32, 0x40#32] = .ok (.ld
    { long (.v 4) (.v 2) .lit .zero .b32 0xA8 (some 0x40) with f := .a }, []) := rfl
theorem test_decode_atom : decodeWords [0xA0C3C450#32, 0x13C48002#32] = .ok (.atom
    { long .zero (.v 10) (.v 9) .zero .z32 2 with guard := ⟨false, 1⟩ }, []) := rfl
theorem test_decode_red : decodeWords [0xA10BC460#32, 0x1DC48000#32] = .ok (.red
    { long .zero (.v 12) (.v 14) .zero .z32 with guard := ⟨false, 5⟩ }, []) := rfl
-- 25: `GANG 0xF`, `(p10) TCOPY.DS.AW s12, s13, s16`, `WAITC.MX 0`, `ACCST s24, 2, s16`, `COLL.ALLRED.SUM.X s10, s11, s8`.
theorem test_decode_gang : decodeWords [0xB001C7FC#32, 0xE3C40000#32, 0xF#32] = .ok (.gang
    (long .zero .lit .zero .zero .b32 0 (some 0xF)), []) := rfl
theorem test_decode_tcopy : decodeWords [0xA895C6E0#32, 0xBB800006#32] = .ok (.tcopy
    { long .zero (.s 12) (.s 13) (.s 16) .b32 6 with guard := ⟨false, 10⟩ }, []) := rfl
theorem test_decode_waitc : decodeWords [0xA9C1C788#32, 0xE3C40001#32] = .ok (.waitc (long .zero .zero .zero .zero .b32 1), []) := rfl
theorem test_decode_accst : decodeWords [0xB201C744#32, 0xFF800000#32, 0x2#32] = .ok (.accst
    (long .zero (.s 24) .lit (.s 16) .b32 0 (some 2)), []) := rfl
theorem test_decode_coll : decodeWords [0xA981C6D0#32, 0xB7600020#32] = .ok (.collAllred
    (long .zero (.s 10) (.s 11) (.s 8) .b32 0x20), []) := rfl
-- 10, after R263: `MMA.E4M3.E4M3.H s8, s9, s10`; 25: `MMA.I4X.E4M3.H.Z s24, s25, s26`.
theorem test_decode_mma_h : decodeWords [0xB0C1C6C0#32, 0xB3680080#32] = .ok (.mmaH (long .zero (.s 8) (.s 9) (.s 10) .b32 0x80), []) := rfl
theorem test_decode_mma_i4x : decodeWords [0xB0C1C740#32, 0xD3A80185#32] = .ok (.mmaH
    (long .zero (.s 24) (.s 25) (.s 26) .b32 0x185), []) := rfl
-- 11, after R266 and R272: `TRAP 7, v3`, `WRSR sr.fpmode, 2`.
theorem test_decode_trap : decodeWords [0xD001C418#32, 0xE2000007#32] = .ok (.trap (sys .zero (.v 3) .zero 7), []) := rfl
theorem test_decode_wrsr : decodeWords [0xD101C7FC#32, 0xE2000014#32, 0x2#32] = .ok (.wrsr
    (sys .zero .lit .zero 0x14 (some 2)), []) := rfl
-- 04: short `FMUL.F32 v2, v0, v1`.
theorem test_decode_short_fmul : decodeWords [0x1E008001#32] = .ok (.fmulF32Short (short (.v 2) (.v 0) (.v 1)), []) := rfl
-- 14 R333, bit by bit: funct7 0, rs2, rs1, funct3, rd, opcode 0b0001011. ENCIN x5, x6, x7 and ENCSEAL with rs2 holding 2.
theorem test_decode_encin : decodeEnclave 0 0b0000000_00111_00110_001_00101_0001011#32 = .ok (.encin ⟨5, 6, 7⟩) := rfl
theorem test_decode_destroy : decodeEnclave 2 0b0000000_00111_00110_011_00101_0001011#32 = .ok (.encsealDestroy ⟨5, 6, 7⟩) := rfl

/-! ### Ill-formed terms, one for each check -/

theorem test_wf_truncated : decodeWords [0xB001C7FC#32, 0xE3C40000#32] = .error .truncated := rfl
theorem test_wf_unassigned : decodeWords [0x8DC00C00#32, 0xE3C40000#32] = .error .unassignedOpcode := rfl
theorem test_wf_short_unassigned : decodeWords [0x2E001000#32] = .error .unassignedShort := rfl
-- F = 11 in a long instruction (03 R59).
theorem test_wf_reserved_f : decodeWords [0xA0001013#32, 0xE3C40008#32] = .error .reservedF := rfl
theorem test_wf_flag : LRow.iadd.check { long (.v 1) (.v 2) (.v 3) .zero .i32 with f := .a } = some .flagNotAllowed := by decide
-- A destination that is a source specifier (03 R62), and an odd register for a pair (R63).
theorem test_wf_operand : LRow.iadd.check (long .lane (.v 2) (.v 3) .zero .i32) = some (.operand .d) := by decide
theorem test_wf_pair : LRow.iadd.check (long (.v 2) (.v 3) (.v 4) .zero .i64) = some (.operand .a) := by decide
theorem test_wf_literal : LRow.iadd.check (long (.v 1) .lit (.v 3) .zero .i32) = some .literalPairing := by decide
theorem test_wf_scalar : LRow.iadd.check (long (.s 1) (.v 2) (.s 3) .zero .i32) = some .scalarDest := by decide
theorem test_wf_same_predicate : LRow.icmp.check (long (.pred 3) (.v 2) (.v 3) (.cond .eq) .i32 3) = some .samePredicate := by decide
theorem test_wf_type : LRow.iadd.check (long (.v 1) (.v 2) (.v 3) .zero .f32) = some .badTy := by decide
theorem test_wf_rounding : LRow.fadd.check { long (.v 1) (.v 2) (.v 3) .zero .f32 with rm := .ef } = some .badRm := by decide
theorem test_wf_modx : LRow.iadd.check (long (.v 1) (.v 2) (.v 3) .zero .i32 2) = some .badModx := by decide
theorem test_wf_barrier : CRow.bar.check (ctl .zero .zero .zero 16) = some .badControl := by decide
theorem test_wf_system : YRow.trap.check (sys .zero (.v 3) .zero 256) = some .badSystem := by decide
theorem test_wf_enclave : decodeEnclave 0 0b0000001_00111_00110_001_00101_0001011#32 = .error .notEnclave := rfl
theorem test_wf_instr : (Instr.iadd (long (.v 1) (.v 2) (.v 3) .zero .f32)).wf = false ∧
    (Instr.iadd (long (.v 1) (.v 2) (.v 3) .zero .i32)).wf = true := by decide
-- 04, the line at 0x7F40_3000: with COUNT 2 the long instruction runs past its clause, and its word 0 is the first fault.
theorem test_clause_fault : bodyFault 0x07F80003#32 8 15 1 [0x1E008001#32, 0x8DC00C00#32, 0xE3C40000#32] = some 2 ∧
    bodyFault 0x07F80053#32 8 15 1 [0x1E008001#32, 0x8DC00C00#32, 0xE3C40000#32] = some 1 ∧
    bodyFault 0x07F80002#32 8 15 1 [0x1E008001#32, 0x8DC00C00#32] = some 2 := by decide

-- 14, after R334: `ENCIN a0, a1, a2` is the word 0x00C5_950B.
theorem test_decode_encin_word : decodeEnclave 0 0x00C5950B#32 = .ok (.encin ⟨10, 11, 12⟩) := rfl

/-! ### Small states -/

/-- A flue of four live lanes whose group stands at 0x1_0004, with given registers. -/
def flueOf (regs : SMap 32) : Flue :=
  { cid := 1, live := 0xF#32, frames := [{ uid := 0, demand := 16, regs := regs }], pc := (List.range 4).map fun l => (l, 0x10004#64) }
/-- An issue of the four lanes, its clause at 0x1_0000. -/
def issueOf (f : Flue) : Issue := ⟨0, 0, 0xF#32, 0x10004#64, 0x1000C#64, 0x10000#64, 0x07F80002#32, true, 0, f⟩
/-- One flue in slot 0 of stove 0, its group, kernel, partition and context, with a burner issuing to it. -/
def stateOf (f : Flue) : State :=
  { State.reset with
    stage := 6
    stoves := [(0, { flues := [(0, f)], groups := [(0, { cid := 1, sharedSize := 64, nflue := 1, accN := 64 })] })]
    remap := [(0, ⟨0, 0⟩)]
    parts := [(0, { state := .running, hearths := [0], kernels := [(0, { cid := 1, state := .running, launch := { flues := 1, demand := 16, privsz := 64 } })] })]
    ctxs := [(1, { state := .running })]
    issue := some (issueOf f) }
/-- A flue with a zeroed frame. -/
def wf0 : Flue := flueOf []
/-- The state around it. -/
def ws0 : State := stateOf wf0
theorem issuing0 : Issuing ws0 (issueOf wf0) wf0 := ⟨rfl, rfl⟩
theorem stands0 : FrameStands (issueOf wf0) wf0 := fun _ => rfl

/-- What an instruction leaves in `v1` of lane 0 when `v2`, `v3`, `v4` of every lane hold three words. -/
def v1After (ins : Instr) (a b c : Word) : Option Word :=
  let f := flueOf ((List.range 4).foldl (fun m l => SMap.set (SMap.set (SMap.set m (64 + l) a) (96 + l) b) (128 + l) c) [])
  match exec ins (stateOf f) with
  | .next t => (t.flue? 0 0).map fun g => g.readLoc (.v 0 1) 0
  | _ => none
/-- `D` v1, sources v2, v3, v4. -/
def vec (ty : Ty) (modx : BitVec 11 := 0) : LArgs := long (.v 1) (.v 2) (.v 3) .zero ty modx
/-- `D` v1, sources v2, v3. -/
def vec3 (ty : Ty) (modx : BitVec 11 := 0) : LArgs := long (.v 1) (.v 2) (.v 3) (.v 4) ty modx

/-! ### Values: the tables after R135 -/

theorem test_iadd_sat : v1After (.iadd (vec .i8x4 1)) 0x7F800102 0x0180FF01 0 = some 0x7F800003 := by decide +kernel
theorem test_iadd_wraps : v1After (.iadd (vec .i8x4)) 0x7F800102 0x0180FF01 0 = some 0x80000003 := by decide +kernel
theorem test_imulh_signed : v1After (.imulh (vec .i32)) 0x80000000 2 0 = some 0xFFFFFFFF := by decide +kernel
theorem test_imulh_unsigned : v1After (.imulh (vec .z32)) 0x80000000 2 0 = some 1 := by decide +kernel
theorem test_shl_beyond : v1After (.shl (vec .b32)) 1 40 0 = some 0 := by decide +kernel
theorem test_sar_beyond : v1After (.sar (vec .b32)) 0x80000000 40 0 = some 0xFFFFFFFF := by decide +kernel
theorem test_rotl : v1After (.rotl (vec .b32)) 0x80000001 33 0 = some 3 := by decide +kernel
theorem test_bfx_signed : v1After (.bfx (vec .i32)) 0x80000000 0x081C 0 = some 0xFFFFFFF8 := by decide +kernel
theorem test_bfx_unsigned : v1After (.bfx (vec .z32)) 0x80000000 0x081C 0 = some 8 := by decide +kernel
theorem test_bfi : v1After (.bfi (vec3 .b32)) 0xFF 0x0404 0x12345678 = some 0x123456F8 := by decide +kernel
-- R141: FMIN of −0 and +0; R34 and R69: RUP of 1 + 2^-30.
theorem test_fmin_zero : v1After (.fmin (vec .f32)) 0x80000000 0 0 = some 0x80000000 := by decide +kernel
theorem test_fadd_rup : v1After (.fadd { vec .f32 with rm := .rup }) 0x3F800000 0x30800000 0 = some 0x3F800001 := by decide +kernel
-- The line after R157: 2.125 / 2.0 narrowed to E4M3 is 1.0 in byte 2 of 0x1122_3344.
theorem test_cvtn : v1After (.cvtn { vec3 .f32 0x268 with rm := .ef }) 0x40080000 0x40000000 0x11223344 = some 0x11383344 := by decide +kernel


/-! ### Witnesses: states and operands that meet the hypotheses of the statements -/

/-- A state built around a flue issues to it. -/
theorem issuing_of (f : Flue) : Issuing (stateOf f) (issueOf f) f := ⟨rfl, rfl⟩
/-- One operand. -/
def un (ty : Ty) (modx : BitVec 11 := 0) : LArgs := long (.v 1) (.v 2) .zero .zero ty modx
/-- A predicate pair. -/
def cmp (ty : Ty) (c : Cond) : LArgs := long (.pred 1) (.v 2) (.v 3) (.cond c) ty 2

theorem witness_encodings : (Instr.iadd (vec .i32)).wf = true ∧ (encode (.iadd (vec .i32))).length = 2 ∧
    (Instr.encin ⟨10, 11, 12⟩).wf = true ∧ (Instr.encin ⟨10, 11, 12⟩).code = .enclave 1 ⟨10, 11, 12⟩ := ⟨rfl, rfl, rfl, rfl⟩
theorem witness_integer_rows : (∀ r ∈ [LRow.iadd, .isub, .imul, .imulh, .imad, .imin, .imax], r.check (vec .i32) = none) ∧
    (∀ r ∈ [LRow.ineg, .iabs], r.check (un .i32) = none) ∧ LRow.imadw.check (long (.v 6) (.v 2) (.v 3) (.v 8) .i32) = none := by decide
theorem witness_logic_rows : (∀ r ∈ [LRow.andBits, .orBits, .xorBits, .andn, .shl, .shr, .sar, .rotl], r.check (vec .b32) = none) ∧
    ∀ r ∈ [LRow.notBits, .brev, .mov], r.check (un .b32) = none := by decide
theorem witness_field_rows : LRow.bfx.check (vec .i32) = none ∧ LRow.bfi.check (vec3 .b32) = none ∧ LRow.popc.check (un .b32) = none ∧
    LRow.clz.check (un .b32) = none ∧ LRow.lea.check (vec .b32) = none ∧ LRow.sel.check (vec .b32 3) = none := by decide
theorem witness_short_rows : SRow.iaddI32Short.check (short (.v 1) (.v 2) (.v 3)) = none ∧ SRow.movShort.check (short (.v 1) (.v 2) .zero) = none ∧
    SRow.fmulF16x2Short.check (short (.v 1) (.v 2) (.v 3)) = none := by decide
theorem witness_compare_rows : LRow.icmp.check (cmp .i32 .lt) = none ∧ LRow.fcmp.check (cmp .f32 .uno) = none ∧
    (fp32.decode 0x7FC00000).isNan = true ∧ (fp32.decode 0).isNan = false := by decide +kernel
theorem witness_predicate_rows : LRow.pmovGet.check (long (.v 1) .zero .zero .zero) = none ∧
    (∀ r ∈ [LRow.pcnt, .pmask], r.check (long (.v 1) (.pred 2) .zero .zero) = none) ∧
    LRow.mpred.check (long (.pred 1) (.s 2) .zero .zero .b32 2) = none ∧ (Opnd.s 1).isScalar = true := by decide
theorem witness_float_rows : (∀ r ∈ [LRow.fadd, .fsub, .fmul, .fmin, .fmax], r.check (vec .f32) = none) ∧ LRow.ffma.check (vec3 .f32) = none := by decide
theorem witness_convert_rows : LRow.fclass.check (un .f32) = none ∧ LRow.frnd.check (un .f32) = none ∧ LRow.fscale.check (vec .f32) = none ∧
    LRow.fdot2.check (vec3 .f16x2) = none ∧ LRow.fcvt.check (un .f32 6) = none ∧ LRow.icvtf.check (un .f32 1) = none ∧
    LRow.fcvti.check (un .i32 5) = none := by decide
theorem witness_narrow_rows : LRow.cvtn.check { vec3 .f32 0x268 with rm := .ef } = none ∧ LRow.cvtw.check (vec .f32) = none ∧
    LRow.bscale.check (un .f32) = none ∧ LRow.pack.check (vec .b32 2) = none ∧ LRow.resrd.check (long (.v 1) .zero .zero .zero) = none ∧
    LRow.packI4x.check (un .b32 5) = none ∧ LRow.unpack.check (un .b32 5) = none := by decide
theorem witness_special_rows : (∀ r ∈ [LRow.rcp, .rsq, .exp2, .log2, .sin, .cos, .tanh, .sqrt], r.check (un .f32) = none) ∧
    LRow.fdiv.check (vec .f32) = none := by decide
theorem witness_special_values : ∀ m ∈ [fp64, fp32, fp16, bf16], (m.decode m.nan).isNan = true ∧ m.decode m.inf = .inf false ∧
    m.decode (2 ^ (m.width - 1) + m.inf) = .inf true ∧ (m.decode (2 ^ (m.width - 1))).isZero = true ∧
    (m.decode (2 ^ (m.width - 1) + 1)).isZero = false ∧ (m.decode (2 ^ (m.width - 1) + 1)).negSign = true := by decide +kernel
theorem witness_geometry_rows : ∀ r ∈ [LRow.gori2, .gori3, .ginc, .gins, .gsegx], r.check (vec .f32) = none := by decide

/-! #### Chapter 8 -/

/-- Two known values of one thing are equal. -/
theorem eq_of_some {α : Type} {o : Option α} {a b : α} (ha : o = some a) (hb : o = some b) : a = b := Option.some.inj (ha.symm.trans hb)

/-- Lanes 0 to 3 in the group; `s5` is a mask, `p2` holds in lanes 0 and 2. -/
def crossFlue (live mask : Word) : Flue :=
  { flueOf [(64, 5), (65, 6), (66, 7), (67, 5), (96, 1), (97, 2), (98, 3)] with
    live := live, s := SMap.set [(2, 3)] 5 mask, p := [(2, 5)] }
/-- A rendezvous that is complete. -/
def doneRv : Rendezvous := { pc := 0x10004#64, depth := 0, next := 0x1000C#64, mask := 0xF#32, members := [(0, {}), (1, {}), (2, {}), (3, {})],
                             done := true, writes := [⟨.v 0 1, 0, 9, true⟩] }
def crossArgs : List (LRow × LArgs) := [(.peek, long (.v 1) (.v 2) (.v 3) (.s 5)), (.vote, long (.pred 3) (.pred 2) .zero (.s 5)),
  (.voteBal, long (.v 1) (.pred 2) .zero (.s 5) .b32 3), (.matchLanes, long (.v 1) (.v 2) .zero (.s 5)),
  (.redux, long (.v 1) (.v 2) .zero (.s 5) .i32), (.scan, long (.v 1) (.v 2) .zero (.s 5) .z32 8), (.conv, long .zero .zero .zero (.s 5))]
theorem witness_rendezvous_complete : ∀ p ∈ crossArgs,
    let f := crossFlue 0x3F 0xF
    p.1.check p.2 = none ∧ ((issueOf f).src p.2.lit).word p.2.c 0 = 0xF#32 ∧ (issueOf f).lanes &&& 0xF#32 = 0xF#32 ∧ f.live &&& 0xF#32 = 0xF#32 ∧
    (∀ l < 32, (0xF#32).getLsbD l = true → f.curDepth ≤ f.depthOf l) ∧ f.rvs = [] := by decide +kernel
theorem witness_rendezvous_waits : ∀ p ∈ crossArgs,
    let f := crossFlue 0x3F 0x1F
    ((issueOf f).src p.2.lit).word p.2.c 0 = 0x1F#32 ∧ (issueOf f).lanes &&& 0x1F#32 ≠ 0 ∧ (issueOf f).lanes &&& 0x1F#32 ≠ 0x1F#32 ∧
    f.live &&& 0x1F#32 = 0x1F#32 ∧ (∀ l < 32, (0x1F#32).getLsbD l = true → f.curDepth ≤ f.depthOf l) ∧
    f.eligible.getLsbD 5 = true ∧ (0x1F#32).getLsbD 5 = false ∧ (∀ v ∈ f.openRvs, v.lanes.getLsbD 5 = false) ∧
    (crossFlue 0xF 0x1F).live &&& 0x1F#32 ≠ 0x1F#32 := by decide +kernel
theorem witness_rendezvous_ends : let f := { wf0 with rvs := [doneRv] }
    (stateOf f).flue? 0 0 = some f ∧ f.rvs.find? (fun v => v.done && v.pc == 0x10004#64) = some doneRv ∧ (∀ v ∈ f.rvs, v.done = true) ∧
    (∀ w ∈ doneRv.writes, w.lane < 32) ∧ Ty.i32 ∈ [Ty.b32, .i32, .z32] := by decide +kernel

theorem alone_of (f : Flue) (h : f.regionOpen = false ∧ f.later = [] ∧ f.rvs = [] ∧ f.awaits = [] ∧ f.mmahWait = 0 ∧ f.escLanes = 0 ∧ f.group = 0) :
    Alone (stateOf f) (issueOf f) f := by
  obtain ⟨h1, h0, h2, h3, h4, h5, h6⟩ := h
  refine ⟨h1, h0, h2, h3, h4, h5, rfl, rfl, fun gr h => ?_⟩
  rw [h6] at h
  obtain rfl := eq_of_some (a := ({ cid := 1, sharedSize := 64, nflue := 1, accN := 64 } : Group)) (b := gr) rfl h
  rfl
/-- A flue whose lanes stand at a depth, on frames that return to 0x2_0000. -/
def deepFlue (d : Nat) : Flue :=
  { wf0 with depth := (List.range 4).map fun l => (l, BitVec.ofNat 8 d), nextUid := d + 1
             frames := (List.range (d + 1)).map fun u => { uid := u, demand := 8, ret := 0x20000#64 } }
/-- A state with a second flue that takes frame room. -/
def crowded (f : Flue) (demand : Nat) : State :=
  let s := stateOf f
  s.setFlue 0 1 { wf0 with gflue := 1, group := 1, frames := [{ uid := 0, demand := demand }] }
def jump : CArgs := { ctl .zero (.s 8) .zero 2 with guard := ⟨false, 2⟩ }
/-- With the two lanes of `p2`, and a target in `s8`. -/
def jumper (f : Flue) : Flue := { f with p := [(2, 5)], s := [(8, 0x30000)] }

theorem witness_branch : canonical (ofsTarget 0x10000 2) = true ∧ canonical (ofsTarget 0x00FFFFFFFFFFFFC0 2) = false := by decide
theorem witness_call : let f := jumper (deepFlue 255)
    f.phase = .run ∧ f.curDepth = 255 ∧ (issueOf f).active jump.guard ≠ 0 ∧ (jumper wf0).curDepth < 255 ∧ (jumper wf0).frames ≠ [] ∧
    8 / 8 ≤ ((stateOf (jumper wf0)).stove 0).freeForNew ∧ ((crowded (jumper wf0) 3568).stove 0).freeForNew < 8 / 8 ∧
    (∀ l < 32, ((issueOf f).active jump.guard).getLsbD l = true → (((issueOf f).src none).read (.s 8) .z64 l).toNat % 64 = 0 ∧
      canonical (((issueOf f).src none).read (.s 8) .z64 l) = true) := by decide +kernel
theorem witness_return : Alone (stateOf (jumper (deepFlue 2))) (issueOf (jumper (deepFlue 2))) (jumper (deepFlue 2)) ∧
    let f := jumper (deepFlue 2)
    f.phase = .run ∧ f.live &&& (issueOf f).lanes = (issueOf f).lanes ∧ (issueOf f).active jump.guard ≠ 0 ∧ 0 < f.curDepth ∧ (jumper wf0).curDepth = 0 ∧
    f.live &&& ~~~(issueOf f).active jump.guard ≠ 0 ∧ f.live &&& ~~~(issueOf f).active ⟨false, 0⟩ = 0 ∧
    (((issueOf f).src none).word .one 0).toInt < f.curDepth ∧ (f.curDepth : Int) ≤ (((issueOf f).src none).word (.s 8) 0).toInt :=
  ⟨alone_of _ (by decide), by decide +kernel⟩

/-- The group of the small state. -/
def grp0 : Group := { cid := 1, sharedSize := 64, nflue := 1, accN := 64 }
/-- A state with another group. -/
def withGroup (s : State) (g : Group) : State := s.setGroup 0 0 g
/-- Barrier 1, a word in `s8`. -/
def barArgs : CArgs := ctl .zero (.s 8) .zero 1
/-- A group of two flues, one more in slot 1 that has arrived at the barrier and waits there. -/
def barState (f : Flue) (y : Barrier) : State :=
  (withGroup (stateOf f) { grp0 with nflue := 2, barriers := [(1, y)] }).setFlue 0 1 { wf0 with gflue := 1 }
/-- A flue with a word in `s8`. -/
def wordFlue (w : Word) : Flue := { wf0 with s := SMap.set [] 8 w }
/-- Flue 1 waits in all its lanes. -/
def oneWaits : Barrier := { count := 1, target := 2, gen := 7, flues := [(1, { pend := true, wait := 0xF#32, next := [(0, 0x1000C#64), (1, 0x1000C#64), (2, 0x1000C#64), (3, 0x1000C#64)] })] }
theorem witness_barrier : let f := wordFlue 0
    let i := issueOf f
    let y := { oneWaits with flues := (0, { lmask := 0x1#32, la := 5 }) :: oneWaits.flues }
    let g := { f with live := 0x1F#32 }
    let me := fun (y : Barrier) => ((barState f y).bar 0 0 1).flue 0
    let done := fun (f : Flue) (y : Barrier) => f.live &&& ~~~((((barState f y).bar 0 0 1).flue 0).lmask ||| i.lanes) = 0
    f.phase = .run ∧ f.regionOpen = false ∧ ((barState f {}).stove 0).posted = [] ∧ i.active barArgs.guard ≠ 0 ∧
    -- the operand differs; not all lanes; the last of two; the first of two
    ((me y).lmask ≠ 0 ∧ (me y).la ≠ (i.src none).word (.s 8) 0) ∧ ¬done g oneWaits ∧ done f oneWaits ∧ (me oneWaits).arr = false ∧
    (∀ p ∈ ((barState f oneWaits).bar 0 0 1).flues, p.2.held = false) ∧ Tab.sorted oneWaits.flues = true ∧
    Tab.sorted ((barState f oneWaits).stove 0).flues = true ∧ (me oneWaits).wait = 0 ∧ (barState f oneWaits).slotOf 0 0 0 = some 0 ∧
    (barState f oneWaits).slotOf 0 0 1 = some 1 := by decide +kernel
/-- The third flue of a group of two is asked for, and a third where two are awaited. -/
theorem witness_barrier_refuses : let f := wordFlue 3
    ((issueOf f).src none).word (.s 8) 0 = 3 ∧ (barState f {}).group? 0 0 = some { grp0 with nflue := 2, barriers := [(1, {})] } ∧
    ((barState f oneWaits).bar 0 0 1).target = 2 := by decide +kernel

/-- A kernel with two records. -/
def kern0 : Kernel := { cid := 1, state := .running, launch := { flues := 1, demand := 16, privsz := 64, gx := 4, gy := 1, gz := 1 }
                        ntiles := 4
                        records := [(0, { record := { join := 3 } }), (1, { record := { spawned := true, join := 1, index := 1 } })] }
/-- The kernel table and the queues of the small state. -/
def withKernel (s : State) (k : Kernel) : State := s.setKernel 0 0 k
def withQueues (s : State) (q : Tab Queue) : State := s.modCtx 1 fun c => { c with queues := q }
/-- Addresses of the lanes in `v4`, `v5`: aligned, not aligned, not canonical, not canonical; handles in `v6`. -/
def spawnFlue : Flue := flueOf [(128, 0x1000), (129, 0x1001), (162, 0x1000000), (163, 0x1000000), (192, 0x80000001), (193, 0x80000001), (194, 9), (195, 0)]
def spawnArgs : CArgs := ctl (.v 1) (.v 4) .one 2
theorem witness_spawn : let s := withKernel (stateOf spawnFlue) kern0
    s.kernel? 0 0 = some kern0 ∧ CRow.spawn.check spawnArgs = none ∧ (Opnd.v 1).isScalar = false ∧
    laneCount ((issueOf spawnFlue).active spawnArgs.guard) ≤ 4096 - kern0.records.length ∧ Tab.sorted kern0.records = true ∧
    (∀ p ∈ kern0.records, p.1 < 4096) := by decide +kernel
theorem witness_join : let k := { kern0 with records := [(1, { record := { spawned := true, join := 2, index := 0x80000001 } })] }
    (k.byHandle 0x80000001).map (·.1) = some 1 ∧ (k.byHandle 9).isNone = true ∧
    ((lanesOf ((issueOf spawnFlue).active ⟨false, 0⟩)).filter fun l =>
      (k.byHandle (((issueOf spawnFlue).src none).word (.v 6) l)).map (·.1) = some 1).length = 2 := by decide +kernel
theorem witness_tilerel : let s := withKernel (stateOf (wordFlue 3)) kern0
    ((issueOf (wordFlue 3)).src none).word (.s 8) 0 = 3 ∧ s.group? 0 0 = some grp0 ∧ grp0.record.spawned = false ∧ 3 < kern0.ntiles ∧ kern0.ntiles ≤ 64 ∧
    kern0.obmap = 0 ∧ kern0.ntiles ≤ (((issueOf (wordFlue 4)).src none).word (.s 8) 0).toNat := by decide +kernel

/-- Translations that map the first GiB of context 1 to local memory at 0x6000_0000. -/
def mapped (s : State) : State := s.setStove 0 { s.stove 0 with tlb := [⟨1, 0, 2 ^ 30, 0x60000000, true, true, true, 1, .owned, 0, 0⟩] }
/-- The record at 0x2_0000, queue 3 in `s6`, whose ring of two records lies at 0x3_0000. -/
def launchFlue : Flue := { wf0 with s := [(4, 0x20000), (6, 3)] }
def launchArgs : CArgs := ctl .zero (.s 4) (.s 6)
def lfeed : Queue := { lfeed := true, ring := 0x30000#64, size := 2, head := 4, tail := 5, state := .bound }
/-- An access of context 1 in the mapped state passes its checks. -/
theorem maps_of (s : State) (va : DWord) (n : Nat) (k : Acc) (dcl : Bool) (pa : Nat) (c : Context) (hc : s.ctx? 1 = some c)
    (h : canonical va = true ∧ va.toNat % n = 0 ∧ c.kickPage va = false ∧ paKind pa = .hbm ∧ s.bad pa = false ∧
      tlbFind (s.stove 0).tlb 1 (va.toNat % 2 ^ 57) = some ⟨1, 0, 2 ^ 30, 0x60000000, true, true, true, 1, .owned, 0, 0⟩ ∧
      judge 1 k dcl ⟨1, 0, 2 ^ 30, 0x60000000, true, true, true, 1, .owned, 0, 0⟩ (0x60000000 + (va.toNat % 2 ^ 57 - 0)) = .ok pa) :
    Maps s 0 1 va n k dcl pa :=
  ⟨h.1, h.2.1, fun _ h' => eq_of_some hc h' ▸ h.2.2.1, h.2.2.2.1, fun _ => h.2.2.2.2.1, _, h.2.2.2.2.2.1, h.2.2.2.2.2.2⟩
theorem witness_launch : let s := mapped (withQueues (stateOf launchFlue) [(3, lfeed)])
    let c := (issueOf launchFlue).src none
    Maps s 0 1 (c.read (.s 4) .z64 0) 128 .load false 0x60020000 ∧
    Maps s 0 1 (lfeed.ring + BitVec.ofNat 64 (lfeed.tail.toNat % lfeed.size * 128)) 128 .store false 0x60030080 ∧
    (s.ctx? 1).map (·.roster) = some [] ∧ (c.read (.s 4) .z64 0).toNat % 128 = 0 ∧ (c.word (.s 6) 0).toNat = 3 ∧
    (s.ctx? 1).bind (fun x => Tab.get? x.queues 3) = some lfeed ∧ (lfeed.tail - lfeed.head).toNat < lfeed.size ∧ s.bad 0x60030080 = false ∧
    (c.read (.s 6) .z64 0).toNat % 128 ≠ 0 ∧ lfeed.size ≤ ((6 : Word) - lfeed.head).toNat :=
  ⟨maps_of _ _ _ _ _ _ { state := .running, queues := [(3, lfeed)] } rfl (by decide +kernel),
   maps_of _ _ _ _ _ _ { state := .running, queues := [(3, lfeed)] } rfl (by decide +kernel), by decide +kernel⟩

/-! #### Chapter 9 -/

/-- A kernel whose PRIV window lies at 0x4_0000 and whose scratchpad on die 0 is block 5. -/
def kernM : Kernel := { cid := 1, state := .running, launch := { flues := 1, demand := 16, privsz := 64, privBase := 0x40000#64 }, scp := [(0, [5])] }
/-- A mapped state with that kernel. -/
def memState (f : Flue) : State := mapped (withKernel (stateOf f) kernM)
theorem memCtx (f : Flue) : (memState f).ctx? 1 = some { state := .running } := rfl
/-- `s4` is 0x2_0000, `s6` 16, `s8` a word that no lane reaches; `v2` differs from lane to lane. -/
def memFlue : Flue := { flueOf [(64, 5), (65, 6), (66, 7), (67, 8), (96, 1), (97, 2), (98, 3)] with s := [(4, 0x20000), (6, 16), (8, 0xFFFFFFFF)] }
theorem witness_lands : let s := memState memFlue
    Lands s 0 memFlue 0 0x20000 4 .load false (.gen 0x60020000) ∧ Lands s 0 memFlue 1 60 4 .load false (.gen 0x6004003C) ∧
    Lands s 0 memFlue 2 60 4 .load false (.shr 60) ∧ Lands s 0 memFlue 3 65532 4 .load false (.scp (5 * 65536 + 65532)) ∧
    Lands s 0 memFlue 0 0x20000 4 .store false (.gen 0x60020000) ∧ Lands s 0 memFlue 0 0x20000 4 .atom false (.gen 0x60020000) :=
  ⟨⟨_, rfl, maps_of _ _ _ _ _ _ _ (memCtx _) (by decide +kernel)⟩,
   ⟨kernM, _, rfl, by decide, by decide, rfl, maps_of _ _ _ _ _ _ _ (memCtx _) (by decide +kernel)⟩,
   ⟨by decide, by decide +kernel, rfl⟩, ⟨kernM, _, rfl, by decide, by decide, by decide +kernel, rfl⟩,
   ⟨_, rfl, maps_of _ _ _ _ _ _ _ (memCtx _) (by decide +kernel)⟩, ⟨_, rfl, maps_of _ _ _ _ _ _ _ (memCtx _) (by decide +kernel)⟩⟩
def ldArgs : LArgs := long (.v 1) (.s 4) .zero .zero .b32 8
def stArgs : LArgs := long .zero (.s 4) .zero (.v 2) .b32 8
def redArgs : LArgs := long .zero (.s 4) (.v 2) .zero .z32 0
def atomArgs : LArgs := long (.v 1) (.s 4) (.v 2) .zero .z32 0
/-- The lanes of these instructions all run, on the address in `s4`. -/
theorem witness_memory_rows : LRow.ld.check ldArgs = none ∧ LRow.ldc.check ldArgs = none ∧ LRow.st.check stArgs = none ∧ LRow.red.check redArgs = none ∧
    LRow.atom.check atomArgs = none ∧ memLanes ldArgs ((issueOf memFlue).active ldArgs.guard) = [0, 1, 2, 3] ∧ Machine.mxSize ldArgs = 4 ∧ atomBytes .z32 = 4 ∧
    (∀ l < 32, effAddr ((issueOf memFlue).src none) 0 (.s 4) .zero l = 0x20000 ∧ atomAddr ((issueOf memFlue).src none) 0 (.s 4) l = 0x20000) ∧
    0x60020000 % 128 + 4 ≤ 128 ∧ releases stArgs = false ∧ releases { stArgs with modx := 0x48 } = true ∧
    ((memState memFlue).stove 0).l1 = [] ∧ ((memState memFlue).stove 0).kcache = [] := by decide +kernel
theorem witness_release (f : Flue) (h : f.regionOpen = false ∧ f.cid = 1) : NothingToRelease (memState f) (issueOf f) f :=
  ⟨h.1, rfl, fun c hc p hp => by rw [h.2] at hc; obtain rfl := eq_of_some (memCtx f) hc; cases hp⟩
/-- With the region open. -/
theorem witness_region_store : let f := { memFlue with regionOpen := true, restart := 0xF#32 }
    f.regionOpen = true ∧ (issueOf f).active stArgs.guard ≠ 0 ∧ (issueOf f).active stArgs.guard &&& ~~~f.restart = 0 ∧
    f.sectors.length + 2 * (lanesOf ((issueOf f).active stArgs.guard)).length ≤ 256 := by decide +kernel
/-- Every lane fails: not canonical, not aligned, beyond the shared memory and the scratchpad. -/
theorem witness_access_faults : let c := (issueOf memFlue).src none
    canonical (c.read (.s 8) .z64 0 + 0x0100000000000000) = false ∧ canonical (effAddr c 0 (.s 6) .one 0) = true ∧ (effAddr c 0 (.s 6) .one 0).toNat % 4 ≠ 0 ∧
    offsetOf (effAddr c 2 (.s 4) .one 0) % 4 ≠ 0 ∧ ((memState memFlue).stove 0).groups.all (fun g => g.2.sharedSize == 64) = true ∧
    64 < offsetOf (effAddr c 2 (.s 4) .zero 0) + 4 ∧ (issueOf memFlue).active ⟨false, 0⟩ ≠ 0 := by decide +kernel
/-- A flue whose roster member 2 has a write of its own not acknowledged. -/
def heldState (ls : LState) : State := (memState memFlue).modCtx 1 fun c => { c with roster := [(2, { lstate := ls, held := [⟨0, 0x60000000, .store [1]⟩] })] }
/-- Posted writes of the stove to two lines. -/
def posted2 : List Posted := [⟨1, 0x60020000, .store [1, 2, 3, 4]⟩, ⟨1, 0x60020100, .red 0#3 .z32 [5]⟩]
def postedState (f : Flue) : State := (memState f).setStove 0 { (memState f).stove 0 with posted := posted2 }
theorem witness_fence : let x := long .zero .zero .zero .zero .b32 0x140
    let y := long .zero .zero .zero .zero .b32 0xC0
    releases x = true ∧ Machine.mxScope x = 2 ∧ Machine.mxScope y ≠ 2 ∧ releases (long .zero .zero .zero .zero .b32 0x100) = false ∧ (∀ p ∈ posted2, (postedState memFlue).bad p.pa = false) ∧
    ((heldState .active).ctx? 1).any (fun c => c.roster.any fun p => p.2.held != [] && p.2.lstate == .active) = true ∧
    ((heldState .lost).ctx? 1).any (fun c => c.roster.any fun p => p.2.held != [] && p.2.lstate != .active) = true ∧
    (long .zero .zero .zero .zero .b32 2).modx.getLsbD 1 = true := by decide +kernel
/-- One sector of each space that a commit reaches. -/
def sectors3 : List Sector := [⟨2, 1, 1, List.replicate 15 none ++ [some 3]⟩, ⟨0, 0x6002000, 1, some 7 :: List.replicate 15 none⟩,
  ⟨3, 9, 1, List.replicate 16 (some 1)⟩]
theorem witness_commit : (∀ c ∈ sectors3, c.bytes.length = 16 ∧ c.space ∈ [0, 2, 3] ∧ (c.space = 0 → paKind (16 * c.addr) = .hbm ∧ 16 * c.addr < localTop)) ∧
    (sectors3.map fun c => (c.space, c.addr)).Nodup ∧ (memState memFlue).group? 0 0 = some grp0 := by decide +kernel
theorem witness_posted : (postedState memFlue).stove 0 |>.posted[1]? = some ⟨1, 0x60020100, .red 0#3 .z32 [5]⟩ ∧
    (∀ q ∈ posted2.take 1, q.pa / 128 ≠ 0x60020100 / 128) ∧ (postedState memFlue).bad 0x60020100 = false := by decide +kernel
/-- An arrival word at offset 16 of the scratchpad: armed, target 100, count 40, generation 3. `v2` names it in lane 0, another in lane 1. -/
def awFlue : Flue := { flueOf [(64, 16), (65, 48), (96, 60), (97, 70)] with p := [(1, 3)] }
def awArgs : LArgs := { long .zero (.v 2) (.v 3) .zero with guard := ⟨false, 1⟩ }
def awState (f : Flue) : State := (memState f).setDie 0 { scp := Memory.write [] (5 * 65536 + 16) (leBytes 4 100 ++ leBytes 4 40 ++ leBytes 4 3 ++ leBytes 4 0x80000000) }
theorem witness_arrival : (awState awFlue).kernel? 0 0 = some kernM ∧ (issueOf awFlue).active awArgs.guard = 3#32 ∧
    (∀ l ∈ [0, 1], let off := offsetOf ((((issueOf awFlue).src none).word (.v 2) l).setWidth 64)
      off % 16 = 0 ∧ off + 16 ≤ 2 ^ 26 ∧ scpAddr kernM (dieOf 0) off = some (5 * 65536 + 16 + 32 * l) ∧ ((issueOf awFlue).src none).word (.v 3) l ≠ 0) ∧
    (Memory.read4 ((awState awFlue).die 0).scp (5 * 65536 + 16 + 12)).getLsbD 31 = true ∧ 100 ≤ 40 + 60 ∧
    (Memory.read4 ((awState awFlue).die 0).scp (5 * 65536 + 48 + 12)).getLsbD 31 = false := by decide +kernel
/-- A lane that waits for a word to leave a generation. -/
def waiting0 (g : Word) : AwWait := ⟨0, 5 * 65536 + 16, g, .v 0 1, false, none, 0, 0⟩
theorem witness_arrival_return : let f := { awFlue with awaits := [waiting0 3] }
    waiting0 3 ∈ f.awaits ∧ f.awaits.Nodup ∧ (∀ v ∈ f.awaits, v.lane = 0 → v = waiting0 3) ∧
    Memory.read4 ((awState f).die 0).scp (5 * 65536 + 16 + 8) = (waiting0 3).expect ∧
    Memory.read4 ((awState f).die 0).scp (5 * 65536 + 16 + 8) ≠ (waiting0 2).expect := by decide +kernel

/-! #### Chapter 10 -/

/-- Page tables from 0x6000_0000 whose last table has the entries given, by index. -/
def tables (leaves : List (Nat × Nat)) : Memory :=
  leaves.foldl (fun m p => Memory.write m (0x60004000 + 8 * p.1) (leBytes 8 p.2)) (placeCode [] [])
/-- Context 1 with those tables, whose page at 0x2_0000 is its own page at 0x6002_0000. -/
def tabled (s : State) : State :=
  ({ s with mem := tables [(32, 0x6002003B)], own := [(0x60020, { owner := 1, state := .owned })] }).modCtx 1 fun c => { c with ptroot := 0x60000000 }
/-- A tensor of 32 by 4 FP32 elements, a box of 32 by 2. -/
def tensor : Descriptor := { base := 0x20000#64, ext := [32, 4, 0, 0, 0], str := [128, 0, 0, 0], box := [32, 2, 1, 1, 1], rank := 2 }
def indexes : Descriptor := { base := 0x30000#64, ext := [8, 0, 0, 0, 0], str := [0, 0, 0, 0], box := [2, 1, 1, 1, 1], fmt := 7, rank := 1 }
/-- The identifier table: tensors 1 and 2, indexes 4, one that fits a slot 5, one in the group's shared memory 6. -/
def tids0 : Tab Descriptor := [(1, tensor), (2, tensor), (4, indexes), (5, { tensor with box := [32, 4, 1, 1, 1] }),
  (6, { tensor with base := 0, ext := [4, 4, 0, 0, 0], str := [16, 0, 0, 0], box := [4, 4, 1, 1, 1], space := 2 })]
/-- `s2` is 1, `s3` 2, `s4` 7 (no identifier), `s5` 0 (a slot), `s6` 6, `s7` 5; a block of words from `s8`. -/
def engFlue (block : List Word) : Flue :=
  { wf0 with s := SMap.setAll [] ([(2, 1), (3, 2), (4, 7), (6, 6), (7, 5)] ++ block.zipIdx.map fun p => (8 + p.2, p.1)) }
def engState (f : Flue) : State := (memState f).modCtx 1 fun c => { c with tids := tids0 }
/-- Flue 0 holds slot 0 as a gang of one. -/
def holding (s : State) : State := s.setStove 0 { s.stove 0 with claims := [(0, { held := true, cid := 1 })] }
theorem nothing_held (f : Flue) (h : f.regionOpen = false) : NothingHeld (engState f) (issueOf f) f := ⟨h, rfl⟩
theorem holds0 (f : Flue) (n : Nat) (h : f.group = 0) (h' : f.gflue = 0) (hn : n = 0) : HoldsSlots (holding (engState f)) (issueOf f) f [n] := by
  subst hn
  rintro k hk
  obtain rfl : k = 0 := by simpa using hk
  exact ⟨by decide, _, rfl, rfl, h.symm, rfl, h'.symm⟩
theorem witness_copy : let s := holding (engState (engFlue []))
    let f := engFlue []
    let c := (issueOf f).src none
    (issueOf f).active ⟨false, 0⟩ ≠ 0 ∧ s.tid? 1 (c.word (.s 3) 0).toNat = some tensor ∧ s.tid? 1 (c.word (.s 2) 0).toNat = some tensor ∧
    s.tid? 1 (c.word (.s 4) 0).toNat = none ∧ (∀ k < 5, tensor.boxAt k = tensor.boxAt k) ∧ (opsOf f 0).length < 63 ∧
    s.tid? 1 (c.word (.s 7) 0).toNat = some { tensor with box := [32, 4, 1, 1, 1] } ∧ ({ tensor with box := [32, 4, 1, 1, 1] } : Descriptor).fits = true ∧
    HoldsSlots s (issueOf f) f [(c.word (.s 5) 0).toNat] ∧ Tab.get? ((engState f).stove 0).claims (c.word (.s 5) 0).toNat = none ∧
    s.tid? 1 (c.word (.s 6) 0).toNat = Tab.get? tids0 6 ∧ ((Tab.getD tids0 6 {}).rowSpans (Tab.getD tids0 6 {}).boxAt [0, 0, 0, 0, 0]).all (fun r => r.1 + r.2 ≤ 64) = true :=
  ⟨by decide +kernel, by decide +kernel, by decide +kernel, by decide +kernel, fun _ _ => rfl, by decide, by decide +kernel, by decide +kernel,
   holds0 _ _ rfl rfl (by decide +kernel), by decide +kernel, by decide +kernel, by decide +kernel⟩
theorem witness_gather : let s := engState (engFlue [4, 1, 0])
    let blk := ((issueOf (engFlue [4, 1, 0])).src none).run (.s 8) 3 0
    s.tid? 1 (blk.getD 0 0).toNat = some indexes ∧ indexes.fmt = 7 ∧ indexes.rank = 1 ∧ tensor.rank ≤ 2 ∧ tensor.fmt ≠ 6 := by decide +kernel
theorem witness_stream : let blk := ((issueOf (engFlue [12, 2, 4, 0])).src none).run (.s 8) 4 0
    let pairs := chainPairs blk
    (∀ p ∈ pairs, 1 ≤ p.1 ∧ p.1 ≤ 13 ∧ (5 ≤ p.1 → p.1 ≤ 10 → p.2 = 0)) ∧ (pairs.filter fun p => decide (p.1 = 12 ∨ p.1 = 13)).map (·.2) = [2] ∧
    tensor.rank = tensor.rank ∧ tensor.sblk = 0 ∧
    (∃ p ∈ chainPairs (((issueOf (engFlue [14, 2])).src none).run (.s 8) 2 0), p.1 = 0 ∨ 13 < p.1 ∨ (5 ≤ p.1 ∧ p.1 ≤ 10 ∧ p.2 ≠ 0)) := by decide +kernel
/-- A kernel of one rank, whose process-group table lies at 0x2_0000. -/
def collKern : Kernel := { kernM with npg := 1, pgmask := 1, launch := { kernM.launch with pgtab := 0x20000#64 } }
def collState (f : Flue) : State :=
  let s := tabled (withKernel (engState f) collKern)
  { s with mem := Memory.write (Memory.write s.mem 0x60020000 (leBytes 4 1)) (0x60020040 + 40) (leBytes 2 1) }
theorem witness_collective : let s := collState (engFlue [0, 0])
    s.kernel? 0 0 = some collKern ∧ s.devRead 1 0x20000 64 = .ok (leBytes 4 1 ++ List.replicate 60 0) ∧
    s.pgMembers 1 0x20000 0 1 0 = .ok [(0, 0)] ∧ (∀ kind < 5, collShape kind 1 tensor tensor = true) ∧
    collKern.npg ≤ 1 ∧ 0 < collKern.npg ∧ collKern.pgmask.getLsbD 0 = true := by decide +kernel

/-- The 64 bytes of a descriptor: 8 INT8 elements in generic memory (10 R231). -/
def descBytes (fmt : Byte) : List Byte := leBytes 8 0x20000 ++ leBytes 8 0 ++ leBytes 4 8 ++ leBytes 32 0 ++ List.replicate 5 0 ++ [fmt, 1] ++ List.replicate 5 0
/-- The bytes at the address in `s8`, 0x2_0000. -/
def tidState (fmt : Byte) : State := { engState (engFlue [0x20000]) with mem := Memory.write [] 0x60020000 (descBytes fmt) }
theorem witness_identifiers : Maps (tidState 7) 0 1 (((issueOf (engFlue [0x20000])).src none).read (.s 8) .z64 0) 64 .load false 0x60020000 ∧
    (tidState 7).ctx? 1 = some { state := .running, tids := tids0 } ∧ descOk (Memory.read (tidState 7).mem 0x60020000 64) = true ∧
    descOk (Memory.read (tidState 9).mem 0x60020000 64) = false ∧ (1 : Word).toNat < 256 ∧ 256 ≤ (256 : Word).toNat :=
  ⟨maps_of _ _ _ _ _ _ _ rfl (by decide +kernel), rfl, by decide +kernel⟩
/-- An operation of flue 0. -/
def op0 (ins : Instr) (units progress : Nat) : EngineOp := { uid := 7, instr := ins, units := units, progress := progress, members := [0] }
def opFlue (cls : Nat) (op : EngineOp) : Flue := { wf0 with ops := [(cls, [op])] }
theorem witness_waitc : let f := opFlue 1 (op0 (.accz ldArgs) 2 0)
    (∀ n < 2, (n < (opsOf f 1).length ↔ n = 0)) ∧ (Tab.getD f.estat 1 {}).code = 0 ∧ (Tab.getD ({ f with estat := [(1, { code := 2 })] } : Flue).estat 1 {}).code ≠ 0 ∧
    (∀ o ∈ opsOf f 1, (∀ o' ∈ f.allOps, o'.uid = o.uid → o'.flag = none) ∧ ∀ o' ∈ opsOf f 0, o'.uid ≠ o.uid) := by decide +kernel

/-- Flues 0 and 1 of a group of two form a gang: `s2` is 3, `s5` 0. -/
def gangFlue (w : Word) : Flue := { wf0 with s := SMap.set [] 2 w }
def gangArgs : LArgs := long .zero (.s 2) .zero .zero
def gangState (f : Flue) (latch : List GangRv) : State :=
  let s := (withGroup (engState f) { grp0 with nflue := 2 }).setFlue 0 1 { wf0 with gflue := 1 }
  s.setStove 0 { s.stove 0 with latch := latch }
/-- Flue 1 has arrived. -/
def gangRv : GangRv := { group := 0, mask := 3#32, pc := 0x10004#64, depth := 0, next := 0x1000C#64, instr := .gang gangArgs, flag := none,
                         a := 3, b := 0, c := 0, block := [], arrivals := [(1, ⟨1, 0xF#32, 0xF#32⟩)] }
theorem witness_gang : let f := gangFlue 3
    f.phase ≠ .handler ∧ gangArgs.f = .none ∧ (issueOf f).active gangArgs.guard ≠ 0 ∧ ((issueOf f).src none).word (.s 2) 0 = 3 ∧ f.gang = 0 ∧
    laneCount (3 : Word) = 2 ∧ (3 : Word).getLsbD f.gflue = true ∧ (∀ n < 32, (3 : Word).getLsbD n = true → n < 2) ∧
    (gangState f []).group? 0 0 = some { grp0 with nflue := 2 } ∧ ((gangState f []).stove 0).latch = [] ∧ ((gangState f [gangRv]).stove 0).latch = [gangRv] ∧
    gangRv.next = (issueOf f).next ∧ (∀ n < 64, n ∈ gangRv.arrivals.map (·.1) ↔ n < 32 ∧ (3 : Word).getLsbD n = true ∧ n ≠ f.gflue) ∧
    (0 :: gangRv.arrivals.map (·.2.slot)).Nodup ∧ ((gangState f [gangRv]).flue? 0 1).isSome = true ∧
    (∀ k < 32, Tab.get? ((gangState f []).stove 0).claims k = none) ∧ ((issueOf (gangFlue 0)).src none).word (.s 2) 0 = 0 ∧
    ¬(∀ n < 32, (5 : Word).getLsbD n = true → n < 2) := by decide +kernel
def claimArgs : LArgs := long (.pred 1) (.s 2) .zero .zero
theorem witness_slots : let s := holding (engState (gangFlue 0))
    (∀ c ∈ ((engState (gangFlue 0)).stove 0).claims, c.2.held = false) ∧ Tab.get? (s.stove 0).claims 0 = some { held := true, cid := 1 } ∧
    ((issueOf (gangFlue 0)).src none).word (.s 2) 0 = 0 ∧ 32 ≤ (((issueOf (gangFlue 32)).src none).word (.s 2) 0).toNat ∧
    (∀ p ∈ (s.stove 0).flues, ∀ o ∈ p.2.allOps, 0 ∉ o.slots) ∧ (s.group? 0 0).map (·.saved) = some [] ∧
    (issueOf (gangFlue 0)).flag .a ≠ none := by decide +kernel

/-- `s2` is a region of 16 columns and 2 rows, `s3` slots 0 and 4, `s4` tensor 1. -/
def mmaFlue : Flue := { wf0 with s := [(2, 128), (3, 128), (4, 1)] }
/-- Flue 0 holds slots 0 to 3 and 4 to 11. -/
def slotted (s : State) : State := s.setStove 0 { s.stove 0 with claims := (List.range 12).map fun k => (k, { held := true, cid := 1 }) }
def mmaState : State := slotted (engState mmaFlue)
theorem holdsAll (ks : List Nat) (h : ∀ k ∈ ks, k < 12) : HoldsSlots mmaState (issueOf mmaFlue) mmaFlue ks := by
  intro k hk
  have := h k hk
  refine ⟨by omega, { held := true, cid := 1 }, ?_, rfl, rfl, rfl, rfl⟩
  have : ∀ j < 12, Tab.get? (mmaState.stove 0).claims j = some { held := true, cid := 1 } := by decide +kernel
  exact this k (h k hk)
theorem witness_matrix : RegionFits mmaState (issueOf mmaFlue) mmaFlue 128 ∧ ¬RegionFits mmaState (issueOf mmaFlue) mmaFlue (BitVec.ofNat 32 (2 ^ 26)) ∧
    HoldsSlots mmaState (issueOf mmaFlue) mmaFlue ([0] ++ [4]) ∧ NothingHeld mmaState (issueOf mmaFlue) mmaFlue ∧
    ¬HoldsSlots (engState mmaFlue) (issueOf mmaFlue) mmaFlue [0] ∧
    ((issueOf mmaFlue).src none).word (.s 2) 0 = 128 ∧ ((issueOf mmaFlue).src none).word (.s 3) 0 = 128 ∧ mmaState.tid? 1 1 = some tensor ∧ mmaState.tid? 1 7 = none ∧
    mmaFlue.gang = 0 :=
  ⟨⟨by decide, by decide +kernel, by decide⟩, fun h => absurd h.1 (by decide), holdsAll _ (by decide), ⟨rfl, rfl⟩,
   fun h => by obtain ⟨_, c, hc, _⟩ := h 0 (by decide)
               have hn : Tab.get? ((engState mmaFlue).stove 0).claims 0 = none := by decide +kernel
               exact absurd (hn.symm.trans hc) (by simp), by decide +kernel⟩
theorem witness_accmv : let w := ((issueOf { mmaFlue with s := [(2, 128)] }).src none).word (.s 2) 0
    w.toNat < 2 ^ 17 ∧ w.toNat / 128 % 1024 % 32 = 1 ∧ (0x1000 : Word).toNat / 128 % 1024 % 32 = 0 ∧ (0x1000 : Word).toNat % 128 + 1 ≤ 64 ∧
    (opsOf mmaFlue 1).length < 63 := by decide +kernel

/-- A flue whose oldest operation is the one given, with its count after. -/
def unitState (op : EngineOp) : State := { engState (opFlue 1 op) with stamp := 9 }
theorem sole_of (cls : Nat) (op : EngineOp) (h : op.members = [0]) (s : State) (hs : s.stoves = (engState (opFlue cls op)).stoves) (hh : s.hearths = []) :
    SoleOp s 0 0 (opFlue cls op) cls op [] := by
  have hst : s.stove 0 = (engState (opFlue cls op)).stove 0 := by unfold State.stove; rw [hs]
  have hf : (s.stove 0).flues = [(0, opFlue cls op)] := by rw [hst]; rfl
  have ho : opsOf (opFlue cls op) cls = [op] := by simp [opsOf, opFlue, Tab.getD, Tab.get?]
  refine ⟨?_, ho, h, ?_, by simp, ?_, ?_, ?_⟩
  · unfold State.flue?; rw [hf]; rfl
  · unfold State.slotOf; rw [hf]; rfl
  · intro k hk o hm
    have : opsOf (opFlue cls op) k = [] := by simp [opsOf, opFlue, Tab.getD, Tab.get?, Ne.symm hk]
    rw [this] at hm; cases hm
  · intro p hp o hm _
    rw [hf] at hp
    obtain rfl : p = (0, opFlue cls op) := by simpa using hp
    have hall : (opFlue cls op).allOps = [op] := by simp [Flue.allOps, opFlue]
    rw [hall] at hm
    exact ⟨rfl, by simpa using hm⟩
  · intro rv hrv
    have : s.hearth (hearthOf 0) = {} := by unfold State.hearth; rw [hh]; rfl
    rw [this] at hrv; cases hrv
theorem witness_engine_unit : SoleOp (unitState (op0 (.accz ldArgs) 2 1)) 0 0 (opFlue 1 (op0 (.accz ldArgs) 2 1)) 1 (op0 (.accz ldArgs) 2 1) [] ∧
    let op := op0 (.accz ldArgs) 2 1
    op.status = .ok ∧ op.started = true ∧ op.progress < op.units ∧ op.writes = [] ∧ (op0 (.mma ldArgs) 2 1).writes = [] ∧
    (regionOf 128).col + (regionOf 128).n ≤ 1024 ∧ (({ op0 (.accmvWr ldArgs) 1 0 with puts := [(0, 1), (32, 2)] } : EngineOp).puts.map (·.1)).Nodup ∧
    (({ op0 (.accmvRd ldArgs) 1 0 with writes := [⟨.v 0 1, 0, 32, false⟩] } : EngineOp).puts = []) :=
  ⟨sole_of 1 _ rfl _ rfl rfl, by decide +kernel⟩
theorem witness_engine_end : SoleOp (unitState (op0 (.accz ldArgs) 2 2)) 0 0 (opFlue 1 (op0 (.accz ldArgs) 2 2)) (clsNum .mx) (op0 (.accz ldArgs) 2 2) [] ∧
    (op0 (.accz ldArgs) 2 2).flag = none ∧ (op0 (.accz ldArgs) 2 2).units ≤ 2 ∧ ({ op0 (.accz ldArgs) 2 1 with status := .perm } : EngineOp).status ≠ .ok :=
  ⟨sole_of 1 _ rfl _ rfl rfl, rfl, by decide, by decide⟩
/-- `s5` names stove 0 alone, or stoves 0 and 1. -/
def mmahFlue (w : Word) : Flue := { wf0 with s := [(2, 128), (3, 128), (5, w)] }
def mmahArgs : LArgs := long .zero (.s 2) (.s 3) (.s 5)
def mmahState (w : Word) : State :=
  let s := slotted (engState (mmahFlue w))
  { s with stamp := 1 }.setStove 1 { groups := [(0, grp0)], flues := [(0, { wf0 with s := [(2, 128)] })] }
theorem witness_mmah : ((issueOf (mmahFlue 1)).src none).word (.s 5) 0 = BitVec.ofNat 32 (2 ^ ((issueOf (mmahFlue 1)).stove % 16)) ∧ (3 : Word).toNat < 2 ^ 16 ∧
    (3 : Word).getLsbD 0 = true ∧ (3 : Word) ≠ BitVec.ofNat 32 (2 ^ 0) ∧ (2 : Word).getLsbD 0 = false ∧
    (∀ n < 16, (3 : Word).getLsbD n = true → ((mmahState 3).group? n 0).any (fun g => g.part == 0 && g.kslot == 0) = true) ∧
    ((mmahState 3).hearth 0).hrvs = [] ∧ (∀ p ∈ ((mmahState 3).stove 0).flues, ∀ o ∈ p.2.allOps, o.uid < (mmahState 3).stamp) ∧
    slotRun (aSlot 128) (slotsPer (aTy mmahArgs) (depthOf mmahArgs)) ++ slotRun (bSlot 128) (colBlocks (regionOf 128).n * slotsPer (bTy mmahArgs) (depthOf mmahArgs)) = [0, 4] := by
  decide +kernel

/-! #### Chapters 11, 13 and 5 -/

/-- A pending trap of lanes 0 and 1. -/
def trapPending : Pending := { lanes := 3#32, faddr := 0x10004#64, resume := 0x1000C#64, code := 9, args := [(0, 7), (1, 8)] }
/-- A kernel with a handler at 0x9_0000. -/
def handled (s : State) : State := withKernel s { kernM with handler := 0x90000#64 }
def inHandler : Flue := { wf0 with phase := .handler, clanes := 3#32, hpc := 0x1000C#64, entry := 0x10000#64, restart := 2#32, p := [(2, 5)] }
theorem witness_trap : (issueOf wf0).active (sys .zero .one .zero 9).guard ≠ 0 ∧ Tab.get? wf0.pending cTRAPI = none ∧
    Tab.get? ({ wf0 with pending := [(cTRAPI, trapPending)] } : Flue).pending cTRAPI = some trapPending ∧ wf0.regionOpen = false := by decide
theorem witness_delivery : let f := { wf0 with pending := [(cTRAPI, trapPending)] }
    (handled (stateOf f)).flue? 0 0 = some f ∧ f.phase = .run ∧ f.quiet = true ∧ f.service = [] ∧ f.awaits = [] ∧ cTRAPI ≠ cREGOVF ∧
    (handled (stateOf f)).handlerOf f ≠ 0 ∧ cTRAPI < 17 := by decide +kernel
theorem witness_rth : inHandler.quiet = true ∧ inHandler.pending = [] ∧ ({ inHandler with outs := [{}] } : Flue).quiet = false ∧
    ({ inHandler with pending := [(cTRAPI, trapPending)] } : Flue).quiet = true ∧ wf0.phase ≠ .handler := by decide

/-- A call in a ring, and the flue that waits for it. -/
def ringE : RingEntry := { seq := 5, cid := 1, stove := 0, slot := 0, group := 0, gflue := 0, svc := 0x200, a := 1, b := 2 }
def callOf : InService := { part := 0, seq := 5, dest := [⟨.v 0 1, 0, 0, true⟩], lanes := 0xF#32, next := 0x1000C#64 }
def withRing (s : State) (es : List RingEntry) : State := (s.part? 0).elim s fun p => s.setPart 0 { p with ring := es, ringSeq := 6 }
theorem witness_syscall : ((withRing (memState wf0) []).part? 0).any (fun p => p.ring.length < 256) = true ∧
    ((withRing (memState wf0) (List.replicate 256 ringE)).part? 0).any (fun p => 256 ≤ p.ring.length) = true ∧
    (let f := { wf0 with service := [callOf] }
     ((withRing (stateOf f) [ringE]).part? 0).any (fun p => p.ring = [ringE]) = true ∧ (withRing (stateOf f) [ringE]).flue? 0 0 = some f ∧
     ringE.answer = none ∧ 0x107 < ringE.svc.toNat ∧ ringE.pages = [] ∧ ringE.freeing = [] ∧ callOf.part = 0 ∧ callOf.seq = ringE.seq) := by decide +kernel

theorem witness_special_registers : [0x00, 0x16, 0x18, 0x27].all (fun n => (YRow.rdsr.check (sys (.v 1) .zero .zero n)).isNone) = true ∧
    [0x0F, 0x17].all (fun n => (YRow.rdsr.check (sys (.v 2) .zero .zero n)).isNone) = true ∧
    YRow.rdsrCyclo.check (sys (.v 1) .zero .zero 0x11) = none ∧ (stateOf wf0).group? 0 0 = some grp0 ∧ ((stateOf wf0).kernel? 0 0).isSome = true ∧
    ((issueOf wf0).src none).word .one 0 = 1 ∧ (1 : Word).toNat % 8 < 5 ∧ 5 ≤ (7 : Word).toNat % 8 ∧ (issueOf wf0).active ⟨false, 0⟩ ≠ 0 ∧
    (issueOf wf0).active ⟨true, 0⟩ = 0 := by decide +kernel

theorem witness_promotion : let f := { wf0 with passed := (List.range 4).map fun l => (l, 64) }
    let m := f.eligible &&& maskOf fun l => f.pcOf l == 0x10004#64
    m.getLsbD 0 = true ∧ 64 ≤ (SMap.get f.passed 0).toNat ∧ (∀ l < 32, m.getLsbD l = true → Tab.getD f.promoted l 0 = 0) := by decide +kernel
/-- A flue that waits for frame room with a call of lanes 0 and 2, and one that waits for its frame. -/
def callWaits : Flue := { wf0 with phase := .frameWait, call := some { targets := [(0, 0x30000), (2, 0x30000)], movers := 5#32, others := 0xA#32, ret := 0x2000C#64, demand := 8 } }
def refillWaits (granted : Bool) : Flue :=
  { deepFlue 1 with phase := .refillWait, granted := granted, frames := [{ uid := 0, demand := 8 }, { uid := 1, demand := 8, ret := 0x20000#64, spilled := true }] }
theorem witness_frame_grant : ((stateOf callWaits).stove 0).requests = [(0, 0, 1)] ∧ 1 ≤ ((stateOf callWaits).stove 0).freeGranules ∧
    ((crowded callWaits 3568).stove 0).freeGranules < 1 ∧ ((stateOf (refillWaits false)).stove 0).requests = [(0, 0, 1)] ∧ (refillWaits false).call = none ∧
    ((stateOf callWaits).stove 0).spill = none ∧ callWaits.frames ≠ [] ∧ (5 : Word) &&& 0xA#32 = 0 ∧
    Alone (stateOf callWaits) ⟨0, 0, 0, 0, 0, 0, 0, false, 0, {}⟩ callWaits :=
  ⟨by decide +kernel, by decide +kernel, by decide +kernel, by decide +kernel, rfl, rfl, by decide, by decide, alone_of callWaits (by decide)⟩
/-- A kernel whose PRIV windows and spill stacks lie at 0x2_0000, 4 KiB per flue. -/
def spillKern : Kernel := { kernM with launch := { kernM.launch with privsz := 4096, spill := 2048, privBase := 0x20000#64 } }
def spillState (f : Flue) : State := tabled (withKernel (stateOf f) spillKern)
/-- The lines of a frame of 8 registers at the bottom of the spill stack. -/
def spillAt (n : Nat) : List Nat := (List.range 8).map fun j => 0x60020000 + n + 128 * j
theorem witness_refill : (spillState (refillWaits true)).flue? 0 0 = some (refillWaits true) ∧ (refillWaits true).frames.length = 2 ∧
    (refillWaits true).rvs = [] ∧ (refillWaits false).granted = false ∧
    (spillState (refillWaits true)).spillLines 0 (refillWaits true) 1 .load = .ok (spillAt 1024) ∧ (∀ pa ∈ spillAt 1024, paKind pa = .hbm) := by decide +kernel
/-- The last flue of its group, drained. -/
def drained0 : Flue := { wf0 with phase := .drain, live := 0 }
theorem witness_drain : let s := memState drained0
    s.group? 0 0 = some grp0 ∧ s.kernel? 0 0 = some kernM ∧ drained0.quiet = true ∧ drained0.flags = [] ∧ drained0.ops = [] ∧ grp0.saved = [] ∧
    (∀ p ∈ (s.stove 0).flues, p.2.group = drained0.group → p.1 = 0) ∧ (s.stove 0).posted = [] ∧ kernM.obmap = 0 ∧ (s.hearth 0).hrvs = [] ∧
    wf0.phase ≠ .drain ∧ ¬(∀ p ∈ ((barState drained0 {}).stove 0).flues, p.2.group = 0 → p.1 = 0) := by decide +kernel
/-- A flue of depth 1 that waits for room, and its state once the engine has started for it. -/
def deepWaits : Flue := { deepFlue 1 with phase := .frameWait, call := callWaits.call, frames := [{ uid := 0, demand := 8, regs := [(0, 5), (33, 6)] }, { uid := 1, demand := 8, ret := 0x20000#64 }] }
def idleState (f : Flue) (idle : Nat) (spill : Option Nat) : State := (spillState f).setStove 0 { (spillState f).stove 0 with idle := idle, spill := spill }
theorem witness_spill : ((idleState deepWaits 256 none).stove 0).spill = none ∧ 256 ≤ ((idleState deepWaits 256 none).stove 0).idle ∧
    ((idleState deepWaits 255 none).stove 0).idle < 256 ∧ deepWaits.request ≠ none ∧ Tab.sorted ((idleState deepWaits 256 none).stove 0).flues = true ∧
    (let s := idleState deepWaits 256 (some 0)
     s.flue? 0 0 = some deepWaits ∧ (s.stove 0).esc = [] ∧ deepWaits.spillable.head? = some 0 ∧ s.spillLines 0 deepWaits 0 .store = .ok (spillAt 0) ∧
     4 * (deepWaits.spillWord 0 + 8) ≤ s.spillExtent deepWaits ∧ (∀ pa ∈ spillAt 0, paKind pa = .hbm ∧ pa % 128 = 0 ∧ s.bad pa = false) ∧ (spillAt 0).Nodup) := by
  decide +kernel

/-! #### Chapters 13, 15, 16 and 17: switch-outs, kernels, queues -/

/-- A save area of 512 pages. -/
def roomy (s : State) : State := s.modCtx 1 fun c => { c with saveSize := 98304 + 512 * 4096 }
/-- A group with flue 1 out, due or not. -/
def outGroup (due : Bool) : Group := { grp0 with nflue := 2, saved := [(1, { flue := { deepFlue 1 with gflue := 1 }, due := due, run := (1, 3) })], headerRun := some (0, 1) }
theorem witness_recall : let s := withGroup (roomy (memState wf0)) (outGroup true)
    s.group? 0 0 = some (outGroup true) ∧ (Tab.getD (outGroup true).saved 1 { flue := {} }).due = true ∧ (Tab.getD (outGroup false).saved 1 { flue := {} }).due = false ∧
    (deepFlue 1).service = [] ∧ (deepFlue 1).granules ≤ (s.stove 0).freeGranules ∧ (s.flue? 0 1).isNone = true ∧ (s.flue? 0 0).isSome = true := by decide +kernel
theorem witness_switch_out : let s := roomy (memState wf0)
    let fl := (s.stove 0).flues.filter fun p => p.2.group == 0
    s.group? 0 0 = some grp0 ∧ fl = [(0, wf0)] ∧ wf0.quiet = true ∧ wf0.phase ≠ .drain ∧ wf0.sliceEnd = false ∧ wf0.regionOpen = false ∧ wf0.awaits = [] ∧
    wf0.phase ≠ .frameWait ∧ grp0.saved = [] ∧ s.groupOut 0 0 ≠ none ∧ ({ wf0 with outs := [{}] } : Flue).quiet = false := by decide +kernel
/-- A record that has waited 256 cycles, of a kernel that goes first and wants 32 slots. -/
def starving : Kernel := { kernM with prio := 5, maxStoves := 64, launch := { kernM.launch with flues := 32, demand := 8 }, records := [(0, { record := { ready := true }, age := 256 })] }
def starvedState : State :=
  let s := (roomy (memState wf0)).modCtx 1 fun c => { c with maxStoves := 1 }
  (s.part? 0).elim s fun p => s.setPart 0 { p with kernels := [(0, kernM), (1, starving)] }
theorem witness_slot_preemption : let s := starvedState
    ((s.part? 0).bind (s.starved 0)).any (fun x => x.prio == 5 && x.stoves == [0] && !x.stoves.any x.roomy.contains && s.chooseStove x == some 0) = true ∧ (s.stove 0).lowestPrio = some 0 ∧ s.victims 0 = [(0, .pre)] ∧ s.flue? 0 0 = some wf0 ∧
    (s.flueOut 0 0 .pre).isSome = true ∧ (∀ n ∈ s.partStoves 0, ∀ f ∈ (s.stove n).flues, f.2.preempt = false) ∧
    ((memState wf0).part? 0).any (fun p => ((memState wf0).starved 0 p).isNone) = true := by decide +kernel
theorem witness_slices : let p : Partition := { state := .running, slice := 1000, hearths := [0], current := some 1, kernels := [(0, { cid := 1 }), (1, { cid := 4 }), (2, { cid := 2 })] }
    p.working = [1, 2, 4] ∧ (p.working.find? fun c => 1 < c) = some 2 ∧ (p.working.find? fun c => 4 < c) = none ∧ p.working.head? = some 1 ∧
    ({ p with kernels := [(0, { cid := 1 })] } : Partition).working = [1] := by decide
theorem witness_deadline : let f := { wf0 with sliceEnd := true, ydl := 5, ycount := 5 }
    f.sliceEnd = true ∧ f.ydl ≠ 0 ∧ f.ydl.toNat ≤ f.ycount ∧ f.phase ≠ .handler ∧ f.preempt = false ∧ ¬f.ydl.toNat ≤ 4 := by decide
theorem witness_handler_timeout : let f := { inHandler with sliceEnd := true, hlimit := 65536 }
    f.phase = .handler ∧ f.sliceEnd = true ∧ 65536 ≤ f.hlimit ∧ ¬65536 ≤ (65535 : Nat) ∧ (memState f).ctx? 1 = some { state := .running } := by decide +kernel

/-- A launch record: 4 groups of one flue at 0x1_0000, demand 8, nothing to wait for. -/
def launchBytes (gx : Nat) : List Byte :=
  leBytes 8 0x10000 ++ leBytes 8 0 ++ leBytes 4 gx ++ leBytes 4 1 ++ leBytes 4 1 ++ [1, 8, 0, 0] ++ List.replicate 72 0 ++ leBytes 2 0xFFFF ++ List.replicate 22 0
/-- A bound queue whose ring of two records lies at 0x2_0000. -/
def boundQueue : Queue := { ring := 0x20000#64, head := 4, tail := 5, state := .bound }
def takeState (gx : Nat) : State :=
  let s := tabled (withQueues (memState wf0) [(3, boundQueue)])
  { s with mem := Memory.write s.mem 0x60020000 (launchBytes gx) }
theorem witness_take : let s := takeState 4
    (s.ctx? 1).bind (fun c => Tab.get? c.queues 3) = some boundQueue ∧ (s.part? 0).any (fun p => p.state == .running && (Tab.get? p.kernels 0).isSome &&
      (Tab.get? p.kernels 1).isNone) = true ∧ s.fw.frozen = false ∧ s.devRead 1 (boundQueue.ring + 0) 128 = .ok (launchBytes 4) ∧
    boundQueue.head ≠ boundQueue.tail ∧ launchOk (parseLaunch (launchBytes 4)) (launchBytes 4) (fun _ => false) = true ∧ (parseLaunch (launchBytes 4)).pgtab = 0 ∧
    (parseLaunch (launchBytes 4)).deps = 0 ∧ (takeState 0).devRead 1 (boundQueue.ring + 0) 128 = .ok (launchBytes 0) ∧
    launchOk (parseLaunch (launchBytes 0)) (launchBytes 0) (fun _ => false) = false ∧ (parseLaunch (launchBytes 0)).done = 0 := by decide +kernel
/-- A kernel that waits; one of its launch's flags orders it after the others of its queue. -/
def waitingKern (flags : Word) : Kernel := { kern0 with state := .waiting, queue := 3, seq := 5, records := [], launch := { kern0.launch with scpBlk := 2, flags := flags, wq := 0xFFFF } }
def kernelState (k : Kernel) : State :=
  let s := withQueues (memState wf0) [(3, boundQueue)]
  (s.part? 0).elim s fun p => s.setPart 0 { p with kernels := [(0, { kernM with queue := 3, seq := 4 }), (1, k)] }
theorem witness_start : (kernelState (waitingKern 0)).waitMask 0 1 (waitingKern 0) = 0 ∧ (kernelState (waitingKern 1)).waitMask 0 1 (waitingKern 1) = 1 ∧
    (kernelState (waitingKern 0)).kernel? 0 1 = some (waitingKern 0) := by decide +kernel
/-- A running kernel of 4 groups that has formed `n` of them. -/
def runningKern (n : Nat) (records : Tab RecEntry) : Kernel :=
  { waitingKern 0 with state := .running, gcount := 4, nextIdx := n, records := records, launch := { (waitingKern 0).launch with demand := 8 }, maxStoves := 64 }
theorem witness_formation : let k := runningKern 2 [(0, { record := { ready := true }, age := 2048 })]
    k.nextIdx < min (k.gfirst + k.gcount) (k.launch.gx * k.launch.gy * k.launch.gz) ∧ (k.records.filter fun e => !e.2.record.spawned).length < 256 ∧
    1024 ≤ 4096 - k.records.length ∧ (Tab.get? k.records 1).isNone = true ∧ (Tab.get? k.records 0).isSome = true ∧
    (kernelState k).kernel? 0 1 = some k ∧ (runningKern 4 []).lastIdx ≤ 4 := by decide +kernel
theorem witness_retire : let k := runningKern 4 [(2, { record := { spawned := true, join := 3 } })]
    k.state = .running ∧ min (k.gfirst + k.gcount) (k.launch.gx * k.launch.gy * k.launch.gz) ≤ k.nextIdx ∧ k.live = 0 ∧
    (∀ e ∈ k.records, e.2.record.spawned = true ∧ e.2.record.ready = false) ∧ k.obmap = 0 ∧ k.status = 0 ∧ k.launch.done = 0 ∧ k.scp = [] ∧
    (∀ n ∈ (kernelState k).partStoves 0, ((kernelState k).stove n).posted = []) ∧
    ((kernelState k).ctx? k.cid).bind (fun c => Tab.get? c.queues k.queue) = some boundQueue := by decide +kernel
/-- A ready record that is index 2 of its grid. -/
def readyRec : Tab RecEntry := [(7, { record := { code := 0x10000#64, frame := 0x500000040#64, index := 2, ready := true }, age := 1 })]
theorem witness_pop : let s := kernelState (runningKern 4 readyRec)
    s.partOf 1 = some 0 ∧ ((s.part? 0).any fun p => (firstOf p (s.candidates 0 p 1)).any fun c => c.what == .record 1 7) = true ∧ (s.stove 1).groups = [] ∧
    (s.stove 1).freeSlots[0]? = some 0 ∧ ((kernelState kernM).part? 0).any (fun p => ((kernelState kernM).candidates 0 p 1).isEmpty) = true := by decide +kernel

/-- Change partition 0. -/
def withPart (s : State) (f : Partition → Partition) : State := (s.part? 0).elim s fun p => s.setPart 0 (f p)
/-- A queue of two records of context 1. -/
def queueState (q : Queue) (c : Context) : State := { memState wf0 with ctxs := [(1, { c with queues := [(3, q)] })] }
theorem witness_kick : let q := { boundQueue with size := 8 }
    let fits := fun (tail : Word) => decide (0 < (tail - q.tail).toNat ∧ (tail - q.tail).toNat ≤ q.size - (q.tail - q.head).toNat)
    fits 12 = true ∧ fits 13 = false ∧ fits 5 = false ∧ fits 4 = false := by decide
theorem witness_bind : let s := withPart (queueState { boundQueue with state := .pending } { state := .running, grant := 1 }) fun p => { p with qslots := 4 }
    (s.ctx? 1).any (fun c => s.bindTarget c == some 0 && s.bindFirst c { boundQueue with state := .pending }) = true ∧ 0 ∉ s.slotsInUse ∧
    (s.ctx? 1).any (fun c => (queueState boundQueue { state := .running }).bindTarget c == none) = true := by decide +kernel
theorem witness_unbind : let q := { boundQueue with head := 5 }
    q.state = .bound ∧ q.pin = false ∧ q.head = q.tail ∧ ((queueState q {}).part? 0).any (fun p => p.kernels.all fun k => !(k.2.cid == 1 && k.2.queue == 3)) = true := by
  decide +kernel
theorem witness_watchdog : let q := { boundQueue with wdog := 5, wcount := 5 }
    let s := withPart (queueState q { state := .running }) fun p => { p with kernels := [(2, { kernM with queue := 3 })] }
    q.state = .bound ∧ q.wdog ≠ 0 ∧ q.wdog ≤ q.wcount ∧ (s.part? q.part).any (fun p => p.kernels == [(2, { kernM with queue := 3 })]) = true ∧ kernM.fdom = 0 ∧
    kernM.state = .running := by decide +kernel
theorem witness_grant : let c : Context := { grant := 6, queues := [(3, { boundQueue with part := 2 })] }
    c.state ≠ .destroyed ∧ c.grant.getLsbD 2 = true ∧ c.grant.getLsbD 1 = true ∧ ({ c with state := .destroyed } : Context).state = .destroyed := by decide

/-! #### Chapters 14 and 19: contexts and pages -/

/-- Hart 0 in HS with `x5`, `x6`, executing; a context 1 of its own. -/
def hartOn (s : State) (a b : DWord) (mode : HMode := .hs) (inside : Option (Nat × Nat) := none) : State :=
  { s with core := some 0, harts := [(0, { x := SMap.setAll [] [(5, a), (6, b)], pc := 0x60000000#64, mode := mode, inside := inside })] }
def encArgs : RArgs := ⟨7, 5, 6⟩
/-- A state with context 1 and nothing else running. -/
def quietState (c : Context) : State := { State.reset with stage := 6, ctxs := [(1, c)] }
/-- A context in BUILDING of the CCB at 0x7000_0000, the items of whose manifest (at 0x7000_1000) are threads. -/
def building (items : Nat) : State :=
  let s := hartOn (quietState { ccb := 0x70000000, manifest := 0x70001000, nitems := items }) 0x70000000#64 0
  { s with mem := Memory.write [] 0x70001000 ([4] ++ List.replicate 15 0 ++ leBytes 8 0x10000 ++ List.replicate 8 0) }
theorem witness_building : ∀ n ∈ [1, 2], let s := building n
    let it := [4#8] ++ List.replicate 15 0 ++ leBytes 8 0x10000 ++ List.replicate 8 0
    6 ≤ s.stage ∧ s.testMode = false ∧ s.building 0x70000000 = some 1 ∧ s.hostBytes [] 0x70001000 32 = some it ∧
    (match s.item 1 ((s.ctx? 1).getD {}) it with
      | .ok s1 => (s1.ctx? 1).any (fun c => c.roster == []) && s1.hart 0 == s.hart 0
      | _ => false) = true := by decide +kernel
theorem witness_encnew_refuses : (hartOn State.reset 0 0).stage < 6 ∧ (hartOn (quietState {}) 5 0).building 5 = none ∧ (5 : Nat) % 4096 ≠ 0 ∧
    (hartOn (quietState {}) 3 0).ctx? 3 = none := by decide +kernel
/-- A context that can run, its thread 0 at 0x2_0000. -/
def ready1 : Context := { state := .ready, threads := [(0, { pc := 0x20000#64 })] }
theorem witness_encin : let s := hartOn (quietState ready1) 1 0
    (s.hart 0).reg encArgs.rs1 = 1 ∧ (s.hart 0).reg encArgs.rs2 = 0 ∧ (s.hart 0).mode = .hs ∧ (s.ctx? 1).any (fun c => Tab.get? c.threads 0 == some { pc := 0x20000#64 }) = true ∧
    Tab.get? ready1.threads 1 = none ∧ (Tab.getD [(0, ({ hart := some 3 } : Thread))] 0 {}).hart ≠ none ∧ ({} : Context).state ≠ .ready ∧ ({} : Context).state ≠ .running := by decide
/-- A context that can be sealed, with queues and a peer. -/
def sealable (st : CState) (pst : LState) : Context :=
  { state := st, queues := [(3, boundQueue), (4, { state := .faulted }), (5, { state := .stopped }), (6, { state := .stopped, tail := 2 })], roster := [(2, { lstate := pst, keyed := true })] }
theorem witness_seal : let s := hartOn (quietState (sealable .running .active)) 1 0
    s.ctx? 1 = some (sealable .running .active) ∧ (0 : DWord).toNat ≤ 2 ∧ (sealable .running .active).threads = [] ∧ s.stoves = [] ∧ s.parts = [] ∧
    (∀ p ∈ (sealable .running .active).roster, p.2.lstate = .active → p.2.held = []) ∧ (sealable .suspended .suspended).state = .suspended ∧ s.uncorr = [] ∧
    (sealable .building .idle).state ≠ .ready ∧ (sealable .building .idle).state ≠ .running ∧ (sealable .destroyed .idle).state = .destroyed := by decide
theorem witness_destroy : let s := { hartOn (quietState (sealable .faulted .idle)) 1 0 with own := [(0x60020, { owner := 1, state := .owned }), (0x60021, { owner := 2, state := .owned })] }
    NoneBuffered s ∧ Tab.sorted s.own = true ∧ (∀ o ∈ s.own, o.2.owner = 1 → o.2.state ≠ .sharedClear) :=
  ⟨fun st h => (List.not_mem_nil h).elim, by decide, by decide⟩
theorem witness_inside : let s := hartOn (quietState ready1) 1 0 .vs (some (1, 0))
    (s.hart 0).inside = some (1, 0) ∧ (s.hart 0).mode = .vs ∧ s.ctx? 1 = some ready1 ∧ ((hartOn (quietState ready1) 1 0).hart 0).inside = none := by decide
theorem witness_context_events : let c : Context := { state := .running, queues := [(3, boundQueue)], pmsel := [(0, 2), (1, 4)] }
    let s := { quietState c with purge := [1] }
    s.ctx? 1 = some c ∧ c.threads = [] ∧ 1 ∈ s.purge ∧ 1 ∉ (quietState c).purge ∧ ¬(3 ≤ (SMap.get c.pmsel 0).toNat ∧ (SMap.get c.pmsel 0).toNat ≤ 9) ∧
    ({ c with fkind := 2, state := .faulted } : Context).state ≠ .ready := by decide +kernel

/-- A thread of context 1 that has called page service `svc` with a block at 0x2_0000; the entry of 0x2_1000, and the record of the page
0x6002_1000. -/
def asking (svc : Nat) (va pa perm lvl : Nat) (entry : Nat) (o : Own) : State :=
  let s := hartOn (tabled (quietState { state := .running, ptroot := 0x60000000 })) 0 0 .vs (some (1, 0))
  { s with
    mem := Memory.write (Memory.write (tables [(32, 0x6002003B), (33, entry)]) 0x60020100 (leBytes 4 0x73)) 0x60020000 (leBytes 8 va ++ leBytes 8 pa ++ [BitVec.ofNat 8 perm, BitVec.ofNat 8 lvl] ++ List.replicate 14 0)
    own := [(0x60020, { owner := 1, state := .owned }), (0x60021, o)]
    harts := [(0, { x := SMap.setAll [] [(10, 0x20000), (17, BitVec.ofNat 64 (0x504C0000 + svc))], pc := 0x20100#64, mode := .vs, inside := some (1, 0) })] }
theorem none_buffered (s : State) (h : s.stoves = []) : NoneBuffered s := fun st h' => by rw [h] at h'; exact (List.not_mem_nil h').elim
theorem witness_asks : ∀ svc ∈ [0x100, 0x101, 0x102, 0x103, 0x104, 0x105, 0x106, 0x107],
    Asks (asking svc 0x21000 0x60021000 5 0 0 {}) (.hart 0) svc 1 0x20000 ⟨0x21000, 0x60021000, 5, 0, 0x60020000⟩ ∧
    (asking svc 0x21000 0 2 0 0 {}).readBlock 1 0x20000 = .cause 6 ∧ (asking svc 0 0 0 0 0 {}).caller (.hart 1) svc = none ∧
    Asks (asking svc 0x21001 0 5 0 0 {}) (.hart 0) svc 1 0x20000 ⟨0x21001, 0, 5, 0, 0x60020000⟩ ∧
    Asks (asking svc 0x21000 0 5 1 0 {}) (.hart 0) svc 1 0x20000 ⟨0x21000, 0, 5, 1, 0x60020000⟩ := by
  unfold Asks
  decide +kernel
theorem witness_map : let r : PageReq := ⟨0x21000, 0x60021000, 5, 0, 0x60020000⟩
    r.vaOk = true ∧ (asking 0x100 0x21000 0x60021000 5 0 0 { owner := 1, state := .owned }).mapPaOk 1 r false = true ∧
    (asking 0x106 0x21000 0x60021000 5 0 0 { owner := 2, state := .sharedClear }).mapPaOk 1 r true = true ∧
    (asking 0x100 0x21000 0x60021000 5 0 0 {}).mapPaOk 1 r false = false ∧ (asking 0x106 0x21000 0x60021000 5 0 0 {}).mapPaOk 1 r true = false ∧
    (asking 0x100 0x21000 0x60021000 5 0 0 {}).leafPos 1 0x21000 0 = .entry 0x60004108 0 ∧ pteV 0 = false ∧ EntryPlace (asking 0x100 0x21000 0x60021000 5 0 0 {}) 0x60004108 ∧
    (asking 0x100 0x21000 0x60021000 5 0 0x6002103B {}).leafPos 1 0x21000 0 = .entry 0x60004108 0x6002103B ∧ pteV 0x6002103B = true := by
  unfold EntryPlace
  decide +kernel
theorem witness_leaf : ∀ o ∈ [OState.owned, .sharedClear], let s := asking 0x101 0x21000 0 5 0 0x6002103B { owner := 1, state := o }
    s.leafPos 1 0x21000 0 = .entry 0x60004108 0x6002103B ∧ pteLeaf 0x6002103B = true ∧ ptePa 0x6002103B < localTop ∧ leafPages 0 0x6002103B = [0x60021] ∧
    EntryPlace s 0x60004108 ∧ (s.ownOf (0x60021 * 4096)).owner = 1 ∧ (s.ownOf (0x60021 * 4096)).state = o ∧ o ≠ .transit ∧ (s.ctxs.map (·.1)) = [1] := by
  unfold EntryPlace
  decide +kernel
theorem witness_walk : let s := asking 0x107 0x21000 0 5 0 0x6002103B { owner := 1, state := .owned }
    s.devPa 1 0x20000 .store = .ok 0x60020000 ∧ paKind 0x60020018 = .hbm ∧ s.bad 0x60020018 = false ∧ s.walk 1 0x21000 = .leaf 0 0x60004108 0x6002103B ∧
    (asking 0x107 0x22000 0 5 0 0 {}).walk 1 0x22000 = .miss 0 0x60004110 0 := by decide +kernel

/-- Page tables in the firmware's memory from 0x1000_0000, whose entry of 0x2_1000 is given. -/
def lowTables (e : Nat) : Memory :=
  let entry := fun (m : Memory) (k : Nat) (idx v : Nat) => Memory.write m (0x10000000 + 4096 * k + 8 * idx) (leBytes 8 v)
  entry (entry (entry (entry (entry [] 0 0 0x10001001) 1 0 0x10002001) 2 0 0x10003001) 3 0 0x10004001) 4 33 e
/-- Context 1 with those tables and nothing owned. -/
def lowState (e : Nat) (c : Context) : State := { State.reset with mem := lowTables e, ctxs := [(1, { c with ptroot := 0x10000000 })] }
/-- With nothing owned the first stack that is looked at has a free page. -/
theorem pickRun_free (s : State) (st : Nat) (rest : List Nat) (ho : s.own = []) :
    ∃ p s1, s.pickRun 1 (st :: rest) = (some p, s1) ∧ 393216 ≤ p := by
  refine ⟨(stackPages st).1 + (Config.freeWord s.freeIdx).toNat % ((stackPages st).2 / 1) * 1, { s with freeIdx := s.freeIdx + 1 }, ?_, ?_⟩
  · simp [State.pickRun, State.takeFree, State.freeRunIn, ho]
  · have h : 393216 ≤ (stackPages st).1 := by
      unfold stackPages
      split
      · exact Nat.le_refl _
      · rename_i h
        exact Nat.le_trans (by decide) (Nat.mul_le_mul_right _ (Nat.pos_of_ne_zero h))
    exact Nat.le_trans h (Nat.le_add_right _ _)
/-- Every page owned. -/
def fullOwn : Tab Own := (List.range (2 ^ 29)).map fun p => (p, { owner := 1, state := .owned })
theorem freeRunIn_full (s : State) (ho : s.own = fullOwn) (lo runs : Nat) (h : 0 < runs) (h' : lo + runs ≤ 2 ^ 29) :
    ∀ fuel r, s.freeRunIn lo runs 1 fuel r = none
  | 0, _ => rfl
  | n + 1, r => by
    have hp : lo + r % runs * 1 < 2 ^ 29 := by have := Nat.mod_lt r h; omega
    have hm : (lo + r % runs * 1, ({ owner := 1, state := .owned } : Own)) ∈ s.own := ho ▸ List.mem_map.mpr ⟨_, List.mem_range.mpr hp, rfl⟩
    have ha : (s.own.any fun (x : Nat × Own) => lo + r % runs * 1 ≤ x.1 && x.1 < lo + r % runs * 1 + 1 && x.2.state != .free) = true :=
      List.any_eq_true.mpr ⟨_, hm, by simp⟩
    unfold State.freeRunIn
    simp only [ha, if_true]
    exact freeRunIn_full s ho lo runs h h' n (r + 1)
theorem pickRun_full (l : List Nat) (h : ∀ st ∈ l, st < 16) (s : State) (ho : s.own = fullOwn) : ∃ s1, s.pickRun 1 l = (none, s1) := by
  induction l generalizing s with
  | nil => exact ⟨s, rfl⟩
  | cons st rest ih =>
    obtain ⟨s1, h1⟩ := ih (fun x hx => h x (List.mem_cons_of_mem _ hx)) { s with freeIdx := s.freeIdx + 1 } ho
    have hs : st < 16 := h st List.mem_cons_self
    have hb : 0 < (stackPages st).2 ∧ (stackPages st).1 + (stackPages st).2 ≤ 2 ^ 29 := by unfold stackPages; (split <;> simp); all_goals omega
    refine ⟨s1, ?_⟩
    unfold State.pickRun
    simp only [State.takeFree, Nat.div_one]
    rw [freeRunIn_full { s with freeIdx := s.freeIdx + 1 } ho _ _ hb.1 hb.2]
    exact h1
/-- The state with no page left. -/
def fullState : State := { lowState 0x120 { state := .running } with own := fullOwn }
theorem mem_insertBy {α : Type} (key : α → Nat × Nat × Nat) (x a : α) : ∀ l, a ∈ insertBy key x l → a = x ∨ a ∈ l
  | [], h => by simpa [insertBy] using h
  | y :: t, h => by
    unfold insertBy at h
    simp only at h
    split at h
    · simpa using h
    · rcases List.mem_cons.mp h with rfl | h
      · exact .inr List.mem_cons_self
      · exact (mem_insertBy key x a t h).imp id (List.mem_cons_of_mem _)
theorem mem_byOwned (s : State) (l : List Nat) (a : Nat) (h : a ∈ s.byOwned l) : a ∈ l := by
  suffices H : ∀ acc, a ∈ l.foldl (fun acc st => insertBy (fun x => (s.ownedIn x, x, 0)) st acc) acc → a ∈ l ∨ a ∈ acc from
    (H [] h).resolve_right (by simp)
  clear h
  induction l with
  | nil => exact fun acc h => .inr h
  | cons x t ih =>
    intro acc h
    rcases ih _ h with h | h
    · exact .inl (List.mem_cons_of_mem _ h)
    · rcases mem_insertBy _ _ _ _ h with rfl | h
      · exact .inl List.mem_cons_self
      · exact .inr h
theorem witness_no_page : ∃ s1, fullState.pickRun (512 ^ 0) (fullState.stackOrder 0) = (none, s1) := by
  rw [Nat.pow_zero]
  refine pickRun_full _ (fun st h => ?_) _ (by rw [fullState])
  rcases List.mem_append.mp h with h | h
  · have h := mem_byOwned _ _ _ h
    simp [dieOf] at h
    omega
  · exact List.mem_range.mp (List.mem_filter.mp (mem_byOwned _ _ _ h)).1
theorem witness_demand : let s := lowState 0x120 { state := .running }
    s.walk 1 0x21000 = .miss 0 0x10004108 0x120 ∧ pteDemand 0x120 = true ∧ pteDemand 0 = false ∧ (lowState 0 {}).walk 1 0x21000 = .miss 0 0x10004108 0 ∧
    EntryPlace s 0x10004108 ∧ (∃ p s1, s.pickRun (512 ^ 0) (s.stackOrder 0) = (some p, s1) ∧ (0x10004108 / 4096 < p ∨ p + 512 ^ 0 ≤ 0x10004108 / 4096)) := by
  refine ⟨by decide +kernel, by decide, by decide, by decide +kernel, by unfold EntryPlace; decide +kernel, ?_⟩
  obtain ⟨p, s1, h, hp⟩ := pickRun_free (lowState 0x120 { state := .running }) 0 [1, 2, 3, 4, 5, 6, 7, 8, 9, 10, 11, 12, 13, 14, 15] rfl
  refine ⟨p, s1, ?_, Or.inl (Nat.lt_of_lt_of_le (by decide) hp)⟩
  have e : (lowState 0x120 { state := .running }).stackOrder 0 = 0 :: [1, 2, 3, 4, 5, 6, 7, 8, 9, 10, 11, 12, 13, 14, 15] := by decide +kernel
  rw [e]
  exact h
/-- The page 0x6002_1000 of context 1 in a state. -/
def pageIn (o : OState) (c : Context) : State := { lowState 0x6002103B c with own := [(0x60021, { owner := 1, state := o })] }
theorem witness_transit : (pageIn .owned { state := .running }).ownLeaf 1 0x21000 .owned = some (0, 0x10004108, 0x6002103B, [0x60021]) ∧
    (pageIn .transit { state := .running, moves := [(0x60021, false)] }).ownLeaf 1 0x21000 .owned = none ∧
    (pageIn .transit { state := .running, moves := [(0x60021, false)] }).ownLeaf 1 0x21000 .transit = some (0, 0x10004108, 0x6002103B, [0x60021]) ∧
    EntryPlace (pageIn .transit {}) 0x10004108 ∧ 0x10004108 / 4096 ≠ 0x60021 ∧ ({ state := .faulted } : Context).state ≠ .suspended := by
  refine ⟨by decide +kernel, by decide +kernel, by decide +kernel, by unfold EntryPlace; decide +kernel, by decide, by decide⟩
/-- The image on record, whatever the cipher. -/
def onRecord (c : Context) : SealedImage :=
  let i : SealedImage := { cid := 1, va := 0x21000, perm := 1, seq := 3, data := [], tag := 0 }
  { i with tag := Config.gcmTag c.kseal (imageIv i) (imageAad i) [] }
theorem witness_pagein : let c : Context := { state := .running, ptroot := 0x10000000 }
    let s := lowState 0x300000220 { state := .running }
    s.walk 1 (onRecord c).va = .miss 0 0x10004108 0x300000220 ∧ ptePaged 0x300000220 = true ∧ (onRecord c).cid = 1 ∧ canonical (onRecord c).va = true ∧
    (onRecord c).seq = (0x300000220#64).extractLsb' 32 32 ∧ (onRecord c).perm = bitsPerm 0x300000220 ∧
    (onRecord c).tag = Config.gcmTag c.kseal (imageIv (onRecord c)) (imageAad (onRecord c)) (onRecord c).data ∧
    (∃ p s1, s.takePage 1 .owned = (some p, s1) ∧ 0x10004108 / 4096 ≠ p) ∧ ¬(({ onRecord c with seq := 4 } : SealedImage).seq = (0x300000220#64).extractLsb' 32 32) := by
  refine ⟨by decide +kernel, by decide, rfl, by decide, rfl, rfl, rfl, ?_, by decide⟩
  have hl : (List.range 16).map (fun j => ((Config.freeWord 0).toNat % 16 + j) % 16) =
      ((Config.freeWord 0).toNat % 16 + 0) % 16 :: ((List.range' 1 15).map fun j => ((Config.freeWord 0).toNat % 16 + j) % 16) := rfl
  obtain ⟨p, s1, h, hp⟩ := pickRun_free { lowState 0x300000220 { state := .running } with freeIdx := 1 } (((Config.freeWord 0).toNat % 16 + 0) % 16)
    ((List.range' 1 15).map fun j => ((Config.freeWord 0).toNat % 16 + j) % 16) rfl
  refine ⟨p, (s1.scrubPages [p]).ownPages [p] 1 .owned, ?_, fun e => absurd (e ▸ hp) (by decide)⟩
  show (match State.pickRun { lowState 0x300000220 { state := .running } with freeIdx := 1 } 1 ((List.range 16).map fun j => ((Config.freeWord 0).toNat % 16 + j) % 16) with
    | (some p, s1) => (some p, (s1.scrubPages [p]).ownPages [p] 1 .owned)
    | (none, s1) => (none, s1)) = _
  rw [hl, h]

/-! #### Chapters 12, 14, 20: outside agents -/

/-- A state whose context 1 is running on the tables of chapter 10, with nothing else in it. -/
def outState : State := tabled (quietState { state := .running, ptroot := 0x60000000 })
/-- Chimney 3's host has a window, one request of which waits, and the page at 0x2_1000 is paged out. -/
def hostState : State := { outState with mem := tables [(32, 0x6002003B), (33, 0x300000220)], hosts := [(3, { tags := 2, bytes := 10, waiting := [(5, 8)] })] }
theorem witness_host : outState.reachable 1 = true ∧ outState.reachable 2 = false ∧ (hostState.hostWin 3).fits 9 2 = true ∧ (hostState.hostWin 4).fits 9 2 = false ∧
    (hostState.hostWin 64).fits 9 0 = false ∧ hostState.reachable 1 = true ∧ hostState.devPa 1 0x21000 .store = .wait ∧ hostState.devRead 1 0x21000 4 = .wait ∧ (0x20FFE : Nat) % 4096 + 2 ≤ 4096 ∧
    outState.devPa 1 0x20FFE .store = .ok 0x60020FFE ∧ outState.devPa 1 0x20000 .load = .ok 0x60020000 ∧ paKind 0x60020FFE = .hbm ∧
    (∀ j < 2, outState.bad (0x60020FFE + j) = false) ∧ outState.devPa 1 0x30000 .store = .cause cXLATE ∧ outState.devRead 1 0x30000 4 = .cause cXLATE ∧
    outState.devRead 1 0x20000 4 = .ok [0, 0, 0, 0] := by decide +kernel
/-- Interface 3 of port 0, bound to context 1 at index 5. -/
def boundState (st : TState) : State := { outState with tdisp := [(3, { state := st, cid := 1, index := 5 })] }
theorem witness_device : (Tab.getD (boundState .run).tdisp (ifaceKey 0 3) {}).state = .run ∧ (boundState .run).reachable 1 = true ∧
    (Tab.getD (boundState .error).tdisp (ifaceKey 0 3) {}).state ≠ .run ∧ (boundState .run).devPa 1 0x20000 .store = .ok 0x60020000 ∧
    (boundState .run).devPa 1 0x30000 .store = .cause cXLATE ∧ (boundState .run).devRead 1 0x30000 4 = .cause cXLATE ∧
    (boundState .run).devRead 1 0x20000 4 = .ok [0, 0, 0, 0] ∧ (∀ j < 4, (boundState .run).bad (0x60020000 + j) = false) := by decide +kernel
theorem witness_bind_interface : outState.reachable 1 = true ∧ (5 : Nat) < 32 ∧ (outState.tdisp.filter fun (x : Nat × Tdisp) => x.1 / 65536 == 0 && x.2.state == .run).length < 64 ∧
    (Tab.getD outState.tdisp (ifaceKey 0 3) {}).state ≠ .run ∧ (outState.ctx? 1).any (fun c => (Tab.get? c.iface 5).isNone) = true := by decide +kernel

/-- A stream of context 1 with roster member 2. -/
def streamState (p : Peer) : State := quietState { state := .running, roster := [(2, p)] }
theorem witness_streams : (∀ l ∈ [LState.keying, .lost, .active, .excluded], (streamState { lstate := l }).peer? 1 2 = some { lstate := l }) ∧
    (let p : Peer := { lstate := .keying, idHash := 5, measH := 6, path := 1, pcid := 9, held := [⟨0, 0, .store [1]⟩] }
     let me : PeerId := ⟨true, 5, 6, 9⟩
     (me.idHash = p.idHash ∧ me.measH = p.measH) ∧ p.path / 2 % 2 = 0 ∧ (⟨true, 5, 7, 9⟩ : PeerId).measH ≠ p.measH ∧ (⟨false, 5, 6, 9⟩ : PeerId).ok = false ∧
     2 ^ 48 ≤ ({ p with ctrTx := 2 ^ 48 } : Peer).ctrTx) := by decide

/-- A port that is up, one flit not yet acknowledged. -/
def portState (replays : Nat) : State :=
  { streamState { lstate := .active, path := 1 } with ports := [(0, { up := true, expect := 7, acked := 3, replay := [⟨1, 2, 0, ⟨0, 1, 2, 5, 6, 0, 9, 0, 0, [], 0, 0⟩, replays⟩] })] }
/-- A flit with its CRC. -/
def sealed (f : Flit) : Flit := { f with crc := crc64 (flitBytes f) }
def flitOf (kind : Byte) (seq ack : Word) : Flit := sealed { vc := 1, kind := kind, sid := 2, seq := seq, ackSeq := ack, hold := 0, tagId := 9, ctr := 4, addr := 0, payload := [], gtag := 0, crc := 0 }
/-- A flit that the stream makes, whatever its key is. -/
def flitOurs (kind : Byte) : Flit :=
  let f := flitOf kind 7 3
  sealed { f with gtag := flitTag ((portState 0).streamKey 1 2 0 0 false) (flitIv 1 2 false 4) f }
theorem witness_flits : ∀ k ∈ [0, 14, 15], ((portState k).port 0).up = true ∧ ((portState k).port 1).up = false ∧ (flitOf 0 0 3).vc.toNat ≤ 4 ∧
    (flitOf 3 9 3).seq ≠ ((portState k).port 0).expect ∧ (flitOf 3 7 3).seq = ((portState k).port 0).expect ∧
    ((portState k).port 0).replay.filter (fun x => BitVec.slt 0 (x.flit.seq - 3)) ≠ [] ∧
    (portState k).streamsOf 0 2 = [(1, { lstate := .active, path := 1 })] ∧ (portState k).peer? 1 2 = some { lstate := .active, path := 1 } := by decide +kernel
theorem witness_flit_crc (f : Flit) : crc64 (flitBytes (sealed f)) = (sealed f).crc ∧ ∃ g : Flit, crc64 (flitBytes g) ≠ g.crc := by
  refine ⟨by simp only [sealed, flitBytes, fullPayload], ?_⟩
  obtain ⟨c, hc⟩ : ∃ c : DWord, crc64 (flitBytes f) ≠ c := ⟨~~~(crc64 (flitBytes f)), fun h => by
    generalize crc64 (flitBytes f) = x at h
    have h0 := congrArg (fun y : DWord => y.getLsbD 0) h
    simp at h0⟩
  exact ⟨{ f with crc := c }, hc⟩
theorem witness_flit_ours (kind : Byte) : flitTag ((portState 0).streamKey 1 2 0 0 false) (flitIv 1 2 false (flitOurs kind).ctr) (flitOurs kind) = (flitOurs kind).gtag ∧
    ∀ a, (portState 0).bad a = false := ⟨by simp only [flitOurs, sealed, flitOf, flitTag, flitAad, flitText, fullPayload], fun _ => rfl⟩

/-- Hart 0 runs a thread of context 1, whose queue 3 has its kick page at 0x5_0000. -/
def coreState : State := { outState with
  ctxs := [(1, { state := .running, ptroot := 0x60000000, queues := [(3, { boundQueue with kickva := 0x50000#64 })] })]
  harts := [(0, { x := [(7, 9)], mode := .vs, inside := some (1, 0), resv := some (0x60020000 / 128) })] }
theorem witness_core : (coreState.hart 0).inside = some (1, 0) ∧ (coreState.ctx? 1).any (fun c => c.kickAt 0x50004 == some (3, 4) && c.kickAt 0x20008 == none) = true ∧
    (∀ k ∈ [Acc.load, .store, .atom], coreState.corePa (coreState.hart 0) 0x20008 8 k = .ok 0x60020008) ∧ coreState.bad 0x60020008 = false ∧
    coreState.corePa (coreState.hart 0) 0x30000 4 .load = .cause cXLATE ∧ (coreState.ctx? 1).any (fun c => c.kickAt 0x30000 == none) = true := by decide +kernel

/-- Connection 1 of a device in a stage. -/
def spdmState (stage : Nat) (c : Spdm) : State := { State.reset with stage := stage, rot := { trusted := true, monoLeaf := 2048, nextLeaf := 1030, leafEnd := 2048 }, spdm := [(1, c)], ctxs := [(4, {})] }
def inSession : Spdm := { versioned := true, caps := some 0, algs := true, keyed := true, session := true, owner := some 4 }
theorem witness_spdm : ¬(spdmState 3 inSession).stage < 2 ∧
    (spdmState 6 inSession).conn 1 = inSession ∧ (spdmState 6 inSession).conn 2 = {} ∧ ((spdmState 6 inSession).ctx? 4).isSome = true ∧
    (spdmState 6 inSession).rot.trusted = true ∧ (spdmState 6 inSession).testMode = false ∧ (1030 : Nat) < 2 ^ 40 ∧ (spdmState 1 inSession).stage < 2 ∧
    (⟨true, true, true, true⟩ : SpdmAlgs).gcm = true := by decide

/-! #### Chapters 21, 22 and 3 -/

def spec0 : PartSpec := { hearths := [9, 3], straits := [(0, 64)], chimneys := [], hbms := [(1, 32)], cshare := 8, ways := 0xF, qslots := 16, slice := 0 }
def formState (st : PState) : State := { State.reset with stage := 4, parts := [(2, { state := st, hearths := [3] })], remap := [(3, ⟨2, 0⟩)] }
theorem witness_form : 4 ≤ (formState .failed).stage ∧ (formState .failed).hearthsOk 2 spec0.hearths = true ∧ (formState .failed).controlsOk 2 spec0 = true ∧
    ((formState .running).part? 2).any (fun p => p.switched == [] && p.kernels == []) = true ∧ ((formState .running).partStoves 2).all (fun st => ((formState .running).stove st).groups == []) = true ∧ (formState .failed).hearthsOk 1 spec0.hearths = false ∧
    ((formState .draining).part? 2).any (fun p => p.state == .draining) = true ∧
    (∀ st ∈ (formState .draining).partStoves 2, ((formState .draining).stove st).flues = [] ∧ ((formState .draining).stove st).groups = []) := by decide +kernel
/-- Hearths 3 and 9 at 1,500 and 600 MHz. -/
def clockState : State := { formState .running with hearths := [(3, {}), (9, { clock := 600, target := 1500, raisePending := true })], dies := [(0, { hot := true })], powerSteps := [3, 3, 9] }
theorem witness_clocks : ((clockState.part? 2).bind fun p => p.hearths[0]?) = some 3 ∧ (clockState.hearth 9).raisePending = true ∧ Tab.sorted clockState.parts = true ∧
    500 < (clockState.hearth 3).clock ∧ (clockState.die 0).hot = true ∧ (clockState.die 1).hot = false ∧ (∀ x ∈ State.reset.parts, 500 < x.2.cshare) := by decide
theorem witness_recovery : ({ gen := 2, frozen := true, recoverAge := 2 ^ 32 } : Firmware).frozen = true ∧ 2 ^ 32 ≤ ({ gen := 2, frozen := true, recoverAge := 2 ^ 32 } : Firmware).recoverAge ∧
    2 ^ 24 ≤ ({ heartbeat := 2 ^ 24 } : Firmware).heartbeat ∧ (let s := spdmState 6 inSession
      s.rot.trusted = true ∧ s.fw.old = none ∧ s.rot.monoVersion ≤ 3) := by decide
theorem witness_stages : ∀ n ∈ [0, 1, 2, 3, 4], (spdmState n {}).stage = n ∧ (spdmState n {}).halted = false := by decide

/-- A clause of one IADD, at 0x2_0000 of context 1, whose lanes 0 to 3 stand there. -/
def clauseState (h : Word) (w : Word) (f : Flue) : State :=
  let s := memState { f with pc := (List.range 4).map fun l => (l, 0x20000#64) }
  { s with mem := Memory.write [] 0x60020000 (bytesOfWord h ++ bytesOfWord w) }
theorem witness_clause : ∀ h ∈ [0x07F80001#32, 0x0FF80001, 0x17F80001], let s := clauseState h 0x001C78F1 wf0
    let f := { wf0 with pc := (List.range 4).map fun l => (l, 0x20000#64) }
    Maps s 0 1 0x20000 4 .fetch false 0x60020000 ∧ s.flue? 0 0 = some f ∧ (f.mayIssue = true ∧ f.lanesAt 0x20000 = 0xF#32 ∧ (inClause f.clauses 0x20000).isNone = true ∧
      f.heldLanes &&& f.lanesAt 0x20000 = 0) ∧ headerOk h 0x20000 = true ∧ bodyFault h f.demand 15 1 [0x001C78F1#32] = none ∧ f.waitBusy h = false ∧
    f.regionOpen = false ∧ s.bad 0x60020000 = false := by
  intro h hh
  have hh : h = 0x07F80001#32 ∨ h = 0x0FF80001 ∨ h = 0x17F80001 := by simpa using hh
  rcases hh with rfl | rfl | rfl <;>
    exact ⟨maps_of _ _ _ _ _ _ { state := .running } rfl (by decide +kernel), by decide +kernel⟩
theorem witness_clause_faults : headerOk 0x07F80000 0x20000 = false ∧ headerOk 0x07F80001 0x20000 = true ∧ (bodyFault 0x07F80001 16 15 1 [0xFFFFFFFF#32]).isSome = true ∧
    ({ wf0 with flags := [(2, 1)] } : Flue).waitBusy 0x07F80201 = true ∧ hdrYp 0x17F80001 = true ∧ hdrRe 0x0FF80001 = true ∧
    ({ wf0 with pending := [(9, trapPending)] } : Flue).mayIssue = false := by decide +kernel

/-- A step fetches, decodes and runs: the word of NOP, in a clause of its own, leaves every lane at the line after it. -/
theorem witness_step : (match step (State.reset.withFetchWord 64 16285016255851775880) with
    | .next t => (t.flue? 0 0).any (fun f => (List.range 32).all fun l => f.pcOf l == 0x1000C#64) && t.issue.isNone
    | _ => false) = true := by decide +kernel
/-- The turns that a statement names. -/
theorem witness_turn : let s := State.reset.withFetchWord 64 16285016255851775880
    s.turns = [.issue 0 0] ∧ (∀ p ∈ burnerSlots (s.stove 0) 0, p.2.pageWait = none ∧ p.2.ringWait = false) ∧ (s.pickFlue 0 0).any (fun p => p.1 == 0 && instrAt p.2 0x10000 == none) = true := by decide +kernel
/-- ENCOUT's word, placed for a hart outside every context: the hart is in no thread, an illegal instruction. -/
theorem witness_hart_turn : let s := { State.reset.placeHart 0x0060850B#32 with turns := [] }
    (s.hartWord 0).1 = .ok 0x0060850B#32 ∧ (0x0060850B#32).extractLsb' 0 7 = 0x0B#7 ∧ ((State.reset.placeHart 0x13#32).hartWord 0).1 = .ok 0x13#32 ∧ ((asking 0x100 0 0 0 0 0 {}).hart 0).callsPages 0x73 = true := by decide +kernel
theorem witness_outside : State.reset.issue = none ∧ State.reset.core = none ∧ (Instr.nop (ctl .zero .zero .zero)).code ≠ .event ∧
    (Instr.encin ⟨10, 11, 12⟩).code = .enclave 1 ⟨10, 11, 12⟩ := by decide
theorem witness_memory_form : Memory.wf State.reset.mem = true ∧ Memory.wf (State.reset.withFetchWord 64 16285016255851775880).mem = true := by decide +kernel
/-- A result under way to `v1`, counted by flag 2, and a lane in the escalation unit. -/
theorem witness_late : let o : Outstanding := { flag := some 2, writes := [⟨.v 0 1, 3, 5, true⟩], seed := 4 }
    let f := { wf0 with outs := [{}, o], flags := [(2, 1)], escs := 1, escLanes := 8 }
    f.outs[1]? = some o ∧ f.rvs = [] ∧ (∀ w ∈ o.writes, w.lane < 32) ∧ (stateOf f).flue? 0 0 = some f ∧ Holds f (.v 0 1) := ⟨rfl, rfl, by decide, rfl, rfl⟩
theorem witness_escalation : let e : EscEntry := ⟨0, 2, [⟨.v 0 1, 2, 1, false⟩], none, some 0x1000C#64, 7, 4⟩
    let s := stateOf { wf0 with escs := 1, escLanes := 4 }
    let t := s.setStove 0 { s.stove 0 with esc := [e] }
    (t.stove 0).esc = [e] ∧ t.flue? 0 e.slot = some { wf0 with escs := 1, escLanes := 4 } ∧ (∀ w ∈ e.writes, w.lane < 32) ∧ e.lane < 32 := by decide +kernel
theorem witness_points : ∀ q ∈ [(⟨0, 1⟩ : Q), ⟨3, 1⟩, ⟨-5, 4⟩], 0 < q.den := by decide

/-! #### Lines, peers, outside agents: what the hypotheses of several statements share -/

/-- Where no line is marked, held in the LLC or listed in the side table, every line is whole. -/
theorem whole_of (s : State) (pa : Nat) (h : s.side = [] ∧ s.uncorr = [] ∧ s.llc = []) : Whole s pa :=
  ⟨by simp [State.bad, State.llcBad, State.tagFails, h.1, h.2.1, h.2.2, Tab.get?], by rw [h.2.2]; rfl, fun e he => by simp [h.1, Tab.get?] at he⟩
theorem witness_whole (f : Flue) : (∀ a, Whole (memState f) a) ∧ PostedWhole (postedState f) posted2 ∧ (∀ p ∈ posted2.take 1, p.kind.isRed = false) ∧
    (∀ a, Whole outState a) ∧ Whole (spillState f) (0x60020000 + 1024) ∧ (memFlue.sectors.length + 8 ≤ 256) ∧
    (∀ q ∈ ({ memFlue with sectors := sectors3 } : Flue).sectors, q.bytes.length = 16) :=
  ⟨fun _ => whole_of _ _ ⟨rfl, rfl, rfl⟩,
   fun p hp => ⟨whole_of _ _ ⟨rfl, rfl, rfl⟩, by revert p; decide +kernel⟩, by decide +kernel, fun _ => whole_of _ _ ⟨rfl, rfl, rfl⟩,
   whole_of _ _ ⟨rfl, rfl, rfl⟩, by decide, by decide +kernel⟩
/-- Sectors of GEN and PRIV that hold bytes of one place, no byte in both. -/
theorem witness_commit_shared : let cs : List Sector := [⟨0, 5, 1, some 7 :: List.replicate 15 none⟩, ⟨1, 5, 1, List.replicate 15 none ++ [some 3]⟩]
    (∀ c ∈ cs, c.bytes.length = 16 ∧ c.space ≤ 3) ∧ (cs.map fun c => (c.space, c.addr)).Nodup ∧
    (∀ c ∈ cs, ∀ d ∈ cs, c ≠ d → sameBytes c.space d.space = true → c.addr = d.addr → ∀ k < 16, c.bytes[k]?.join = none ∨ d.bytes[k]?.join = none) := by decide

/-- A result that is its lane's most recent one, and one that a later one has overtaken. -/
theorem witness_latch : let o : Outstanding := { writes := [⟨.v 0 1, 3, 5, true⟩], seed := 4 }
    let f := { wf0 with outs := [o], lown := [(3, 4)] }
    let g := { wf0 with outs := [o], lown := [(3, 6)] }
    f.outs[0]? = some o ∧ Tab.get? f.lown 3 = some o.seed ∧ Tab.get? g.lown 3 ≠ some o.seed ∧ f.rvs = [] := by decide
/-- Lane 3 is parked, one level above the current depth, with a step kept for it. -/
theorem witness_parked : let f := { wf0 with depth := [(0, 1), (1, 1), (2, 1)], frames := (deepFlue 1).frames, later := [(3, 0x1000C#64)] }
    f.curDepth = 1 ∧ f.live.getLsbD 3 = true ∧ f.depthOf 3 ≠ f.curDepth ∧ f.live ≠ 0 ∧ Tab.sorted f.later = true ∧ (∀ p ∈ f.later, p.1 < 32) := by decide
theorem witness_barrier_up : (issueOf (wordFlue 0)).lanes &&& ~~~((wordFlue 0).live &&& maskOf fun l => (wordFlue 0).depthOf l == (wordFlue 0).curDepth) = 0 ∧
    GroupUp (issueOf (wordFlue 0)) (wordFlue 0) := by unfold GroupUp; decide
/-- The arrivals of the gang's other member are in order, and its lanes can be stepped. -/
theorem witness_gang_members : let f := gangFlue 3
    (3 : Word) &&& (Tab.getD ((gangState f [gangRv]).stove 0).groups f.group {}).drained = 0 ∧ (gangRv.arrivals.map (·.1)).Pairwise (· < ·) ∧
    GroupUp (issueOf f) f ∧ (∀ p ∈ gangRv.arrivals, p.2.active ≠ 0 ∧ p.2.lanes &&& ~~~(({ wf0 with gflue := 1 } : Flue).unparked) = 0) ∧
    (gangState f [gangRv]).flue? 0 1 = some { wf0 with gflue := 1 } ∧ gangRv.b = (((issueOf f).src none).word gangArgs.b 0).setWidth 64 := by
  unfold GroupUp
  decide +kernel
theorem witness_ordered_reads : (op0 (.accz ldArgs) 2 1).mixed = [] ∧ (op0 (.accz ldArgs) 2 1).mixedAcc = [] ∧ (opFlue 1 (op0 (.accz ldArgs) 2 1)).openRvs = [] ∧
    ∀ p ∈ (engState (opFlue 1 (op0 (.accz ldArgs) 2 1))).groupOps 0 0, p.1 = 1 ∧ wf0.gflue ∈ p.2.members := by decide +kernel

theorem witness_rth_idle : inHandler.idle = true ∧ ({ inHandler with service := [callOf] } : Flue).idle = false ∧ (Tab.get? inHandler.later 0) = none := by decide
/-- The request of the spill engine can be met, or not, and a stack with no room for the frame. -/
theorem witness_spill_room : ((idleState deepWaits 256 (some 0)).stove 0).canMeet 0 = true ∧
    (let s := (idleState deepWaits 256 (some 0)).setFlue 0 1 { wf0 with gflue := 1, group := 1, frames := [{ uid := 0, demand := 3568 }] }
     (s.stove 0).canMeet 0 = false ∧ s.spillLines 0 deepWaits 0 .store = .ok (spillAt 0) ∧ deepWaits.spillable.head? = some 0) ∧
    (let s := (idleState deepWaits 256 (some 0)).setKernel 0 0 { spillKern with launch := { spillKern.launch with spill := 16 } }
     s.spillExtent deepWaits < 4 * (deepWaits.spillWord 0 + 8) ∧ (s.ctx? 1).any (fun c => c.state == .running && c.fkind == 0) = true) := by decide +kernel

/-- An image's line that fails. -/
theorem witness_bad_image : let s := withGroup (roomy (memState wf0)) (outGroup true)
    let run := (Tab.getD (outGroup true).saved 1 { flue := {} }).run :: (outGroup true).headerRun.toList
    let line := ((s.ctx? 1).map fun c => (c.runLines (1, 3)).1).getD 0
    s.badRuns 1 run = false ∧ ({ s with uncorr := [(line, 1)] } : State).badRuns 1 run = true ∧ (s.ctx? 1).any Context.takes = true := by decide +kernel
theorem witness_whole_group : let s := roomy (memState wf0)
    (s.stove 0).posted = [] ∧ ((((s.stove 0).flues.filter fun p => p.2.group == 0)).map (·.2.gflue)).Nodup ∧ wf0.pending = [] ∧
    ({ wf0 with pending := [(cTRAPI, trapPending)] } : Flue).pending ≠ [] := by decide +kernel
theorem witness_slice_age : let p : Partition := { state := .running, slice := 1000, sliceAge := 1000, current := some 1 }
    p.slice ≠ 0 ∧ p.state = .running ∧ p.slice ≤ p.sliceAge ∧ ({ p with sliceAge := 999 } : Partition).sliceAge < p.slice := by decide

/-- A producer whose bitmap's page is a demand-zero page, and one whose page is there. -/
def mapKern : Kernel := runningKern 2 []
theorem witness_formation_waits : let m : DepMap := { mul := [1, 0, 0], sh := [0, 0, 0], w := [1, 1, 1], ofs := [0, 0, 0], tcount := 1, producer := some 5 }
    let k := { mapKern with maps := [m] }
    let p : Partition := { kernels := [(0, { kernM with uid := 5, cid := 1, gcount := 4, obmap := 0x30000#64, launch := { kernM.launch with gx := 4, gy := 1, gz := 1 } })] }
    ({ tabled (memState wf0) with mem := tables [(32, 0x6002003B), (48, 0x120)] } : State).formationWaits p k 2 = true ∧
    (tabled (memState wf0)).formationWaits p mapKern 2 = false := by decide +kernel

/-- A peer that is awaited, and one that is lost. -/
def awaited (st : LState) : Context := { state := .running, roster := [(2, { lstate := st, held := [⟨0, 0x60000000, .store [1]⟩] })] }
theorem witness_peers_awaited : (queueState boundQueue (awaited .active)).ackDue 1 = true ∧ (queueState boundQueue (awaited .lost)).ackDue 1 = false ∧
    (memState wf0).fw.frozen = false ∧ ({ memState wf0 with fw := { frozen := true } } : State).fw.frozen = true ∧ boundQueue.kicks = [] := by decide +kernel
/-- No kernel of the queue runs, or the one in partition 4 does. -/
theorem witness_watchdog_elsewhere : let k : Kernel := { kernM with queue := 3 }
    let s := { queueState { boundQueue with wdog := 5, wcount := 5 } { state := .running } with parts := [(0, { state := .running }), (4, { state := .running, kernels := [(2, k)] })] }
    s.kernel? 4 2 = some k ∧ (∀ p ∈ s.parts, ∀ o ∈ p.2.kernels, o.2.cid = 1 → o.2.queue = 3 → o.2.state = .running → p.1 = 4 ∧ o.1 = 2) ∧
    ∀ p ∈ (queueState boundQueue {}).parts, ∀ o ∈ p.2.kernels, ¬(o.2.cid = 1 ∧ o.2.queue = 3 ∧ o.2.state = .running) := by decide +kernel
/-- A thread's image, and one of the context's save images, with a line that is uncorrectable. -/
theorem witness_bad_lines : let s := hartOn (quietState ready1) 1 0
    let c := { sealable .suspended .suspended with saveRuns := [(1, 3)] }
    let u := hartOn (quietState c) 1 0
    s.badLines (ready1.threadLines 0) = false ∧ ({ s with uncorr := [((ready1.threadLines 0).1, 1)] } : State).badLines (ready1.threadLines 0) = true ∧
    (∀ th ∈ ready1.threads, th.2.hart = none) ∧ c.threads = [] ∧ u.badImages 1 c = false ∧
    ({ u with uncorr := [((c.runLines (1, 3)).1, 1)] } : State).badImages 1 c = true ∧ ({ c with sealing := .reached } : Context).sealing = .reached ∧
    (hartOn (quietState (sealable .faulted .idle)) 1 3).ctx? 1 = some (sealable .faulted .idle) ∧ ¬(3 : DWord).toNat ≤ 2 := by decide +kernel
/-- A packet of context 1 with the tag that its key makes, and one with any other. -/
theorem witness_packets (c : Context) (s : State) : let p := s.packet c (flowId 1 3 4 1) [1, 2]
    packetGenuine p c = true ∧ packetGenuine { p with tag := ~~~p.tag } c = false ∧ (p.flow.extractLsb' 20 12).toNat = 1 := by
  refine ⟨by simp [packetGenuine, State.packet], ?_, by simp only [State.packet]; decide⟩
  simp only [packetGenuine, State.packet, beq_eq_false_iff_ne, ne_eq]
  intro h
  have h0 := congrArg (fun y : Word => y.getLsbD 0) h
  simp at h0
theorem witness_host_bytes : (0x20000 : Nat) % 64 + 64 ≤ 64 ∧ (∀ j < 2, Whole outState (0x60020FFE + j)) :=
  ⟨by decide, fun _ _ => whole_of _ _ ⟨rfl, rfl, rfl⟩⟩
/-- No port is up, no collective is on, no flit waits. -/
theorem witness_quiet_streams : (∀ n < 80, ((streamState { lstate := .active }).port n).up = false) ∧ (streamState { lstate := .active }).collsOf 1 0 = [] ∧
    (({ lstate := .keying } : Peer).path / 2 % 2 = 0 ∧ ({ path := 2, replay := [0x60021] } : Peer).replay ≠ []) ∧
    (∀ n < 80, n ≠ 0 → ((portState 15).port n).up = false) ∧ Tab.sorted (portState 0).ctxs = true ∧
    (∀ c ∈ (portState 0).ctxs, (∀ q ∈ c.2.queues, q.2.kicks = []) ∧ ∀ r ∈ c.2.roster, r.2.out = []) ∧ (portState 0).collsOf 1 0 = [] := by decide +kernel
theorem witness_quiet_lines : ∀ a, Whole (portState 0) a := fun _ => whole_of _ _ ⟨rfl, rfl, rfl⟩
/-- A hart whose release waits, one whose release is over, and operations that release. -/
theorem witness_fenced : let waits := { coreState with ctxs := [(1, { awaited .active with ptroot := 0x60000000 })], harts := [(0, { mode := .vs, inside := some (1, 0), fenced := true })] }
    waits.ackDue 1 = true ∧ (waits.hart 0).fenced = true ∧ coreState.ackDue 1 = false ∧ (coreState.hart 0).fenced = false ∧
    ({ coreState with harts := [(0, { coreState.hart 0 with fenced := true })] } : State).ackDue 1 = false ∧ ¬16 ≤ (15 : Nat) ∧
    Sys2Proof.Machine.CoreOp.releases (.fence 3 1) = true ∧ Sys2Proof.Machine.CoreOp.releases (.amo 5 .swap 0 4 1 false true) = true ∧
    Sys2Proof.Machine.CoreOp.releases (.fence 2 1) = false := by decide +kernel

/-- Lanes at line offset 60 stand at the next line first. -/
theorem witness_normalise : let f := { wf0 with pc := (List.range 4).map fun l => (l, 0x2003C#64) }
    f.normalise ≠ f ∧ f.normalise.normalise = f.normalise ∧ f.normalise.pcOf 0 = 0x20040 ∧ wf0.normalise = wf0 := by decide +kernel
/-- An instruction that its flag's count holds back, and one that nothing holds back. -/
theorem witness_held : let x := { un .f32 with f := .a }
    let full := { wf0 with flags := [(10, 63)] }
    (wf0.flagCount 10 = 0) ∧ insHeld (stateOf wf0) (issueOf wf0) wf0 (.nop (ctl .zero .zero .zero)) = false ∧
    ∀ n, (issueOf wf0).flag x.f = some n → insHeld (stateOf { wf0 with flags := [(n, 63)] }) { issueOf full with view := { wf0 with flags := [(n, 63)] } }
      { wf0 with flags := [(n, 63)] } (.rcp x) = true := by decide +kernel

/-! ### Blocks, and the corners of NaN and zero (chapter 2) -/

/-- The elements 0, 1, 2, 7 and 10 of the block of 02 R41's table: 6, 48, -5, and zero with the marker flag. -/
theorem test_block_table : let e := i4Decode ([0x80, 0xC5, 0xE3, 0xC8, 0x00, 0x82, 0x00, 0x58, 0x88] ++ List.replicate 9 0)
    ([0, 1, 2, 7, 10].map fun k => (e[k]?.map fun x => (roundTo fp32 .rne false false (match x.val with | .fin _ q => q | _ => Q.ofInt 0)).bits)) =
      [some 0x40C00000, some 0xC0800000, some 0x42400000, some 0xC0A00000, some 0] ∧ (e[10]?.map (·.xo)) = some true ∧ (e[2]?.map (·.xo)) = some false := by decide +kernel
/-- An outlier of code 0x80 is minus zero (02 R26, R39). -/
theorem test_block_minus_zero : ((i4Decode ([0x7F, 0x08, 0x08] ++ List.replicate 15 0))[0]?.map fun x => x.val.negSign && x.val.isZero) = some true := by decide +kernel
/-- One member alone: an input NaN gives the canonical NaN, a signalling one with invalid (02 R28, R29). -/
theorem test_redux_nan : combineAll 0 .f32 .rne [0xFFA00001#32] = (0x7FC00000#32, flagNV) ∧ combineAll 2 .f32 .rne [0xFFC00001#32] = (0x7FC00000#32, 0) := by decide +kernel
/-- Infinite terms of opposite signs raise invalid beside a quiet NaN (06 R144). -/
theorem test_fdot2_opposite : (fDot2 .rne (.inf false) (.fin false (Q.ofInt 1)) (.inf true) (.fin false (Q.ofInt 1)) (.nan false)).flags = flagNV := by decide +kernel

/-! ### Witnesses of the premises that single clauses add -/

/-- The finite inputs of the special functions, nonzero of either sign, in every format but FP64. -/
theorem witness_special_finite : ∀ m ∈ [fp32, fp16, bf16], ∀ n : Bool, (let a := (if n then 2 ^ (m.width - 1) else 0) + m.bias * 2 ^ m.mant
    match m.decode a with
    | .fin sg q => sg == n && !q.isZero
    | _ => false) = true := by decide +kernel
/-- A lane of an instruction with F not 00 in the escalation unit, its result under way. -/
theorem witness_escalation_flag : let e : EscEntry := ⟨0, 2, [], some 2, none, 7, 4⟩
    let o : Outstanding := { seed := 4, writes := [⟨.v 0 1, 2, 1, false⟩] }
    let f := { wf0 with escs := 1, outs := [o], flags := [(2, 1)] }
    let s := (stateOf f).setStove 0 { (stateOf f).stove 0 with esc := [e] }
    (s.stove 0).esc = [e] ∧ s.flue? 0 e.slot = some f ∧ f.rvs = [] ∧ (e.flag ≠ none → e.step = none ∧ e.writes = []) ∧
    ∀ u ∈ f.outs, u.seed = e.seed → u.flag = none ∧ u.more = [] ∧ ∀ w ∈ u.writes, w.lane < 32 ∧ w.toLatch = false := by decide +kernel
/-- An OSCLAIM's result waits for its latency. -/
theorem witness_keeps_latch : let rv := { doneRv with keepL := true, writes := [⟨.p 1, 0, 1, false⟩] }
    let f := { wf0 with rvs := [rv] }
    f.rvs.find? (fun v => v.done && v.pc == 0x10004#64) = some rv ∧ rv.keepL = true ∧ doneRv.keepL = false ∧ ∀ w ∈ rv.writes, w.toLatch = false := by
  decide +kernel

/-- Formats that a collective takes, and formats that it does not. -/
theorem witness_collective_formats : let fmts := fun (x : LArgs) (kind a b : Nat) =>
      if kind ≤ 1 then (a ≤ 2 ∧ b ≤ 2) ∨ (x.modx.getLsbD 5 = false ∧ a = 7 ∧ b = 7) else a = b
    fmts ldArgs 0 tensor.fmt 2 ∧ fmts ldArgs 1 7 7 ∧ ¬fmts ldArgs 0 7 0 ∧ ¬fmts { ldArgs with modx := 0x20 } 1 7 7 ∧ fmts ldArgs 2 7 7 ∧ ¬fmts ldArgs 4 7 0 := by
  decide
/-- An MMA.H that waits at the hearth rendezvous, which ECTL.CNCL cancels. -/
def mmahOp : EngineOp := { op0 (.mmaH ldArgs) 2 0 with started := false }
def mmahWaits : Flue := { opFlue 1 mmahOp with mmahWait := 0x3#32, pc := [(0, 0x20000#64), (1, 0x20000#64), (2, 0x10004#64), (3, 0x10004#64)] }
def hrv0 : HearthRv := { part := 0, kslot := 0, pc := 0x20000#64, next := 0x20008#64, mask := 3, arrivals := [(7, ⟨0, 1, 0⟩)] }
theorem witness_cancel_mmah : let f := mmahWaits
    let s := { engState f with hearths := [(0, { hrvs := [hrv0] })] }
    let i : Issue := { issueOf f with lanes := 0xC#32 }
    f.phase ≠ .handler ∧ f.mmahWait &&& (i.lanes ||| ~~~f.unparked) = 0 ∧ opsOf f 1 = [mmahOp] ∧ mmahOp.started = false ∧
    (s.hearth (hearthOf i.stove)).hrvs = [hrv0] ∧ mmahOp.uid ∈ hrv0.arrivals.map (·.1) ∧
    (∀ o ∈ opsOf f 1, (∀ o' ∈ f.allOps, o'.uid = o.uid → o'.flag = none) ∧ ∀ k < 4, k ≠ 1 → ∀ o' ∈ opsOf f k, o'.uid ≠ o.uid) := by decide +kernel
/-- A unit that others follow, and the last one. -/
theorem witness_last_unit : (op0 (.accz ldArgs) 2 0).progress + 1 < (op0 (.accz ldArgs) 2 0).units ∧
    (op0 (.accz ldArgs) 2 1).units = (op0 (.accz ldArgs) 2 1).progress + 1 := by decide

/-- The first request is met, or belongs to a flue that stops, or to one whose cause goes first. -/
theorem witness_grant_order : callWaits.stopped = false ∧ callWaits.delivers = false ∧ ({ callWaits with preempt := true } : Flue).stopped = true ∧
    ({ callWaits with pending := [(cTRAPI, trapPending)] } : Flue).delivers = true ∧ (refillWaits true).stopped = false ∧
    ({ refillWaits true with halt := true } : Flue).stopped = true ∧ ((memState wf0).ctx? 1).any (fun c => c.state != .suspended) = true := by decide +kernel
/-- A recall in a partition without slices, with its context's slice, and with another's. -/
theorem witness_recall_slice : let s := withGroup (roomy (memState wf0)) (outGroup true)
    let sliced := withPart s fun p => { p with slice := 1000, current := some 1 }
    let other := withPart s fun p => { p with slice := 1000, current := some 4, kernels := p.kernels ++ [(1, { cid := 4 })] }
    (s.part? 0).any (fun p => p.slice == 0 && p.chosen == none) = true ∧ (sliced.part? 0).any (fun p => p.slice != 0 && p.currentCid == some 1) = true ∧
    (other.part? 0).any (fun p => p.slice != 0 && p.currentCid != some 1) = true ∧ (deepFlue 1).granules ≤ (s.stove 0).freeForNew ∧
    (∀ c ∈ (deepFlue 1).service, c.result = none) := by decide +kernel
/-- Who switches whole groups out: the firmware, a seal, and otherwise nobody. -/
theorem witness_switches : let s := roomy (memState wf0)
    s.firmwareSwitches 0 = false ∧ s.notItsSlice 0 1 = false ∧ wf0.sliceEnd = false ∧ wf0.halt = false ∧
    ({ s with fw := { frozen := true } } : State).firmwareSwitches 0 = true ∧ ({ wf0 with halt := true } : Flue).halt = true ∧
    ({ wf0 with halt := true } : Flue).phase ≠ .handler := by decide +kernel
/-- A victim, with no pre-emption of the partition under way. -/
theorem witness_victim : (starvedState.part? 0).any (fun p => p.chosen == none) = true ∧ starvedState.victimsFor 0 5 = [(0, .pre)] ∧ wf0.quiet = true ∧
    wf0.pending = [] ∧ (starvedState.stove 0).lowestPrio = some 0 := by decide +kernel

/-- A finished kernel in both its steps. -/
theorem witness_retire_steps : let k := { runningKern 4 [] with state := .retiring }
    k.state = .retiring ∧ k.obmap = 0 ∧ k.status = 0 ∧ k.launch.done = 0 ∧ k.scp = [] ∧ ((kernelState k).ctx? k.cid).any (fun c => c.roster == []) = true := by
  decide +kernel
/-- A stove that may still pop, one that may not, and an entry that a due recall keeps off. -/
theorem witness_pop_order : let s := kernelState (runningKern 4 readyRec)
    let late := withPart s fun p => { p with popNext := 2 }
    (s.part? 0).any (fun p => decide (p.popNext ≤ s.lstove 1)) = true ∧ (late.part? 0).any (fun p => decide (late.lstove 1 < p.popNext)) = true ∧
    (let u := withGroup s { outGroup true with prio := 7 }
     (u.stove 0).groups.any (fun g => g.2.saved.any fun v => v.2.due) = true ∧
     ((u.part? 0).any fun p => (firstOf p (u.candidates 0 p 0)).any fun c => decide (c.prio ≤ 7)) = true) := by decide +kernel
/-- A cause of the context that no handler takes goes before the watchdog. -/
theorem witness_fault_first : let k : Kernel := { kernM with queue := 3 }
    let s := fun f => { (queueState { boundQueue with wdog := 5, wcount := 5 } { state := .running }) with
      stoves := (stateOf f).stoves, parts := [(0, { state := .running, hearths := [0], kernels := [(0, k)] })] }
    (s wf0).faultFirst 1 = false ∧ (s { wf0 with pending := [(cREGOVF, trapPending)] }).faultFirst 1 = true := by decide +kernel

/-- A context that an ENCSEAL acts on, in each of its stages. -/
theorem witness_acting : ∀ z ∈ [Seal.going, .ending], let c : Context := { sealable .running .active with sealing := z }
    let s := hartOn (quietState { ready1 with sealing := z }) 1 0
    (s.ctx? 1).any Context.acting = true ∧ ready1.acting = false ∧ (c.state = .ready ∨ c.state = .running) ∧ c.threads = [] ∧
    (sealable .running .active).sealing ≠ .reached ∧ (sealable .running .active).sealing ≠ .ending ∧ (sealable .running .active).sealing ≠ .going := by decide
/-- Manifest items that fail: one of no kind, one outside the pages that the host may name, and a page where none is free. -/
def item2 : List Byte := [2#8, 1#8] ++ List.replicate 6 0 ++ leBytes 8 0x400000 ++ List.replicate 16 0
theorem witness_bad_items : let s := building 2
    let c := (s.ctx? 1).getD {}
    (∀ th ∈ c.threads, th.2.hart = none) ∧ s.hostBytes c.named (c.manifest + 32 * c.bprog) 32 ≠ none ∧ s.item 1 c ([9#8] ++ List.replicate 31 0) = .badItem ∧
    s.hostBytes c.named 0x1000 32 = none := by decide +kernel
theorem takePage_full (s : State) (ho : s.own = fullOwn) : ∃ s1, s.takePage 1 .owned = (none, s1) := by
  obtain ⟨s1, h⟩ := pickRun_full ((List.range 16).map fun j => (s.takeFree.1.toNat % 16 + j) % 16)
    (fun st h => by obtain ⟨j, -, rfl⟩ := List.mem_map.mp h; exact Nat.mod_lt _ (by decide)) s.takeFree.2 ho
  exact ⟨s1, by simp only [State.takePage, h]⟩
theorem pageItem_full (s : State) (it : List Byte) (ho : s.own = fullOwn) (h : (field64 it 8).toNat % 4096 = 0 ∧ canonical (field64 it 8) = true ∧
    (match s.leafPos 1 (field64 it 8) 0 with
      | .entry _ e => pteV e
      | .covered _ => true
      | .gap _ => false) = false ∧ ((it.getD 1 0).getLsbD 1 && !(it.getD 1 0).getLsbD 0) = false) : s.pageItem 1 it none = .noMem := by
  obtain ⟨s1, ht⟩ := takePage_full s ho
  simp only [State.pageItem, h.1, h.2.1, h.2.2.2, ht]
  simp
  exact h.2.2.1
/-- Nothing mapped at 0x40_0000, and no page left. -/
def crammed : State := { lowState 0 {} with own := fullOwn }
theorem item2_page (s : State) (c : Context) : s.item 1 c item2 = s.pageItem 1 item2 none := rfl
theorem witness_no_memory : crammed.item 1 ((crammed.ctx? 1).getD {}) item2 = .noMem := by
  rw [item2_page]
  exact pageItem_full _ _ (by rw [crammed]) (by decide +kernel)
/-- The place of a 2 MiB leaf where a table with no leaf stands. -/
def gapState : State :=
  let s := asking 0x100 0x200000 0 5 1 0 {}
  { s with mem := Memory.write s.mem 0x60003008 (leBytes 8 0x60005001) }
theorem witness_empty_table : let r : PageReq := ⟨0x200000, 0, 5, 1, 0x60020000⟩
    Asks gapState (.hart 0) 0x100 1 0x20000 r ∧ r.vaOk = true ∧ gapState.leafPos 1 0x200000 1 = .entry 0x60003008 0x60005001 ∧ pteV 0x60005001 = true ∧
    gapState.emptyTable 0x60005001 = true ∧ EntryPlace gapState 0x60003008 ∧ 0x60003008 / 4096 ≠ ptePa 0x60005001 / 4096 ∧
    (asking 0x100 0x21000 0 5 0 0x6002103B {}).emptyTable 0x6002103B = false := by
  unfold Asks EntryPlace
  decide +kernel
/-- A page service that is being done, and none. -/
theorem witness_serving : let s := withRing (memState wf0) [{ ringE with svc := 0x101, answer := some 0 }]
    s.serving 1 = true ∧ s.serving 2 = false ∧ (asking 0x101 0x21000 0 5 0 0 {}).serving 1 = false ∧ (asking 0x101 0x21000 0 5 0 0 {}).readBlock 1 0x20001 = .cause 6 := by
  decide +kernel
/-- A page in transit with a line that cannot be read, and one whose lines are whole. -/
theorem witness_bad_page : let s := pageIn .transit { state := .running, moves := [(0x60021, false)] }
    (∃ j < 32, ({ s with uncorr := [(0x60021 * 32, 1)] } : State).bad (0x60021 * 4096 + 128 * j) = true) ∧ (∀ j < 32, s.bad (0x60021 * 4096 + 128 * j) = false) ∧
    (∀ p ∈ s.parts, ∀ k ∈ p.2.kernels, k.2.bits = []) := by decide +kernel
/-- No stove waits for the page that comes back. -/
theorem witness_page_for : let c : Context := { state := .running, ptroot := 0x10000000 }
    let s := lowState 0x300000220 { state := .running }
    s.waiterOf 1 (onRecord c).va = none ∧ ∀ va, s.waiterOf 1 va = none → s.takePageFor 1 va = s.takePage 1 .owned :=
  ⟨rfl, fun _ h => by rw [State.takePageFor, h]⟩

/-! #### Peers, cores, the start -/

/-- Roster member 2 is active on port 0; a read of flue 0 awaits its answer. -/
def peerFlue : Flue := { wf0 with outs := [{ flag := some 2, writes := [⟨.v 0 1, 0, 9, false⟩], peers := [⟨0x1, 2, 0x20000⟩] }], flags := [(2, 1)] }
theorem witness_peer_answers : ∀ q ∈ [PeerLane.mk 0x1 2 0x20000], q.roster = 2 ∧ q.lanes ≠ 0 ∧ wf0.outs = [] := by decide
/-- Streams with a port for their link flits, and without one; keyings that were tried, and not. -/
theorem witness_link_ports : (portState 0).linkPort 1 2 0 = some 0 ∧ (streamState { lstate := .active }).linkPort 1 2 0 = none := by
  have h1 : (portState 0).peer? 1 2 = some { lstate := .active, path := 1 } := by decide
  have h2 : (streamState { lstate := .active }).peer? 1 2 = some { lstate := .active } := by decide
  have h3 : ((List.range 80).filter fun n => ((portState 0).port n).up && Peer.mayUse { lstate := .active, path := 1 } n) = [0] := by decide +kernel
  have h4 : ((List.range 80).filter fun n => ((streamState { lstate := .active }).port n).up && Peer.mayUse { lstate := .active } n) = [] := by decide +kernel
  simp only [State.linkPort, h1, h2, h3, h4, List.length_cons, List.length_nil]
  simp [Nat.mod_one]
theorem witness_keyings : (∀ t ∈ [true, false], ∀ l ∈ [LState.keying, .lost], (streamState { lstate := l, tried := t }).peer? 1 2 = some { lstate := l, tried := t }) ∧
    (∀ n < 80, (streamState { lstate := .lost }).port n = {}) := by decide +kernel
/-- Every port that is down has nothing to replay; one flit was replayed fifteen times. -/
theorem witness_worn : (∀ k ∈ [0, 14, 15], ∀ x ∈ (portState k).ports, x.2.up = true ∨ x.2.replay = []) ∧
    (∃ x ∈ ((portState 15).port 0).replay.filter (fun x => BitVec.slt 0 (x.flit.seq - 3)), 15 ≤ x.replays) ∧
    (¬∃ x ∈ ((portState 14).port 0).replay.filter (fun x => BitVec.slt 0 (x.flit.seq - 3)), 15 ≤ x.replays) ∧ (3 : Word) = ((portState 15).port 0).acked ∧
    (4 : Word) ≠ ((portState 15).port 0).acked ∧ ({ lstate := .active, path := 1 } : Peer).ctrTx < 2 ^ 48 := by decide +kernel
/-- What a peer may not do, and what it may; an atomic's data, whole, in part, and none. -/
theorem witness_refusals : (portState 0).refusal 1 0 false true ≠ none ∧ (portState 0).refusal 1 0x60021000 true false ≠ none ∧
    (let s := { portState 0 with own := [(0x60021, { owner := 1, state := .owned })] }
     s.refusal 1 0x60021008 true false = none ∧ s.refusal 1 0x60021008 true true = none ∧ s.refusal 1 0x60021004 true true = none) ∧
    (0x60021008 : Nat) % 8 = 0 ∧ (0x60021004 : Nat) % 8 ≠ 0 ∧
    flitAtom [2, 0xF] = none := by decide +kernel
theorem witness_flit_atoms : ∀ more ∈ [true, false], flitAtom ([if more then 0x82 else 2, Ty.z64.code.setWidth 8] ++ leBytes 8 5 ++ leBytes 8 0) =
    some (2, .z64, more, [(5, 0)]) := by decide +kernel

/-- 21 R432's example: with SMASK 0x1_FFDF position 5 is physical stove 6; with all seventeen it is stove 5, and stove 16 is the spare. -/
theorem test_stove_mask : physicalStove 0x1FFDF 5 = 6 ∧ physicalStove 0x1FFFF 5 = 5 ∧ spareStove 0x1FFDF = none ∧ spareStove 0x1FFFF = some 16 ∧
    (remapWord 0x1FFDF none).toNat = 0x1FFDF ∧ (remapWord 0x1FFFF (some ⟨3, 2⟩)).toNat = 3 * 2 ^ 26 + 2 * 2 ^ 20 + 2 ^ 19 + 0x1FFFF := by decide
/-- A core's page that is out, and a line that is uncorrectable. -/
def outCore : State := { coreState with mem := tables [(32, 0x6002003B), (33, 0x300000220)] }
def badCore : State := { coreState with uncorr := [(0x60020000 / 128, 1)] }
theorem witness_core_waits : (∀ k ∈ [Acc.load, .store, .atom], outCore.corePa (outCore.hart 0) 0x21008 8 k = .wait) ∧
    (outCore.ctx? 1).any (fun c => c.kickAt 0x21008 == none) = true ∧ (0x21008 : DWord).toNat % 64 + 8 ≤ 64 ∧ (0x21008 : DWord).toNat % 8 = 0 ∧
    outCore.ackDue 1 = false ∧ (outCore.hart 0).fenced = false ∧
    (∀ k ∈ [Acc.load, .atom], badCore.corePa (badCore.hart 0) 0x20008 8 k = .ok 0x60020008) ∧ badCore.bad 0x60020008 = true ∧
    (coreState.hart 0).resv = some (0x60020008 / 128) ∧ (0x60020008 : Nat) % 8 = 0 := by decide +kernel
/-- Connections whose keys may be derived, and not; sessions and none. -/
theorem witness_spdm_keys : (spdmState 6 inSession).rot.trusted = true ∧ (spdmState 6 inSession).testMode = false ∧
    ({ spdmState 6 inSession with testMode := true } : State).testMode = true ∧ inSession.session = true ∧ inSession.keyed = true ∧
    ({ inSession with session := false, keyed := false } : Spdm).keyed = false ∧ (spdmState 6 inSession).stage = 6 ∧ inSession.algs = true ∧
    (State.conn (spdmState 1 inSession) 1).algs = true ∧ (spdmState 6 inSession).rot.nextLeaf ≠ (spdmState 6 inSession).rot.leafEnd := by decide
/-- Partitions in RESETTING: with nothing on them, with a group that is out, and with records of a kernel. -/
theorem witness_resetting : let p : Partition := { state := .resetting, hearths := [3] }
    let w : SwitchedGroup := { group := { cid := 4 }, flues := [] }
    let s := { formState .resetting with ctxs := [(4, { state := .running })] }
    (s.part? 2).any (fun q => q == p) = true ∧ p.switched = [] ∧ (∀ k ∈ p.kernels, k.2.records = []) ∧ (s.ctx? 4).any Context.eligible = true ∧
    (∃ x ∈ ({ p with switched := [w] } : Partition).switched, x.group.cid = 4) ∧
    (∃ k ∈ ({ p with kernels := [(0, { kern0 with cid := 4 })] } : Partition).kernels, k.2.cid = 4 ∧ k.2.records ≠ []) := by decide +kernel
/-- A recovery step that the hearth waits for again, and its last. -/
theorem witness_recovery_steps : (3 : Nat) ∈ [3, 9] ∧ 3 ∉ [9] ∧ ({ powerCap := 1400 } : Hearth).powerCap + 50 < ({} : Hearth).target ∧
    ¬({ powerCap := 1450 } : Hearth).powerCap + 50 < ({} : Hearth).target ∧ ({ thermalCap := 1450 } : Hearth).thermalCap ≤ 1450 := by decide
/-- Stages that end well, in failure, and late; partitions of the last stage that form still and that failed. -/
theorem witness_stage_reports : let good : StageReport := ⟨true, [], [], [], []⟩
    let rep : StageReport := { good with hearths := [0, 1], ports := [7] }
    (∀ h < 2, ¬(h < 64 ∧ h ∉ rep.hearths)) ∧ (2 < 64 ∧ 2 ∉ rep.hearths) ∧ ({ good with hearths := List.range 64 } : StageReport).hearths.length = 64 ∧
    (∃ x ∈ (formState .forming).parts, x.2.state = .forming ∧ x.1 ∉ good.parts) ∧
    (∀ x ∈ (formState .forming).parts, x.2.state = .forming → x.1 ∈ ({ good with parts := [2] } : StageReport).parts) ∧
    ({ good with hbms := [3] } : StageReport).hbms ≠ [] ∧ (spdmState 0 {}).rot.image = none ∧
    ({ (spdmState 0 {}).rot with image := some ⟨3, 5, []⟩ } : Rot).image ≠ none := by decide
/-- Calls whose page services changed a byte and a record, results not yet posted; one of an older generation. -/
def undoing : RingEntry := { ringE with svc := 0x101, answer := some 0, undoMem := [(0x60004108, 5), (0x60004109, 6)], undoOwn := [(0x60021, some { owner := 1, state := .owned }), (0x60022, none)] }
theorem witness_undo : let s := withRing (memState wf0) [ringE, undoing]
    let rings := (s.parts.map fun x => x.2.ring).flatten
    rings = [ringE] ++ undoing :: [] ∧ (∀ x ∈ [ringE] ++ ([] : List RingEntry), x.undoMem = [] ∧ x.undoOwn = []) ∧ (undoing.undoMem.map (·.1)).Nodup ∧
    (undoing.undoOwn.map (·.1)).Nodup ∧ (2 : Nat) ≤ s.stage ∧ (∃ x ∈ s.parts, ∃ e ∈ x.2.ring, e.gen ≠ s.fw.gen + 1) ∧
    ¬∃ x ∈ (memState wf0).parts, ∃ e ∈ x.2.ring, e.gen ≠ (memState wf0).fw.gen + 1 := by decide +kernel
/-- Clauses that share words with one that issues, inside which a lane stands and does not, and one elsewhere. -/
theorem witness_clauses_share : let c : OpenClause := ⟨0x20000#64, 0x07F80001#32, [0], 0xF#32, 0xF#32⟩
    let d : OpenClause := ⟨0x1FFFC#64, 0x07F80002#32, [0, 0], 0x3#32, 0#32⟩
    let e : OpenClause := ⟨0x30000#64, 0x07F80001#32, [0], 0xF#32, 0#32⟩
    c.overlaps d = true ∧ c.overlaps e = false ∧ ({ wf0 with pc := [(0, 0x20000#64), (1, 0x20000#64)], clauses := [d, e] } : Flue).uses d = true ∧
    ({ wf0 with clauses := [d, e] } : Flue).uses d = false ∧ ({ wf0 with clauses := [d, e] } : Flue).inside 0x20000#64 = none := by decide +kernel
/-- A hart whose fetch is not allowed, and one whose page is out. -/
theorem witness_hart_fetch : let at' := fun (s : State) (pc : DWord) => { s with harts := [(0, { s.hart 0 with pc := pc })] }
    ((at' coreState 0x30000#64).hartWord 0).1 = .cause cXLATE ∧ ((at' outCore 0x21000#64).hartWord 0).1 = .wait := by decide +kernel

end Sys2Proof.Tests
end

section
/-! PROOF of O59: every step keeps memory in its canonical form.

Each function of the model that gives a state back has one lemma here, in the order of the model's files. One that leaves memory alone has
`f_mem`: the memory is that of the state it was given. One that writes memory has `f_wf`: a memory in its form is still in its form. A meaning
of a form or an event has `f_formed`: if it has a next state, the memory of that state is in its form. The lemmas are `simp` rules, so that
each proof is the case split of its definition and then the lemmas of what the definition calls. -/

namespace Sys2Proof.Machine

/-! ### Shared rules -/

theorem KeepsForm.wf {s t : State} (k : KeepsForm s t) (h : Memory.wf s.mem = true) : Memory.wf t.mem = true := k.form h
/-- If the meaning of a form or an event has a next state, its memory is in its form. -/
def EndsFormed (r : Res) : Prop := ∀ t, r = .next t → Memory.wf t.mem = true
@[simp] theorem endsFormed_next (t : State) : EndsFormed (.next t) ↔ Memory.wf t.mem = true :=
  ⟨fun h => h t rfl, fun h _ e => by cases e; exact h⟩
@[simp] theorem endsFormed_fault (e : Fault) : EndsFormed (.fault e) := fun _ h => by cases h
@[simp] theorem endsFormed_refused (e : Refusal) : EndsFormed (.refused e) := fun _ h => by cases h
@[simp] theorem ite_mem (c : Prop) [Decidable c] (a b : State) : (if c then a else b).mem = if c then a.mem else b.mem := apply_ite ..
@[simp] theorem ite_wf (c : Prop) [Decidable c] (a b : Memory) :
    Memory.wf (if c then a else b) = if c then Memory.wf a else Memory.wf b :=
  apply_ite ..

theorem foldl_wf {α : Type} (k : State → α → State) (hk : ∀ s a, Memory.wf s.mem = true → Memory.wf (k s a).mem = true) (l : List α)
    (s : State)
    (h : Memory.wf s.mem = true) : Memory.wf (l.foldl k s).mem = true := by
  induction l generalizing s with
  | nil => exact h
  | cons a l ih => exact ih _ (hk s a h)

@[simp] theorem endsFormed_onIssue {s : State} {k : Issue → Flue → State} (hk : ∀ i f, Memory.wf (k i f).mem = true) :
    EndsFormed (onIssue s k) := by
  unfold onIssue
  split
  · exact endsFormed_fault _
  · split
    · exact endsFormed_fault _
    · exact (endsFormed_next _).2 (hk _ _)

theorem mem_of_snd {α : Type} {p : α × State} {a : α} {t : State} (e : p = (a, t)) : t.mem = p.2.mem := by rw [e]

theorem foldl_fst_mem {α β : Type} (k : State × β → α → State × β) (hk : ∀ a x, (k a x).1.mem = a.1.mem) (l : List α) (a : State × β) :
    (l.foldl k a).1.mem = a.1.mem := by
  induction l generalizing a with
  | nil => rfl
  | cons x l ih => exact (ih _).trans (hk a x)

theorem foldl_snd_mem {α β : Type} (k : β × State → α → β × State) (hk : ∀ a x, (k a x).2.mem = a.2.mem) (l : List α) (a : β × State) :
    (l.foldl k a).2.mem = a.2.mem := by
  induction l generalizing a with
  | nil => rfl
  | cons x l ih => exact (ih _).trans (hk a x)

theorem wf_of_snd {α : Type} {p : α × State} {a : α} {t : State} (e : p = (a, t)) (h : Memory.wf p.2.mem = true) :
    Memory.wf t.mem = true := by
  rw [e] at h; exact h

theorem foldl_snd_snd_mem {α β γ : Type} (k : β × γ × State → α → β × γ × State) (hk : ∀ a x, (k a x).2.2.mem = a.2.2.mem) (l : List α)
    (a : β × γ × State) : (l.foldl k a).2.2.mem = a.2.2.mem := by
  induction l generalizing a with
  | nil => rfl
  | cons x l ih => exact (ih _).trans (hk a x)

theorem Memory.wf_setBytes (l : List (Nat × Byte)) (at' : Nat → Nat) (m : Memory) (h : Memory.wf m = true) :
    Memory.wf (l.foldl (fun m b => Memory.setByte m (at' b.1) b.2) m) = true := by
  induction l generalizing m with
  | nil => exact h
  | cons b l ih => exact ih _ (Memory.wf_write [b.2] m _ h)

/-! ### Machine/Lens -/

@[simp] theorem State.mapStoves_mem (s : State) (k : Nat → Stove → Stove) : (State.mapStoves s k).mem = s.mem := by
  simp [State.mapStoves]
@[simp] theorem endsFormed_onFlue {s : State} (h : Memory.wf s.mem = true) (k : Issue → Flue → Flue) : EndsFormed (onFlue s k) :=
  endsFormed_onIssue fun _ _ => h

/-! ### Machine/Keys -/

@[simp] theorem State.forward_mem (s : State) (cid : Nat) : (State.forward s cid).mem = s.mem := by
  unfold State.forward
  split <;> simp
@[simp] theorem State.zeroFlows_mem (s : State) (cid : Nat) : (State.zeroFlows s cid).mem = s.mem := by
  simp [State.zeroFlows]

/-! ### Machine/Flit -/

@[simp] theorem State.sayKeyExchange_mem (s : State) (cid r : Nat) : (State.sayKeyExchange s cid r).mem = s.mem := by
  unfold State.sayKeyExchange
  split <;> simp

@[simp] theorem State.resend_mem (s : State) (port : Nat) : (s.resend port).mem = s.mem := by
  refine (State.foldl_mem _ (fun s x => ?_) _ _).trans (State.setPort_mem ..)
  dsimp only
  split
  · split <;> simp
  · simp

@[simp] theorem State.portDown_mem (s : State) (port : Nat) : (State.portDown s port).mem = s.mem := by
  simp [State.portDown]

@[simp] theorem State.replayAll_mem (s : State) (port : Nat) : (s.replayAll port).mem = s.mem := by
  unfold State.replayAll
  dsimp only
  split
  · rfl
  · split
    · simp
    · exact State.foldl_mem _ (fun _ _ => State.say_mem ..) _ _

@[simp] theorem State.pumpAll_mem (s : State) : (State.pumpAll s).mem = s.mem := by
  simp [State.pumpAll, State.foldl_mem]
@[simp] theorem State.dropSent_mem (s : State) (cid r : Nat) : (State.dropSent s cid r).mem = s.mem := by
  simp [State.dropSent]

/-! ### Machine/Mem -/

@[simp] theorem State.poke_wf (s : State) (a : Nat) (bs : List Byte) (h : Memory.wf s.mem = true) : Memory.wf (s.poke a bs).mem = true :=
  Memory.wf_write bs s.mem a h
@[simp] theorem State.writeBack_mem (s : State) (line : Nat) (l : LlcLine) : (State.writeBack s line l).mem = s.mem := by
  simp [State.writeBack]
@[simp] theorem State.llcDrop_mem (s : State) (which : Nat → LlcLine → Bool) : (State.llcDrop s which).mem = s.mem := by
  simp [State.llcDrop, State.foldl_mem]
@[simp] theorem State.applyPosted_wf (s : State) (stove : Nat) (p : Posted) (h : Memory.wf s.mem = true) :
    Memory.wf (State.applyPosted s stove p).mem = true :=
  (State.applyPosted_form ..).wf h
@[simp] theorem State.release_wf (s : State) (stove : Nat) (h : Memory.wf s.mem = true) : Memory.wf (State.release s stove).mem = true :=
  (State.release_form ..).wf h
@[simp] theorem State.loadL1_wf (s : State) (stove cid pa n : Nat) (h : Memory.wf s.mem = true) :
    Memory.wf (State.loadL1 s stove cid pa n).2.mem = true :=
  (State.loadL1_form ..).wf h
@[simp] theorem State.readLanes_wf (s : State) (stove : Nat) (f : Flue) (const : Bool) (n : Nat) (ls : List (Nat × Loc))
    (h : Memory.wf s.mem = true) : Memory.wf (State.readLanes s stove f const n ls).2.mem = true :=
  (State.readLanes_form ..).wf h
@[simp] theorem State.tileWrite_wf (s : State) (cid pa : Nat) (bs : List Byte) (src : Nat) (cls : Nat := 2)
    (h : Memory.wf s.mem = true) : Memory.wf (State.tileWrite s cid pa bs src cls).mem = true :=
  (State.tileWrite_form ..).wf h
@[simp] theorem State.coreWrite_wf (s : State) (cid pa : Nat) (bs : List Byte) (h : Memory.wf s.mem = true) :
    Memory.wf (State.coreWrite s cid pa bs).mem = true :=
  (State.coreWrite_form ..).wf h
@[simp] theorem State.settlePages_wf (s : State) (pages : List Nat) (h : Memory.wf s.mem = true) :
    Memory.wf (State.settlePages s pages).mem = true :=
  (State.settlePages_form ..).wf h
@[simp] theorem State.scrubPages_wf (s : State) (pages : List Nat) (h : Memory.wf s.mem = true) :
    Memory.wf (State.scrubPages s pages).mem = true :=
  (State.scrubPages_form ..).wf h
@[simp] theorem State.freePages_wf (s : State) (pages : List Nat) (h : Memory.wf s.mem = true) :
    Memory.wf (State.freePages s pages).mem = true :=
  (State.freePages_form ..).wf h
@[simp] theorem State.shootdown_wf (s : State) (cid va span : Nat) (pages : List Nat) (h : Memory.wf s.mem = true) :
    Memory.wf (State.shootdown s cid va span pages).mem = true :=
  (State.shootdown_form ..).wf h

/-! ### Machine/Lanes -/

@[simp] theorem execRendezvousResultWrite_formed (r : FlueRef) (pc : BitVec 64) (s : State) (h : Memory.wf s.mem = true) :
    EndsFormed (execRendezvousResultWrite r pc s) := by
  simp [execRendezvousResultWrite, h]

/-! ### Machine/Gang -/

@[simp] theorem State.failMembers_mem (s : State) (stove : Nat) (rv : GangRv) (c : Nat) (faddr : DWord) :
    (State.failMembers s stove rv c faddr).mem = s.mem := by
  simp [State.failMembers, State.foldl_mem]
@[simp] theorem State.breakGang_mem (s : State) (stove : Nat) (rv : GangRv) : (State.breakGang s stove rv).mem = s.mem := by
  simp [State.breakGang]
@[simp] theorem State.gangCheck_mem (s : State) (stove gid : Nat) : (State.gangCheck s stove gid).mem = s.mem := by
  unfold State.gangCheck
  split <;> simp [State.foldl_mem]
@[simp] theorem State.gangDrain_mem (s : State) (stove gid gfl : Nat) : (State.gangDrain s stove gid gfl).mem = s.mem := by
  unfold State.gangDrain
  split <;> simp [State.foldl_mem]
@[simp] theorem State.modOpFlues_mem (s : State) (stove uid : Nat) (k : Flue → Flue) : (State.modOpFlues s stove uid k).mem = s.mem := by
  simp [State.modOpFlues]
@[simp] theorem State.modOp_mem (s : State) (stove uid : Nat) (k : EngineOp → EngineOp) : (State.modOp s stove uid k).mem = s.mem := by
  simp [State.modOp]
@[simp] theorem State.leaveHearth_mem (s : State) (stove uid : Nat) : (State.leaveHearth s stove uid).mem = s.mem := by
  simp [State.leaveHearth]
@[simp] theorem State.refreshMmah_mem (s : State) (stove : Nat) : (State.refreshMmah s stove).mem = s.mem := by
  simp [State.refreshMmah]
@[simp] theorem State.hearthFail_mem (s : State) (hearth : Nat) (rv : HearthRv) : (State.hearthFail s hearth rv).mem = s.mem := by
  simp [State.hearthFail, State.foldl_mem]
@[simp] theorem State.hearthStart_mem (s : State) (hearth : Nat) (rv : HearthRv) : (State.hearthStart s hearth rv).mem = s.mem := by
  simp [State.hearthStart, State.foldl_mem]
@[simp] theorem State.hearthCheck_mem (s : State) (hearth : Nat) (rv : HearthRv) : (State.hearthCheck s hearth rv).mem = s.mem := by
  simp [State.hearthCheck]
@[simp] theorem State.hearthSweep_mem (s : State) (hearth : Nat) : (State.hearthSweep s hearth).mem = s.mem := by
  simp [State.hearthSweep, State.foldl_mem]

/-! ### Machine/Barrier -/

@[simp] theorem State.upd_mem (s : State) (i : Issue) (k : Flue → Flue) : (State.upd s i k).mem = s.mem := by
  simp [State.upd]
@[simp] theorem outside_mem (s : State) (i : Issue) (f : Flue) (acting : LaneMask) (k : State) (hk : k.mem = s.mem) :
    (outside s i f acting k).mem = s.mem := by
  simp [outside, hk]
@[simp] theorem outside_wf (s : State) (i : Issue) (f : Flue) (acting : LaneMask) (k : State) (h : Memory.wf s.mem = true)
    (hk : Memory.wf k.mem = true) : Memory.wf (outside s i f acting k).mem = true := by
  simp [outside, h, hk]
@[simp] theorem State.setBar_mem (s : State) (stove gid b : Nat) (x : Barrier) : (State.setBar s stove gid b x).mem = s.mem := by
  unfold State.setBar
  split <;> simp
@[simp] theorem State.barRefuse_mem (s : State) (stove gid b gfl : Nat) : (State.barRefuse s stove gid b gfl).mem = s.mem := by
  simp [State.barRefuse]
@[simp] theorem State.barRefuseHeld_mem (s : State) (stove gid b gfl : Nat) : (State.barRefuseHeld s stove gid b gfl).mem = s.mem := by
  simp [State.barRefuseHeld]

@[simp] theorem State.barComplete_mem (s : State) (stove gid b : Nat) : (s.barComplete stove gid b).mem = s.mem := by
  have hs : ∀ (l : List (Nat × BarFlue)) (s : State), (l.foldl (fun s p => match s.slotOf stove gid p.1 with
      | some slot => s.modFlue stove slot fun f => f.stepWait p.2
      | none => s) s).mem = s.mem :=
    fun l s => State.foldl_mem _ (fun s p => by split <;> simp) l s
  unfold State.barComplete
  dsimp only
  rw [State.setBar_mem]
  split
  · rw [State.setGroup_mem]; exact hs ..
  · exact hs ..

@[simp] theorem State.barArrive_mem (s : State) (stove gid b gfl : Nat) (a : Word) (again : Bool) (lanes : LaneMask) (pc : DWord) :
    (State.barArrive s stove gid b gfl a again lanes pc).2.mem = s.mem := by
  unfold State.barArrive
  dsimp only
  repeat' split
  all_goals simp

@[simp] theorem State.heldCause_mem (s : State) (stove gid gfl : Nat) (bf : BarFlue) (c : Nat) :
    (State.heldCause s stove gid gfl bf c).mem = s.mem := by
  unfold State.heldCause
  dsimp only
  repeat' split
  all_goals simp

@[simp] theorem State.barHeld_mem (stove gid b n : Nat) (s : State) : (State.barHeld stove gid b n s).mem = s.mem := by
  induction n generalizing s with
  | zero => rfl
  | succ n ih =>
    unfold State.barHeld
    split
    · rfl
    · dsimp only
      split <;> rename_i e <;> simp [ih, mem_of_snd e]

@[simp] theorem State.barEvent_mem (s : State) (stove gid b gfl : Nat) (a : Word) (lanes : LaneMask) (pc : DWord) :
    (s.barEvent stove gid b gfl a lanes pc).2.mem = s.mem := by
  unfold State.barEvent
  split <;> rename_i e <;> simp [mem_of_snd e]

@[simp] theorem State.barPark_mem (s : State) (stove slot : Nat) : (s.barPark stove slot).mem = s.mem := by
  refine State.foldl_mem _ (fun s b => ?_) _ _
  split <;> simp

@[simp] theorem State.barDrain_mem (s : State) (stove gid gfl : Nat) : (s.barDrain stove gid gfl).mem = s.mem := by
  unfold State.barDrain
  split
  · rfl
  · split
    · rfl
    · exact (State.foldl_mem _ (fun s b => by simp) _ _).trans (State.setGroup_mem ..)

@[simp] theorem State.afterPark_mem (s : State) (stove slot : Nat) : (State.afterPark s stove slot).mem = s.mem := by
  unfold State.afterPark
  split <;> simp

theorem barTake_formed (x : CArgs) (wait : Bool) (s : State) (h : Memory.wf s.mem = true) : EndsFormed (barTake x wait s) := by
  refine endsFormed_onIssue fun i f => outside_wf _ _ _ _ _ h ?_
  extract_lets s1 a y bf bf1 bf2 s2 s3
  have h1 : Memory.wf s1.mem = true := by simp [s1, h]
  have h2 : Memory.wf s2.mem = true := by simp [s2, h1]
  have h3 : Memory.wf s3.mem = true := by simp [s3, h2]
  split
  · simp [h1]
  split
  · split <;> rename_i e
    · simp [mem_of_snd e, h2]
    · simp [h3]
  · exact h3

@[simp] theorem execBar_formed (x : CArgs) (s : State) (h : Memory.wf s.mem = true) :
    EndsFormed (execBar x s) := barTake_formed x true s h
@[simp] theorem execBara_formed (x : CArgs) (s : State) (h : Memory.wf s.mem = true) :
    EndsFormed (execBara x s) := barTake_formed x false s h
@[simp] theorem execBarw_formed (x : CArgs) (s : State) (h : Memory.wf s.mem = true) : EndsFormed (execBarw x s) := by
  simp [execBarw, h]

/-! ### Machine/Control -/

@[simp] theorem callFrame_mem (s : State) (i : Issue) (targets : List (Nat × DWord)) (parked : LaneMask) (demand : Nat) :
    (callFrame s i targets parked demand).mem = s.mem := by
  simp [callFrame]

@[simp] theorem execCall_formed (x : CArgs) (s : State) (h : Memory.wf s.mem = true) : EndsFormed (execCall x s) := by
  refine endsFormed_onIssue fun i f => ?_
  dsimp only
  repeat' split
  all_goals simp [h]

@[simp] theorem execCalli_formed (x : CArgs) (s : State) (h : Memory.wf s.mem = true) : EndsFormed (execCalli x s) := by
  simp [execCalli, h]
@[simp] theorem State.afterFall_mem (s : State) (stove slot : Nat) : (State.afterFall s stove slot).mem = s.mem := by
  simp [State.afterFall]
@[simp] theorem execRet_formed (x : CArgs) (s : State) (h : Memory.wf s.mem = true) : EndsFormed (execRet x s) := by
  simp [execRet, h]

@[simp] theorem State.leaveWaits_mem (s : State) (stove slot : Nat) (moved : LaneMask) (n : Nat) :
    (State.leaveWaits s stove slot moved n).mem = s.mem := by
  unfold State.leaveWaits
  dsimp only
  repeat' split
  all_goals simp

@[simp] theorem execUnwind_formed (x : CArgs) (s : State) (h : Memory.wf s.mem = true) : EndsFormed (execUnwind x s) := by
  simp [execUnwind, h]
@[simp] theorem execExitLanes_formed (x : CArgs) (s : State) (h : Memory.wf s.mem = true) : EndsFormed (execExitLanes x s) := by
  simp [execExitLanes, h]
@[simp] theorem execCommit_formed (x : CArgs) (s : State) (h : Memory.wf s.mem = true) : EndsFormed (execCommit x s) := by
  simp [execCommit, h]

/-! ### Machine/MemoryOps -/

theorem foldLanes_mem (k : State → Nat → LaneAcc × State) (hk : ∀ s l, (k s l).2.mem = s.mem) :
    ∀ (ls : List Nat) (s : State), (foldLanes k ls s).2.mem = s.mem
  | [], _ => rfl
  | l :: ls, s => (foldLanes_mem k hk ls _).trans (hk s l)

@[simp] theorem releaseAt_wf (s : State) (i : Issue) (f : Flue) (acting : LaneMask) (sys : Bool) (k : State → State)
    (h : Memory.wf s.mem = true) (hk : ∀ t, Memory.wf t.mem = true → Memory.wf (k t).mem = true) :
    Memory.wf (releaseAt s i f acting sys k).mem = true := by
  have hr : Memory.wf ((s.commit i.stove i.slot).release i.stove).mem = true := by simp [h]
  unfold releaseAt
  simp [hr, hk]

@[simp] theorem accLanes_mem (y : AccSpec) (i : Issue) (f : Flue) : ∀ (ls : List Nat) (s : State), (accLanes y i f ls s).2.mem = s.mem
  | [], _ => rfl
  | l :: ls, s => by
    have ih := (accLanes_mem y i f ls (s.check i.stove f y.space (y.ea l) y.size y.kind y.dcl).2).trans (State.check_mem ..)
    unfold accLanes
    dsimp only
    split <;> exact ih

@[simp] theorem loadOp_formed (x : LArgs) (const : Bool) (s : State) (h : Memory.wf s.mem = true) : EndsFormed (loadOp x const s) := by
  simp [loadOp, h]
@[simp] theorem execLd_formed (x : LArgs) (s : State) (h : Memory.wf s.mem = true) : EndsFormed (execLd x s) := by
  simp [execLd, h]
@[simp] theorem execLdc_formed (x : LArgs) (s : State) (h : Memory.wf s.mem = true) : EndsFormed (execLdc x s) := by
  simp [execLdc, h]
@[simp] theorem storeOp_mem (x : LArgs) (i : Issue) (act : LaneMask) (s : State) : (storeOp x i act s).mem = s.mem := by
  unfold storeOp
  simp [State.foldl_mem]
@[simp] theorem execSt_formed (x : LArgs) (s : State) (h : Memory.wf s.mem = true) : EndsFormed (execSt x s) := by
  simp [execSt, h]

@[simp] theorem State.redAt_wf (s : State) (stove : Nat) (f : Flue) (aop : Nat) (ty : Ty) (p : Loc × List DWord)
    (h : Memory.wf s.mem = true) : Memory.wf (s.redAt stove f aop ty p).mem = true := by
  unfold State.redAt
  split
  · simp [h]
  · exact foldl_wf _ (fun s v hs => (s.atomLoc_form ..).wf hs) _ s h

@[simp] theorem State.atomAll_wf (stove : Nat) (f : Flue) (aop : Nat) (ty : Ty) :
    ∀ (ps : List (Loc × List (Nat × DWord × DWord))) (s : State) (_ : Memory.wf s.mem = true),
      Memory.wf (s.atomAll stove f aop ty ps).2.mem = true
  | [], _, h => h
  | p :: ps, s, h => State.atomAll_wf stove f aop ty ps _ ((s.atomAt_form stove f aop ty p).wf h)

@[simp] theorem atomOp_wf (x : LArgs) (i : Issue) (f : Flue) (act : LaneMask) (s : State) (h : Memory.wf s.mem = true) :
    Memory.wf (atomOp x i f act s).mem = true := by
  unfold atomOp
  simp [h]

@[simp] theorem execAtom_formed (x : LArgs) (s : State) (h : Memory.wf s.mem = true) : EndsFormed (execAtom x s) := by
  refine endsFormed_onIssue fun i f => ?_
  simp +contextual [h]

@[simp] theorem redOp_wf (x : LArgs) (i : Issue) (f : Flue) (act : LaneMask) (s : State) (h : Memory.wf s.mem = true) :
    Memory.wf (redOp x i f act s).mem = true := by
  unfold redOp
  simp +contextual [foldl_wf, h]

@[simp] theorem execRed_formed (x : LArgs) (s : State) (h : Memory.wf s.mem = true) : EndsFormed (execRed x s) := by
  refine endsFormed_onIssue fun i f => ?_
  simp +contextual [h]
@[simp] theorem execFence_formed (x : LArgs) (s : State) (h : Memory.wf s.mem = true) : EndsFormed (execFence x s) := by
  simp [execFence, h]
@[simp] theorem State.caches_mem (s : State) (stove : Nat) (l1 kc : Tab Line → Tab Line) : (State.caches s stove l1 kc).mem = s.mem := by
  simp [State.caches]

theorem pfence_formed (x : LArgs) (act : Nat → Nat → State → State)
    (hact : ∀ a b t, Memory.wf t.mem = true → Memory.wf (act a b t).mem = true)
    (s : State) (h : Memory.wf s.mem = true) : EndsFormed (pfence x act s) := by
  refine endsFormed_onIssue fun i f => ?_
  simp [h, hact]

@[simp] theorem execPfenceGen_formed (x : LArgs) (s : State) (h : Memory.wf s.mem = true) : EndsFormed (execPfenceGen x s) := by
  unfold execPfenceGen
  exact pfence_formed x _ (fun _ _ t ht => by simp [ht]) s h
@[simp] theorem execPfenceConst_formed (x : LArgs) (s : State) (h : Memory.wf s.mem = true) : EndsFormed (execPfenceConst x s) := by
  unfold execPfenceConst
  exact pfence_formed x _ (fun _ _ t ht => by simp [ht]) s h
@[simp] theorem execPfenceTile_formed (x : LArgs) (s : State) (h : Memory.wf s.mem = true) : EndsFormed (execPfenceTile x s) :=
  pfence_formed x _ (fun a _ t ht => t.release_wf a ht) s h

@[simp] theorem execPref_formed (x : LArgs) (s : State) (h : Memory.wf s.mem = true) : EndsFormed (execPref x s) := by
  refine endsFormed_onIssue fun i f => ?_
  dsimp only
  repeat' split
  all_goals simp [h]

@[simp] theorem cinvLane_mem (x : LArgs) (i : Issue) (f : Flue) (s : State) (l : Nat) : (cinvLane x i f s l).mem = s.mem := by
  unfold cinvLane
  dsimp only
  repeat' split
  all_goals simp

@[simp] theorem execCinv_formed (x : LArgs) (s : State) (h : Memory.wf s.mem = true) : EndsFormed (execCinv x s) := by
  simp [execCinv, State.foldl_mem, h]
@[simp] theorem State.modScp_mem (s : State) (stove cid : Nat) (k : Memory → Memory) : (State.modScp s stove cid k).mem = s.mem := by
  simp [State.modScp]

theorem awLane_mem (x : LArgs) (i : Issue) (f : Flue) (k : State → Nat → LaneAcc × State) (hk : ∀ s a, (k s a).2.mem = s.mem) (s : State)
    (l : Nat) : (awLane x i f k s l).2.mem = s.mem := by
  unfold awLane
  dsimp only
  split <;> simp [hk]

@[simp] theorem execAwset_formed (x : LArgs) (s : State) (h : Memory.wf s.mem = true) : EndsFormed (execAwset x s) := by
  refine endsFormed_onIssue fun i f => ?_
  extract_lets act
  split
  · simp [h]
  · rename_i c r _
    have hr : r.2.mem = (s.commit i.stove i.slot).mem :=
      foldLanes_mem _ (fun s l => awLane_mem _ _ _ _ (fun s a => by extract_lets b; split <;> simp) _ _) _ _
    simp [hr, h]

@[simp] theorem execAwadd_formed (x : LArgs) (s : State) (h : Memory.wf s.mem = true) : EndsFormed (execAwadd x s) := by
  refine endsFormed_onIssue fun i f => ?_
  extract_lets act
  split
  · simp [h]
  · rename_i c r _
    have hr : r.2.mem = ((s.commit i.stove i.slot).release i.stove).mem :=
      foldLanes_mem _ (fun s l => awLane_mem _ _ _ _ (fun s a => State.modScp_mem ..) _ _) _ _
    simp [hr, h]

@[simp] theorem execAwwait_formed (x : LArgs) (s : State) (h : Memory.wf s.mem = true) : EndsFormed (execAwwait x s) := by
  refine endsFormed_onIssue fun i f => ?_
  extract_lets act r
  have hr : r.2.2.mem = s.mem := foldl_snd_snd_mem _ (fun a l => by extract_lets ea q; split <;> exact State.check_mem ..) _ _
  simp [hr, h]

@[simp] theorem execAwwaitReturn_formed (r : FlueRef) (lane : Nat) (s : State) (h : Memory.wf s.mem = true) :
    EndsFormed (execAwwaitReturn r lane s) := by
  simp [execAwwaitReturn, h]

@[simp] theorem execPostedWriteApply_formed (stove idx : Nat) (s : State) (h : Memory.wf s.mem = true) :
    EndsFormed (execPostedWriteApply stove idx s) := by
  unfold execPostedWriteApply
  dsimp only
  repeat' split
  all_goals simp [h]

/-! ### Machine/System -/

@[simp] theorem trapOp_formed (x : YArgs) (c : Nat) (arg : Nat → Word) (s : State) (h : Memory.wf s.mem = true) :
    EndsFormed (trapOp x c arg s) := by
  simp [trapOp, h]
@[simp] theorem execTrap_formed (x : YArgs) (s : State) (h : Memory.wf s.mem = true) : EndsFormed (execTrap x s) := by
  simp [execTrap, h]
@[simp] theorem execBkpt_formed (x : YArgs) (s : State) (h : Memory.wf s.mem = true) : EndsFormed (execBkpt x s) := by
  simp [execBkpt, h]
@[simp] theorem execRth_formed (x : YArgs) (s : State) (h : Memory.wf s.mem = true) : EndsFormed (execRth x s) := by
  simp [execRth, h]

@[simp] theorem postCall_mem (x : YArgs) (i : Issue) (s : State) : (postCall x i s).mem = s.mem := by
  unfold postCall
  dsimp only
  repeat' split
  all_goals simp

@[simp] theorem execSyscall_formed (x : YArgs) (s : State) (h : Memory.wf s.mem = true) : EndsFormed (execSyscall x s) := by
  simp [execSyscall, h]
@[simp] theorem State.mapSaved_mem (s : State) (k : Flue → Flue) : (State.mapSaved s k).mem = s.mem := by
  simp [State.mapSaved]
@[simp] theorem State.wakeRing_mem (s : State) (part : Nat) : (State.wakeRing s part).mem = s.mem := by
  simp [State.wakeRing]
@[simp] theorem State.oldDone_mem (s : State) : (State.oldDone s).mem = s.mem := by
  simp [State.oldDone]

@[simp] theorem execSyscallResult_formed (part seq : Nat) (val : Word) (s : State) (h : Memory.wf s.mem = true) :
    EndsFormed (execSyscallResult part seq val s) := by
  unfold execSyscallResult
  dsimp only
  repeat' split
  all_goals simp [h]

@[simp] theorem rdsrOp_formed (x : YArgs) (s : State) (h : Memory.wf s.mem = true) : EndsFormed (rdsrOp x s) := by
  simp [rdsrOp, h]
@[simp] theorem execRdsr_formed (x : YArgs) (s : State) (h : Memory.wf s.mem = true) : EndsFormed (execRdsr x s) := by
  simp [execRdsr, h]
@[simp] theorem execRdsrCyclo_formed (x : YArgs) (s : State) (h : Memory.wf s.mem = true) : EndsFormed (execRdsrCyclo x s) := by
  simp [execRdsrCyclo, h]

/-! ### Machine/Switch -/

@[simp] theorem State.freshLines_mem (s : State) (ls : Nat × Nat) : (State.freshLines s ls).mem = s.mem := by
  simp [State.freshLines]

theorem State.takeRun_mem {s : State} {cid n : Nat} {r : (Nat × Nat) × State} (e : s.takeRun cid n = some r) : r.2.mem = s.mem := by
  unfold State.takeRun at e
  split at e
  · cases e
  · split at e
    · cases e; rfl
    · split at e
      · cases e
      · cases e; simp

@[simp] theorem State.giveRuns_mem (s : State) (cid : Nat) (rs : List (Nat × Nat)) : (State.giveRuns s cid rs).mem = s.mem := by
  simp [State.giveRuns]
@[simp] theorem State.vacate_mem (s : State) (stove slot : Nat) : (State.vacate s stove slot).mem = s.mem := by
  simp [State.vacate]
@[simp] theorem State.countDiscard_mem (s : State) (f : Flue) : (State.countDiscard s f).mem = s.mem := by
  simp [State.countDiscard]

theorem State.flueOut_mem {s t : State} {stove slot : Nat} {why : OutWhy} (e : s.flueOut stove slot why = some t) : t.mem = s.mem := by
  unfold State.flueOut at e
  split at e
  · cases e
  split at e
  · cases e
  split at e
  · cases e
  rename_i r₁
  split at e
  · cases e
  rename_i r₂
  cases e
  simpa using (State.takeRun_mem r₂).trans (State.takeRun_mem r₁)

theorem State.flueIn_mem {s t : State} {stove gid gfl : Nat} (e : s.flueIn stove gid gfl = some t) : t.mem = s.mem := by
  unfold State.flueIn at e
  split at e
  · cases e
  split at e
  · split at e
    · cases e
    · cases e; simp
  · cases e

@[simp] theorem State.countStoves_mem (s : State) (part kslot : Nat) : (State.countStoves s part kslot).mem = s.mem := by
  unfold State.countStoves
  split <;> simp
@[simp] theorem State.clearGroup_mem (s : State) (stove gid : Nat) : (State.clearGroup s stove gid).mem = s.mem := by
  simp [State.clearGroup, State.foldl_mem]

theorem takeRuns_mem {cid : Nat} : ∀ {ns : List Nat} {s : State} {r : List (Nat × Nat) × State}, takeRuns cid ns s = some r → r.2.mem =
    s.mem
  | [], _, _, e => by cases e; rfl
  | n :: ns, s, r, e => by
    unfold takeRuns at e
    split at e
    · cases e
    · rename_i r₁
      obtain ⟨q, hq, rfl⟩ := Option.map_eq_some_iff.1 e
      exact (takeRuns_mem hq).trans (State.takeRun_mem r₁)

theorem State.groupOut_wf {s t : State} {stove gid : Nat} (e : s.groupOut stove gid = some t) (h : Memory.wf s.mem = true) :
    Memory.wf t.mem = true := by
  unfold State.groupOut at e
  split at e
  · cases e
  dsimp only at e
  split at e
  · cases e
  rename_i r₁
  split at e
  · cases e
  cases e
  have h₁ := takeRuns_mem r₁
  dsimp only at h₁
  simp [State.foldl_mem, h₁, h]

@[simp] theorem State.groupIn_mem (s : State) (stove : Nat) (w : SwitchedGroup) : (State.groupIn s stove w).mem = s.mem := by
  simp [State.groupIn]
@[simp] theorem State.lessLive_mem (s : State) (g : Group) : (State.lessLive s g).mem = s.mem := by
  unfold State.lessLive
  split <;> simp
@[simp] theorem State.loseGroup_mem (s : State) (stove gid : Nat) : (State.loseGroup s stove gid).mem = s.mem := by
  unfold State.loseGroup
  split <;> simp [State.foldl_mem]
@[simp] theorem State.loseGroups_mem (s : State) (which : Group → Bool) : (State.loseGroups s which).mem = s.mem := by
  simp [State.loseGroups, State.foldl_mem]

/-! ### Machine/Kernel -/

@[simp] theorem State.devTouchFuel_mem (cid src fuel : Nat) :
    ∀ (s : State) (va : DWord) (n : Nat), (s.devTouchFuel cid src fuel va n).mem = s.mem := by
  induction fuel with
  | zero => intro s va n; rfl
  | succ fuel ih =>
    intro s va n
    unfold State.devTouchFuel
    split
    · rfl
    · rw [ih]
      split <;> simp

@[simp] theorem State.devTouch_mem (s : State) (cid : Nat) (va : DWord) (n src : Nat) : (s.devTouch cid va n src).mem = s.mem :=
  State.devTouchFuel_mem ..

theorem State.devWriteFuel_wf (cid fuel : Nat) : ∀ (s : State) (va : DWord) (bs : List Byte), Memory.wf s.mem = true →
    Memory.wf (s.devWriteFuel cid fuel va bs).mem = true := by
  induction fuel with
  | zero => intro s va bs h; exact h
  | succ fuel ih =>
    intro s va bs h
    cases bs with
    | nil => exact h
    | cons b bs =>
      refine ih _ _ _ ?_
      split <;> simp [h]

@[simp] theorem State.devWrite_wf (s : State) (cid : Nat) (va : DWord) (bs : List Byte) (h : Memory.wf s.mem = true) :
    Memory.wf (s.devWrite cid va bs).mem = true :=
  State.devWriteFuel_wf cid _ s va bs h

@[simp] theorem State.wantRange_mem (s : State) (cid : Nat) (va : DWord) (n : Nat) : (s.wantRange cid va n).mem = s.mem := by
  refine State.foldl_mem _ (fun s j => ?_) _ s
  extract_lets p
  split <;> simp

@[simp] theorem State.askPage_mem (s : State) (cid : Nat) (va : DWord) : (State.askPage s cid va).mem = s.mem := by
  unfold State.askPage
  split <;> simp

@[simp] theorem State.setTileBit_wf (s : State) (cid : Nat) (obmap : DWord) (j : Nat) (h : Memory.wf s.mem = true) :
    Memory.wf (State.setTileBit s cid obmap j).mem = true := by
  unfold State.setTileBit
  split <;> simp [h]

@[simp] theorem State.wantBits_mem (s : State) (p : Partition) (k : Kernel) : (s.wantBits p k).mem = s.mem :=
  State.foldl_mem _ (fun s m => by split <;> simp) _ s
@[simp] theorem State.touchBits_mem (s : State) (p : Partition) (k : Kernel) (i : Nat) : (s.touchBits p k i).mem = s.mem :=
  State.foldl_mem _ (fun s m => by split <;> simp [State.foldl_mem]) _ s
@[simp] theorem State.setBits_wf (s : State) (cid : Nat) (obmap : DWord) (js : List Nat) (h : Memory.wf s.mem = true) :
    Memory.wf (s.setBits cid obmap js).2.mem = true :=
  foldl_wf _ (fun s n hs => s.setTileBit_wf cid obmap n hs) js s h

@[simp] theorem State.flushBits_wf (s : State) (cid : Nat) (h : Memory.wf s.mem = true) : Memory.wf (s.flushBits cid).mem = true := by
  refine foldl_wf _ (fun s x hs => foldl_wf _ (fun s y hs => ?_) _ s hs) _ s h
  dsimp only
  split
  · exact hs
  · split <;> simp [hs]

@[simp] theorem State.releaseTile_wf (s : State) (part : Nat) (k : Kernel) (i t : Nat) (h : Memory.wf s.mem = true) :
    Memory.wf (State.releaseTile s part k i t).mem = true := by
  unfold State.releaseTile
  dsimp only
  repeat' split
  all_goals simp [h]

/-- By the recursor: generating the equation lemmas would evaluate the search of `Kernel.form` over its 4096 entries. -/
@[simp] theorem formSpawned_mem (part kslot : Nat) (code : DWord) (rs : List (DWord × Word)) (s : State) :
    (formSpawned s part kslot code rs).2.mem = s.mem := by
  delta formSpawned formSpawned._f
  dsimp only [List.brecOn, List.brecOn.go]
  induction rs generalizing s with
  | nil => exact Eq.refl s.mem
  | cons r rs ih =>
    dsimp only at ih ⊢
    generalize s.kernel? part kslot = k
    cases k with
    | none => exact Eq.refl s.mem
    | some k =>
      dsimp only
      generalize Kernel.form k _ = o
      cases o with
      | none => exact Eq.refl s.mem
      | some o => exact (ih _).trans (State.setKernel_mem ..)

@[simp] theorem execSpawn_formed (x : CArgs) (s : State) (h : Memory.wf s.mem = true) : EndsFormed (execSpawn x s) := by
  refine endsFormed_onIssue fun i f => ?_
  dsimp only
  repeat' split
  all_goals simp [h]

@[simp] theorem State.joinLane_mem (s : State) (part kslot : Nat) (w : Word) : (s.joinLane part kslot w).2.mem = s.mem := by
  unfold State.joinLane
  split
  · rfl
  · split
    · rfl
    · split <;> simp

@[simp] theorem execJoin_formed (x : CArgs) (s : State) (h : Memory.wf s.mem = true) : EndsFormed (execJoin x s) := by
  refine endsFormed_onIssue fun i f => outside_wf _ _ _ _ _ h ?_
  simp [foldl_snd_mem, h]
@[simp] theorem State.progress_mem (s : State) (cid q : Nat) : (State.progress s cid q).mem = s.mem := by
  simp [State.progress]

@[simp] theorem State.relTile_wf (s : State) (stove gid t : Nat) (h : Memory.wf s.mem = true) :
    Memory.wf (State.relTile s stove gid t).mem = true := by
  unfold State.relTile
  dsimp only
  repeat' split
  all_goals simp [h]

@[simp] theorem execTilerel_formed (x : CArgs) (s : State) (h : Memory.wf s.mem = true) : EndsFormed (execTilerel x s) := by
  refine endsFormed_onIssue fun i f => outside_wf _ _ _ _ _ h ?_
  simp [h]
@[simp] theorem State.complete_wf (s : State) (cid : Nat) (done : DWord) (status : Nat) (tag seq : Word) (cause : Nat)
    (h : Memory.wf s.mem = true) : Memory.wf (State.complete s cid done status tag seq cause).mem = true := by
  simp [State.complete, h]
@[simp] theorem State.headUp_mem (s : State) (cid q : Nat) : (State.headUp s cid q).mem = s.mem := by
  simp [State.headUp]
@[simp] theorem State.retireUp_mem (s : State) (cid q : Nat) : (State.retireUp s cid q).mem = s.mem := by
  simp [State.retireUp]
@[simp] theorem State.refreshMasks_mem (s : State) : (State.refreshMasks s).mem = s.mem := by
  simp [State.refreshMasks]
@[simp] theorem State.badRec_wf (s : State) (cid q : Nat) (l : Launch) (seq : Word) (h : Memory.wf s.mem = true) :
    Memory.wf (State.badRec s cid q l seq).mem = true := by
  simp [State.badRec, h]

@[simp] theorem State.takeRecord_wf (s : State) (part cid q : Nat) (c : Context) (qu : Queue) (p : Partition) (l : Launch)
    (pg : PgRead) (d : DepRead) (maps : List DepMap) (kslot : Nat) (discard : Bool) (h : Memory.wf s.mem = true) :
    Memory.wf (State.takeRecord s part cid q c qu p l pg d maps kslot discard).mem = true := by
  simp [State.takeRecord, h]

@[simp] theorem State.wantDeps_mem (s : State) (cid : Nat) (l : Launch) : (s.wantDeps cid l).mem = s.mem := by
  unfold State.wantDeps
  dsimp only
  split <;> simp

@[simp] theorem State.launchTouch_mem (s : State) (cid : Nat) (l : Launch) (d : DepRead) : (State.launchTouch s cid l d).mem = s.mem := by
  unfold State.launchTouch
  dsimp only
  repeat' split
  all_goals simp [State.foldl_mem]

theorem wantMaps_mem (cid : Nat) (l : List DepMap) (s : State) :
    (l.foldl (fun (s : State) m => s.wantRange cid m.pbmap 4) s).mem = s.mem := by
  induction l generalizing s with
  | nil => rfl
  | cons m l ih => exact (ih (s.wantRange cid m.pbmap 4)).trans (State.wantRange_mem s cid m.pbmap 4)

@[simp] theorem execKernelTake_formed (cid q : Nat) (s : State) (h : Memory.wf s.mem = true) : EndsFormed (execKernelTake cid q s) := by
  unfold execKernelTake
  split
  · simp [h]
  split
  · simp [h]
  split
  · simp [h]
  split
  · simp [h]
  generalize (List.range 256).find? _ = slot
  split
  · simp [h]
  extract_lets va s₁
  have h₁ : Memory.wf s₁.mem = true := by simp [s₁, h]
  split
  · simp [h]
  · simp [h]
  extract_lets l bad
  have hbad : EndsFormed bad := by
    unfold bad
    split <;> simp [h₁]
  split
  · exact hbad
  split
  · simp [h₁]
  · simp [h₁]
  · exact hbad
  · exact hbad
  extract_lets s₂
  have h₂ : Memory.wf s₂.mem = true := by simp [s₂, h₁]
  split
  · exact (endsFormed_next _).2 ((wantMaps_mem ..).symm ▸ h₂)
  · exact hbad
  · simp [h₂]
  · simp [h₂]

@[simp] theorem State.giveScratch_mem (s : State) (p : Partition) (k : Kernel) : (s.giveScratch p k).1.mem = s.mem := by
  unfold State.giveScratch
  rw [foldl_fst_mem]
  intro a d
  exact State.setDie_mem ..

@[simp] theorem State.freeScratch_mem (s : State) (k : Kernel) : (s.freeScratch k).mem = s.mem :=
  State.foldl_mem _ (fun _ _ => State.setDie_mem ..) _ s

@[simp] theorem execKernelStart_formed (part kslot : Nat) (s : State) (h : Memory.wf s.mem = true) :
    EndsFormed (execKernelStart part kslot s) := by
  unfold execKernelStart
  split
  · dsimp only
    split
    · simp [h]
    · split <;> simp [h]
  · simp [h]

@[simp] theorem execGridRecordFormation_formed (part kslot : Nat) (s : State) (h : Memory.wf s.mem = true) :
    EndsFormed (execGridRecordFormation part kslot s) := by
  unfold execGridRecordFormation
  dsimp only
  repeat' split
  all_goals simp [h]

@[simp] theorem execAffinityLapse_formed (part kslot entry : Nat) (s : State) (h : Memory.wf s.mem = true) :
    EndsFormed (execAffinityLapse part kslot entry s) := by
  unfold execAffinityLapse
  split <;> simp [h]

@[simp] theorem State.killKernel_mem (s : State) (part kslot status cause : Nat) :
    (State.killKernel s part kslot status cause).mem = s.mem := by
  unfold State.killKernel
  dsimp only
  repeat' split
  all_goals simp

@[simp] theorem State.endConsumers_mem (s : State) (part uid : Nat) : (State.endConsumers s part uid).mem = s.mem := by
  unfold State.endConsumers
  split <;> simp [State.foldl_mem]
@[simp] theorem State.releaseAll_wf (s : State) (part : Nat) (h : Memory.wf s.mem = true) : Memory.wf (s.releaseAll part).mem = true :=
  foldl_wf _ (fun s n hs => (s.release_form n).wf hs) _ s h

@[simp] theorem State.retire_wf (s : State) (part kslot : Nat) (h : Memory.wf s.mem = true) :
    Memory.wf (s.retire part kslot).mem = true := by
  unfold State.retire
  split
  · exact h
  · extract_lets dropped s1 n bits w1 s2 s3 s4
    have h1 : Memory.wf s1.mem = true := by simp [s1, h]
    have h2 : Memory.wf s2.mem = true := by
      unfold s2 w1
      split <;> simp [h1]
    have h3 : Memory.wf s3.mem = true := by simp [s3, h2]
    simp [s4, h3]

@[simp] theorem State.releaseAllTiles_wf (s : State) (part kslot : Nat) (h : Memory.wf s.mem = true) :
    Memory.wf (s.releaseAllTiles part kslot).mem = true := by
  unfold State.releaseAllTiles
  split
  · exact h
  · split
    · exact h
    · exact foldl_wf _ (fun s j hs => foldl_wf _ (fun s t hs => s.releaseTile_wf _ _ _ t hs) _ s hs) _ s h

@[simp] theorem State.wantRetire_mem (s : State) (k : Kernel) : (State.wantRetire s k).mem = s.mem := by
  simp [State.wantRetire]

@[simp] theorem execKernelRetire_formed (part kslot : Nat) (s : State) (h : Memory.wf s.mem = true) :
    EndsFormed (execKernelRetire part kslot s) := by
  unfold execKernelRetire
  split
  · simp [h]
  · split
    · simp [h]
    · simp only [endsFormed_next]
      split
      · simp [h]
      · split <;> simp [h]
    · simp [h]

@[simp] theorem State.dispatch_mem (s : State) (stove part kslot entry : Nat) :
    (State.dispatch s stove part kslot entry).mem = s.mem := by
  unfold State.dispatch
  dsimp only
  repeat' split
  all_goals simp

@[simp] theorem State.completeGroup_wf (s : State) (stove gid : Nat) (h : Memory.wf s.mem = true) :
    Memory.wf (s.completeGroup stove gid).mem = true := by
  unfold State.completeGroup
  split
  · exact h
  · split
    · simp [h]
    · simp +contextual [foldl_wf, h]

@[simp] theorem execFlueDrainComplete_formed (r : FlueRef) (s : State) (h : Memory.wf s.mem = true) :
    EndsFormed (execFlueDrainComplete r s) := by
  unfold execFlueDrainComplete
  dsimp only
  repeat' split
  all_goals simp [h]

/-! ### Machine/Queue -/

@[simp] theorem State.modQueue_mem (s : State) (cid q : Nat) (k : Queue → Queue) : (State.modQueue s cid q k).mem = s.mem := by
  simp [State.modQueue]

@[simp] theorem State.notify_mem (s : State) (cid q : Nat) (tail : Word) : (s.notify cid q tail).mem = s.mem := by
  unfold State.notify
  split
  · split
    · exact State.foldl_mem _ (fun _ _ => State.say_mem ..) _ _
    · simp
  · rfl

@[simp] theorem State.kickNow_mem (s : State) (cid q : Nat) (tail : Word) : (State.kickNow s cid q tail).mem = s.mem := by
  unfold State.kickNow
  split <;> simp
@[simp] theorem State.kickTo_mem (s : State) (cid q : Nat) (tail : Word) : (State.kickTo s cid q tail).mem = s.mem := by
  simp [State.kickTo]

@[simp] theorem State.kicksDue_mem (s : State) (cid : Nat) : (s.kicksDue cid).mem = s.mem := by
  unfold State.kicksDue
  split
  · rfl
  · split <;> simp [State.foldl_mem]

@[simp] theorem State.resetTo_mem (s : State) (cid q : Nat) (val : Word) : (State.resetTo s cid q val).mem = s.mem := by
  unfold State.resetTo
  split <;> simp
@[simp] theorem execKick_formed (cid q : Nat) (tail : Word) (s : State) (h : Memory.wf s.mem = true) :
    EndsFormed (execKick cid q tail s) := by
  simp [execKick, h]
@[simp] theorem execQueueReset_formed (cid q : Nat) (val : Word) (s : State) (h : Memory.wf s.mem = true) :
    EndsFormed (execQueueReset cid q val s) := by
  simp [execQueueReset, h]
@[simp] theorem execKickPageIgnoredWrite_formed (_cid _q _off _size : Nat) (_val : BitVec 64) (s : State)
    (h : Memory.wf s.mem = true) : EndsFormed (execKickPageIgnoredWrite _cid _q _off _size _val s) := by
  simp [execKickPageIgnoredWrite, h]

@[simp] theorem launchOp_wf (i : Issue) (f : Flue) (acting : LaneMask) (a : DWord) (q : Nat) (s : State) (h : Memory.wf s.mem = true) :
    Memory.wf (launchOp i f acting a q s).mem = true := by
  unfold launchOp
  dsimp only
  repeat' split
  all_goals simp [h]

@[simp] theorem execLaunch_formed (x : CArgs) (s : State) (h : Memory.wf s.mem = true) : EndsFormed (execLaunch x s) := by
  refine endsFormed_onIssue fun i f => outside_wf _ _ _ _ _ h ?_
  simp +contextual [h]

@[simp] theorem execQueueBind_formed (cid q : Nat) (s : State) (h : Memory.wf s.mem = true) : EndsFormed (execQueueBind cid q s) := by
  unfold execQueueBind
  split
  · split
    · simp [h]
    · split
      · simp [h]
      · split <;> simp [h]
  · simp [h]

@[simp] theorem State.trimGrant_mem (s : State) (cid : Nat) : (State.trimGrant s cid).mem = s.mem := by
  simp [State.trimGrant]

@[simp] theorem execQueueUnbind_formed (cid q : Nat) (s : State) (h : Memory.wf s.mem = true) : EndsFormed (execQueueUnbind cid q s) := by
  unfold execQueueUnbind
  dsimp only
  repeat' split
  all_goals simp [h]

@[simp] theorem execGrant_formed (cid : Nat) (mask : BitVec 64) (s : State) (h : Memory.wf s.mem = true) :
    EndsFormed (execGrant cid mask s) := by
  unfold execGrant
  split
  · simp [h]
  · split <;> simp [h]

@[simp] theorem State.drainReq_mem (s : State) (part cid : Nat) : (State.drainReq s part cid).mem = s.mem := by
  unfold State.drainReq
  split <;> simp

@[simp] theorem State.leaveThread_mem (s : State) (h : Nat) (record resume : DWord) :
    (State.leaveThread s h record resume).mem = s.mem := by
  unfold State.leaveThread
  dsimp only
  repeat' split
  all_goals simp

@[simp] theorem State.leaveThreads_mem (s : State) (cid reason : Nat) : (s.leaveThreads cid reason).mem = s.mem := by
  unfold State.leaveThreads
  split
  · rfl
  · exact State.foldl_mem _ (fun s t => by split <;> simp) _ s

@[simp] theorem State.dropWork_mem (s : State) (cid : Nat) (which : Kernel → Bool) : (State.dropWork s cid which).mem = s.mem := by
  simp [State.dropWork, State.foldl_mem]
@[simp] theorem State.dropStreams_mem (s : State) (cid : Nat) : (State.dropStreams s cid).mem = s.mem := by
  unfold State.dropStreams
  split <;> simp [State.foldl_mem]

@[simp] theorem State.contextFault_mem (s : State) (cid kind hearth detail : Nat) :
    (State.contextFault s cid kind hearth detail).mem = s.mem := by
  unfold State.contextFault
  split <;> simp

@[simp] theorem State.countFault_mem (s : State) (cid q dom : Nat) : (State.countFault s cid q dom).mem = s.mem := by
  simp [State.countFault]
@[simp] theorem State.killQueue_mem (s : State) (cid q cause : Nat) : (State.killQueue s cid q cause).mem = s.mem := by
  simp [State.killQueue, State.foldl_mem]

@[simp] theorem State.faultDomain_mem (s : State) (part kslot cause hearth : Nat) :
    (State.faultDomain s part kslot cause hearth).mem = s.mem := by
  unfold State.faultDomain
  dsimp only
  repeat' split
  all_goals simp [State.foldl_mem]

@[simp] theorem execWatchdogExpiry_formed (cid q : Nat) (s : State) (h : Memory.wf s.mem = true) :
    EndsFormed (execWatchdogExpiry cid q s) := by
  unfold execWatchdogExpiry
  dsimp only
  repeat' split
  all_goals simp [h]

/-! ### Machine/Fetch -/

@[simp] theorem State.fetch_mem (s : State) (stove cid : Nat) (pc : DWord) : (State.fetch s stove cid pc).2.mem = s.mem := by
  unfold State.fetch
  dsimp only
  repeat' split
  all_goals simp

@[simp] theorem State.openClause_mem (s : State) (stove slot : Nat) (lanes : LaneMask) (pc : DWord) (h : Word) (ws : List Word) :
    (State.openClause s stove slot lanes pc h ws).mem = s.mem := by
  unfold State.openClause
  split <;> simp

@[simp] theorem State.takeClause_formed (s : State) (r : FlueRef) (pc : DWord) (h : Memory.wf s.mem = true) :
    EndsFormed (State.takeClause s r pc) := by
  unfold State.takeClause
  dsimp only
  repeat' split
  all_goals simp [h]

@[simp] theorem execClauseIssue_formed (r : FlueRef) (pc : BitVec 64) (s : State) (h : Memory.wf s.mem = true) :
    EndsFormed (execClauseIssue r pc s) := by
  unfold execClauseIssue
  dsimp only
  repeat' split
  all_goals simp [h]

/-! ### Machine/Life -/

@[simp] theorem execInstructionComplete_formed (r : FlueRef) (idx : Nat) (s : State) (h : Memory.wf s.mem = true) :
    EndsFormed (execInstructionComplete r idx s) := by
  simp [execInstructionComplete, h]
@[simp] theorem execPcGroupPromotion_formed (r : FlueRef) (pc : BitVec 64) (s : State) (h : Memory.wf s.mem = true) :
    EndsFormed (execPcGroupPromotion r pc s) := by
  simp [execPcGroupPromotion, h]

@[simp] theorem execCauseDelivery_formed (r : FlueRef) (s : State) (h : Memory.wf s.mem = true) : EndsFormed (execCauseDelivery r s) := by
  unfold execCauseDelivery
  dsimp only
  repeat' split
  all_goals simp [h]

@[simp] theorem execHandlerTimeout_formed (r : FlueRef) (s : State) (h : Memory.wf s.mem = true) :
    EndsFormed (execHandlerTimeout r s) := by
  unfold execHandlerTimeout
  split
  · simp [h]
  · split <;> simp [h]

@[simp] theorem execFrameGrant_formed (stove : Nat) (s : State) (h : Memory.wf s.mem = true) : EndsFormed (execFrameGrant stove s) := by
  unfold execFrameGrant
  dsimp only
  repeat' split
  all_goals simp [h]

@[simp] theorem State.wantSpill_mem (s : State) (stove : Nat) (f : Flue) (k : Nat) : (State.wantSpill s stove f k).mem = s.mem := by
  simp [State.wantSpill]

@[simp] theorem execRefillComplete_formed (r : FlueRef) (s : State) (h : Memory.wf s.mem = true) :
    EndsFormed (execRefillComplete r s) := by
  unfold execRefillComplete
  split
  · simp [h]
  · split
    · simp [h]
    · dsimp only
      split
      · simp [h]
      · simp [h]
      · simp [foldl_snd_mem, h]

@[simp] theorem execEscapeSpillStart_formed (stove : Nat) (s : State) (h : Memory.wf s.mem = true) :
    EndsFormed (execEscapeSpillStart stove s) := by
  unfold execEscapeSpillStart
  dsimp only
  repeat' split
  all_goals simp [h]

@[simp] theorem execEscapeSpillFrameDone_formed (stove : Nat) (s : State) (h : Memory.wf s.mem = true) :
    EndsFormed (execEscapeSpillFrameDone stove s) := by
  unfold execEscapeSpillFrameDone
  dsimp only
  repeat' split
  all_goals simp +contextual [foldl_wf, h]

@[simp] theorem State.waitOut_mem (s : State) (stove slot : Nat) : (s.waitOut stove slot).mem = s.mem := by
  unfold State.waitOut
  split
  · rfl
  split
  · rfl
  extract_lets ask why
  have ha : ask.mem = s.mem := by
    unfold ask
    split <;> simp
  split
  · simp [ha]
  split
  · rfl
  split
  · rename_i e
    exact (State.flueOut_mem e).trans ha
  · rw [State.modFlue_mem, State.setStove_mem, State.countDiscard_mem, ha]

@[simp] theorem State.pageReady_wf (s : State) (cid : Nat) (h : Memory.wf s.mem = true) :
    Memory.wf (State.pageReady s cid).mem = true := by
  simp [State.pageReady, h]
@[simp] theorem State.endRound_mem (s : State) (part : Nat) : (State.endRound s part).mem = s.mem := by
  unfold State.endRound
  split <;> simp

@[simp] theorem State.takeEntry_mem (s : State) (stove part : Nat) (p : Partition) (c : Candidate) :
    (State.takeEntry s stove part p c).mem = s.mem := by
  unfold State.takeEntry
  dsimp only
  repeat' split
  all_goals simp

@[simp] theorem execStovePop_formed (stove : Nat) (s : State) (h : Memory.wf s.mem = true) : EndsFormed (execStovePop stove s) := by
  unfold execStovePop
  repeat' split
  all_goals simp [h]

@[simp] theorem execFlueRecall_formed (stove group gflue : Nat) (s : State) (h : Memory.wf s.mem = true) :
    EndsFormed (execFlueRecall stove group gflue s) := by
  unfold execFlueRecall
  split
  · simp [h]
  split
  · simp [h]
  split
  · simp [h]
  split
  · simp [h]
  rename_i e
  split <;> simp [State.flueIn_mem e, h]

@[simp] theorem execSliceEnd_formed (part : Nat) (s : State) (h : Memory.wf s.mem = true) : EndsFormed (execSliceEnd part s) := by
  unfold execSliceEnd
  dsimp only
  repeat' split
  all_goals simp [h]

@[simp] theorem execYieldDeadlineExpiry_formed (r : FlueRef) (s : State) (h : Memory.wf s.mem = true) :
    EndsFormed (execYieldDeadlineExpiry r s) := by
  unfold execYieldDeadlineExpiry
  dsimp only
  repeat' split
  all_goals simp [h]

theorem State.giveUp_mem {s t : State} {stove slot : Nat} {f : Flue} {why : OutWhy} (e : s.giveUp stove slot f why = some t) :
    t.mem = s.mem := by
  obtain ⟨s1, h1, rfl⟩ := Option.map_eq_some_iff.1 e
  rw [← State.flueOut_mem h1]
  dsimp only
  split <;> simp

/-- What is put in the place of a flue that does not give up its slot. -/
@[simp] theorem State.giveUp_getD_mem (s : State) (stove slot : Nat) (f : Flue) (why : OutWhy) (d : State) (hd : d.mem = s.mem) :
    ((s.giveUp stove slot f why).getD d).mem = s.mem := by
  cases e : s.giveUp stove slot f why with
  | none => exact hd
  | some t => exact State.giveUp_mem e

@[simp] theorem State.preemptOne_mem (s : State) (stove : Nat) : ∀ vs : List (Nat × OutWhy), (s.preemptOne stove vs).mem = s.mem
  | [] => rfl
  | (slot, why) :: vs => by
    have ih := State.preemptOne_mem s stove vs
    unfold State.preemptOne
    split
    · exact ih
    · simp [ih]

@[simp] theorem State.preemptNow_mem (s : State) (n prio : Nat) : (s.preemptNow n prio).mem = s.mem := by
  unfold State.preemptNow
  split
  · rfl
  split
  · rfl
  split
  · rfl
  exact State.giveUp_getD_mem _ _ _ _ _ _ (State.preemptOne_mem ..)

@[simp] theorem State.preemptFor_mem (s : State) (part : Nat) (p : Partition) (ch : Chosen) : (s.preemptFor part p ch).mem = s.mem := by
  unfold State.preemptFor
  split <;> simp

@[simp] theorem execSlotPreemption_formed (part : Nat) (s : State) (h : Memory.wf s.mem = true) :
    EndsFormed (execSlotPreemption part s) := by
  unfold execSlotPreemption
  repeat' split
  all_goals simp [h]

@[simp] theorem execWholeGroupSwitchOut_formed (stove group : Nat) (s : State) (h : Memory.wf s.mem = true) :
    EndsFormed (execWholeGroupSwitchOut stove group s) := by
  unfold execWholeGroupSwitchOut
  dsimp only
  split
  · simp [h]
  iterate 4
    split
    · simp [h]
  split
  · rename_i e
    exact (endsFormed_next _).2 (State.groupOut_wf e h)
  · simp [h]

@[simp] theorem execYield_formed (x : CArgs) (s : State) (h : Memory.wf s.mem = true) : EndsFormed (execYield x s) := by
  simp [execYield, h]

/-! ### Machine/Pages -/

@[simp] theorem State.pickRun_mem (k : Nat) : ∀ (sts : List Nat) (s : State), (s.pickRun k sts).2.mem = s.mem
  | [], _ => rfl
  | st :: sts, s => by
    unfold State.pickRun
    dsimp only
    split
    · rfl
    · exact State.pickRun_mem k sts _

@[simp] theorem State.takePage_wf (s : State) (cid : Nat) (st : OState) (h : Memory.wf s.mem = true) :
    Memory.wf (s.takePage cid st).2.mem = true := by
  unfold State.takePage
  dsimp only
  split <;> rename_i e <;> simp [mem_of_snd e, h]

@[simp] theorem State.takePageFor_wf (s : State) (cid : Nat) (va : DWord) (h : Memory.wf s.mem = true) :
    Memory.wf (s.takePageFor cid va).2.mem = true := by
  unfold State.takePageFor
  split
  · simp [h]
  · split <;> rename_i e <;> simp [mem_of_snd e, h]

@[simp] theorem State.setPte_wf (s : State) (cid addr : Nat) (e : DWord) (h : Memory.wf s.mem = true) :
    Memory.wf (State.setPte s cid addr e).mem = true := by
  simp [State.setPte, h]

@[simp] theorem State.ensure_wf (cid : Nat) (va : DWord) (lvl n : Nat) : ∀ (s : State) (_ : Memory.wf s.mem = true),
    Memory.wf (s.ensure cid va lvl n).2.mem = true := by
  induction n with
  | zero => intro s h; exact h
  | succ n ih =>
    intro s h
    unfold State.ensure
    split
    · exact h
    · exact h
    · split <;> rename_i e <;> have ht := wf_of_snd e (s.takePage_wf cid .service h)
      · exact ih _ (by simp [ht])
      · exact ht

@[simp] theorem State.unmapOthers_wf (s : State) (cid : Nat) (pages : List Nat) (h : Memory.wf s.mem = true) :
    Memory.wf (s.unmapOthers cid pages).mem = true := by
  refine foldl_wf _ (fun s x hs => ?_) _ s h
  split
  · exact hs
  · exact foldl_wf _ (fun s l hs => by simp [hs]) _ s hs

@[simp] theorem State.reply_wf (s : State) (c : Caller) (status : Word) (pages freeing : List Nat) (s0 : State)
    (h : Memory.wf s.mem = true) : Memory.wf (State.reply s c status pages freeing s0).mem = true := by
  unfold State.reply
  dsimp only
  repeat' split
  all_goals simp [h]

/-- A service ends, or waits, with memory in its form. -/
@[simp] def SvcRes.Formed : SvcRes → Prop
  | .done _ s _ _ => Memory.wf s.mem = true
  | .wait s => Memory.wf s.mem = true

theorem pageService_wf (c : Caller) (svc : Nat) (k : Nat → DWord → PageReq → State → SvcRes) (s : State)
    (hk : ∀ cid a r, (k cid a r s).Formed) (h : Memory.wf s.mem = true) : Memory.wf (pageService c svc k s).mem = true := by
  unfold pageService
  split
  · exact h
  rename_i cid a _
  split
  · exact h
  split
  · simp [h]
  · simp [h]
  rename_i r _
  have hr := hk cid a r
  split <;> rename_i e <;> rw [e] at hr
  · exact hr
  · dsimp only
    split <;> split
    · exact h
    · exact State.reply_wf _ _ _ _ _ _ hr
    · exact h
    · exact State.reply_wf _ _ _ _ _ _ hr

@[simp] theorem State.changePte_wf (s : State) (cid : Nat) (r : PageReq) (a : Nat) (e : DWord) (pages : List Nat)
    (h : Memory.wf s.mem = true) : Memory.wf (State.changePte s cid r a e pages).mem = true := by
  simp [State.changePte, h]

theorem State.mapAt_formed (s : State) (cid : Nat) (r : PageReq) (attach : Bool) (h : Memory.wf s.mem = true) :
    (s.mapAt cid r attach).Formed := by
  unfold State.mapAt
  split
  · exact h
  split
  · exact h
  extract_lets taken table
  split
  · exact h
  split <;> rename_i e <;> have hs := wf_of_snd e (State.ensure_wf cid r.va r.lvl 5 s h)
  · exact h
  · exact State.freePages_wf _ _ (State.shootdown_wf _ _ _ _ _ (by simp [hs]))

theorem State.atLeaf_formed (s : State) (cid : Nat) (r : PageReq) (k : Nat → DWord → List Nat → SvcRes)
    (hk : ∀ a e pages, (k a e pages).Formed)
    (h : Memory.wf s.mem = true) : (s.atLeaf cid r k).Formed := by
  unfold State.atLeaf
  split
  · exact h
  split
  · split
    · dsimp only
      split
      · exact h
      · exact hk _ _ _
    · split
      · exact hk _ _ _
      · split <;> simp [h]
  · exact h

@[simp] theorem execMapPage_formed (c : Caller) (s : State) (h : Memory.wf s.mem = true) : EndsFormed (execMapPage c s) :=
  (endsFormed_next _).2 (pageService_wf _ _ _ _ (fun cid _ r => s.mapAt_formed cid r false h) h)
@[simp] theorem execUnmap_formed (c : Caller) (s : State) (h : Memory.wf s.mem = true) : EndsFormed (execUnmap c s) :=
  (endsFormed_next _).2 (pageService_wf _ _ _ _ (fun cid _ r => s.atLeaf_formed cid r _ (fun a e pages => by simp [h]) h) h)
@[simp] theorem execProtect_formed (c : Caller) (s : State) (h : Memory.wf s.mem = true) : EndsFormed (execProtect c s) :=
  (endsFormed_next _).2 (pageService_wf _ _ _ _ (fun cid _ r => s.atLeaf_formed cid r _ (fun a e pages => by simp [h]) h) h)

@[simp] theorem execFreePage_formed (c : Caller) (s : State) (h : Memory.wf s.mem = true) : EndsFormed (execFreePage c s) :=
  (endsFormed_next _).2 (pageService_wf _ _ _ _ (fun cid _ r => s.atLeaf_formed cid r _ (fun a e pages => by
    dsimp only
    split <;> simp [h]) h) h)

@[simp] theorem execSharePage_formed (c : Caller) (s : State) (h : Memory.wf s.mem = true) : EndsFormed (execSharePage c s) :=
  (endsFormed_next _).2 (pageService_wf _ _ _ _ (fun cid _ r => s.atLeaf_formed cid r _ (fun a e pages => by split <;> simp [h]) h) h)
@[simp] theorem execUnshare_formed (c : Caller) (s : State) (h : Memory.wf s.mem = true) : EndsFormed (execUnshare c s) :=
  (endsFormed_next _).2 (pageService_wf _ _ _ _ (fun cid _ r => s.atLeaf_formed cid r _ (fun a e pages => by split <;> simp [h]) h) h)
@[simp] theorem execAttach_formed (c : Caller) (s : State) (h : Memory.wf s.mem = true) : EndsFormed (execAttach c s) :=
  (endsFormed_next _).2 (pageService_wf _ _ _ _ (fun cid _ r => s.mapAt_formed cid r true h) h)

@[simp] theorem execWalk_formed (c : Caller) (s : State) (h : Memory.wf s.mem = true) : EndsFormed (execWalk c s) := by
  refine (endsFormed_next _).2 (pageService_wf _ _ _ _ (fun cid a r => ?_) h)
  split
  · exact h
  · exact h
  · split <;> simp [h]

@[simp] theorem execDemandZeroFill_formed (cid : Nat) (va : BitVec 64) (stove : Nat) (s : State) (h : Memory.wf s.mem = true) :
    EndsFormed (execDemandZeroFill cid va stove s) := by
  unfold execDemandZeroFill
  split
  · split
    · simp [h]
    · dsimp only
      split <;> rename_i s1 e
      · simp [h]
      · have h1 : Memory.wf s1.mem = true := wf_of_snd e (by simp [h])
        have h2 := fun ps => State.scrubPages_wf s1 ps h1
        simp [h2]
  · simp [h]

@[simp] theorem State.toTransit_wf (s : State) (cid : Nat) (va : DWord) (lvl : Nat) (pages : List Nat) (migration : Bool)
    (h : Memory.wf s.mem = true) : Memory.wf (State.toTransit s cid va lvl pages migration).mem = true := by
  simp [State.toTransit, h]
@[simp] theorem State.moved_mem (s : State) (cid : Nat) (pages : List Nat) : (State.moved s cid pages).mem = s.mem := by
  simp [State.moved]

theorem State.moveLeaf_wf {s t : State} {cid : Nat} {pages : List Nat} {frame : Nat} {l : Nat × Nat × Nat × DWord}
    (e : s.moveLeaf cid pages frame l = some t) (h : Memory.wf s.mem = true) : Memory.wf t.mem = true := by
  unfold State.moveLeaf at e
  dsimp only at e
  split at e
  · cases e; exact h
  split at e
  · cases e; simp [h]
  split at e
  · cases e
  · rename_i e'
    cases e
    exact State.setPte_wf _ _ _ _ (foldl_wf _ (fun s p hs => s.setPte_wf _ _ _ hs) _ _ (wf_of_snd e' (s.takePage_wf cid .service h)))

theorem foldl_moveLeaf_wf {cid : Nat} {pages : List Nat} {frame : Nat} {t : State} (ls : List (Nat × Nat × Nat × DWord)) :
    ∀ (m : Option State), (∀ s, m = some s → Memory.wf s.mem = true) →
      ls.foldl (fun (m : Option State) l => m.bind fun t => t.moveLeaf cid pages frame l) m = some t → Memory.wf t.mem = true := by
  induction ls with
  | nil => exact fun m h e => h t e
  | cons l ls ih =>
    refine fun m h e => ih _ (fun s hs => ?_) e
    obtain ⟨u, hu, hm⟩ := Option.bind_eq_some_iff.1 hs
    exact State.moveLeaf_wf hm (h u hu)

@[simp] theorem execPageMigration_formed (cid : Nat) (va : BitVec 64) (frame : Nat) (s : State) (h : Memory.wf s.mem = true) :
    EndsFormed (execPageMigration cid va frame s) := by
  unfold execPageMigration
  split
  · simp [h]
  split
  · simp [h]
  extract_lets dest s0 data s1 badTo src s2 leaves
  have h1 : Memory.wf s1.mem = true := by simp [s1, s0, h]
  have h2 : Memory.wf s2.mem = true := Memory.wf_setBytes _ (fun p => p - _ + frame) _ h1
  split
  · simp [h]
  split
  · simp [h]
  · rename_i e
    have h3 := foldl_moveLeaf_wf _ _ (fun s hs => Option.some.inj hs ▸ h2) e
    have h4 := fun c a n ps => State.shootdown_wf _ c a n ps h3
    simp [h4]

@[simp] theorem execPageout_formed (cid : Nat) (va : BitVec 64) (s : State) (h : Memory.wf s.mem = true) :
    EndsFormed (execPageout cid va s) := by
  unfold execPageout
  dsimp only
  repeat' split
  iterate 7 · simp [h]
  · refine (endsFormed_next _).2 ?_
    simp only [State.say_mem, State.moved_mem]
    exact State.freePages_wf _ _ (State.setPte_wf _ _ _ _ (by simp [h]))

@[simp] theorem execPagein_formed (cid : Nat) (img : SealedImage) (s : State) (h : Memory.wf s.mem = true) :
    EndsFormed (execPagein cid img s) := by
  unfold execPagein
  split
  · simp [h]
  split
  · simp [h]
  split
  · split
    · simp [h]
    · split <;> rename_i e <;> have hs := wf_of_snd e (s.takePageFor_wf cid img.va h)
      · simp [h]
      · have hp := fun a b => State.poke_wf _ a b hs
        simp [State.setPte_wf, hp]
  · simp [h]

@[simp] theorem endsFormed_onHart {s : State} {k : Nat → Hart → State} (hk : ∀ h x, Memory.wf (k h x).mem = true) :
    EndsFormed (onHart s k) := by
  unfold onHart
  split
  · exact endsFormed_fault _
  · exact (endsFormed_next _).2 (hk _ _)

/-! ### Machine/Enclave -/

@[simp] theorem State.retireHart_mem (s : State) (h : Nat) (rd : BitVec 5) (v : DWord) : (State.retireHart s h rd v).mem = s.mem := by
  simp [State.retireHart]
@[simp] theorem State.illegalInst_mem (s : State) (h : Nat) : (State.illegalInst s h).mem = s.mem := by
  simp [State.illegalInst]
@[simp] theorem endsFormed_onHostHart {s : State} {k : Nat → Hart → State} (h : Memory.wf s.mem = true)
    (hk : ∀ h x, Memory.wf (k h x).mem = true) : EndsFormed (onHostHart s k) :=
  endsFormed_onHart fun n x => by simp [h, hk n x]
@[simp] theorem State.absorb_mem (s : State) (cid : Nat) (masked copied : List Byte) :
    (State.absorb s cid masked copied).mem = s.mem := by
  simp [State.absorb]
@[simp] theorem State.startKeying_mem (s : State) (cid : Nat) (from' : LState → Bool) : (State.startKeying s cid from').mem = s.mem := by
  unfold State.startKeying
  split <;> simp [State.foldl_mem]
@[simp] theorem State.finishBuild_mem (s : State) (cid : Nat) : (State.finishBuild s cid).mem = s.mem := by
  simp [State.finishBuild]
@[simp] theorem State.unbindAll_mem (s : State) (cid : Nat) : (State.unbindAll s cid).mem = s.mem := by
  simp [State.unbindAll]
@[simp] theorem State.freeAllPages_wf (s : State) (cid : Nat) (h : Memory.wf s.mem = true) :
    Memory.wf (State.freeAllPages s cid).mem = true := by
  simp [State.freeAllPages, h]
@[simp] theorem State.freeBlocks_mem (s : State) (cid : Nat) : (State.freeBlocks s cid).mem = s.mem := by
  simp [State.freeBlocks]
@[simp] theorem State.stopCtx_mem (s : State) (cid : Nat) : (State.stopCtx s cid).mem = s.mem := by
  simp [State.stopCtx]
@[simp] theorem State.destroy_wf (s : State) (cid : Nat) (h : Memory.wf s.mem = true) : Memory.wf (State.destroy s cid).mem = true := by
  simp [State.destroy, h]

@[simp] theorem execCidPurgeComplete_formed (cid : Nat) (s : State) (h : Memory.wf s.mem = true) :
    EndsFormed (execCidPurgeComplete cid s) := by
  unfold execCidPurgeComplete
  split <;> simp [h]

/-- A manifest item that is taken leaves memory in its form. -/
@[simp] def ItemRes.Formed : ItemRes → Prop
  | .ok s => Memory.wf s.mem = true
  | .badItem => True
  | .noMem => True

theorem State.pageItem_formed (s : State) (cid : Nat) (it : List Byte) (src : Option (List Byte)) (h : Memory.wf s.mem = true) :
    (s.pageItem cid it src).Formed := by
  unfold State.pageItem
  extract_lets va perm used
  split
  · trivial
  split
  · trivial
  rename_i e
  have h1 := wf_of_snd e (s.takePage_wf cid .owned h)
  split
  · trivial
  rename_i e'
  have h2 := wf_of_snd e' (State.ensure_wf cid va 0 5 _ h1)
  dsimp only
  split <;> simp [h2]

theorem State.item_formed (s : State) (cid : Nat) (c : Context) (it : List Byte) (h : Memory.wf s.mem = true) :
    (s.item cid c it).Formed := by
  unfold State.item
  dsimp only
  split
  · trivial
  split
  · split
    · trivial
    · exact s.pageItem_formed _ _ _ h
  · exact s.pageItem_formed _ _ _ h
  · split
    · trivial
    · split
      · trivial
      · split <;> simp [h]
  · split
    · trivial
    · simp [h]
  · split
    · trivial
    · split
      · trivial
      · split <;> simp [h]
  · trivial

/-- The reads and the items are kept opaque: in a case split the kernel would compute them. -/
@[simp] theorem State.buildOn_wf (s : State) (n : Nat) (rd : BitVec 5) (cid : Nat) (h : Memory.wf s.mem = true) :
    Memory.wf (s.buildOn n rd cid).mem = true := by
  have hi := fun c it => s.item_formed cid c it h
  unfold State.buildOn
  obtain ⟨bytes, eb⟩ : ∃ f, State.hostBytes = f := ⟨_, rfl⟩
  obtain ⟨item, ei⟩ : ∃ f, State.item s cid = f := ⟨_, rfl⟩
  rw [eb]
  rw [ei] at hi ⊢
  split
  · exact h
  rename_i c _
  extract_lets fail
  have hf : ∀ k, Memory.wf (fail k).mem = true := fun k => by simp [fail, h]
  split
  · exact hf 6
  rename_i it _
  have hi := hi c it
  split <;> rename_i e <;> rw [e] at hi
  · exact hf 6
  · exact hf 5
  · split
    · rw [State.retireHart_mem, State.finishBuild_mem]
      exact hi
    · exact hi

@[simp] theorem State.acceptCtx_mem (s : State) (cid : Nat) (c : Context) (raw : List Byte) (pages : List Nat) (root : Nat) :
    (State.acceptCtx s cid c raw pages root).mem = s.mem := by
  simp [State.acceptCtx]

@[simp] theorem execEncnew_formed (x : RArgs) (s : State) (h : Memory.wf s.mem = true) : EndsFormed (execEncnew x s) := by
  unfold execEncnew
  obtain ⟨bytes, eb⟩ : ∃ f, State.hostBytes = f := ⟨_, rfl⟩
  rw [eb]
  refine endsFormed_onHostHart h fun n hart => ?_
  extract_lets a done
  have hd : ∀ n, Memory.wf (done n).mem = true := fun n => by simp [done, h]
  split
  · exact hd _
  split
  · simp [h]
  split
  · exact hd _
  split
  · exact hd _
  split
  · exact hd _
  extract_lets c save tables taken
  split
  · exact hd _
  split
  · exact hd _
  split
  · exact hd _
  extract_lets s1 named
  split <;> rename_i e
  · exact hd _
  · have h1 : Memory.wf s1.mem = true := by simp [s1, h]
    have ht := wf_of_snd e (State.takePage_wf _ _ _ (by simp [h1]))
    exact State.buildOn_wf _ _ _ _ (by simp [ht])

@[simp] theorem execEncin_formed (x : RArgs) (s : State) (h : Memory.wf s.mem = true) : EndsFormed (execEncin x s) := by
  refine endsFormed_onHostHart h fun n hart => ?_
  dsimp only
  repeat' split
  all_goals simp [h]

@[simp] theorem execEncout_formed (x : RArgs) (s : State) (h : Memory.wf s.mem = true) : EndsFormed (execEncout x s) := by
  simp [execEncout, h]
@[simp] theorem execThreadHostInterrupt_formed (hart : Nat) (s : State) (h : Memory.wf s.mem = true) :
    EndsFormed (execThreadHostInterrupt hart s) := by
  simp [execThreadHostInterrupt, h]
@[simp] theorem execThreadFault_formed (hart : Nat) (s : State) (h : Memory.wf s.mem = true) : EndsFormed (execThreadFault hart s) := by
  simp [execThreadFault, h]

@[simp] theorem State.dropPacket_mem (s : State) (p : Packet) : (State.dropPacket s p).mem = s.mem := by
  unfold State.dropPacket
  dsimp only
  repeat' split
  all_goals simp

@[simp] theorem execNetworkTagFailure_formed (p : Packet) (s : State) (h : Memory.wf s.mem = true) :
    EndsFormed (execNetworkTagFailure p s) := by
  unfold execNetworkTagFailure
  dsimp only
  repeat' split
  all_goals simp [h]

@[simp] theorem execPmuForward_formed (cid : Nat) (s : State) (h : Memory.wf s.mem = true) : EndsFormed (execPmuForward cid s) := by
  simp [execPmuForward, h]
@[simp] theorem State.modFluesOf_mem (s : State) (cid : Nat) (k : Flue → Flue) : (State.modFluesOf s cid k).mem = s.mem := by
  simp [State.modFluesOf]

@[simp] theorem State.sealCtx_wf (s : State) (cid : Nat) (h : Memory.wf s.mem = true) : Memory.wf (s.sealCtx cid).mem = true := by
  have h1 := foldl_wf (fun (s : State) (p : Nat × Nat) =>
      match s.groupOut p.1 p.2 with
      | some s2 => s2
      | none => s.contextFault cid 6 (s.lhearth (hearthOf p.1)) 0) (fun s p hs => by
        split <;> rename_i e
        · exact State.groupOut_wf e hs
        · simp [hs]) (s.groupsOf cid) s h
  unfold State.sealCtx
  dsimp only
  split
  · exact h1
  · split
    · exact h1
    · rw [State.trimGrant_mem, State.modCtx_mem, State.forward_mem, State.leaveThreads_mem]
      exact h1

@[simp] theorem State.startSeal_mem (s : State) (cid : Nat) : (State.startSeal s cid).mem = s.mem := by
  simp [State.startSeal]
@[simp] theorem State.sealOn_wf (s : State) (h : Memory.wf s.mem = true) : Memory.wf s.sealOn.mem = true :=
  foldl_wf _ (fun s x hs => by simp [hs]) _ s h

@[simp] theorem execEncsealSeal_formed (x : RArgs) (s : State) (h : Memory.wf s.mem = true) : EndsFormed (execEncsealSeal x s) := by
  refine endsFormed_onHostHart h fun n hart => ?_
  dsimp only
  repeat' split
  all_goals simp [h]

@[simp] theorem execEncsealUnseal_formed (x : RArgs) (s : State) (h : Memory.wf s.mem = true) : EndsFormed (execEncsealUnseal x s) := by
  refine endsFormed_onHostHart h fun n hart => ?_
  dsimp only
  repeat' split
  · simp [h]
  · simp [h]
  · simp [h]
  · simp [h]
  · simp [h]
  · rw [State.retireHart_mem, State.startKeying_mem, State.foldl_mem _ (fun s q => State.foldl_mem _ (fun s p => State.say_mem ..) _ _)]
    simp [h]

@[simp] theorem execEncsealDestroy_formed (x : RArgs) (s : State) (h : Memory.wf s.mem = true) : EndsFormed (execEncsealDestroy x s) := by
  refine endsFormed_onHostHart h fun n hart => ?_
  dsimp only
  repeat' split
  all_goals simp [h]

/-! ### Machine/Cores -/

@[simp] theorem State.coreFault_mem (s : State) (h : Nat) : (State.coreFault s h).mem = s.mem := by
  simp [State.coreFault]

@[simp] theorem State.coreAt_mem (s : State) (x : Hart) (va : DWord) (n : Nat) (k : Acc) : (State.coreAt s x va n k).2.mem = s.mem := by
  unfold State.coreAt
  dsimp only
  repeat' split
  all_goals simp

@[simp] theorem State.coreAsk_mem (s : State) (cid pa n : Nat) : (State.coreAsk s cid pa n).2.mem = s.mem := by
  unfold State.coreAsk
  split <;> simp

@[simp] theorem State.coreLoad_mem (s : State) (h : Nat) (rd : BitVec 5) (va : DWord) (n : Nat) (sx : Bool) :
    (State.coreLoad s h rd va n sx).mem = s.mem := by
  unfold State.coreLoad
  dsimp only
  repeat' split
  all_goals simp

@[simp] theorem State.coreStore_wf (s : State) (h : Nat) (va : DWord) (n : Nat) (v : DWord) (hm : Memory.wf s.mem = true) :
    Memory.wf (State.coreStore s h va n v).mem = true := by
  unfold State.coreStore
  dsimp only
  repeat' split
  all_goals simp [hm]

@[simp] theorem State.coreAtomic_mem (s : State) (cid pa r a n : Nat) (aop : BitVec 3) (ty : Ty) (v : DWord × DWord) :
    (State.coreAtomic s cid pa r a n aop ty v).2.mem = s.mem := by
  simp [State.coreAtomic]

@[simp] theorem State.coreAmo_wf (s : State) (h : Nat) (rd : BitVec 5) (op : AmoOp) (va : DWord) (n : Nat) (v : DWord)
    (hm : Memory.wf s.mem = true) : Memory.wf (State.coreAmo s h rd op va n v).mem = true := by
  unfold State.coreAmo
  dsimp only
  repeat' split
  all_goals simp [hm]

@[simp] theorem State.coreLr_mem (s : State) (h : Nat) (rd : BitVec 5) (va : DWord) (n : Nat) :
    (State.coreLr s h rd va n).mem = s.mem := by
  unfold State.coreLr
  dsimp only
  repeat' split
  all_goals simp

@[simp] theorem State.scWrite_wf (s : State) (x : Hart) (pa n : Nat) (v : DWord) (h : Memory.wf s.mem = true) :
    Memory.wf (State.scWrite s x pa n v).mem = true := by
  unfold State.scWrite
  split <;> simp [h]

@[simp] theorem State.coreSc_wf (s : State) (h : Nat) (rd : BitVec 5) (va : DWord) (n : Nat) (v : DWord)
    (hm : Memory.wf s.mem = true) : Memory.wf (State.coreSc s h rd va n v).mem = true := by
  unfold State.coreSc
  dsimp only
  repeat' split
  all_goals simp [hm]

@[simp] theorem State.kickAccess_mem (s : State) (h cid q off : Nat) (op : CoreOp) : (s.kickAccess h cid q off op).mem = s.mem := by
  unfold State.kickAccess
  split
  · rfl
  · split <;> simp

@[simp] theorem State.coreOp_wf (s : State) (n : Nat) (op : CoreOp) (h : Memory.wf s.mem = true) :
    Memory.wf (s.coreOp n op).mem = true := by
  unfold State.coreOp
  dsimp only
  split
  · simp [h]
  · cases op <;> simp [h]

@[simp] theorem execApplicationCoreAccess_formed (n : Nat) (op : CoreOp) (s : State) (h : Memory.wf s.mem = true) :
    EndsFormed (execApplicationCoreAccess n op s) := by
  unfold execApplicationCoreAccess
  dsimp only
  split
  · simp [h]
  split
  · split <;> simp [h]
  · simp [h]

/-! ### Machine/Engine -/

@[simp] theorem State.tidUse_mem (s : State) (stove cid t : Nat) : (State.tidUse s stove cid t).mem = s.mem := by
  simp [State.tidUse]
@[simp] theorem State.setTid_mem (s : State) (cid t : Nat) (d : Option Descriptor) : (State.setTid s cid t d).mem = s.mem := by
  simp [State.setTid]

@[simp] theorem State.engPa_mem (s : State) (stove cid : Nat) (va : DWord) (k : Acc) : (State.engPa s stove cid va k).2.mem = s.mem := by
  unfold State.engPa
  dsimp only
  repeat' split
  all_goals simp

@[simp] theorem State.engReadGen_mem (stove cid fuel : Nat) :
    ∀ (s : State) (a n : Nat), (s.engReadGen stove cid fuel a n).2.mem = s.mem := by
  induction fuel with
  | zero => exact fun _ _ _ => rfl
  | succ fuel ih =>
    intro s a n
    unfold State.engReadGen
    dsimp only
    split
    · rfl
    · split
      · simp
      · simp
      · split <;> simp [ih]

@[simp] theorem State.engRead_mem (s : State) (stove : Nat) (f : Flue) (space a n : Nat) :
    (State.engRead s stove f space a n).2.mem = s.mem := by
  unfold State.engRead
  dsimp only
  repeat' split
  all_goals simp

@[simp] theorem State.readCells_mem (stove : Nat) (f : Flue) (d : Descriptor) (cs : List (Option Nat)) :
    ∀ s : State, (s.readCells stove f d cs).2.mem = s.mem := by
  induction cs with
  | nil => exact fun _ => rfl
  | cons c cs ih =>
    intro s
    unfold State.readCells
    extract_lets r t
    have hr : r.2.mem = s.mem := by
      unfold r
      split <;> simp
    split
    · exact hr
    · exact hr
    · split <;> exact (ih _).trans hr

@[simp] theorem State.placeGen_mem (stove cid fuel : Nat) :
    ∀ (s : State) (a : Nat) (bs : List Byte), (s.placeGen stove cid fuel a bs).2.mem = s.mem := by
  induction fuel with
  | zero => exact fun _ _ _ => rfl
  | succ fuel ih =>
    intro s a bs
    cases bs with
    | nil => rfl
    | cons b bs =>
      unfold State.placeGen
      dsimp only
      split
      · simp
      · simp
      · split <;> simp [ih]

@[simp] theorem State.place_mem (stove : Nat) (f : Flue) (ws : List EngWrite) : ∀ s : State, (s.place stove f ws).2.mem = s.mem := by
  induction ws with
  | nil => exact fun _ => rfl
  | cons w ws ih =>
    intro s
    unfold State.place
    extract_lets l r t
    have hr : r.2.mem = s.mem := by
      unfold r
      repeat' split
      all_goals simp
    split
    · exact hr
    · exact hr
    · split <;> exact (ih _).trans hr

@[simp] theorem State.engStore_wf (s : State) (stove : Nat) (f : Flue) (p : Loc × List Byte) (h : Memory.wf s.mem = true) :
    Memory.wf (State.engStore s stove f p).mem = true := by
  unfold State.engStore
  split <;> simp [h]

@[simp] theorem freeOverlap_mem (cid : Nat) (dst : Descriptor) (src : List (Nat × Nat)) (cs : List (Option Nat)) :
    ∀ (bs : List (List Byte)) (s : State), (freeOverlap cid dst src cs bs s).2.mem = s.mem := by
  induction cs with
  | nil => intro bs s; rfl
  | cons c cs ih =>
    intro bs s
    cases bs with
    | nil => rfl
    | cons b bs =>
      unfold freeOverlap
      dsimp only
      split <;> split <;> simp [ih]

@[simp] theorem State.moveRow_mem (s : State) (stove : Nat) (f : Flue) (src dst : Option Descriptor) (shape : Descriptor)
    (sslot dslot : Nat) (scells dcells all : List (Option Nat)) (u : Nat) (last : Bool) :
    (State.moveRow s stove f src dst shape sslot dslot scells dcells all u last).2.mem = s.mem := by
  unfold State.moveRow
  extract_lets n r
  have hr : r.2.mem = s.mem := by
    unfold r
    split <;> simp
  split
  · exact hr
  · exact hr
  · split
    · dsimp only
      split
      · split <;> simp [hr]
      · exact hr
    · exact hr

@[simp] theorem State.tcopyUnit_mem (s : State) (stove : Nat) (f : Flue) (op : EngineOp) (x : LArgs) :
    (State.tcopyUnit s stove f op x).2.mem = s.mem := by
  simp [State.tcopyUnit]

@[simp] theorem State.indexAt_mem (s : State) (stove : Nat) (f : Flue) (d : Descriptor) (p : Int) :
    (State.indexAt s stove f d p).2.mem = s.mem := by
  unfold State.indexAt
  dsimp only
  split <;> simp

@[simp] theorem State.indexedUnit_mem (s : State) (stove : Nat) (f : Flue) (op : EngineOp) (gather : Bool) :
    (State.indexedUnit s stove f op gather).2.mem = s.mem := by
  unfold State.indexedUnit
  dsimp only
  repeat' split
  all_goals simp

@[simp] theorem State.readVals_mem (s : State) (stove : Nat) (f : Flue) (d : Descriptor) (cells : List (Option Nat)) :
    (State.readVals s stove f d cells).2.mem = s.mem := by
  unfold State.readVals
  dsimp only
  split <;> simp

@[simp] theorem State.readAux_mem (stove : Nat) (f : Flue) (u : Nat) (ds : List Descriptor) :
    ∀ s : State, (s.readAux stove f u ds).2.mem = s.mem := by
  induction ds with
  | nil => exact fun _ => rfl
  | cons d ds ih =>
    intro s
    unfold State.readAux
    dsimp only
    split
    · simp
    · simp
    · split <;> simp [ih]

@[simp] theorem State.streamUnit_mem (s : State) (stove : Nat) (f : Flue) (op : EngineOp) (x : LArgs) :
    (State.streamUnit s stove f op x).2.mem = s.mem := by
  unfold State.streamUnit
  dsimp only
  split
  · simp
  · simp
  · split <;> simp

@[simp] theorem State.collSend_mem (s : State) (stove : Nat) (f : Flue) (op : EngineOp) (own : List Byte) :
    (State.collSend s stove f op own).mem = s.mem := by
  unfold State.collSend
  split
  · rfl
  · refine State.foldl_mem _ (fun s id => ?_) _ s
    split <;> simp

@[simp] theorem ite_snd_mem {α : Type} (c : Prop) [Decidable c] (a b : α × State) :
    (if c then a else b).2.mem = if c then a.2.mem else b.2.mem := by
  split <;> rfl

@[simp] theorem State.collUnit_mem (s : State) (stove : Nat) (f : Flue) (op : EngineOp) (x : LArgs) (peers : List (Nat × List Byte)) :
    (State.collUnit s stove f op x peers).2.mem = s.mem := by
  unfold State.collUnit
  dsimp only
  split
  · simp
  · simp
  · split
    · simp
    · repeat' split
      all_goals simp

@[simp] theorem State.useTids_mem (s : State) (stove cid : Nat) (ts : List Nat) : (State.useTids s stove cid ts).mem = s.mem := by
  simp [State.useTids, State.foldl_mem]

@[simp] theorem State.modLoose_mem (s : State) (stove gid : Nat) (k : List (Nat × EngineOp) → List (Nat × EngineOp)) :
    (State.modLoose s stove gid k).mem = s.mem := by
  unfold State.modLoose
  split <;> simp

@[simp] theorem State.mixOps_mem (s : State) (stove gid cls : Nat) (op : EngineOp) : (State.mixOps s stove gid cls op).2.mem = s.mem := by
  simp [State.mixOps, State.foldl_mem]

@[simp] theorem engIssue_formed (x : LArgs) (cls : Nat) (plan : Issue → Flue → State → Plan) (s : State) (h : Memory.wf s.mem = true) :
    EndsFormed (engIssue x cls plan s) := by
  refine endsFormed_onIssue fun i f => ?_
  split <;> simp [h]

@[simp] theorem execTcopy_formed (x : LArgs) (s : State) (h : Memory.wf s.mem = true) : EndsFormed (execTcopy x s) := by
  simp [execTcopy, h]
@[simp] theorem execGather_formed (x : LArgs) (s : State) (h : Memory.wf s.mem = true) : EndsFormed (execGather x s) := by
  simp [execGather, h]
@[simp] theorem execScatter_formed (x : LArgs) (s : State) (h : Memory.wf s.mem = true) : EndsFormed (execScatter x s) := by
  simp [execScatter, h]
@[simp] theorem execStream_formed (x : LArgs) (s : State) (h : Memory.wf s.mem = true) : EndsFormed (execStream x s) := by
  simp [execStream, h]
@[simp] theorem execCollAllred_formed (x : LArgs) (s : State) (h : Memory.wf s.mem = true) : EndsFormed (execCollAllred x s) := by
  simp [execCollAllred, h]
@[simp] theorem execCollRedsc_formed (x : LArgs) (s : State) (h : Memory.wf s.mem = true) : EndsFormed (execCollRedsc x s) := by
  simp [execCollRedsc, h]
@[simp] theorem execCollAllga_formed (x : LArgs) (s : State) (h : Memory.wf s.mem = true) : EndsFormed (execCollAllga x s) := by
  simp [execCollAllga, h]
@[simp] theorem execCollA2a_formed (x : LArgs) (s : State) (h : Memory.wf s.mem = true) : EndsFormed (execCollA2a x s) := by
  simp [execCollA2a, h]
@[simp] theorem execCollBcast_formed (x : LArgs) (s : State) (h : Memory.wf s.mem = true) : EndsFormed (execCollBcast x s) := by
  simp [execCollBcast, h]

@[simp] theorem execTidset_formed (x : LArgs) (s : State) (h : Memory.wf s.mem = true) : EndsFormed (execTidset x s) := by
  refine endsFormed_onIssue fun i f => ?_
  dsimp only
  repeat' split
  all_goals simp [h]

@[simp] theorem execTidclr_formed (x : LArgs) (s : State) (h : Memory.wf s.mem = true) : EndsFormed (execTidclr x s) := by
  simp [execTidclr, h]
@[simp] theorem execWaitc_formed (x : LArgs) (s : State) (h : Memory.wf s.mem = true) : EndsFormed (execWaitc x s) := by
  simp [execWaitc, h]

@[simp] theorem ectlOp_formed (x : LArgs) (val : Flue → Option Word) (k : Issue → State → State) (s : State)
    (hk : ∀ i s, (k i s).mem = s.mem) (h : Memory.wf s.mem = true) : EndsFormed (ectlOp x val k s) := by
  refine endsFormed_onIssue fun i f => ?_
  dsimp only
  split <;> simp [h, hk]

@[simp] theorem execEctlStat_formed (x : LArgs) (s : State) (h : Memory.wf s.mem = true) : EndsFormed (execEctlStat x s) := by
  simp [execEctlStat, h]
@[simp] theorem execEctlClr_formed (x : LArgs) (s : State) (h : Memory.wf s.mem = true) : EndsFormed (execEctlClr x s) := by
  simp [execEctlClr, h]
@[simp] theorem execEctlCnt_formed (x : LArgs) (s : State) (h : Memory.wf s.mem = true) : EndsFormed (execEctlCnt x s) := by
  simp [execEctlCnt, h]
@[simp] theorem State.loosen_mem (s : State) (stove cls : Nat) (op : EngineOp) : (State.loosen s stove cls op).mem = s.mem := by
  unfold State.loosen
  split <;> simp
@[simp] theorem State.finishOp_mem (s : State) (stove cls : Nat) (op : EngineOp) (st : EngStatus) :
    (State.finishOp s stove cls op st).mem = s.mem := by
  simp [State.finishOp]

@[simp] theorem State.passMmah_mem (s : State) (stove : Nat) (op : EngineOp) : (State.passMmah s stove op).mem = s.mem := by
  unfold State.passMmah
  dsimp only
  repeat' split
  all_goals simp

@[simp] theorem State.cancelOps_mem (s : State) (stove : Nat) (f : Flue) (cls : Nat) : (State.cancelOps s stove f cls).mem = s.mem := by
  simp [State.cancelOps, State.foldl_mem]
@[simp] theorem execEctlCncl_formed (x : LArgs) (s : State) (h : Memory.wf s.mem = true) : EndsFormed (execEctlCncl x s) :=
  ectlOp_formed x _ _ s (fun i s => by split <;> simp) h

/-! ### Machine/Geometry -/

@[simp] theorem State.escalate_mem (s : State) (stove : Nat) (es : List EscEntry) : (State.escalate s stove es).mem = s.mem := by
  simp [State.escalate]
@[simp] theorem geom_formed (x : LArgs) (na nb : Nat) (lat : Nat × Nat) (op : Bool → List Q → GRes) (s : State)
    (h : Memory.wf s.mem = true) : EndsFormed (geom x na nb lat op s) := by
  simp [geom, h]
@[simp] theorem execGori2_formed (x : LArgs) (s : State) (h : Memory.wf s.mem = true) : EndsFormed (execGori2 x s) := by
  simp [execGori2, h]
@[simp] theorem execGori3_formed (x : LArgs) (s : State) (h : Memory.wf s.mem = true) : EndsFormed (execGori3 x s) := by
  simp [execGori3, h]
@[simp] theorem execGinc_formed (x : LArgs) (s : State) (h : Memory.wf s.mem = true) : EndsFormed (execGinc x s) := by
  simp [execGinc, h]
@[simp] theorem execGins_formed (x : LArgs) (s : State) (h : Memory.wf s.mem = true) : EndsFormed (execGins x s) := by
  simp [execGins, h]
@[simp] theorem execGsegx_formed (x : LArgs) (s : State) (h : Memory.wf s.mem = true) : EndsFormed (execGsegx x s) := by
  simp [execGsegx, h]

@[simp] theorem execGeomEscalationComplete_formed (stove : Nat) (s : State) (h : Memory.wf s.mem = true) :
    EndsFormed (execGeomEscalationComplete stove s) := by
  unfold execGeomEscalationComplete
  split <;> simp [h]

/-! ### Machine/Spdm -/

@[simp] theorem State.sign_mem (s : State) (msg : List Byte) : (State.sign s msg).2.mem = s.mem := by
  unfold State.sign
  dsimp only
  repeat' split
  all_goals simp

@[simp] theorem State.setConn_mem (s : State) (n : Nat) (c : Spdm) : (State.setConn s n c).mem = s.mem := by
  simp [State.setConn]

@[simp] theorem State.respond_mem (s : State) (n : Nat) (ok : Spdm → Bool) (k : Spdm → State → State) (hk : ∀ c s, (k c s).mem = s.mem) :
    (State.respond s n ok k).mem = s.mem := by
  unfold State.respond
  split
  · rfl
  · split <;> simp [hk]

@[simp] theorem State.signed_mem (s : State) (n code : Nat) (msg : List Byte) : (State.signed s n code msg).mem = s.mem := by
  unfold State.signed
  split <;> rename_i e <;> simp [mem_of_snd e]
@[simp] theorem execGetVersion_formed (conn : Nat) (s : State) (h : Memory.wf s.mem = true) : EndsFormed (execGetVersion conn s) := by
  simp [execGetVersion, h]
@[simp] theorem execGetCapabilities_formed (conn : Nat) (caps : Word) (s : State) (h : Memory.wf s.mem = true) :
    EndsFormed (execGetCapabilities conn caps s) := by
  simp [execGetCapabilities, h]
@[simp] theorem execNegotiateAlgorithms_formed (conn : Nat) (offer : SpdmAlgs) (s : State) (h : Memory.wf s.mem = true) :
    EndsFormed (execNegotiateAlgorithms conn offer s) := by
  simp [execNegotiateAlgorithms, h]
@[simp] theorem execGetDigests_formed (conn : Nat) (s : State) (h : Memory.wf s.mem = true) : EndsFormed (execGetDigests conn s) := by
  rw [execGetDigests, endsFormed_next, State.respond_mem _ _ _ _ fun _ _ => State.say_mem ..]
  exact h

@[simp] theorem execGetCertificate_formed (conn off len : Nat) (s : State) (h : Memory.wf s.mem = true) :
    EndsFormed (execGetCertificate conn off len s) := by
  rw [execGetCertificate, endsFormed_next, State.respond_mem _ _ _ _ fun _ _ => State.say_mem ..]
  exact h

@[simp] theorem execChallenge_formed (conn : Nat) (nonce : BitVec 256) (cid : Nat) (s : State) (h : Memory.wf s.mem = true) :
    EndsFormed (execChallenge conn nonce cid s) := by
  simp [execChallenge, h]
@[simp] theorem execGetMeasurements_formed (conn cid : Nat) (s : State) (h : Memory.wf s.mem = true) :
    EndsFormed (execGetMeasurements conn cid s) := by
  simp [execGetMeasurements, h]
@[simp] theorem execKeyExchange_formed (conn : Nat) (share : List Byte) (s : State) (h : Memory.wf s.mem = true) :
    EndsFormed (execKeyExchange conn share s) := by
  simp [execKeyExchange, h]
@[simp] theorem execFinish_formed (conn : Nat) (verify : List Byte) (s : State) (h : Memory.wf s.mem = true) :
    EndsFormed (execFinish conn verify s) := by
  simp [execFinish, h]
@[simp] theorem execKeyUpdateRequest_formed (conn : Nat) (s : State) (h : Memory.wf s.mem = true) :
    EndsFormed (execKeyUpdateRequest conn s) := by
  simp [execKeyUpdateRequest, h]
@[simp] theorem execEndSession_formed (conn : Nat) (s : State) (h : Memory.wf s.mem = true) : EndsFormed (execEndSession conn s) := by
  simp [execEndSession, h]

/-! ### Machine/Link -/

@[simp] theorem State.tileWriteVa_wf (cid src fuel : Nat) : ∀ (s : State) (va : DWord) (bs : List Byte) (_ : Memory.wf s.mem = true),
    Memory.wf (s.tileWriteVa cid src fuel va bs).mem = true := by
  induction fuel with
  | zero => exact fun _ _ _ h => h
  | succ fuel ih =>
    intro s va bs h
    cases bs with
    | nil => exact h
    | cons b bs =>
      unfold State.tileWriteVa
      refine ih _ _ _ ?_
      split <;> simp [h]

@[simp] theorem State.hostWaits_mem (s : State) (req : HostReq) (n : Nat) : (State.hostWaits s req n).mem = s.mem := by
  simp [State.hostWaits]
@[simp] theorem State.hostAnswer_mem (s : State) (req : HostReq) (r : Reply) : (State.hostAnswer s req r).mem = s.mem := by
  simp [State.hostAnswer]

@[simp] theorem execHostWrite_formed (req : HostReq) (bytes : List Byte) (s : State) (h : Memory.wf s.mem = true) :
    EndsFormed (execHostWrite req bytes s) := by
  unfold execHostWrite
  split
  · simp [h]
  · split <;> simp [h]

@[simp] theorem execHostRead_formed (req : HostReq) (len : Nat) (s : State) (h : Memory.wf s.mem = true) :
    EndsFormed (execHostRead req len s) := by
  unfold execHostRead
  split
  · simp [h]
  · split <;> simp [h]

@[simp] theorem State.ifaceError_mem (s : State) (port iface : Nat) : (State.ifaceError s port iface).mem = s.mem := by
  simp [State.ifaceError]

@[simp] theorem execDeviceDma_formed (port iface : Nat) (dma : Dma) (s : State) (h : Memory.wf s.mem = true) :
    EndsFormed (execDeviceDma port iface dma s) := by
  unfold execDeviceDma
  dsimp only
  split
  · simp [h]
  · split
    · split <;> simp [h]
    · split <;> simp [h]

@[simp] theorem execTdispBind_formed (port iface cid index : Nat) (ownerSession : Bool) (s : State) (h : Memory.wf s.mem = true) :
    EndsFormed (execTdispBind port iface cid index ownerSession s) := by
  unfold execTdispBind
  dsimp only
  repeat' split
  all_goals simp [h]

@[simp] theorem State.startIfaces_mem (s : State) : (State.startIfaces s).mem = s.mem := by
  simp [State.startIfaces]
@[simp] theorem State.endColls_mem (s : State) (cid : Nat) (id : BitVec 256) : (State.endColls s cid id).mem = s.mem := by
  simp [State.endColls, State.foldl_mem]
@[simp] theorem State.passEnd_mem (s : State) (cid : Nat) (id : BitVec 256) : (State.passEnd s cid id).mem = s.mem := by
  unfold State.passEnd
  split <;> simp [State.foldl_mem]
@[simp] theorem State.loseAnswers_mem (s : State) (cid r : Nat) : (State.loseAnswers s cid r).mem = s.mem := by
  simp [State.loseAnswers]
@[simp] theorem State.streamLost_mem (s : State) (cid r : Nat) : (State.streamLost s cid r).mem = s.mem := by
  unfold State.streamLost
  split <;> simp

theorem State.takePages_wf (cid n : Nat) :
    ∀ (s : State) (q : List Nat × State) (_ : Memory.wf s.mem = true) (_ : s.takePages cid n = some q),
    Memory.wf q.2.mem = true := by
  induction n with
  | zero => exact fun s q h e => Option.some.inj e ▸ h
  | succ n ih =>
    intro s q h e
    unfold State.takePages at e
    split at e
    · cases e
    · rename_i e1
      obtain ⟨r, hr, rfl⟩ := Option.map_eq_some_iff.1 e
      exact ih _ r (wf_of_snd e1 (s.takePage_wf cid .service h)) hr

theorem State.replayPages_wf {s t : State} {cid r : Nat} (h : Memory.wf s.mem = true) (e : s.replayPages cid r = some t) :
    Memory.wf t.mem = true := by
  unfold State.replayPages at e
  split at e
  · cases e
  · split at e
    · exact Option.some.inj e ▸ h
    · obtain ⟨q, hq, rfl⟩ := Option.map_eq_some_iff.1 e
      rw [State.modPeer_mem]
      exact State.takePages_wf _ _ _ _ h hq

@[simp] theorem State.streamUp_mem (s : State) (cid r : Nat) (pcid : BitVec 16) : (State.streamUp s cid r pcid).mem = s.mem := by
  unfold State.streamUp
  split <;> simp
@[simp] theorem State.keyAgain_mem (s : State) (cid r : Nat) : (State.keyAgain s cid r).mem = s.mem := by
  simp [State.keyAgain]
@[simp] theorem State.keyLost_mem (s : State) (cid r : Nat) (p : Peer) : (State.keyLost s cid r p).mem = s.mem := by
  simp [State.keyLost]

@[simp] theorem execKeyingComplete_formed (cid roster : Nat) (peer : PeerId) (s : State) (h : Memory.wf s.mem = true) :
    EndsFormed (execKeyingComplete cid roster peer s) := by
  unfold execKeyingComplete
  split
  · simp [h]
  dsimp only
  split
  · split
    · simp [h]
    split
    · simp [h]
    split <;> rename_i e
    · simp [h]
    · simp [State.replayPages_wf h e]
  · split
    · simp [h]
    split
    · simp [h]
    split <;> rename_i e
    · simp [h]
    · simp [State.replayPages_wf (by simp [h]) e]
  · simp [h]

@[simp] theorem execKeyingTimeout_formed (cid roster : Nat) (s : State) (h : Memory.wf s.mem = true) :
    EndsFormed (execKeyingTimeout cid roster s) := by
  simp [execKeyingTimeout, h]

@[simp] theorem execKeyingRetry_formed (cid roster : Nat) (s : State) (h : Memory.wf s.mem = true) :
    EndsFormed (execKeyingRetry cid roster s) := by
  unfold execKeyingRetry
  split
  · split <;> simp [h]
  · simp [h]

@[simp] theorem execPeerReset_formed (cid roster : Nat) (s : State) (h : Memory.wf s.mem = true) :
    EndsFormed (execPeerReset cid roster s) := by
  simp [execPeerReset, h]

@[simp] theorem execReadmit_formed (cid roster : Nat) (meash : BitVec 128) (ownerSession : Bool) (s : State)
    (h : Memory.wf s.mem = true) : EndsFormed (execReadmit cid roster meash ownerSession s) := by
  unfold execReadmit
  split
  · split <;> simp [h]
  · simp [h]

@[simp] theorem execKeyUpdate_formed (cid roster : Nat) (s : State) (h : Memory.wf s.mem = true) :
    EndsFormed (execKeyUpdate cid roster s) := by
  unfold execKeyUpdate
  split <;> simp [h]

@[simp] theorem State.answerFlit_mem (s : State) (port cid r : Nat) (f : Flit) (kind : Byte) (addr : DWord) (data : List Byte) :
    (State.answerFlit s port cid r f kind addr data).mem = s.mem := by
  simp [State.answerFlit]
@[simp] theorem State.answered_mem (s : State) (cid r : Nat) (tag : BitVec 16) : (State.answered s cid r tag).mem = s.mem := by
  simp [State.answered]

@[simp] theorem State.peerAtomic_wf (s : State) (port cid r : Nat) (f : Flit) (addr : DWord) (aop : BitVec 3) (ty : Ty)
    (vs : List (DWord × DWord)) (h : Memory.wf s.mem = true) : Memory.wf (State.peerAtomic s port cid r f addr aop ty vs).mem = true := by
  unfold State.peerAtomic
  dsimp only
  repeat' split
  all_goals simp [h]

@[simp] theorem State.deliver_wf (s : State) (port cid r : Nat) (f : Flit) (addr : DWord) (data : List Byte)
    (h : Memory.wf s.mem = true) : Memory.wf (State.deliver s port cid r f addr data).mem = true := by
  unfold State.deliver
  dsimp only
  repeat' split
  all_goals simp [h]

@[simp] theorem State.streamFlit_wf (s : State) (port : Nat) (f : Flit) (h : Memory.wf s.mem = true) :
    Memory.wf (State.streamFlit s port f).mem = true := by
  unfold State.streamFlit
  dsimp only
  repeat' split
  all_goals simp [h]

@[simp] theorem execFlitReceive_formed (port : Nat) (flit : Flit) (s : State) (h : Memory.wf s.mem = true) :
    EndsFormed (execFlitReceive port flit s) := by
  unfold execFlitReceive
  dsimp only
  repeat' split
  all_goals simp [h]

/-! ### Machine/Matrix -/

@[simp] theorem State.stepMembers_mem (s : State) (stove : Nat) (rv : GangRv) : (State.stepMembers s stove rv).mem = s.mem := by
  simp [State.stepMembers, State.foldl_mem]

/-- A rendezvous ends with memory in its form. -/
@[simp] def GangEnd.Formed : GangEnd → Prop
  | .step s => Memory.wf s.mem = true
  | .cause _ _ => True
  | .own s => Memory.wf s.mem = true

/-- What a gang form does at its rendezvous keeps memory in its form. -/
def RunFormed (run : Nat → GangRv → State → GangEnd) : Prop := ∀ stove rv s, Memory.wf s.mem = true → (run stove rv s).Formed

theorem State.gangRun_wf {run : Nat → GangRv → State → GangEnd} (hr : RunFormed run) (s : State) (stove : Nat) (rv : GangRv)
    (h : Memory.wf s.mem = true) : Memory.wf (s.gangRun stove rv run).mem = true := by
  unfold State.gangRun
  dsimp only
  split
  · simp [h]
  split
  · simp [h]
  have ho := hr stove rv s h
  split <;> rename_i e <;> rw [e] at ho
  · rw [State.stepMembers_mem]
    exact ho
  · simp [h]
  · exact ho

theorem gangArrive_wf {run : Nat → GangRv → State → GangEnd} (hr : RunFormed run) (s : State) (i : Issue) (x : LArgs) (f : Flue)
    (rv : GangRv)
    (me : GangArrival) (h : Memory.wf s.mem = true) : Memory.wf (gangOp.State.gangArrive s i x f rv me run).mem = true := by
  unfold gangOp.State.gangArrive
  extract_lets rv1 st others first s1 drained st1
  have h1 : Memory.wf s1.mem = true := by
    unfold s1
    split <;> simp [h]
  split
  · simp [h1]
  split
  · exact State.gangRun_wf hr _ _ _ (by simp [h1])
  · simp [h1]

theorem gangOp_formed {run : Nat → GangRv → State → GangEnd} (hr : RunFormed run) (x : LArgs) (instr : Instr) (n : Nat) (useC : Bool)
    (mask : Issue → Flue → State → Option Word) (s : State) (h : Memory.wf s.mem = true) : EndsFormed (gangOp x instr n useC mask run s) := by
  refine endsFormed_onIssue fun i f => ?_
  have hc : ∀ acting : LaneMask, Memory.wf (if acting = 0 then s else s.commit i.stove i.slot).mem = true := fun a => by
    split <;> simp [h]
  extract_lets acting me s1 latch
  have h1 : Memory.wf s1.mem = true := by simp [s1, h]
  split
  · simp [h]
  split
  · simp [h]
  extract_lets fresh same
  split
  · split
    · simp [h]
    · exact State.gangRun_wf hr _ _ _ h1
  split
  · split
    · exact h
    · exact gangArrive_wf hr _ _ _ _ _ _ (hc _)
  split
  · exact gangArrive_wf hr _ _ _ _ _ _ (hc _)
  · simp [h]

@[simp] theorem State.modMembers_mem (s : State) (stove : Nat) (rv : GangRv) (k : GangArrival → Flue → Flue) :
    (State.modMembers s stove rv k).mem = s.mem := by
  simp [State.modMembers, State.foldl_mem]
@[simp] theorem execGang_formed (x : LArgs) (s : State) (h : Memory.wf s.mem = true) : EndsFormed (execGang x s) :=
  gangOp_formed (fun stove rv s h => by simp [h]) _ _ _ _ _ _ h

theorem claimRun_formed (x : LArgs) : RunFormed (claimRun x) := by
  intro stove rv s h
  unfold claimRun
  dsimp only
  split
  · trivial
  · split <;> simp [h]

theorem releaseRun_formed : RunFormed releaseRun := by
  intro stove rv s h
  unfold releaseRun
  dsimp only
  split
  · trivial
  · split <;> simp [h]

@[simp] theorem execOsclaim_formed (x : LArgs) (s : State) (h : Memory.wf s.mem = true) : EndsFormed (execOsclaim x s) :=
  gangOp_formed (claimRun_formed x) _ _ _ _ _ _ h
@[simp] theorem execOsrel_formed (x : LArgs) (s : State) (h : Memory.wf s.mem = true) : EndsFormed (execOsrel x s) :=
  gangOp_formed releaseRun_formed _ _ _ _ _ _ h

@[simp] theorem State.accldUnit_mem (s : State) (stove : Nat) (f : Flue) (op : EngineOp) :
    (State.accldUnit s stove f op).2.mem = s.mem := by
  unfold State.accldUnit
  dsimp only
  split <;> simp

@[simp] theorem State.addMx_wf (s : State) (stove : Nat) (rv : GangRv) (op : EngineOp) (h : Memory.wf s.mem = true) :
    Memory.wf (State.addMx s stove rv op).mem = true := by
  simp [State.addMx, h]

theorem mmaRun_formed (x : LArgs) : RunFormed (mmaRun x) := by
  intro stove rv s h
  unfold mmaRun
  dsimp only
  split
  · trivial
  · split <;> simp [h]

theorem mmasRun_formed (x : LArgs) : RunFormed (mmasRun x) := by
  intro stove rv s h
  unfold mmasRun
  dsimp only
  split
  · trivial
  · split <;> simp [h]

theorem mmabRun_formed (x : LArgs) : RunFormed (mmabRun x) := by
  intro stove rv s h
  unfold mmabRun
  dsimp only
  split
  · trivial
  · split <;> simp [h]

theorem acczRun_formed (x : LArgs) : RunFormed (acczRun x) := by
  intro stove rv s h
  unfold acczRun
  dsimp only
  split <;> simp [h]

theorem mmaHRun_formed (x : LArgs) : RunFormed (mmaHRun x) := by
  intro stove rv s h
  unfold mmaHRun
  dsimp only
  split
  · trivial
  · split
    · trivial
    · simp [h]

theorem accldRun_formed (x : LArgs) : RunFormed (accldRun x) := by
  intro stove rv s h
  unfold accldRun
  dsimp only
  split
  · trivial
  split
  · trivial
  · split <;> simp [h]

theorem accstRun_formed (x : LArgs) : RunFormed (accstRun x) := by
  intro stove rv s h
  unfold accstRun
  dsimp only
  split
  · trivial
  split
  · trivial
  · split <;> simp [h]

@[simp] theorem execMma_formed (x : LArgs) (s : State) (h : Memory.wf s.mem = true) : EndsFormed (execMma x s) :=
  gangOp_formed (mmaRun_formed x) _ _ _ _ _ _ h
@[simp] theorem execMmas_formed (x : LArgs) (s : State) (h : Memory.wf s.mem = true) : EndsFormed (execMmas x s) :=
  gangOp_formed (mmasRun_formed x) _ _ _ _ _ _ h
@[simp] theorem execMmab_formed (x : LArgs) (s : State) (h : Memory.wf s.mem = true) : EndsFormed (execMmab x s) :=
  gangOp_formed (mmabRun_formed x) _ _ _ _ _ _ h
@[simp] theorem execAccz_formed (x : LArgs) (s : State) (h : Memory.wf s.mem = true) : EndsFormed (execAccz x s) :=
  gangOp_formed (acczRun_formed x) _ _ _ _ _ _ h
@[simp] theorem execMmaH_formed (x : LArgs) (s : State) (h : Memory.wf s.mem = true) : EndsFormed (execMmaH x s) :=
  gangOp_formed (mmaHRun_formed x) _ _ _ _ _ _ h
@[simp] theorem execAccld_formed (x : LArgs) (s : State) (h : Memory.wf s.mem = true) : EndsFormed (execAccld x s) :=
  gangOp_formed (accldRun_formed x) _ _ _ _ _ _ h
@[simp] theorem execAccst_formed (x : LArgs) (s : State) (h : Memory.wf s.mem = true) : EndsFormed (execAccst x s) :=
  gangOp_formed (accstRun_formed x) _ _ _ _ _ _ h

@[simp] theorem accmvOp_formed (x : LArgs) (op : Issue → LaneMask → Nat → Nat → EngineOp) (s : State) (h : Memory.wf s.mem = true) :
    EndsFormed (accmvOp x op s) := by
  refine endsFormed_onIssue fun i f => ?_
  dsimp only
  repeat' split
  all_goals simp [h]

@[simp] theorem execAccmvRd_formed (x : LArgs) (s : State) (h : Memory.wf s.mem = true) : EndsFormed (execAccmvRd x s) := by
  simp [execAccmvRd, h]
@[simp] theorem execAccmvWr_formed (x : LArgs) (s : State) (h : Memory.wf s.mem = true) : EndsFormed (execAccmvWr x s) := by
  simp [execAccmvWr, h]

@[simp] theorem State.unitOf_mem (s : State) (stove : Nat) (f : Flue) (op : EngineOp) (peers : List (Nat × List Byte)) :
    (State.unitOf s stove f op peers).2.mem = s.mem := by
  unfold State.unitOf
  split <;> simp

@[simp] theorem State.noteUnit_mem (s : State) (stove gid uid addr : Nat) (gen : Word) :
    (State.noteUnit s stove gid uid addr gen).mem = s.mem := by
  simp [State.noteUnit]

@[simp] theorem State.applyUnit_wf (s : State) (stove : Nat) (f : Flue) (op : EngineOp) (seen : Stove) (out : UnitOut)
    (places : List (Loc × List Byte)) (h : Memory.wf s.mem = true) :
    Memory.wf (State.applyUnit s stove f op seen out places).mem = true := by
  have h1 := foldl_wf (fun s p => s.engStore stove f p) (fun s p hs => State.engStore_wf s stove f p hs) places s h
  unfold State.applyUnit
  dsimp only
  rw [State.modOp_mem, State.modOpFlues_mem]
  split
  · split <;> simpa using h1
  · split <;> simpa using h1

@[simp] theorem State.seenBy_mem (s : State) (stove : Nat) (f : Flue) (op : EngineOp) : (State.seenBy s stove f op).mem = s.mem := by
  simp [State.seenBy, State.foldl_mem]
@[simp] theorem State.unseen_mem (r s : State) (stove : Nat) (op : EngineOp) : (State.unseen r s stove op).mem = r.mem := by
  refine State.foldl_mem _ (fun r p => ?_) _ r
  simp

@[simp] theorem State.runUnit_wf (s : State) (stove : Nat) (f : Flue) (op : EngineOp) (peers : List (Nat × List Byte))
    (h : Memory.wf s.mem = true) : Memory.wf (State.runUnit s stove f op peers).mem = true := by
  unfold State.runUnit
  extract_lets v q r ends ask
  have hr : Memory.wf r.mem = true := by simp [r, q, v, h]
  have ha : ∀ t va, (ask t va).mem = t.mem := by
    intro t va
    cases va <;> simp [ask]
  split
  · rw [ha]
    exact hr
  · simp [ends, hr]
  · dsimp only
    split
    · simp [ha, hr]
    · simp [ends, hr]
    · split
      · simp [ends, hr]
      · simp [hr]

@[simp] theorem State.endIfDone_mem (s : State) (stove cls uid : Nat) : (State.endIfDone s stove cls uid).mem = s.mem := by
  unfold State.endIfDone
  split <;> simp

@[simp] theorem execEngineUnitComplete_formed (r : FlueRef) (cls : EngClass) (peers : List (Nat × List Byte)) (s : State)
    (h : Memory.wf s.mem = true) : EndsFormed (execEngineUnitComplete r cls peers s) := by
  unfold execEngineUnitComplete
  split
  · simp [h]
  split
  · simp [h]
  split
  · simp [h]
  dsimp only
  split
  · simp [h]
  · rw [endsFormed_next, State.foldl_mem _ fun s p => State.endIfDone_mem ..]
    refine foldl_wf _ (fun s p hs => ?_) _ s h
    split
    · split <;> simp [hs]
    · exact hs

@[simp] theorem execEngineOperationComplete_formed (r : FlueRef) (cls : EngClass) (ext : EngStatus) (s : State)
    (h : Memory.wf s.mem = true) : EndsFormed (execEngineOperationComplete r cls ext s) := by
  unfold execEngineOperationComplete
  dsimp only
  repeat' split
  all_goals simp [h]

/-! ### Machine/Partition -/

@[simp] theorem execFormPartition_formed (part : Nat) (spec : PartSpec) (s : State) (h : Memory.wf s.mem = true) :
    EndsFormed (execFormPartition part spec s) := by
  unfold execFormPartition
  dsimp only
  repeat' split
  all_goals simp [h]

@[simp] theorem execPartitionTestComplete_formed (part : Nat) (failed : Bool) (s : State) (h : Memory.wf s.mem = true) :
    EndsFormed (execPartitionTestComplete part failed s) := by
  unfold execPartitionTestComplete
  split
  · repeat' split
    all_goals simp [h]
  · simp [h]

@[simp] theorem execDrainPartition_formed (part : Nat) (s : State) (h : Memory.wf s.mem = true) :
    EndsFormed (execDrainPartition part s) := by
  unfold execDrainPartition
  split
  · split <;> simp [h]
  · simp [h]

@[simp] theorem State.scrubPart_wf (s : State) (part : Nat) (p : Partition) (h : Memory.wf s.mem = true) :
    Memory.wf (State.scrubPart s part p).mem = true := by
  simp [State.scrubPart, h]

@[simp] theorem execDrainComplete_formed (part : Nat) (s : State) (h : Memory.wf s.mem = true) :
    EndsFormed (execDrainComplete part s) := by
  unfold execDrainComplete
  dsimp only
  repeat' split
  all_goals simp [h]

@[simp] theorem execResetComplete_formed (part : Nat) (failed : Bool) (s : State) (h : Memory.wf s.mem = true) :
    EndsFormed (execResetComplete part failed s) := by
  unfold execResetComplete
  dsimp only
  repeat' split
  all_goals simp [State.foldl_mem, h]

@[simp] theorem execSetclk_formed (part hearth mhz : Nat) (s : State) (h : Memory.wf s.mem = true) :
    EndsFormed (execSetclk part hearth mhz s) := by
  unfold execSetclk
  dsimp only
  repeat' split
  all_goals simp [h]

@[simp] theorem execHearthVoltageSettled_formed (hearth : Nat) (s : State) (h : Memory.wf s.mem = true) :
    EndsFormed (execHearthVoltageSettled hearth s) := by
  unfold execHearthVoltageSettled
  dsimp only
  repeat' split
  all_goals simp [h]

@[simp] theorem execPowerExcessPredicted_formed (s : State) (h : Memory.wf s.mem = true) : EndsFormed (execPowerExcessPredicted s) := by
  unfold execPowerExcessPredicted
  split <;> simp [h]
@[simp] theorem execPowerRecoveryStep_formed (s : State) (h : Memory.wf s.mem = true) : EndsFormed (execPowerRecoveryStep s) := by
  unfold execPowerRecoveryStep
  split <;> simp [h]
@[simp] theorem State.modDie_mem (s : State) (die : Nat) (k : Hearth → Hearth) : (State.modDie s die k).mem = s.mem :=
  State.foldl_mem _ (fun s j => by simp) _ s
@[simp] theorem execJunctionOvertemp_formed (die : Nat) (s : State) (h : Memory.wf s.mem = true) :
    EndsFormed (execJunctionOvertemp die s) := by
  simp [execJunctionOvertemp, h]

@[simp] theorem execThermalReturnStep_formed (die : Nat) (s : State) (h : Memory.wf s.mem = true) :
    EndsFormed (execThermalReturnStep die s) := by
  unfold execThermalReturnStep
  dsimp only
  repeat' split
  all_goals simp [h]

/-! ### Machine/Start -/

@[simp] theorem State.restart_wf (s : State) : Memory.wf (State.restart s).mem = true := Memory.wf_nil
@[simp] theorem execThermalTrip_formed (s : State) : EndsFormed (execThermalTrip s) := by
  simp [execThermalTrip]
@[simp] theorem execPackageReset_formed (s : State) : EndsFormed (execPackageReset s) := by
  simp [execPackageReset]
@[simp] theorem execLockstepMismatch_formed (s : State) : EndsFormed (execLockstepMismatch s) := by
  simp [execLockstepMismatch]
@[simp] theorem State.halt_mem (s : State) : (State.halt s).mem = s.mem := by
  simp [State.halt]
@[simp] theorem State.distrust_mem (s : State) : (State.distrust s).mem = s.mem := by
  simp [State.distrust]

@[simp] theorem State.stageEnd_mem (s : State) (rep : StageReport) (overrun : Bool) : (State.stageEnd s rep overrun).mem = s.mem := by
  unfold State.stageEnd
  dsimp only
  repeat' split
  all_goals simp

@[simp] theorem execStageComplete_formed (rep : StageReport) (s : State) (h : Memory.wf s.mem = true) :
    EndsFormed (execStageComplete rep s) := by
  simp [execStageComplete, h]

@[simp] theorem execStageTimeout_formed (rep : StageReport) (s : State) (h : Memory.wf s.mem = true) :
    EndsFormed (execStageTimeout rep s) := by
  unfold execStageTimeout
  split <;> simp [h]

theorem State.undo_wf (s : State) (e : RingEntry) (h : Memory.wf s.mem = true) : Memory.wf (State.undo s e).mem = true := by
  have hm : ∀ (l : List (Nat × Byte)) (m : Memory), Memory.wf m = true →
      Memory.wf (l.foldl (fun m b => Memory.write m b.1 [b.2]) m) = true := by
    intro l
    induction l with
    | nil => exact fun m h => h
    | cons b l ih => exact fun m h => ih _ (Memory.wf_write [b.2] m b.1 h)
  unfold State.undo
  dsimp only
  split
  · exact h
  · exact State.shootdown_wf _ _ _ _ _ (hm _ _ h)

@[simp] theorem State.recoverNow_wf (s : State) (h : Memory.wf s.mem = true) : Memory.wf (State.recoverNow s).mem = true :=
  foldl_wf State.undo State.undo_wf _ s h
@[simp] theorem State.recovered_mem (s : State) : (State.recovered s).mem = s.mem := by
  simp [State.recovered]
@[simp] theorem execHeartbeatTimeout_formed (s : State) (h : Memory.wf s.mem = true) : EndsFormed (execHeartbeatTimeout s) := by
  unfold execHeartbeatTimeout
  split <;> simp [h]
@[simp] theorem execServiceMachineCheck_formed (s : State) (h : Memory.wf s.mem = true) : EndsFormed (execServiceMachineCheck s) := by
  simp [execServiceMachineCheck, h]
@[simp] theorem execRecover_formed (s : State) (h : Memory.wf s.mem = true) : EndsFormed (execRecover s) := by
  unfold execRecover
  split <;> simp [h]
@[simp] theorem execRecoveryTimeout_formed (s : State) (h : Memory.wf s.mem = true) : EndsFormed (execRecoveryTimeout s) := by
  unfold execRecoveryTimeout
  split <;> simp [h]

@[simp] theorem execFirmwareLoad_formed (fw : FwImage) (s : State) (h : Memory.wf s.mem = true) : EndsFormed (execFirmwareLoad fw s) := by
  unfold execFirmwareLoad
  dsimp only
  repeat' split
  all_goals simp [h]

@[simp] theorem execTestmode_formed (sig : List Byte) (s : State) (h : Memory.wf s.mem = true) : EndsFormed (execTestmode sig s) := by
  unfold execTestmode
  split
  · simp [h]
  · split <;> simp [h]

/-! ### Machine/Turn -/

theorem andThen_formed {r : Res} {k : State → Res} (hr : EndsFormed r) (hk : ∀ s, Memory.wf s.mem = true → EndsFormed (k s)) :
    EndsFormed (andThen r k) := by
  cases r with
  | next s => exact hk s (hr s rfl)
  | fault e => exact endsFormed_fault e
  | refused e => exact endsFormed_refused e

@[simp] theorem openAll_formed (stove slot : Nat) (gs : List (DWord × LaneMask)) :
    ∀ (s : State) (_ : Memory.wf s.mem = true), EndsFormed (openAll stove slot gs s) := by
  induction gs with
  | nil => exact fun s h => (endsFormed_next s).2 h
  | cons g gs ih =>
    intro s h
    unfold openAll
    split
    · simp [h]
    · split
      · exact ih s h
      · exact andThen_formed (by simp [h]) ih

/-! ### Machine/Dispatch -/

/-- The forms that change only a flue's registers leave the memory as it is; each other form and event has its own lemma. -/
theorem exec_formed (i : Instr) (s : State) (h : Memory.wf s.mem = true) : EndsFormed (exec i s) := by
  cases i
  case iadd | iaddI32Short | isub | isubI32Short | imul | imulI32Short | imulh | imad | imadw | ineg | iabs | imin | iminI32Short | imax |
      imaxI32Short | andBits | andShort | orBits | orShort | xorBits | xorShort | andn | andnShort | notBits | shl | shlShort | shr |
      shrShort | sar | sarShort | rotl | bfx | bfi | popc | clz | brev | lea | leaShort | mov | movShort | sel | icmp | fadd |
      faddF32Short | faddF16x2Short | faddBf16x2Short | fsub | fsubF32Short | fmul | fmulF32Short | fmulF16x2Short | fmulBf16x2Short |
      ffma | fmin | fminF32Short | fmax | fmaxF32Short | fcmp | fclass | frnd | fcvt | icvtf | fcvti | fdot2 | fscale | cvtn | cvtw |
      bscale | pack | packI4x | unpack | resrd | reswr | rcp | rsq | sqrt | fdiv | exp2 | log2 | sin | cos | tanh | plop | pmovGet |
      pmovSet | pcnt | pmask | mpred | peek | vote | voteBal | matchLanes | redux | scan | conv | bra | bru | jmpi | nop | wrsr |
      wrsrYdl =>
    exact endsFormed_onFlue h _
  all_goals simp [exec, h]

/-! ### Machine/Turn -/

@[simp] theorem issueOne_formed (ins : Instr) (i : Issue) (s : State) (h : Memory.wf s.mem = true) : EndsFormed (issueOne ins i s) :=
  andThen_formed (exec_formed _ _ (by simpa using h)) fun t ht => (endsFormed_next _).2 ht
@[simp] theorem State.afterIssue_mem (s : State) (stove slot : Nat) (f : Flue) (ready issued : List (DWord × LaneMask)) :
    (State.afterIssue s stove slot f ready issued).mem = s.mem := by
  simp [State.afterIssue]
@[simp] theorem State.trickle_mem (s : State) (stove slot : Nat) : (State.trickle s stove slot).mem = s.mem := by
  unfold State.trickle
  split <;> simp

@[simp] theorem State.trickleAcc_mem (s : State) (stove slot : Nat) : (State.trickleAcc s stove slot).mem = s.mem := by
  unfold State.trickleAcc
  dsimp only
  repeat' split
  all_goals simp

/-- A round of issues ends with memory in its form. -/
theorem runAll_wf (stove slot : Nat) (view : Flue) (gs : List (DWord × LaneMask)) :
    ∀ (r q : Round), Memory.wf r.state.mem = true → runAll stove slot view gs r = .next q → Memory.wf q.state.mem = true := by
  induction gs with
  | nil => exact fun r q h e => by cases e; exact h
  | cons g gs ih =>
    intro r q h e
    unfold runAll at e
    split at e
    · exact ih r q h e
    · split at e
      · rename_i t e1
        exact ih _ q (issueOne_formed _ _ _ h t e1) e
      · cases e
      · cases e

@[simp] theorem issueTurn_formed (stove burner : Nat) (s : State) (h : Memory.wf s.mem = true) :
    EndsFormed (issueTurn stove burner s) := by
  have h0 : ∀ s0 : State, Memory.wf s0.mem = true → ∀ l : List (Nat × Flue),
      Memory.wf (l.foldl (fun (s : State) p => if p.2.pageWait.isSome || p.2.ringWait then s.waitOut stove p.1 else s) s0).mem = true :=
    fun s0 h l => foldl_wf _ (fun s p hs => by split <;> simp [hs]) l s0 h
  unfold issueTurn
  dsimp only
  split
  · rw [endsFormed_next, State.foldl_mem _ fun s p => State.modFlue_mem ..]
    exact h0 s h _
  · refine andThen_formed (openAll_formed _ _ _ _ ?_) fun s2 h2 => ?_
    · rw [State.count_mem, State.trickleAcc_mem, State.trickle_mem, State.foldl_mem _ fun s p => State.modFlue_mem ..]
      exact h0 s h _
    · split
      · simp [h2]
      · split
        · rename_i e
          simp [runAll_wf _ _ _ _ _ _ h2 e]
        · simp
        · simp

@[simp] theorem hearthCycle_mem (h : Nat) (s : State) : (hearthCycle h s).mem = s.mem := by
  simp [hearthCycle]
@[simp] theorem controlCycle_wf (s : State) (h : Memory.wf s.mem = true) : Memory.wf (controlCycle s).mem = true := by
  simp [controlCycle, h]
@[simp] theorem cycleTurn_wf (island : Nat) (s : State) (h : Memory.wf s.mem = true) : Memory.wf (cycleTurn island s).mem = true := by
  simp [cycleTurn, h]

@[simp] theorem State.hartWord_mem (s : State) (h : Nat) : (State.hartWord s h).2.mem = s.mem := by
  unfold State.hartWord
  dsimp only
  repeat' split
  all_goals simp

@[simp] theorem hartTurn_formed (n : Nat) (s : State) (h : Memory.wf s.mem = true) : EndsFormed (hartTurn n s) := by
  unfold hartTurn
  dsimp only
  split
  · simp [h]
  · simp [h]
  · split
    · simp [h]
    split
    · simp
    split
    · simp [h]
    · exact andThen_formed (exec_formed _ _ (by simpa using h)) fun t ht => (endsFormed_next _).2 ht

@[simp] theorem State.nextTurn_mem (s : State) : (State.nextTurn s).2.mem = s.mem := by
  unfold State.nextTurn
  split <;> simp

@[simp] theorem runTurn_formed (t : Turn) (s : State) (h : Memory.wf s.mem = true) : EndsFormed (runTurn t s) := by
  cases t with
  | issue stove burner => exact issueTurn_formed stove burner s h
  | cycle island => simp [runTurn, h]
  | hart n =>
    unfold runTurn
    dsimp only
    split <;> simp [h]
  | event i => exact exec_formed i s h

/-- Settles O59. A step is one turn, and every turn ends with memory in its form: what a turn calls either leaves `mem` alone or writes it by
`Memory.write`, `Memory.setByte` and `Memory.clear`, which keep the form. -/
theorem stepKeepsMemoryForm : Obligations.StepKeepsMemoryForm := by
  intro s t h e
  exact runTurn_formed _ _ (by rw [State.nextTurn_mem]; exact h) t e

end Sys2Proof.Machine
end

section
/-! PROOF of O40: the life cycle of a context (14 R325, R333 to R337).

Each clause of the statement is a lemma here. A refusal retires the instruction and leaves contexts and memory alone (`Refused`). What an
instruction that succeeds calls is followed for what the statement speaks of: destruction leaves the harts and the threads
(`KeepsHarts`), and up to the pages that it frees that of an idle context leaves page records and memory (`KeepsPages`). -/

namespace Sys2Proof.Machine
open Sys2Proof.Claims

/-! ### Enclave instructions -/

theorem onHostHart_eq {s : State} {h : Nat} (hc : s.core = some h) (hm : (s.hart h).mode = .m ∨ (s.hart h).mode = .hs)
    (k : Nat → Hart → State) :
    onHostHart s k = .next (k h (s.hart h)) := by
  unfold onHostHart onHart
  rw [hc]
  simp [hm]

/-- An instruction retires with its value when nothing before has moved the hart on or written its registers. -/
theorem retires_retireHart {s u : State} {h : Nat} (hpc : (u.hart h).pc = (s.hart h).pc) (hx : (u.hart h).x = (s.hart h).x) (rd : BitVec 5)
    (v : DWord) : Retires s (u.retireHart h rd v) h rd v := by
  unfold Retires State.retireHart Hart.setReg
  dsimp only
  rw [State.hart_setHart, if_pos rfl]
  split
  · simp_all
  · refine ⟨by simp [hpc], fun _ => by simp, fun n hn => ?_⟩
    simp [SMap.get_set_other _ _ hn, hx]

/-- An enclave instruction is refused with a status of R334, and no context and no byte of memory changes. -/
def Refused (s : State) (h : Nat) (rd : BitVec 5) (ins : Instr) (n : Nat) : Prop :=
  ∃ t, exec ins s = .next t ∧ Retires s t h rd (0 - BitVec.ofNat 64 n) ∧ t.ctxs = s.ctxs ∧ t.mem = s.mem

theorem refused_of_exec {s : State} {h : Nat} {rd : BitVec 5} {ins : Instr} {n : Nat}
    (e : exec ins s = .next (s.retireHart h rd (encStatus n))) : Refused s h rd ins n :=
  ⟨_, e, retires_retireHart rfl rfl rd _, rfl, rfl⟩

/-! ### ENCIN -/

/-- A hart as ENCIN leaves it: it runs a thread, and keeps the registers of its own (14 R333). -/
def Hart.enter (me : Hart) (th : Thread) (cid n : Nat) (rd : BitVec 5) : Hart :=
  { me with x := th.x, f := th.f, pc := th.pc, mode := th.mode, vsatp := th.atp, inside := some (cid, n),
            hostX := me.x, hostF := me.f, hostPc := me.pc + 4, hostMode := me.mode, hostVsatp := me.vsatp, exitRd := rd, resv := none }

section
variable {x : RArgs} {s : State} {h : Nat} (hc : s.core = some h) (hm : (s.hart h).mode = .m ∨ (s.hart h).mode = .hs)
include hc hm

theorem encin_noContext (hn : s.ctx? ((s.hart h).reg x.rs1).toNat = none) : Refused s h x.rd (.encin x) 2 := by
  refine refused_of_exec ?_
  show execEncin x s = _
  simp [execEncin, onHostHart_eq hc hm, hn]

theorem encin_notEligible {c : Context} (hn : s.ctx? ((s.hart h).reg x.rs1).toNat = some c) (he : c.eligible = false) :
    Refused s h x.rd (.encin x) 1 := by
  refine refused_of_exec ?_
  show execEncin x s = _
  simp [execEncin, onHostHart_eq hc hm, hn, he]

theorem encin_acting {c : Context} (hn : s.ctx? ((s.hart h).reg x.rs1).toNat = some c) (ha : c.acting = true) :
    exec (.encin x) s = .next s := by
  have he : c.eligible = true := by simp_all [Context.acting]
  show execEncin x s = _
  simp [execEncin, onHostHart_eq hc hm, hn, he, ha]

theorem encin_noThread {c : Context} (hn : s.ctx? ((s.hart h).reg x.rs1).toNat = some c) (he : c.eligible = true) (ha : c.acting = false)
    (ht : Tab.get? c.threads ((s.hart h).reg x.rs2).toNat = none) : Refused s h x.rd (.encin x) 3 := by
  refine refused_of_exec ?_
  show execEncin x s = _
  simp [execEncin, onHostHart_eq hc hm, hn, he, ha, ht]

theorem encin_inUse {c : Context} {th : Thread} (hn : s.ctx? ((s.hart h).reg x.rs1).toNat = some c) (he : c.eligible = true)
    (ha : c.acting = false) (ht : Tab.get? c.threads ((s.hart h).reg x.rs2).toNat = some th) (hu : th.hart ≠ none) :
    Refused s h x.rd (.encin x) 8 := by
  refine refused_of_exec ?_
  show execEncin x s = _
  simp [execEncin, onHostHart_eq hc hm, hn, he, ha, ht, Option.isSome_iff_ne_none, hu]

theorem encin_badImage {c : Context} {th : Thread} (hn : s.ctx? ((s.hart h).reg x.rs1).toNat = some c) (he : c.eligible = true)
    (ha : c.acting = false) (ht : Tab.get? c.threads ((s.hart h).reg x.rs2).toNat = some th) (hu : th.hart = none)
    (hb : s.badLines (c.threadLines ((s.hart h).reg x.rs2).toNat) = true) : Refused s h x.rd (.encin x) 7 := by
  refine refused_of_exec ?_
  show execEncin x s = _
  simp [execEncin, onHostHart_eq hc hm, hn, he, ha, ht, hu, hb]

/-- ENCIN puts the thread on the hart. -/
theorem encin_enters {c : Context} {th : Thread} (hn : s.ctx? ((s.hart h).reg x.rs1).toNat = some c) (he : c.eligible = true)
    (ha : c.acting = false) (ht : Tab.get? c.threads ((s.hart h).reg x.rs2).toNat = some th) (hu : th.hart = none)
    (hb : s.badLines (c.threadLines ((s.hart h).reg x.rs2).toNat) = false) :
    exec (.encin x) s = .next ((s.setHart h ((s.hart h).enter th ((s.hart h).reg x.rs1).toNat ((s.hart h).reg x.rs2).toNat x.rd)).setCtx
      ((s.hart h).reg x.rs1).toNat { c with
        state := .running, threads := Tab.put c.threads ((s.hart h).reg x.rs2).toNat { th with hart := some h } }) := by
  show execEncin x s = _
  simp [execEncin, onHostHart_eq hc hm, hn, he, ha, ht, hu, hb, Hart.enter]

end

/-! ### Threads that leave -/

@[simp] theorem State.freshLines_hart (s : State) (ls : Nat × Nat) (n : Nat) : (s.freshLines ls).hart n = s.hart n := rfl
@[simp] theorem State.freshLines_ctx? (s : State) (ls : Nat × Nat) (n : Nat) : (s.freshLines ls).ctx? n = s.ctx? n := rfl

@[simp] theorem State.modCtx_hart (s : State) (c n : Nat) (k : Context → Context) : (s.modCtx c k).hart n = s.hart n := by
  unfold State.modCtx
  split <;> rfl

@[simp] theorem State.setHart_ctx? (s : State) (h n : Nat) (x : Hart) : (s.setHart h x).ctx? n = s.ctx? n := rfl

/-- A thread that leaves gives the hart its own registers back, and the context keeps it with where it resumes. -/
theorem threadLeaves_leaveThread {s : State} {h cid n : Nat} {c : Context} (hi : (s.hart h).inside = some (cid, n))
    (hc : s.ctx? cid = some c) (rec resume : DWord) : ThreadLeaves s (s.leaveThread h rec resume) h cid n rec resume := by
  refine ⟨?_, State.leaveThread_mem .., ?_⟩
  · simp [State.leaveThread, hi, hc, State.hart_setHart]
  · refine ⟨{ c with threads := Tab.put c.threads n _ }, ?_, Tab.get?_put_same ..⟩
    simp [State.leaveThread, hi, hc, State.ctx?_modCtx]

theorem leaveThread_outside {s : State} {h : Nat} (hi : (s.hart h).inside = none) (rec resume : DWord) :
    s.leaveThread h rec resume = s := by
  simp [State.leaveThread, hi]

theorem encout_leaves {x : RArgs} {s : State} {h cid n : Nat} {c : Context} (hcore : s.core = some h)
    (hi : (s.hart h).inside = some (cid, n)) (hc : s.ctx? cid = some c) (hm : (s.hart h).mode = .vs ∨ (s.hart h).mode = .vu) :
    ∃ t, exec (.encout x) s = .next t ∧ ThreadLeaves s t h cid n ((s.hart h).reg x.rs1 <<< 8) ((s.hart h).pc + 4) := by
  refine ⟨_, ?_, threadLeaves_leaveThread hi hc _ _⟩
  show execEncout x s = _
  simp [execEncout, onHart, hcore, hm, hi]

/-! ### What leaves the harts and the threads -/

/-- From one state to another no hart moves on or has a register written, and every context stays, with its threads. -/
structure KeepsHarts (s t : State) : Prop where
  pc : ∀ n, (t.hart n).pc = (s.hart n).pc
  regs : ∀ n, (t.hart n).x = (s.hart n).x
  threads : ∀ c, (t.ctx? c).map (·.threads) = (s.ctx? c).map (·.threads)

theorem KeepsHarts.refl (s : State) : KeepsHarts s s := ⟨fun _ => rfl, fun _ => rfl, fun _ => rfl⟩

theorem KeepsHarts.trans {s t u : State} (a : KeepsHarts s t) (b : KeepsHarts t u) : KeepsHarts s u :=
  ⟨fun n => (b.pc n).trans (a.pc n), fun n => (b.regs n).trans (a.regs n), fun c => (b.threads c).trans (a.threads c)⟩

theorem KeepsHarts.of_eq {s t : State} (hh : t.harts = s.harts) (hc : t.ctxs = s.ctxs) : KeepsHarts s t := by
  refine ⟨fun n => ?_, fun n => ?_, fun c => ?_⟩ <;> simp only [State.hart, State.ctx?, hh, hc]

/-- A record update that leaves harts and contexts as they are. -/
theorem KeepsHarts.with {s t u : State} (a : KeepsHarts s t) (hh : u.harts = t.harts) (hc : u.ctxs = t.ctxs) : KeepsHarts s u :=
  a.trans (.of_eq hh hc)

theorem KeepsHarts.foldl {α : Type} {k : State → α → State} (h : ∀ s a, KeepsHarts s (k s a)) (l : List α) (s : State) :
    KeepsHarts s (l.foldl k s) := by
  induction l generalizing s with
  | nil => exact .refl s
  | cons a l ih => exact (h s a).trans (ih _)

theorem KeepsHarts.foldl_fst {α β : Type} {k : State × β → α → State × β} (h : ∀ p a, KeepsHarts p.1 (k p a).1)
    (l : List α) (p : State × β) : KeepsHarts p.1 (l.foldl k p).1 := by
  induction l generalizing p with
  | nil => exact .refl p.1
  | cons a l ih => exact (h p a).trans (ih _)

theorem KeepsHarts.ite {s t u : State} {c : Prop} [Decidable c] (a : KeepsHarts s t) (b : KeepsHarts s u) :
    KeepsHarts s (if c then t else u) := by
  split
  · exact a
  · exact b

/-- A change of a context's other fields. -/
theorem State.modCtx_keeps (s : State) (c : Nat) {k : Context → Context} (hk : ∀ x, (k x).threads = x.threads) :
    KeepsHarts s (s.modCtx c k) := by
  refine ⟨fun n => by simp, fun n => by simp, fun j => ?_⟩
  rw [State.ctx?_modCtx]
  split
  · subst j
    cases s.ctx? c <;> simp [hk]
  · rfl

theorem State.modPeer_keeps (s : State) (c r : Nat) (k : Peer → Peer) : KeepsHarts s (s.modPeer c r k) := s.modCtx_keeps c fun _ => rfl

theorem Counted.keeps {s t : State} (h : Counted s t) : KeepsHarts s t := by
  obtain ⟨_, _, rfl⟩ := h
  exact .of_eq rfl rfl

theorem State.count_keeps (s : State) (c code : Nat) : KeepsHarts s (s.count c code) := (State.countN_counted ..).keeps

theorem State.setKernel_keeps (s : State) (p k : Nat) (x : Kernel) : KeepsHarts s (s.setKernel p k x) := by
  unfold State.setKernel
  split
  · exact .of_eq rfl rfl
  · exact .refl s

/-! #### Writes to memory: only reservations fall -/

theorem State.breakResv_hart (s : State) (line n : Nat) :
    (s.breakResv line).hart n = if (s.hart n).resv = some line then { s.hart n with resv := none } else s.hart n := by
  unfold State.hart State.breakResv Tab.getD
  have e := Tab.get?_mapVals (fun x : Hart => if x.resv = some line then { x with resv := none } else x) s.harts n
  dsimp only
  rw [e]
  cases Tab.get? s.harts n <;> rfl

theorem State.breakResv_keeps (s : State) (line : Nat) : KeepsHarts s (s.breakResv line) := by
  refine ⟨fun n => ?_, fun n => ?_, fun _ => rfl⟩ <;> rw [State.breakResv_hart] <;> split <;> rfl

theorem State.breakRange_keeps (s : State) (pa n : Nat) : KeepsHarts s (s.breakRange pa n) := .foldl (fun s _ => s.breakResv_keeps _) _ s

theorem State.writeBack_keeps (s : State) (line : Nat) (l : LlcLine) : KeepsHarts s (s.writeBack line l) := by
  unfold State.writeBack
  dsimp only
  split
  · refine .trans ?_ (State.countN_counted ..).keeps
    exact .of_eq rfl rfl
  · exact .refl s

theorem State.llcDrop_keeps (s : State) (which : Nat → LlcLine → Bool) : KeepsHarts s (s.llcDrop which) :=
  (KeepsHarts.foldl (fun (s : State) (x : Nat × LlcLine) => s.writeBack_keeps x.1 x.2) (s.llc.filter fun x => which x.1 x.2) s).with rfl rfl

theorem State.llcFill_keeps (s : State) (cid line src : Nat) : KeepsHarts s (s.llcFill cid line src) := by
  have h1 : KeepsHarts s ((s.count cid 4).countN cid 5 (s.lineBursts line)) := (s.count_keeps cid 4).trans (State.countN_counted ..).keeps
  unfold State.llcFill
  extract_lets ways mates s1 w s2
  have h2 : KeepsHarts s s2 := h1.trans (State.llcDrop_keeps _ _)
  split
  · exact h1.with rfl rfl
  · exact h2.with rfl rfl

theorem State.touch_keeps (s : State) (cid line src cls : Nat) : KeepsHarts s (s.touch cid line src cls) := by
  have h0 : KeepsHarts s ((s.exchange cid src (portSlice (sliceOf (128 * line))) cls).count cid 3) :=
    (State.exchange_counted ..).keeps.trans (State.count_keeps ..)
  unfold State.touch
  extract_lets s0 s1
  have h1 : KeepsHarts s s1 := by
    unfold s1
    split
    · dsimp only
      split
      · exact h0
      · refine .trans ?_ (State.llcFill_keeps _ _ _ _)
        exact (h0.trans (State.writeBack_keeps _ _ _)).with rfl rfl
    · exact h0.trans (State.llcFill_keeps _ _ _ _)
  exact h1.with rfl rfl

theorem State.applyAt_keeps (s : State) (cid pa : Nat) (bs : List Byte) (src cls : Nat) : KeepsHarts s (s.applyAt cid pa bs src cls) := by
  have h0 : KeepsHarts s ((s.touch cid (pa / 128) src cls).breakResv (pa / 128)) := (s.touch_keeps ..).trans (State.breakResv_keeps _ _)
  unfold State.applyAt
  extract_lets s0 s1
  split
  · exact h0.with rfl rfl
  · dsimp only
    split
    · exact h0.with rfl rfl
    · exact h0.with rfl rfl

theorem State.putFlit_keeps (s : State) (port : Nat) (x : Sent) : KeepsHarts s (s.putFlit port x) := by
  unfold State.putFlit State.reserve
  dsimp only
  split
  · exact .of_eq rfl rfl
  · exact .of_eq rfl rfl

theorem State.sendNext_keeps (s : State) (port c r : Nat) (o : OutFlit) : KeepsHarts s (s.sendNext port c r o) := by
  unfold State.sendNext
  split
  · exact .refl s
  · exact ((s.modPeer_keeps _ _ _).trans (State.putFlit_keeps _ _ _)).trans (State.count_keeps _ _ _)

theorem State.sendFlit_keeps (s : State) (port c r : Nat) (o : OutFlit) : KeepsHarts s (s.sendFlit port c r o) := by
  refine .trans (.ite ?_ (.refl s)) (State.sendNext_keeps _ _ _ _ _)
  exact ((s.sendNext_keeps _ _ _ _).trans (State.modPeer_keeps _ _ _ _)).with rfl rfl

theorem State.pump_keeps (s : State) (c r : Nat) : KeepsHarts s (s.pump c r) := by
  unfold State.pump
  split
  · exact .refl s
  split
  · exact .refl s
  · refine .trans (KeepsHarts.foldl_fst (fun a o => ?_) _ (s, [])) (State.modPeer_keeps _ _ _ _)
    split
    · exact .refl a.1
    · split
      · exact .refl a.1
      · exact a.1.sendFlit_keeps ..

theorem State.hold_keeps (s : State) (c r a : Nat) (k : PostedKind) : KeepsHarts s (s.hold c r a k) :=
  (s.modPeer_keeps ..).trans (State.pump_keeps _ _ _)

theorem State.holdParts_keeps (c r n : Nat) : ∀ (s : State) (a : Nat) (bs : List Byte), KeepsHarts s (s.holdParts c r n a bs) := by
  induction n with
  | zero => exact fun s _ _ => .refl s
  | succ n ih =>
    intro s a bs
    cases bs with
    | nil => exact .refl s
    | cons b bs => exact (s.hold_keeps ..).trans (ih _ _ _)

theorem State.toPeer_keeps (s : State) (c r a : Nat) (k : PostedKind) (src cls : Nat) : KeepsHarts s (s.toPeer c r a k src cls) := by
  have h1 : KeepsHarts s ((s.sendPacket c src (s.peerPort c r a) cls).breakRange (peerPa r a) k.size) :=
    (State.sendPacket_counted ..).keeps.trans (State.breakRange_keeps _ _ _)
  unfold State.toPeer
  cases k with
  | store bs => exact h1.trans (State.holdParts_keeps ..)
  | red aop ty vs => exact h1.trans (State.hold_keeps ..)

theorem State.tileWriteFuel_keeps (c src cls n : Nat) :
    ∀ (s : State) (pa : Nat) (bs : List Byte), KeepsHarts s (s.tileWriteFuel c src cls n pa bs) := by
  induction n with
  | zero => exact fun s _ _ => .refl s
  | succ n ih =>
    intro s pa bs
    cases bs with
    | nil => exact .refl s
    | cons b bs => exact (s.applyAt_keeps ..).trans (ih _ _ _)

theorem State.setPte_keeps (s : State) (c addr : Nat) (e : DWord) : KeepsHarts s (s.setPte c addr e) := by
  unfold State.setPte State.coreWrite
  split
  · exact (s.applyAt_keeps ..).with rfl rfl
  · unfold State.tileWrite
    split
    · exact State.tileWriteFuel_keeps ..
    · exact State.toPeer_keeps ..
    · exact (State.sendPacket_counted ..).keeps.with rfl rfl
    · exact .refl s

theorem State.drainPosted_keeps (s : State) (stove : Nat) (which : Posted → Bool) : KeepsHarts s (s.drainPosted stove which) := by
  refine KeepsHarts.trans (t := s.setStove stove _) (.of_eq rfl rfl) (.foldl (fun s p => ?_) _ _)
  unfold State.applyPosted
  dsimp only
  split
  · exact (s.touch_keeps ..).with rfl rfl
  · exact (s.applyAt_keeps ..).with rfl rfl

theorem State.settlePages_keeps (s : State) (pages : List Nat) : KeepsHarts s (s.settlePages pages) :=
  .foldl (fun s _ => s.drainPosted_keeps _ _) _ s

theorem State.shootdown_keeps (s : State) (c va span : Nat) (pages : List Nat) : KeepsHarts s (s.shootdown c va span pages) :=
  (s.settlePages_keeps pages).with rfl rfl

theorem State.freePages_keeps (s : State) (pages : List Nat) : KeepsHarts s (s.freePages pages) :=
  (s.settlePages_keeps pages).with rfl rfl

theorem State.unmapOthers_keeps (s : State) (c : Nat) (pages : List Nat) : KeepsHarts s (s.unmapOthers c pages) := by
  refine .foldl (fun s x => .ite (.refl s) (.foldl (fun s l => .ite ?_ (.refl s)) _ s)) _ s
  exact (s.setPte_keeps ..).trans (State.shootdown_keeps ..)

theorem State.freeAllPages_keeps (s : State) (c : Nat) : KeepsHarts s (s.freeAllPages c) :=
  .trans (.ite (.refl s) (s.unmapOthers_keeps _ _)) (State.freePages_keeps _ _)

/-! #### Groups and kernels that go -/

theorem State.clearGroup_keeps (s : State) (stove gid : Nat) : KeepsHarts s (s.clearGroup stove gid) :=
  (KeepsHarts.foldl (k := fun s j => s.vacate stove j) (fun _ _ => .of_eq rfl rfl) ((s.stove stove).slotsIn gid) s).with rfl rfl

theorem State.hearthFail_keeps (s : State) (hearth : Nat) (rv : HearthRv) : KeepsHarts s (s.hearthFail hearth rv) := by
  refine KeepsHarts.trans (t := s.setHearth hearth _) (.of_eq rfl rfl) (.foldl (fun s a => ?_) _ _)
  exact .of_eq rfl rfl

theorem State.hearthStart_keeps (s : State) (hearth : Nat) (rv : HearthRv) : KeepsHarts s (s.hearthStart hearth rv) := by
  refine KeepsHarts.trans (t := s.setHearth hearth _) (.of_eq rfl rfl) (.foldl (fun s a => ?_) _ _)
  exact .of_eq rfl rfl

theorem State.hearthCheck_keeps (s : State) (hearth : Nat) (rv : HearthRv) : KeepsHarts s (s.hearthCheck hearth rv) :=
  .ite (s.hearthFail_keeps ..) (.ite (s.hearthStart_keeps ..) (.refl s))

theorem State.hearthSweep_keeps (s : State) (hearth : Nat) : KeepsHarts s (s.hearthSweep hearth) :=
  KeepsHarts.trans (t := s.setHearth hearth _) (.of_eq rfl rfl) (.foldl (fun s rv => s.hearthCheck_keeps hearth rv) _ _)

theorem State.giveRuns_keeps (s : State) (c : Nat) (rs : List (Nat × Nat)) : KeepsHarts s (s.giveRuns c rs) := s.modCtx_keeps c fun _ => rfl

theorem State.countStoves_keeps (s : State) (p k : Nat) : KeepsHarts s (s.countStoves p k) := by
  unfold State.countStoves
  split
  · exact s.setKernel_keeps ..
  · exact .refl s

theorem State.lessLive_keeps (s : State) (g : Group) : KeepsHarts s (s.lessLive g) := by
  unfold State.lessLive
  split
  · exact .refl s
  · refine .trans (s.setKernel_keeps g.part g.kslot _) (State.countStoves_keeps ..)

theorem State.loseGroup_keeps (s : State) (stove gid : Nat) : KeepsHarts s (s.loseGroup stove gid) := by
  unfold State.loseGroup
  split
  · exact .refl s
  · refine .trans (.trans (.trans (.trans ?_ (State.clearGroup_keeps ..)) (State.giveRuns_keeps ..)) (State.lessLive_keeps ..))
      (State.hearthSweep_keeps ..)
    exact .foldl (fun s p => .ite (s.count_keeps ..) (.refl s)) _ s

theorem State.loseGroups_keeps (s : State) (which : Group → Bool) : KeepsHarts s (s.loseGroups which) := by
  unfold State.loseGroups
  extract_lets here s1 out s2 s3
  have h1 : KeepsHarts s s1 := .foldl (fun s p => s.loseGroup_keeps ..) here s
  have h3 : KeepsHarts s s3 :=
    (h1.with (u := s2) rfl rfl).trans (.foldl (fun s w => (s.giveRuns_keeps ..).trans (State.lessLive_keeps ..)) out s2)
  exact .ite (h3.trans (.foldl (fun s (x : Nat × Hearth) => s.hearthSweep_keeps x.1) _ s3)) h3

theorem State.dropKernel_keeps (s : State) (p k : Nat) : KeepsHarts s (s.dropKernel p k) := by
  unfold State.dropKernel
  split
  · exact .of_eq rfl rfl
  · exact .refl s

theorem State.freeScratch_keeps (s : State) (k : Kernel) : KeepsHarts s (s.freeScratch k) := by
  refine .foldl (fun s x => ?_) _ s
  exact .of_eq rfl rfl

theorem State.dropWork_keeps (s : State) (c : Nat) (which : Kernel → Bool) : KeepsHarts s (s.dropWork c which) := by
  refine (s.loseGroups_keeps _).trans (.foldl (fun s x => .foldl (fun s k => ?_) _ s) _ _)
  exact (s.freeScratch_keeps k.2).trans (State.dropKernel_keeps ..)

/-! #### A context none of whose threads is on a hart -/

/-- No thread of the context is on a hart. -/
def NoThreadOn (s : State) (cid : Nat) : Prop := ∀ c, s.ctx? cid = some c → ∀ th ∈ c.threads, th.2.hart = none

theorem KeepsHarts.noThreadOn {s t : State} (k : KeepsHarts s t) {cid : Nat} (h : NoThreadOn s cid) : NoThreadOn t cid := by
  intro c hc
  have e := k.threads cid
  rw [hc] at e
  obtain ⟨d, hd, et⟩ := Option.map_eq_some_iff.1 e.symm
  dsimp only at et
  rw [← et]
  exact h d hd

theorem State.leaveThreads_of_noThreadOn {s : State} {cid : Nat} (h : NoThreadOn s cid) (reason : Nat) : s.leaveThreads cid reason = s := by
  unfold State.leaveThreads
  split
  · rfl
  · rename_i c hc
    have ht := h c hc
    generalize c.threads = l at ht
    induction l with
    | nil => rfl
    | cons p l ih =>
      rw [List.foldl_cons, ht p (List.mem_cons_self ..)]
      exact ih fun q hq => ht q (List.mem_cons_of_mem _ hq)

theorem State.dropStreams_keeps (s : State) (c : Nat) : KeepsHarts s (s.dropStreams c) := by
  unfold State.dropStreams
  split
  · refine .foldl (fun s p => ?_) _ s
    exact .of_eq rfl rfl
  · exact .refl s

theorem State.stopCtx_keeps {s : State} {cid : Nat} (h : NoThreadOn s cid) : KeepsHarts s (s.stopCtx cid) := by
  have h1 := s.dropWork_keeps cid fun _ => true
  unfold State.stopCtx
  rw [State.leaveThreads_of_noThreadOn (h1.noThreadOn h)]
  refine .trans ?_ (State.dropStreams_keeps ..)
  exact h1.with rfl rfl

theorem State.freeBlocks_keeps (s : State) (c : Nat) : KeepsHarts s (s.freeBlocks c) := .of_eq rfl rfl

theorem State.setPurge_keeps (s : State) (l : List Nat) : KeepsHarts s { s with purge := l } := .of_eq rfl rfl

theorem State.setPurge_ctx? (s : State) (l : List Nat) (c : Nat) : ({ s with purge := l } : State).ctx? c = s.ctx? c := rfl

theorem State.zeroFlows_keeps (s : State) (c : Nat) : KeepsHarts s (s.zeroFlows c) := .of_eq rfl rfl

/-- A destruction with no thread on a hart moves no hart on, and the context is DESTROYED without keys. -/
theorem State.destroy_keeps {s : State} {cid : Nat} {c : Context} (hc : s.ctx? cid = some c) (h : NoThreadOn s cid) :
    KeepsHarts s (s.destroy cid) ∧ ∃ c', (s.destroy cid).ctx? cid = some c' ∧ c'.state = .destroyed ∧ c'.keyed = false := by
  unfold State.destroy
  extract_lets s1 s2 s3 s4
  have h2 : KeepsHarts s s2 := (State.stopCtx_keeps h).with rfl rfl
  have h3 : KeepsHarts s s3 := ((h2.trans (s2.freeAllPages_keeps cid)).trans (State.freeBlocks_keeps ..)).trans (State.zeroFlows_keeps ..)
  have h4 : KeepsHarts s s4 := h3.trans (s3.modCtx_keeps cid fun _ => rfl)
  refine ⟨h4.trans (s4.setPurge_keeps _), ?_⟩
  have e := h3.threads cid
  rw [hc] at e
  obtain ⟨d, hd, -⟩ := Option.map_eq_some_iff.1 e
  have e4 := State.ctx?_modCtx s3 cid cid fun c => { c with
    state := .destroyed, keyed := false, ptroot := 0, roster := endStreams c.roster, iface := [], moves := [], tids := [],
    queues := [], pendingBits := 0, saveRuns := [] }
  rw [if_pos rfl, hd, Option.map_some] at e4
  exact ⟨_, (s4.setPurge_ctx? _ cid).trans e4, rfl, rfl⟩

theorem State.destroy_purge (s : State) (cid : Nat) : cid ∈ (s.destroy cid).purge := by
  simp [State.destroy]

/-! ### Keying -/

/-- What a fold's step leaves, the fold leaves. -/
theorem State.foldl_leaves {α β : Type} {k : State → α → State} {f : State → β} (h : ∀ s a, f (k s a) = f s) (l : List α) (s : State) :
    f (l.foldl k s) = f s := by
  induction l generalizing s with
  | nil => rfl
  | cons a l ih => exact (ih _).trans (h s a)

/-- The harts and the contexts. -/
def State.hartsCtxs (s : State) : Tab Hart × Tab Context := (s.harts, s.ctxs)

theorem State.hart_of_hartsCtxs {s t : State} (e : t.hartsCtxs = s.hartsCtxs) (n : Nat) : t.hart n = s.hart n := by
  have eh : t.harts = s.harts := congrArg Prod.fst e
  simp only [State.hart, eh]

theorem State.ctx?_of_hartsCtxs {s t : State} (e : t.hartsCtxs = s.hartsCtxs) (n : Nat) : t.ctx? n = s.ctx? n := by
  have ec : t.ctxs = s.ctxs := congrArg Prod.snd e
  simp only [State.ctx?, ec]

theorem State.putFlit_hartsCtxs (s : State) (port : Nat) (x : Sent) : (s.putFlit port x).hartsCtxs = s.hartsCtxs := by
  unfold State.putFlit State.reserve
  dsimp only
  split <;> rfl

theorem State.count_hartsCtxs (s : State) (c code : Nat) : (s.count c code).hartsCtxs = s.hartsCtxs := by
  obtain ⟨_, _, e⟩ := s.countN_counted c code 1
  unfold State.count
  rw [e]
  rfl

theorem State.sayKeyExchange_hartsCtxs (s : State) (c r : Nat) : (s.sayKeyExchange c r).hartsCtxs = s.hartsCtxs := by
  unfold State.sayKeyExchange
  split
  · exact (State.count_hartsCtxs ..).trans (State.putFlit_hartsCtxs ..)
  · rfl

/-- A stream that begins to be keyed anew (20 R429). -/
def keyPeer (p : LState → Bool) (q : Peer) : Peer :=
  if p q.lstate then { q with lstate := .keying, sepoch := q.sepoch + 1, tried := true } else q

theorem State.startKeying_ctx? {s : State} {cid : Nat} {c : Context} (hc : s.ctx? cid = some c) (p : LState → Bool) :
    (s.startKeying cid p).ctx? cid = some { c with roster := Tab.mapVals (keyPeer p) c.roster } ∧
      ∀ n, (s.startKeying cid p).hart n = s.hart n := by
  have e : (s.startKeying cid p).hartsCtxs = (s.setCtx cid { c with roster := Tab.mapVals (keyPeer p) c.roster }).hartsCtxs := by
    unfold State.startKeying
    rw [hc]
    exact State.foldl_leaves (f := State.hartsCtxs) (fun s r => s.sayKeyExchange_hartsCtxs cid r) _ _
  exact ⟨by rw [State.ctx?_of_hartsCtxs e, State.ctx?_setCtx, if_pos rfl], fun n => State.hart_of_hartsCtxs e n⟩

/-! ### ENCNEW -/

section
variable {x : RArgs} {s : State} {h : Nat} (hc : s.core = some h) (hm : (s.hart h).mode = .m ∨ (s.hart h).mode = .hs)
include hc hm

theorem encnew_early (hs : s.stage < 6) : Refused s h x.rd (.encnew x) 1 := by
  refine refused_of_exec ?_
  show execEncnew x s = _
  rw [execEncnew, onHostHart_eq hc hm]
  simp [hs]

theorem encnew_misaligned (hs : 6 ≤ s.stage) (ht : s.testMode = false) (hb : s.building ((s.hart h).reg x.rs1).toNat = none)
    (ha : ((s.hart h).reg x.rs1).toNat % 4096 ≠ 0) : Refused s h x.rd (.encnew x) 3 := by
  refine refused_of_exec ?_
  show execEncnew x s = _
  rw [execEncnew, onHostHart_eq hc hm]
  simp [Nat.not_lt.2 hs, ht, hb, ha]

/-- ENCNEW goes on with the context that is in BUILDING. -/
theorem encnew_building {cid : Nat} (hs : 6 ≤ s.stage) (ht : s.testMode = false)
    (hb : s.building ((s.hart h).reg x.rs1).toNat = some cid) : exec (.encnew x) s = .next (s.buildOn h x.rd cid) := by
  show execEncnew x s = _
  rw [execEncnew, onHostHart_eq hc hm]
  simp [Nat.not_lt.2 hs, ht, hb]

end

/-- The four ways an execution of ENCNEW goes on with a context in BUILDING. The reads and the items are kept opaque: in a case split the
kernel would compute them. -/
theorem buildOn_cases {s : State} {cid : Nat} {c : Context} (h : Nat) (rd : BitVec 5) (hc : s.ctx? cid = some c) :
    (s.hostBytes c.named (c.manifest + 32 * c.bprog) 32 = none → s.buildOn h rd cid = (s.destroy cid).retireHart h rd (encStatus 6)) ∧
    ∀ it, s.hostBytes c.named (c.manifest + 32 * c.bprog) 32 = some it →
      (s.item cid c it = .badItem → s.buildOn h rd cid = (s.destroy cid).retireHart h rd (encStatus 6)) ∧
      (s.item cid c it = .noMem → s.buildOn h rd cid = (s.destroy cid).retireHart h rd (encStatus 5)) ∧
      ∀ s1, s.item cid c it = .ok s1 → s.buildOn h rd cid =
        if c.bprog + 1 = c.nitems then (s1.finishBuild cid).retireHart h rd (BitVec.ofNat 64 cid) else s1 := by
  unfold State.buildOn
  obtain ⟨bytes, eb⟩ : ∃ f, State.hostBytes = f := ⟨_, rfl⟩
  obtain ⟨item, ei⟩ : ∃ f, State.item s cid = f := ⟨_, rfl⟩
  rw [eb, ei, hc]
  dsimp only
  refine ⟨fun hi => by rw [hi], fun it hi => ?_⟩
  rw [hi]
  dsimp only
  exact ⟨fun ho => by rw [ho], fun ho => by rw [ho], fun s1 ho => by rw [ho]⟩

/-- An item that fails destroys the context, and the instruction retires with the status. -/
theorem encnew_destroys {x : RArgs} {s : State} {h cid n : Nat} {c : Context}
    (he : exec (.encnew x) s = .next ((s.destroy cid).retireHart h x.rd (encStatus n)))
    (hc : s.ctx? cid = some c) (hq : ∀ th ∈ c.threads, th.2.hart = none) :
    ∃ t c', exec (.encnew x) s = .next t ∧ Retires s t h x.rd (0 - BitVec.ofNat 64 n) ∧
      t.ctx? cid = some c' ∧ c'.state = .destroyed ∧ c'.keyed = false ∧ cid ∈ t.purge := by
  have hn : NoThreadOn s cid := fun d hd => by cases hc.symm.trans hd; exact hq
  obtain ⟨hk, c', hc', hst, hkey⟩ := State.destroy_keeps hc hn
  have hp := s.destroy_purge cid
  generalize s.destroy cid = u at he hk hc' hp
  exact ⟨_, c', he, retires_retireHart (hk.pc h) (hk.regs h) x.rd _, hc', hst, hkey, hp⟩

@[simp] theorem State.rekeyed_ctx? (s : State) (w : Nat → Bool) (c : Nat) : (s.rekeyed w).ctx? c = s.ctx? c := rfl
@[simp] theorem State.zeroFlows_ctx? (s : State) (d c : Nat) : (s.zeroFlows d).ctx? c = s.ctx? c := rfl
@[simp] theorem State.zeroFlows_hart (s : State) (d n : Nat) : (s.zeroFlows d).hart n = s.hart n := rfl
@[simp] theorem State.setCtx_hart (s : State) (d n : Nat) (c : Context) : (s.setCtx d c).hart n = s.hart n := rfl

/-- With no peers, the last item readies the context, keys it and fixes its measurement, and nothing else of the context changes. -/
theorem State.finishBuild_noPeers {s : State} {cid : Nat} {c : Context} (hc : s.ctx? cid = some c) (hr : c.roster = []) :
    (s.finishBuild cid).ctx? cid =
        some { c with state := .ready, keyed := true, meas := shake256 (c.absorbed ++ leBytes 4 c.nitems) 64 } ∧
      ∀ n, (s.finishBuild cid).hart n = s.hart n := by
  unfold State.finishBuild
  extract_lets s1
  have h1 : ∀ k, ((s1.modCtx cid k).zeroFlows cid).ctx? cid = some (k c) := fun k => by
    simp [s1, State.ctx?_modCtx, hc]
  obtain ⟨hctx, hh⟩ := State.startKeying_ctx? (h1 _) (· == .idle)
  refine ⟨hctx.trans ?_, fun n => ?_⟩
  · rw [hr]
    cases c
    cases hr
    rfl
  · rw [hh, State.zeroFlows_hart, State.modCtx_hart]
    rfl

/-- The last item: the context is READY, keyed and measured, and its CID is in rd. -/
theorem encnew_completes {x : RArgs} {s s1 : State} {h cid : Nat} {c1 : Context}
    (he : exec (.encnew x) s = .next ((s1.finishBuild cid).retireHart h x.rd (BitVec.ofNat 64 cid)))
    (hc : s1.ctx? cid = some c1) (hr : c1.roster = []) (hh : s1.hart h = s.hart h) :
    ∃ t c', exec (.encnew x) s = .next t ∧ t.ctx? cid = some c' ∧ Retires s t h x.rd (BitVec.ofNat 64 cid) ∧ t.mem = s1.mem ∧
      c' = { c1 with state := .ready, keyed := true, meas := shake256 (c1.absorbed ++ leBytes 4 c1.nitems) 64 } := by
  obtain ⟨hctx, hhart⟩ := State.finishBuild_noPeers hc hr
  have e : (s1.finishBuild cid).hart h = s.hart h := (hhart h).trans hh
  have hmem := s1.finishBuild_mem cid
  generalize s1.finishBuild cid = u at he hctx e hmem
  exact ⟨_, _, he, hctx, retires_retireHart (by rw [e]) (by rw [e]) _ _, (u.retireHart_mem ..).trans hmem, rfl⟩

/-! ### ENCSEAL: what is refused, and what waits -/

section
variable {x : RArgs} {s : State} {h : Nat} (hc : s.core = some h) (hm : (s.hart h).mode = .m ∨ (s.hart h).mode = .hs)
include hc hm

theorem encseal_noContext (hn : s.ctx? ((s.hart h).reg x.rs1).toNat = none) {ins : Instr}
    (hi : ins ∈ [Instr.encsealSeal x, .encsealUnseal x, .encsealDestroy x]) : Refused s h x.rd ins 2 := by
  refine refused_of_exec ?_
  simp only [List.mem_cons, List.not_mem_nil, or_false] at hi
  obtain rfl | rfl | rfl := hi
  · show execEncsealSeal x s = _
    simp [execEncsealSeal, onHostHart_eq hc hm, hn]
  · show execEncsealUnseal x s = _
    simp [execEncsealUnseal, onHostHart_eq hc hm, hn]
  · show execEncsealDestroy x s = _
    simp [execEncsealDestroy, onHostHart_eq hc hm, hn]

variable {c : Context} (hn : s.ctx? ((s.hart h).reg x.rs1).toNat = some c)
include hn

theorem seal_faulted (hf : c.state = .faulted) : Refused s h x.rd (.encsealSeal x) 1 := by
  refine refused_of_exec ?_
  show execEncsealSeal x s = _
  simp [execEncsealSeal, onHostHart_eq hc hm, hn, hf]

theorem unseal_faulted (hf : c.state = .faulted) : Refused s h x.rd (.encsealUnseal x) 1 := by
  refine refused_of_exec ?_
  show execEncsealUnseal x s = _
  simp [execEncsealUnseal, onHostHart_eq hc hm, hn, hf]

theorem seal_badOperation (hb : 2 < ((s.hart h).reg x.rs2).toNat) (hf : c.state ≠ .faulted) : Refused s h x.rd (.encsealSeal x) 3 := by
  refine refused_of_exec ?_
  show execEncsealSeal x s = _
  simp [execEncsealSeal, onHostHart_eq hc hm, hn, hf, hb]

theorem unseal_badOperation (hb : 2 < ((s.hart h).reg x.rs2).toNat) (hf : c.state ≠ .faulted) : Refused s h x.rd (.encsealUnseal x) 3 := by
  refine refused_of_exec ?_
  show execEncsealUnseal x s = _
  simp [execEncsealUnseal, onHostHart_eq hc hm, hn, hf, hb]

theorem destroy_badOperation (hb : 2 < ((s.hart h).reg x.rs2).toNat) : Refused s h x.rd (.encsealDestroy x) 3 := by
  refine refused_of_exec ?_
  show execEncsealDestroy x s = _
  simp [execEncsealDestroy, onHostHart_eq hc hm, hn, hb]

variable (hb : ((s.hart h).reg x.rs2).toNat ≤ 2)
include hb

theorem seal_badState (he : c.eligible = false) (hr : c.sealing ≠ .reached) : Refused s h x.rd (.encsealSeal x) 1 := by
  refine refused_of_exec ?_
  show execEncsealSeal x s = _
  simp [execEncsealSeal, onHostHart_eq hc hm, hn, Nat.not_lt.2 hb, he, hr]

theorem unseal_badState (hs : c.state ≠ .suspended) : Refused s h x.rd (.encsealUnseal x) 1 := by
  refine refused_of_exec ?_
  show execEncsealUnseal x s = _
  simp [execEncsealUnseal, onHostHart_eq hc hm, hn, Nat.not_lt.2 hb, hs]

theorem unseal_badImage (hs : c.state = .suspended) (hi : s.badImages ((s.hart h).reg x.rs1).toNat c = true) :
    Refused s h x.rd (.encsealUnseal x) 7 := by
  refine refused_of_exec ?_
  show execEncsealUnseal x s = _
  simp [execEncsealUnseal, onHostHart_eq hc hm, hn, Nat.not_lt.2 hb, hs, hi]

theorem destroy_badState (hs : c.state = .destroyed) : Refused s h x.rd (.encsealDestroy x) 1 := by
  refine refused_of_exec ?_
  show execEncsealDestroy x s = _
  simp [execEncsealDestroy, onHostHart_eq hc hm, hn, Nat.not_lt.2 hb, hs]

/-- SEAL waits for the end of a destruction. -/
theorem seal_waits (he : c.eligible = true) (hs : c.sealing = .ending) : exec (.encsealSeal x) s = .next s := by
  have hf : c.state ≠ .faulted := by rintro e; simp [Context.eligible, e] at he
  show execEncsealSeal x s = _
  simp [execEncsealSeal, onHostHart_eq hc hm, hn, Nat.not_lt.2 hb, he, hs, hf]

/-- DESTROY waits for the end of a seal. -/
theorem destroy_waits (he : c.eligible = true) (hs : c.sealing = .going) : exec (.encsealDestroy x) s = .next s := by
  have hf : c.state ≠ .destroyed := by rintro e; simp [Context.eligible, e] at he
  show execEncsealDestroy x s = _
  simp [execEncsealDestroy, onHostHart_eq hc hm, hn, Nat.not_lt.2 hb, he, hs, hf]

end

theorem Context.eligible_iff (c : Context) : c.eligible = true ↔ c.state = .ready ∨ c.state = .running := by
  simp [Context.eligible]

/-! ### SEAL -/

theorem State.groupsOf_of_idle {s : State} {cid : Nat} (hg : ∀ st ∈ s.stoves, ∀ g ∈ st.2.groups, g.2.cid ≠ cid) : s.groupsOf cid = [] := by
  unfold State.groupsOf
  rw [List.flatten_eq_nil_iff]
  intro l hl
  obtain ⟨st, hst, rfl⟩ := List.mem_map.1 hl
  rw [List.map_eq_nil_iff, List.filter_eq_nil_iff]
  intro g hm
  simp [hg st hst g hm]

theorem State.sealPages_of_noGroups {s : State} {cid : Nat} (hg : s.groupsOf cid = []) : s.sealPages cid = 0 := by
  unfold State.sealPages
  rw [hg]
  rfl

/-- A context without flues, whose active peers have acknowledged every write, can be sealed. -/
theorem State.sealable_of_idle {s : State} {cid : Nat} {c : Context} (hc : s.ctx? cid = some c)
    (hf : ∀ st ∈ s.stoves, ∀ f ∈ st.2.flues, f.2.cid ≠ cid) (hp : ∀ p ∈ c.roster, p.2.lstate = .active → p.2.held = []) :
    s.sealable cid = true := by
  have hr : s.atRest cid = true := by
    simp only [State.atRest, List.all_eq_true]
    intro st hst f hm
    simp [hf st hst f hm]
  have ha : s.ackDue cid = false := by
    simp only [State.ackDue, hc, List.any_eq_false]
    intro p hm hd
    simp only [Bool.and_eq_true, beq_iff_eq] at hd
    simp [hp p hm hd.2] at hd
  simp [State.sealable, hr, ha]

theorem State.leaveThreads_of_noThreads {s : State} {cid : Nat} {c : Context} (hc : s.ctx? cid = some c) (ht : c.threads = [])
    (reason : Nat) : s.leaveThreads cid reason = s :=
  State.leaveThreads_of_noThreadOn (fun d hd => by cases hc.symm.trans hd; simp [ht]) reason

theorem State.forward_hart (s : State) (cid n : Nat) : (s.forward cid).hart n = s.hart n := by
  unfold State.forward
  split <;> rfl

theorem State.forward_ctx? {s : State} {cid : Nat} {c : Context} (hc : s.ctx? cid = some c) :
    ∃ v, (s.forward cid).ctx? cid = some { c with pmval := v } := by
  unfold State.forward
  rw [hc]
  exact ⟨_, (State.ctx?_setCtx ..).trans (if_pos rfl)⟩

theorem State.trimGrant_hart (s : State) (cid n : Nat) : (s.trimGrant cid).hart n = s.hart n := State.modCtx_hart ..

theorem State.trimGrant_ctx? {s : State} {cid : Nat} {c : Context} (hc : s.ctx? cid = some c) :
    ∃ g, (s.trimGrant cid).ctx? cid = some { c with grant := g } := by
  unfold State.trimGrant
  rw [State.ctx?_modCtx, if_pos rfl, hc]
  exact ⟨_, rfl⟩

/-- A stream at a seal (14 R335). -/
def sealPeer (p : Peer) : Peer := if p.lstate = .active then { p with lstate := .suspended, keyed := false } else p

/-- A context at a seal, but for its counters and its grant (14 R335). -/
def Context.sealed (c : Context) : Context :=
  { c with state := .suspended, sealing := .none, queues := Tab.mapVals sealQueue c.queues, pendingBits := 0,
           roster := Tab.mapVals sealPeer c.roster }

/-- The seal of a context without groups and threads changes nothing but the context, its counters and its grant. -/
theorem State.sealCtx_of_idle {s : State} {cid : Nat} {c : Context} (hc : s.ctx? cid = some c) (he : c.eligible = true)
    (hg : s.groupsOf cid = []) (ht : c.threads = []) :
    (∃ v g, (s.sealCtx cid).ctx? cid = some { c.sealed with pmval := v, grant := g }) ∧ (∀ n, (s.sealCtx cid).hart n = s.hart n) ∧
      (s.sealCtx cid).mem = s.mem := by
  have e : s.sealCtx cid = ((s.forward cid).modCtx cid Context.sealed).trimGrant cid := by
    unfold State.sealCtx
    rw [hg]
    simp only [List.foldl_nil, hc, he, State.leaveThreads_of_noThreads hc ht]
    rfl
  rw [e]
  obtain ⟨v, hv⟩ := State.forward_ctx? hc
  have h1 : ((s.forward cid).modCtx cid Context.sealed).ctx? cid = some { c.sealed with pmval := v } := by
    rw [State.ctx?_modCtx, if_pos rfl, hv]
    rfl
  obtain ⟨g, hg⟩ := State.trimGrant_ctx? h1
  exact ⟨⟨v, g, hg⟩, fun n => by rw [State.trimGrant_hart, State.modCtx_hart, State.forward_hart], by simp⟩

section
variable {x : RArgs} {s : State} {h : Nat} (hc : s.core = some h) (hm : (s.hart h).mode = .m ∨ (s.hart h).mode = .hs)
variable {c : Context} (hn : s.ctx? ((s.hart h).reg x.rs1).toNat = some c) (hb : ((s.hart h).reg x.rs2).toNat ≤ 2)
include hc hm hn hb

/-- SEAL of a quiet context suspends it. -/
theorem seal_suspends (ht : c.threads = []) (he : c.eligible = true) (hr : c.sealing ≠ .reached) (hs : c.sealing ≠ .ending)
    (hg : ∀ st ∈ s.stoves, ∀ g ∈ st.2.groups, g.2.cid ≠ ((s.hart h).reg x.rs1).toNat)
    (hf : ∀ st ∈ s.stoves, ∀ f ∈ st.2.flues, f.2.cid ≠ ((s.hart h).reg x.rs1).toNat)
    (hp : ∀ p ∈ c.roster, p.2.lstate = .active → p.2.held = []) :
    ∃ t v g, exec (.encsealSeal x) s = .next t ∧ Retires s t h x.rd 0 ∧ t.mem = s.mem ∧
      t.ctx? ((s.hart h).reg x.rs1).toNat = some { c.sealed with pmval := v, grant := g } := by
  have hng := State.groupsOf_of_idle hg
  obtain ⟨⟨v, g, hctx⟩, hh, hmem⟩ := State.sealCtx_of_idle hn he hng ht
  have hnf : c.state ≠ .faulted := by rintro e; simp [Context.eligible, e] at he
  have hx : exec (.encsealSeal x) s = .next ((s.sealCtx ((s.hart h).reg x.rs1).toNat).retireHart h x.rd (encStatus 0)) := by
    show execEncsealSeal x s = _
    rw [execEncsealSeal, onHostHart_eq hc hm]
    dsimp only
    rw [hn]
    simp only [hnf, Nat.not_lt.2 hb, hr, hs, he, State.sealPages_of_noGroups hng, State.sealable_of_idle hn hf hp, hctx, Context.sealed,
      Nat.not_lt_zero, decide_false, Bool.false_and, Bool.and_false, Bool.not_true, if_false, if_true, Bool.false_eq_true]
  generalize s.sealCtx ((s.hart h).reg x.rs1).toNat = u at hx hctx hh hmem
  exact ⟨_, v, g, hx, retires_retireHart (by rw [hh]) (by rw [hh]) _ _, (u.retireHart_mem ..).trans hmem, hctx⟩

end

/-! ### UNSEAL -/

section
variable {x : RArgs} {s : State} {h : Nat} (hc : s.core = some h) (hm : (s.hart h).mode = .m ∨ (s.hart h).mode = .hs)
variable {c : Context} (hn : s.ctx? ((s.hart h).reg x.rs1).toNat = some c) (hb : ((s.hart h).reg x.rs2).toNat ≤ 2)
include hc hm hn hb

/-- UNSEAL readies a suspended context under the next EPOCH. -/
theorem unseal_readies (hs : c.state = .suspended) (hi : s.badImages ((s.hart h).reg x.rs1).toNat c = false) :
    ∃ t c', exec (.encsealUnseal x) s = .next t ∧ Retires s t h x.rd 0 ∧ t.mem = s.mem ∧ t.ctx? ((s.hart h).reg x.rs1).toNat = some c' ∧
      c'.state = .ready ∧ c'.epoch = c.epoch + 1 ∧ c'.queues = Tab.mapVals (unsealQueue s.stamp) c.queues ∧
      c'.roster = Tab.mapVals (keyPeer fun l => l == .idle || l == .suspended) c.roster := by
  generalize ecid : ((s.hart h).reg x.rs1).toNat = cid at hn hi
  obtain ⟨c1, e1⟩ : ∃ c1 : Context, c1 = { c with
      state := .ready, sealing := .none, epoch := c.epoch + 1, queues := Tab.mapVals (unsealQueue s.stamp) c.queues
      pendingBits := (Tab.mapVals (unsealQueue s.stamp) c.queues).foldl
        (fun (m : BitVec 256) q => if q.2.state = .pending then m ||| BitVec.ofNat 256 (2 ^ q.1) else m) 0 } := ⟨_, rfl⟩
  obtain ⟨s1, es1⟩ : ∃ s1, s1 = ((s.setCtx cid c1).zeroFlows cid).tick := ⟨_, rfl⟩
  obtain ⟨s2, es2⟩ : ∃ s2, s2 = ((Tab.mapVals (unsealQueue s.stamp) c.queues).filter fun q => q.2.state == .pending).foldl
    (fun (s : State) q => (grantedParts c.grant).foldl (fun (s : State) p => s.say (.slotPressure p cid q.1)) s) s1 := ⟨_, rfl⟩
  have hx : exec (.encsealUnseal x) s =
      .next ((s2.startKeying cid fun l => l == .idle || l == .suspended).retireHart h x.rd (encStatus 0)) := by
    show execEncsealUnseal x s = _
    rw [execEncsealUnseal, onHostHart_eq hc hm]
    dsimp only
    rw [ecid, hn]
    simp only [hs, hi, Nat.not_lt.2 hb, es2, es1, e1, if_false, Bool.false_eq_true, reduceCtorEq, ne_eq, not_true]
  have e2 : s2.hartsCtxs = s1.hartsCtxs := by
    rw [es2]
    refine State.foldl_leaves (f := State.hartsCtxs) (fun s q => ?_) _ s1
    exact State.foldl_leaves (f := State.hartsCtxs) (k := fun s _ => s.say _) (fun _ _ => rfl) _ s
  have m2 : s2.mem = s1.mem := by
    rw [es2]
    refine State.foldl_leaves (f := State.mem) (fun s q => ?_) _ s1
    exact State.foldl_leaves (f := State.mem) (k := fun s _ => s.say _) (fun _ _ => rfl) _ s
  have hc2 : s2.ctx? cid = some c1 := by
    rw [State.ctx?_of_hartsCtxs e2, es1]
    exact (State.ctx?_setCtx s cid cid c1).trans (if_pos rfl)
  have hh2 : s2.hart h = s.hart h := by
    rw [State.hart_of_hartsCtxs e2, es1]
    rfl
  obtain ⟨hctx, hh⟩ := State.startKeying_ctx? hc2 fun l => l == .idle || l == .suspended
  have hmem := s2.startKeying_mem cid fun l => l == .idle || l == .suspended
  generalize s2.startKeying cid _ = u at hx hctx hh hmem
  refine ⟨_, _, hx, retires_retireHart (by rw [hh, hh2]) (by rw [hh, hh2]) _ _, ?_, hctx, ?_⟩
  · rw [State.retireHart_mem, hmem, m2, es1]
    rfl
  · rw [e1]
    exact ⟨rfl, rfl, rfl, rfl⟩

end

theorem unsealQueue_state (n : Nat) (q : Queue) : (unsealQueue n q).state =
    if q.state ≠ .stopped then q.state else if q.tail = q.head then .unbound else .pending := by
  unfold unsealQueue
  split
  · rfl
  · split <;> rfl

/-! ### DESTROY: pages and memory -/

/-- From one state to another page records and memory stay, and no stove gets a posted write. -/
structure KeepsPages (s t : State) : Prop where
  own : t.own = s.own
  mem : t.mem = s.mem
  posted : (∀ n, (s.stove n).posted = []) → ∀ n, (t.stove n).posted = []

theorem KeepsPages.refl (s : State) : KeepsPages s s := ⟨rfl, rfl, fun h => h⟩

theorem KeepsPages.trans {s t u : State} (a : KeepsPages s t) (b : KeepsPages t u) : KeepsPages s u :=
  ⟨b.own.trans a.own, b.mem.trans a.mem, fun h => b.posted (a.posted h)⟩

theorem KeepsPages.of_eq {s t : State} (ho : t.own = s.own) (hm : t.mem = s.mem) (hs : t.stoves = s.stoves) : KeepsPages s t :=
  ⟨ho, hm, fun h n => by simpa only [State.stove, hs] using h n⟩

theorem KeepsPages.foldl {α : Type} {k : State → α → State} (h : ∀ s a, KeepsPages s (k s a)) (l : List α) (s : State) :
    KeepsPages s (l.foldl k s) := by
  induction l generalizing s with
  | nil => exact .refl s
  | cons a l ih => exact (h s a).trans (ih _)

theorem State.modCtx_keepsPages (s : State) (c : Nat) (k : Context → Context) : KeepsPages s (s.modCtx c k) := by
  unfold State.modCtx
  split <;> exact .of_eq rfl rfl rfl

theorem State.dropKernel_keepsPages (s : State) (p k : Nat) : KeepsPages s (s.dropKernel p k) := by
  unfold State.dropKernel
  split <;> exact .of_eq rfl rfl rfl

theorem State.freeScratch_keepsPages (s : State) (k : Kernel) : KeepsPages s (s.freeScratch k) := by
  refine .foldl (fun s x => ?_) _ s
  exact .of_eq rfl rfl rfl

theorem State.dropStreams_keepsPages (s : State) (c : Nat) : KeepsPages s (s.dropStreams c) := by
  unfold State.dropStreams
  split
  · refine .foldl (fun s p => ?_) _ s
    exact .of_eq rfl rfl rfl
  · exact .refl s

/-- With no group resident and none switched out, none is lost. -/
theorem State.loseGroups_of_idle {s : State} {cid : Nat} (hg : s.groupsOf cid = [])
    (hw : ∀ p ∈ s.parts, ∀ w ∈ p.2.switched, w.group.cid ≠ cid) : KeepsPages s (s.loseGroups fun g => g.cid == cid) := by
  have ho : (s.parts.map fun (x : Nat × Partition) => x.2.switched.filter fun w => w.group.cid == cid).flatten = [] := by
    rw [List.flatten_eq_nil_iff]
    intro l hl
    obtain ⟨p, hp, rfl⟩ := List.mem_map.1 hl
    rw [List.filter_eq_nil_iff]
    intro w hm
    simp [hw p hp w hm]
  unfold State.groupsOf at hg
  unfold State.loseGroups
  simp only [hg, List.foldl_nil, ho, List.any_nil, Bool.false_eq_true, if_false]
  exact .of_eq rfl rfl rfl

theorem State.dropWork_of_idle {s : State} {cid : Nat} (hg : s.groupsOf cid = [])
    (hw : ∀ p ∈ s.parts, ∀ w ∈ p.2.switched, w.group.cid ≠ cid) (which : Kernel → Bool) : KeepsPages s (s.dropWork cid which) := by
  refine (State.loseGroups_of_idle hg hw).trans (.foldl (fun s x => .foldl (fun s k => ?_) _ s) _ _)
  exact (s.freeScratch_keepsPages k.2).trans (State.dropKernel_keepsPages ..)

theorem State.stopCtx_of_idle {s : State} {cid : Nat} (hg : s.groupsOf cid = [])
    (hw : ∀ p ∈ s.parts, ∀ w ∈ p.2.switched, w.group.cid ≠ cid) (h : NoThreadOn s cid) : KeepsPages s (s.stopCtx cid) := by
  have h1 := State.dropWork_of_idle hg hw fun _ => true
  unfold State.stopCtx
  rw [State.leaveThreads_of_noThreadOn ((s.dropWork_keeps cid fun _ => true).noThreadOn h)]
  refine .trans ?_ (State.dropStreams_keepsPages ..)
  exact h1.trans (.of_eq rfl rfl rfl)

/-- Without posted writes there are none to apply to pages that go. -/
theorem State.drainPosted_of_none {s : State} {n : Nat} (h : (s.stove n).posted = []) (which : Posted → Bool) :
    KeepsPages s (s.drainPosted n which) := by
  unfold State.drainPosted
  simp only [h, List.filter_nil, List.foldl_nil]
  refine ⟨rfl, rfl, fun hp j => ?_⟩
  rw [State.stove_setStove]
  split
  · rfl
  · exact hp j

theorem State.settlePages_of_none {s : State} (h : ∀ n, (s.stove n).posted = []) (pages : List Nat) :
    KeepsPages s (s.settlePages pages) := by
  unfold State.settlePages
  generalize s.stoves = l
  induction l generalizing s with
  | nil => exact .refl s
  | cons x l ih =>
    have h1 := State.drainPosted_of_none (h x.1) fun p => pages.contains (p.pa / 4096)
    exact h1.trans (ih (h1.posted h))

/-- The record of a page that is freed (14 R337, 19 R410). -/
def Own.freed (o : Own) : Own := { owner := 0, state := .free, version := o.version + 1 }

/-- A page table of owners with a page freed. -/
def freeOwn (t : Tab Own) (p : Nat) : Tab Own := Tab.put t p (Tab.getD t p {}).freed

theorem get?_foldl_freeOwn {l : List Nat} (hl : l.Nodup) (t : Tab Own) {p : Nat} (hp : p ∈ l) :
    Tab.get? (l.foldl freeOwn t) p = some (Tab.getD t p {}).freed := by
  have other : ∀ (l : List Nat) (t : Tab Own), p ∉ l → Tab.get? (l.foldl freeOwn t) p = Tab.get? t p := by
    intro l
    induction l with
    | nil => exact fun _ _ => rfl
    | cons q l ih =>
      intro t hq
      exact (ih _ (List.not_mem_of_not_mem_cons hq)).trans (Tab.get?_put_other t _ (List.ne_of_not_mem_cons hq))
  induction l generalizing t with
  | nil => cases hp
  | cons q l ih =>
    obtain ⟨hq, hl⟩ := List.nodup_cons.1 hl
    rw [List.foldl_cons]
    by_cases e : p = q
    · subst e
      rw [other l _ hq]
      exact Tab.get?_put_same ..
    · rw [ih hl _ ((List.mem_cons.1 hp).resolve_left e)]
      simp only [Tab.getD, freeOwn, Tab.get?_put_other t _ e]

theorem byte_foldl_clear {l : List Nat} (m : Memory) {p n : Nat} (hn : n < 4096) (hp : p ∈ l) :
    Memory.byte (l.foldl (fun m p => Memory.clear m (p * 4096) 4096) m) (4096 * p + n) = 0 := by
  have zero : ∀ (l : List Nat) (m : Memory), Memory.byte m (4096 * p + n) = 0 →
      Memory.byte (l.foldl (fun m p => Memory.clear m (p * 4096) 4096) m) (4096 * p + n) = 0 := by
    intro l
    induction l with
    | nil => exact fun _ h => h
    | cons q l ih => exact fun m h => ih _ (by rw [Memory.byte_clear, h]; simp)
  induction l generalizing m with
  | nil => cases hp
  | cons q l ih =>
    rw [List.foldl_cons]
    by_cases e : p = q
    · subst e
      refine zero l _ ?_
      rw [Memory.byte_clear, if_pos (by omega)]
      rfl
    · exact ih _ ((List.mem_cons.1 hp).resolve_left e)

theorem Tab.keys_nodup_of_sorted {α : Type} {t : Tab α} (h : Tab.sorted t = true) : (t.map (·.1)).Nodup := by
  induction t with
  | nil => exact List.nodup_nil
  | cons p t ih =>
    obtain ⟨ha, ht⟩ := (Tab.sorted_cons p.1 p.2 t).1 h
    refine List.nodup_cons.2 ⟨fun hm => ?_, ih ht⟩
    obtain ⟨q, hq, e⟩ := List.mem_map.1 hm
    exact absurd (ha q hq) (by simp [e])

theorem Tab.mem_of_get? {α : Type} {t : Tab α} {k : Nat} {a : α} (h : Tab.get? t k = some a) : (k, a) ∈ t := by
  induction t with
  | nil => cases h
  | cons p t ih =>
    simp only [Tab.get?] at h
    split at h
    · rename_i e
      cases h
      exact e ▸ List.mem_cons_self ..
    · exact List.mem_cons_of_mem _ (ih h)

/-- The pages of a context. -/
def State.pagesOf (s : State) (cid : Nat) : List Nat :=
  (s.own.filter fun (x : Nat × Own) => x.2.owner == cid && x.2.state != .free).map (·.1)

theorem State.sharedPages_of_none {s : State} {cid : Nat} (h : ∀ o ∈ s.own, o.2.owner = cid → o.2.state ≠ .sharedClear) :
    (s.own.filter fun (x : Nat × Own) => x.2.owner == cid && x.2.state == .sharedClear).map (·.1) = [] := by
  rw [List.map_eq_nil_iff, List.filter_eq_nil_iff]
  intro o ho hd
  simp only [Bool.and_eq_true, beq_iff_eq] at hd
  exact h o ho hd.1 hd.2

/-- With nothing shared and nothing posted, the pages of a context are scrubbed and freed. -/
theorem State.freeAllPages_of_private {s : State} {cid : Nat} (h : ∀ o ∈ s.own, o.2.owner = cid → o.2.state ≠ .sharedClear)
    (hp : ∀ n, (s.stove n).posted = []) :
    (s.freeAllPages cid).own = (s.pagesOf cid).foldl freeOwn s.own ∧
      (s.freeAllPages cid).mem = (s.pagesOf cid).foldl (fun m p => Memory.clear m (p * 4096) 4096) s.mem := by
  have hs : ((s.own.filter fun (x : Nat × Own) => x.2.owner == cid && x.2.state != .free).filter fun (x : Nat × Own) =>
      x.2.state == .sharedClear).map (·.1) = [] := by
    rw [List.map_eq_nil_iff, List.filter_eq_nil_iff]
    intro o ho hd
    obtain ⟨hm, hq⟩ := List.mem_filter.1 ho
    simp only [Bool.and_eq_true, beq_iff_eq] at hq hd
    exact h o hm hq.1 hd
  have e : s.freeAllPages cid = s.freePages (s.pagesOf cid) := by
    unfold State.freeAllPages
    simp only [hs, List.isEmpty_nil, if_true]
    rfl
  obtain ⟨ho, hm, -⟩ := State.settlePages_of_none hp (s.pagesOf cid)
  rw [e, ← ho, ← hm]
  exact ⟨rfl, rfl⟩

theorem State.freeBlocks_keepsPages (s : State) (cid : Nat) : KeepsPages s (s.freeBlocks cid) := .of_eq rfl rfl rfl

theorem State.zeroFlows_keepsPages (s : State) (cid : Nat) : KeepsPages s (s.zeroFlows cid) := .of_eq rfl rfl rfl

theorem State.setPurge_keepsPages (s : State) (l : List Nat) : KeepsPages s { s with purge := l } := .of_eq rfl rfl rfl

/-- The destruction of an idle context scrubs and frees its pages. -/
theorem State.destroy_of_idle {s : State} {cid : Nat} (hg : s.groupsOf cid = [])
    (hw : ∀ p ∈ s.parts, ∀ w ∈ p.2.switched, w.group.cid ≠ cid) (h : NoThreadOn s cid)
    (hs : ∀ o ∈ s.own, o.2.owner = cid → o.2.state ≠ .sharedClear) (hp : ∀ n, (s.stove n).posted = []) :
    (s.destroy cid).own = (s.pagesOf cid).foldl freeOwn s.own ∧
      (s.destroy cid).mem = (s.pagesOf cid).foldl (fun m p => Memory.clear m (p * 4096) 4096) s.mem := by
  unfold State.destroy
  extract_lets s1 s2 s3 s4
  have h2 : KeepsPages s s2 := (State.stopCtx_of_idle hg hw h).trans (.of_eq rfl rfl rfl)
  obtain ⟨ho, hm⟩ := State.freeAllPages_of_private (s := s2) (cid := cid) (by rwa [h2.own]) (h2.posted hp)
  have h5 : KeepsPages (s2.freeAllPages cid) { s4 with purge := s4.purge ++ [cid] } :=
    (((State.freeBlocks_keepsPages _ cid).trans (State.zeroFlows_keepsPages _ cid)).trans (s3.modCtx_keepsPages cid _)).trans
      (s4.setPurge_keepsPages _)
  have e : s2.pagesOf cid = s.pagesOf cid := by unfold State.pagesOf; rw [h2.own]
  exact ⟨h5.own.trans (by rw [ho, e, h2.own]), h5.mem.trans (by rw [hm, e, h2.mem])⟩

/-- A page of a destroyed idle context is FREE with its VERSION one higher, and reads as zero. -/
theorem page_of_destroyed {s t : State} {cid p : Nat} {o : Own} (ht : t.own = (s.pagesOf cid).foldl freeOwn s.own)
    (hm : t.mem = (s.pagesOf cid).foldl (fun m p => Memory.clear m (p * 4096) 4096) s.mem) (hs : Tab.sorted s.own = true)
    (hp : Tab.get? s.own p = some o) (ho : o.owner = cid) (hf : o.state ≠ .free) :
    Tab.get? t.own p = some { owner := 0, state := .free, version := o.version + 1 } ∧
      ∀ n < 4096, Memory.byte t.mem (4096 * p + n) = 0 := by
  have hmem : p ∈ s.pagesOf cid :=
    List.mem_map.2 ⟨(p, o), List.mem_filter.2 ⟨Tab.mem_of_get? hp, by simp [ho, hf]⟩, rfl⟩
  have hnd : (s.pagesOf cid).Nodup := Tab.keys_nodup_of_sorted (Tab.sorted_filter _ _ hs)
  refine ⟨?_, fun n hn => ?_⟩
  · rw [ht, get?_foldl_freeOwn hnd _ hmem, Tab.getD, hp]
    rfl
  · rw [hm]
    exact byte_foldl_clear s.mem hn hmem

theorem State.posted_of_noneBuffered {s : State} (h : NoneBuffered s) (n : Nat) : (s.stove n).posted = [] := by
  unfold State.stove Tab.getD
  cases e : Tab.get? s.stoves n with
  | none => rfl
  | some st => exact (h _ (Tab.mem_of_get? e)).1

theorem State.heldShared_of_none {s : State} {cid : Nat} (h : ∀ o ∈ s.own, o.2.owner = cid → o.2.state ≠ .sharedClear) :
    s.heldShared cid = false := by
  unfold State.heldShared
  rw [State.sharedPages_of_none h]
  simp [State.buffered]

section
variable {x : RArgs} {s : State} {h : Nat} (hc : s.core = some h) (hm : (s.hart h).mode = .m ∨ (s.hart h).mode = .hs)
variable {c : Context} (hn : s.ctx? ((s.hart h).reg x.rs1).toNat = some c) (hb : ((s.hart h).reg x.rs2).toNat ≤ 2)
include hc hm hn hb

/-- DESTROY ends an idle context. -/
theorem destroy_destroys (ht : c.threads = []) (hd : c.state ≠ .destroyed) (hs : c.sealing ≠ .going)
    (hg : ∀ st ∈ s.stoves, ∀ g ∈ st.2.groups, g.2.cid ≠ ((s.hart h).reg x.rs1).toNat)
    (hw : ∀ p ∈ s.parts, ∀ w ∈ p.2.switched, w.group.cid ≠ ((s.hart h).reg x.rs1).toNat)
    (hq : NoneBuffered s) (ho : Tab.sorted s.own = true)
    (hsc : ∀ o ∈ s.own, o.2.owner = ((s.hart h).reg x.rs1).toNat → o.2.state ≠ .sharedClear) :
    ∃ t c', exec (.encsealDestroy x) s = .next t ∧ Retires s t h x.rd 0 ∧ t.ctx? ((s.hart h).reg x.rs1).toNat = some c' ∧
      c'.state = .destroyed ∧ c'.keyed = false ∧ ((s.hart h).reg x.rs1).toNat ∈ t.purge ∧
      ∀ p o, Tab.get? s.own p = some o → o.owner = ((s.hart h).reg x.rs1).toNat → o.state ≠ .free →
        Tab.get? t.own p = some { owner := 0, state := .free, version := o.version + 1 } ∧
        ∀ n < 4096, Memory.byte t.mem (4096 * p + n) = 0 := by
  generalize ecid : ((s.hart h).reg x.rs1).toNat = cid at hn hg hw hsc ⊢
  have hnt : NoThreadOn s cid := fun d hd => by cases hn.symm.trans hd; simp [ht]
  have hx : exec (.encsealDestroy x) s = .next ((s.destroy cid).retireHart h x.rd (encStatus 0)) := by
    show execEncsealDestroy x s = _
    rw [execEncsealDestroy, onHostHart_eq hc hm]
    dsimp only
    rw [ecid, hn]
    simp only [hd, hs, Nat.not_lt.2 hb, State.heldShared_of_none hsc, if_false, decide_false, Bool.and_false, Bool.false_eq_true]
  obtain ⟨hk, c', hc', hst, hkey⟩ := State.destroy_keeps hn hnt
  have hpu := s.destroy_purge cid
  obtain ⟨hown, hmem⟩ := State.destroy_of_idle (State.groupsOf_of_idle hg) hw hnt hsc (State.posted_of_noneBuffered hq)
  generalize s.destroy cid = u at hx hk hc' hpu hown hmem
  exact ⟨_, c', hx, retires_retireHart (hk.pc h) (hk.regs h) x.rd _, hc', hst, hkey, hpu,
    fun p o hp hoc hf => page_of_destroyed (t := u.retireHart h x.rd (encStatus 0)) hown ((u.retireHart_mem ..).trans hmem) ho hp hoc hf⟩

end

/-- Settles O40: the clauses are the lemmas above, one by one. -/
theorem contextLifecycle : Obligations.ContextLifecycle := by
  intro x s h hc
  dsimp only
  refine ⟨fun hmode => ?_, fun cid n c hi hctx => ?_, fun hi => ?_⟩
  · have hm : (s.hart h).mode = .m ∨ (s.hart h).mode = .hs := hmode
    refine ⟨fun hn => ⟨encin_noContext hc hm hn, fun _ hi => encseal_noContext hc hm hn hi⟩, encnew_early hc hm,
      encnew_misaligned hc hm, ?_, ?_, ?_, ?_, ?_⟩
    · intro cid c it s1 hs ht hb hctx hbytes hitem
      have he := encnew_building hc hm hs ht hb
      rw [(((buildOn_cases h x.rd hctx).2 it hbytes).2.2 s1 hitem)] at he
      refine ⟨fun hne => by rwa [if_neg hne] at he, fun c1 hlast hc1 hr hh => ?_⟩
      rw [if_pos hlast] at he
      exact encnew_completes he hc1 hr hh
    · intro cid c hs ht hb hctx hq
      have he := encnew_building hc hm hs ht hb
      obtain ⟨hnone, hsome⟩ := buildOn_cases h x.rd hctx
      refine ⟨fun hbytes => encnew_destroys (by rw [he, hnone hbytes]) hctx hq, fun it hbytes => ?_⟩
      obtain ⟨hbad, hmem, -⟩ := hsome it hbytes
      exact ⟨fun hi => encnew_destroys (by rw [he, hbad hi]) hctx hq, fun hi => encnew_destroys (by rw [he, hmem hi]) hctx hq⟩
    · intro c th hn
      refine ⟨fun h1 h2 => ?_, encin_acting hc hm hn, fun ha he => ?_⟩
      · exact encin_notEligible hc hm hn (by simp [Context.eligible, h1, h2])
      · have he := c.eligible_iff.2 he
        refine ⟨encin_noThread hc hm hn he ha, encin_inUse hc hm hn he ha, encin_badImage hc hm hn he ha, fun ht hu hb => ?_⟩
        refine ⟨_, _, encin_enters hc hm hn he ha ht hu hb, rfl, ?_, (State.ctx?_setCtx ..).trans (if_pos rfl), rfl,
          Tab.get?_put_same .., fun n hne => ?_⟩
        · exact (State.setCtx_hart ..).trans ((State.hart_setHart ..).trans (if_pos rfl))
        · exact (State.setCtx_hart ..).trans ((State.hart_setHart ..).trans (if_neg hne))
    · intro c hn
      exact ⟨fun hf => ⟨seal_faulted hc hm hn hf, unseal_faulted hc hm hn hf⟩, fun hb =>
        ⟨fun hf => ⟨seal_badOperation hc hm hn hb hf, unseal_badOperation hc hm hn hb hf⟩, destroy_badOperation hc hm hn hb⟩⟩
    · intro c hn hb ht
      refine ⟨fun h1 h2 => seal_badState hc hm hn hb (by simp [Context.eligible, h1, h2]), unseal_badState hc hm hn hb,
        destroy_badState hc hm hn hb, fun he => seal_waits hc hm hn hb (c.eligible_iff.2 he),
        fun he => destroy_waits hc hm hn hb (c.eligible_iff.2 he), fun he hr hs hidle hp => ?_, unseal_badImage hc hm hn hb,
        fun hs hi => ?_, fun hd hs hidle hq ho hsc => ?_⟩
      · obtain ⟨t, v, g, hx, hret, hmem, hctx⟩ := seal_suspends hc hm hn hb ht (c.eligible_iff.2 he) hr hs
          (fun st hst => (hidle.1 st hst).1) (fun st hst => (hidle.1 st hst).2) hp
        refine ⟨t, _, hx, hret, hmem, hctx, rfl, rfl, fun q u hu => ?_, fun r p hr => ?_⟩
        · exact (Tab.get?_mapVals sealQueue ..).trans (by rw [hu]; rfl)
        · exact (Tab.get?_mapVals sealPeer ..).trans (by rw [hr]; rfl)
      · obtain ⟨t, c', hx, hret, hmem, hctx, hst, hep, hqs, hro⟩ := unseal_readies hc hm hn hb hs hi
        refine ⟨t, c', hx, hret, hmem, hctx, hst, hep, fun q u hu => ⟨_, ?_, unsealQueue_state s.stamp u⟩, fun r p hr => ?_⟩
        · rw [hqs]
          exact (Tab.get?_mapVals (unsealQueue s.stamp) ..).trans (by rw [hu]; rfl)
        · rw [hro]
          refine (Tab.get?_mapVals (keyPeer _) ..).trans ?_
          simp [hr, keyPeer]
      · exact destroy_destroys hc hm hn hb ht hd hs (fun st hst => (hidle.1 st hst).1) (fun p hp => (hidle.2 p hp).1) hq ho hsc
  · exact ⟨encout_leaves hc hi hctx, ⟨_, rfl, threadLeaves_leaveThread hi hctx _ _⟩, ⟨_, rfl, threadLeaves_leaveThread hi hctx _ _⟩⟩
  · exact ⟨congrArg Host.Outcome.next (leaveThread_outside hi ..), congrArg Host.Outcome.next (leaveThread_outside hi ..)⟩

end Sys2Proof.Machine
end

section
/-! PROOF of O51: every reset of the package starts it anew (01 R21, 22 R441, R444, R447, R449, R450).

Every reset is `State.restart`. What it forgets, what outlasts it and which request of test mode it carries out is said of it once
(`Restarted`); the events are then told apart by what they answer. -/

namespace Sys2Proof.Machine

/-- The state after a reset that answers `out`: at stage 1 again with nothing built, loaded or keyed; the monotonic store, the firmware
generation loaded last and the answers outlast it, and an accepted request of test mode takes effect. -/
def Restarted (s : State) (out : List Reply) (t : State) : Prop :=
  t.stage = 0 ∧ t.halted = false ∧ t.ctxs = [] ∧ t.parts = [] ∧
  t.stoves = [] ∧ t.llc = [] ∧ t.side = [] ∧ t.flows = [] ∧ t.counts = [] ∧ t.hearths = [] ∧ t.dies = [] ∧ t.own = [] ∧ t.remap = [] ∧
  t.harts = [] ∧ t.ports = [] ∧ t.spdm = [] ∧ t.tdisp = [] ∧ t.hosts = [] ∧
  t.fw = { gen := s.fw.gen, measurement := s.fw.measurement } ∧ t.testPending = false ∧ t.rot.trusted = false ∧
  t.rot.monoLeaf = s.rot.monoLeaf ∧ t.rot.monoVersion = s.rot.monoVersion ∧ t.rot.image = s.rot.image ∧
  t.testMode = s.testPending ∧ t.outbox = s.outbox ++ out

theorem State.restart_restarted (s : State) : Restarted s [] s.restart := by
  simp [Restarted, State.restart, State.reset]

/-- An answer given just before the reset outlasts it and changes nothing else of it. -/
theorem State.say_restart_restarted (s : State) (r : Reply) : Restarted s [r] (s.say r).restart := by
  simpa [Restarted, State.say] using (s.say r).restart_restarted

theorem packageReset_restarts (s : State) : ∃ t, exec .packageReset s = .next t ∧ Restarted s [] t := ⟨_, rfl, s.restart_restarted⟩

theorem lockstepMismatch_restarts (s : State) : ∃ t, exec .lockstepMismatch s = .next t ∧ Restarted s [] t :=
  ⟨_, rfl, s.restart_restarted⟩

theorem thermalTrip_restarts (s : State) : ∃ t, exec .thermalTrip s = .next t ∧ Restarted s [.trip] t :=
  ⟨_, rfl, s.say_restart_restarted .trip⟩

theorem recoveryTimeout_restarts {s : State} (hf : s.fw.frozen = true) (ha : 2 ^ 32 ≤ s.fw.recoverAge) :
    ∃ t, exec .recoveryTimeout s = .next t ∧ Restarted s [] t :=
  ⟨_, if_pos (by rw [hf, decide_eq_true ha]; rfl), s.restart_restarted⟩

theorem recoveryTimeout_notDue {s : State} (h : s.fw.frozen = false ∨ s.fw.recoverAge < 2 ^ 32) : exec .recoveryTimeout s = .next s := by
  refine if_neg fun due => ?_
  rw [Bool.and_eq_true, decide_eq_true_eq] at due
  rcases h with h | h
  · exact absurd due.1 (by simp [h])
  · omega

theorem testmode_unmanaged {s : State} (h : s.stage < 2) (sig : List Byte) : exec (.testmode sig) s = .next s := by
  show execTestmode sig s = _
  simp [execTestmode, State.managed, h]

theorem testmode_managed {s : State} (h : 2 ≤ s.stage) (sig : List Byte) :
    exec (.testmode sig) s = .next (if Config.testmodeVerify sig = true then { s with testPending := true } else s.say .refused) := by
  show execTestmode sig s = _
  unfold execTestmode State.managed
  rw [decide_eq_true h, Bool.not_true, if_neg Bool.false_ne_true]
  split <;> rfl

/-- Settles O51: every reset is the one restart, and a request of test mode is taken from stage 2 on. -/
theorem packageResetResults : Obligations.PackageResetResults := fun s =>
  ⟨packageReset_restarts s, thermalTrip_restarts s, lockstepMismatch_restarts s, recoveryTimeout_restarts, recoveryTimeout_notDue,
    fun sig => ⟨fun h => testmode_unmanaged h sig, fun h => ⟨_, testmode_managed h sig, rfl⟩⟩⟩

end Sys2Proof.Machine
end

section
/-! PROOF of O50: the clocks of hearths (01 R16, R19, R21, 21 R437).

Every event gives hearths new limits and lets each take the clock that it is then to have (`Reclocked`); the rest of the machine and the
other hearths stay (`KeepsOthers`). The victim of a power step is found by two searches of one shape, said once in `foldl_lastLeast`. -/

namespace Sys2Proof.Machine

/-! ### What the events do to a hearth, and to all else -/

/-- Hearth `n`, changed to `h`, takes the clock that it is to have: a lowering at once, a raise when the voltage has settled. -/
def Reclocked (s t : State) (n : Nat) (h : Hearth) : Prop :=
  if h.wanted ≤ (s.hearth n).clock then t.hearth n = { h with clock := h.wanted, raisePending := false }
  else t.hearth n = { h with raisePending := true }

/-- Only the hearths of a set have changed, and nothing that the other parts of the machine see. -/
def KeepsOthers (s t : State) (which : Nat → Prop) : Prop :=
  (∀ n, ¬which n → t.hearth n = s.hearth n) ∧ t.mem = s.mem ∧ t.stoves = s.stoves ∧ t.parts = s.parts ∧ t.outbox = s.outbox

theorem reclocked_of_hearth {s t : State} {n : Nat} {h : Hearth} (e : t.hearth n = h.reclock) (hc : h.clock = (s.hearth n).clock) :
    Reclocked s t n h := by
  unfold Reclocked
  rw [e, Hearth.reclock, ← hc]
  split <;> rfl

theorem keepsOthers_setHearth (s : State) (n : Nat) (h : Hearth) : KeepsOthers s (s.setHearth n h) (· = n) :=
  ⟨fun _ hk => (State.hearth_setHearth ..).trans (if_neg hk), rfl, rfl, rfl, rfl⟩

theorem reclocked_setHearth {s : State} {n : Nat} {h : Hearth} (hc : h.clock = (s.hearth n).clock) :
    Reclocked s (s.setHearth n h.reclock) n h :=
  reclocked_of_hearth ((State.hearth_setHearth ..).trans (if_pos rfl)) hc

/-- What is noted of a die, and of the power steps taken, is no hearth's. -/
theorem Reclocked.setDie {s t : State} {n : Nat} {h : Hearth} (r : Reclocked s t n h) (d : Nat) (x : Die) :
    Reclocked s (t.setDie d x) n h := r
theorem KeepsOthers.setDie {s t : State} {which : Nat → Prop} (k : KeepsOthers s t which) (d : Nat) (x : Die) :
    KeepsOthers s (t.setDie d x) which := k
theorem Reclocked.notes {s t : State} {n : Nat} {h : Hearth} (r : Reclocked s t n h) (steps : List Nat) :
    Reclocked s { t with powerSteps := steps } n h := r
theorem KeepsOthers.notes {s t : State} {which : Nat → Prop} (k : KeepsOthers s t which) (steps : List Nat) :
    KeepsOthers s { t with powerSteps := steps } which := k

/-! ### SETCLK and the voltage -/

theorem setclk_refused {s : State} {part hearth mhz : Nat}
    (h : ((s.part? part).bind fun p => p.hearths[hearth]?) = none ∨ mhz % 50 ≠ 0 ∨ mhz < 500 ∨ 1500 < mhz) :
    exec (.setclk part hearth mhz) s = .next (s.say .refused) := by
  show execSetclk part hearth mhz s = _
  unfold execSetclk
  split
  · rfl
  · next e => exact if_pos (by simpa [e, or_assoc] using h)

theorem setclk_taken {s : State} {part hearth mhz h : Nat} (ht : ((s.part? part).bind fun p => p.hearths[hearth]?) = some h)
    (h50 : mhz % 50 = 0) (hlo : 500 ≤ mhz) (hhi : mhz ≤ 1500) :
    ∃ t, exec (.setclk part hearth mhz) s = .next t ∧ KeepsOthers s t (· = h) ∧ Reclocked s t h { s.hearth h with target := mhz } := by
  refine ⟨s.setHearth h { s.hearth h with target := mhz }.reclock, ?_, keepsOthers_setHearth .., reclocked_setHearth (by rfl)⟩
  show execSetclk part hearth mhz s = _
  unfold execSetclk
  rw [ht]
  exact if_neg (by simp; omega)

theorem voltageSettled_idle {s : State} {h : Nat} (hp : (s.hearth h).raisePending = false) :
    exec (.hearthVoltageSettled h) s = .next s := by
  show execHearthVoltageSettled h s = _
  simp [execHearthVoltageSettled, hp]

theorem voltageSettled_raises {s : State} {h : Nat} (hp : (s.hearth h).raisePending = true) :
    exec (.hearthVoltageSettled h) s =
      .next (s.setHearth h { s.hearth h with clock := (s.hearth h).wanted, raisePending := false }) := by
  show execHearthVoltageSettled h s = _
  simp [execHearthVoltageSettled, hp]

/-! ### The victim of a power step (01 R19) -/

theorem getElem?_concat_cases {α : Type} {l : List α} {x a : α} {k : Nat} (h : (l ++ [x])[k]? = some a) :
    l[k]? = some a ∨ (k = l.length ∧ a = x) := by
  rcases Nat.lt_or_ge k l.length with hlt | hge
  · exact .inl (by rwa [List.getElem?_append_left hlt] at h)
  · rw [List.getElem?_append_right hge, List.getElem?_singleton] at h
    split at h
    · exact .inr ⟨by omega, (Option.some.inj h).symm⟩
    · cases h

/-- A search that keeps the element of least key, and among equal keys the later one, ends at such an element of the list. -/
theorem foldl_lastLeast {α β κ : Type} [LinearOrder κ] {g : α → β} {key : β → κ} {f : Option β → α → Option β}
    (hnone : ∀ a, f none a = some (g a)) (hsome : ∀ b a, f (some b) a = if key (g a) ≤ key b then some (g a) else some b)
    (l : List α) (hl : l ≠ []) :
    ∃ j a, l[j]? = some a ∧ l.foldl f none = some (g a) ∧
      ∀ (k : Nat) (a' : α), l[k]? = some a' → key (g a) < key (g a') ∨ (key (g a) = key (g a') ∧ k ≤ j) := by
  induction l using List.reverseRecOn with
  | nil => exact absurd rfl hl
  | append_singleton l x ih =>
    rw [List.foldl_append, List.foldl_cons, List.foldl_nil]
    rcases eq_or_ne l [] with rfl | hne
    · refine ⟨0, x, rfl, hnone x, fun k a' hk => ?_⟩
      rcases getElem?_concat_cases hk with hk | ⟨hk0, rfl⟩
      · cases hk
      · exact .inr ⟨rfl, hk0.le⟩
    · obtain ⟨j, a, hj, hfold, hleast⟩ := ih hne
      rw [hfold, hsome]
      have hlt : ∀ {k : Nat} {a' : α}, l[k]? = some a' → k < l.length := fun hk => (List.getElem?_eq_some_iff.1 hk).1
      split
      · next hle =>
        refine ⟨l.length, x, List.getElem?_concat_length, rfl, fun k a' hk => ?_⟩
        rcases getElem?_concat_cases hk with hk | ⟨rfl, rfl⟩
        · have : key (g a) ≤ key (g a') := (hleast k a' hk).elim le_of_lt fun h => h.1.le
          exact (hle.trans this).lt_or_eq.imp_right fun h => ⟨h, (hlt hk).le⟩
        · exact .inr ⟨rfl, le_rfl⟩
      · next hle =>
        refine ⟨j, a, by rwa [List.getElem?_append_left (hlt hj)], rfl, fun k a' hk => ?_⟩
        rcases getElem?_concat_cases hk with hk | ⟨rfl, rfl⟩
        · exact hleast k a' hk
        · exact .inl (not_le.1 hle)

/-- A partition holds a hearth above 500 MHz. -/
def State.holdsFast (s : State) (p : Partition) : Prop := ∃ h ∈ p.hearths, 500 < (s.hearth h).clock

/-- The partitions that hold a hearth above 500 MHz. -/
def State.fastParts (s : State) : List (Nat × Partition) := s.parts.filter fun x => x.2.hearths.any fun h => 500 < (s.hearth h).clock

theorem State.mem_fastParts {s : State} {x : Nat × Partition} : x ∈ s.fastParts ↔ x ∈ s.parts ∧ s.holdsFast x.2 := by
  simp [State.fastParts, State.holdsFast]

/-- The search for the partition with the least share. -/
def leastShare (m : Option Partition) (x : Nat × Partition) : Option Partition :=
  match m with
  | none => some x.2
  | some p => if x.2.share ≤ p.share then some x.2 else m

/-- The search for the hearth with the highest clock. -/
def State.fastest (s : State) (m : Option Nat) (h : Nat) : Option Nat :=
  match m with
  | none => some h
  | some o => if (s.hearth o).clock ≤ (s.hearth h).clock then some h else m

theorem State.powerVictim_eq (s : State) :
    s.powerVictim = (s.fastParts.foldl leastShare none).bind fun p => p.hearths.foldl s.fastest none := by
  show (match s.fastParts.foldl leastShare none with
    | none => none
    | some p => p.hearths.foldl s.fastest none) = _
  cases s.fastParts.foldl leastShare none <;> rfl

theorem State.powerVictim_none {s : State} (h : ∀ x ∈ s.parts, ¬s.holdsFast x.2) : s.powerVictim = none := by
  have : s.fastParts = [] := List.eq_nil_iff_forall_not_mem.2 fun x hx => h x (mem_fastParts.1 hx).1 (mem_fastParts.1 hx).2
  rw [powerVictim_eq, this]
  rfl

theorem Tab.pairwise_of_sorted {α : Type} {t : Tab α} (h : Tab.sorted t = true) : t.Pairwise fun x y => x.1 < y.1 := by
  induction t with
  | nil => exact .nil
  | cons p t ih =>
    obtain ⟨hab, hs⟩ := (Tab.sorted_cons p.1 p.2 t).1 h
    exact List.pairwise_cons.2 ⟨hab, ih hs⟩

/-- A later entry of a sorted table has the higher key. -/
theorem Tab.key_le_of_sorted {α : Type} {t : Tab α} (h : Tab.sorted t = true) {i j : Nat} {x y : Nat × α} (hi : t[i]? = some x)
    (hj : t[j]? = some y) (hij : i ≤ j) : x.1 ≤ y.1 := by
  obtain ⟨hi', rfl⟩ := List.getElem?_eq_some_iff.1 hi
  obtain ⟨hj', rfl⟩ := List.getElem?_eq_some_iff.1 hj
  rcases hij.lt_or_eq with hlt | rfl
  · exact (List.pairwise_iff_getElem.1 (Tab.pairwise_of_sorted h) i j hi' hj' hlt).le
  · exact le_rfl

/-- The victim is the fastest hearth of the partition with the least share among those with a hearth above 500 MHz; on ties the later
hearth, and the partition of the higher number. -/
theorem State.powerVictim_some {s : State} (hs : Tab.sorted s.parts = true) (hx : ∃ x ∈ s.parts, s.holdsFast x.2) :
    ∃ (x : Nat × Partition) (h j : Nat), s.powerVictim = some h ∧ x ∈ s.parts ∧ s.holdsFast x.2 ∧ x.2.hearths[j]? = some h ∧
      (∀ y ∈ s.parts, s.holdsFast y.2 → x.2.share < y.2.share ∨ (x.2.share = y.2.share ∧ y.1 ≤ x.1)) ∧
      ∀ (k h' : Nat), x.2.hearths[k]? = some h' →
        (s.hearth h').clock < (s.hearth h).clock ∨ ((s.hearth h').clock = (s.hearth h).clock ∧ k ≤ j) := by
  obtain ⟨x0, hx0⟩ := hx
  obtain ⟨i, x, hi, hfold, hleast⟩ := foldl_lastLeast (g := Prod.snd) (key := Partition.share) (f := leastShare) (fun _ => rfl)
    (fun _ _ => rfl) s.fastParts (List.ne_nil_of_mem (mem_fastParts.2 hx0))
  obtain ⟨hmem, hfast⟩ := mem_fastParts.1 (List.mem_of_getElem? hi)
  have hne : x.2.hearths ≠ [] := fun e => by simp [State.holdsFast, e] at hfast
  obtain ⟨j, h, hj, hfold', hbest⟩ := foldl_lastLeast (g := id) (key := fun h => -((s.hearth h).clock : Int)) (f := s.fastest)
    (fun _ => rfl) (fun b a => by simp [State.fastest]) x.2.hearths hne
  refine ⟨x, h, j, ?_, hmem, hfast, hj, fun y hy hyf => ?_, fun k h' hk => ?_⟩
  · rw [powerVictim_eq, hfold]
    exact hfold'
  · obtain ⟨k, hk⟩ := List.mem_iff_getElem?.1 (mem_fastParts.2 ⟨hy, hyf⟩)
    exact (hleast k y hk).imp_right fun ⟨e, hkj⟩ => ⟨e, Tab.key_le_of_sorted (Tab.sorted_filter _ _ hs) hk hi hkj⟩
  · have := hbest k h' hk
    simp only [id] at this
    omega

theorem powerExcess_none {s : State} (h : ∀ x ∈ s.parts, ¬s.holdsFast x.2) : exec .powerExcessPredicted s = .next s := by
  show execPowerExcessPredicted s = _
  rw [execPowerExcessPredicted, State.powerVictim_none h]

theorem powerExcess_lowers {s : State} {h : Nat} (hv : s.powerVictim = some h) :
    ∃ t, exec .powerExcessPredicted s = .next t ∧ t.powerSteps = h :: s.powerSteps ∧ KeepsOthers s t (· = h) ∧
      Reclocked s t h { s.hearth h with powerCap := (s.hearth h).clock - 50 } := by
  refine ⟨_, ?_, rfl, (keepsOthers_setHearth ..).notes _, (reclocked_setHearth (by rfl)).notes _⟩
  show execPowerExcessPredicted s = _
  rw [execPowerExcessPredicted, hv]

/-! ### Recovery of a power step (01 R19) -/

theorem powerRecovery_none {s : State} (h : s.powerSteps = []) : exec .powerRecoveryStep s = .next s := by
  show execPowerRecoveryStep s = _
  rw [execPowerRecoveryStep, h]

theorem powerRecovery_step {s : State} {h : Nat} {rest : List Nat} (hp : s.powerSteps = h :: rest) :
    let cap := (s.hearth h).powerCap + 50
    let more := h ∉ rest ∧ cap < (s.hearth h).target
    ∃ t, exec .powerRecoveryStep s = .next t ∧ t.powerSteps = (if more then rest ++ [h] else rest) ∧ KeepsOthers s t (· = h) ∧
      Reclocked s t h { s.hearth h with powerCap := if h ∈ rest ∨ more then cap else 1500 } := by
  intro cap more
  refine ⟨{ s.setHearth h { s.hearth h with powerCap := if h ∈ rest ∨ more then cap else 1500 }.reclock with
    powerSteps := if more then rest ++ [h] else rest }, ?_, rfl, (keepsOthers_setHearth ..).notes _, (reclocked_setHearth (by rfl)).notes _⟩
  show execPowerRecoveryStep s = _
  rw [execPowerRecoveryStep, hp]
  simp [cap, more]

/-! ### Heat (01 R21) -/

/-- A change of the hearths of a die changes each of them once and no other. -/
theorem State.hearth_modDie (s : State) (d : Nat) (k : Hearth → Hearth) (n : Nat) :
    (s.modDie d k).hearth n = if n / 8 = d then k (s.hearth n) else s.hearth n := by
  have first : ∀ m n, ((List.range m).foldl (fun s j => s.setHearth (8 * d + j) (k (s.hearth (8 * d + j)))) s).hearth n =
      if 8 * d ≤ n ∧ n < 8 * d + m then k (s.hearth n) else s.hearth n := by
    intro m
    induction m with
    | zero => exact fun n => (if_neg (by omega)).symm
    | succ m ih =>
      intro n
      rw [List.range_succ, List.foldl_append, List.foldl_cons, List.foldl_nil, State.hearth_setHearth, ih, ih]
      by_cases hn : n = 8 * d + m
      · rw [if_pos hn, if_neg (by omega), if_pos (by omega), hn]
      · rw [if_neg hn]
        exact if_congr (by omega) rfl rfl
  rw [State.modDie, first]
  exact if_congr (by omega) rfl rfl

theorem State.modDie_eq_hearths (s : State) (d : Nat) (k : Hearth → Hearth) : ∃ hs, s.modDie d k = { s with hearths := hs } := by
  unfold State.modDie
  generalize List.range 8 = js
  induction js generalizing s with
  | nil => exact ⟨_, rfl⟩
  | cons j js ih => exact ih (s.setHearth _ _)

/-- A change of the hearths of a die is no change elsewhere. -/
theorem keepsOthers_modDie (s : State) (d : Nat) (k : Hearth → Hearth) : KeepsOthers s (s.modDie d k) (fun n => n / 8 = d) := by
  refine ⟨fun n hn => (State.hearth_modDie ..).trans (if_neg hn), ?_⟩
  obtain ⟨hs, e⟩ := s.modDie_eq_hearths d k
  rw [e]
  exact ⟨rfl, rfl, rfl, rfl⟩

/-- Every hearth of a die has new limits and takes its clock. -/
theorem reclocked_modDie (s : State) (d : Nat) {k : Hearth → Hearth} (hk : ∀ h, (k h).clock = h.clock) {j : Nat} (hj : j < 8) :
    Reclocked s (s.modDie d fun h => (k h).reclock) (8 * d + j) (k (s.hearth (8 * d + j))) :=
  reclocked_of_hearth ((State.hearth_modDie ..).trans (if_pos (by omega))) (hk _)

/-- A hearth that heat holds at 500 MHz (01 R21). -/
def Hearth.hot (h : Hearth) : Hearth := { h with thermalCap := 500 }

theorem junctionOvertemp_holds (s : State) (d : Nat) :
    ∃ t, exec (.junctionOvertemp d) s = .next t ∧ (t.die d).hot = true ∧ KeepsOthers s t (fun n => n / 8 = d) ∧
      ∀ j < 8, Reclocked s t (8 * d + j) (s.hearth (8 * d + j)).hot :=
  ⟨(s.modDie d fun h => h.hot.reclock).setDie d { (s.modDie d fun h => h.hot.reclock).die d with hot := true }, rfl,
    by rw [State.die_setDie, if_pos rfl], (keepsOthers_modDie ..).setDie ..,
    fun _ hj => (reclocked_modDie s d (k := Hearth.hot) (fun _ => rfl) hj).setDie ..⟩

/-- A hearth with the thermal limit one step higher (01 R21). -/
def Hearth.cooler (h : Hearth) : Hearth := { h with thermalCap := min 1500 (h.thermalCap + 50) }

theorem Hearth.reclock_thermalCap (h : Hearth) : h.reclock.thermalCap = h.thermalCap := by
  unfold Hearth.reclock
  split <;> rfl

theorem thermalReturn_cold {s : State} {d : Nat} (hd : (s.die d).hot = false) : exec (.thermalReturnStep d) s = .next s := by
  show execThermalReturnStep d s = _
  simp [execThermalReturnStep, hd]

/-- Every hearth of the die has its full clock back exactly when none lacked more than the one step. -/
theorem allCool_iff (s : State) (d : Nat) :
    ((List.range 8).all fun j => 1500 ≤ ((s.modDie d fun h => h.cooler.reclock).hearth (8 * d + j)).thermalCap) = true ↔
      ∀ j < 8, 1450 ≤ (s.hearth (8 * d + j)).thermalCap := by
  simp only [List.all_eq_true, List.mem_range, decide_eq_true_eq]
  refine forall₂_congr fun j hj => ?_
  rw [State.hearth_modDie, if_pos (by omega), Hearth.reclock_thermalCap]
  exact le_min_iff.trans (by omega)

theorem thermalReturn_step {s : State} {d : Nat} (hd : (s.die d).hot = true) :
    ∃ t, exec (.thermalReturnStep d) s = .next t ∧ KeepsOthers s t (fun n => n / 8 = d) ∧
      (∀ j < 8, Reclocked s t (8 * d + j) (s.hearth (8 * d + j)).cooler) ∧
      ((t.die d).hot = false ↔ ∀ j < 8, 1450 ≤ (s.hearth (8 * d + j)).thermalCap) := by
  have kept := keepsOthers_modDie s d fun h => h.cooler.reclock
  have moved : ∀ j < 8, Reclocked s _ (8 * d + j) (s.hearth (8 * d + j)).cooler := fun j hj =>
    reclocked_modDie s d (k := Hearth.cooler) (fun _ => rfl) hj
  have e : exec (.thermalReturnStep d) s = if (List.range 8).all fun j =>
      1500 ≤ ((s.modDie d fun h => h.cooler.reclock).hearth (8 * d + j)).thermalCap then
      .next ((s.modDie d fun h => h.cooler.reclock).setDie d { (s.modDie d fun h => h.cooler.reclock).die d with hot := false })
      else .next (s.modDie d fun h => h.cooler.reclock) := by
    show execThermalReturnStep d s = _
    rw [execThermalReturnStep, hd]
    rfl
  rw [e]
  split
  · next hall =>
    exact ⟨_, rfl, kept.setDie .., fun j hj => (moved j hj).setDie .., by simpa [State.die_setDie] using (allCool_iff s d).1 hall⟩
  · next hall =>
    refine ⟨_, rfl, kept, moved, iff_of_false ?_ fun hc => hall ((allCool_iff s d).2 hc)⟩
    obtain ⟨hs, e⟩ := s.modDie_eq_hearths d fun h => h.cooler.reclock
    rw [e]
    exact fun hf => Bool.false_ne_true (hf.symm.trans hd)

/-- Settles O50: each event gives the hearths their limits and lets them take their clocks; the victim of a power step is that of the two
searches. -/
theorem clockEvents : Obligations.ClockEvents := by
  intro s
  dsimp only
  refine ⟨fun part hearth mhz => ⟨setclk_refused, fun h => setclk_taken⟩, fun h => ⟨voltageSettled_idle, fun hp => ?_⟩,
    ⟨powerExcess_none, fun hs hx => ?_⟩, powerRecovery_none, fun h rest => powerRecovery_step, junctionOvertemp_holds s,
    fun d => ⟨thermalReturn_cold, thermalReturn_step⟩⟩
  · exact ⟨_, voltageSettled_raises hp, keepsOthers_setHearth .., (State.hearth_setHearth ..).trans (if_pos rfl)⟩
  · obtain ⟨x, h, i, hv, hmem, hfast, hi, hleast, hbest⟩ := State.powerVictim_some hs hx
    obtain ⟨t, ht, hafter⟩ := powerExcess_lowers hv
    refine ⟨t, x, h, ht, hmem, List.mem_of_getElem? hi, fun y hy hyf => ?_, hfast, fun j k h' _ hk huniq => ?_, hafter⟩
    · simpa [Partition.share] using hleast y hy hyf
    · exact huniq i hi ▸ hbest k h' hk

end Sys2Proof.Machine
end

section
/-! PROOF of O47: the memory operations of the application cores (01 R24, 12 R296, R298, 15 R348).

An operation first meets what holds it back: no such hart, a release that peers have not acknowledged, a FENCE before it. What runs goes to
a kick page or to memory, and there the access at its page (`State.coreAt`) lands, is refused or waits. For each operation there is one lemma
for each of these three ends. -/

namespace Sys2Proof.Machine

/-! ### What the statement speaks of -/

/-- A register of the hart has a value, x0 none, and the others are as they were. -/
def PutsHartReg (s t : State) (h : Nat) (rd : BitVec 5) (v : DWord) : Prop :=
  ∀ k, SMap.get (t.hart h).x k = if rd ≠ 0 ∧ k = rd.toNat then v else SMap.get (s.hart h).x k

/-- The operation is an exception of the hart, and nothing else comes of it. -/
def CoreRaises (s t : State) (h : Nat) : Prop :=
  t.mem = s.mem ∧ t.stoves = s.stoves ∧ (t.hart h).illegal = (s.hart h).illegal + 1 ∧ (t.hart h).x = (s.hart h).x

/-- The operation has not been made yet. -/
def CoreAwaits (s t : State) : Prop := t.mem = s.mem ∧ t.stoves = s.stoves ∧ t.harts = s.harts

/-- Bytes are written at the slice, and no L1 copy of their line stays. -/
def CoreStores (s t : State) (pa : Nat) (bs : List Byte) : Prop :=
  t.mem = Memory.write s.mem pa bs ∧ ∀ st, Tab.get? (t.stove st).l1 (pa / 128) = none

theorem Hart.get_setReg (x : Hart) (rd : BitVec 5) (v : DWord) (k : Nat) :
    SMap.get (x.setReg rd v).x k = if rd ≠ 0 ∧ k = rd.toNat then v else SMap.get x.x k := by
  unfold Hart.setReg
  split
  · next e => rw [if_neg fun a => a.1 e]
  · next e => exact (SMap.get_set ..).trans (if_congr (and_iff_right e).symm rfl rfl)

/-- The hart is put back with the register written, whatever else of it changes, after a state that has kept its registers. -/
theorem putsHartReg_setHart {s t : State} {h : Nat} (ht : (t.hart h).x = (s.hart h).x) {rd : BitVec 5} {v : DWord} {y : Hart}
    (hy : y.x = ((t.hart h).setReg rd v).x) : PutsHartReg s (t.setHart h y) h rd v := by
  intro k
  rw [State.hart_setHart, if_pos rfl, hy, Hart.get_setReg, ht]

theorem coreFault_raises (s : State) (h : Nat) : CoreRaises s (s.coreFault h) h := by
  refine ⟨rfl, rfl, ?_, ?_⟩ <;> simp [State.coreFault, State.illegalInst, State.hart_setHart]

theorem askPage_awaits (s : State) (cid : Nat) (va : DWord) : CoreAwaits s (s.askPage cid va) := by
  unfold State.askPage
  split
  · split
    · exact ⟨rfl, rfl, rfl⟩
    · exact ⟨rfl, rfl, rfl⟩
  · exact ⟨rfl, rfl, rfl⟩

theorem length_leBytes (n v : Nat) : (leBytes n v).length = n := by
  induction n generalizing v with
  | zero => rfl
  | succ n ih => simp [leBytes, ih]

theorem CoreStores.read {s t : State} {pa len v : Nat} (w : CoreStores s t pa (leBytes len v)) : Memory.read t.mem pa len = leBytes len v := by
  have h := Memory.read_write_same (leBytes len v) s.mem pa
  rwa [length_leBytes, ← w.1] at h

/-- Only the bytes of the store change, and the L1 copies of their line go. -/
theorem CoreStores.only {s t : State} {pa len v : Nat} (w : CoreStores s t pa (leBytes len v)) :
    (∀ k, k < pa ∨ pa + len ≤ k → Memory.byte t.mem k = Memory.byte s.mem k) ∧ ∀ st, Tab.get? (t.stove st).l1 (pa / 128) = none := by
  refine ⟨fun k hk => ?_, w.2⟩
  rw [w.1, Memory.byte_write, length_leBytes, if_neg (by omega)]

theorem CoreStores.setHart {s t : State} {pa : Nat} {bs : List Byte} (w : CoreStores s t pa bs) (h : Nat) (x : Hart) :
    CoreStores s (t.setHart h x) pa bs := w

theorem State.invalidateL1_l1 (s : State) (line st : Nat) : Tab.get? ((s.invalidateL1 none line).stove st).l1 line = none := by
  have e := Tab.get?_mapVals (fun x : Stove => { x with l1 := Tab.del x.l1 line }) s.stoves st
  simp only [State.stove, State.invalidateL1, reduceCtorEq, if_false, Tab.getD, e]
  cases Tab.get? s.stoves st with
  | none => rfl
  | some x => exact (Tab.get?_del ..).trans (if_pos rfl)

theorem coreWrite_stores {s : State} {pa : Nat} (hp : paKind pa = .hbm) (hb : s.bad pa = false) (cid : Nat) (bs : List Byte) :
    CoreStores s (s.coreWrite cid pa bs) pa bs := by
  unfold State.coreWrite
  rw [hp]
  exact ⟨State.applyAt_mem s cid pa bs _ _ hb, fun st => State.invalidateL1_l1 ..⟩

theorem coreWrite_keeps {s : State} {pa : Nat} (hp : paKind pa = .hbm) (cid : Nat) (bs : List Byte) :
    KeepsHarts s (s.coreWrite cid pa bs) := by
  unfold State.coreWrite
  rw [hp]
  exact (s.applyAt_keeps ..).with rfl rfl

/-! ### The access at its page -/

/-- The access is an exception: it may not be made, or reads a line that is uncorrectable. -/
def State.Refuses (s : State) (x : Hart) (va : DWord) (n : Nat) (k : Acc) : Prop := ∃ e, s.coreAt x va n k = (.cause e, s)

theorem refuses_of_cause {s : State} {x : Hart} {va : DWord} {n e : Nat} {k : Acc} (h : s.corePa x va n k = .cause e) :
    s.Refuses x va n k :=
  ⟨e, by rw [State.coreAt, h]⟩

theorem refuses_of_bad {s : State} {x : Hart} {va : DWord} {n pa : Nat} {k : Acc} (h : s.corePa x va n k = .ok pa) (hk : k ≠ .store)
    (hb : s.bad pa = true) : s.Refuses x va n k :=
  ⟨cUNCORR, by simp [State.coreAt, h, hk, hb]⟩

theorem coreAt_wait {s : State} {x : Hart} {va : DWord} {n : Nat} {k : Acc} (h : s.corePa x va n k = .wait) :
    s.coreAt x va n k = (.wait, s) := by
  rw [State.coreAt, h]

/-- The last byte of an aligned access lies on the line of the first. -/
theorem bad_last {s : State} {pa n : Nat} (hn : n ∈ [1, 2, 4, 8]) (ha : pa % n = 0) : s.bad (pa + n - 1) = s.bad pa := by
  have e : (pa + n - 1) / 128 = pa / 128 := by
    simp only [List.mem_cons, List.not_mem_nil, or_false] at hn
    rcases hn with rfl | rfl | rfl | rfl <;> omega
  simp only [State.bad, e]

theorem coreAt_lands {s : State} {x : Hart} {va : DWord} {n pa : Nat} {k : Acc} (h : s.corePa x va n k = .ok pa) (hp : paKind pa = .hbm)
    (hb : s.bad pa = false) (hn : n ∈ [1, 2, 4, 8]) (ha : pa % n = 0) : s.coreAt x va n k = (.ok pa, s) := by
  simp [State.coreAt, h, hp, bad_last hn ha, hb]

/-- An aligned access stays within its 64 bytes. -/
theorem within_of_aligned {a n : Nat} (hn : n ∈ [1, 2, 4, 8]) (ha : a % n = 0) : a % 64 + n ≤ 64 := by
  simp only [List.mem_cons, List.not_mem_nil, or_false] at hn
  rcases hn with rfl | rfl | rfl | rfl <;> omega

/-! ### What holds an operation back (12 R298) -/

theorem coreAccess_noHart {h : Nat} (hh : 16 ≤ h) (s : State) (op : CoreOp) : exec (.applicationCoreAccess h op) s = .next s := by
  show execApplicationCoreAccess h op s = _
  simp [execApplicationCoreAccess, hh]

section
variable {s : State} {h cid n : Nat} (hi : (s.hart h).inside = some (cid, n))
include hi

theorem coreAccess_afterFence (ha : s.ackDue cid = true) (hf : (s.hart h).fenced = true) (op : CoreOp) :
    exec (.applicationCoreAccess h op) s = .next s := by
  show execApplicationCoreAccess h op s = _
  simp [execApplicationCoreAccess, Hart.cid, hi, ha, hf]

variable (hh : h < 16)
include hh

theorem coreFence_waits (ha : s.ackDue cid = true) (hf : (s.hart h).fenced = false) {p q : BitVec 4}
    (hr : Sys2Proof.Machine.CoreOp.releases (.fence p q) = true) :
    exec (.applicationCoreAccess h (.fence p q)) s = .next (s.setHart h { s.hart h with fenced := true }) := by
  show execApplicationCoreAccess h _ s = _
  simp [execApplicationCoreAccess, Hart.cid, hi, ha, hf, hh, hr]

theorem coreRelease_waits (ha : s.ackDue cid = true) (hf : (s.hart h).fenced = false) {op : CoreOp}
    (hr : Sys2Proof.Machine.CoreOp.releases op = true) (hop : ∀ p q, op ≠ .fence p q) :
    exec (.applicationCoreAccess h op) s = .next s := by
  show execApplicationCoreAccess h op s = _
  simp only [execApplicationCoreAccess, Hart.cid, hi, ha, hf, hr, Nat.not_le.2 hh]
  cases op with
  | fence p q => exact absurd rfl (hop p q)
  | _ => rfl

theorem coreAccess_acknowledged (ha : s.ackDue cid = false) (op : CoreOp) :
    exec (.applicationCoreAccess h op) s =
      .next ((if (s.hart h).fenced then s.setHart h { s.hart h with fenced := false } else s).coreOp h op) := by
  show execApplicationCoreAccess h op s = _
  simp [execApplicationCoreAccess, Hart.cid, hi, ha, hh]

/-- With the writes acknowledged, the FENCE holds nothing back any more. -/
theorem coreAccess_unfences (ha : s.ackDue cid = false) (hf : (s.hart h).fenced = true) (op : CoreOp) :
    exec (.applicationCoreAccess h op) s = exec (.applicationCoreAccess h op) (s.setHart h { s.hart h with fenced := false }) := by
  have e : (s.setHart h { s.hart h with fenced := false }).hart h = { s.hart h with fenced := false } :=
    (State.hart_setHart ..).trans (if_pos rfl)
  rw [coreAccess_acknowledged hi hh ha, coreAccess_acknowledged (s := s.setHart h _) (by rw [e]; exact hi) hh ha, if_pos hf, e]
  rfl

end

/-! ### An operation that nothing holds back -/

/-- A hart that runs a thread of a context, no peer with writes to acknowledge and no FENCE before the operation. -/
structure CoreReady (s : State) (h cid n : Nat) (c : Context) : Prop where
  core : h < 16
  inside : (s.hart h).inside = some (cid, n)
  ctx : s.ctx? cid = some c
  acked : s.ackDue cid = false
  unfenced : (s.hart h).fenced = false

section
variable {s : State} {h cid n : Nat} {c : Context} (r : CoreReady s h cid n c)
include r

theorem CoreReady.runs (op : CoreOp) : exec (.applicationCoreAccess h op) s = .next (s.coreOp h op) := by
  rw [coreAccess_acknowledged r.inside r.core r.acked, r.unfenced]
  rfl

theorem CoreReady.fence (p q : BitVec 4) : exec (.applicationCoreAccess h (.fence p q)) s = .next s := by
  rw [r.runs]
  simp [State.coreOp, r.inside, Sys2Proof.Machine.CoreOp.va?]

/-! ### Kick pages (15 R348) -/

theorem CoreReady.kick {va : DWord} {q off : Nat} (hk : c.kickAt va = some (q, off)) {op : CoreOp}
    (hv : Sys2Proof.Machine.CoreOp.va? op = some va) :
    exec (.applicationCoreAccess h op) s = .next (s.kickAccess h cid q off op) := by
  rw [r.runs]
  simp [State.coreOp, r.inside, r.ctx, hv, hk]

theorem CoreReady.queue {q : Nat} {qu : Queue} (hq : Tab.get? c.queues q = some qu) : s.queue? cid q = some qu := by
  simp [State.queue?, r.ctx, hq]

end

theorem loaded_zero (sx : Bool) : loaded (leBytes 4 0) sx = 0 := by cases sx <;> decide

/-- What a load of a kick page returns: TAIL, HEAD and QSTAT have aligned offsets, and everything else reads zero. -/
theorem kickValue_eq (qu : Queue) (off len : Nat) (sx : Bool) :
    (if off % 4 = 0 then kickLoad qu off len sx else 0) =
      if len ≠ 4 then 0 else loaded (leBytes 4 (if off = 0 then qu.tail.toNat else if off = 4 then qu.head.toNat
        else if off = 12 then qu.fstatTop * 2 ^ 28 + QState.code qu.state else 0)) sx := by
  unfold kickLoad
  by_cases hl : len ≠ 4
  · simp [hl]
  rw [if_neg hl, if_neg hl]
  split
  · dsimp only
    split <;> simp_all
  · rw [if_neg (by omega), if_neg (by omega), if_neg (by omega), loaded_zero]

section
variable {s : State} {h cid n : Nat} {c : Context} (r : CoreReady s h cid n c) {va : DWord} {q off : Nat} {qu : Queue}
  (hk : c.kickAt va = some (q, off)) (hq : Tab.get? c.queues q = some qu)
include r hk hq

theorem kick_load (rd : BitVec 5) (len : Nat) (sx : Bool) :
    ∃ t, exec (.applicationCoreAccess h (.load rd va len sx)) s = .next t ∧ t.mem = s.mem ∧ t.ctxs = s.ctxs ∧ PutsHartReg s t h rd
      (if len ≠ 4 then 0 else loaded (leBytes 4 (if off = 0 then qu.tail.toNat else if off = 4 then qu.head.toNat
        else if off = 12 then qu.fstatTop * 2 ^ 28 + QState.code qu.state else 0)) sx) := by
  refine ⟨_, r.kick hk rfl, State.kickAccess_mem .., ?_, ?_⟩ <;> rw [State.kickAccess, r.queue hq]
  · rfl
  · rw [← kickValue_eq]
    exact putsHartReg_setHart rfl rfl

theorem kick_notifies (v : DWord) (ho : off = 0) :
    exec (.applicationCoreAccess h (.store va 4 v)) s = exec (.kick cid q (v.setWidth 32)) s := by
  rw [r.kick hk rfl]
  simp only [State.kickAccess, r.queue hq, ho]
  rfl

theorem kick_resets (v : DWord) (ho : off = 8) :
    exec (.applicationCoreAccess h (.store va 4 v)) s = exec (.queueReset cid q (v.setWidth 32)) s := by
  rw [r.kick hk rfl]
  simp only [State.kickAccess, r.queue hq, ho]
  rfl

theorem kick_drops (len : Nat) (v : DWord) (hd : len ≠ 4 ∨ (off ≠ 0 ∧ off ≠ 8)) :
    exec (.applicationCoreAccess h (.store va len v)) s = .next s := by
  rw [r.kick hk rfl]
  simp only [State.kickAccess, r.queue hq]
  rcases hd with hl | ⟨h0, h8⟩
  · rw [if_pos hl]
  · rw [if_neg h0, if_neg h8, ite_self]

end

/-! ### Memory (12 R296) -/

/-- What an operation does that is not on a kick page. -/
def State.coreMemory (s : State) (h : Nat) : CoreOp → State
  | .load rd va n sx => s.coreLoad h rd va n sx
  | .store va n v => s.coreStore h va n v
  | .amo rd o va n v _ _ => s.coreAmo h rd o va n v
  | .lr rd va n _ _ => s.coreLr h rd va n
  | .sc rd va n v _ _ => s.coreSc h rd va n v
  | .fence _ _ => s

section
variable {s : State} {h cid n : Nat} {c : Context} (r : CoreReady s h cid n c) {va : DWord} (hk : c.kickAt va = none)
include r hk

theorem CoreReady.memory {op : CoreOp} (hv : Sys2Proof.Machine.CoreOp.va? op = some va) :
    exec (.applicationCoreAccess h op) s = .next (s.coreMemory h op) := by
  rw [r.runs]
  cases op <;> simp [State.coreOp, State.coreMemory, r.inside, r.ctx, hv, hk]

/-! #### The access is refused -/

theorem coreLoad_raises {len : Nat} (hw : va.toNat % 64 + len ≤ 64) (hx : s.Refuses (s.hart h) va len .load) (rd : BitVec 5) (sx : Bool) :
    ∃ t, exec (.applicationCoreAccess h (.load rd va len sx)) s = .next t ∧ CoreRaises s t h := by
  obtain ⟨e, hx⟩ := hx
  refine ⟨_, r.memory hk rfl, ?_⟩
  simpa [State.coreMemory, State.coreLoad, hw, hx] using coreFault_raises s h

theorem coreStore_raises {len : Nat} (hw : va.toNat % 64 + len ≤ 64) (hx : s.Refuses (s.hart h) va len .store) (v : DWord) :
    ∃ t, exec (.applicationCoreAccess h (.store va len v)) s = .next t ∧ CoreRaises s t h := by
  obtain ⟨e, hx⟩ := hx
  refine ⟨_, r.memory hk rfl, ?_⟩
  simpa [State.coreMemory, State.coreStore, hw, hx] using coreFault_raises s h

theorem coreAmo_raises {len : Nat} (hx : va.toNat % len ≠ 0 ∨ s.Refuses (s.hart h) va len .atom) (rd : BitVec 5) (op : AmoOp) (v : DWord)
    (aq rl : Bool) : ∃ t, exec (.applicationCoreAccess h (.amo rd op va len v aq rl)) s = .next t ∧ CoreRaises s t h := by
  refine ⟨_, r.memory hk rfl, ?_⟩
  simp only [State.coreMemory, State.coreAmo]
  split
  · exact coreFault_raises s h
  · next ha =>
    obtain ⟨e, hx⟩ := hx.resolve_left ha
    simpa [hx] using coreFault_raises s h

theorem coreLr_raises {len : Nat} (hx : va.toNat % len ≠ 0 ∨ s.Refuses (s.hart h) va len .load) (rd : BitVec 5) (aq rl : Bool) :
    ∃ t, exec (.applicationCoreAccess h (.lr rd va len aq rl)) s = .next t ∧ CoreRaises s t h := by
  refine ⟨_, r.memory hk rfl, ?_⟩
  simp only [State.coreMemory, State.coreLr]
  split
  · exact coreFault_raises s h
  · next ha =>
    obtain ⟨e, hx⟩ := hx.resolve_left ha
    simpa [hx] using coreFault_raises s h

theorem coreSc_raises {len : Nat} (hx : va.toNat % len ≠ 0 ∨ s.Refuses (s.hart h) va len .store) (rd : BitVec 5) (v : DWord) (aq rl : Bool) :
    ∃ t, exec (.applicationCoreAccess h (.sc rd va len v aq rl)) s = .next t ∧ CoreRaises s t h := by
  refine ⟨_, r.memory hk rfl, ?_⟩
  simp only [State.coreMemory, State.coreSc]
  split
  · exact coreFault_raises s h
  · next ha =>
    obtain ⟨e, hx⟩ := hx.resolve_left ha
    simpa [hx] using coreFault_raises s h

/-! #### The page is not resident -/

theorem coreLoad_awaits {len : Nat} (hw : va.toNat % 64 + len ≤ 64) (hx : s.corePa (s.hart h) va len .load = .wait) (rd : BitVec 5) (sx : Bool) :
    ∃ t, exec (.applicationCoreAccess h (.load rd va len sx)) s = .next t ∧ CoreAwaits s t := by
  refine ⟨_, r.memory hk rfl, ?_⟩
  simpa [State.coreMemory, State.coreLoad, hw, coreAt_wait hx] using askPage_awaits ..

theorem coreStore_awaits {len : Nat} (hw : va.toNat % 64 + len ≤ 64) (hx : s.corePa (s.hart h) va len .store = .wait) (v : DWord) :
    ∃ t, exec (.applicationCoreAccess h (.store va len v)) s = .next t ∧ CoreAwaits s t := by
  refine ⟨_, r.memory hk rfl, ?_⟩
  simpa [State.coreMemory, State.coreStore, hw, coreAt_wait hx] using askPage_awaits ..

theorem coreAmo_awaits {len : Nat} (ha : va.toNat % len = 0) (hx : s.corePa (s.hart h) va len .atom = .wait) (rd : BitVec 5) (op : AmoOp)
    (v : DWord) (aq rl : Bool) : ∃ t, exec (.applicationCoreAccess h (.amo rd op va len v aq rl)) s = .next t ∧ CoreAwaits s t := by
  refine ⟨_, r.memory hk rfl, ?_⟩
  simpa [State.coreMemory, State.coreAmo, ha, coreAt_wait hx] using askPage_awaits ..

theorem coreLr_awaits {len : Nat} (ha : va.toNat % len = 0) (hx : s.corePa (s.hart h) va len .load = .wait) (rd : BitVec 5) (aq rl : Bool) :
    ∃ t, exec (.applicationCoreAccess h (.lr rd va len aq rl)) s = .next t ∧ CoreAwaits s t := by
  refine ⟨_, r.memory hk rfl, ?_⟩
  simpa [State.coreMemory, State.coreLr, ha, coreAt_wait hx] using askPage_awaits ..

theorem coreSc_awaits {len : Nat} (ha : va.toNat % len = 0) (hx : s.corePa (s.hart h) va len .store = .wait) (rd : BitVec 5) (v : DWord)
    (aq rl : Bool) : ∃ t, exec (.applicationCoreAccess h (.sc rd va len v aq rl)) s = .next t ∧ CoreAwaits s t := by
  refine ⟨_, r.memory hk rfl, ?_⟩
  simpa [State.coreMemory, State.coreSc, ha, coreAt_wait hx] using askPage_awaits ..

/-! #### The access lands on a line of main memory that reads -/

section
variable {pa len : Nat} (ha : va.toNat % len = 0) (hp : paKind pa = .hbm) (hb : s.bad pa = false) (hl : pa % len = 0)
include ha hp hb hl

theorem coreLoad_reads (hn : len ∈ [1, 2, 4, 8]) (hx : s.corePa (s.hart h) va len .load = .ok pa) (rd : BitVec 5) (sx : Bool) :
    ∃ t, exec (.applicationCoreAccess h (.load rd va len sx)) s = .next t ∧ t.mem = s.mem ∧
      PutsHartReg s t h rd (loaded (Memory.read s.mem pa len) sx) := by
  refine ⟨_, r.memory hk rfl, State.coreLoad_mem .., ?_⟩
  simp only [State.coreMemory, State.coreLoad, within_of_aligned hn ha, coreAt_lands hx hp hb hn hl, hp, r.inside]
  exact putsHartReg_setHart ((s.touch_keeps ..).regs h) rfl

theorem coreStore_stores (hn : len ∈ [1, 2, 4, 8]) (hx : s.corePa (s.hart h) va len .store = .ok pa) (v : DWord) :
    ∃ t, exec (.applicationCoreAccess h (.store va len v)) s = .next t ∧ CoreStores s t pa (leBytes len v.toNat) ∧
      (t.hart h).x = (s.hart h).x := by
  refine ⟨s.coreWrite cid pa (leBytes len v.toNat), (r.memory hk rfl).trans ?_, coreWrite_stores hp hb .., (coreWrite_keeps hp ..).regs h⟩
  simp [State.coreMemory, State.coreStore, within_of_aligned hn ha, coreAt_lands hx hp hb hn hl, r.inside]

theorem coreAmo_stores (hn : len ∈ [1, 2, 4, 8]) (hx : s.corePa (s.hart h) va len .atom = .ok pa) (rd : BitVec 5) (op : AmoOp) (v : DWord)
    (aq rl : Bool) : ∃ t, exec (.applicationCoreAccess h (.amo rd op va len v aq rl)) s = .next t ∧
      PutsHartReg s t h rd (loaded (Memory.read s.mem pa len) true) ∧
      CoreStores s t pa (leBytes len (amoNew op len (BitVec.ofNat 64 (leNat (Memory.read s.mem pa len))) v).toNat) := by
  refine ⟨_, r.memory hk rfl, ?_⟩
  simp only [State.coreMemory, State.coreAmo, ha, coreAt_lands hx hp hb hn hl, hp, r.inside]
  exact ⟨putsHartReg_setHart ((coreWrite_keeps hp ..).regs h) rfl, (coreWrite_stores hp hb ..).setHart ..⟩

theorem coreLr_reserves (hn : len ∈ [1, 2, 4, 8]) (hx : s.corePa (s.hart h) va len .load = .ok pa) (rd : BitVec 5) (aq rl : Bool) :
    ∃ t, exec (.applicationCoreAccess h (.lr rd va len aq rl)) s = .next t ∧ t.mem = s.mem ∧
      PutsHartReg s t h rd (loaded (Memory.read s.mem pa len) true) ∧ (t.hart h).resv = some (pa / 128) ∧
      (t.hart h).resvVal = loaded (Memory.read s.mem pa len) true := by
  refine ⟨_, r.memory hk rfl, State.coreLr_mem .., ?_⟩
  simp only [State.coreMemory, State.coreLr, ha, coreAt_lands hx hp hb hn hl, hp, r.inside]
  refine ⟨putsHartReg_setHart ((s.touch_keeps ..).regs h) rfl, ?_, ?_⟩ <;> simp [State.hart_setHart]

/-- SC ends the reservation, and stores if it held and no free choice lets it fail. -/
theorem coreSc_stores_or_fails (hn : len ∈ [1, 2, 4, 8]) (hx : s.corePa (s.hart h) va len .store = .ok pa) (rd : BitVec 5) (v : DWord)
    (aq rl : Bool) : ∃ t, exec (.applicationCoreAccess h (.sc rd va len v aq rl)) s = .next t ∧ (t.hart h).resv = none ∧
      ((PutsHartReg s t h rd 1 ∧ t.mem = s.mem) ∨
        ((s.hart h).resv = some (pa / 128) ∧ PutsHartReg s t h rd 0 ∧ CoreStores s t pa (leBytes len v.toNat))) := by
  refine ⟨_, r.memory hk rfl, ?_⟩
  have write : s.takeBool.2.scWrite (s.hart h) pa len v = s.takeBool.2.coreWrite cid pa (leBytes len v.toNat) := by
    simp [State.scWrite, r.inside, hp]
  have hb' : s.takeBool.2.bad pa = false := hb
  simp only [State.coreMemory, State.coreSc, ha, coreAt_lands hx hp hb hn hl, write, ne_eq, not_true_eq_false, if_false]
  split
  · next holds =>
    rw [Bool.and_eq_true, decide_eq_true_eq] at holds
    refine ⟨by simp [State.hart_setHart], .inr ⟨holds.1, putsHartReg_setHart ((coreWrite_keeps (s := s.takeBool.2) hp ..).regs h) rfl, ?_⟩⟩
    exact (coreWrite_stores (s := s.takeBool.2) hp hb' ..).setHart ..
  · exact ⟨by simp [State.hart_setHart], .inl ⟨putsHartReg_setHart rfl rfl, rfl⟩⟩

end

end

/-- The sizes of AMO, LR and SC are among those of loads and stores. -/
theorem size_of_wide {len : Nat} (h : len ∈ [4, 8]) : len ∈ [1, 2, 4, 8] := by
  simp only [List.mem_cons, List.not_mem_nil, or_false] at h ⊢
  omega

/-- Settles O47: what holds an operation back, and then for each operation the kick page, and the three ends of an access to memory. -/
theorem coreAccessResults : Obligations.CoreAccessResults := by
  intro s h cid n c hi hc
  dsimp only
  refine ⟨fun hh op => coreAccess_noHart hh s op, fun hh hd => ⟨coreAccess_afterFence hi hd, fun hf op hr => ?_⟩,
    fun hh hd hf => coreAccess_unfences hi hh hd hf, fun hh hd hf => ?_⟩
  · cases op with
    | fence p q => exact coreFence_waits hi hh hd hf hr
    | _ => exact coreRelease_waits hi hh hd hf hr (by simp)
  have r : CoreReady s h cid n c := ⟨hh, hi, hc, hd, hf⟩
  refine ⟨r.fence, fun va q off qu hk hq => ⟨kick_load r hk hq, kick_notifies r hk hq, kick_resets r hk hq, kick_drops r hk hq⟩,
    fun va pa len hk ha hp hb hl => ⟨fun rd sx hn hx => coreLoad_reads r hk ha hp hb hl hn hx rd sx, fun v hn hx => ?_,
      fun rd op v aq rl hn hx => ?_, fun rd aq rl hn hx => coreLr_reserves r hk ha hp hb hl (size_of_wide hn) hx rd aq rl,
      fun rd v aq rl hn hx => ?_⟩, fun va pa len hk hw hb => ?_, fun va len hk hw ha => ?_, fun va len e hk hw => ?_⟩
  · obtain ⟨t, ht, stored, hregs⟩ := coreStore_stores r hk ha hp hb hl hn hx v
    exact ⟨t, ht, stored.read, stored.only, hregs⟩
  · obtain ⟨t, ht, hput, stored⟩ := coreAmo_stores r hk ha hp hb hl (size_of_wide hn) hx rd op v aq rl
    exact ⟨t, ht, hput, stored.only, stored.read⟩
  · obtain ⟨t, ht, hresv, hend⟩ := coreSc_stores_or_fails r hk ha hp hb hl (size_of_wide hn) hx rd v aq rl
    exact ⟨t, ht, hresv, hend.imp_right fun ⟨held, hput, stored⟩ => ⟨held, hput, stored.only, stored.read⟩⟩
  · exact ⟨fun rd sx hx => coreLoad_raises r hk hw (refuses_of_bad hx (by decide) hb) rd sx,
      fun rd op v aq rl hx => coreAmo_raises r hk (.inr (refuses_of_bad hx (by decide) hb)) rd op v aq rl,
      fun rd aq rl hx => coreLr_raises r hk (.inr (refuses_of_bad hx (by decide) hb)) rd aq rl⟩
  · exact ⟨fun rd sx hx => coreLoad_awaits r hk hw hx rd sx, fun v hx => coreStore_awaits r hk hw hx v,
      fun rd op v aq rl hx => coreAmo_awaits r hk ha hx rd op v aq rl, fun rd aq rl hx => coreLr_awaits r hk ha hx rd aq rl,
      fun rd v aq rl hx => coreSc_awaits r hk ha hx rd v aq rl⟩
  · exact ⟨fun rd sx hx => coreLoad_raises r hk hw (refuses_of_cause hx) rd sx, fun v hx => coreStore_raises r hk hw (refuses_of_cause hx) v,
      fun rd op v aq rl hx => coreAmo_raises r hk (hx.imp_right refuses_of_cause) rd op v aq rl,
      fun rd aq rl hx => coreLr_raises r hk (hx.imp_right refuses_of_cause) rd aq rl,
      fun rd v aq rl hx => coreSc_raises r hk (hx.imp_right refuses_of_cause) rd v aq rl⟩

end Sys2Proof.Machine
end

section
/-! PROOF of O1, O56 and O57: the encoding and the decoder (03 R56-R63, R77-R82, 04 R90-R95, 14 R333).

A word equals fields set side by side exactly when each of its fields is the one given (`eq_encWord0`, `eq_long1` and the others, one for
each word of a format), so that one lemma serves both directions. For each format there are then two lemmas: what its decoder accepts is
what encodes the arguments (`decodeLong_encodes`, …), and arguments that pass their check are decoded from their words
(`decodeLong_of_check`, …). -/
namespace Sys2Proof

/-! ### Words as fields side by side -/

/-- A run of bits is two runs side by side when the higher and the lower bits are. -/
theorem extract_eq_append {n a b : Nat} {w : BitVec n} {k : Nat} {x : BitVec a} {y : BitVec b} :
    w.extractLsb' k (a + b) = x ++ y ↔ w.extractLsb' (k + b) a = x ∧ w.extractLsb' k b = y := by
  rw [← BitVec.extractLsb'_append_extractLsb'_eq_extractLsb' (x := w) (start₁ := k) rfl]
  refine ⟨fun h => ⟨?_, ?_⟩, fun ⟨hx, hy⟩ => by rw [hx, hy]⟩
  · simpa only [BitVec.extractLsb'_append_eq_left] using congrArg (BitVec.extractLsb' b a) h
  · simpa only [BitVec.extractLsb'_append_eq_right] using congrArg (BitVec.extractLsb' 0 b) h

theorem eq_append {a b : Nat} {w : BitVec (a + b)} {x : BitVec a} {y : BitVec b} :
    w = x ++ y ↔ w.extractLsb' b a = x ∧ w.extractLsb' 0 b = y := by
  have h := extract_eq_append (w := w) (k := 0) (x := x) (y := y)
  rwa [BitVec.extractLsb'_eq_self, Nat.zero_add] at h

theorem extract_eq_ofBool {n : Nat} {w : BitVec n} {k : Nat} {b : Bool} : w.extractLsb' k 1 = BitVec.ofBool b ↔ w.getLsbD k = b := by
  have : w.extractLsb' k 1 = BitVec.ofBool (w.getLsbD k) := by
    ext i hi
    obtain rfl : i = 0 := by omega
    simp
  rw [this]
  cases w.getLsbD k <;> cases b <;> decide

theorem eq_encWord0 {w : Word} {op : BitVec 9} {g : Guard} {d a : Opnd} {lit : Option Word} {f : FSel} :
    w = encWord0 op g d a lit f ↔ w.getLsbD 31 = true ∧ word0Of w = ⟨op, g, d.enc, a.enc, lit.isSome, f.enc⟩ := by
  obtain ⟨n, p⟩ := g
  refine (eq_append (a := 1 + 9 + 1 + 4 + 7 + 7 + 1) (b := 2)).trans ?_
  simp only [extract_eq_append]
  rw [show (1#1 : BitVec 1) = BitVec.ofBool true from rfl]
  simp only [extract_eq_ofBool, word0Of, Word0.mk.injEq, Guard.mk.injEq, and_assoc, Nat.reduceAdd]

theorem eq_long1 {w : Word} {b c : Opnd} {ty : Ty} {rm : Rm} {m : BitVec 11} : w = b.enc ++ c.enc ++ ty.code ++ rm.enc ++ m ↔
    w.extractLsb' 25 7 = b.enc ∧ w.extractLsb' 18 7 = c.enc ∧ w.extractLsb' 14 4 = ty.code ∧ w.extractLsb' 11 3 = rm.enc ∧
      w.extractLsb' 0 11 = m := by
  refine (eq_append (a := 7 + 7 + 4 + 3) (b := 11)).trans ?_
  simp only [extract_eq_append]
  simp only [and_assoc, Nat.reduceAdd]

theorem eq_control1 {w : Word} {b : Opnd} {dem : BitVec 3} {ofs : BitVec 22} : w = b.enc ++ dem ++ ofs ↔
    w.extractLsb' 25 7 = b.enc ∧ w.extractLsb' 22 3 = dem ∧ w.extractLsb' 0 22 = ofs := by
  refine (eq_append (a := 7 + 3) (b := 22)).trans ?_
  simp only [extract_eq_append]
  simp only [and_assoc, Nat.reduceAdd]

theorem eq_system1 {w : Word} {b : Opnd} {idx : BitVec 16} : w = b.enc ++ 0#9 ++ idx ↔
    w.extractLsb' 25 7 = b.enc ∧ w.extractLsb' 16 9 = 0#9 ∧ w.extractLsb' 0 16 = idx := by
  refine (eq_append (a := 7 + 9) (b := 16)).trans ?_
  simp only [extract_eq_append]
  simp only [and_assoc, Nat.reduceAdd]

theorem eq_short {w : Word} {sop : BitVec 6} {n : Bool} {p : BitVec 3} {d a b : Opnd} :
    w = 0#1 ++ sop ++ BitVec.ofBool n ++ p ++ d.enc ++ a.enc ++ b.enc ↔ w.getLsbD 31 = false ∧ w.extractLsb' 25 6 = sop ∧
      w.getLsbD 24 = n ∧ w.extractLsb' 21 3 = p ∧ w.extractLsb' 14 7 = d.enc ∧ w.extractLsb' 7 7 = a.enc ∧ w.extractLsb' 0 7 = b.enc := by
  refine (eq_append (a := 1 + 6 + 1 + 3 + 7 + 7) (b := 7)).trans ?_
  rw [show (0#1 : BitVec 1) = BitVec.ofBool false from rfl]
  simp only [extract_eq_append]
  simp only [extract_eq_ofBool, and_assoc, Nat.reduceAdd]

theorem eq_encEnclave {w : Word} {f : BitVec 3} {x : RArgs} : w = encEnclave f x ↔
    w.extractLsb' 25 7 = 0#7 ∧ w.extractLsb' 20 5 = x.rs2 ∧ w.extractLsb' 15 5 = x.rs1 ∧ w.extractLsb' 12 3 = f ∧ w.extractLsb' 7 5 = x.rd ∧
      w.extractLsb' 0 7 = 0x0B#7 := by
  refine (eq_append (a := 7 + 5 + 5 + 3 + 5) (b := 7)).trans ?_
  simp only [extract_eq_append]
  simp only [and_assoc, Nat.reduceAdd]

/-! ### Fields and their codes -/

theorem opndOf_enc {o : Opnd} (h : o.isSrc = true) : opndOf o.enc = some o := by
  cases o with
  | v n => exact (by decide : ∀ n, opndOf (Opnd.v n).enc = some (.v n)) n
  | o n => exact (by decide : ∀ n, opndOf (Opnd.o n).enc = some (.o n)) n
  | s n => exact (by decide : ∀ n, opndOf (Opnd.s n).enc = some (.s n)) n
  | pred n | cond c => cases h
  | _ => rfl

theorem enc_of_opndOf {x : BitVec 7} {o : Opnd} (h : opndOf x = some o) : o.enc = x :=
  (by decide : ∀ x, ∀ o ∈ opndOf x, o.enc = x) x o h

theorem condOf_enc (c : Cond) : condOf c.enc = some c := by cases c <;> rfl

theorem enc_of_condOf {x : BitVec 7} {c : Cond} (h : condOf x = some c) : c.enc = x :=
  (by decide : ∀ x, ∀ c ∈ condOf x, c.enc = x) x c h

/-- A field reads back the operand that its kind admits. -/
theorem Kind.dec_enc {k : Kind} {ty : Ty} {m : BitVec 11} {o : Opnd} (h : k.ok ty m o = true) : k.dec o.enc = some o := by
  cases k with
  | pred =>
    cases o with
    | pred n => exact (by decide : ∀ n, Kind.pred.dec (Opnd.pred n).enc = some (.pred n)) n
    | _ => cases h
  | condI | condF =>
    cases o with
    | cond c => exact congrArg (Option.map Opnd.cond) (condOf_enc c)
    | _ => cases h
  | _ =>
    refine opndOf_enc ?_
    cases o <;> simp_all [Kind.ok, Opnd.isSrc]

theorem Kind.enc_of_dec {k : Kind} {x : BitVec 7} {o : Opnd} (h : k.dec x = some o) : o.enc = x := by
  cases k with
  | pred => exact (by decide : ∀ x, ∀ o ∈ Kind.pred.dec x, o.enc = x) x o h
  | condI | condF =>
    obtain ⟨c, hc, rfl⟩ := Option.map_eq_some_iff.1 h
    exact enc_of_condOf hc
  | _ => exact enc_of_opndOf h

theorem tyOfCode_eq {x : BitVec 4} {t : Ty} : tyOfCode x = some t ↔ x = t.code :=
  ⟨(by decide : ∀ x, ∀ t ∈ tyOfCode x, x = t.code) x t, fun h => h ▸ by cases t <;> rfl⟩

theorem rmOf_eq {x : BitVec 3} {r : Rm} : rmOf x = some r ↔ x = r.enc :=
  ⟨(by decide : ∀ x, ∀ r ∈ rmOf x, x = r.enc) x r, fun h => h ▸ by cases r <;> rfl⟩

theorem fselOf_eq {x : BitVec 2} {f : FSel} : fselOf x = some f ↔ x = f.enc :=
  ⟨(by decide : ∀ x, ∀ f ∈ fselOf x, x = f.enc) x f, fun h => h ▸ by cases f <;> rfl⟩

theorem takeLit_eq {x : Bool} {ws rest : List Word} {lit : Option Word} :
    takeLit x ws = .ok (lit, rest) ↔ x = lit.isSome ∧ ws = lit.toList ++ rest := by
  unfold takeLit
  cases x <;> cases ws <;> cases lit <;> simp [eq_comm]

theorem pickFault_none {c p : Option DecodeError} : pickFault c p = none ↔ c = none ∧ p = none := by
  unfold pickFault
  cases c with
  | none => simp
  | some e => simp; split <;> simp

/-! ### Rows and opcodes -/

theorem LRow.op_of_ofOp {op : BitVec 9} {m : BitVec 11} {r : LRow} (h : LRow.ofOp op m = some r) : r.form.op = op := by
  unfold LRow.ofOp at h
  split at h <;> (try split_ifs at h) <;> cases h <;> rfl

theorem CRow.op_of_ofOp {op : BitVec 9} {r : CRow} (h : CRow.ofOp op = some r) : r.form.op = op := by
  unfold CRow.ofOp at h
  split at h <;> cases h <;> rfl

theorem YRow.op_of_ofOp {op : BitVec 9} {idx : BitVec 16} {r : YRow} (h : YRow.ofOp op idx = some r) : r.form.op = op := by
  unfold YRow.ofOp at h
  split at h <;> (try split_ifs at h) <;> cases h <;> rfl

theorem SRow.sop_of_ofSop {sop : BitVec 6} {r : SRow} (h : SRow.ofSop sop = some r) : r.form.sop = sop := by
  unfold SRow.ofSop at h
  split at h <;> cases h <;> rfl

/-- A bit that the mask of a row does not list is zero. -/
theorem bit_of_mxBits {mask m : BitVec 11} (ty : Ty) (rm : Rm) (h : mxBits mask ty rm m = true) {k : Nat} (hk : mask.getLsbD k = false)
    (h11 : k < 11) : m.getLsbD k = false := by
  have : (m &&& ~~~mask).getLsbD k = (0#11).getLsbD k := by rw [beq_iff_eq.1 h]
  simpa [-BitVec.getLsbD_eq_getElem, hk, h11] using this

theorem kind_of_mxColl {m : BitVec 11} (kind : Nat) (ty : Ty) (rm : Rm) (h : mxColl kind ty rm m = true) :
    m.extractLsb' 0 3 = BitVec.ofNat 3 kind := by
  simp only [mxColl, Bool.and_eq_true, beq_iff_eq] at h
  obtain ⟨⟨⟨-, rfl⟩, -⟩, -⟩ := h
  simp only [BitVec.ofNat_toNat, BitVec.setWidth_eq]

theorem op_of_mxEctl {m : BitVec 11} (op : Nat) (ty : Ty) (rm : Rm) (h : mxEctl op ty rm m = true) :
    m.extractLsb' 2 2 = BitVec.ofNat 2 op := by
  simp only [mxEctl, Bool.and_eq_true, beq_iff_eq] at h
  obtain ⟨-, rfl⟩ := h
  simp only [BitVec.ofNat_toNat, BitVec.setWidth_eq]

theorem LRow.ofOp_pack {m : BitVec 11} {k : BitVec 3} (h : m.extractLsb' 0 3 = k) :
    LRow.ofOp 0x033 m = some (if k == 5#3 then .packI4x else .pack) := h ▸ rfl

theorem LRow.ofOp_vote {m : BitVec 11} (h : m.extractLsb' 0 2 ≠ 3#2) : LRow.ofOp 0x071 m = some .vote :=
  congrArg some (if_neg fun e => h (beq_iff_eq.1 e))

theorem LRow.ofOp_coll {m : BitVec 11} {k : BitVec 3} (h : m.extractLsb' 0 3 = k) :
    LRow.ofOp 0x0A6 m = some (if k == 1#3 then .collRedsc else if k == 2#3 then .collAllga else
      if k == 3#3 then .collA2a else if k == 4#3 then .collBcast else .collAllred) := h ▸ rfl

theorem LRow.ofOp_ectl {m : BitVec 11} {k : BitVec 2} (h : m.extractLsb' 2 2 = k) :
    LRow.ofOp 0x0A8 m = some (if k == 0#2 then .ectlStat else if k == 1#2 then .ectlClr else if k == 2#2 then .ectlCncl else .ectlCnt) :=
  h ▸ rfl

theorem LRow.ofOp_mma {m : BitVec 11} {b : Bool} (h : m.getLsbD 7 = b) : LRow.ofOp 0x0C3 m = some (if b then .mmaH else .mma) := h ▸ rfl

theorem LRow.ofOp_accmv {m : BitVec 11} {b : Bool} (h : m.getLsbD 3 = b) : LRow.ofOp 0x0C9 m = some (if b then .accmvWr else .accmvRd) :=
  h ▸ rfl

/-- Rows that share an opcode are told apart by what their checks ask of MODX. -/
theorem LRow.ofOp_op {r : LRow} {ty : Ty} {rm : Rm} {m : BitVec 11} (h : r.form.modx ty rm m = true) : LRow.ofOp r.form.op m = some r := by
  cases r with
  | packI4x | pmovSet | voteBal | pfenceConst | pfenceTile =>
    obtain rfl := beq_iff_eq.1 h
    rfl
  | pmovGet | pfenceGen =>
    obtain rfl : m = 0#11 := BitVec.and_allOnes.symm.trans (beq_iff_eq.1 h)
    rfl
  | pack =>
    have hf : m.extractLsb' 0 3 = 2#3 ∨ m.extractLsb' 0 3 = 3#3 := by simpa using (Bool.and_eq_true_iff.1 h).2
    rcases hf with e | e <;> exact LRow.ofOp_pack e
  | vote =>
    have hm : m.toNat ≤ 2 := of_decide_eq_true h
    refine LRow.ofOp_vote fun e => ?_
    have := congrArg BitVec.toNat e
    simp only [BitVec.extractLsb'_toNat, Nat.shiftRight_zero, BitVec.toNat_ofNat] at this
    omega
  | collAllred => exact LRow.ofOp_coll (kind_of_mxColl 0 ty rm h)
  | collRedsc => exact LRow.ofOp_coll (kind_of_mxColl 1 ty rm h)
  | collAllga => exact LRow.ofOp_coll (kind_of_mxColl 2 ty rm h)
  | collA2a => exact LRow.ofOp_coll (kind_of_mxColl 3 ty rm h)
  | collBcast => exact LRow.ofOp_coll (kind_of_mxColl 4 ty rm h)
  | ectlStat => exact LRow.ofOp_ectl (op_of_mxEctl 0 ty rm h)
  | ectlClr => exact LRow.ofOp_ectl (op_of_mxEctl 1 ty rm h)
  | ectlCncl => exact LRow.ofOp_ectl (op_of_mxEctl 2 ty rm h)
  | ectlCnt => exact LRow.ofOp_ectl (op_of_mxEctl 3 ty rm h)
  | mma => exact LRow.ofOp_mma (bit_of_mxBits ty rm (Bool.and_eq_true_iff.1 h).1 rfl (by decide))
  | mmaH => exact LRow.ofOp_mma (Bool.and_eq_true_iff.1 (Bool.and_eq_true_iff.1 h).1).2
  | accmvRd => exact LRow.ofOp_accmv (bit_of_mxBits ty rm h rfl (by decide))
  | accmvWr => exact LRow.ofOp_accmv (Bool.and_eq_true_iff.1 h).2
  | _ => rfl

theorem YRow.ofOp_op {r : YRow} {idx : BitVec 16} (h : r.idxOk idx = true) : YRow.ofOp r.form.op idx = some r := by
  cases r with
  | rdsr => exact congrArg some (if_neg fun e => by simp_all [YRow.idxOk])
  | wrsr => exact congrArg some (if_neg fun e => by simp_all [YRow.idxOk])
  | rdsrCyclo | wrsrYdl => exact congrArg some (if_pos h)
  | _ => rfl

theorem CRow.ofOp_op (r : CRow) : CRow.ofOp r.form.op = some r := by cases r <;> rfl

theorem SRow.ofSop_sop (r : SRow) : SRow.ofSop r.form.sop = some r := by cases r <;> rfl

theorem CRow.op_not_long (r : CRow) (m : BitVec 11) : LRow.ofOp r.form.op m = none := by cases r <;> rfl

theorem YRow.op_not_long (r : YRow) (m : BitVec 11) : LRow.ofOp r.form.op m = none := by cases r <;> rfl

theorem YRow.op_not_control (r : YRow) : CRow.ofOp r.form.op = none := by cases r <;> rfl

/-! ### Instructions and their rows -/

@[simp] theorem LRow.code_instr (r : LRow) (x : LArgs) : (r.instr x).code = .long r x := by cases r <;> rfl
@[simp] theorem CRow.code_instr (r : CRow) (x : CArgs) : (r.instr x).code = .control r x := by cases r <;> rfl
@[simp] theorem YRow.code_instr (r : YRow) (x : YArgs) : (r.instr x).code = .system r x := by cases r <;> rfl
@[simp] theorem SRow.code_instr (r : SRow) (x : SArgs) : (r.instr x).code = .short r x := by cases r <;> rfl

theorem Instr.eq_of_long {i : Instr} {r : LRow} {x : LArgs} (h : i.code = .long r x) : i = r.instr x := by
  cases i <;> cases h <;> rfl
theorem Instr.eq_of_control {i : Instr} {r : CRow} {x : CArgs} (h : i.code = .control r x) : i = r.instr x := by
  cases i <;> cases h <;> rfl
theorem Instr.eq_of_system {i : Instr} {r : YRow} {x : YArgs} (h : i.code = .system r x) : i = r.instr x := by
  cases i <;> cases h <;> rfl
theorem Instr.eq_of_short {i : Instr} {r : SRow} {x : SArgs} (h : i.code = .short r x) : i = r.instr x := by
  cases i <;> cases h <;> rfl

/-! ### Each format decodes to what encodes it -/

theorem CRow.check_fields {r : CRow} {x : CArgs} (h : r.check x = none) :
    r.form.d.ok .b32 0 x.d = true ∧ r.form.a.ok .b32 0 x.a = true ∧ r.form.b.ok .b32 0 x.b = true := by
  have := firstFault_none.1 h
  simp only [List.mem_cons, List.not_mem_nil, or_false, forall_eq_or_imp, forall_eq] at this
  obtain ⟨hd, ha, -, -, hb, -, -⟩ := this
  exact ⟨hd, ha, hb⟩

theorem YRow.check_fields {r : YRow} {x : YArgs} (h : r.check x = none) :
    r.form.d.ok .b32 (srModx x.idx) x.d = true ∧ r.form.a.ok .b32 (srModx x.idx) x.a = true ∧ r.form.b.ok .b32 (srModx x.idx) x.b = true ∧
      r.idxOk x.idx = true := by
  have := firstFault_none.1 h
  simp only [List.mem_cons, List.not_mem_nil, or_false, forall_eq_or_imp, forall_eq] at this
  obtain ⟨hd, ha, -, -, -, hb, hi⟩ := this
  exact ⟨hd, ha, hb, hi⟩

/-- The rest of a word 0 that a decoder has accepted. -/
theorem Word0.eq_enc {w0 : Word0} {kd ka : Kind} {d a : Opnd} {f : BitVec 2} {x : Bool} (hd : kd.dec w0.d = some d) (ha : ka.dec w0.a = some a)
    (hx : w0.x = x) (hf : w0.f = f) : w0 = ⟨w0.op, w0.guard, d.enc, a.enc, x, f⟩ := by
  rw [Kind.enc_of_dec hd, Kind.enc_of_dec ha, ← hx, ← hf]

theorem decodeLong_encodes {r : LRow} {w0 : Word0} {w1 : Word} {ws rest : List Word} {i : Instr} (h : decodeLong r w0 w1 ws = .ok (i, rest)) :
    ∃ x : LArgs, i = r.instr x ∧ r.check x = none ∧ w0 = ⟨w0.op, x.guard, x.d.enc, x.a.enc, x.lit.isSome, x.f.enc⟩ ∧
      w1 = x.b.enc ++ x.c.enc ++ x.ty.code ++ x.rm.enc ++ x.modx ∧ ws = x.lit.toList ++ rest := by
  unfold decodeLong at h
  split at h <;> try cases h
  next f d a lit rest' hf hd ha hl =>
    dsimp only at h
    split at h <;> cases h
    next hp =>
      obtain ⟨hc, hq⟩ := pickFault_none.1 hp
      obtain ⟨hx, rfl⟩ := takeLit_eq.1 hl
      have := firstFault_none.1 hq
      simp only [List.mem_cons, List.not_mem_nil, or_false, forall_eq_or_imp, forall_eq, Option.isSome_iff_exists] at this
      obtain ⟨⟨b, hb⟩, ⟨c, hcc⟩, ⟨ty, hty⟩, ⟨rm, hrm⟩⟩ := this
      refine ⟨_, rfl, hc, Word0.eq_enc hd ha hx (fselOf_eq.1 hf), eq_long1.2 ?_, rfl⟩
      rw [hb, hcc, hty, hrm]
      exact ⟨(Kind.enc_of_dec hb).symm, (Kind.enc_of_dec hcc).symm, tyOfCode_eq.1 hty, rmOf_eq.1 hrm, rfl⟩

theorem decodeLong_of_check {r : LRow} {x : LArgs} (h : r.check x = none) (op : BitVec 9) {w1 : Word}
    (hw : w1 = x.b.enc ++ x.c.enc ++ x.ty.code ++ x.rm.enc ++ x.modx) (rest : List Word) :
    decodeLong r ⟨op, x.guard, x.d.enc, x.a.enc, x.lit.isSome, x.f.enc⟩ w1 (x.lit.toList ++ rest) = .ok (r.instr x, rest) := by
  obtain ⟨hb, hc, hty, hrm, hm⟩ := eq_long1.1 hw
  obtain ⟨kd, ka, kb, kc, -⟩ := LRow.check_none h
  unfold decodeLong
  simp only [fselOf_eq.2 rfl, Kind.dec_enc kd, Kind.dec_enc ka, takeLit_eq.2 ⟨rfl, rfl⟩, hb, hc, hty, hrm, hm, Kind.dec_enc kb, Kind.dec_enc kc,
    tyOfCode_eq.2 rfl, rmOf_eq.2 rfl, Option.getD_some, Option.isSome_some, h, firstFault, pickFault, if_true]

theorem decodeControl_encodes {r : CRow} {w0 : Word0} {w1 : Word} {ws rest : List Word} {i : Instr}
    (h : decodeControl r w0 w1 ws = .ok (i, rest)) :
    ∃ x : CArgs, i = r.instr x ∧ r.check x = none ∧ w0 = ⟨w0.op, x.guard, x.d.enc, x.a.enc, x.lit.isSome, FSel.none.enc⟩ ∧
      w1 = x.b.enc ++ x.dem ++ x.ofs ∧ ws = x.lit.toList ++ rest := by
  unfold decodeControl at h
  split at h <;> try cases h
  next d a lit rest' hd ha hl =>
    split at h <;> try cases h
    next hf =>
      dsimp only at h
      split at h <;> cases h
      next hp =>
        obtain ⟨hc, hq⟩ := pickFault_none.1 hp
        obtain ⟨hx, rfl⟩ := takeLit_eq.1 hl
        obtain ⟨b, hb⟩ : ∃ b, r.form.b.dec (w1.extractLsb' 25 7) = some b := Option.isSome_iff_exists.1 (firstFault_none.1 hq _ (List.mem_singleton.2 rfl))
        refine ⟨_, rfl, hc, Word0.eq_enc hd ha hx (by simpa using hf : w0.f = 0#2), eq_control1.2 ?_, rfl⟩
        rw [hb]
        exact ⟨(Kind.enc_of_dec hb).symm, rfl, rfl⟩

theorem decodeControl_of_check {r : CRow} {x : CArgs} (h : r.check x = none) (op : BitVec 9) {w1 : Word}
    (hw : w1 = x.b.enc ++ x.dem ++ x.ofs) (rest : List Word) :
    decodeControl r ⟨op, x.guard, x.d.enc, x.a.enc, x.lit.isSome, FSel.none.enc⟩ w1 (x.lit.toList ++ rest) = .ok (r.instr x, rest) := by
  obtain ⟨hb, hdem, hofs⟩ := eq_control1.1 hw
  obtain ⟨kd, ka, kb⟩ := CRow.check_fields h
  unfold decodeControl
  simp [Kind.dec_enc kd, Kind.dec_enc ka, takeLit_eq.2 ⟨rfl, rfl⟩, hb, hdem, hofs, Kind.dec_enc kb, h, firstFault, pickFault, FSel.enc]

theorem decodeSystem_encodes {r : YRow} {w0 : Word0} {w1 : Word} {ws rest : List Word} {i : Instr}
    (h : decodeSystem r w0 w1 ws = .ok (i, rest)) :
    ∃ x : YArgs, i = r.instr x ∧ r.check x = none ∧ w0 = ⟨w0.op, x.guard, x.d.enc, x.a.enc, x.lit.isSome, FSel.none.enc⟩ ∧
      w1 = x.b.enc ++ 0#9 ++ x.idx ∧ ws = x.lit.toList ++ rest := by
  unfold decodeSystem at h
  split at h <;> try cases h
  next d a lit rest' hd ha hl =>
    split at h <;> try cases h
    next hf =>
      dsimp only at h
      split at h <;> cases h
      next hp =>
        obtain ⟨hc, hq⟩ := pickFault_none.1 hp
        obtain ⟨hx, rfl⟩ := takeLit_eq.1 hl
        have := firstFault_none.1 hq
        simp only [List.mem_cons, List.not_mem_nil, or_false, forall_eq_or_imp, forall_eq, Option.isSome_iff_exists, beq_iff_eq] at this
        obtain ⟨⟨b, hb⟩, hz⟩ := this
        refine ⟨_, rfl, hc, Word0.eq_enc hd ha hx (by simpa using hf : w0.f = 0#2), eq_system1.2 ?_, rfl⟩
        rw [hb]
        exact ⟨(Kind.enc_of_dec hb).symm, hz, rfl⟩

theorem decodeSystem_of_check {r : YRow} {x : YArgs} (h : r.check x = none) (op : BitVec 9) {w1 : Word}
    (hw : w1 = x.b.enc ++ 0#9 ++ x.idx) (rest : List Word) :
    decodeSystem r ⟨op, x.guard, x.d.enc, x.a.enc, x.lit.isSome, FSel.none.enc⟩ w1 (x.lit.toList ++ rest) = .ok (r.instr x, rest) := by
  obtain ⟨hb, hz, hidx⟩ := eq_system1.1 hw
  obtain ⟨kd, ka, kb, -⟩ := YRow.check_fields h
  unfold decodeSystem
  simp [Kind.dec_enc kd, Kind.dec_enc ka, takeLit_eq.2 ⟨rfl, rfl⟩, hb, hz, hidx, Kind.dec_enc kb, h, firstFault, pickFault, FSel.enc]

theorem decodeShort_encodes {w : Word} {ws rest : List Word} {i : Instr} (hw : w.getLsbD 31 = false) (h : decodeShort w ws = .ok (i, rest)) :
    ∃ (r : SRow) (x : SArgs), i = r.instr x ∧ r.check x = none ∧ x.guard.p.toNat < 8 ∧ encShort r x = [w] ∧ ws = rest := by
  unfold decodeShort at h
  split at h
  · cases h
  next r hr =>
    split at h <;> try cases h
    next d a b hd ha hb =>
      dsimp only at h
      split at h <;> cases h
      next hc =>
        have hp : ∀ p : BitVec 3, (p.setWidth 4).toNat < 8 ∧ (p.setWidth 4).setWidth 3 = p := by decide
        refine ⟨r, _, rfl, hc, (hp _).1, congrArg ([·]) (Eq.symm (eq_short.2 ⟨hw, ?_, rfl, (hp _).2.symm, ?_⟩)), rfl⟩
        · exact (SRow.sop_of_ofSop hr).symm
        · exact ⟨(Kind.enc_of_dec hd).symm, (Kind.enc_of_dec ha).symm, (Kind.enc_of_dec hb).symm⟩

theorem decodeShort_of_check {r : SRow} {x : SArgs} (h : r.check x = none) (hg : x.guard.p.toNat < 8) {w : Word} (hw : encShort r x = [w])
    (rest : List Word) : w.getLsbD 31 = false ∧ decodeShort w rest = .ok (r.instr x, rest) := by
  obtain ⟨h31, hs, hn, hp, hd, ha, hb⟩ := eq_short.1 (List.singleton_inj.1 hw).symm
  obtain ⟨kd, ka, kb, -⟩ := LRow.check_none h
  have hg' : (x.guard.p.setWidth 3).setWidth 4 = x.guard.p :=
    (by decide : ∀ p : BitVec 4, p.toNat < 8 → (p.setWidth 3).setWidth 4 = p) _ hg
  refine ⟨h31, ?_⟩
  unfold decodeShort
  simp only [hs, SRow.ofSop_sop, hd, ha, hb, hn, hp, hg', h,
    show r.form.row.form.d.dec x.d.enc = some x.d from Kind.dec_enc kd, show r.form.row.form.a.dec x.a.enc = some x.a from Kind.dec_enc ka,
    show r.form.row.form.b.dec x.b.enc = some x.b from Kind.dec_enc kb]

/-! ### The decoder -/

theorem decodeWords_long {r : LRow} {x : LArgs} (h : r.check x = none) (rest : List Word) :
    decodeWords (encLong r x ++ rest) = .ok (r.instr x, rest) := by
  obtain ⟨h31, h0⟩ := eq_encWord0.1 (rfl : encWord0 r.form.op x.guard x.d x.a x.lit x.f = _)
  obtain ⟨-, -, -, -, hm⟩ := eq_long1.1 (rfl : x.b.enc ++ x.c.enc ++ x.ty.code ++ x.rm.enc ++ x.modx = _)
  obtain ⟨-, -, -, -, -, -, km, -⟩ := LRow.check_none h
  unfold encLong decodeWords
  simp only [List.cons_append, List.nil_append, h31, if_true, h0, hm, LRow.ofOp_op km]
  exact decodeLong_of_check h _ rfl rest

theorem decodeWords_control {r : CRow} {x : CArgs} (h : r.check x = none) (rest : List Word) :
    decodeWords (encControl r x ++ rest) = .ok (r.instr x, rest) := by
  obtain ⟨h31, h0⟩ := eq_encWord0.1 (rfl : encWord0 r.form.op x.guard x.d x.a x.lit .none = _)
  unfold encControl decodeWords
  simp only [List.cons_append, List.nil_append, h31, if_true, h0, CRow.ofOp_op, CRow.op_not_long]
  exact decodeControl_of_check h _ rfl rest

theorem decodeWords_system {r : YRow} {x : YArgs} (h : r.check x = none) (rest : List Word) :
    decodeWords (encSystem r x ++ rest) = .ok (r.instr x, rest) := by
  obtain ⟨h31, h0⟩ := eq_encWord0.1 (rfl : encWord0 r.form.op x.guard x.d x.a x.lit .none = _)
  obtain ⟨-, -, hi⟩ := eq_system1.1 (rfl : x.b.enc ++ 0#9 ++ x.idx = _)
  obtain ⟨-, -, -, ki⟩ := YRow.check_fields h
  unfold encSystem decodeWords
  simp only [List.cons_append, List.nil_append, h31, if_true, h0, hi, YRow.ofOp_op ki, YRow.op_not_long, YRow.op_not_control]
  exact decodeSystem_of_check h _ rfl rest

theorem decodeWords_short {r : SRow} {x : SArgs} (h : r.check x = none) (hg : x.guard.p.toNat < 8) (rest : List Word) :
    decodeWords (encShort r x ++ rest) = .ok (r.instr x, rest) := by
  obtain ⟨h31, hd⟩ := decodeShort_of_check h hg rfl rest
  rw [encShort, List.singleton_append, decodeWords, if_neg (Bool.eq_false_iff.1 h31)]
  exact hd

theorem decodeWords_encode {i : Instr} (rest : List Word) (h : i.wf = true) (hw : ∃ w ws, encode i = w :: ws) (he : ∀ f x, i.code ≠ .enclave f x) :
    decodeWords (encode i ++ rest) = .ok (i, rest) := by
  unfold encode at hw ⊢
  unfold Instr.wf at h
  cases hc : i.code with
  | long r x =>
    rw [hc] at h
    exact (Instr.eq_of_long hc) ▸ decodeWords_long (Option.isNone_iff_eq_none.1 h) rest
  | short r x =>
    rw [hc] at h
    obtain ⟨hn, hg⟩ := Bool.and_eq_true_iff.1 h
    exact (Instr.eq_of_short hc) ▸ decodeWords_short (Option.isNone_iff_eq_none.1 hn) (of_decide_eq_true hg) rest
  | control r x =>
    rw [hc] at h
    exact (Instr.eq_of_control hc) ▸ decodeWords_control (Option.isNone_iff_eq_none.1 h) rest
  | system r x =>
    rw [hc] at h
    exact (Instr.eq_of_system hc) ▸ decodeWords_system (Option.isNone_iff_eq_none.1 h) rest
  | enclave f x => exact absurd hc (he f x)
  | event =>
    obtain ⟨w, ws, e⟩ := hw
    rw [hc] at e
    cases e
  
/-- What follows word 1 of two words that are those of a row's format. -/
theorem words_eq {w w1 : Word} {ws rest : List Word} {op : BitVec 9} {g : Guard} {d a : Opnd} {lit : Option Word} {f : FSel} {v : Word}
    (h31 : w.getLsbD 31 = true) (hop : op = (word0Of w).op) (h0 : word0Of w = ⟨(word0Of w).op, g, d.enc, a.enc, lit.isSome, f.enc⟩)
    (h1 : w1 = v) (hl : ws = lit.toList ++ rest) : w :: w1 :: ws = [encWord0 op g d a lit f, v] ++ lit.toList ++ rest := by
  rw [hl, h1, hop, ← eq_encWord0.2 ⟨h31, h0⟩]
  rfl

theorem encode_of_decodeWords {ws rest : List Word} {i : Instr} (h : decodeWords ws = .ok (i, rest)) : i.wf = true ∧ ws = encode i ++ rest := by
  unfold decodeWords at h
  split at h
  · cases h
  next w ws =>
    split at h
    next h31 =>
      dsimp only at h
      split at h
      · split at h <;> cases h
      next w1 ws =>
        split at h
        next r hr =>
          obtain ⟨x, rfl, hc, h0, h1, hl⟩ := decodeLong_encodes h
          simp only [Instr.wf, encode, LRow.code_instr, hc]
          exact ⟨rfl, words_eq h31 (LRow.op_of_ofOp hr) h0 h1 hl⟩
        next r hr _ =>
          obtain ⟨x, rfl, hc, h0, h1, hl⟩ := decodeControl_encodes h
          simp only [Instr.wf, encode, CRow.code_instr, hc]
          exact ⟨rfl, words_eq h31 (CRow.op_of_ofOp hr) h0 h1 hl⟩
        next r hr _ _ =>
          obtain ⟨x, rfl, hc, h0, h1, hl⟩ := decodeSystem_encodes h
          simp only [Instr.wf, encode, YRow.code_instr, hc]
          exact ⟨rfl, words_eq h31 (YRow.op_of_ofOp hr) h0 h1 hl⟩
        · cases h
    next h31 =>
      obtain ⟨r, x, rfl, hc, hg, hw, rfl⟩ := decodeShort_encodes (Bool.eq_false_iff.2 h31) h
      simp [Instr.wf, encode, hc, hg, hw]

/-! ### Enclave instructions (14 R333) -/

/-- The instruction that funct3 and the value of rs2 name. -/
def enclaveInstr (f : BitVec 3) (sel : DWord) (x : RArgs) : Instr :=
  if f = 0#3 then .encnew x else if f = 1#3 then .encin x else if f = 2#3 then .encout x
  else if sel == 1#64 then .encsealUnseal x else if sel == 2#64 then .encsealDestroy x else .encsealSeal x

theorem code_enclaveInstr {f : BitVec 3} {x : RArgs} (h : enclaveOk f x = true) (sel : DWord) : (enclaveInstr f sel x).code = .enclave f x := by
  obtain rfl | rfl | rfl | rfl : f = 0#3 ∨ f = 1#3 ∨ f = 2#3 ∨ f = 3#3 := by
    unfold enclaveOk at h
    split at h <;> simp at h ⊢
  · rfl
  · rfl
  · rfl
  · change (if sel == 1#64 then Instr.encsealUnseal x else if sel == 2#64 then .encsealDestroy x else .encsealSeal x).code = _
    split
    · rfl
    · split <;> rfl

theorem decodeEnclave_encEnclave {f : BitVec 3} {x : RArgs} (h : enclaveOk f x = true) (sel : DWord) :
    decodeEnclave sel (encEnclave f x) = .ok (enclaveInstr f sel x) := by
  obtain ⟨hz, h2, h1, hf, hd, ho⟩ := eq_encEnclave.1 (rfl : encEnclave f x = _)
  unfold decodeEnclave
  simp only [hz, h2, h1, hf, hd, ho, h, beq_self_eq_true, Bool.and_self, if_true]
  split
  · rfl
  · rfl
  · rfl
  next h0 h1 h2 =>
    rw [enclaveInstr, if_neg h0, if_neg h1, if_neg h2]

theorem encode_of_decodeEnclave {sel : DWord} {w : Word} {i : Instr} (h : decodeEnclave sel w = .ok i) : i.wf = true ∧ encode i = [w] := by
  obtain ⟨f, x, rfl, ok⟩ : ∃ f x, w = encEnclave f x ∧ enclaveOk f x = true := by
    unfold decodeEnclave at h
    dsimp only at h
    split at h
    next c =>
      simp only [Bool.and_eq_true, beq_iff_eq] at c
      obtain ⟨⟨ho, hz⟩, ok⟩ := c
      exact ⟨_, _, eq_encEnclave.2 ⟨hz, rfl, rfl, rfl, rfl, ho⟩, ok⟩
    · cases h
  cases (decodeEnclave_encEnclave ok sel).symm.trans h
  rw [Instr.wf, encode, code_enclaveInstr ok]
  exact ⟨ok, rfl⟩

theorem decodeEnclave_encode {i : Instr} {f : BitVec 3} {x : RArgs} (h : i.wf = true) (hc : i.code = .enclave f x) :
    ∃ sel w, encode i = [w] ∧ decodeEnclave sel w = .ok i := by
  have ok : enclaveOk f x = true := by rwa [Instr.wf, hc] at h
  have found : ∃ sel, enclaveInstr f sel x = i := by
    cases i with
    | encnew y | encin y | encout y | encsealSeal y =>
      cases hc
      exact ⟨0, rfl⟩
    | encsealUnseal y =>
      cases hc
      exact ⟨1, rfl⟩
    | encsealDestroy y =>
      cases hc
      exact ⟨2, rfl⟩
    | _ => cases hc
  obtain ⟨sel, e⟩ := found
  exact ⟨sel, encEnclave f x, by rw [encode, hc], e ▸ decodeEnclave_encEnclave ok sel⟩

/-! ### The statements -/

/-- Settles O1: each format's decoder reads back what its encoder wrote. -/
theorem encodeDecode : Obligations.EncodeDecode :=
  ⟨fun _ rest h hw he => decodeWords_encode rest h hw he, fun _ _ _ h hc => decodeEnclave_encode h hc⟩

/-- Settles O56: what each format's decoder accepts is what the encoder writes. -/
theorem decodeEncode : Obligations.DecodeEncode :=
  ⟨fun _ _ _ h => encode_of_decodeWords h, fun _ _ _ h => encode_of_decodeEnclave h⟩

/-- Settles O57, by evaluating the decoder on the worked words. -/
theorem decodeSpecWords : Obligations.DecodeSpecWords := ⟨rfl, rfl, rfl, rfl, rfl⟩
end Sys2Proof
end

section
/-! PROOF of O5: a short form does what its long form does (03 R58, 04 R93). -/

namespace Sys2Proof.Machine

theorem exec_short_eq_long (r : SRow) (x : SArgs) (s : State) : exec (r.instr x) s = exec (r.form.row.instr (r.toLong x)) s := by
  cases r <;> rfl

/-- Every short form is a plain vector instruction of one register. -/
theorem exec_short_alu (r : SRow) (x : SArgs) : ∃ op, ∀ s, exec (r.instr x) s = alu (r.toLong x) 1 op s := by
  cases r <;> exact ⟨_, fun _ => rfl⟩

/-- Settles O5: the long form of a short one is the same plain vector instruction, which completes. -/
theorem shortFormsStandForLong : Obligations.ShortFormsStandForLong := by
  intro r x s i f _ h
  obtain ⟨op, e⟩ := exec_short_alu r x
  have done : exec (r.instr x) s = _ := (e s).trans (onFlue_next h _)
  exact ⟨_, done, (exec_short_eq_long r x s).symm.trans done⟩

end Sys2Proof.Machine
end


section
/-! PROOF of O13: results that arrive late (03 R70, R74, 05 R102, R111, 07 R171-R173, 13 R302). -/

namespace Sys2Proof.Machine

open Sys2Proof.Claims

/-! ### What is read back after elements are written -/

/-- Two flues hold the same registers. -/
def SameRegs (f g : Flue) : Prop := g.frames = f.frames ∧ g.hframe = f.hframe ∧ g.o = f.o ∧ g.s = f.s ∧ g.p = f.p

theorem SameRegs.readLoc {f g : Flue} (h : SameRegs f g) (r : RegLoc) (l : Nat) : g.readLoc r l = f.readLoc r l := by
  obtain ⟨hf, hh, ho, hs, hp⟩ := h
  cases r with
  | p n => simp only [Flue.readLoc, Flue.pred, Flue.predMask, hp]; rfl
  | _ => simp only [Flue.readLoc, hf, hh, ho, hs]

theorem SameRegs.holds {f g : Flue} (h : SameRegs f g) (r : RegLoc) : Holds g r ↔ Holds f r := by
  cases r <;> simp only [Holds, h.1]

theorem writeAll_written (f : Flue) {ws : List LaneWrite} (hw : ∀ w ∈ ws, w.lane < 32) : Written f (f.writeAll ws) ws := by
  refine fun r l hl => ⟨readLoc_writeAll_other ws f r l hl hw, fun v hf hx hv => ?_⟩
  have hroom : f.hasLoc r = true := by
    cases r with
    | v u n => exact hf
    | _ => rfl
  refine readLoc_writeAll_hit ws f r l v hl hw hroom hx fun w hm hh => ?_
  have plain : w.loc.holds w.val = w.val := by
    cases hloc : w.loc with
    | p n =>
      rw [hloc] at hh
      cases r with
      | p m => exact hf.elim
      | _ => cases hh
    | _ => rfl
  exact plain.trans (hv w hm hh)

/-- Registers before and after may be looked at on flues that hold the same. -/
theorem Written.of_sameRegs {f g f' g' : Flue} {ws : List LaneWrite} (h : Written f g ws) (hf : SameRegs f f') (hg : SameRegs g g') :
    Written f' g' ws := by
  intro r l hl
  rw [hf.readLoc, hg.readLoc, hf.holds]
  exact h r l hl

/-- Which elements reach the latch has no part in what is written to the registers. -/
theorem Written.of_latch {f g : Flue} {ws : List LaneWrite} {k : LaneWrite → Bool}
    (h : Written f g (ws.map fun w => { w with toLatch := k w })) : Written f g ws := by
  intro r l hl
  have := h r l hl
  simpa only [List.mem_map, forall_exists_index, and_imp, forall_apply_eq_imp_iff₂, exists_exists_and_eq_and] using this

theorem openRvs_of_rvs {f : Flue} (h : ∀ v ∈ f.rvs, v.done = true) : f.openRvs = [] :=
  List.filter_eq_nil_iff.2 fun v hv => by simp [h v hv]

theorem checkStuck_of_openRvs {f : Flue} (h : f.openRvs = []) : f.checkStuck = f := by
  unfold Flue.checkStuck
  rw [h]
  exact ite_self _

theorem clearFlags_only (ns : List Nat) (f : Flue) : ∃ x, f.clearFlags ns = { f with flags := x } := by
  unfold Flue.clearFlags
  induction ns generalizing f with
  | nil => exact ⟨f.flags, rfl⟩
  | cons n ns ih =>
    obtain ⟨x, hx⟩ := ih (f.clearFlag (some n))
    exact ⟨x, hx⟩

theorem get_clearFlags (ns : List Nat) (f : Flue) (k : Nat) :
    SMap.get (f.clearFlags ns).flags k = SMap.get f.flags k - BitVec.ofNat 6 (ns.count k) := by
  unfold Flue.clearFlags
  induction ns generalizing f with
  | nil => simp
  | cons n ns ih =>
    rw [List.foldl_cons, ih, get_clearFlag, List.count_cons]
    by_cases h : n = k
    · simp [h, BitVec.ofNat_add, BitVec.sub_sub, BitVec.add_comm]
    · simp [h]

/-! ### A result arrives -/

/-- The flue that a result has arrived at, up to its flags: the elements are written and the result is no longer outstanding. -/
def Flue.received (f : Flue) (n : Nat) (o : Outstanding) : Flue :=
  ({ f with outs := f.outs.eraseIdx n } : Flue).writeAll (f.stillLatched o.seed o.writes)

theorem arrive_eq {f : Flue} {n : Nat} {o : Outstanding} (h : f.outs[n]? = some o) :
    ∃ fl, f.arrive n = { f.received n o with flags := fl } ∧
      ∀ k, SMap.get fl k = SMap.get f.flags k - (if o.flag = some k then 1 else 0) - BitVec.ofNat 6 (o.more.count k) := by
  have hr : f.arrive n = ((f.received n o).clearFlag o.flag).clearFlags o.more := by unfold Flue.arrive; rw [h]; rfl
  have hf : (f.received n o).flags = f.flags := by rw [Flue.received, writeAll_withRegs]; rfl
  obtain ⟨x, hx⟩ := clearFlag_only (f.received n o) o.flag
  obtain ⟨y, hy⟩ := clearFlags_only o.more ((f.received n o).clearFlag o.flag)
  refine ⟨y, by rw [hr, hy, hx], fun k => ?_⟩
  rw [← hf, ← get_clearFlag, ← get_clearFlags, hy]

theorem received_only (f : Flue) (n : Nat) (o : Outstanding) : f.received n o = { f.withRegs (f.received n o) with outs := f.outs.eraseIdx n } := by
  conv_lhs => rw [Flue.received, writeAll_withRegs]
  rfl

theorem mem_stillLatched {f : Flue} {seed : Nat} {ws : List LaneWrite} {w : LaneWrite} : w ∈ f.stillLatched seed ws ↔
    ∃ y ∈ ws, w = { y with toLatch := y.toLatch && Tab.get? f.lown y.lane == some seed } := by
  simp only [Flue.stillLatched, List.mem_map, eq_comm]

theorem received_written {f : Flue} {n : Nat} {o : Outstanding} (hw : ∀ w ∈ o.writes, w.lane < 32) : Written f (f.received n o) o.writes := by
  refine Written.of_latch (k := fun w => w.toLatch && Tab.get? f.lown w.lane == some o.seed)
    (Written.of_sameRegs (writeAll_written { f with outs := f.outs.eraseIdx n } fun w hm => ?_) ⟨rfl, rfl, rfl, rfl, rfl⟩ ⟨rfl, rfl, rfl, rfl, rfl⟩)
  obtain ⟨y, hy, rfl⟩ := List.mem_map.1 hm
  exact hw y hy

/-- The latch of a lane stays where another instruction has claimed it since, or the result has no element for it. -/
theorem received_keeps_latch {f : Flue} {n : Nat} {o : Outstanding} {l : Nat}
    (h : Tab.get? f.lown l ≠ some o.seed ∨ ∀ w ∈ o.writes, w.lane = l → w.toLatch = false) :
    SMap.get (f.received n o).l l = SMap.get f.l l ∧ Tab.get? (f.received n o).lown l = Tab.get? f.lown l := by
  have none' : ∀ w ∈ f.stillLatched o.seed o.writes, w.toLatch = true → w.lane ≠ l := by
    intro w hm ht e
    obtain ⟨y, hy, rfl⟩ := mem_stillLatched.1 hm
    simp only [Bool.and_eq_true, beq_iff_eq] at ht e
    obtain ⟨ht, hl⟩ := ht
    subst e
    rcases h with h | h
    · exact h hl
    · exact Bool.false_ne_true ((h y hy rfl).symm.trans ht)
  have not : ¬∃ w ∈ f.stillLatched o.seed o.writes, w.toLatch = true ∧ w.lane = l := fun ⟨w, hm, ht, e⟩ => none' w hm ht e
  exact ⟨(get_l_writeAll _ _ l 0 fun w hm ht e => absurd e (none' w hm ht)).trans (if_neg not), (get_lown_writeAll ..).trans (if_neg not)⟩

/-- The latch of a lane takes the result whose instruction is still the lane's most recent one. -/
theorem received_takes_latch {f : Flue} {n : Nat} {o : Outstanding} {w : LaneWrite} (hm : w ∈ o.writes) (ht : w.toLatch = true)
    (hl : Tab.get? f.lown w.lane = some o.seed) (hv : ∀ y ∈ o.writes, y.toLatch = true → y.lane = w.lane → y.val = w.val) :
    SMap.get (f.received n o).l w.lane = w.val ∧ Tab.get? (f.received n o).lown w.lane = none := by
  have some' : ∃ y ∈ f.stillLatched o.seed o.writes, y.toLatch = true ∧ y.lane = w.lane :=
    ⟨_, mem_stillLatched.2 ⟨w, hm, rfl⟩, by simp [ht, hl], rfl⟩
  have agree : ∀ y ∈ f.stillLatched o.seed o.writes, y.toLatch = true → y.lane = w.lane → y.val = w.val := by
    intro y hy hty e
    obtain ⟨z, hz, rfl⟩ := mem_stillLatched.1 hy
    exact hv z hz (Bool.and_eq_true_iff.1 hty).1 e
  exact ⟨(get_l_writeAll _ _ _ _ agree).trans (if_pos some'), (get_lown_writeAll ..).trans (if_pos some')⟩

theorem modFlue_of_flue? {s : State} {a b : Nat} {f : Flue} (h : s.flue? a b = some f) (k : Flue → Flue) :
    s.modFlue a b k = s.setFlue a b (k f) := by
  unfold State.modFlue
  rw [h]

theorem instructionComplete_arrives {s : State} {r : FlueRef} {n : Nat} {f : Flue} {o : Outstanding} (hf : s.flue? r.stove r.slot = some f)
    (ho : f.outs[n]? = some o) (hr : f.rvs = []) :
    exec (.instructionComplete r n) s = .next (s.setFlue r.stove r.slot (f.arrive n)) := by
  obtain ⟨fl, e, -⟩ := arrive_eq ho
  have hrvs : (f.arrive n).rvs = [] := by rw [e, received_only]; exact hr
  have hc : (f.arrive n).checkStuck = f.arrive n := checkStuck_of_openRvs (openRvs_of_rvs fun v hv => by simp [hrvs] at hv)
  exact congrArg Host.Outcome.next ((modFlue_of_flue? hf _).trans (by rw [hc]))

/-! ### Lanes that have waited step -/

theorem stepAll_only (f : Flue) (m : LaneMask) (a : DWord) : ∃ p t, f.stepAll m a = { f with pc := p, later := t } := ⟨_, _, rfl⟩

theorem getLsbD_mayStep (f : Flue) {l : Nat} (hl : l < 32) : f.mayStep.getLsbD l =
    (f.live.getLsbD l && (f.depthOf l == f.curDepth || (f.phase == .handler && f.clanes.getLsbD l))) := by
  unfold Flue.mayStep Flue.unparked
  rw [BitVec.getLsbD_or, BitVec.getLsbD_and, maskOf_getLsbD]
  by_cases hp : f.phase = .handler <;> simp [hp, hl, Bool.and_or_distrib_left]

theorem filter_lanes_map {β : Type} (m : LaneMask) (p : Nat → Bool) (a : β) :
    ((lanesOf m).map fun l => (l, a)).filter (fun t => p t.1) = ((lanesOf m).filter p).map fun l => (l, a) := by
  rw [List.filter_map]
  rfl

theorem get?_foldl_put {α : Type} (ks : List Nat) (a : Nat → α) (t : Tab α) (l : Nat) :
    Tab.get? ((ks.map fun k => (k, a k)).foldl (fun m x => Tab.put m x.1 x.2) t) l = if l ∈ ks then some (a l) else Tab.get? t l := by
  induction ks generalizing t with
  | nil => rfl
  | cons k ks ih =>
    rw [List.map_cons, List.foldl_cons, ih, Tab.get?_put]
    by_cases h : l ∈ ks
    · simp [h]
    · by_cases hk : l = k
      · simp [hk]
      · simp [h, hk]

theorem pcOf_stepAll (f : Flue) (m : LaneMask) (a : DWord) (l : Nat) :
    (f.stepAll m a).pcOf l = if (l < 32 ∧ m.getLsbD l = true) ∧ f.mayStep.getLsbD l = true then a else f.pcOf l := by
  unfold Flue.stepAll Flue.stepLanes Flue.pcOf
  simp only
  rw [filter_lanes_map m (fun l => f.mayStep.getLsbD l) a, SMap.get_setAll_map _ (fun _ => a)]
  simp only [List.mem_filter, mem_lanesOf]

theorem get?_later_stepAll (f : Flue) (m : LaneMask) (a : DWord) (l : Nat) :
    Tab.get? (f.stepAll m a).later l =
      if (l < 32 ∧ m.getLsbD l = true) ∧ f.live.getLsbD l = true ∧ f.mayStep.getLsbD l = false then some a else Tab.get? f.later l := by
  unfold Flue.stepAll Flue.stepLanes
  simp only
  rw [filter_lanes_map m (fun l => f.live.getLsbD l && !f.mayStep.getLsbD l) a, get?_foldl_put _ (fun _ => a)]
  simp only [List.mem_filter, mem_lanesOf, Bool.and_eq_true, Bool.not_eq_true']

/-! ### An escalation ends -/

/-- The result under way of an instruction arrives whose elements do not go to the latch and that counts on no flag. -/
theorem arriveSeed_plain {f : Flue} {seed : Nat}
    (h : ∀ o ∈ f.outs, o.seed = seed → o.flag = none ∧ o.more = [] ∧ ∀ w ∈ o.writes, w.lane < 32 ∧ w.toLatch = false) :
    ∃ g : Flue, ∃ fl, f.arriveSeed seed = { f.withRegs g with flags := fl, outs := f.outs.eraseP fun o => o.seed == seed } ∧
      Written f g (((f.outs.find? fun o => o.seed == seed).map (·.writes)).getD []) ∧ (∀ k, SMap.get fl k = SMap.get f.flags k) ∧
      ∀ l, SMap.get g.l l = SMap.get f.l l := by
  unfold Flue.arriveSeed
  rw [List.eraseP_eq_eraseIdx, List.find?_eq_bind_findIdx?_getElem?]
  cases hn : f.outs.findIdx? fun o => o.seed == seed with
  | none => exact ⟨f, f.flags, rfl, fun r l _ => ⟨fun _ => rfl, fun v _ ⟨w, hw, _⟩ => by cases hw⟩, fun _ => rfl, fun _ => rfl⟩
  | some n =>
    obtain ⟨hlt, hs, -⟩ := List.findIdx?_eq_some_iff_getElem.1 hn
    have ho : f.outs[n]? = some f.outs[n] := List.getElem?_eq_getElem hlt
    obtain ⟨hflag, hmore, hw⟩ := h _ (List.getElem_mem hlt) (beq_iff_eq.1 hs)
    obtain ⟨fl, e, hfl⟩ := arrive_eq ho
    refine ⟨f.received n f.outs[n], fl, ?_, ?_, fun k => ?_, fun l => ?_⟩
    · simp only
      rw [e]
      conv_lhs => rw [received_only]
    · simp only [Option.bind_some, ho, Option.map_some, Option.getD_some]
      exact received_written fun w hm => (hw w hm).1
    · rw [hfl, hflag, hmore]
      simp
    · exact (received_keeps_latch (.inr fun w hm _ => (hw w hm).2)).1

/-- The flue of the first lane of the unit after the lane is served. -/
def Flue.serve (f : Flue) (e : EscEntry) : Flue :=
  let d := f.writeAll e.writes
  let g := { (if e.flag.isSome then d.arriveSeed e.seed else d).clearFlag e.flag with escs := f.escs - 1 }
  match e.step with
  | none => g
  | some a => Flue.settle f { g.stepAll (laneBit e.lane) a with escLanes := g.escLanes &&& ~~~laneBit e.lane }

/-- What serving a lane does to its flue, as the statement says it. -/
def Served (f g : Flue) (e : EscEntry) : Prop :=
  let up := fun l => f.live.getLsbD l && (f.depthOf l == f.curDepth || (f.phase == .handler && f.clanes.getLsbD l))
  let ws := if e.flag = none then e.writes else ((f.outs.find? fun o => o.seed == e.seed).map (·.writes)).getD []
  g = { f with pc := g.pc, later := g.later, frames := g.frames, hframe := g.hframe, o := g.o, s := g.s, p := g.p, l := g.l,
               lown := g.lown, flags := g.flags, outs := if e.flag = none then f.outs else f.outs.eraseP fun o => o.seed == e.seed,
               escs := f.escs - 1, escLanes := g.escLanes } ∧
  Written f g ws ∧ (∀ k, SMap.get g.flags k = SMap.get f.flags k - if e.flag = some k then 1 else 0) ∧
  (∀ l < 32, g.pcOf l = if l = e.lane ∧ up l = true then e.step.getD (f.pcOf l) else f.pcOf l) ∧
  (∀ l, Tab.get? g.later l =
    if l = e.lane ∧ e.step.isSome = true ∧ f.live.getLsbD l = true ∧ up l = false then e.step else Tab.get? f.later l) ∧
  (∀ l < 32, let moved := e.step.isSome = true ∧ g.eligible.getLsbD l = true ∧ g.groupOf l ≠ f.groupOf l
    (moved → SMap.get g.l l = 0) ∧
    (¬moved → (∀ w ∈ e.writes, w.lane = l → w.toLatch = false) → SMap.get g.l l = SMap.get f.l l) ∧
    ∀ w ∈ e.writes, ¬moved → w.toLatch = true → w.lane = l → (∀ y ∈ e.writes, y.toLatch = true → y.lane = l → y.val = w.val) →
      SMap.get g.l l = w.val) ∧
  ∀ l < 32, g.escLanes.getLsbD l = (f.escLanes.getLsbD l && !(e.step.isSome && l == e.lane))

theorem serve_flag {f : Flue} {e : EscEntry} (hf : e.flag ≠ none) (hs : e.step = none) (hw : e.writes = [])
    (ho : ∀ o ∈ f.outs, o.seed = e.seed → o.flag = none ∧ o.more = [] ∧ ∀ w ∈ o.writes, w.lane < 32 ∧ w.toLatch = false) :
    Served f (f.serve e) e := by
  obtain ⟨n, hn⟩ := Option.ne_none_iff_exists'.1 hf
  obtain ⟨g, fl, ea, hg, hfl, hl⟩ := arriveSeed_plain ho
  obtain ⟨x, hx⟩ := clearFlag_only (f.arriveSeed e.seed) e.flag
  have hserve : f.serve e = { f.withRegs g with flags := x, outs := f.outs.eraseP fun o => o.seed == e.seed, escs := f.escs - 1 } := by
    unfold Flue.serve
    rw [hs, hw]
    simp only [hn, Option.isSome_some, if_true]
    rw [← hn, show f.writeAll [] = f from rfl, hx, ea]
  have hflags : ∀ k, SMap.get x k = SMap.get f.flags k - if e.flag = some k then 1 else 0 := fun k => by
    rw [← hfl k]
    have := get_clearFlag (f.arriveSeed e.seed) e.flag k
    rwa [hx, ea] at this
  rw [hserve]
  unfold Served
  simp only [hs, hw, if_neg hf]
  refine ⟨rfl, Written.of_sameRegs hg ⟨rfl, rfl, rfl, rfl, rfl⟩ ⟨rfl, rfl, rfl, rfl, rfl⟩, hflags, fun l _ => ?_, fun l => ?_, fun l _ => ?_, fun l _ => ?_⟩
  · exact (ite_self _).symm
  · simp [Flue.withRegs]
  · simp only [Option.isSome_none, Bool.false_eq_true, false_and, false_implies, not_false_eq_true, true_implies, true_and]
    exact ⟨fun _ => hl l, fun w hm => by cases hm⟩
  · simp [Flue.withRegs]

theorem curDepth_writeAll (f : Flue) (ws : List LaneWrite) : (f.writeAll ws).curDepth = f.curDepth := by
  have := congrArg List.length (writeAll_shape ws f)
  rw [List.length_map, List.length_map] at this
  exact congrArg (· - 1) this

theorem serve_stays {f : Flue} {e : EscEntry} (hf : e.flag = none) (hs : e.step = none) (hw : ∀ w ∈ e.writes, w.lane < 32) :
    Served f (f.serve e) e := by
  have hserve : f.serve e = { f.withRegs (f.writeAll e.writes) with escs := f.escs - 1 } := by
    unfold Flue.serve
    rw [hs, hf]
    simp only [Option.isSome_none, Bool.false_eq_true, if_false, Flue.clearFlag]
    conv_lhs => rw [writeAll_withRegs]
  rw [hserve]
  unfold Served
  simp only [hs, if_pos hf]
  refine ⟨rfl, Written.of_sameRegs (writeAll_written f hw) ⟨rfl, rfl, rfl, rfl, rfl⟩ ⟨rfl, rfl, rfl, rfl, rfl⟩, fun k => ?_, fun l _ => ?_, fun l => ?_,
    fun l _ => ?_, fun l _ => ?_⟩
  · simp [hf, Flue.withRegs]
  · exact (ite_self _).symm
  · simp [Flue.withRegs]
  · simp only [Option.isSome_none, Bool.false_eq_true, false_and, false_implies, not_false_eq_true, true_implies, true_and]
    refine ⟨fun hk => ?_, fun w hm ht e' hv => ?_⟩
    · exact (get_l_writeAll e.writes f l 0 fun w hm ht e' => absurd ht (by simp [hk w hm e'])).trans
        (if_neg fun ⟨w, hm, ht, e'⟩ => by simp [hk w hm e'] at ht)
    · exact (get_l_writeAll e.writes f l w.val hv).trans (if_pos ⟨w, hm, ht, e'⟩)
  · simp [Flue.withRegs]

/-- The lanes that move when they step, after elements are written. -/
theorem mayStep_writeAll (f : Flue) (ws : List LaneWrite) {l : Nat} (hl : l < 32) : (f.writeAll ws).mayStep.getLsbD l =
    (f.live.getLsbD l && (f.depthOf l == f.curDepth || (f.phase == .handler && f.clanes.getLsbD l))) := by
  rw [getLsbD_mayStep _ hl, curDepth_writeAll, writeAll_withRegs]
  rfl

/-- Lane `l` steps to `a` and waits for the unit no longer; one element of the unit's queue is served. -/
def Flue.stepped (d : Flue) (l : Nat) (a : DWord) (n : Nat) : Flue :=
  { ({ d with escs := n } : Flue).stepAll (laneBit l) a with escLanes := d.escLanes &&& ~~~laneBit l }

theorem stepped_only {f d : Flue} (hd : d = f.withRegs d) (l : Nat) (a : DWord) (n : Nat) :
    ∃ p t, d.stepped l a n = { f.withRegs d with pc := p, later := t, escs := n, escLanes := f.escLanes &&& ~~~laneBit l } := by
  obtain ⟨p, t, h⟩ := stepAll_only { d with escs := n } (laneBit l) a
  refine ⟨p, t, ?_⟩
  rw [Flue.stepped, h, hd]
  rfl

theorem pcOf_stepped (d : Flue) {l : Nat} (a : DWord) (n : Nat) (hl : l < 32) (k : Nat) :
    (d.stepped l a n).pcOf k = if k = l ∧ d.mayStep.getLsbD k = true then a else d.pcOf k := by
  refine (pcOf_stepAll _ _ _ k).trans (if_congr ?_ rfl rfl)
  rw [laneBit_getLsbD _ _ hl, decide_eq_true_eq]
  exact and_congr_left' ⟨And.right, fun h => ⟨h ▸ hl, h⟩⟩

theorem get?_later_stepped (d : Flue) {l : Nat} (a : DWord) (n : Nat) (hl : l < 32) (k : Nat) : Tab.get? (d.stepped l a n).later k =
    if k = l ∧ d.live.getLsbD k = true ∧ d.mayStep.getLsbD k = false then some a else Tab.get? d.later k := by
  refine (get?_later_stepAll _ _ _ k).trans (if_congr ?_ rfl rfl)
  rw [laneBit_getLsbD _ _ hl, decide_eq_true_eq]
  exact and_congr_left' ⟨And.right, fun h => ⟨h ▸ hl, h⟩⟩

theorem serve_steps {f : Flue} {e : EscEntry} {a : DWord} (hf : e.flag = none) (hs : e.step = some a) (hw : ∀ w ∈ e.writes, w.lane < 32)
    (hlane : e.lane < 32) : Served f (f.serve e) e := by
  have hserve : f.serve e = Flue.settle f ((f.writeAll e.writes).stepped e.lane a (f.escs - 1)) := by
    unfold Flue.serve
    rw [hs, hf]
    rfl
  have hwr := writeAll_written f hw
  have hl0 := get_l_writeAll e.writes f
  have hup : ∀ l < 32, _ := fun l hl => mayStep_writeAll f e.writes hl
  have hd := writeAll_withRegs e.writes f
  have hp := pcOf_stepped (f.writeAll e.writes) a (f.escs - 1) hlane
  have ht := get?_later_stepped (f.writeAll e.writes) a (f.escs - 1) hlane
  obtain ⟨p, t, hk⟩ := stepped_only hd e.lane a (f.escs - 1)
  have hll : ((f.writeAll e.writes).stepped e.lane a (f.escs - 1)).l = (f.writeAll e.writes).l := by rw [hk]; rfl
  generalize (f.writeAll e.writes).stepped e.lane a (f.escs - 1) = k at *
  have hpc : ∀ l, (f.writeAll e.writes).pcOf l = f.pcOf l := fun l => by rw [hd]; rfl
  have hlater : (f.writeAll e.writes).later = f.later := by rw [hd]; rfl
  have hlive : (f.writeAll e.writes).live = f.live := by rw [hd]; rfl
  generalize f.writeAll e.writes = d at *
  obtain ⟨x, y, hset⟩ := settle_only f k
  have hl' := get_l_settle f k
  rw [hserve]
  unfold Served
  simp only [hs, if_pos hf, Option.isSome_some, Option.getD_some, true_and]
  generalize Flue.settle f k = g at *
  have hgp : ∀ l, g.pcOf l = k.pcOf l := fun l => by rw [hset]; rfl
  have hgt : g.later = k.later := by rw [hset]
  have hge : k.eligible = g.eligible := by rw [hset]; rfl
  have hgg : k.groupOf = g.groupOf := by rw [hset]; rfl
  rw [hge, hgg] at hl'
  refine ⟨?_, ?_, fun n => ?_, fun l hl => ?_, fun l => ?_, fun l hl => ⟨fun hm => ?_, fun hm hq => ?_, fun w hmem hm ht he hv => ?_⟩, fun l hl => ?_⟩
  · rw [hset, hk]
    rfl
  · rw [hset, hk]
    exact Written.of_sameRegs hwr ⟨rfl, rfl, rfl, rfl, rfl⟩ ⟨rfl, rfl, rfl, rfl, rfl⟩
  · rw [hset, hk, hf]
    exact (BitVec.sub_zero _).symm
  · rw [hgp, hp, hup l hl, hpc]
  · rw [hgt, ht, hlive, hlater]
    by_cases h : l = e.lane
    · rw [h, hup _ hlane]
    · rw [if_neg fun c => h c.1, if_neg fun c => h c.1]
  · exact (hl' l hl).trans (if_pos hm)
  · rw [hl' l hl, if_neg hm, hll, hl0 l 0 fun w hw ht e' => absurd ht (by simp [hq w hw e'])]
    exact if_neg fun ⟨w, hw, ht, e'⟩ => by simp [hq w hw e'] at ht
  · rw [hl' l hl, if_neg hm, hll, hl0 l w.val hv, if_pos ⟨w, hmem, ht, he⟩]
  · rw [hset, hk]
    refine (BitVec.getLsbD_and ..).trans (congrArg _ ?_)
    rw [BitVec.getLsbD_not, laneBit_getLsbD _ _ hlane, decide_eq_true hl, Bool.true_and]
    rfl

theorem escalationComplete_serves {s : State} {stove : Nat} {e : EscEntry} {rest : List EscEntry} {f : Flue}
    (he : (s.stove stove).esc = e :: rest) (hf : s.flue? stove e.slot = some f) (hr : f.rvs = []) (served : Served f (f.serve e) e) :
    exec (.geomEscalationComplete stove) s =
      .next ((s.setStove stove { s.stove stove with esc := rest }).setFlue stove e.slot (f.serve e)) := by
  have hf' : (s.setStove stove { s.stove stove with esc := rest }).flue? stove e.slot = some f := by
    rw [State.flue?, State.stove_setStove, if_pos rfl]
    exact hf
  have hrvs : (f.serve e).rvs = [] := by rw [served.1]; exact hr
  have hc : (f.serve e).checkStuck = f.serve e := checkStuck_of_openRvs (openRvs_of_rvs fun v hv => by simp [hrvs] at hv)
  have : exec (.geomEscalationComplete stove) s = execGeomEscalationComplete stove s := rfl
  rw [this, execGeomEscalationComplete, he]
  refine congrArg Host.Outcome.next ((modFlue_of_flue? hf' _).trans (congrArg _ ?_))
  exact hc

/-- Settles O13: the outstanding result, then the lane of the unit by whether it counts on a flag and whether it steps. -/
theorem lateResultsArrive : Obligations.LateResultsArrive := by
  refine ⟨fun s r n f o hf ho hr hw => ?_, fun s stove e rest f he hf hr hw hl hflag ho => ?_⟩
  · obtain ⟨fl, e, hfl⟩ := arrive_eq ho
    refine ⟨f.arrive n, instructionComplete_arrives hf ho hr, ?_, ?_, ?_, ?_, ?_⟩
    · rw [e, received_only]
      rfl
    · rw [e]
      exact Written.of_sameRegs (received_written hw) ⟨rfl, rfl, rfl, rfl, rfl⟩ ⟨rfl, rfl, rfl, rfl, rfl⟩
    · rw [e]
      exact hfl
    · rw [e]
      exact fun l _ h => received_keeps_latch h
    · rw [e]
      exact fun w hm ht hl hv => received_takes_latch hm ht hl hv
  · have served : Served f (f.serve e) e := by
      by_cases h : e.flag = none
      · cases hs : e.step with
        | none => exact serve_stays h hs hw
        | some a => exact serve_steps h hs hw hl
      · obtain ⟨hs, hw'⟩ := hflag h
        exact serve_flag h hs hw' ho
    exact ⟨f.serve e, escalationComplete_serves he hf hr served, served⟩

end Sys2Proof.Machine
end


section
/-! PROOF of O15: a rendezvous that waits, one whose latency ends, and what REDUX and SCAN make of integers (08 R175-R183). -/

namespace Sys2Proof.Machine

open Sys2Proof.Claims

/-! ### The last check of a flue (08 R177) -/

theorem getLsbD_lanes_union (vs : List Rendezvous) (m : LaneMask) (l : Nat) :
    (vs.foldl (fun m rv => m ||| rv.lanes) m).getLsbD l = (m.getLsbD l || vs.any fun v => v.lanes.getLsbD l) := by
  induction vs generalizing m with
  | nil => simp
  | cons v vs ih => rw [List.foldl_cons, ih, BitVec.getLsbD_or, List.any_cons, Bool.or_assoc]

/-- Nothing breaks while a lane that may issue has arrived at no open rendezvous. -/
theorem checkStuck_of_free {f : Flue} {l : Nat} (he : f.eligible.getLsbD l = true) (h : ∀ v ∈ f.openRvs, v.lanes.getLsbD l = false) :
    f.checkStuck = f := by
  have hl : l < 32 := BitVec.lt_of_getLsbD he
  have bit : (f.eligible &&& ~~~(f.openRvs.foldl (fun m rv => m ||| rv.lanes) 0)).getLsbD l = true := by
    rw [BitVec.getLsbD_and, BitVec.getLsbD_not, getLsbD_lanes_union, List.any_eq_false.2 fun v hv => by simp [h v hv]]
    simp [he, hl]
  have hne : (f.eligible &&& ~~~(f.openRvs.foldl (fun m rv => m ||| rv.lanes) 0) == 0) = false := by
    rw [beq_eq_false_iff_ne]
    intro e
    rw [e] at bit
    exact Bool.false_ne_true ((BitVec.getLsbD_zero ..).symm.trans bit)
  unfold Flue.checkStuck
  rw [hne, Bool.and_false, Bool.false_and]
  exact if_neg Bool.false_ne_true

/-! ### Lanes that fail (13 R300, R304) -/

theorem fail_only (f : Flue) (c : Nat) (m : LaneMask) (pc next : DWord) : ∃ p t, f.fail c m pc next = { f with pc := p, pending := t } := by
  obtain ⟨t, ht⟩ := pend_only f c m pc (f.resumeAt pc) 0 []
  unfold Flue.fail
  rw [ht]
  split
  · exact ⟨_, t, rfl⟩
  · exact ⟨f.pc, t, rfl⟩

theorem pcOf_pend (f : Flue) (c : Nat) (m : LaneMask) (a r : DWord) (l : Nat) : (f.pend c m a r).pcOf l = f.pcOf l := by
  obtain ⟨t, ht⟩ := pend_only f c m a r 0 []
  rw [ht]
  rfl

theorem pcOf_fail (f : Flue) (c : Nat) (m : LaneMask) (pc next : DWord) {l : Nat} (hl : l < 32) :
    (f.fail c m pc next).pcOf l = if f.phase = .handler ∧ m.getLsbD l = true then next else f.pcOf l := by
  unfold Flue.fail
  split
  · rw [pcOf_setPc, pcOf_pend]
    simp [*]
  · rw [pcOf_pend]
    simp [*]

theorem mem_fail (f : Flue) (c : Nat) {m : LaneMask} (pc next : DWord) (hm : m ≠ 0) :
    ∃ p, Tab.get? (f.fail c m pc next).pending c = some p ∧ p.lanes &&& m = m := by
  have : (f.fail c m pc next).pending = (f.pend c m pc (f.resumeAt pc)).pending := by
    unfold Flue.fail
    split <;> rfl
  rw [this]
  cases h : Tab.get? f.pending c with
  | none => exact ⟨_, pend_new f c m _ _ 0 [] hm h, BitVec.and_self⟩
  | some p =>
    obtain ⟨q, hq, hlanes, -, -⟩ := pend_again f c m pc (f.resumeAt pc) 0 [] p hm h
    exact ⟨q, hq, by rw [hlanes]; ext k hk; simp only [BitVec.getElem_and, BitVec.getElem_or]; cases m[k] <;> simp⟩

/-! ### Lanes that arrive -/

/-- The lanes of the group that the mask does not name have left: those whose guard holds fail, the others step past. -/
def Flue.turnAway (f : Flue) (i : Issue) (m hold : LaneMask) : Flue :=
  (f.setPc (i.lanes &&& ~~~m &&& ~~~hold) i.next).fail cILLEGAL (i.lanes &&& ~~~m &&& hold) i.pc i.next

theorem turnAway_only (f : Flue) (i : Issue) (m hold : LaneMask) : ∃ p t, f.turnAway i m hold = { f with pc := p, pending := t } := by
  obtain ⟨p, t, h⟩ := fail_only (f.setPc (i.lanes &&& ~~~m &&& ~~~hold) i.next) cILLEGAL (i.lanes &&& ~~~m &&& hold) i.pc i.next
  exact ⟨p, t, h⟩

theorem pcOf_turnAway (f : Flue) (i : Issue) {m : LaneMask} (hold : LaneMask) {l : Nat} (h : m.getLsbD l = true) :
    (f.turnAway i m hold).pcOf l = f.pcOf l := by
  unfold Flue.turnAway
  rw [pcOf_fail _ _ _ _ _ (BitVec.lt_of_getLsbD h), pcOf_setPc]
  simp [h]

/-- The mask that the instruction names. -/
def Issue.named (i : Issue) (x : LArgs) : LaneMask := (i.src x.lit).word x.c 0
/-- The lanes that arrive. -/
def Issue.arriving (i : Issue) (x : LArgs) : LaneMask := i.lanes &&& i.named x
/-- The flag that rises when one of the arriving lanes acts. -/
def Issue.raised (i : Issue) (x : LArgs) : Option Nat := if i.arriving x &&& i.view.guard x.guard = 0 then none else i.flag x.f
theorem raised_eq_some (i : Issue) (x : LArgs) (k : Nat) :
    i.raised x = some k ↔ i.arriving x &&& i.view.guard x.guard ≠ 0 ∧ i.flag x.f = some k := by
  unfold Issue.raised
  by_cases h : i.arriving x &&& i.view.guard x.guard = 0 <;> simp [h]

theorem raised_toList (i : Issue) (x : LArgs) :
    (i.raised x).toList = if i.arriving x &&& i.view.guard x.guard ≠ 0 then (i.flag x.f).toList else [] := by
  unfold Issue.raised
  rw [apply_ite Option.toList, ite_not, Option.toList_none]

/-- What an arriving lane supplies. -/
def Issue.supplied (i : Issue) (x : LArgs) (l : Nat) : RvMember :=
  { capture x (i.src x.lit) l with guard := (i.view.guard x.guard).getLsbD l }
/-- The rendezvous that the arriving lanes begin. -/
def Issue.begun (i : Issue) (x : LArgs) : Rendezvous :=
  { pc := i.pc, depth := i.view.curDepth, next := i.next, mask := i.named x, flags := (i.raised x).toList,
    members := ((lanesOf (i.arriving x)).map fun l => (l, i.supplied x l)).foldl (fun t p => Tab.put t p.1 p.2) [] }

theorem member_begun (x : LArgs) (i : Issue) {l : Nat} (hl : l < 32) :
    Tab.get? (i.begun x).members l = if (i.arriving x).getLsbD l = true then some (i.supplied x l) else none := by
  refine (get?_foldl_put _ (i.supplied x) [] l).trans (if_congr ?_ rfl rfl)
  rw [mem_lanesOf, and_iff_right hl]

theorem lanes_begun (x : LArgs) (i : Issue) : (i.begun x).lanes = i.arriving x := by
  ext l hl
  rw [← BitVec.getLsbD_eq_getElem, ← BitVec.getLsbD_eq_getElem, Rendezvous.lanes, maskOf_getLsbD, member_begun x i hl]
  cases h : (i.arriving x).getLsbD l <;> simp [hl]

theorem getLsbD_noLanes (l : Nat) : (0 : LaneMask).getLsbD l = false := BitVec.getLsbD_zero

theorem outside_eq_zero {m a : LaneMask} : m &&& ~~~a = 0 ↔ a &&& m = m := by
  constructor <;> intro h <;> ext k hk
  · have := congrArg (BitVec.getLsbD · k) h
    simp only [BitVec.getLsbD_and, BitVec.getLsbD_not, getLsbD_noLanes, hk, decide_true, Bool.true_and] at this
    rw [← BitVec.getLsbD_eq_getElem, ← BitVec.getLsbD_eq_getElem, BitVec.getLsbD_and]
    revert this
    cases m.getLsbD k <;> cases a.getLsbD k <;> simp
  · have := congrArg (BitVec.getLsbD · k) h
    simp only [BitVec.getLsbD_and] at this
    rw [← BitVec.getLsbD_eq_getElem, BitVec.getLsbD_and, BitVec.getLsbD_not, ← BitVec.getLsbD_eq_getElem, getLsbD_noLanes]
    revert this
    cases m.getLsbD k <;> cases a.getLsbD k <;> simp

/-- The rendezvous under way that lanes at the instruction would join. -/
theorem noneOpen {i : Issue} {rvs : List Rendezvous} (h : ∀ rv ∈ rvs, rv.pc = i.pc → rv.depth = i.view.curDepth → rv.done = true) :
    (rvs.find? fun r => r.pc == i.pc && r.depth == i.view.curDepth && !r.done) = none :=
  List.find?_eq_none.2 fun rv hrv => by simpa [and_imp] using h rv hrv

section
variable {x : LArgs} {s : State} {i : Issue} {f : Flue} (hi : Issuing s i f)
  (hopen : ∀ rv ∈ f.rvs, rv.pc = i.pc → rv.depth = i.view.curDepth → rv.done = true) (harr : i.arriving x ≠ 0)
include hi hopen harr

theorem rendezvous_waits (out : Flue → LaneMask → Tab RvMember → RvOut) (hm : i.arriving x ≠ i.named x)
    (hlive : f.live &&& i.named x = i.named x) (hdeep : ∀ l < 32, (i.named x).getLsbD l = true → i.view.curDepth ≤ i.view.depthOf l) :
    rendezvous x (capture x) out s = .next (s.setFlue i.stove i.slot (Flue.checkStuck
      { (f.turnAway i (i.named x) (i.view.guard x.guard)).setFlag (i.raised x) with rvs := f.rvs ++ [i.begun x] })) := by
  have hfind := noneOpen hopen
  have hdead : i.named x &&& ~~~f.live = 0 := outside_eq_zero.2 hlive
  have hparked : (i.named x &&& maskOf fun l => i.view.depthOf l < i.view.curDepth) = 0 := by
    ext l hl
    rw [← BitVec.getLsbD_eq_getElem, BitVec.getLsbD_and, maskOf_getLsbD, ← BitVec.getLsbD_eq_getElem, getLsbD_noLanes]
    cases h : (i.named x).getLsbD l
    · rfl
    · simpa [hl] using hdeep l hl h
  have hrvs : ((f.turnAway i (i.named x) (i.view.guard x.guard)).setFlag (i.raised x)).rvs = f.rvs := by
    obtain ⟨p, t, e⟩ := turnAway_only f i (i.named x) (i.view.guard x.guard)
    obtain ⟨y, e'⟩ := setFlag_only (f.turnAway i (i.named x) (i.view.guard x.guard)) (i.raised x)
    rw [e', e]
  have hkeep : (f.rvs.filter fun r => !(r.pc == i.pc && r.depth == i.view.curDepth && !r.done)) = f.rvs :=
    List.filter_eq_self.2 fun r hr => by rw [Bool.not_eq_true', ← Bool.not_eq_true]; exact List.find?_eq_none.1 hfind r hr
  rw [rendezvous, onFlue_next hi]
  simp only
  change Host.Outcome.next (s.setFlue i.stove i.slot (Flue.checkStuck (if i.arriving x = 0 then _ else _))) = _
  rw [if_neg harr, hfind]
  simp only
  change Host.Outcome.next (s.setFlue i.stove i.slot (Flue.checkStuck
    (if (decide (i.named x &&& ~~~f.live ≠ 0) || decide ((i.named x &&& maskOf fun l => i.view.depthOf l < i.view.curDepth) ≠ 0)) = true then _ else
      if (i.begun x).lanes = i.named x then _ else _))) = _
  rw [if_neg (by simp [hdead, hparked]), lanes_begun, if_neg hm, ← hkeep]
  conv_rhs => rw [← hrvs]
  rfl

theorem rendezvous_refused (out : Flue → LaneMask → Tab RvMember → RvOut) (hlive : f.live &&& i.named x ≠ i.named x) :
    rendezvous x (capture x) out s = .next (s.setFlue i.stove i.slot
      ((f.turnAway i (i.named x) (i.view.guard x.guard)).fail cILLEGAL (i.arriving x) i.pc i.next).checkStuck) := by
  have hfind := noneOpen hopen
  have hdead : i.named x &&& ~~~f.live ≠ 0 := mt outside_eq_zero.1 hlive
  rw [rendezvous, onFlue_next hi]
  simp only
  change Host.Outcome.next (s.setFlue i.stove i.slot (Flue.checkStuck (if i.arriving x = 0 then _ else _))) = _
  rw [if_neg harr, hfind]
  simp only
  rw [if_pos]
  · rfl
  · exact Bool.or_eq_true_iff.2 (.inl (decide_eq_true hdead))

/-- Lanes that arrive before the others stay, with what was captured from them. -/
theorem arrivals_wait (out : Flue → LaneMask → Tab RvMember → RvOut) (hm : i.arriving x ≠ i.named x)
    (hlive : f.live &&& i.named x = i.named x) (hdeep : ∀ l < 32, (i.named x).getLsbD l = true → i.view.curDepth ≤ i.view.depthOf l)
    (hfree : ∃ l < 32, f.eligible.getLsbD l = true ∧ (i.named x).getLsbD l = false ∧ ∀ v ∈ f.openRvs, v.lanes.getLsbD l = false) :
    ∃ g : Flue, rendezvous x (capture x) out s = .next (s.setFlue i.stove i.slot g) ∧
      g = { f with pc := g.pc, pending := g.pending, rvs := f.rvs ++ [i.begun x], flags := g.flags } ∧
      (∀ k, SMap.get g.flags k = SMap.get f.flags k + if i.raised x = some k then 1 else 0) ∧
      ∀ l < 32, (i.arriving x).getLsbD l = true → g.pcOf l = f.pcOf l := by
  have hrun := rendezvous_waits hi hopen harr out hm hlive hdeep
  have hflag := get_setFlag (f.turnAway i (i.named x) (i.view.guard x.guard)) (i.raised x)
  have hpc : ∀ l < 32, (i.arriving x).getLsbD l = true → (f.turnAway i (i.named x) (i.view.guard x.guard)).pcOf l = f.pcOf l := fun l _ ha =>
    pcOf_turnAway f i _ (Bool.and_eq_true_iff.1 ((BitVec.getLsbD_and ..).symm.trans ha)).2
  obtain ⟨p, t, e⟩ := turnAway_only f i (i.named x) (i.view.guard x.guard)
  obtain ⟨y, e'⟩ := setFlag_only (f.turnAway i (i.named x) (i.view.guard x.guard)) (i.raised x)
  obtain ⟨l, hl, he, hout, hfree⟩ := hfree
  rw [e'] at hrun hflag
  rw [e] at hrun hflag hpc
  have hstays := checkStuck_of_free (f := { f with pc := p, pending := t, flags := y, rvs := f.rvs ++ [i.begun x] }) he fun v hv => by
    obtain ⟨hmem, hopen⟩ := List.mem_filter.1 hv
    rcases List.mem_append.1 hmem with hmem | hmem
    · exact hfree v (List.mem_filter.2 ⟨hmem, hopen⟩)
    · rw [List.mem_singleton.1 hmem, lanes_begun, Issue.arriving, BitVec.getLsbD_and, hout, Bool.and_false]
  exact ⟨_, hrun.trans (congrArg (fun g => Host.Outcome.next (s.setFlue i.stove i.slot g)) hstays), rfl, hflag, hpc⟩

/-- Lanes that arrive with a mask that names a lane that has exited raise ILLEGAL. -/
theorem arrivals_refused (out : Flue → LaneMask → Tab RvMember → RvOut) (hlive : f.live &&& i.named x ≠ i.named x)
    (hfree : ∃ l < 32, f.eligible.getLsbD l = true ∧ ∀ v ∈ f.openRvs, v.lanes.getLsbD l = false) :
    ∃ (g : Flue) (p : Pending), rendezvous x (capture x) out s = .next (s.setFlue i.stove i.slot g) ∧
      g = { f with pc := g.pc, pending := g.pending } ∧ Tab.get? g.pending cILLEGAL = some p ∧ p.lanes &&& i.arriving x = i.arriving x ∧
      ∀ l < 32, (i.arriving x).getLsbD l = true → g.pcOf l = if f.phase = .handler then i.next else f.pcOf l := by
  have hrun := rendezvous_refused hi hopen harr out hlive
  have hpc : ∀ l < 32, (i.arriving x).getLsbD l = true → (f.turnAway i (i.named x) (i.view.guard x.guard)).pcOf l = f.pcOf l := fun l _ ha =>
    pcOf_turnAway f i _ (Bool.and_eq_true_iff.1 ((BitVec.getLsbD_and ..).symm.trans ha)).2
  obtain ⟨p, t, e⟩ := turnAway_only f i (i.named x) (i.view.guard x.guard)
  rw [e] at hrun hpc
  obtain ⟨q, hq, hlanes⟩ := mem_fail { f with pc := p, pending := t } cILLEGAL i.pc i.next harr
  have hfail := fun l (hl : l < 32) => pcOf_fail { f with pc := p, pending := t } cILLEGAL (i.arriving x) i.pc i.next hl
  obtain ⟨p', t', e'⟩ := fail_only { f with pc := p, pending := t } cILLEGAL (i.arriving x) i.pc i.next
  rw [e'] at hrun hq hfail
  obtain ⟨l, hl, he, hfree⟩ := hfree
  have hstays := checkStuck_of_free (f := { f with pc := p', pending := t' }) he hfree
  refine ⟨_, q, hrun.trans (congrArg (fun g => Host.Outcome.next (s.setFlue i.stove i.slot g)) hstays), rfl, hq, hlanes, fun l hl ha => ?_⟩
  refine (hfail l hl).trans ?_
  rw [hpc l hl ha, ha]
  exact if_congr (and_iff_left rfl) rfl rfl
end

/-- Every rendezvous instruction runs the rendezvous with what its lanes supply. -/
theorem exec_rendezvous {x : LArgs} {ins : Instr}
    (h : ins ∈ [Instr.peek x, .vote x, .voteBal x, .matchLanes x, .redux x, .scan x, .conv x]) :
    ∃ out, ∀ s, exec ins s = rendezvous x (capture x) out s := by
  simp only [List.mem_cons, List.not_mem_nil, or_false] at h
  rcases h with rfl | rfl | rfl | rfl | rfl | rfl | rfl
  exacts [⟨peekOut x, fun _ => rfl⟩, ⟨voteOut x, fun _ => rfl⟩, ⟨balOut x, fun _ => rfl⟩, ⟨matchOut x, fun _ => rfl⟩,
    ⟨combineOut x fun _ _ => true, fun _ => rfl⟩, ⟨combineOut x fun l j => if x.modx.getLsbD 3 then decide (j < l) else decide (j ≤ l), fun _ => rfl⟩,
    ⟨fun _ _ _ => {}, fun _ => rfl⟩]

/-! ### The latency of a complete rendezvous ends (08 R176, R180) -/

/-- The flue once its complete rendezvous has been written. -/
def Flue.written (f : Flue) (rv : Rendezvous) : Flue :=
  let g := (({ f with rvs := f.rvs.filter fun v => v != rv } : Flue).writeAll rv.writes).stepAll rv.lanes rv.next
  if rv.keepL then Flue.settle f g else (Flue.settle f g).clearL rv.lanes

theorem resultWrite_eq {s : State} {r : FlueRef} {pc : DWord} {f : Flue} {rv : Rendezvous} (hf : s.flue? r.stove r.slot = some f)
    (hrv : f.rvs.find? (fun v => v.done && v.pc == pc) = some rv) :
    exec (.rendezvousResultWrite r pc) s = .next (s.setFlue r.stove r.slot (f.written rv).checkStuck) := by
  have : exec (.rendezvousResultWrite r pc) s = execRendezvousResultWrite r pc s := rfl
  rw [this, execRendezvousResultWrite]
  refine congrArg Host.Outcome.next ((modFlue_of_flue? hf _).trans ?_)
  rw [hrv, Flue.written]

/-- The latch when the latency of a rendezvous has ended and its members have stepped past. -/
theorem get_l_written {f k : Flue} {rv : Rendezvous} {l : Nat} (hl : l < 32) :
    SMap.get (if rv.keepL then Flue.settle f k else (Flue.settle f k).clearL rv.lanes).l l =
      if rv.keepL = false ∧ rv.lanes.getLsbD l = true then 0#32
      else if k.eligible.getLsbD l = true ∧ k.groupOf l ≠ f.groupOf l then 0#32 else SMap.get k.l l := by
  cases rv.keepL with
  | false =>
    rw [if_neg Bool.false_ne_true, get_clearL, get_l_settle f k l hl]
    simp only [hl, true_and]
  | true =>
    rw [if_pos rfl, get_l_settle f k l hl]
    exact (if_neg fun h => Bool.false_ne_true h.1.symm).symm

/-- Ending the latency of a rendezvous leaves all but the latch as the step past it does. -/
theorem latched_only (f k : Flue) (rv : Rendezvous) :
    ∃ x y, (if rv.keepL then Flue.settle f k else (Flue.settle f k).clearL rv.lanes) = { k with l := x, lown := y } := by
  cases rv.keepL
  · exact ⟨_, _, rfl⟩
  · exact ⟨_, _, rfl⟩

/-- What ending the latency of a rendezvous does to its flue, as the statement says it. -/
def Ended (f g : Flue) (rv : Rendezvous) : Prop :=
  g = { f with pc := g.pc, later := g.later, frames := g.frames, hframe := g.hframe, o := g.o, s := g.s, p := g.p, l := g.l,
               lown := g.lown, rvs := f.rvs.filter fun v => v != rv } ∧
  let up := fun l => f.live.getLsbD l && (f.depthOf l == f.curDepth || (f.phase == .handler && f.clanes.getLsbD l))
  Written f g rv.writes ∧ (∀ l < 32, g.pcOf l = if rv.lanes.getLsbD l = true ∧ up l = true then rv.next else f.pcOf l) ∧
  (∀ l < 32, Tab.get? g.later l =
    if rv.lanes.getLsbD l = true ∧ f.live.getLsbD l = true ∧ up l = false then some rv.next else Tab.get? f.later l) ∧
  (rv.keepL = false → ∀ l < 32, rv.lanes.getLsbD l = true → SMap.get g.l l = 0) ∧
  (rv.keepL = true → (∀ w ∈ rv.writes, w.toLatch = false) →
    ∀ l < 32, SMap.get g.l l = if g.eligible.getLsbD l = true ∧ g.groupOf l ≠ f.groupOf l then 0 else SMap.get f.l l)

theorem written_ended {f : Flue} {rv : Rendezvous} (hw : ∀ w ∈ rv.writes, w.lane < 32) : Ended f (f.written rv) rv := by
  have hd := writeAll_withRegs rv.writes { f with rvs := f.rvs.filter fun v => v != rv }
  have hwr := writeAll_written { f with rvs := f.rvs.filter fun v => v != rv } hw
  have hlatch := get_l_writeAll rv.writes { f with rvs := f.rvs.filter fun v => v != rv }
  have hup := fun l (hl : l < 32) => mayStep_writeAll { f with rvs := f.rvs.filter fun v => v != rv } rv.writes hl
  unfold Flue.written
  simp only
  generalize Flue.writeAll { f with rvs := f.rvs.filter fun v => v != rv } rv.writes = d at *
  have hpc := pcOf_stepAll d rv.lanes rv.next
  have hlater := get?_later_stepAll d rv.lanes rv.next
  obtain ⟨p, t, hk⟩ := stepAll_only d rv.lanes rv.next
  have hl := fun l (hl : l < 32) => get_l_written (f := f) (k := d.stepAll rv.lanes rv.next) (rv := rv) hl
  obtain ⟨x, y, hg⟩ := latched_only f (d.stepAll rv.lanes rv.next) rv
  generalize (if rv.keepL then Flue.settle f (d.stepAll rv.lanes rv.next) else (Flue.settle f (d.stepAll rv.lanes rv.next)).clearL rv.lanes) = g at *
  generalize d.stepAll rv.lanes rv.next = k at *
  have hgp : g.pcOf = k.pcOf := by rw [hg]; rfl
  have hgt : g.later = k.later := by rw [hg]
  have hge : k.eligible = g.eligible := by rw [hg]; rfl
  have hgg : k.groupOf = g.groupOf := by rw [hg]; rfl
  have hkl : k.l = d.l := by rw [hk]
  have hdp : d.pcOf = f.pcOf := by rw [hd]; rfl
  have hdt : d.later = f.later := by rw [hd]; rfl
  have hdl : d.live = f.live := by rw [hd]; rfl
  refine ⟨?_, ?_, fun l h32 => ?_, fun l h32 => ?_, fun hkeep l h32 hm => ?_, fun hkeep hno l h32 => ?_⟩
  · rw [hg, hk, hd]
    rfl
  · rw [hg, hk]
    exact Written.of_sameRegs hwr ⟨rfl, rfl, rfl, rfl, rfl⟩ ⟨rfl, rfl, rfl, rfl, rfl⟩
  · rw [hgp, hpc, hup l h32, hdp]
    simp only [h32, true_and]
    rfl
  · rw [hgt, hlater, hup l h32, hdt, hdl]
    simp only [h32, true_and]
    rfl
  · exact (hl l h32).trans (if_pos ⟨hkeep, hm⟩)
  · have kept : SMap.get d.l l = SMap.get f.l l :=
      (hlatch l 0 fun w hm ht _ => absurd ht (by simp [hno w hm])).trans (if_neg fun ⟨w, hm, ht, _⟩ => by simp [hno w hm] at ht)
    rw [hl l h32, if_neg (by simp [hkeep]), hge, hgg, hkl, kept]
    rfl

theorem resultWrite_ends {s : State} {r : FlueRef} {pc : DWord} {f : Flue} {rv : Rendezvous} (hf : s.flue? r.stove r.slot = some f)
    (hrv : f.rvs.find? (fun v => v.done && v.pc == pc) = some rv) (hdone : ∀ v ∈ f.rvs, v.done = true) (hw : ∀ w ∈ rv.writes, w.lane < 32) :
    ∃ g : Flue, exec (.rendezvousResultWrite r pc) s = .next (s.setFlue r.stove r.slot g) ∧ Ended f g rv := by
  have ended := written_ended (f := f) hw
  have hrvs : (f.written rv).rvs = f.rvs.filter fun v => v != rv := by rw [ended.1]
  have stays := checkStuck_of_openRvs (openRvs_of_rvs (f := f.written rv) fun v hv => hdone v (List.mem_filter.1 (hrvs ▸ hv)).1)
  exact ⟨f.written rv, (resultWrite_eq hf hrv).trans (by rw [stays]), ended⟩

/-! ### What REDUX and SCAN make of integers (08 R183) -/

/-- The order that the least and the greatest member are found by. -/
def intOrder (ty : Ty) (w : Word) : Int := if ty = .i32 then w.toInt else (w.toNat : Int)

section
variable {ty : Ty} (hty : ty ∈ [Ty.b32, .i32, .z32]) (rm : Rm)
include hty

theorem combine_flags (opc : Nat) (a b : Word) : (combine opc ty rm a b).2 = 0 := by
  simp only [List.mem_cons, List.not_mem_nil, or_false] at hty
  rcases hty with rfl | rfl | rfl <;> (unfold combine; split <;> trivial)

theorem combineAll_cons (opc : Nat) (w : Word) (ws : List Word) :
    combineAll opc ty rm (w :: ws) = (ws.foldl (fun a b => (combine opc ty rm a b).1) w, 0) := by
  have fold : ∀ (us : List Word) (a : Word), us.foldl (fun r v => let q := combine opc ty rm r.1 v; (q.1, r.2 ||| q.2)) (a, 0) =
      (us.foldl (fun a b => (combine opc ty rm a b).1) a, 0) := by
    intro us
    induction us with
    | nil => intro a; rfl
    | cons u us ih =>
      intro a
      have first : ((combine opc ty rm a u).1, (0 : FlagSet) ||| (combine opc ty rm a u).2) = ((combine opc ty rm a u).1, 0) := by
        rw [combine_flags hty]
        rfl
      exact (congrArg (us.foldl _) first).trans (ih _)
  cases ws with
  | nil =>
    simp only [List.mem_cons, List.not_mem_nil, or_false] at hty
    rcases hty with rfl | rfl | rfl <;> rfl
  | cons u us => exact fold (u :: us) w

theorem combine_sum (a b : Word) : (combine 0 ty rm a b).1 = a + b := by
  simp only [List.mem_cons, List.not_mem_nil, or_false] at hty
  rcases hty with rfl | rfl | rfl <;> rfl

theorem combine_least (a b : Word) : (combine 1 ty rm a b).1 = if intOrder ty b < intOrder ty a then b else a := by
  simp only [List.mem_cons, List.not_mem_nil, or_false] at hty
  rcases hty with rfl | rfl | rfl <;> simp [combine, intOrder, BitVec.slt, BitVec.ult]

theorem combine_greatest (a b : Word) : (combine 2 ty rm a b).1 = if intOrder ty a < intOrder ty b then b else a := by
  simp only [List.mem_cons, List.not_mem_nil, or_false] at hty
  rcases hty with rfl | rfl | rfl <;> simp [combine, intOrder, BitVec.slt, BitVec.ult]

theorem combine_and (a b : Word) : (combine 3 ty rm a b).1 = a &&& b := by
  simp only [List.mem_cons, List.not_mem_nil, or_false] at hty
  rcases hty with rfl | rfl | rfl <;> rfl

theorem combine_or (a b : Word) : (combine 4 ty rm a b).1 = a ||| b := by
  simp only [List.mem_cons, List.not_mem_nil, or_false] at hty
  rcases hty with rfl | rfl | rfl <;> rfl

theorem combine_xor (a b : Word) : (combine 5 ty rm a b).1 = a ^^^ b := by
  simp only [List.mem_cons, List.not_mem_nil, or_false] at hty
  rcases hty with rfl | rfl | rfl <;> rfl
end

/-- Picking by an order keeps a member that no other member comes before. -/
theorem foldl_pick {α : Type} (ord : α → Int) (ws : List α) (w : α) :
    ws.foldl (fun a b => if ord b < ord a then b else a) w ∈ w :: ws ∧
      ∀ u ∈ w :: ws, ord (ws.foldl (fun a b => if ord b < ord a then b else a) w) ≤ ord u := by
  induction ws generalizing w with
  | nil => simp
  | cons v ws ih =>
    rw [List.foldl_cons]
    obtain ⟨hmem, hle⟩ := ih (if ord v < ord w then v else w)
    by_cases h : ord v < ord w
    · rw [if_pos h] at hmem hle ⊢
      refine ⟨List.mem_cons_of_mem _ hmem, fun u hu => ?_⟩
      rcases List.mem_cons.1 hu with rfl | hu
      · exact (hle v (List.mem_cons_self ..)).trans h.le
      · exact hle u hu
    · rw [if_neg h] at hmem hle ⊢
      refine ⟨?_, fun u hu => ?_⟩
      · rcases List.mem_cons.1 hmem with e | hm
        · exact List.mem_cons.2 (.inl e)
        · exact List.mem_cons_of_mem _ (List.mem_cons_of_mem _ hm)
      · rcases List.mem_cons.1 hu with rfl | hu
        · exact hle u (List.mem_cons_self ..)
        · rcases List.mem_cons.1 hu with rfl | hu
          · exact (hle w (List.mem_cons_self ..)).trans (not_lt.1 h)
          · exact hle u (List.mem_cons_of_mem _ hu)

/-- A combination bit by bit. -/
theorem getLsbD_foldl {op : Word → Word → Word} {bit : Bool → Bool → Bool} {k : Nat}
    (h : ∀ a b : Word, (op a b).getLsbD k = bit (a.getLsbD k) (b.getLsbD k)) (ws : List Word) (w : Word) :
    (ws.foldl op w).getLsbD k = (ws.map (·.getLsbD k)).foldl bit (w.getLsbD k) := by
  induction ws generalizing w with
  | nil => rfl
  | cons v ws ih => rw [List.foldl_cons, ih, h, List.map_cons, List.foldl_cons]

theorem foldl_and (bs : List Bool) (b : Bool) : bs.foldl (· && ·) b = (b && bs.all id) := by
  induction bs generalizing b with
  | nil => simp
  | cons c bs ih => rw [List.foldl_cons, ih, List.all_cons, Bool.and_assoc]; rfl

theorem foldl_or (bs : List Bool) (b : Bool) : bs.foldl (· || ·) b = (b || bs.any id) := by
  induction bs generalizing b with
  | nil => simp
  | cons c bs ih => rw [List.foldl_cons, ih, List.any_cons, Bool.or_assoc]; rfl

theorem foldl_xor (bs : List Bool) (b : Bool) : bs.foldl (· ^^ ·) b = decide (((b :: bs).filter id).length % 2 = 1) := by
  induction bs generalizing b with
  | nil => cases b <;> rfl
  | cons c bs ih =>
    rw [List.foldl_cons, ih]
    cases b <;> cases c <;> simp [Nat.add_assoc]

theorem foldl_add (ws : List Word) (w : Word) : ws.foldl (· + ·) w = BitVec.ofNat 32 ((w :: ws).map BitVec.toNat).sum := by
  induction ws generalizing w with
  | nil => simp
  | cons v ws ih =>
    rw [List.foldl_cons, ih]
    simp only [List.map_cons, List.sum_cons, BitVec.ofNat_add, BitVec.ofNat_toNat, BitVec.setWidth_eq, BitVec.add_assoc]

/-- What REDUX and SCAN make of integers, as the statement says it. -/
def CombinesIntegers (ty : Ty) (rm : Rm) (ws : List Word) : Prop :=
  let v := fun opc => (combineAll opc ty rm ws).1
  let ord := fun (w : Word) => if ty = .i32 then w.toInt else (w.toNat : Int)
  (∀ opc, (combineAll opc ty rm ws).2 = 0) ∧
  v 0 = BitVec.ofNat 32 (ws.map BitVec.toNat).sum ∧
  (ws ≠ [] → v 1 ∈ ws ∧ v 2 ∈ ws) ∧ (∀ w ∈ ws, ord (v 1) ≤ ord w ∧ ord w ≤ ord (v 2)) ∧
  (∀ w : Word, ws = [] → ord w ≤ ord (v 1) ∧ ord (v 2) ≤ ord w) ∧
  (∀ k < 32, (v 3).getLsbD k = ws.all (·.getLsbD k) ∧ (v 4).getLsbD k = ws.any (·.getLsbD k) ∧
    (v 5).getLsbD k = decide ((ws.filter (·.getLsbD k)).length % 2 = 1))

theorem combinesIntegers_nil {ty : Ty} (hty : ty ∈ [Ty.b32, .i32, .z32]) (rm : Rm) : CombinesIntegers ty rm [] := by
  refine ⟨fun _ => rfl, ?_, fun h => absurd rfl h, fun w hw => absurd hw (List.not_mem_nil), fun w _ => ?_, fun k hk => ?_⟩
  all_goals
    simp only [List.mem_cons, List.not_mem_nil, or_false] at hty
  · rcases hty with rfl | rfl | rfl <;> rfl
  · have := w.isLt
    have := w.toInt_lt
    have := w.le_toInt
    rcases hty with rfl | rfl | rfl <;> simp [combineAll, identityOf] <;> omega
  · have ones : (BitVec.allOnes 32).getLsbD k = true := BitVec.getLsbD_allOnes.trans (decide_eq_true hk)
    rcases hty with rfl | rfl | rfl <;> exact ⟨ones, getLsbD_noLanes k, getLsbD_noLanes k⟩

theorem combinesIntegers_cons {ty : Ty} (hty : ty ∈ [Ty.b32, .i32, .z32]) (rm : Rm) (w : Word) (ws : List Word) :
    CombinesIntegers ty rm (w :: ws) := by
  have least := foldl_pick (intOrder ty) ws w
  have greatest := foldl_pick (fun u => -intOrder ty u) ws w
  unfold CombinesIntegers
  simp only [combineAll_cons hty, combine_sum hty, combine_least hty, combine_greatest hty, combine_and hty, combine_or hty, combine_xor hty]
  simp only [neg_lt_neg_iff, neg_le_neg_iff] at greatest
  refine ⟨fun _ => trivial, foldl_add ws w, fun _ => ⟨least.1, greatest.1⟩, fun u hu => ⟨least.2 u hu, greatest.2 u hu⟩,
    fun u h => (List.cons_ne_nil _ _ h).elim, fun k hk => ⟨?_, ?_, ?_⟩⟩
  · rw [getLsbD_foldl (bit := (· && ·)) fun a b => BitVec.getLsbD_and .., foldl_and, List.all_map]
    rfl
  · rw [getLsbD_foldl (bit := (· || ·)) fun a b => BitVec.getLsbD_or .., foldl_or, List.any_map]
    rfl
  · rw [getLsbD_foldl (bit := (· ^^ ·)) fun a b => BitVec.getLsbD_xor .., foldl_xor, ← List.map_cons (f := (BitVec.getLsbD · k)), List.filter_map, List.length_map]
    rfl

/-- Settles O15: lanes that arrive and wait or are refused, the end of the latency, and the combinations of integers. -/
theorem rendezvousProgress : Obligations.RendezvousProgress := by
  refine ⟨fun x s i f hi => ?_, fun s r pc f rv hf hrv hdone hw => resultWrite_ends hf hrv hdone hw, fun ty rm ws hty => ?_⟩
  · intro c m arr harr hopen ins hins
    obtain ⟨out, hexec⟩ := exec_rendezvous hins
    rw [hexec s]
    refine ⟨fun hm hlive hdeep hfree => ?_, fun hlive hfree => arrivals_refused hi hopen harr out hlive hfree⟩
    obtain ⟨g, hrun, hg, hflag, hpc⟩ := arrivals_wait hi hopen harr out hm hlive hdeep hfree
    refine ⟨g, i.begun x, hrun, hg, fun k => (hflag k).trans ?_, ?_, rfl, rfl, rfl, rfl, lanes_begun x i, rfl, hpc, fun l hl ha => ?_⟩
    · exact congrArg _ (if_congr (raised_eq_some i x k) rfl rfl)
    · exact raised_toList i x
    · exact ⟨i.supplied x l, (member_begun x i hl).trans (if_pos ha), rfl, rfl, rfl⟩
  · cases ws with
    | nil => exact combinesIntegers_nil hty rm
    | cons w ws => exact combinesIntegers_cons hty rm w ws

end Sys2Proof.Machine
end


section
/-! REFUTATION of O23: locations that overlap (09 R203, R213). The premises bound where each lane's bytes lie, but they do not say that a
translation maps pages onto pages, so two lanes may act on locations that share bytes. ATOM takes the locations one after another, each
with all its lanes; the statement takes the lanes in ascending order. With the order location 1, location 2, location 1 over shared bytes the
two leave different memories. -/

namespace Sys2Proof.Machine

open Sys2Proof.Claims

/-- Page 0 of context 1 at 0x6000_0000, and page 1 two bytes above it. -/
def overlapTlb : List TlbEntry :=
  [⟨1, 0, 4096, 0x60000000, true, true, true, 1, .owned, 0, 0⟩, ⟨1, 4096, 4096, 0x60000002, true, true, true, 1, .owned, 0, 0⟩]
/-- Three lanes: `v4` holds the addresses 0, 4096 and 0, `v2` is zero but for lane 1. -/
def overlapFlue : Flue :=
  { cid := 1, live := 7, pc := (List.range 3).map fun l => (l, 0x10004#64), frames := [{ demand := 16, regs := [(65, 0x01010101), (129, 4096)] }] }
/-- The three lanes issue. -/
def overlapIssue : Issue := ⟨0, 0, 7, 0x10004, 0x1000C, 0x10000, 0x07F80002, true, 0, overlapFlue⟩
/-- The flue, alone on its stove. -/
def overlapState : State :=
  { State.reset with
    stoves := [(0, { flues := [(0, overlapFlue)], tlb := overlapTlb })], ctxs := [(1, { state := .running })], issue := some overlapIssue }
/-- ATOM.EXCH.B32 in GEN of `v2` at `v4`, which delivers nothing. -/
def overlapArgs : LArgs :=
  { guard := ⟨false, 0⟩, d := .zero, a := .v 4, b := .v 2, c := .zero, f := .none, ty := .b32, rm := .rne, modx := 24, lit := none }
/-- Lanes 0 and 2 act on the first four bytes, lane 1 on four of which it shares two with them. -/
def overlapLoc (l : Nat) : Loc := .gen (if l = 1 then 0x60000002 else 0x60000000)

/-- The lanes that act, and the address of each. -/
theorem overlap_lanes : memLanes overlapArgs (overlapIssue.active overlapArgs.guard) = [0, 1, 2] := by decide +kernel

theorem overlap_addr : ∀ l ∈ [0, 1, 2],
    atomAddr (overlapIssue.src overlapArgs.lit) (mxSpace overlapArgs) overlapArgs.a l = if l = 1 then 4096 else 0 := by decide +kernel

theorem overlap_ctx {c : Context} (h : overlapState.ctx? 1 = some c) : c = { state := .running } := Option.some.inj (h.symm.trans rfl)

/-- Each lane passes its checks by one of the two translations. -/
theorem overlap_lands : ∀ l ∈ [0, 1, 2], Lands overlapState overlapIssue.stove overlapFlue (mxSpace overlapArgs)
    (atomAddr (overlapIssue.src overlapArgs.lit) (mxSpace overlapArgs) overlapArgs.a l) (atomBytes overlapArgs.ty) .atom (mxDcl overlapArgs)
    (overlapLoc l) := by
  intro l hl
  rw [overlap_addr l hl]
  have maps : ∀ va pa e, (va = 0 ∨ va = 4096) → paKind pa = .hbm → overlapState.bad pa = false →
      tlbFind overlapTlb 1 (va.toNat % 2 ^ 57) = some e →
      judge 1 .atom (mxDcl overlapArgs) e (e.pa + (va.toNat % 2 ^ 57 - e.va)) = .ok pa →
      Maps overlapState overlapIssue.stove overlapFlue.cid va (atomBytes overlapArgs.ty) .atom (mxDcl overlapArgs) pa := by
    intro va pa e hva hk hb he hj
    refine ⟨?_, ?_, fun c hc => ?_, hk, fun _ => hb, e, he, hj⟩
    · rcases hva with rfl | rfl <;> rfl
    · rcases hva with rfl | rfl <;> rfl
    · rw [overlap_ctx hc]
      rfl
  refine ⟨_, rfl, ?_⟩
  by_cases h : l = 1
  · rw [if_pos h, if_pos h]
    exact maps _ _ _ (.inr rfl) (by decide +kernel) (by decide +kernel) rfl rfl
  · rw [if_neg h, if_neg h]
    exact maps _ _ _ (.inl rfl) (by decide +kernel) (by decide +kernel) rfl rfl

/-- No line is marked, held in the LLC or listed in the side table: every line is whole. -/
theorem overlap_whole (pa : Nat) : Whole overlapState pa := ⟨rfl, rfl, fun _ he => by cases he⟩

/-- The model takes lane 1 last: byte 2 of the first location holds what lane 1 stored. -/
theorem overlap_exec : ∃ t, exec (.atom overlapArgs) overlapState = .next t ∧ Memory.byte t.mem 0x60000002 = 1 :=
  ⟨_, rfl, by decide +kernel⟩

/-- Refutes O23: at three lanes whose locations share bytes, the third with the location of the first. Taken in ascending order the third lane
clears byte 2 of it; the model takes the two lanes of that location first, and the lane between them stores there. -/
theorem not_atomicResults : ¬ Obligations.AtomicResults := by
  unfold Obligations.AtomicResults
  intro h
  obtain ⟨t, ht, hbyte, -⟩ := h overlapArgs overlapState overlapIssue overlapFlue overlapLoc ⟨rfl, rfl⟩ (by decide +kernel)
    ⟨rfl, rfl, fun c hc p hp => by rw [overlap_ctx hc] at hp; cases hp⟩ (by
      rw [overlap_lanes]
      refine fun l hl => ⟨overlap_lands l hl, fun pa hpa => ⟨overlap_whole pa, ?_⟩⟩
      obtain rfl := Loc.gen.inj hpa
      by_cases h : l = 1
      · rw [if_pos h]
        decide
      · rw [if_neg h]
        decide)
  obtain ⟨t', ht', hone⟩ := overlap_exec
  obtain rfl : t' = t := Host.Outcome.next.inj (ht'.symm.trans ht)
  have hzero := hbyte 0x60000002
  rw [hone, overlap_lanes] at hzero
  revert hzero
  decide +kernel

end Sys2Proof.Machine
end


section
/-! PROOF of O54: a clause issues (03 R52-R56, R73, 04 R94-R98, 13 R306, R314). -/

namespace Sys2Proof.Machine

open Sys2Proof.Claims

/-! ### Counters at the end of a line (03 R55) -/

theorem Tab.put_put {α : Type} (t : Tab α) (k : Nat) (a b : α) : Tab.put (Tab.put t k a) k b = Tab.put t k b := by
  induction t with
  | nil => simp [Tab.put]
  | cons p t ih =>
    obtain ⟨k', a'⟩ := p
    by_cases h1 : k < k'
    · simp [Tab.put, h1]
    · by_cases h2 : k = k'
      · simp [Tab.put, h2]
      · simp [Tab.put, h1, h2, ih]

theorem setStove_setStove (s : State) (n : Nat) (x y : Stove) : (s.setStove n x).setStove n y = s.setStove n y := by
  unfold State.setStove
  rw [Tab.put_put]

theorem setFlue_setFlue (s : State) (a b : Nat) (f g : Flue) : (s.setFlue a b f).setFlue a b g = s.setFlue a b g := by
  have hs : (s.setFlue a b f).stove a = { s.stove a with flues := Tab.put (s.stove a).flues b f } := by
    rw [State.setFlue, State.stove_setStove, if_pos rfl]
  rw [State.setFlue, hs, Tab.put_put, State.setFlue, setStove_setStove]
  rfl

/-- The lanes that stand at line offset 60 outside every clause. -/
def Flue.atLineEnd (f : Flue) : LaneMask :=
  maskOf fun l => f.eligible.getLsbD l && (f.pcOf l).extractLsb' 0 6 == 60#6 && (f.inside (f.pcOf l)).isNone

theorem normalise_only (f : Flue) : ∃ p, f.normalise = { f with pc := p } := by
  unfold Flue.normalise
  simp only
  split
  · exact ⟨f.pc, rfl⟩
  · exact ⟨_, rfl⟩

theorem pcOf_normalise (f : Flue) (l : Nat) : f.normalise.pcOf l = if f.atLineEnd.getLsbD l = true then f.pcOf l + 4 else f.pcOf l := by
  have hn : f.normalise = if f.atLineEnd = 0 then f else
      { f with pc := SMap.setAll f.pc ((lanesOf f.atLineEnd).map fun l => (l, f.pcOf l + 4)) } := rfl
  rw [hn]
  by_cases h : f.atLineEnd = 0
  · rw [if_pos h, h]
    exact (if_neg (by simp)).symm
  · rw [if_neg h]
    refine (SMap.get_setAll_map (lanesOf f.atLineEnd) (fun l => f.pcOf l + 4) f.pc l).trans (if_congr ?_ rfl rfl)
    rw [mem_lanesOf]
    exact ⟨And.right, fun h => ⟨BitVec.lt_of_getLsbD h, h⟩⟩

theorem getLsbD_atLineEnd (f : Flue) (l : Nat) : f.atLineEnd.getLsbD l = true ↔
    l < 32 ∧ f.eligible.getLsbD l = true ∧ (f.pcOf l).extractLsb' 0 6 = 60#6 ∧ f.inside (f.pcOf l) = none := by
  unfold Flue.atLineEnd
  rw [maskOf_getLsbD]
  simp only [Bool.and_eq_true, decide_eq_true_eq, beq_iff_eq, Option.isNone_iff_eq_none, and_assoc]

theorem maskOf_congr {p q : Nat → Bool} (h : ∀ l < 32, p l = q l) : maskOf p = maskOf q := by
  ext l hl
  rw [← BitVec.getLsbD_eq_getElem, ← BitVec.getLsbD_eq_getElem, maskOf_getLsbD, maskOf_getLsbD, h l hl]

/-- What lanes are inside of depends on which of them stand there. -/
theorem inside_congr {f : Flue} {p : SMap 64} {a : DWord} (h : ∀ l < 32, SMap.get p l = a ↔ f.pcOf l = a) :
    ({ f with pc := p } : Flue).inside a = f.inside a := by
  have : (maskOf fun l => ({ f with pc := p } : Flue).pcOf l == a) = maskOf fun l => f.pcOf l == a :=
    maskOf_congr fun l hl => by rw [Bool.eq_iff_iff, beq_iff_eq, beq_iff_eq]; exact h l hl
  unfold Flue.inside
  rw [this]
  rfl

theorem lineEnd_next {a : DWord} (h : a.extractLsb' 0 6 = 60#6) : (a + 4).extractLsb' 0 6 = 0#6 := by
  have h' := congrArg BitVec.toNat h
  apply BitVec.eq_of_toNat_eq
  have four : (4 : DWord).toNat = 4 := rfl
  simp only [BitVec.extractLsb'_toNat, BitVec.toNat_add, BitVec.toNat_ofNat, four] at h' ⊢
  omega

/-- Lanes that stand at the next line stand at the end of one no longer. -/
theorem atLineEnd_normalise (f : Flue) : f.normalise.atLineEnd = 0 := by
  have hpc := pcOf_normalise f
  obtain ⟨p, hp⟩ := normalise_only f
  rw [hp] at hpc ⊢
  ext l hl
  rw [← BitVec.getLsbD_eq_getElem, ← BitVec.getLsbD_eq_getElem, getLsbD_noLanes, ← Bool.not_eq_true, getLsbD_atLineEnd]
  rintro ⟨-, he, hend, hin⟩
  rw [hpc l] at hend hin
  by_cases h : f.atLineEnd.getLsbD l = true
  · rw [if_pos h, lineEnd_next ((getLsbD_atLineEnd f l).1 h).2.2.1] at hend
    exact absurd hend (by decide)
  · rw [if_neg h] at hend hin
    refine h ((getLsbD_atLineEnd f l).2 ⟨hl, he, hend, ?_⟩)
    rw [← hin]
    refine (inside_congr fun k hk => ?_).symm
    refine (iff_of_eq (congrArg (· = f.pcOf l) (hpc k))).trans ?_
    by_cases hk' : f.atLineEnd.getLsbD k = true
    · obtain ⟨-, -, hend', hin'⟩ := (getLsbD_atLineEnd f k).1 hk'
      rw [if_pos hk']
      refine ⟨fun e => ?_, fun e => ?_⟩
      · rw [← e, lineEnd_next hend'] at hend
        exact absurd hend (by decide)
      · rw [e] at hin'
        exact absurd ((getLsbD_atLineEnd f l).2 ⟨hl, he, hend, hin'⟩) h
    · rw [if_neg hk']

theorem normalise_normalise (f : Flue) : f.normalise.normalise = f.normalise :=
  if_pos (atLineEnd_normalise f)

theorem mayIssue_normalise (f : Flue) : f.normalise.mayIssue = f.mayIssue := by
  obtain ⟨p, hp⟩ := normalise_only f
  rw [hp]
  rfl

theorem clauseIssue_eq {s : State} {stove slot : Nat} {f : Flue} (pc : DWord) (hf : s.flue? stove slot = some f) :
    exec (.clauseIssue ⟨stove, slot⟩ pc) s =
      if f.mayIssue then (s.setFlue stove slot f.normalise).takeClause ⟨stove, slot⟩ pc else .next (s.setFlue stove slot f.normalise) := by
  have : exec (.clauseIssue ⟨stove, slot⟩ pc) s = execClauseIssue ⟨stove, slot⟩ pc s := rfl
  rw [this, execClauseIssue, hf]
  simp only [modFlue_of_flue? hf]

theorem clauseIssue_normalised {s : State} {stove slot : Nat} {f : Flue} (pc : DWord) (hf : s.flue? stove slot = some f) :
    exec (.clauseIssue ⟨stove, slot⟩ pc) s = exec (.clauseIssue ⟨stove, slot⟩ pc) (s.setFlue stove slot f.normalise) := by
  have hf' : (s.setFlue stove slot f.normalise).flue? stove slot = some f.normalise := by
    rw [State.flue?_setFlue, if_pos ⟨rfl, rfl⟩]
  rw [clauseIssue_eq pc hf, clauseIssue_eq pc hf', mayIssue_normalise, normalise_normalise, setFlue_setFlue]

/-! ### The line of a clause (08 R187, 09 R203) -/

/-- An access whose translation a stove holds is judged by it; the stove notes its use. -/
theorem translate_held {s : State} {stove cid : Nat} {va : DWord} {e : TlbEntry} (h : tlbFind (s.stove stove).tlb cid (va.toNat % 2 ^ 57) = some e)
    (hearth : Nat) (k : Acc) (dcl : Bool) : s.translate hearth (some stove) cid va k dcl =
      (judge cid k dcl e (e.pa + (va.toNat % 2 ^ 57 - e.va)), s.setStove stove { s.stove stove with tlb := tlbUse (s.stove stove).tlb e }) := by
  unfold State.translate
  simp only [h]

theorem flue?_setStove_tlb (s : State) (stove : Nat) (t : List TlbEntry) (a b : Nat) :
    (s.setStove stove { s.stove stove with tlb := t }).flue? a b = s.flue? a b := by
  rw [State.flue?, State.stove_setStove]
  split
  · next h => rw [h, State.flue?]
  · rfl

/-- The words from an address to the end of its line. -/
def lineWords (m : Memory) (pa : Nat) : List Word := wordsOfBytes ((64 - pa % 64) / 4) (Memory.read m pa (64 - pa % 64))

/-- The words of a clause are fetched from local memory; neither memory nor a flue changes. -/
theorem fetch_words {s : State} {stove cid : Nat} {pc : DWord} {pa : Nat} (hm : Maps s stove cid pc 4 .fetch false pa)
    (hline : pa % 64 = pc.toNat % 64) (hbad : s.bad pa = false) :
    ∃ t, s.fetch stove cid pc = (.words ((lineWords s.mem pa).headD 0) ((lineWords s.mem pa).drop 1), t) ∧ t.mem = s.mem ∧
      ∀ a b, t.flue? a b = s.flue? a b := by
  obtain ⟨hcan, halign, hkick, hkind, -, e, he, hj⟩ := hm
  let u := s.setStove stove { s.stove stove with tlb := tlbUse (s.stove stove).tlb e }
  have hwin : u.windowCause cid pa = none := by
    unfold State.windowCause
    rw [hkind]
  have hread : u.tileRead cid pa (64 - pa % 64) (hearthOf stove) 0 =
      (Memory.read s.mem pa (64 - pa % 64), u.touch cid (pa / 128) (hearthOf stove) 0) := by
    unfold State.tileRead
    rw [hkind]
    rfl
  obtain ⟨n, hn⟩ : ∃ n, (64 - pa % 64) / 4 = n + 1 := ⟨(64 - pa % 64) / 4 - 1, by omega⟩
  have hcons : lineWords s.mem pa = wordOfBytes (Memory.read s.mem pa (64 - pa % 64)) :: wordsOfBytes n ((Memory.read s.mem pa (64 - pa % 64)).drop 4) := by
    rw [lineWords, hn]
    rfl
  have hmem : u.mem = s.mem := rfl
  have hflue : ∀ a b, u.flue? a b = s.flue? a b := flue?_setStove_tlb s stove _
  have htraffic := u.touch_traffic cid (pa / 128) (hearthOf stove) 0
  refine ⟨u.touch cid (pa / 128) (hearthOf stove) 0, ?_, htraffic.mem.trans hmem, fun a b => (htraffic.flue? a b).trans (hflue a b)⟩
  have hbad' : u.bad pa = false := hbad
  have hu : s.translate (hearthOf stove) (some stove) cid pc .fetch false = (.ok pa, u) := by rw [translate_held he, hj]
  clear_value u
  have hlen : (Memory.read s.mem pa (64 - pa % 64)).length / 4 = n + 1 := by rw [Memory.read_length, hn]
  unfold State.fetch
  rw [hcan, hu, hcons]
  cases hc : s.ctx? cid with
  | none => simp [hwin, hkind, hbad', hread, hlen, wordsOfBytes]
  | some c => simp [hkick c hc, hwin, hkind, hbad', hread, hlen, wordsOfBytes]

/-! ### What becomes of the flue -/

/-- A run leaves the slot with such a flue, and memory and every other flue as they are. -/
def Becomes (s : State) (stove slot : Nat) (run : Res) (P : Flue → Prop) : Prop :=
  ∃ t g, run = .next t ∧ t.flue? stove slot = some g ∧ t.mem = s.mem ∧ (∀ a b, ¬(a = stove ∧ b = slot) → t.flue? a b = s.flue? a b) ∧ P g

/-- A state of the same memory and the same flues. -/
def SameFlues (s t : State) : Prop := t.mem = s.mem ∧ ∀ a b, t.flue? a b = s.flue? a b

theorem Becomes.of_setFlue {s t : State} {stove slot : Nat} {run : Res} {g : Flue} {P : Flue → Prop} (h : run = .next (t.setFlue stove slot g))
    (hs : SameFlues s t) (hP : P g) : Becomes s stove slot run P := by
  refine ⟨_, g, h, by rw [State.flue?_setFlue, if_pos ⟨rfl, rfl⟩], hs.1, fun a b hab => ?_, hP⟩
  rw [State.flue?_setFlue, if_neg hab, hs.2]

theorem sameFlues_setFlue {s : State} {stove slot : Nat} {f : Flue} (hf : s.flue? stove slot = some f) : SameFlues s (s.setFlue stove slot f) := by
  refine ⟨rfl, fun a b => ?_⟩
  rw [State.flue?_setFlue]
  split
  · next h => rw [h.1, h.2, hf]
  · rfl

theorem takes_now {f : Flue} {pc : DWord} (hlanes : f.lanesAt pc ≠ 0) (hin : f.inside pc = none) (hheld : f.heldLanes &&& f.lanesAt pc = 0) :
    (decide (f.lanesAt pc = 0) || (f.inside pc).isSome || f.heldLanes &&& f.lanesAt pc != 0) = false := by
  rw [hin, hheld, decide_eq_false hlanes]
  rfl

section
variable {s t : State} {stove slot : Nat} {f : Flue} {pc : DWord} {h : Word} {ws : List Word} (hf : s.flue? stove slot = some f)
include hf

theorem takeClause_none (hmay : ¬(f.lanesAt pc ≠ 0 ∧ f.inside pc = none ∧ f.heldLanes &&& f.lanesAt pc = 0)) :
    s.takeClause ⟨stove, slot⟩ pc = .next s := by
  unfold State.takeClause
  simp only [hf]
  refine if_pos ?_
  simp only [Bool.or_eq_true, decide_eq_true_eq, Option.isSome_iff_ne_none, bne_iff_ne]
  tauto

variable (hlanes : f.lanesAt pc ≠ 0) (hin : f.inside pc = none) (hheld : f.heldLanes &&& f.lanesAt pc = 0)
  (hfetch : s.fetch stove f.cid pc = (.words h ws, t))
include hlanes hin hheld hfetch

theorem takeClause_faults {k : Nat} (he : clauseError h ws pc f.demand = some k) : s.takeClause ⟨stove, slot⟩ pc =
    .next (t.modFlue stove slot fun g => g.clauseFault cILLEGAL (f.lanesAt pc) pc (pc + BitVec.ofNat 64 (4 * k)) h) := by
  unfold State.takeClause
  simp only [hf]
  rw [if_neg (by simp only [takes_now hlanes hin hheld, Bool.false_eq_true, not_false_eq_true]), hfetch]
  simp only [he]

theorem takeClause_holds (he : clauseError h ws pc f.demand = none) (hw : f.waitBusy h = true) : s.takeClause ⟨stove, slot⟩ pc = .next s := by
  unfold State.takeClause
  simp only [hf]
  rw [if_neg (by simp only [takes_now hlanes hin hheld, Bool.false_eq_true, not_false_eq_true]), hfetch]
  simp only [he]
  exact if_pos hw

theorem takeClause_stops (he : clauseError h ws pc f.demand = none) (hw : f.waitBusy h = false)
    (hs : hdrYp h = true ∧ f.sliceEnd = true ∧ f.phase = .run) :
    s.takeClause ⟨stove, slot⟩ pc = .next ((t.commit stove slot).modFlue stove slot fun g => { g with preempt := true }) := by
  obtain ⟨hyp, hend, hrun⟩ := hs
  unfold State.takeClause
  simp only [hf]
  rw [if_neg (by simp only [takes_now hlanes hin hheld, Bool.false_eq_true, not_false_eq_true]), hfetch]
  simp only [he, hw, hyp, hend, hrun]
  rfl

theorem takeClause_opens (he : clauseError h ws pc f.demand = none) (hw : f.waitBusy h = false)
    (hs : ¬(hdrYp h = true ∧ f.sliceEnd = true ∧ f.phase = .run)) :
    s.takeClause ⟨stove, slot⟩ pc = .next (t.openClause stove slot (f.lanesAt pc) pc h (ws.take (hdrCount h))) := by
  unfold State.takeClause
  simp only [hf]
  rw [if_neg (by simp only [takes_now hlanes hin hheld, Bool.false_eq_true, not_false_eq_true]), hfetch]
  simp only [he, hw, Bool.false_eq_true, if_false]
  refine if_neg ?_
  rwa [Bool.and_eq_true, Bool.and_eq_true, beq_iff_eq, and_assoc]
end

/-- No region is open: there is nothing to commit. -/
theorem commit_closed {s : State} {stove slot : Nat} {f : Flue} (hf : s.flue? stove slot = some f) (hr : f.regionOpen = false) :
    s.commit stove slot = s := by
  unfold State.commit
  rw [hf]
  simp only [hr, Bool.false_eq_true, if_false]

/-- A region entry opens its region. -/
def Flue.entersRegion (f : Flue) (lanes : LaneMask) (pc : DWord) (h : Word) : Flue :=
  if hdrRe h && f.phase != .handler then { f with entry := pc, restart := lanes, regionOpen := true } else f

/-- The flue as the clause opens, before its lanes take it: a yield point returns the yield counter to zero. -/
def Flue.enters (f : Flue) (lanes : LaneMask) (pc : DWord) (h : Word) : Flue :=
  if hdrYp h then { f.entersRegion lanes pc h with ycount := 0 } else f.entersRegion lanes pc h

/-- The flue once a clause has opened. -/
def Flue.opened (f : Flue) (lanes : LaneMask) (pc : DWord) (h : Word) (ws : List Word) : Flue :=
  ((f.enters lanes pc h).setPc lanes (pc + 4)).takes lanes { header := pc, word := h, words := ws }

theorem openClause_eq {t : State} {stove slot : Nat} {f : Flue} (hf : t.flue? stove slot = some f) (hr : f.regionOpen = false) (lanes : LaneMask)
    (pc : DWord) (h : Word) (ws : List Word) :
    t.openClause stove slot lanes pc h ws = t.setFlue stove slot (f.opened lanes pc h ws) := by
  unfold State.openClause
  rw [hf]
  simp only [commit_closed hf hr, ite_self, modFlue_of_flue? hf]
  rfl

theorem entersRegion_only {f : Flue} (hr : f.regionOpen = false) (lanes : LaneMask) (pc : DWord) (h : Word) :
    f.entersRegion lanes pc h =
      let enters := hdrRe h = true ∧ f.phase ≠ .handler
      { f with entry := if enters then pc else f.entry, restart := if enters then lanes else f.restart, regionOpen := decide enters } := by
  have closed : f = { f with regionOpen := false } := by rw [← hr]
  have enters : (hdrRe h && f.phase != .handler) = true ↔ hdrRe h = true ∧ f.phase ≠ .handler := by rw [Bool.and_eq_true, bne_iff_ne]
  unfold Flue.entersRegion
  by_cases he : hdrRe h = true ∧ f.phase ≠ .handler
  · simp only [if_pos (enters.2 he), if_pos he, decide_eq_true he]
  · simp only [if_neg (mt enters.1 he), if_neg he, decide_eq_false he]
    exact closed

theorem enters_only {f : Flue} (hr : f.regionOpen = false) (lanes : LaneMask) (pc : DWord) (h : Word) :
    f.enters lanes pc h =
      let enters := hdrRe h = true ∧ f.phase ≠ .handler
      { f with entry := if enters then pc else f.entry, restart := if enters then lanes else f.restart, regionOpen := decide enters,
               ycount := if hdrYp h = true then 0 else f.ycount } := by
  unfold Flue.enters
  rw [entersRegion_only hr]
  by_cases hy : hdrYp h = true
  · simp only [if_pos hy]
  · simp only [if_neg hy]

/-! ### The clauses of a flue (03 R56, 04 R98) -/

theorem leave_same (d : OpenClause) (hm : Bool) (m : LaneMask) :
    (d.leave hm m).header = d.header ∧ (d.leave hm m).word = d.word ∧ (d.leave hm m).words = d.words := by
  cases hm <;> exact ⟨rfl, rfl, rfl⟩

theorem join_same (d : OpenClause) (hm : Bool) (m : LaneMask) :
    (d.join hm m).header = d.header ∧ (d.join hm m).word = d.word ∧ (d.join hm m).words = d.words := by
  cases hm <;> exact ⟨rfl, rfl, rfl⟩

theorem members_leave (d : OpenClause) (hm : Bool) (m : LaneMask) : (d.leave hm m).members hm &&& m = 0 := by
  have none' : ∀ x : LaneMask, x &&& ~~~m &&& m = 0 := fun x => by
    ext l hl
    simp
  cases hm <;> exact none' _

theorem members_join (d : OpenClause) (hm : Bool) (m : LaneMask) : (d.join hm m).members hm &&& m = m := by
  have all : ∀ x : LaneMask, (x ||| m) &&& m = m := fun x => by
    ext l hl
    simp only [BitVec.getElem_and, BitVec.getElem_or]
    cases m[l] <;> simp
  cases hm <;> exact all _

theorem overlaps_congr {c c' d d' : OpenClause} (h : c.header = c'.header ∧ c.words = c'.words) (h' : d.header = d'.header ∧ d.words = d'.words) :
    c.overlaps d = c'.overlaps d' := by
  unfold OpenClause.overlaps
  rw [h.1, h.2, h'.1, h'.2]

/-- What the flue's clauses are once lanes have taken one, as the statement says it. -/
def Taken (f g : Flue) (lanes : LaneMask) (pc : DWord) (h : Word) (body : List Word) : Prop :=
  let hm := f.phase == .handler
  ∃ c cs, g.clauses = c :: cs ∧ c.header = pc ∧ c.word = h ∧ c.words = body ∧ c.members hm &&& lanes = lanes ∧
    (∀ d ∈ cs, d.members hm &&& lanes = 0 ∧ (c.overlaps d = false ∨ g.uses d = true)) ∧
    ∀ d ∈ f.clauses, ¬(d.header = pc ∧ d.word = h ∧ d.words = body) → c.overlaps d = false → d.leave hm lanes ∈ cs

theorem takes_only (f : Flue) (lanes : LaneMask) (c : OpenClause) : ∃ cs, f.takes lanes c = { f with clauses := cs } := ⟨_, rfl⟩

theorem uses_takes (f : Flue) (lanes : LaneMask) (c : OpenClause) : (f.takes lanes c).uses = f.uses := by
  obtain ⟨cs, h⟩ := takes_only f lanes c
  rw [h]
  rfl

theorem takes_taken (f : Flue) (lanes : LaneMask) (pc : DWord) (h : Word) (body : List Word) :
    Taken f (f.takes lanes { header := pc, word := h, words := body }) lanes pc h body := by
  let c : OpenClause := { header := pc, word := h, words := body }
  let same := fun (d : OpenClause) => d.header == c.header && d.word == c.word && d.words == c.words
  have hsame : ∀ d, same d = true ↔ d.header = pc ∧ d.word = h ∧ d.words = body := fun d => by
    simp only [same, c, Bool.and_eq_true, beq_iff_eq, and_assoc]
  let mine := (f.clauses.find? same).getD { c with lanes := 0, hlanes := 0 }
  have hmine : mine.header = pc ∧ mine.word = h ∧ mine.words = body := by
    simp only [mine]
    cases hfind : f.clauses.find? same with
    | none => exact ⟨rfl, rfl, rfl⟩
    | some d => exact (hsame d).1 (List.find?_some hfind)
  obtain ⟨hh, hw, hws⟩ := join_same mine (f.phase == .handler) lanes
  have hover : ∀ d, (mine.join (f.phase == .handler) lanes).overlaps d = c.overlaps d := fun d =>
    overlaps_congr ⟨hh.trans hmine.1, hws.trans hmine.2.2⟩ ⟨rfl, rfl⟩
  refine ⟨mine.join (f.phase == .handler) lanes,
    (leaveAll (f.clauses.filter fun d => !same d) (f.phase == .handler) lanes).filter fun d => !c.overlaps d || f.uses d, rfl,
    hh.trans hmine.1, hw.trans hmine.2.1, hws.trans hmine.2.2, members_join .., fun d hd => ?_, fun d hd hne ho => ?_⟩
  · obtain ⟨hmem, hkeep⟩ := List.mem_filter.1 hd
    obtain ⟨d', -, rfl⟩ := List.mem_map.1 hmem
    rw [uses_takes, hover]
    refine ⟨members_leave .., ?_⟩
    simpa only [Bool.or_eq_true, Bool.not_eq_true'] using hkeep
  · refine List.mem_filter.2 ⟨List.mem_map.2 ⟨d, List.mem_filter.2 ⟨hd, ?_⟩, rfl⟩, ?_⟩
    · rw [Bool.not_eq_true', ← Bool.not_eq_true, hsame]
      exact hne
    · obtain ⟨hh', -, hws'⟩ := leave_same d (f.phase == .handler) lanes
      rw [← hover, overlaps_congr ⟨rfl, rfl⟩ ⟨hh', hws'⟩, ho]
      rfl

/-! ### The issue -/

/-- What the flue is once a clause has opened, as the statement says it. -/
def Opens (stove slot : Nat) (f g : Flue) (lanes : LaneMask) (pc : DWord) (h : Word) (body : List Word) : Prop :=
  let enters := hdrRe h = true ∧ f.phase ≠ .handler
  g = { f with pc := g.pc, clauses := g.clauses, entry := if enters then pc else f.entry, restart := if enters then lanes else f.restart,
               regionOpen := decide enters, ycount := if hdrYp h = true then 0 else f.ycount } ∧
  Taken f g lanes pc h body ∧ Moves ⟨stove, slot, lanes, pc, pc + 4, pc, h, false, 0, f⟩ f g 0 (fun _ => 0) lanes

theorem opened_opens {f : Flue} (hr : f.regionOpen = false) (stove slot : Nat) (lanes : LaneMask) (pc : DWord) (h : Word) (body : List Word) :
    Opens stove slot f (f.opened lanes pc h body) lanes pc h body := by
  have ht := takes_taken ((f.enters lanes pc h).setPc lanes (pc + 4)) lanes pc h body
  have hpc := pcOf_setPc (f.enters lanes pc h) lanes (pc + 4)
  obtain ⟨cs, hcs⟩ := takes_only ((f.enters lanes pc h).setPc lanes (pc + 4)) lanes { header := pc, word := h, words := body }
  obtain ⟨p, hp⟩ := setPc_only (f.enters lanes pc h) lanes (pc + 4)
  have he := enters_only hr lanes pc h
  have hop : f.opened lanes pc h body = ((f.enters lanes pc h).setPc lanes (pc + 4)).takes lanes { header := pc, word := h, words := body } := rfl
  rw [← hop] at hcs ht
  generalize f.opened lanes pc h body = g at *
  rw [hp, he] at hcs ht hpc
  refine ⟨?_, ht, fun l hl => ?_⟩
  · rw [hcs]
  · rw [if_neg (by simp), hcs]
    refine (hpc l).trans (if_congr (and_iff_right hl) rfl rfl)

/-- What a clause that is broken leaves of a flue with no cause pending. -/
theorem clauseFault_run {f : Flue} (hrun : f.phase = .run) (hp : f.pending = []) {lanes : LaneMask} (hl : lanes ≠ 0) (pc faddr : DWord) (h : Word) :
    f.clauseFault cILLEGAL lanes pc faddr h =
      { f with pending := [(0, { lanes := lanes, faddr := faddr, resume := pc, codeAt := faddr })] } := by
  have hnot : f.phase ≠ .handler := by rw [hrun]; decide
  unfold Flue.clauseFault Flue.resumeAt
  simp only [if_neg hnot]
  unfold Flue.pend
  rw [if_neg hl, hp]
  rfl

theorem mayIssue_pending {f : Flue} (h : f.mayIssue = true) (hrun : f.phase = .run) : f.pending = [] := by
  unfold Flue.mayIssue at h
  simp only [hrun, Bool.and_eq_true] at h
  obtain ⟨⟨⟨⟨-, hp⟩, -⟩, -⟩, -⟩ := h
  exact List.isEmpty_iff.1 hp

theorem SameFlues.trans {s t u : State} (h : SameFlues s t) (h' : SameFlues t u) : SameFlues s u :=
  ⟨h'.1.trans h.1, fun a b => (h'.2 a b).trans (h.2 a b)⟩

theorem maps_setFlue {s : State} {stove cid : Nat} {va : DWord} {n : Nat} {k : Acc} {dcl : Bool} {pa : Nat} (h : Maps s stove cid va n k dcl pa)
    (slot : Nat) (f : Flue) : Maps (s.setFlue stove slot f) stove cid va n k dcl pa := by
  obtain ⟨hcan, halign, hkick, hkind, hb, e, he, hj⟩ := h
  have htlb : ((s.setFlue stove slot f).stove stove).tlb = (s.stove stove).tlb := by rw [State.setFlue, State.stove_setStove, if_pos rfl]
  exact ⟨hcan, halign, hkick, hkind, hb, e, by rw [htlb]; exact he, hj⟩

/-- Settles O54: the counters at line ends, then the clause by what holds it back: nothing may issue, the clause is broken, a flag is busy, the
slice ends; else it opens. -/
theorem clauseIssueOpens : Obligations.ClauseIssueOpens := by
  intro s stove slot f pc hf run
  refine ⟨clauseIssue_normalised pc hf, fun pa hn hm hline hbad => ?_⟩
  intro lanes line h body breaks may stops becomes
  have hrun : run = if f.mayIssue then (s.setFlue stove slot f).takeClause ⟨stove, slot⟩ pc else .next (s.setFlue stove slot f) := by
    have := clauseIssue_eq pc hf
    rwa [hn] at this
  have same := sameFlues_setFlue hf
  have hf' : (s.setFlue stove slot f).flue? stove slot = some f := (same.2 ..).trans hf
  obtain ⟨t, hfetch, ht⟩ := fetch_words (maps_setFlue hm slot f) hline hbad
  have same' : SameFlues s t := same.trans ht
  have hft : t.flue? stove slot = some f := (same'.2 ..).trans hf
  have go : may → run = (s.setFlue stove slot f).takeClause ⟨stove, slot⟩ pc := fun hmay => by rw [hrun, if_pos hmay.1]
  refine ⟨fun hmay => ?_, fun k hmay hk hphase => ?_, fun hmay hk hw => ?_, fun hmay hk hw hs hr => ?_, fun hmay hk hw hs hr => ?_⟩
  · refine Becomes.of_setFlue (t := s) (g := f) ?_ ⟨rfl, fun _ _ => rfl⟩ rfl
    rw [hrun]
    split
    · next hi => exact takeClause_none hf' fun hgo => hmay ⟨hi, hgo⟩
    · rfl
  · obtain ⟨hi, hl, hin, hheld⟩ := hmay
    refine Becomes.of_setFlue (t := t) ((go ⟨hi, hl, hin, hheld⟩).trans ((takeClause_faults hf' hl hin hheld hfetch hk).trans
      (congrArg Host.Outcome.next (modFlue_of_flue? hft _)))) same' ?_
    rw [clauseFault_run hphase (mayIssue_pending hi hphase) hl]
    exact ⟨rfl, rfl⟩
  · obtain ⟨hi, hl, hin, hheld⟩ := hmay
    exact Becomes.of_setFlue (t := s) ((go ⟨hi, hl, hin, hheld⟩).trans (takeClause_holds hf' hl hin hheld hfetch hk hw)) ⟨rfl, fun _ _ => rfl⟩ rfl
  · obtain ⟨hi, hl, hin, hheld⟩ := hmay
    refine Becomes.of_setFlue (t := t) ((go ⟨hi, hl, hin, hheld⟩).trans ((takeClause_stops hf' hl hin hheld hfetch hk hw hs).trans
      (congrArg Host.Outcome.next ?_))) same' rfl
    rw [commit_closed hft hr, modFlue_of_flue? hft]
  · obtain ⟨hi, hl, hin, hheld⟩ := hmay
    exact Becomes.of_setFlue (t := t) ((go ⟨hi, hl, hin, hheld⟩).trans ((takeClause_opens hf' hl hin hheld hfetch hk hw hs).trans
      (congrArg Host.Outcome.next (openClause_eq hft hr ..)))) same' (opened_opens hr stove slot lanes pc h body)

end Sys2Proof.Machine
end

section
/-! PROOF of O55: a step runs the decoded instruction (05 R103-R111, 06 R129, 14 R333; assumptions 2 and 28). -/

namespace Sys2Proof.Machine

open Sys2Proof.Claims

/-! ### The turn of a step -/

theorem step_turn {s : State} {t : Turn} {ts : List Turn} (h : s.turns = t :: ts) : step s = runTurn t { s with turns := ts } := by
  simp only [step, State.nextTurn, h]

/-! ### An instruction outside an issue -/

theorem onIssue_none {s : State} (h : s.issue = none) (k : Issue → Flue → State) : onIssue s k = .fault .noIssue := by
  simp only [onIssue, h]

theorem onHart_none {s : State} (h : s.core = none) (k : Nat → Hart → State) : onHart s k = .fault .noIssue := by
  simp only [onHart, h]

/-- The meaning of every form that is encoded for a flue asks for the issue. -/
theorem exec_noIssue {s : State} (h : s.issue = none) {i : Instr} (he : i.code ≠ .event) (hc : ∀ n x, i.code ≠ .enclave n x) :
    exec i s = .fault .noIssue := by
  cases hcode : i.code with
  | event => exact absurd hcode he
  | enclave n x => exact absurd hcode (hc n x)
  | long _ _ | short _ _ | control _ _ | system _ _ =>
    cases i <;> cases hcode
    all_goals exact onIssue_none h _

/-- The meaning of every enclave instruction asks for the hart. -/
theorem exec_noHart {s : State} (h : s.core = none) {i : Instr} {n : BitVec 3} {x : RArgs} (hcode : i.code = .enclave n x) :
    exec i s = .fault .noIssue := by
  cases i <;> cases hcode
  all_goals simp only [exec, execEncnew, execEncin, execEncout, execEncsealSeal, execEncsealUnseal, execEncsealDestroy, onHostHart,
    onHart_none h]

/-! ### The turn of a hart (14 R333, 19 R410) -/

theorem callsPages_iff (x : Hart) (w : Word) : x.callsPages w = true ↔ w = 0x73 ∧ (x.mode = .vs ∨ x.mode = .vu) ∧ x.inside ≠ none ∧
    SMap.get x.x 17 / 256 = 0x504C01#64 ∧ isPageService ((SMap.get x.x 17).setWidth 16) = true := by
  simp only [Hart.callsPages, Bool.and_eq_true, Bool.or_eq_true, beq_iff_eq, Option.isSome_iff_ne_none, and_assoc]

section
variable {s : State} {h : Nat}

theorem hartTurn_wait (hw : (s.hartWord h).1 = .wait) : hartTurn h s = .next (s.hartWord h).2 := by
  simp only [hartTurn, hw]

theorem hartTurn_cause {c : Nat} (hw : (s.hartWord h).1 = .cause c) : hartTurn h s = .next ((s.hartWord h).2.illegalInst h) := by
  simp only [hartTurn, hw, State.coreFault]

variable {w : Word} (hw : (s.hartWord h).1 = .ok w)
include hw

theorem hartTurn_calls (hp : (s.hart h).callsPages w = true) : hartTurn h s = .next (s.hartWord h).2 := by
  simp only [hartTurn, hw, hp, if_true]

theorem hartTurn_base (hp : ¬(s.hart h).callsPages w = true) (hb : w.extractLsb' 0 7 ≠ 0x0B#7) :
    hartTurn h s = .refused (.baseInstruction w) := by
  simp only [hartTurn, hw, if_neg hp]
  exact if_pos (bne_iff_ne.2 hb)

/-- An ECALL is no word of custom-0. -/
theorem hartTurn_custom (hb : w.extractLsb' 0 7 = 0x0B#7) : hartTurn h s = match decodeEnclave ((s.hart h).reg (w.extractLsb' 20 5)) w with
    | .error _ => .next ((s.hartWord h).2.illegalInst h)
    | .ok i => andThen (exec i { (s.hartWord h).2 with core := some h }) fun t => .next { t with core := none } := by
  have hp : ¬(s.hart h).callsPages w = true := fun hp => by
    rw [((callsPages_iff ..).1 hp).1] at hb
    exact absurd hb (by decide)
  simp only [hartTurn, hw, if_neg hp]
  exact if_neg (by simp only [hb, bne_self_eq_false, Bool.false_eq_true, not_false_eq_true])
end

/-! ### The turn of a burner (05 R103-R111, 06 R129) -/

theorem foldl_waitOut_none (stove : Nat) {l : List (Nat × Flue)} (h : ∀ p ∈ l, p.2.pageWait = none ∧ p.2.ringWait = false) (s : State) :
    l.foldl (fun s p => if p.2.pageWait.isSome || p.2.ringWait then s.waitOut stove p.1 else s) s = s := by
  induction l with
  | nil => rfl
  | cons p l ih =>
    obtain ⟨hp, hr⟩ := h p List.mem_cons_self
    rw [List.foldl_cons, hp, hr]
    exact ih fun q hq => h q (List.mem_cons_of_mem p hq)

section
variable {s : State} {stove slot : Nat} {g : Flue} {pc : DWord} {lanes : LaneMask} (hg : s.flue? stove slot = some g)
include hg

theorem openAll_inside (hin : (instrAt g pc).isSome = true) : openAll stove slot [(pc, lanes)] s = .next s := by
  simp only [openAll, hg, hin, if_true]

theorem openAll_header (hin : instrAt g pc = none) : openAll stove slot [(pc, lanes)] s = s.takeClause ⟨stove, slot⟩ pc := by
  simp only [openAll, hg, hin, Option.isSome_none, Bool.false_eq_true, if_false]
  cases s.takeClause ⟨stove, slot⟩ pc <;> rfl
end

/-- The opportunity of a burner, all of whose flues may stay, up to the issue of the clauses. -/
theorem issueTurn_opened {s u : State} {stove burner slot : Nat} {f view : Flue}
    (hstay : ∀ p ∈ burnerSlots (s.stove stove) burner, p.2.pageWait = none ∧ p.2.ringWait = false)
    {s1 : State} (h1 : s1 = (burnerSlots (s.stove stove) burner).foldl (fun s p => s.modFlue stove p.1 Flue.normalise) s)
    (hpick : s1.pickFlue stove burner = some (slot, f)) {gs : List (DWord × LaneMask)}
    (hgs : s1.chosen stove f (s1.readyGroups stove slot f) = gs)
    (hopen : openAll stove slot gs (((s1.trickle stove slot).trickleAcc stove slot).count f.cid 1) = .next u)
    (hview : u.flue? stove slot = some view) :
    issueTurn stove burner s = match runAll stove slot view gs ⟨[], u⟩ with
      | .next r => .next (r.state.afterIssue stove slot f (s1.readyGroups stove slot f) r.issued)
      | .fault e => .fault e
      | .refused e => .refused e := by
  subst h1
  simp only [issueTurn, foldl_waitOut_none stove hstay, hpick, hgs, hopen, andThen, hview] <;> rfl

section
variable {u : State} {stove slot : Nat} {view : Flue} {lanes : LaneMask} {pc at' : DWord} {ins : Instr} {c : OpenClause} {next : DWord}
  {last : Bool} (hview : u.flue? stove slot = some view) (hat : view.standsAt (pc, lanes) = at')
  (hlanes : ∀ l < 32, lanes.getLsbD l = true → view.pcOf l = at') (hins : instrAt view at' = some (ins, c, next, last))
include hview hat hlanes hins

/-- The lanes stand at the instruction, which is taken unless it waits at issue. -/
theorem taken_eq : u.taken stove slot view (pc, lanes) =
    let i : Issue := ⟨stove, slot, lanes, at', next, c.header, c.word, last, u.freeIdx, view⟩
    if insHeld u i view ins = true then none else some (ins, i) := by
  have hall : ((lanesOf lanes).all fun l => view.pcOf l == at') = true :=
    List.all_eq_true.2 fun l hl => beq_iff_eq.2 (hlanes l ((mem_lanesOf ..).1 hl).1 ((mem_lanesOf ..).1 hl).2)
  simp only [State.taken, hview, hat, hall, issueAt, hins, Option.map_some, Bool.not_true, Bool.false_eq_true, if_false, Option.filter_some]
  cases insHeld u ⟨stove, slot, lanes, at', next, c.header, c.word, last, u.freeIdx, view⟩ view ins <;> rfl

theorem runAll_held (hheld : insHeld u ⟨stove, slot, lanes, at', next, c.header, c.word, last, u.freeIdx, view⟩ view ins = true) :
    runAll stove slot view [(pc, lanes)] ⟨[], u⟩ = .next ⟨[], u⟩ := by
  have ht := (taken_eq hview hat hlanes hins).trans (if_pos hheld)
  simp only [runAll, ht]

theorem runAll_issues (hheld : insHeld u ⟨stove, slot, lanes, at', next, c.header, c.word, last, u.freeIdx, view⟩ view ins = false) :
    runAll stove slot view [(pc, lanes)] ⟨[], u⟩ =
      match issueOne ins ⟨stove, slot, lanes, at', next, c.header, c.word, last, u.freeIdx, view⟩ u with
      | .next t => .next ⟨[(pc, lanes)], t⟩
      | .fault e => .fault e
      | .refused e => .refused e := by
  have ht := (taken_eq hview hat hlanes hins).trans (if_neg (Bool.eq_false_iff.1 hheld))
  simp only [runAll, ht, List.nil_append] <;> rfl
end

/-- A step of a burner, once the clause of its group has issued. -/
theorem step_runs_group {s u : State} {stove burner slot : Nat} {ts : List Turn} {f view : Flue} {pc : DWord} {lanes : LaneMask}
    (hturn : s.turns = .issue stove burner :: ts)
    (hstay : ∀ p ∈ burnerSlots (s.stove stove) burner, p.2.pageWait = none ∧ p.2.ringWait = false)
    {s1 : State} (h1 : s1 = (burnerSlots (({ s with turns := ts } : State).stove stove) burner).foldl
      (fun s p => s.modFlue stove p.1 Flue.normalise) { s with turns := ts })
    (hpick : s1.pickFlue stove burner = some (slot, f)) (hgs : s1.chosen stove f (s1.readyGroups stove slot f) = [(pc, lanes)])
    (hopen : openAll stove slot [(pc, lanes)] (((s1.trickle stove slot).trickleAcc stove slot).count f.cid 1) = .next u)
    (hview : u.flue? stove slot = some view) {at' : DWord} (hat : view.standsAt (pc, lanes) = at') {ins : Instr} {c : OpenClause} {next : DWord}
    {last : Bool} (hlanes : ∀ l < 32, lanes.getLsbD l = true → view.pcOf l = at') (hins : instrAt view at' = some (ins, c, next, last)) :
    let i : Issue := ⟨stove, slot, lanes, at', next, c.header, c.word, last, u.freeIdx, view⟩
    (insHeld u i view ins = false →
      step s = andThen (exec ins { u.count view.cid 2 with issue := some i, freeIdx := u.freeIdx + 1 }) fun t =>
        .next (({ t with issue := none } : State).afterIssue stove slot f (s1.readyGroups stove slot f) [(pc, lanes)])) ∧
    (insHeld u i view ins = true → step s = .next (u.afterIssue stove slot f (s1.readyGroups stove slot f) [])) := by
  intro i
  have hstep : step s = _ := (step_turn hturn).trans (issueTurn_opened (s := { s with turns := ts }) hstay h1 hpick hgs hopen hview)
  refine ⟨fun hheld => ?_, fun hheld => ?_⟩
  · rw [hstep, runAll_issues hview hat hlanes hins hheld, issueOne]
    cases exec ins { u.count view.cid 2 with issue := some i, freeIdx := u.freeIdx + 1 } <;> rfl
  · rw [hstep, runAll_held hview hat hlanes hins hheld]

/-- Settles O55: the turn of an event, of a hart by what it fetches, of a burner by where its lanes stand; and no instruction outside an issue. -/
theorem stepRunsDecoded : Obligations.StepRunsDecoded := by
  refine ⟨fun s i ts h => step_turn h, fun s h ts hturn => ?_, fun s stove burner slot ts f pc lanes hturn hstay => ?_,
    fun s i h he hc => exec_noIssue h he hc, fun s i n x h hcode => exec_noHart h hcode⟩
  · intro s0
    have hstep : step s = if h < 16 then hartTurn h s0 else .next s0 := step_turn hturn
    have hruns : h < 16 → step s = hartTurn h s0 := fun hh => hstep.trans (if_pos hh)
    refine ⟨fun hh => hstep.trans (if_neg (by omega)), ?_⟩
    intro u
    refine ⟨fun hh hw => (hruns hh).trans (hartTurn_wait hw),
      fun c hh hw => (hruns hh).trans (hartTurn_cause hw), fun w hh hw => ?_⟩
    intro pages
    have hpages : (s0.hart h).callsPages w = true ↔ pages := callsPages_iff ..
    refine ⟨fun hp => (hruns hh).trans (hartTurn_calls hw (hpages.2 hp)),
      fun hp hb => (hruns hh).trans (hartTurn_base hw (fun h => hp (hpages.1 h)) hb), fun i hb hd => ?_, fun e hb hd => ?_⟩
    · rw [hruns hh, hartTurn_custom hw hb, show decodeEnclave ((s0.hart h).reg _) w = .ok i from hd]
    · rw [hruns hh, hartTurn_custom hw hb, show decodeEnclave ((s0.hart h).reg _) w = .error e from hd]
  · intro s0 s1 s2 ready hpick hf hgs runs g hg
    refine ⟨fun hin ins c next last hlanes hins => ?_, fun s3 view hin htake hview hat ins c next last hlanes hins => ?_⟩
    · exact step_runs_group hturn hstay rfl hpick hgs (openAll_inside hg hin) hg (if_pos hin) hlanes hins
    · refine step_runs_group hturn hstay rfl hpick hgs ((openAll_header hg hin).trans htake) hview (if_neg ?_) hlanes hins
      simp only [hat, Option.isSome_none, Bool.false_eq_true, not_false_eq_true]

end Sys2Proof.Machine
end

section
/-! PROOF of O36, first part: promotion of PC groups, grants of frame room, refills (05 R99, R107, R114, R115, R117, R122). -/

namespace Sys2Proof.Machine

open Sys2Proof.Claims

/-! ### States that differ in one flue -/

theorem sameButFlue_setFlue (s : State) (stove slot : Nat) (g : Flue) : SameButFlue s (s.setFlue stove slot g) stove slot := by
  refine ⟨fun a b hab => (State.flue?_setFlue ..).trans (if_neg hab), fun a b => State.group?_setFlue .., fun n => ?_, rfl⟩
  rw [State.setFlue, State.stove_setStove]
  split
  · next h => rw [h]
  · rfl

theorem flue?_setFlue_self (s : State) (stove slot : Nat) (g : Flue) : (s.setFlue stove slot g).flue? stove slot = some g :=
  (State.flue?_setFlue ..).trans (if_pos ⟨rfl, rfl⟩)

/-- A stove's other fields tell nothing of its flues. -/
theorem flue?_setStove {s : State} {stove : Nat} {x : Stove} (h : x.flues = (s.stove stove).flues) (a b : Nat) :
    (s.setStove stove x).flue? a b = s.flue? a b := by
  rw [State.flue?, State.stove_setStove]
  split
  · next e => rw [h, e, State.flue?]
  · rfl

/-! ### Promotion (05 R107) -/

/-- A group may be promoted: one of its lanes was passed over 64 times, and none is promoted yet. -/
def Flue.Due (f : Flue) (m : LaneMask) : Prop :=
  (∃ l < 32, m.getLsbD l = true ∧ 64 ≤ (SMap.get f.passed l).toNat) ∧ ∀ l < 32, m.getLsbD l = true → Tab.getD f.promoted l 0 = 0

theorem due_iff (f : Flue) (m : LaneMask) : f.Due m ↔ ((lanesOf m).any (fun l => 64 ≤ (SMap.get f.passed l).toNat) &&
    (lanesOf m).all fun l => Tab.getD f.promoted l 0 == 0) = true := by
  simp only [Flue.Due, Bool.and_eq_true, List.any_eq_true, List.all_eq_true, mem_lanesOf, decide_eq_true_eq, beq_iff_eq, and_assoc, and_imp]

theorem promote_not {f : Flue} {pc : DWord} (h : ¬f.Due (f.lanesAt pc)) (stamp : Nat) : f.promote pc stamp = f :=
  if_neg fun hb => h ((due_iff ..).2 hb)

theorem promote_due {f : Flue} {pc : DWord} (h : f.Due (f.lanesAt pc)) (stamp : Nat) :
    f.promote pc stamp = { f with promoted := (lanesOf (f.lanesAt pc)).foldl (fun t l => Tab.put t l (stamp + 1)) f.promoted } :=
  if_pos ((due_iff ..).1 h)

theorem promote_only (f : Flue) (pc : DWord) (stamp : Nat) : f.promote pc stamp = { f with promoted := (f.promote pc stamp).promoted } := by
  by_cases h : f.Due (f.lanesAt pc)
  · rw [promote_due h]
  · rw [promote_not h]

theorem get_promoted_due {f : Flue} {pc : DWord} (h : f.Due (f.lanesAt pc)) (stamp : Nat) {l : Nat} (hl : l < 32) :
    Tab.get? (f.promote pc stamp).promoted l = if (f.lanesAt pc).getLsbD l = true then some (stamp + 1) else Tab.get? f.promoted l := by
  rw [promote_due h]
  have := get?_foldl_put (lanesOf (f.lanesAt pc)) (fun _ => stamp + 1) f.promoted l
  rw [List.foldl_map] at this
  exact this.trans (if_congr ((mem_lanesOf ..).trans (and_iff_right hl)) rfl rfl)

theorem promotion_eq {s : State} {stove slot : Nat} {f : Flue} (hf : s.flue? stove slot = some f) (pc : DWord) :
    exec (.pcGroupPromotion ⟨stove, slot⟩ pc) s = .next (s.tick.setFlue stove slot (f.promote pc s.stamp)) :=
  congrArg Host.Outcome.next (modFlue_of_flue? (s := s.tick) hf _)

/-! ### Grants of frame room (05 R114, R117) -/

section
variable {s : State} {stove slot stamp n : Nat} {rest : List (Nat × Nat × Nat)} {f : Flue}
  (hreq : (s.stove stove).requests = (stamp, slot, n) :: rest) (hf : s.flue? stove slot = some f)
include hreq hf

/-- A request that does not fit waits, and so does one of a flue that has something else to do first. -/
theorem frameGrant_waits (h : (s.stove stove).freeGranules < n ∨ f.stopped = true ∨ f.delivers = true) :
    exec (.frameGrant stove) s = .next s := by
  show execFrameGrant stove s = _
  by_cases hn : (s.stove stove).freeGranules < n
  · simp only [execFrameGrant, hreq, hn, if_true]
  · have hs0 : (if (s.stove stove).spill == some slot then s.setStove stove { s.stove stove with spill := none, idle := 0 } else s).flue?
        stove slot = some f := by
      split
      · exact (flue?_setStove (by rfl) ..).trans hf
      · exact hf
    have hb : (f.stopped || f.delivers) = true := Bool.or_eq_true_iff.2 (h.resolve_left hn)
    simp only [execFrameGrant, hreq, hn, if_false, hs0, hb, if_true]

variable (hn : n ≤ (s.stove stove).freeGranules) (hstop : f.stopped = false) (hdel : f.delivers = false) (hspill : (s.stove stove).spill = none)
include hn hstop hdel hspill

theorem frameGrant_refill (hcall : f.call = none) : exec (.frameGrant stove) s = .next (s.setFlue stove slot { f with granted := true }) := by
  show execFrameGrant stove s = _
  have hnone : ((none : Option Nat) == some slot) = false := rfl
  simp only [execFrameGrant, hreq, if_neg (Nat.not_lt.2 hn), hspill, hnone, Bool.false_eq_true, if_false, hf, hstop, hdel, Bool.or_false, hcall]

theorem frameGrant_call {c : FrameCall} (hcall : f.call = some c) (hphase : f.phase = .frameWait) :
    exec (.frameGrant stove) s = .next (((s.commit stove slot).modFlue stove slot fun g => g.callNow c).afterPark stove slot) := by
  show execFrameGrant stove s = _
  have hnone : ((none : Option Nat) == some slot) = false := rfl
  simp only [execFrameGrant, hreq, if_neg (Nat.not_lt.2 hn), hspill, hnone, Bool.false_eq_true, if_false, hf, hstop, hdel, Bool.or_false, hcall,
    hphase, if_true]
end

/-- Lanes that no barrier of the group knows park unnoticed. -/
theorem barPark_none {s : State} {stove slot : Nat} {f : Flue} (hf : s.flue? stove slot = some f)
    (hbar : ∀ gr, s.group? stove f.group = some gr → gr.barriers = []) : s.barPark stove slot = s := by
  have hnone : ∀ b, (s.bar stove f.group b).flue f.gflue = {} := by
    intro b
    unfold State.bar
    cases hg : s.group? stove f.group with
    | none => rfl
    | some gr => simp only [hbar gr hg]; rfl
  unfold State.barPark
  induction List.range 16 with
  | nil => rfl
  | cons b bs ih =>
    rw [List.foldl_cons]
    simp only [hf, hnone]
    exact ih

theorem afterPark_alone {s : State} {stove slot : Nat} {f : Flue} (hf : s.flue? stove slot = some f) (hphase : f.phase ≠ .drain)
    (hrvs : f.rvs = []) (hbar : ∀ gr, s.group? stove f.group = some gr → gr.barriers = []) :
    s.afterPark stove slot = s.setFlue stove slot f := by
  unfold State.afterPark
  simp only [hf, hphase, if_false]
  rw [barPark_none hf hbar, modFlue_of_flue? hf, checkStuck_of_openRvs (openRvs_of_rvs (by simp [hrvs]))]

theorem callNow_latchZero (f : Flue) (c : FrameCall) : LatchZero f (f.callNow c) (c.movers ||| c.others) := by
  intro l hl
  refine ⟨(get_clearL ..).trans (if_congr (and_iff_right hl) rfl rfl), ?_⟩
  refine (Tab.get?_filter _ (fun k => !(c.movers ||| c.others).getLsbD k) l).trans ?_
  cases (c.movers ||| c.others).getLsbD l <;> rfl

theorem depthOf_callNow (f : Flue) (c : FrameCall) (hd : f.curDepth < 255) {l : Nat} (hl : l < 32) :
    (f.callNow c).depthOf l = if c.movers.getLsbD l = true then f.curDepth + 1 else f.depthOf l := by
  have h : SMap.get (f.callNow c).depth l = if l ∈ lanesOf c.movers then BitVec.ofNat 8 (f.curDepth + 1) else SMap.get f.depth l :=
    SMap.get_setAll_map (lanesOf c.movers) (fun _ => BitVec.ofNat 8 (f.curDepth + 1)) f.depth l
  unfold Flue.depthOf
  rw [h]
  simp only [mem_lanesOf, hl, true_and]
  split
  · rw [BitVec.toNat_ofNat, Nat.mod_eq_of_lt (by omega)]
  · rfl

theorem getLsbD_disjoint {a b : LaneMask} (h : a &&& b = 0) {l : Nat} (ha : a.getLsbD l = true) : b.getLsbD l = false := by
  have := congrArg (·.getLsbD l) h
  simpa [ha] using this

/-- The lanes of a call: the callers at their targets, the others at the return address. -/
theorem pcOf_called (f : Flue) (c : FrameCall) (hdis : c.movers &&& c.others = 0) {l : Nat} (hl : l < 32) :
    (f.callNow c).pcOf l = if c.movers.getLsbD l = true then SMap.get c.targets l else if c.others.getLsbD l = true then c.ret else f.pcOf l := by
  rw [pcOf_callNow f c l hl]
  by_cases hm : c.movers.getLsbD l = true
  · rw [if_pos hm, if_pos hm, if_neg (by rw [getLsbD_disjoint hdis hm]; decide)]
  · rw [if_neg hm, if_neg hm]

/-! ### Refills (05 R115, R122) -/

theorem tileRead_hbm {s : State} {pa : Nat} (h : paKind pa = .hbm) (cid n src cls : Nat) :
    s.tileRead cid pa n src cls = (Memory.read s.mem pa n, s.touch cid (pa / 128) src cls) := by
  unfold State.tileRead
  rw [h]

/-- The registers of a frame as memory holds them, one line for each register. -/
def linesRegs (m : Memory) (ls : List (Nat × Nat)) (regs : SMap 32) : SMap 32 :=
  ls.foldl (fun a p => SMap.setAll a (regWords p.2 (Memory.read m p.1 128))) regs

/-- The lines of a frame are read one by one: the registers fill, and the reads are but traffic. -/
theorem readLines_regs {m : Memory} (cid src : Nat) {ls : List (Nat × Nat)} (hk : ∀ p ∈ ls, paKind p.1 = .hbm) (regs : SMap 32) {s : State}
    (hm : s.mem = m) :
    let q := ls.foldl (fun (a : SMap 32 × State) (p : Nat × Nat) =>
      let b := a.2.tileRead cid p.1 128 src 0
      (SMap.setAll a.1 (regWords p.2 b.1), b.2)) (regs, s)
    q.1 = linesRegs m ls regs ∧ Traffic s q.2 := by
  induction ls generalizing regs s with
  | nil => exact ⟨rfl, .refl s⟩
  | cons p ls ih =>
    have ht := s.touch_traffic cid (p.1 / 128) src 0
    simp only [List.foldl_cons, tileRead_hbm (hk p List.mem_cons_self)]
    obtain ⟨h1, h2⟩ := ih (fun q hq => hk q (List.mem_cons_of_mem p hq)) (SMap.setAll regs (regWords p.2 (Memory.read s.mem p.1 128)))
      (ht.mem.trans hm)
    exact ⟨h1.trans (by rw [hm]; rfl), ht.trans h2⟩

/-- A register's words come from its line alone. -/
theorem get_setAll_regWords (m : SMap 32) (k : Nat) (bs : List Byte) (n : Nat) {l : Nat} (hl : l < 32) :
    SMap.get (SMap.setAll m (regWords k bs)) (regKey n l) =
      if n = k then BitVec.ofNat 32 (leNat ((bs.drop (4 * l)).take 4)) else SMap.get m (regKey n l) := by
  let word := fun key => BitVec.ofNat 32 (leNat ((bs.drop (4 * (key % 32))).take 4))
  have hmap : regWords k bs = ((List.range 32).map (regKey k)).map fun key => (key, word key) := by
    unfold regWords
    rw [List.map_map]
    refine List.map_congr_left fun j hj => ?_
    have : regKey k j % 32 = j := by
      have := List.mem_range.1 hj
      unfold regKey
      omega
    simp only [Function.comp, word, this]
  have hmod : regKey n l % 32 = l := by unfold regKey; omega
  have hmem : regKey n l ∈ (List.range 32).map (regKey k) ↔ n = k := by
    simp only [List.mem_map, List.mem_range]
    refine ⟨fun ⟨j, hj, e⟩ => ((regKey_inj hj hl).1 e).1.symm, fun e => ⟨l, hl, by rw [e]⟩⟩
  rw [hmap, SMap.get_setAll_map]
  simp only [hmem, word, hmod]

theorem read_drop (m : Memory) (a n k : Nat) : (Memory.read m a n).drop k = Memory.read m (a + k) (n - k) := by
  induction k generalizing a n with
  | zero => rfl
  | succ k ih =>
    cases n with
    | zero => simp [Memory.read]
    | succ n => rw [Memory.read, List.drop_succ_cons, ih, Nat.add_right_comm, Nat.add_assoc, Nat.succ_sub_succ]

theorem read_take (m : Memory) (a : Nat) {n k : Nat} (h : k ≤ n) : (Memory.read m a n).take k = Memory.read m a k := by
  induction k generalizing a n with
  | zero => rfl
  | succ k ih =>
    obtain ⟨n, rfl⟩ : ∃ j, n = j + 1 := ⟨n - 1, by omega⟩
    rw [Memory.read, List.take_succ_cons, ih _ (by omega), Memory.read]

theorem linesRegs_concat (m : Memory) (ls : List (Nat × Nat)) (p : Nat × Nat) (regs : SMap 32) :
    linesRegs m (ls ++ [p]) regs = SMap.setAll (linesRegs m ls regs) (regWords p.2 (Memory.read m p.1 128)) :=
  List.foldl_concat ..

/-- Each register holds the words of its line. -/
theorem get_linesRegs (m : Memory) (lines : List Nat) (k : Nat) (regs : SMap 32) {n pa l : Nat} (hpa : lines[n]? = some pa) (hl : l < 32) :
    SMap.get (linesRegs m (lines.zipIdx k) regs) (regKey (k + n) l) = BitVec.ofNat 32 (leNat (Memory.read m (pa + 4 * l) 4)) := by
  induction lines using List.reverseRecOn with
  | nil => cases hpa
  | append_singleton lines x ih =>
    rw [List.zipIdx_append, List.zipIdx_singleton, linesRegs_concat, get_setAll_regWords _ _ _ _ hl]
    rcases getElem?_concat_cases hpa with h | ⟨rfl, rfl⟩
    · rw [if_neg (by have := (List.getElem?_eq_some_iff.1 h).1; omega)]
      exact ih h
    · rw [if_pos rfl, read_drop, read_take _ _ (by omega)]

section
variable {s : State} {stove slot : Nat} {f : Flue} (hf : s.flue? stove slot = some f)
include hf

theorem refill_waits (h : f.phase ≠ .refillWait ∨ f.granted = false ∨ f.stopped = true) :
    exec (.refillComplete ⟨stove, slot⟩) s = .next s := by
  show execRefillComplete ⟨stove, slot⟩ s = _
  simp only [execRefillComplete, hf]
  refine if_pos ?_
  simpa [or_assoc] using h

theorem refill_reads {fr : Frame} {below : List Frame} {lines : List Nat} (hfr : f.frames = below ++ [fr]) (hrvs : f.rvs = [])
    (hphase : f.phase = .refillWait) (hgr : f.granted = true) (hstop : f.stopped = false)
    (hlines : s.spillLines stove f below.length .load = .ok lines) (hk : ∀ pa ∈ lines, paKind pa = .hbm) :
    ∃ t, Traffic s t ∧ exec (.refillComplete ⟨stove, slot⟩) s = .next (t.setFlue stove slot { f with
      phase := .run, granted := false, frames := below ++ [{ fr with regs := linesRegs s.mem lines.zipIdx [], spilled := false }] }) := by
  have hd : f.curDepth = below.length := by rw [Flue.curDepth, hfr, List.length_append]; rfl
  have htop : f.top = fr := by rw [Flue.top, hfr, List.getLastD_concat]
  have hgo : ¬(decide (f.phase ≠ .refillWait) || !f.granted || f.stopped) = true := by simp [hphase, hgr, hstop]
  obtain ⟨hregs, ht⟩ := readLines_regs (m := s.mem) f.cid (hearthOf stove) (ls := lines.zipIdx)
    (fun p hp => hk p.1 (List.fst_mem_of_mem_zipIdx hp)) [] rfl
  refine ⟨_, ht, ?_⟩
  show execRefillComplete ⟨stove, slot⟩ s = _
  simp only [execRefillComplete, hf, if_neg hgo, hd, hlines]
  rw [modFlue_of_flue? ((ht.flue? stove slot).trans hf), checkStuck_of_openRvs (openRvs_of_rvs (by simp [hrvs])), hregs, htop, hfr,
    List.dropLast_concat]
end

end Sys2Proof.Machine
end

section
/-! PROOF of O36, second part: a flue that is drained leaves its slot, and the last one of a group completes it (05 R99, 17 R385). -/

namespace Sys2Proof.Machine

open Sys2Proof.Claims

/-! ### A slot is vacated -/

theorem flue?_vacate (s : State) (stove slot a b : Nat) :
    (s.vacate stove slot).flue? a b = if a = stove ∧ b = slot then none else s.flue? a b := by
  unfold State.flue? State.vacate
  simp only [State.stove_setStove]
  by_cases h : a = stove
  · subst h
    simp only [if_true, Tab.get?_del, true_and]
  · simp only [h, if_false, false_and]

theorem group?_vacate (s : State) (stove slot a b : Nat) : (s.vacate stove slot).group? a b = s.group? a b := by
  unfold State.group? State.vacate
  simp only [State.stove_setStove]
  split
  · next h => rw [h]
  · rfl

theorem Tab.mem_del_iff {α : Type} {t : Tab α} {k : Nat} {p : Nat × α} : p ∈ Tab.del t k ↔ p ∈ t ∧ p.1 ≠ k := by
  induction t with
  | nil => simp [Tab.del]
  | cons q t ih =>
    obtain ⟨j, a⟩ := q
    by_cases h : j = k
    · rw [Tab.del, if_pos h, ih, List.mem_cons]
      exact ⟨fun ⟨hp, hk⟩ => ⟨.inr hp, hk⟩, fun ⟨hp, hk⟩ => ⟨hp.resolve_left fun e => hk (by rw [e]; exact h), hk⟩⟩
    · rw [Tab.del, if_neg h, List.mem_cons, List.mem_cons, ih]
      exact ⟨fun hp => hp.elim (fun e => ⟨.inl e, by rw [e]; exact h⟩) fun ⟨hp, hk⟩ => ⟨.inr hp, hk⟩,
        fun ⟨hp, hk⟩ => hp.imp_right fun hp => ⟨hp, hk⟩⟩

theorem slotsIn_eq_nil {st : Stove} {gid : Nat} : st.slotsIn gid = [] ↔ ∀ p ∈ st.flues, p.2.group ≠ gid := by
  simp only [Stove.slotsIn, List.map_eq_nil_iff, List.filter_eq_nil_iff, beq_iff_eq, ne_eq]

/-- The flue that leaves is the last of its group on the stove. -/
theorem slotsIn_vacate {s : State} {stove slot gid : Nat} : ((s.vacate stove slot).stove stove).slotsIn gid = [] ↔
    ∀ p ∈ (s.stove stove).flues, p.2.group = gid → p.1 = slot := by
  have hfl : ((s.vacate stove slot).stove stove).flues = Tab.del (s.stove stove).flues slot := by
    unfold State.vacate
    rw [State.stove_setStove, if_pos rfl]
  rw [slotsIn_eq_nil, hfl]
  refine forall_congr' fun p => ?_
  rw [Tab.mem_del_iff, and_imp]
  exact imp_congr_right fun _ => not_imp_not

/-! ### What completes a group (17 R385) -/

/-- Memory, partitions, hearths and the flues of every stove stay. -/
structure KeepsFlues (s t : State) : Prop where
  mem : t.mem = s.mem
  parts : t.parts = s.parts
  hearths : t.hearths = s.hearths
  flues : ∀ n, (t.stove n).flues = (s.stove n).flues

theorem KeepsFlues.trans {s t u : State} (a : KeepsFlues s t) (b : KeepsFlues t u) : KeepsFlues s u :=
  ⟨b.mem.trans a.mem, b.parts.trans a.parts, b.hearths.trans a.hearths, fun n => (b.flues n).trans (a.flues n)⟩

theorem KeepsFlues.flue? {s t : State} (a : KeepsFlues s t) (n k : Nat) : t.flue? n k = s.flue? n k := by
  rw [State.flue?, a.flues, State.flue?]

theorem KeepsFlues.kernel? {s t : State} (a : KeepsFlues s t) (p k : Nat) : t.kernel? p k = s.kernel? p k := by
  unfold State.kernel? State.part?
  rw [a.parts]

theorem keepsFlues_setStove {s : State} {n : Nat} {x : Stove} (h : x.flues = (s.stove n).flues) : KeepsFlues s (s.setStove n x) := by
  refine ⟨rfl, rfl, rfl, fun k => ?_⟩
  rw [State.stove_setStove]
  split
  · next e => rw [h, e]
  · rfl

/-- The record of a group, apart from the tiles that it has released. -/
def Group.SameRecord (g h : Group) : Prop := h = { g with tiles := h.tiles }

theorem keepsFlues_release {s : State} {stove : Nat} (h : (s.stove stove).posted = []) :
    KeepsFlues s (s.release stove) ∧ ∀ a b, (s.release stove).group? a b = s.group? a b := by
  have he : s.release stove = s.setStove stove { s.stove stove with posted := [] } := by
    unfold State.release State.drainPosted
    simp only [h]
    rfl
  rw [he]
  refine ⟨keepsFlues_setStove (by rfl), fun a b => ?_⟩
  rw [State.group?, State.stove_setStove]
  split
  · next e => rw [e, State.group?]
  · rfl

/-- A kernel without a bitmap has no tile to release for others: the group notes its own. -/
theorem relTile_keeps {s : State} {stove gid : Nat} {g : Group} {k : Kernel} (hg : s.group? stove gid = some g)
    (hk : s.kernel? g.part g.kslot = some k) (hob : k.obmap = 0) (t : Nat) :
    KeepsFlues s (s.relTile stove gid t) ∧ ∃ h, (s.relTile stove gid t).group? stove gid = some h ∧ g.SameRecord h := by
  unfold State.relTile
  simp only [hg]
  split
  · exact ⟨⟨rfl, rfl, rfl, fun _ => rfl⟩, g, hg, rfl⟩
  · let h : Group := { g with tiles := g.tiles ||| BitVec.ofNat 64 (2 ^ t) }
    have hk' : (s.setGroup stove gid h).kernel? g.part g.kslot = some k := hk
    have hrel : (s.setGroup stove gid h).releaseTile g.part k g.record.index.toNat t = s.setGroup stove gid h := if_pos hob
    simp only [h] at hk' hrel
    simp only [hk', hrel]
    exact ⟨keepsFlues_setStove (by rfl), h, (State.group?_setGroup ..).trans (if_pos ⟨rfl, rfl⟩), rfl⟩

theorem relTiles_keeps {s : State} {stove gid : Nat} {g : Group} {k : Kernel} (hg : s.group? stove gid = some g)
    (hk : s.kernel? g.part g.kslot = some k) (hob : k.obmap = 0) (ts : List Nat) :
    let u := ts.foldl (fun s t => s.relTile stove gid t) s
    KeepsFlues s u ∧ ∃ h, u.group? stove gid = some h ∧ g.SameRecord h := by
  induction ts generalizing s g with
  | nil => exact ⟨⟨rfl, rfl, rfl, fun _ => rfl⟩, g, hg, rfl⟩
  | cons t ts ih =>
    obtain ⟨k1, h, hh, e⟩ := relTile_keeps hg hk hob t
    have hk' : (s.relTile stove gid t).kernel? h.part h.kslot = some k := by
      rw [k1.kernel?, e]
      exact hk
    obtain ⟨k2, h', hh', e'⟩ := ih hh hk'
    exact ⟨k1.trans k2, h', hh', by rw [Group.SameRecord, e', e]⟩

theorem clearGroup_last {s : State} {stove gid : Nat} (h : (s.stove stove).slotsIn gid = []) :
    KeepsFlues s (s.clearGroup stove gid) ∧ (s.clearGroup stove gid).group? stove gid = none := by
  unfold State.clearGroup
  simp only [h, List.foldl_nil]
  refine ⟨keepsFlues_setStove (by rfl), ?_⟩
  rw [State.group?, State.stove_setStove, if_pos rfl]
  exact (Tab.get?_del ..).trans (if_pos rfl)

theorem modCtx_only (s : State) (c : Nat) (k : Context → Context) : ∃ x, s.modCtx c k = { s with ctxs := x } := by
  unfold State.modCtx
  split
  · exact ⟨_, rfl⟩
  · exact ⟨_, rfl⟩

theorem setKernel_only (s : State) (p k : Nat) (x : Kernel) : ∃ ps, s.setKernel p k x = { s with parts := ps } := by
  unfold State.setKernel
  split
  · exact ⟨_, rfl⟩
  · exact ⟨_, rfl⟩

theorem kernel?_setKernel {s : State} {p k : Nat} {x : Kernel} (h : s.kernel? p k = some x) (y : Kernel) :
    (s.setKernel p k y).kernel? p k = some y := by
  unfold State.kernel? at h
  unfold State.setKernel
  cases hp : s.part? p with
  | none => rw [hp] at h; cases h
  | some pt =>
    simp only [State.kernel?, State.part?_setPart, if_true, Tab.get?_put]

/-- A kernel counts one live group less; nothing but the partitions changes. -/
theorem lessLive_counts {s : State} {g : Group} {k : Kernel} (hk : s.kernel? g.part g.kslot = some k) :
    (∃ ps, s.lessLive g = { s with parts := ps }) ∧
      ∃ k', (s.lessLive g).kernel? g.part g.kslot = some k' ∧ k'.live = k.live - 1 ∧ k'.state = k.state := by
  unfold State.lessLive
  simp only [hk]
  let x : Kernel := { k with live := k.live - 1, windows := k.windows.filter fun w => w != g.window || !g.record.spawned }
  have hx : (s.setKernel g.part g.kslot x).kernel? g.part g.kslot = some x := kernel?_setKernel hk x
  obtain ⟨ps, he⟩ := setKernel_only s g.part g.kslot x
  unfold State.countStoves
  simp only [x] at hx he
  simp only [hx]
  refine ⟨?_, _, kernel?_setKernel hx _, rfl, rfl⟩
  obtain ⟨ps', he'⟩ := setKernel_only (s.setKernel g.part g.kslot x) g.part g.kslot
    { x with stoves := ((s.setKernel g.part g.kslot x).stovesWith fun h => h.part == g.part && h.kslot == g.kslot).length }
  exact ⟨ps', he'.trans (by rw [he])⟩

theorem hearthSweep_none {s : State} {hearth : Nat} (h : (s.hearth hearth).hrvs = []) :
    ∃ hs, s.hearthSweep hearth = { s with hearths := hs } := by
  unfold State.hearthSweep
  simp only [h]
  exact ⟨_, rfl⟩

/-- What follows the end of a group: of partitions only its kernel's count, of hearths nothing but a sweep with nobody there. -/
theorem lessLive_sweep {s : State} {g : Group} {k : Kernel} {hearth : Nat} (hk : s.kernel? g.part g.kslot = some k)
    (hrv : (s.hearth hearth).hrvs = []) (c q : Nat) (rs : List (Nat × Nat)) :
    ∃ cs ps hs, (((s.giveRuns c rs).lessLive g).progress c q).hearthSweep hearth = { s with ctxs := cs, parts := ps, hearths := hs } ∧
      ∃ k', ({ s with ctxs := cs, parts := ps, hearths := hs } : State).kernel? g.part g.kslot = some k' ∧
        k'.live = k.live - 1 ∧ k'.state = k.state := by
  obtain ⟨cs, h1⟩ : ∃ cs, s.giveRuns c rs = { s with ctxs := cs } := modCtx_only ..
  obtain ⟨⟨ps, h2⟩, k', hk', hcount⟩ := lessLive_counts (s := { s with ctxs := cs }) hk
  obtain ⟨cs', h3⟩ : ∃ cs', ({ s with ctxs := cs, parts := ps } : State).progress c q = { s with ctxs := cs', parts := ps } := modCtx_only ..
  obtain ⟨hs, h4⟩ := hearthSweep_none (s := { s with ctxs := cs', parts := ps }) (hearth := hearth) hrv
  rw [h2] at hk'
  exact ⟨cs', ps, hs, by rw [h1, h2, h3, h4], k', hk', hcount⟩

/-- A group whose last flue has left its stove completes, with nothing posted, no bitmap to write and nobody at the hearth rendezvous. -/
theorem completeGroup_last {s : State} {stove gid : Nat} {g : Group} {k : Kernel} (hg : s.group? stove gid = some g)
    (hk : s.kernel? g.part g.kslot = some k) (hlast : (s.stove stove).slotsIn gid = []) (hposted : (s.stove stove).posted = [])
    (hob : k.obmap = 0) (hrv : (s.hearth (hearthOf stove)).hrvs = []) :
    let t := s.completeGroup stove gid
    t.group? stove gid = none ∧ t.mem = s.mem ∧ (∃ k', t.kernel? g.part g.kslot = some k' ∧ k'.live = k.live - 1 ∧ k'.state = k.state) ∧
      ∀ n j, t.flue? n j = s.flue? n j := by
  obtain ⟨k1, hg1⟩ := keepsFlues_release hposted
  obtain ⟨s2, hs2, k2⟩ : ∃ s2, s2 = (if g.record.spawned then s.release stove
      else (List.range k.ntiles).foldl (fun s t => s.relTile stove gid t) (s.release stove)) ∧ KeepsFlues s s2 := by
    refine ⟨_, rfl, ?_⟩
    split
    · exact k1
    · exact k1.trans (relTiles_keeps ((hg1 ..).trans hg) ((k1.kernel? ..).trans hk) hob _).1
  obtain ⟨k3, hnone⟩ := clearGroup_last (s := s2) (stove := stove) (gid := gid) (by rw [Stove.slotsIn, k2.flues]; exact hlast)
  have hc : s.completeGroup stove gid =
      ((((s2.clearGroup stove gid).giveRuns g.cid g.headerRun.toList).lessLive g).progress g.cid k.queue).hearthSweep (hearthOf stove) := by
    rw [hs2]
    simp only [State.completeGroup, hg, hk]
  have keeps := k2.trans k3
  generalize s2.clearGroup stove gid = u at hc hnone keeps
  obtain ⟨cs, ps, hs, ht, k', hlive⟩ := lessLive_sweep (s := u) ((keeps.kernel? ..).trans hk)
    (hearth := hearthOf stove) (by rw [State.hearth, keeps.hearths]; exact hrv) g.cid k.queue g.headerRun.toList
  intro t
  rw [show t = _ from hc.trans ht]
  exact ⟨hnone, keeps.mem, ⟨k', hlive⟩, keeps.flue?⟩

/-! ### The event -/

/-- The flue that leaves is the last of its group, on the stove and among those that are switched out. -/
theorem last_iff {s : State} {stove slot : Nat} {f : Flue} {g : Group} :
    (g.saved.isEmpty && (((s.vacate stove slot).stove stove).slotsIn f.group).isEmpty) = true ↔
    g.saved = [] ∧ ∀ p ∈ (s.stove stove).flues, p.2.group = f.group → p.1 = slot := by
  rw [Bool.and_eq_true, List.isEmpty_iff, List.isEmpty_iff, slotsIn_vacate]

section
variable {s : State} {stove slot : Nat} {f : Flue} (hf : s.flue? stove slot = some f)
include hf

theorem drain_waits (h : ¬(f.phase = .drain ∧ f.quiet = true ∧ f.flags = [] ∧ ∀ o ∈ f.ops, o.2 = [])) :
    exec (.flueDrainComplete ⟨stove, slot⟩) s = .next s := by
  show execFlueDrainComplete ⟨stove, slot⟩ s = _
  simp only [execFlueDrainComplete, hf]
  refine if_pos ?_
  by_contra hn
  refine h ?_
  simpa [not_or, and_assoc] using hn

theorem drain_leaves {g : Group} (hq : f.phase = .drain ∧ f.quiet = true ∧ f.flags = [] ∧ ∀ o ∈ f.ops, o.2 = [])
    (hg : s.group? stove f.group = some g) : exec (.flueDrainComplete ⟨stove, slot⟩) s = .next
      (if g.saved.isEmpty && (((s.vacate stove slot).stove stove).slotsIn f.group).isEmpty then (s.vacate stove slot).completeGroup stove f.group
        else s.vacate stove slot) := by
  obtain ⟨hphase, hquiet, hflags, hops⟩ := hq
  have hall : (f.ops.all fun o => o.2.isEmpty) = true := List.all_eq_true.2 fun o ho => by rw [hops o ho]; rfl
  show execFlueDrainComplete ⟨stove, slot⟩ s = _
  simp only [execFlueDrainComplete, hf, hphase, hquiet, hflags, hall, group?_vacate, hg]
  exact (apply_ite Host.Outcome.next ..).symm
end

end Sys2Proof.Machine
end

section
/-! PROOF of O36, third part: what may follow when a group completes or a context faults fills no slot and is no fault of another context
(09 R212, 14 R338, 16 R362, 17 R385). -/

namespace Sys2Proof.Machine

/-- From one state to another no empty slot is filled, and every context stays, with the kind of its first fault. -/
structure NothingComes (s t : State) : Prop where
  slot : ∀ a b, s.flue? a b = none → t.flue? a b = none
  fault : ∀ c, (t.ctx? c).map (·.fkind) = (s.ctx? c).map (·.fkind)

theorem NothingComes.refl (s : State) : NothingComes s s := ⟨fun _ _ => id, fun _ => rfl⟩

theorem NothingComes.trans {s t u : State} (x : NothingComes s t) (y : NothingComes t u) : NothingComes s u :=
  ⟨fun a b h => y.slot a b (x.slot a b h), fun c => (y.fault c).trans (x.fault c)⟩

theorem NothingComes.of_eq {s t : State} (hs : t.stoves = s.stoves) (hc : t.ctxs = s.ctxs) : NothingComes s t := by
  refine ⟨fun a b h => ?_, fun c => ?_⟩
  · rwa [State.flue?, State.stove, hs]
  · simp only [State.ctx?, hc]

/-- A record update that leaves stoves and contexts as they are. -/
theorem NothingComes.with {s t u : State} (x : NothingComes s t) (hs : u.stoves = t.stoves) (hc : u.ctxs = t.ctxs) : NothingComes s u :=
  x.trans (.of_eq hs hc)

theorem NothingComes.foldl {α : Type} {k : State → α → State} (h : ∀ s a, NothingComes s (k s a)) (l : List α) (s : State) :
    NothingComes s (l.foldl k s) := by
  induction l generalizing s with
  | nil => exact .refl s
  | cons a l ih => exact (h s a).trans (ih _)

theorem NothingComes.foldl_fst {α β : Type} {k : State × β → α → State × β} (h : ∀ p a, NothingComes p.1 (k p a).1) (l : List α)
    (p : State × β) : NothingComes p.1 (l.foldl k p).1 := by
  induction l generalizing p with
  | nil => exact .refl p.1
  | cons a l ih => exact (h p a).trans (ih _)

theorem NothingComes.ite {s t u : State} {c : Prop} [Decidable c] (x : NothingComes s t) (y : NothingComes s u) :
    NothingComes s (if c then t else u) := by
  split
  · exact x
  · exact y

theorem Traffic.nothingComes {s t : State} (h : Traffic s t) : NothingComes s t :=
  ⟨fun a b e => (h.flue? a b).trans e, fun c => by rw [h.ctx?]⟩

theorem Counted.nothingComes {s t : State} (h : Counted s t) : NothingComes s t := by
  obtain ⟨_, _, rfl⟩ := h
  exact .of_eq rfl rfl

theorem setStove_nothingComes {s : State} {n : Nat} {x : Stove}
    (h : ∀ b, Tab.get? (s.stove n).flues b = none → Tab.get? x.flues b = none) : NothingComes s (s.setStove n x) := by
  refine ⟨fun a b e => ?_, fun _ => rfl⟩
  rw [State.flue?, State.stove_setStove]
  split
  · next ha => exact h b (by rwa [← ha])
  · exact e

theorem modCtx_nothingComes (s : State) (c : Nat) {k : Context → Context} (hk : ∀ x, (k x).fkind = x.fkind) :
    NothingComes s (s.modCtx c k) := by
  refine ⟨fun a b e => ?_, fun j => ?_⟩
  · obtain ⟨x, hx⟩ : ∃ x, s.modCtx c k = { s with ctxs := x } := modCtx_only s c k
    rw [hx]
    exact e
  · rw [State.ctx?_modCtx]
    split
    · next h => rw [h, Option.map_map]; exact congrArg (Option.map · _) (funext hk)
    · rfl

theorem setKernel_nothingComes (s : State) (p k : Nat) (x : Kernel) : NothingComes s (s.setKernel p k x) := by
  obtain ⟨ps, h⟩ := setKernel_only s p k x
  rw [h]
  exact .of_eq rfl rfl

/-! ### Writes at the slices and to peers -/

/-- A change of every stove that leaves its flues. -/
theorem mapStoves_nothingComes (s : State) {g : Nat × Stove → Nat × Stove} (h : ∀ x, (g x).1 = x.1 ∧ (g x).2.flues = x.2.flues) :
    NothingComes s { s with stoves := s.stoves.map g } := by
  refine ⟨fun a b e => ?_, fun _ => rfl⟩
  have key : ∀ t : Tab Stove, (Tab.getD (t.map g) a {}).flues = (Tab.getD t a {}).flues := by
    intro t
    induction t with
    | nil => rfl
    | cons x t ih =>
      obtain ⟨h1, h2⟩ := h x
      simp only [Tab.getD, List.map_cons, Tab.get?] at ih ⊢
      rw [h1]
      split
      · exact h2
      · exact ih
  rw [State.flue?, State.stove, key]
  exact e

theorem invalidateL1_nothingComes (s : State) (keep : Option Nat) (line : Nat) : NothingComes s (s.invalidateL1 keep line) := by
  refine mapStoves_nothingComes s fun x => ?_
  split <;> exact ⟨rfl, rfl⟩

theorem breakRange_nothingComes (s : State) (pa n : Nat) : NothingComes s (s.breakRange pa n) :=
  .foldl (fun s j => (.of_eq rfl rfl : NothingComes s (s.breakResv (pa / 128 + j)))) _ s

/-- A write at a home slice is a lookup and changes of the line, of reservations and of memory. -/
theorem applyAt_only (s : State) (c pa : Nat) (bs : List Byte) (src cls : Nat) :
    ∃ harts llc mem uncorr, s.applyAt c pa bs src cls =
      { s.touch c (pa / 128) src cls with harts := harts, llc := llc, mem := mem, uncorr := uncorr } := by
  unfold State.applyAt
  generalize s.touch c (pa / 128) src cls = u
  dsimp only
  split
  · exact ⟨_, _, _, _, rfl⟩
  · split
    · exact ⟨_, _, _, _, rfl⟩
    · exact ⟨_, _, _, _, rfl⟩

theorem applyAt_nothingComes (s : State) (c pa : Nat) (bs : List Byte) (src cls : Nat) : NothingComes s (s.applyAt c pa bs src cls) := by
  obtain ⟨_, _, _, _, h⟩ := applyAt_only s c pa bs src cls
  rw [h]
  exact (s.touch_traffic ..).nothingComes.with rfl rfl

theorem release_nothingComes (s : State) (stove : Nat) : NothingComes s (s.release stove) := by
  refine NothingComes.trans (t := s.setStove stove _) (setStove_nothingComes (by exact fun _ => id)) (.foldl (fun s p => ?_) _ _)
  unfold State.applyPosted
  exact .ite ((s.touch_traffic ..).nothingComes.trans (invalidateL1_nothingComes ..))
    ((applyAt_nothingComes ..).trans (invalidateL1_nothingComes ..))

theorem modPeer_nothingComes (s : State) (c r : Nat) (k : Peer → Peer) : NothingComes s (s.modPeer c r k) :=
  modCtx_nothingComes s c fun _ => rfl

theorem reserve_nothingComes (s : State) (port : Nat) (x : Sent) : NothingComes s (s.reserve port x) := by
  unfold State.reserve
  exact .ite (.refl s) (.of_eq rfl rfl)

theorem putFlit_nothingComes (s : State) (port : Nat) (x : Sent) : NothingComes s (s.putFlit port x) := by
  have h := reserve_nothingComes s port x
  unfold State.putFlit
  generalize s.reserve port x = u at h
  exact h.with rfl rfl

theorem sendNext_nothingComes (s : State) (port c r : Nat) (o : OutFlit) : NothingComes s (s.sendNext port c r o) := by
  unfold State.sendNext
  split
  · exact .refl s
  · exact ((modPeer_nothingComes ..).trans (putFlit_nothingComes ..)).trans (State.countN_counted ..).nothingComes

theorem sendFlit_nothingComes (s : State) (port c r : Nat) (o : OutFlit) : NothingComes s (s.sendFlit port c r o) := by
  refine .trans (.ite ?_ (.refl s)) (sendNext_nothingComes ..)
  exact ((sendNext_nothingComes ..).trans (modPeer_nothingComes ..)).with rfl rfl

theorem pump_nothingComes (s : State) (c r : Nat) : NothingComes s (s.pump c r) := by
  unfold State.pump
  split
  · exact .refl s
  split
  · exact .refl s
  · refine .trans (NothingComes.foldl_fst (fun a o => ?_) _ (s, [])) (modPeer_nothingComes ..)
    split
    · exact .refl a.1
    · split
      · exact .refl a.1
      · exact sendFlit_nothingComes ..

theorem hold_nothingComes (s : State) (c r a : Nat) (k : PostedKind) : NothingComes s (s.hold c r a k) :=
  (modPeer_nothingComes ..).trans (pump_nothingComes ..)

theorem holdParts_nothingComes (c r n : Nat) : ∀ (s : State) (a : Nat) (bs : List Byte), NothingComes s (s.holdParts c r n a bs) := by
  induction n with
  | zero => exact fun s _ _ => .refl s
  | succ n ih =>
    intro s a bs
    cases bs with
    | nil => exact .refl s
    | cons b bs => exact (hold_nothingComes ..).trans (ih ..)

theorem tileWriteFuel_nothingComes (c src cls n : Nat) :
    ∀ (s : State) (pa : Nat) (bs : List Byte), NothingComes s (s.tileWriteFuel c src cls n pa bs) := by
  induction n with
  | zero => exact fun s _ _ => .refl s
  | succ n ih =>
    intro s pa bs
    cases bs with
    | nil => exact .refl s
    | cons b bs => exact (applyAt_nothingComes ..).trans (ih ..)

theorem tileWrite_nothingComes (s : State) (c pa : Nat) (bs : List Byte) (src cls : Nat) : NothingComes s (s.tileWrite c pa bs src cls) := by
  unfold State.tileWrite
  split
  · exact tileWriteFuel_nothingComes ..
  · rw [State.toPeer_store]
    exact ((State.sendPacket_counted ..).nothingComes.trans (breakRange_nothingComes ..)).trans (holdParts_nothingComes ..)
  · exact (State.sendPacket_counted ..).nothingComes.with rfl rfl
  · exact .refl s

theorem coreWrite_nothingComes (s : State) (c pa : Nat) (bs : List Byte) : NothingComes s (s.coreWrite c pa bs) := by
  unfold State.coreWrite
  split
  · exact (applyAt_nothingComes ..).trans (invalidateL1_nothingComes ..)
  · exact tileWrite_nothingComes ..

theorem devWriteFuel_nothingComes (c n : Nat) :
    ∀ (s : State) (va : DWord) (bs : List Byte), NothingComes s (s.devWriteFuel c n va bs) := by
  induction n with
  | zero => exact fun s _ _ => .refl s
  | succ n ih =>
    intro s va bs
    cases bs with
    | nil => exact .refl s
    | cons b bs =>
      rw [State.devWriteFuel]
      refine .trans ?_ (ih ..)
      split
      · exact coreWrite_nothingComes ..
      · exact .refl s

/-! ### Tiles, groups, kernels -/

theorem setBits_nothingComes (s : State) (c : Nat) (obmap : DWord) (js : List Nat) : NothingComes s (s.setBits c obmap js).2 := by
  refine .foldl (fun s j => ?_) _ s
  unfold State.setTileBit
  split
  · exact devWriteFuel_nothingComes ..
  · exact .refl s

theorem setGroup_nothingComes (s : State) (a b : Nat) (g : Group) : NothingComes s (s.setGroup a b g) := setStove_nothingComes (by exact fun _ => id)

theorem releaseTile_nothingComes (s : State) (part : Nat) (k : Kernel) (i t : Nat) : NothingComes s (s.releaseTile part k i t) := by
  unfold State.releaseTile
  refine .ite (.refl s) (.ite (.refl s) ?_)
  dsimp only
  split
  · exact setBits_nothingComes ..
  · exact (setBits_nothingComes ..).with rfl rfl

theorem relTile_nothingComes (s : State) (stove gid t : Nat) : NothingComes s (s.relTile stove gid t) := by
  unfold State.relTile
  split
  · exact .refl s
  · refine .ite (.refl s) ?_
    dsimp only
    split
    · exact setGroup_nothingComes ..
    · exact (setGroup_nothingComes ..).trans (releaseTile_nothingComes ..)

theorem vacate_nothingComes (s : State) (stove slot : Nat) : NothingComes s (s.vacate stove slot) :=
  setStove_nothingComes fun _ h => (Tab.get?_del ..).trans ((if_congr Iff.rfl rfl h).trans (ite_self _))

theorem clearGroup_nothingComes (s : State) (stove gid : Nat) : NothingComes s (s.clearGroup stove gid) :=
  NothingComes.trans (.foldl (fun s j => vacate_nothingComes s stove j) ((s.stove stove).slotsIn gid) s)
    (setStove_nothingComes (by exact fun _ => id))

theorem giveRuns_nothingComes (s : State) (c : Nat) (rs : List (Nat × Nat)) : NothingComes s (s.giveRuns c rs) :=
  modCtx_nothingComes s c fun _ => rfl

theorem progress_nothingComes (s : State) (c q : Nat) : NothingComes s (s.progress c q) := modCtx_nothingComes s c fun _ => rfl

theorem countStoves_nothingComes (s : State) (p k : Nat) : NothingComes s (s.countStoves p k) := by
  unfold State.countStoves
  split
  · exact setKernel_nothingComes ..
  · exact .refl s

theorem lessLive_nothingComes (s : State) (g : Group) : NothingComes s (s.lessLive g) := by
  unfold State.lessLive
  split
  · exact .refl s
  · exact .trans (setKernel_nothingComes ..) (countStoves_nothingComes ..)

theorem Tab.get?_mapVals_none {α : Type} {f : α → α} {t : Tab α} {k : Nat} (h : Tab.get? t k = none) : Tab.get? (Tab.mapVals f t) k = none :=
  (Tab.get?_mapVals f t k).trans (by rw [h, Option.map_none])

/-- Flues that count an operation change where they are. -/
theorem modOpFlues_nothingComes (s : State) (stove uid : Nat) (k : Flue → Flue) : NothingComes s (s.modOpFlues stove uid k) :=
  NothingComes.trans (t := s.setStove stove _) (setStove_nothingComes fun _ h => by dsimp only; exact Tab.get?_mapVals_none h)
    (.of_eq rfl rfl)

theorem refreshMmah_nothingComes (s : State) (stove : Nat) : NothingComes s (s.refreshMmah stove) :=
  NothingComes.trans (t := s.setStove stove _) (setStove_nothingComes (by exact fun _ => id)) (.of_eq rfl rfl)

theorem hearthSweep_nothingComes (s : State) (hearth : Nat) : NothingComes s (s.hearthSweep hearth) := by
  refine NothingComes.trans (t := s.setHearth hearth _) (.of_eq rfl rfl) (.foldl (fun s rv => ?_) _ _)
  refine .ite ?_ (.ite ?_ (.refl s))
  · refine NothingComes.trans (t := s.setHearth hearth _) (.of_eq rfl rfl) (.foldl (fun s a => ?_) _ _)
    exact (modOpFlues_nothingComes ..).trans (refreshMmah_nothingComes ..)
  · refine NothingComes.trans (t := s.setHearth hearth _) (.of_eq rfl rfl) (.foldl (fun s a => ?_) _ _)
    exact (modOpFlues_nothingComes ..).trans (modOpFlues_nothingComes ..)

theorem completeGroup_nothingComes (s : State) (stove gid : Nat) : NothingComes s (s.completeGroup stove gid) := by
  unfold State.completeGroup
  split
  · exact .refl s
  split
  · exact clearGroup_nothingComes ..
  · rename_i g _ _ k _
    extract_lets s1 s2
    have h1 : NothingComes s s1 := release_nothingComes ..
    have h2 : NothingComes s s2 := .ite h1 (h1.trans (.foldl (fun s t => relTile_nothingComes s stove gid t) _ s1))
    have h3 := (h2.trans (clearGroup_nothingComes s2 stove gid)).trans (giveRuns_nothingComes _ g.cid g.headerRun.toList)
    have h4 := (h3.trans (lessLive_nothingComes _ g)).trans (progress_nothingComes _ g.cid k.queue)
    exact h4.trans (hearthSweep_nothingComes ..)

/-! ### Context faults (14 R338) -/

theorem loseGroup_nothingComes (s : State) (stove gid : Nat) : NothingComes s (s.loseGroup stove gid) := by
  unfold State.loseGroup
  split
  · exact .refl s
  · refine .trans (.trans (.trans (.trans ?_ (clearGroup_nothingComes ..)) (giveRuns_nothingComes ..)) (lessLive_nothingComes ..))
      (hearthSweep_nothingComes ..)
    exact .foldl (fun s p => .ite (State.countN_counted ..).nothingComes (.refl s)) _ s

theorem loseGroups_nothingComes (s : State) (which : Group → Bool) : NothingComes s (s.loseGroups which) := by
  unfold State.loseGroups
  extract_lets here s1 out s2 s3
  have h1 : NothingComes s s1 := .foldl (fun s p => loseGroup_nothingComes ..) here s
  have h3 : NothingComes s s3 :=
    (h1.with (u := s2) rfl rfl).trans (.foldl (fun s w => (giveRuns_nothingComes ..).trans (lessLive_nothingComes ..)) out s2)
  exact .ite (h3.trans (.foldl (fun s (x : Nat × Hearth) => hearthSweep_nothingComes s x.1) _ s3)) h3

theorem freeScratch_nothingComes (s : State) (k : Kernel) : NothingComes s (s.freeScratch k) := by
  refine .foldl (fun s x => ?_) _ s
  exact .of_eq rfl rfl

theorem dropKernel_nothingComes (s : State) (p k : Nat) : NothingComes s (s.dropKernel p k) := by
  unfold State.dropKernel
  split
  · exact .of_eq rfl rfl
  · exact .refl s

theorem dropWork_nothingComes (s : State) (c : Nat) (which : Kernel → Bool) : NothingComes s (s.dropWork c which) := by
  refine (loseGroups_nothingComes ..).trans (.foldl (fun s x => .foldl (fun s k => ?_) _ s) _ _)
  exact (freeScratch_nothingComes s k.2).trans (dropKernel_nothingComes ..)

theorem freshLines_nothingComes (s : State) (ls : Nat × Nat) : NothingComes s (s.freshLines ls) := .of_eq rfl rfl

theorem leaveThread_nothingComes (s : State) (h : Nat) (record resume : DWord) : NothingComes s (s.leaveThread h record resume) := by
  unfold State.leaveThread
  dsimp only
  split
  · exact .refl s
  · next cid th _ =>
    have h1 : ∀ x k, (∀ c, (k c).fkind = c.fkind) → NothingComes s ((s.setHart h x).modCtx cid k) := fun x k hk =>
      NothingComes.trans (t := s.setHart h x) (.of_eq rfl rfl) (modCtx_nothingComes _ cid hk)
    split
    · refine .trans ?_ (freshLines_nothingComes ..)
      exact h1 _ _ fun _ => rfl
    · exact h1 _ _ fun _ => rfl

theorem leaveThreads_nothingComes (s : State) (c reason : Nat) : NothingComes s (s.leaveThreads c reason) := by
  unfold State.leaveThreads
  split
  · exact .refl s
  · refine .foldl (fun s th => ?_) _ s
    split
    · exact .refl s
    · exact leaveThread_nothingComes ..

theorem dropStreams_nothingComes (s : State) (c : Nat) : NothingComes s (s.dropStreams c) := by
  unfold State.dropStreams
  split
  · refine .foldl (fun s p => ?_) _ s
    exact .of_eq rfl rfl
  · exact .refl s

theorem ctx?_modCtx_self {s : State} {cid : Nat} {c : Context} (h : s.ctx? cid = some c) (k : Context → Context) :
    (s.modCtx cid k).ctx? cid = some (k c) := by
  rw [State.ctx?_modCtx, if_pos rfl, h, Option.map_some]

/-- The first fault of a context that may run is its cause. -/
theorem contextFault_first {s : State} {cid : Nat} {c : Context} (hc : s.ctx? cid = some c) (hrun : c.state = .running) (hnone : c.fkind = 0)
    (kind hearth detail : Nat) :
    ∃ c', (s.contextFault cid kind hearth detail).ctx? cid = some c' ∧ c'.state = .faulted ∧ c'.fkind = kind := by
  have hel : (!c.eligible) = false := by rw [Context.eligible, hrun]; rfl
  have hcome := ((dropWork_nothingComes s cid fun k => k.state != .retiring).trans (leaveThreads_nothingComes _ cid 4)).trans
    (dropStreams_nothingComes _ cid)
  have hmap := hcome.fault cid
  rw [hc] at hmap
  obtain ⟨d, hd, hk⟩ := Option.map_eq_some_iff.1 hmap
  have hd0 : d.fkind = 0 := hk.trans hnone
  unfold State.contextFault
  simp only [hc, hel, Bool.false_eq_true, if_false]
  generalize ((s.dropWork cid fun k => k.state != .retiring).leaveThreads cid 4).dropStreams cid = s3 at hd
  exact ⟨_, ctx?_modCtx_self (ctx?_modCtx_self hd _) _, rfl, if_pos hd0⟩

end Sys2Proof.Machine
end

section
/-! PROOF of O36, fourth part: the escape spill engine (05 R118, R119, R121, R122; 09 R223, 19 R415). -/

namespace Sys2Proof.Machine

open Sys2Proof.Claims

/-! ### The flue that the engine works for (05 R119) -/

/-- The search for the waiting flue of the greatest depth, the first one on a tie. -/
def deepest (m : Option (Nat × Nat)) (p : Nat × Flue) : Option (Nat × Nat) :=
  if p.2.request.isSome then match m with
    | none => some (p.1, p.2.curDepth)
    | some (j, d) => if d < p.2.curDepth then some (p.1, p.2.curDepth) else some (j, d)
  else m

theorem spillChoice_eq (st : Stove) : st.spillChoice = (st.flues.foldl deepest none).map (·.1) := rfl

theorem deepest_idle (m : Option (Nat × Nat)) {p : Nat × Flue} (h : p.2.request = none) : deepest m p = m := by
  simp [deepest, h]

theorem deepest_first {p : Nat × Flue} (h : p.2.request ≠ none) : deepest none p = some (p.1, p.2.curDepth) := by
  simp [deepest, Option.isSome_iff_ne_none.2 h]

theorem deepest_next (j d : Nat) {p : Nat × Flue} (h : p.2.request ≠ none) :
    deepest (some (j, d)) p = if d < p.2.curDepth then some (p.1, p.2.curDepth) else some (j, d) := by
  simp [deepest, Option.isSome_iff_ne_none.2 h]

/-- Of the flues that wait none is deeper than the one found, and one as deep has a higher slot. -/
def DeepestWaiting (l : List (Nat × Flue)) (x : Nat × Flue) : Prop :=
  x ∈ l ∧ x.2.request ≠ none ∧
    ∀ p ∈ l, p.2.request ≠ none → p.2.curDepth < x.2.curDepth ∨ (p.2.curDepth = x.2.curDepth ∧ x.1 ≤ p.1)

theorem foldl_deepest {l : List (Nat × Flue)} (hs : l.Pairwise fun x y => x.1 < y.1) :
    ((∀ p ∈ l, p.2.request = none) ∧ l.foldl deepest none = none) ∨
      ∃ x, DeepestWaiting l x ∧ l.foldl deepest none = some (x.1, x.2.curDepth) := by
  induction l using List.reverseRecOn with
  | nil => exact .inl ⟨fun _ h => absurd h List.not_mem_nil, rfl⟩
  | append_singleton l y ih =>
    obtain ⟨hl, -, hlt⟩ := List.pairwise_append.1 hs
    have below : ∀ p ∈ l, p.1 < y.1 := fun p hp => hlt p hp y (List.mem_singleton_self y)
    have mem : ∀ {P : Nat × Flue → Prop}, (∀ p ∈ l, P p) → P y → ∀ p ∈ l ++ [y], P p := fun h hy p hp =>
      (List.mem_append.1 hp).elim (h p) fun e => List.mem_singleton.1 e ▸ hy
    rw [List.foldl_concat]
    by_cases hy : y.2.request = none
    · rw [deepest_idle _ hy]
      rcases ih hl with ⟨hnone, hf⟩ | ⟨x, ⟨hx, hreq, hmax⟩, hf⟩
      · exact .inl ⟨mem hnone hy, hf⟩
      · exact .inr ⟨x, ⟨List.mem_append_left _ hx, hreq, mem hmax fun h => absurd hy h⟩, hf⟩
    · rcases ih hl with ⟨hnone, hf⟩ | ⟨x, ⟨hx, hreq, hmax⟩, hf⟩
      · rw [hf, deepest_first hy]
        exact .inr ⟨y, ⟨List.mem_append_right _ (List.mem_singleton_self y), hy,
          mem (fun p hp h => absurd (hnone p hp) h) fun _ => .inr ⟨rfl, le_rfl⟩⟩, rfl⟩
      · rw [hf, deepest_next _ _ hy]
        split
        · next hd =>
          refine .inr ⟨y, ⟨List.mem_append_right _ (List.mem_singleton_self y), hy,
            mem (fun p hp h => ?_) fun _ => .inr ⟨rfl, le_rfl⟩⟩, rfl⟩
          exact .inl ((hmax p hp h).elim (fun e => e.trans hd) fun e => e.1 ▸ hd)
        · next hd =>
          refine .inr ⟨x, ⟨List.mem_append_left _ hx, hreq, mem hmax fun _ => ?_⟩, rfl⟩
          exact (Nat.lt_or_eq_of_le (Nat.not_lt.1 hd)).imp_right fun e => ⟨e, (below x hx).le⟩

/-- An entry of a sorted table is what its key finds. -/
theorem Tab.get?_of_mem {α : Type} {t : Tab α} (hs : Tab.sorted t = true) {p : Nat × α} (hp : p ∈ t) : Tab.get? t p.1 = some p.2 := by
  induction t with
  | nil => cases hp
  | cons q t ih =>
    obtain ⟨ha, ht⟩ := (Tab.sorted_cons q.1 q.2 t).1 hs
    rcases List.mem_cons.1 hp with rfl | hp
    · exact if_pos rfl
    · exact (if_neg (ha p hp).ne).trans (ih ht hp)

theorem spillStart_waits {s : State} {stove : Nat} (h : (s.stove stove).spill ≠ none ∨ (s.stove stove).idle < 256) :
    exec (.escapeSpillStart stove) s = .next s := by
  show execEscapeSpillStart stove s = _
  refine if_pos ?_
  rw [Bool.or_eq_true, Option.isSome_iff_ne_none, decide_eq_true_eq]
  exact h

theorem spillStart_chooses {s : State} {stove : Nat} (hs : Tab.sorted (s.stove stove).flues = true) (hnone : (s.stove stove).spill = none)
    (hidle : 256 ≤ (s.stove stove).idle) (hw : ∃ p ∈ (s.stove stove).flues, p.2.request ≠ none) :
    ∃ x, DeepestWaiting (s.stove stove).flues x ∧
      exec (.escapeSpillStart stove) s = .next (s.setStove stove { s.stove stove with spill := some x.1 }) := by
  obtain ⟨p, hp, hreq⟩ := hw
  rcases foldl_deepest (Tab.pairwise_of_sorted hs) with ⟨hno, -⟩ | ⟨x, hx, hf⟩
  · exact absurd (hno p hp) hreq
  · have hc : (s.stove stove).spillChoice = some x.1 := by rw [spillChoice_eq, hf]; rfl
    refine ⟨x, hx, ?_⟩
    show execEscapeSpillStart stove s = _
    have hgo : ¬((s.stove stove).spill.isSome || decide ((s.stove stove).idle < 256)) = true := by simp [hnone, hidle]
    simp only [execEscapeSpillStart, if_neg hgo, hc]

/-! ### Lines stay whole while others are written (09 R223, 19 R415) -/

/-- A line reads, and would read when it left the LLC. -/
structure LineWhole (s : State) (line : Nat) : Prop where
  uncorr : Tab.get? s.uncorr line = none
  good : ∀ x, Tab.get? s.llc line = some x → x.bad = false
  sorted : Tab.sorted s.llc = true
  entry : ∀ e, Tab.get? s.side line = some e → e = s.sideEntry line ∨ ∃ x, Tab.get? s.llc line = some x ∧ x.dirty = true

theorem llcBad_iff (s : State) (line : Nat) : s.llcBad line = false ↔ ∀ x, Tab.get? s.llc line = some x → x.bad = false := by
  unfold State.llcBad
  cases Tab.get? s.llc line <;> simp

theorem tagFails_of_entry {s : State} {line : Nat}
    (h : ∀ e, Tab.get? s.side line = some e → e = s.sideEntry line ∨ ∃ x, Tab.get? s.llc line = some x ∧ x.dirty = true) :
    s.tagFails line = false := by
  unfold State.tagFails
  cases hl : Tab.get? s.llc line with
  | some x => rfl
  | none =>
    cases he : Tab.get? s.side line with
    | none => rfl
    | some e =>
      rcases h e he with rfl | ⟨x, hx, -⟩
      · exact bne_self_eq_false _
      · rw [hl] at hx; cases hx

theorem whole_iff (s : State) (pa : Nat) : Whole s pa ↔ LineWhole s (pa / 128) := by
  simp only [Whole, State.bad, Bool.or_eq_false_iff, Option.isSome_eq_false_iff, Option.isNone_iff_eq_none, llcBad_iff]
  exact ⟨fun ⟨⟨⟨huncorr, hgood⟩, _⟩, hsorted, hentry⟩ => ⟨huncorr, hgood, hsorted, hentry⟩,
    fun ⟨huncorr, hgood, hsorted, hentry⟩ => ⟨⟨⟨huncorr, hgood⟩, tagFails_of_entry hentry⟩, hsorted, hentry⟩⟩

/-- The entry of a line depends on its bytes, the records and the keys. -/
theorem sideEntry_congr {s t : State} {line : Nat} (hm : Memory.read t.mem (128 * line) 128 = Memory.read s.mem (128 * line) 128)
    (ho : t.own = s.own) (hc : t.ctxs = s.ctxs) : t.sideEntry line = s.sideEntry line := by
  have hk : t.lineKey line = s.lineKey line := by
    unfold State.lineKey State.ownOf State.ctx?
    rw [ho, hc]
  have hf : t.lineForm line = s.lineForm line := by
    unfold State.lineForm State.ownOf
    rw [hm, ho]
  unfold State.sideEntry State.sideText State.ownOf
  rw [hk, hf, ho]

/-- A line stays whole while the LLC, the side table and its own bytes do. -/
theorem LineWhole.congr {s t : State} {line : Nat} (h : LineWhole s line) (hl : Tab.get? t.llc line = Tab.get? s.llc line)
    (hs : Tab.sorted t.llc = true) (hd : t.side = s.side) (hu : Tab.get? t.uncorr line = Tab.get? s.uncorr line)
    (hm : Memory.read t.mem (128 * line) 128 = Memory.read s.mem (128 * line) 128) (ho : t.own = s.own) (hc : t.ctxs = s.ctxs) :
    LineWhole t line := by
  refine ⟨hu.trans h.uncorr, fun x hx => h.good x (hl ▸ hx), hs, fun e he => ?_⟩
  rw [sideEntry_congr hm ho hc, hl]
  exact h.entry e (hd ▸ he)

theorem LineWhole.counted {s t : State} {line : Nat} (h : LineWhole s line) (hc : Counted s t) : LineWhole t line := by
  obtain ⟨_, _, rfl⟩ := hc
  exact h.congr rfl h.sorted rfl rfl rfl rfl rfl

/-- What a write-back changes: the entry of its line, and counters. -/
theorem writeBack_only (s : State) (line : Nat) (l : LlcLine) :
    ∃ side flows counts, s.writeBack line l = { s with side := side, flows := flows, counts := counts } ∧
      ∀ k, (k = line → Tab.get? s.uncorr k = none ∧ l.bad = false) →
        Tab.get? side k = if k = line ∧ l.dirty = true then some (s.sideEntry k) else Tab.get? s.side k := by
  unfold State.writeBack
  by_cases hd : l.dirty = true
  · simp only [hd, if_true]
    obtain ⟨fl, cs, e⟩ := State.countN_counted
      { s with side := Tab.put s.side line (if (Tab.get? s.uncorr line).isSome || l.bad then s.sideEntry line ^^^ 1 else s.sideEntry line) }
      l.cid 6 (s.lineBursts line)
    refine ⟨_, fl, cs, e, fun k hk => ?_⟩
    rw [Tab.get?_put]
    by_cases h : k = line
    · obtain ⟨hu, hb⟩ := hk h
      subst h
      simp [hu, hb]
    · simp [h]
  · simp only [hd]
    exact ⟨_, _, _, rfl, fun k _ => by simp⟩

theorem LineWhole.writeBack {s : State} {line k : Nat} {l : LlcLine} (h : LineWhole s k) (hl : Tab.get? s.llc line = some l) :
    LineWhole (s.writeBack line l) k := by
  obtain ⟨side, fl, cs, e, hside⟩ := writeBack_only s line l
  have hk := hside k fun hk => ⟨h.uncorr, h.good l (hk ▸ hl)⟩
  rw [e]
  refine ⟨h.uncorr, h.good, h.sorted, fun x hx => ?_⟩
  have hx' : Tab.get? side k = some x := hx
  rw [hk] at hx'
  split at hx'
  · exact .inl (Option.some.inj hx').symm
  · exact h.entry x hx'

/-- The lines that leave write their entries; what stays is as it was. -/
theorem foldl_writeBack {s : State} {k : Nat} (hu : Tab.get? s.uncorr k = none) (out : List (Nat × LlcLine))
    (hgood : ∀ x ∈ out, x.1 = k → x.2.bad = false) :
    ∃ side flows counts, out.foldl (fun (s : State) x => s.writeBack x.1 x.2) s = { s with side := side, flows := flows, counts := counts } ∧
      (Tab.get? side k = some (s.sideEntry k) ∨ (Tab.get? side k = Tab.get? s.side k ∧ ∀ x ∈ out, x.1 = k → x.2.dirty = false)) := by
  induction out generalizing s with
  | nil => exact ⟨_, _, _, rfl, .inr ⟨rfl, fun _ h => absurd h List.not_mem_nil⟩⟩
  | cons x out ih =>
    obtain ⟨side, fl, cs, e, hside⟩ := writeBack_only s x.1 x.2
    have hk := hside k fun hk => ⟨hu, hgood x List.mem_cons_self hk.symm⟩
    obtain ⟨side', fl', cs', e', h'⟩ := ih (s := { s with side := side, flows := fl, counts := cs }) hu
      fun y hy => hgood y (List.mem_cons_of_mem x hy)
    refine ⟨side', fl', cs', by rw [List.foldl_cons, e, e'], ?_⟩
    rcases h' with h' | ⟨h', hout⟩
    · exact .inl h'
    · have hs : Tab.get? side' k = _ := h'.trans hk
      by_cases hx : k = x.1 ∧ x.2.dirty = true
      · exact .inl (hs.trans (if_pos hx))
      · refine .inr ⟨hs.trans (if_neg hx), fun y hy hyk => ?_⟩
        rcases List.mem_cons.1 hy with rfl | hy
        · exact Bool.eq_false_iff.2 fun hd => hx ⟨hyk.symm, hd⟩
        · exact hout y hy hyk

/-- A table without the entries of a test. -/
theorem Tab.get?_drop {α : Type} {t : Tab α} (hs : Tab.sorted t = true) (f : Nat × α → Bool) (k : Nat) :
    Tab.get? (t.filter f) k = (Tab.get? t k).bind fun a => if f (k, a) then some a else none := by
  cases hk : Tab.get? t k with
  | none =>
    cases h : Tab.get? (t.filter f) k with
    | none => rfl
    | some a =>
      have := Tab.get?_of_mem hs (List.mem_of_mem_filter (Tab.mem_of_get? h))
      simp [hk] at this
  | some a =>
    have hm := Tab.mem_of_get? hk
    by_cases hf : f (k, a) = true
    · simp only [Option.bind_some, hf, if_true]
      exact Tab.get?_of_mem (Tab.sorted_filter t f hs) (List.mem_filter.2 ⟨hm, hf⟩)
    · simp only [Option.bind_some, hf]
      cases h : Tab.get? (t.filter f) k with
      | none => rfl
      | some b =>
        obtain ⟨hb, hfb⟩ := List.mem_filter.1 (Tab.mem_of_get? h)
        have : b = a := by simpa [hk] using (Tab.get?_of_mem hs hb).symm
        exact absurd (this ▸ hfb) hf

theorem LineWhole.llcDrop {s : State} {k : Nat} (h : LineWhole s k) (which : Nat → LlcLine → Bool) : LineWhole (s.llcDrop which) k := by
  have hmem : ∀ x ∈ s.llc.filter fun x => which x.1 x.2, x.1 = k → Tab.get? s.llc k = some x.2 := fun x hx hk =>
    hk ▸ Tab.get?_of_mem h.sorted (List.mem_of_mem_filter hx)
  obtain ⟨side, fl, cs, e, hside⟩ := foldl_writeBack h.uncorr (s.llc.filter fun x => which x.1 x.2) fun x hx hk => h.good x.2 (hmem x hx hk)
  have hd : s.llcDrop which = { s with side := side, flows := fl, counts := cs, llc := s.llc.filter fun x => !which x.1 x.2 } := by
    unfold State.llcDrop
    simp only [e]
  have hget := Tab.get?_drop h.sorted (fun x => !which x.1 x.2) k
  rw [hd]
  refine ⟨h.uncorr, fun x hx => ?_, Tab.sorted_filter _ _ h.sorted, fun v hv => ?_⟩
  · obtain ⟨y, hy, hyx⟩ := Option.bind_eq_some_iff.1 (hget.symm.trans hx)
    split at hyx
    · exact h.good x (Option.some.inj hyx ▸ hy)
    · cases hyx
  · rcases hside with hs | ⟨hs, hclean⟩
    · exact .inl (Option.some.inj (hv.symm.trans hs))
    · refine (h.entry v (hs.symm.trans hv)).imp id fun ⟨x, hx, hdirty⟩ => ⟨x, ?_, hdirty⟩
      refine hget.trans ?_
      rw [hx, Option.bind_some, if_pos]
      by_contra hw
      have hw' : which k x = true := by simpa using hw
      have := hclean (k, x) (List.mem_filter.2 ⟨Tab.mem_of_get? hx, hw'⟩) rfl
      rw [hdirty] at this
      cases this

theorem LineWhole.put {s : State} {k line : Nat} (h : LineWhole s k) (hk : k ≠ line) (x : LlcLine) (idx : Nat) :
    LineWhole { s with llc := Tab.put s.llc line x, freeIdx := idx } k :=
  h.congr ((Tab.get?_put ..).trans (if_neg hk)) (Tab.sorted_put _ _ _ h.sorted) rfl rfl rfl rfl rfl

/-- A line that comes into the LLC may send another out, which stays whole. -/
theorem LineWhole.llcFill {s : State} {k : Nat} (h : LineWhole s k) (cid : Nat) {line : Nat} (hk : k ≠ line) (src : Nat) :
    LineWhole (s.llcFill cid line src) k := by
  have h1 : LineWhole ((s.count cid 4).countN cid 5 (s.lineBursts line)) k :=
    h.counted ((State.countN_counted ..).trans (State.countN_counted ..))
  unfold State.llcFill
  extract_lets ways mates s1 w s2
  split
  · exact h1.put hk _ _
  · exact (h1.llcDrop _).put hk _ _

theorem LineWhole.touch {s : State} {k : Nat} (h : LineWhole s k) (cid : Nat) {line : Nat} (hk : k ≠ line) (src cls : Nat) :
    LineWhole (s.touch cid line src cls) k := by
  have h0 : LineWhole ((s.exchange cid src (portSlice (sliceOf (128 * line))) cls).count cid 3) k :=
    h.counted ((State.exchange_counted ..).trans (State.countN_counted ..))
  unfold State.touch
  extract_lets s0 s1
  have h1 : LineWhole s1 k := by
    unfold s1
    split
    · next old hold =>
      dsimp only
      split
      · exact h0
      · have h2 := h0.writeBack hold
        refine LineWhole.llcFill ?_ cid hk src
        exact h2.congr rfl h2.sorted rfl rfl rfl rfl rfl
    · exact h0.llcFill cid hk src
  exact h1.congr rfl h1.sorted rfl rfl rfl rfl rfl

theorem get?_modify_other {α : Type} (t : Tab α) {j k : Nat} (h : k ≠ j) (f : α → α) : Tab.get? (Tab.modify t j f) k = Tab.get? t k := by
  unfold Tab.modify
  split
  · exact (Tab.get?_put ..).trans (if_neg h)
  · rfl

theorem sorted_modify {α : Type} {t : Tab α} (h : Tab.sorted t = true) (j : Nat) (f : α → α) : Tab.sorted (Tab.modify t j f) = true := by
  unfold Tab.modify
  split
  · exact Tab.sorted_put _ _ _ h
  · exact h

/-- Of another line the entry in the LLC and the mark change. -/
theorem LineWhole.other {s : State} {k j : Nat} (h : LineWhole s k) (hk : k ≠ j) (f : LlcLine → LlcLine) {u : Tab Byte}
    (hu : Tab.get? u k = Tab.get? s.uncorr k) : LineWhole { s with llc := Tab.modify s.llc j f, uncorr := u } k :=
  h.congr (get?_modify_other _ hk _) (sorted_modify h.sorted _ _) rfl hu rfl rfl rfl

/-- Bytes of another line change. -/
theorem LineWhole.write {s : State} {k pa : Nat} (h : LineWhole s k) (hk : k ≠ pa / 128) {bs : List Byte} (hin : pa % 128 + bs.length ≤ 128) :
    LineWhole { s with mem := Memory.write s.mem pa bs } k :=
  h.congr rfl h.sorted rfl rfl (Memory.read_congr _ _ _ _ fun j h1 h2 => by rw [Memory.byte_write, if_neg (by omega)]) rfl rfl

/-- A write within one line leaves the others whole. -/
theorem LineWhole.applyAt {s : State} {k : Nat} (h : LineWhole s k) (cid : Nat) {pa : Nat} (hk : k ≠ pa / 128)
    {bs : List Byte} (hin : pa % 128 + bs.length ≤ 128) (src cls : Nat) : LineWhole (s.applyAt cid pa bs src cls) k := by
  have h0 := h.touch cid hk src cls
  unfold State.applyAt
  generalize s.touch cid (pa / 128) src cls = u at h0
  extract_lets s0 s1
  have h1 : LineWhole s1 k := LineWhole.other (s := s0) (h0.congr rfl h0.sorted rfl rfl rfl rfl rfl) hk _ rfl
  split
  · exact h1.write hk hin
  · dsimp only
    split
    · refine (h1.write hk hin).other hk _ ?_
      split
      · exact (Tab.get?_del ..).trans (if_neg hk)
      · exact (Tab.get?_put ..).trans (if_neg hk)
    · exact h1

/-! ### A frame is written to its place (05 R121, R122) -/

theorem applyAt_flue? (s : State) (cid pa : Nat) (bs : List Byte) (src cls a b : Nat) :
    (s.applyAt cid pa bs src cls).flue? a b = s.flue? a b := by
  obtain ⟨_, _, _, _, h⟩ := applyAt_only s cid pa bs src cls
  rw [h]
  exact (s.touch_traffic ..).flue? a b

/-- A write of one whole line is one write at its slice. -/
theorem tileWrite_line (s : State) (cid : Nat) {pa : Nat} (hk : paKind pa = .hbm) (ha : pa % 128 = 0) {bs : List Byte} (hl : bs.length = 128)
    (src cls : Nat) : s.tileWrite cid pa bs src cls = s.applyAt cid pa bs src cls := by
  obtain ⟨b, bs, rfl⟩ : ∃ b cs, bs = b :: cs := List.exists_cons_of_ne_nil (by rintro rfl; cases hl)
  unfold State.tileWrite
  rw [hk, hl]
  simp only [State.tileWriteFuel, ha, Nat.sub_zero, List.take_of_length_le hl.le, List.drop_of_length_le hl.le]

/-- A run of pieces of four bytes is taken apart again. -/
theorem flatten_piece {α : Type} {xs : List (List α)} (h : ∀ x ∈ xs, x.length = 4) {l : Nat} {x : List α} (hx : xs[l]? = some x) :
    (xs.flatten.drop (4 * l)).take 4 = x := by
  induction xs generalizing l with
  | nil => cases hx
  | cons y xs ih =>
    have hy := h y List.mem_cons_self
    rw [List.flatten_cons]
    cases l with
    | zero =>
      rw [List.getElem?_cons_zero, Option.some.injEq] at hx
      rw [Nat.mul_zero, List.drop_zero, List.take_append_of_le_length hy.ge, List.take_of_length_le hy.le, hx]
    | succ l =>
      have : 4 * (l + 1) = y.length + 4 * l := by omega
      rw [this, List.drop_length_add_append]
      exact ih (fun z hz => h z (List.mem_cons_of_mem y hz)) hx

theorem leNat_leBytes (n v : Nat) : leNat (leBytes n v) = v % 256 ^ n := by
  induction n generalizing v with
  | zero => exact (Nat.mod_one v).symm
  | succ n ih =>
    have hpow : (256 : Nat) ^ (n + 1) = 256 * 256 ^ n := Nat.pow_succ'
    rw [leBytes, leNat, ih, BitVec.toNat_ofNat, hpow, Nat.mod_mul]

theorem regBytes_length (regs : SMap 32) (n : Nat) : (regBytes regs n).length = 128 := by
  simp [regBytes, Function.comp_def, length_leBytes]

/-- The bytes of a register hold the words of its lanes. -/
theorem regBytes_word (regs : SMap 32) (n : Nat) {l : Nat} (hl : l < 32) :
    BitVec.ofNat 32 (leNat (((regBytes regs n).drop (4 * l)).take 4)) = SMap.get regs (regKey n l) := by
  have hp : ((List.range 32).map fun l => leBytes 4 (SMap.get regs (regKey n l)).toNat)[l]? =
      some (leBytes 4 (SMap.get regs (regKey n l)).toNat) := by
    rw [List.getElem?_map, List.getElem?_range hl, Option.map_some]
  rw [regBytes, flatten_piece (fun x hx => ?_) hp, leNat_leBytes]
  · apply BitVec.eq_of_toNat_eq
    have := (SMap.get regs (regKey n l)).isLt
    rw [BitVec.toNat_ofNat]
    omega
  · obtain ⟨j, -, rfl⟩ := List.mem_map.1 hx
    exact length_leBytes ..

/-- Memory once registers are written to their lines. -/
def linesMem (regs : SMap 32) (ls : List (Nat × Nat)) (m : Memory) : Memory :=
  ls.foldl (fun m p => Memory.write m p.1 (regBytes regs p.2)) m

theorem byte_linesMem_outside (regs : SMap 32) {ls : List (Nat × Nat)} {a : Nat} (h : ∀ p ∈ ls, a < p.1 ∨ p.1 + 128 ≤ a) (m : Memory) :
    Memory.byte (linesMem regs ls m) a = Memory.byte m a := by
  induction ls generalizing m with
  | nil => rfl
  | cons p ls ih =>
    rw [linesMem, List.foldl_cons]
    refine (ih (fun q hq => h q (List.mem_cons_of_mem p hq)) _).trans ?_
    rw [Memory.byte_write, regBytes_length, if_neg]
    have := h p List.mem_cons_self
    omega

/-- Lines of 128 bytes that are not the same share no byte. -/
theorem lines_apart {p q a : Nat} (hp : p % 128 = 0) (hq : q % 128 = 0) (h : q ≠ p) (h1 : p ≤ a) (h2 : a < p + 128) :
    a < q ∨ q + 128 ≤ a := by
  omega

theorem read_linesMem (regs : SMap 32) {ls : List (Nat × Nat)} (ha : ∀ p ∈ ls, p.1 % 128 = 0) (hd : (ls.map (·.1)).Nodup) {p : Nat × Nat}
    (hp : p ∈ ls) (m : Memory) : Memory.read (linesMem regs ls m) p.1 128 = regBytes regs p.2 := by
  induction ls generalizing m with
  | nil => cases hp
  | cons q ls ih =>
    obtain ⟨hq, hd'⟩ := List.nodup_cons.1 hd
    rw [linesMem, List.foldl_cons]
    rcases List.mem_cons.1 hp with rfl | hp
    · have hw := Memory.read_write_same (regBytes regs p.2) m p.1
      rw [regBytes_length] at hw
      refine (Memory.read_congr _ _ _ _ fun j h1 h2 => byte_linesMem_outside regs (fun r hr => ?_) _).trans hw
      have hne : r.1 ≠ p.1 := fun e => hq (List.mem_map.2 ⟨r, hr, e⟩)
      exact lines_apart (ha p List.mem_cons_self) (ha r (List.mem_cons_of_mem p hr)) hne h1 h2
    · exact ih (fun r hr => ha r (List.mem_cons_of_mem q hr)) hd' hp _

/-- The lines of a frame are whole before each is written, so all of them are written. -/
theorem writeLines_mem (cid src : Nat) (regs : SMap 32) {ls : List (Nat × Nat)} {s : State}
    (h : ∀ p ∈ ls, paKind p.1 = .hbm ∧ p.1 % 128 = 0 ∧ LineWhole s (p.1 / 128)) (hd : (ls.map (·.1)).Nodup) :
    let u := ls.foldl (fun (s : State) (p : Nat × Nat) => s.tileWrite cid p.1 (regBytes regs p.2) src 0) s
    u.mem = linesMem regs ls s.mem ∧ ∀ a b, u.flue? a b = s.flue? a b := by
  induction ls generalizing s with
  | nil => exact ⟨rfl, fun _ _ => rfl⟩
  | cons p ls ih =>
    obtain ⟨hk, ha, hw⟩ := h p List.mem_cons_self
    obtain ⟨hp, hd'⟩ := List.nodup_cons.1 hd
    have hbad : s.bad p.1 = false := ((whole_iff s p.1).2 hw).1
    have hin : p.1 % 128 + (regBytes regs p.2).length ≤ 128 := by rw [ha, regBytes_length]
    simp only [List.foldl_cons, tileWrite_line s cid hk ha (regBytes_length regs p.2)]
    obtain ⟨hm, hf⟩ := ih (s := s.applyAt cid p.1 (regBytes regs p.2) src 0) (fun q hq => by
      obtain ⟨hk', ha', hw'⟩ := h q (List.mem_cons_of_mem p hq)
      have hne : q.1 ≠ p.1 := fun e => hp (List.mem_map.2 ⟨q, hq, e⟩)
      exact ⟨hk', ha', hw'.applyAt cid (by omega) hin src 0⟩) hd'
    exact ⟨hm.trans (by rw [State.applyAt_mem _ _ _ _ _ _ hbad]; rfl), fun a b => (hf a b).trans (applyAt_flue? ..)⟩

/-! ### The event -/

/-- The flue with one more result under way, which writes nothing. -/
def Flue.moreOuts (f : Flue) : Flue := { f with outs := f.outs ++ [{}] }

theorem spillable_moreOuts (f : Flue) : f.moreOuts.spillable = f.spillable := by
  have hb : f.moreOuts.busyUids = f.busyUids := by
    unfold Flue.moreOuts Flue.busyUids
    simp only [List.map_append, List.flatten_append, List.map_cons, List.map_nil, List.flatten_cons, List.flatten_nil, List.append_nil]
    rfl
  unfold Flue.spillable
  simp only [hb]
  rfl

/-- The stove as the engine looks for its victim: the frames that escalating lanes have still to write are not spilled. -/
def Stove.masked (st : Stove) : Stove := { st with flues := st.flues.map fun (p : Nat × Flue) =>
  (p.1, { p.2 with outs := p.2.outs ++ [({ writes := (st.escUids p.1).map fun u =>
    ({ loc := .v u 0, lane := 0, val := 0 } : LaneWrite) } : Outstanding)] }) }

/-- The frame to spill is the lowest one of the flue that waits, when it has one that may go. -/
theorem victim_own {st : Stove} {j k : Nat} {f : Flue} (hf : Tab.get? st.flues j = some f) (hesc : st.esc = [])
    (hk : f.spillable.head? = some k) : st.masked.victim j = some (j, k) := by
  have hm : st.masked.flues = Tab.mapVals Flue.moreOuts st.flues := by
    unfold Stove.masked Stove.escUids
    rw [hesc]
    rfl
  have hget : Tab.get? st.masked.flues j = some f.moreOuts := by
    rw [hm]
    exact (Tab.get?_mapVals Flue.moreOuts _ j).trans (by rw [hf, Option.map_some])
  unfold Stove.victim
  simp only [hget, spillable_moreOuts, hk, Option.map_some]

theorem waits_for {s : State} {stove j : Nat} {f : Flue} (hf : s.flue? stove j = some f) (hreq : f.request ≠ none) :
    ∃ n, (Tab.get? (s.stove stove).flues j).bind Flue.request = some n := by
  obtain ⟨n, hn⟩ := Option.ne_none_iff_exists'.1 hreq
  exact ⟨n, Option.bind_eq_some_iff.2 ⟨f, hf, hn⟩⟩

section
variable {s : State} {stove j : Nat} {f : Flue} (hspill : (s.stove stove).spill = some j) (hf : s.flue? stove j = some f)
  (hreq : f.request ≠ none)
include hspill hf hreq

theorem spillFrame_done (hmeet : (s.stove stove).canMeet j = true) : exec (.escapeSpillFrameDone stove) s = .next s := by
  obtain ⟨n, hbind⟩ := waits_for hf hreq
  show execEscapeSpillFrameDone stove s = _
  simp only [execEscapeSpillFrameDone, hspill, hbind, hmeet, if_true]

variable (hesc : (s.stove stove).esc = []) (hmeet : (s.stove stove).canMeet j = false) {k : Nat} (hk : f.spillable.head? = some k)
include hesc hmeet hk

/-- A stack with no room for the frame is a context fault. -/
theorem spillFrame_full (hfull : s.spillExtent f < 4 * (f.spillWord k + (f.frames.getD k {}).demand)) :
    exec (.escapeSpillFrameDone stove) s = .next (s.contextFault f.cid 1 (s.lhearth (hearthOf stove)) 0) := by
  obtain ⟨n, hbind⟩ := waits_for hf hreq
  have hv := victim_own hf hesc hk
  simp only [Stove.masked, hspill] at hv
  show execEscapeSpillFrameDone stove s = _
  simp only [execEscapeSpillFrameDone, hspill, hbind, hmeet, Bool.false_eq_true, if_false, hv, hf, hfull, if_true]

theorem spillFrame_writes {lines : List Nat} (hroom : 4 * (f.spillWord k + (f.frames.getD k {}).demand) ≤ s.spillExtent f)
    (hlines : s.spillLines stove f k .store = .ok lines) (hl : ∀ pa ∈ lines, paKind pa = .hbm ∧ pa % 128 = 0 ∧ Whole s pa)
    (hd : lines.Nodup) :
    ∃ t, exec (.escapeSpillFrameDone stove) s = .next t ∧ t.mem = linesMem (f.frames.getD k {}).regs lines.zipIdx s.mem ∧
      t.flue? stove j = some { f with frames := f.frames.set k { f.frames.getD k {} with regs := [], spilled := true } } := by
  obtain ⟨n, hbind⟩ := waits_for hf hreq
  have hv := victim_own hf hesc hk
  simp only [Stove.masked, hspill] at hv
  obtain ⟨hm, hfl⟩ := writeLines_mem f.cid (hearthOf stove) (f.frames.getD k {}).regs (ls := lines.zipIdx) (s := s) (fun p hp => by
    obtain ⟨h1, h2, h3⟩ := hl p.1 (List.fst_mem_of_mem_zipIdx hp)
    exact ⟨h1, h2, (whole_iff s p.1).1 h3⟩) (by rw [List.zipIdx_map_fst]; exact hd)
  have hcount := fun u : State => u.count_traffic f.cid 11
  refine ⟨((lines.zipIdx.foldl (fun (s : State) (p : Nat × Nat) => s.tileWrite f.cid p.1 (regBytes (f.frames.getD k {}).regs p.2)
    (hearthOf stove) 0) s).count f.cid 11).setFlue stove j _, ?_, (hcount _).mem.trans hm, flue?_setFlue_self ..⟩
  show execEscapeSpillFrameDone stove s = _
  simp only [execEscapeSpillFrameDone, hspill, hbind, hmeet, Bool.false_eq_true, if_false, hv, hf, if_neg (Nat.not_lt.2 hroom), hlines]
  rw [modFlue_of_flue? (((hcount _).flue? ..).trans ((hfl ..).trans hf))]
end

end Sys2Proof.Machine
end

section
/-! PROOF of O36: frame room, drain and spill events, from the four parts above (05 R99, R107, R114 to R122, 17 R385). -/

namespace Sys2Proof.Machine

open Sys2Proof.Claims

/-- A granted call takes effect, and the flue runs (05 R114, R117). -/
theorem frameGrant_calls {s : State} {stove slot stamp n : Nat} {rest : List (Nat × Nat × Nat)} {f : Flue} {c : FrameCall} {i : Issue}
    (hi : i.stove = stove ∧ i.slot = slot) (hreq : (s.stove stove).requests = (stamp, slot, n) :: rest) (hf : s.flue? stove slot = some f)
    (hn : n ≤ (s.stove stove).freeGranules) (hstop : f.stopped = false) (hdel : f.delivers = false) (hspill : (s.stove stove).spill = none)
    (hcall : f.call = some c) (hphase : f.phase = .frameWait) (halone : Alone s i f) :
    exec (.frameGrant stove) s = .next (s.setFlue stove slot (f.callNow c)) := by
  obtain ⟨rfl, rfl⟩ := hi
  obtain ⟨hregion, -, hrvs, -, -, -, -, -, hbar⟩ := halone
  have hpark : (s.setFlue i.stove i.slot (f.callNow c)).afterPark i.stove i.slot = _ :=
    afterPark_alone (flue?_setFlue_self ..) (by exact fun h => by cases h) hrvs fun gr hgr => hbar gr ((State.group?_setFlue ..).symm.trans hgr)
  rw [frameGrant_call hreq hf hn hstop hdel hspill hcall hphase, commit_closed hf hregion, modFlue_of_flue? hf, hpark, setFlue_setFlue]

/-- Settles O36: the promotion, the grant by what the flue asks for, the refill, the drain by whether the flue is the last of its group, and the
engine by its flue, its frame and the room in the stack. -/
theorem frameRoomDrainEvents : Obligations.FrameRoomDrainEvents := by
  refine ⟨⟨⟨fun s stove slot f pc hf => ?_, fun s stove slot stamp n rest f hreq hf => ?_,
    fun s stove slot f fr below lines hf hfr hrvs => ?_⟩,
    fun s stove slot f g k hf hg hk => ?_⟩, fun s stove => ?_⟩
  · intro m due
    refine ⟨_, f.promote pc s.stamp, promotion_eq hf pc, flue?_setFlue_self .., sameButFlue_setFlue s.tick .., promote_only .., fun h => ?_,
      fun h l hl => get_promoted_due h s.stamp hl⟩
    exact promote_not h s.stamp
  · refine ⟨frameGrant_waits hreq hf, fun hn hstop hdel hspill => ⟨fun hcall => ?_, fun c hcall hphase _ hd halone hdis => ?_⟩⟩
    · exact ⟨_, _, frameGrant_refill hreq hf hn hstop hdel hspill hcall, flue?_setFlue_self .., sameButFlue_setFlue .., rfl⟩
    · refine ⟨_, f.callNow c, frameGrant_calls ⟨rfl, rfl⟩ hreq hf hn hstop hdel hspill hcall hphase halone, flue?_setFlue_self ..,
        sameButFlue_setFlue .., rfl, callNow_latchZero f c, fun l hl => ⟨pcOf_called f c hdis hl, depthOf_callNow f c hd hl⟩⟩
  · refine ⟨refill_waits hf, fun hphase hgr hstop hlines hk => ?_⟩
    obtain ⟨t, ht, he⟩ := refill_reads hf hfr hrvs hphase hgr hstop hlines hk
    refine ⟨_, _, { fr with regs := linesRegs s.mem lines.zipIdx [], spilled := false }, he, flue?_setFlue_self .., ht.mem, rfl, rfl,
      fun n pa hpa l hl => ?_⟩
    have := get_linesRegs s.mem lines 0 [] hpa hl
    rwa [Nat.zero_add] at this
  · intro quiet mates
    refine ⟨drain_waits hf, fun hq => ?_⟩
    have hgone : (s.vacate stove slot).flue? stove slot = none := (flue?_vacate ..).trans (if_pos ⟨rfl, rfl⟩)
    have hothers : ∀ j, j ≠ slot → (s.vacate stove slot).flue? stove j = s.flue? stove j := fun j hj =>
      (flue?_vacate ..).trans (if_neg fun h => hj h.2)
    have hg' : (s.vacate stove slot).group? stove f.group = some g := (group?_vacate ..).trans hg
    have he := drain_leaves hf hq hg
    by_cases hlast : mates
    · rw [if_pos (last_iff.2 hlast)] at he
      refine ⟨_, he, (completeGroup_nothingComes ..).slot _ _ hgone, fun h => absurd hlast h, fun _ hposted hob hrv => ?_⟩
      have hposted' : ((s.vacate stove slot).stove stove).posted = [] := by
        rw [State.vacate, State.stove_setStove, if_pos rfl]
        exact hposted
      obtain ⟨hnone, hmem, hlive, hfl⟩ := completeGroup_last hg' hk (slotsIn_vacate.2 hlast.2) hposted' hob hrv
      exact ⟨hnone, hmem, hlive, fun j hj => (hfl stove j).trans (hothers j hj)⟩
    · rw [if_neg fun h => hlast (last_iff.1 h)] at he
      exact ⟨_, he, hgone, fun _ => ⟨hg', hothers⟩, fun h => absurd h hlast⟩
  · intro st hsorted
    refine ⟨spillStart_waits, fun hnone hidle hw => ?_, fun j f k lines hspill hf hreq hesc => ⟨spillFrame_done hspill hf hreq, ?_⟩⟩
    · obtain ⟨x, ⟨hx, hreq, hmax⟩, he⟩ := spillStart_chooses hsorted hnone hidle hw
      exact ⟨_, x.1, x.2, he, rfl, Tab.get?_of_mem hsorted hx, hreq, hmax⟩
    · intro hmeet hk hlines fr
      refine ⟨fun hroom hl hd => ?_, fun hfull c hc hrun hkind => ?_⟩
      · obtain ⟨t, he, hm, hft⟩ := spillFrame_writes hspill hf hreq hesc hmeet hk hroom hlines hl hd
        have haligned : ∀ p ∈ lines.zipIdx, p.1 % 128 = 0 := fun p hp => (hl p.1 (List.fst_mem_of_mem_zipIdx hp)).2.1
        refine ⟨t, _, he, hft, rfl, fun n pa hpa l hlane => ?_, fun a ha => ?_⟩
        · have hr := read_linesMem fr.regs haligned (by rwa [List.zipIdx_map_fst]) (p := (pa, n))
            (List.mk_mem_zipIdx_iff_getElem?.2 hpa) s.mem
          have hw := regBytes_word fr.regs n hlane
          rw [← hr, read_drop, read_take _ _ (by omega), ← hm] at hw
          exact hw
        · rw [hm]
          exact byte_linesMem_outside fr.regs (fun p hp => ha p.1 (List.fst_mem_of_mem_zipIdx hp)) s.mem
      · obtain ⟨c', h⟩ := contextFault_first hc hrun hkind 1 (s.lhearth (hearthOf stove)) 0
        exact ⟨_, c', spillFrame_full hspill hf hreq hesc hmeet hk hfull, h⟩

end Sys2Proof.Machine
end

section
/-! REFUTATION of O3: the number of a slot (03 R62, 06 R131). The statement takes any state that issues, so any number of the slot that the
source `flue` reads, where 01 R23 has the slots 0 to 31. A number from 2^32 on passes bit 32 of the 64-bit value that the model shifts: SHR moves that
bit into a 32-bit result, where the statement has zeros come in. -/

namespace Sys2Proof.Machine

open Sys2Proof.Claims

/-- One live lane. -/
def farFlue : Flue := { cid := 1, live := 1, pc := [(0, 0x10004#64)], frames := [{ demand := 16 }] }
/-- The lane issues, in slot 2^32. -/
def farIssue : Issue := ⟨0, 2 ^ 32, 1, 0x10004, 0x1000C, 0x10000, 0x07F80002, true, 0, farFlue⟩
/-- The flue, alone on its stove. -/
def farState : State := { State.reset with stoves := [(0, { flues := [(2 ^ 32, farFlue)] })], issue := some farIssue }
/-- SHR.B32 of `flue` by `one` into `v1`. -/
def farArgs : LArgs :=
  { guard := ⟨false, 0⟩, d := .v 1, a := .flue, b := .one, c := .zero, f := .none, ty := .b32, rm := .rne, modx := 0, lit := none }

theorem far_issuing : Issuing farState farIssue farFlue := ⟨rfl, rfl⟩

/-- The flue after it. -/
def farResult : Flue := runLanes farIssue farFlue farArgs.guard farArgs.d 1 (shrOp farArgs (farIssue.src farArgs.lit))

theorem far_exec : exec (.shr farArgs) farState = .next (farState.setFlue 0 (2 ^ 32) farResult) :=
  onFlue_next far_issuing fun i f => runLanes i f farArgs.guard farArgs.d farArgs.ty.regs (shrOp farArgs (i.src farArgs.lit))

/-- The model moves bit 32 of the slot number into bit 31. -/
theorem far_read : farResult.readLoc (farIssue.view.loc farArgs.d 0) 0 = 0x80000000#32 := by decide +kernel

/-- Refutes O3: SHR.B32 of the slot number 2^32 by 1 leaves bit 31 set, where the statement has it zero. -/
theorem not_logicShiftResults : ¬ Obligations.LogicShiftResults := by
  unfold Obligations.LogicShiftResults
  intro h
  obtain ⟨t, ht, g, v, fl, rfl, -, -, hbits, hread, -⟩ := h .shr (by decide) farArgs farState farIssue farFlue (by decide) far_issuing fun _ => rfl
  have hflue : g = farResult := by
    have := congrArg (State.flue? · 0 (2 ^ 32)) (Host.Outcome.next.inj (ht.symm.trans far_exec))
    simpa [State.flue?_setFlue, farIssue] using this
  subst hflue
  have hval : 0x80000000#32 = wordAt (v 0) 0 := far_read.symm.trans (hread 0 (by omega) (by decide) 0 (by decide) (by decide))
  have hzero := (hbits 0 (by omega) (by decide)).2 31 (by decide)
  have hset : (v 0).getLsbD 31 = (wordAt (v 0) 0).getLsbD 31 := by simp [wordAt]
  rw [hset, ← hval] at hzero
  revert hzero
  decide

end Sys2Proof.Machine
end

section
/-! PROOF of O2: integer arithmetic (06 R131, R132). The elements of a value are the digits of one number, so each reads back as it was packed. -/

namespace Sys2Proof.Machine

open Sys2Proof.Claims

/-! ### Rows that deliver one value to each lane -/

/-- The D field of a row names the register that a value goes to. -/
def deliversValue (r : LRow) : Bool :=
  match r.form.d with
  | .dst _ => true
  | .dstV _ => true
  | _ => false

theorem plainDest_of_check {r : LRow} {x : LArgs} (hr : deliversValue r = true) (h : r.check x = none) : plainDest x.d = true := by
  have hd := (LRow.check_none h).1
  unfold deliversValue at hr
  split at hr
  · rename_i w hw
    exact plainDest_of_dst (hw ▸ hd)
  · rename_i w hw
    exact plainDest_of_dstV (hw ▸ hd)
  · cases hr

/-- A row that runs a per-lane operation completes with a plain result. -/
theorem row_result {r : LRow} {x : LArgs} {s : State} {i : Issue} {f : Flue} {n : Nat} {op : Issue → Nat → LaneRes}
    {P : Nat → DWord → FlagSet → Prop} (hexec : exec (r.instr x) s = onFlue s fun i f => runLanes i f x.guard x.d n (op i))
    (hr : deliversValue r = true) (hn : n = 1 ∨ n = 2) (hc : r.check x = none) (hi : Issuing s i f) (hf : FrameStands i f)
    (hP : ∀ l < 32, (i.active x.guard).getLsbD l = true → P l (op i l).val (op i l).flags) :
    ∃ t, exec (r.instr x) s = .next t ∧ LaneResult s t i f x.guard x.d n P :=
  ⟨_, hexec.trans (onFlue_next hi _), runLanes_result s i f x.guard x.d n (op i) P hn (plainDest_of_check hr hc) hf hP⟩

/-! ### Elements side by side -/

/-- A number with the digits `g` in base `b`, the lowest first. -/
def digitSum (b : Nat) (g : Nat → Nat) (n : Nat) : Nat := (List.range n).foldl (fun acc k => acc + g k * b ^ k) 0

theorem digitSum_succ (b : Nat) (g : Nat → Nat) (n : Nat) : digitSum b g (n + 1) = digitSum b g n + g n * b ^ n := by
  simp [digitSum, List.range_succ]

theorem digitSum_lt {b : Nat} {g : Nat → Nat} (hg : ∀ k, g k < b) (n : Nat) : digitSum b g n < b ^ n := by
  induction n with
  | zero => simp [digitSum]
  | succ n ih =>
    calc digitSum b g (n + 1) = digitSum b g n + g n * b ^ n := digitSum_succ ..
      _ < b ^ n + g n * b ^ n := by omega
      _ = (g n + 1) * b ^ n := by ring
      _ ≤ b * b ^ n := Nat.mul_le_mul_right _ (hg n)
      _ = b ^ (n + 1) := by ring

/-- Each digit reads back. -/
theorem digitSum_digit {b : Nat} {g : Nat → Nat} (hg : ∀ k, g k < b) {n k : Nat} (hk : k < n) : digitSum b g n / b ^ k % b = g k := by
  have hb : 0 < b := (Nat.zero_le _).trans_lt (hg 0)
  induction n with
  | zero => omega
  | succ n ih =>
    rw [digitSum_succ]
    rcases Nat.lt_succ_iff_lt_or_eq.1 hk with hlt | rfl
    · have hsplit : g n * b ^ n = b ^ k * (b * (g n * b ^ (n - k - 1))) := by
        have hpow : b ^ n = b ^ k * (b * b ^ (n - k - 1)) := by
          rw [← pow_succ', ← pow_add]
          congr 1
          omega
        rw [hpow]
        ring
      rw [hsplit, Nat.add_mul_div_left _ _ (pow_pos hb k), Nat.add_mul_mod_self_left, ih hlt]
    · rw [Nat.add_mul_div_right _ _ (pow_pos hb k), Nat.div_eq_of_lt (digitSum_lt hg k), Nat.zero_add, Nat.mod_eq_of_lt (hg k)]

theorem elemWidth_pos (ty : Ty) : 0 < elemWidth ty := by cases ty <;> decide

/-- The elements of a type fill a 64-bit value at most. -/
theorem elemWidth_mul_count (ty : Ty) : elemWidth ty * elemCount ty ≤ 64 := by cases ty <;> decide

theorem emod_toNat_lt (z : Int) {m : Nat} (hm : 0 < m) : (z % (m : Int)).toNat < m := by
  have := Int.emod_lt_of_pos z (Int.natCast_pos.2 hm)
  have := Int.emod_nonneg z (Int.natCast_pos.2 hm).ne'
  omega

theorem elemBits_lt (ty : Ty) (sat : Bool) (z : Int) : elemBits ty sat z < 2 ^ elemWidth ty := emod_toNat_lt _ (by positivity)

theorem packElems_eq (ty : Ty) (sat : Bool) (z : Nat → Int) :
    packElems ty sat z = BitVec.ofNat 64 (digitSum (2 ^ elemWidth ty) (fun k => elemBits ty sat (z k)) (elemCount ty)) := by
  simp only [packElems, digitSum, pow_mul]

/-- An element of a packed value has the bits that were packed. -/
theorem elemOf_packElems (ty : Ty) (sat : Bool) (z : Nat → Int) {k : Nat} (hk : k < elemCount ty) :
    elemOf ty (packElems ty sat z) k = elemInt (isSigned ty) (elemWidth ty) (elemBits ty sat (z k)) := by
  have hg : ∀ k, elemBits ty sat (z k) < 2 ^ elemWidth ty := fun k => elemBits_lt ty sat (z k)
  have hfits : digitSum (2 ^ elemWidth ty) (fun k => elemBits ty sat (z k)) (elemCount ty) < 2 ^ 64 :=
    (digitSum_lt hg _).trans_le (by rw [← pow_mul]; exact Nat.pow_le_pow_right (by omega) (elemWidth_mul_count ty))
  have hdigit := digitSum_digit hg hk
  unfold elemOf
  rw [packElems_eq, BitVec.toNat_ofNat, Nat.mod_eq_of_lt hfits, pow_mul]
  simp only [elemInt, hdigit, Nat.mod_eq_of_lt (hg k)]

/-! ### The integer of an element -/

/-- The integer of `w` bits, `2 m` numbers in all, below zero from `m` on. -/
theorem centred_emod (z : Int) {m : Int} (hm : 0 < m) :
    (if m ≤ z % (2 * m) then z % (2 * m) - 2 * m else z % (2 * m)) = -m + (z + m) % (2 * m) := by
  have hlt := Int.emod_lt_of_pos z (show 0 < 2 * m by omega)
  have hnn := Int.emod_nonneg z (show 2 * m ≠ 0 by omega)
  have hcarry : (z + m) % (2 * m) = (z % (2 * m) + m) % (2 * m) := (Int.emod_add_emod ..).symm
  split
  · have hsub : (z % (2 * m) + m) % (2 * m) = z % (2 * m) - m := by
      rw [show z % (2 * m) + m = z % (2 * m) - m + 2 * m by ring, Int.add_emod_right]
      exact Int.emod_eq_of_lt (by omega) (by omega)
    omega
  · have hsame : (z % (2 * m) + m) % (2 * m) = z % (2 * m) + m := Int.emod_eq_of_lt (by omega) (by omega)
    omega

/-- Reducing an integer to the bits of an element and reading them gives the one value of the range that is equal to it modulo 2^n. -/
theorem elemInt_emod (ty : Ty) (z : Int) :
    elemInt (isSigned ty) (elemWidth ty) (z % ((2 ^ elemWidth ty : Nat) : Int)).toNat =
      elemMin ty + (z - elemMin ty) % ((2 ^ elemWidth ty : Nat) : Int) := by
  obtain ⟨n, hn⟩ : ∃ n, elemWidth ty = n + 1 := ⟨elemWidth ty - 1, by have := elemWidth_pos ty; omega⟩
  have hpos : 0 < 2 ^ (n + 1) := by positivity
  have hcast : (((z % ((2 ^ (n + 1) : Nat) : Int)).toNat : Nat) : Int) = z % ((2 ^ (n + 1) : Nat) : Int) :=
    Int.toNat_of_nonneg (Int.emod_nonneg _ (by positivity))
  simp only [elemInt, elemMin, hn, Nat.add_sub_cancel, Nat.mod_eq_of_lt (emod_toNat_lt z hpos)]
  cases isSigned ty
  · simpa using hcast
  · have h := centred_emod z (m := ((2 ^ n : Nat) : Int)) (by positivity)
    have hdouble : ((2 ^ (n + 1) : Nat) : Int) = 2 * ((2 ^ n : Nat) : Int) := by push_cast; ring
    have hle : 2 ^ n ≤ (z % ((2 ^ (n + 1) : Nat) : Int)).toNat ↔ ((2 ^ n : Nat) : Int) ≤ z % ((2 ^ (n + 1) : Nat) : Int) := by omega
    rw [← hdouble] at h
    simpa only [Bool.true_and, decide_eq_true_eq, hle, hcast, if_true, sub_neg_eq_add] using h

/-- A packed value has the elements that were packed, fitted into the type (06 R132). -/
theorem packElems_hasElems (ty : Ty) (sat : Bool) (z : Nat → Int) : HasElems ty sat z (packElems ty sat z) 0 := by
  refine ⟨rfl, fun k hk => ?_⟩
  rw [elemOf_packElems ty sat z hk]
  simp only [elemBits, elemInt_emod]
  cases sat
  · rfl
  · have hrange : elemMax ty = elemMin ty + ((2 ^ elemWidth ty : Nat) : Int) - 1 ∧ elemMin ty ≤ elemMax ty := by cases ty <;> decide
    simp only [fit, if_true]
    rw [Int.emod_eq_of_lt (by omega) (by omega)]
    ring

/-! ### The rows -/

/-- A 64-bit value is its one element modulo 2^64, whatever the sign. -/
theorem ofInt_elemInt (signed : Bool) (v : DWord) : BitVec.ofInt 64 (elemInt signed 64 v.toNat) = v := by
  have htop : BitVec.ofInt 64 (-((2 ^ 64 : Nat) : Int)) = 0#64 := by decide
  unfold elemInt
  simp only [Nat.mod_eq_of_lt v.isLt]
  split
  · rw [sub_eq_add_neg, BitVec.ofInt_add, htop, BitVec.ofInt_natCast]
    simp
  · rw [BitVec.ofInt_natCast]
    simp

theorem ofInt_elemOf_wide (ty : Ty) (v : DWord) : BitVec.ofInt 64 (elemOf (if ty = .i32 then .i64 else .z64) v 0) = v := by
  have hzero : ∀ t : Ty, v.toNat / 2 ^ (elemWidth t * 0) = v.toNat := fun t => by simp
  unfold elemOf
  rw [hzero]
  split <;> exact ofInt_elemInt _ v

/-- Settles O2: each row packs the exact integers of its elements; for IMADW the sum is taken modulo 2^64. -/
theorem integerArithmeticResults : Obligations.IntegerArithmeticResults := by
  unfold Obligations.IntegerArithmeticResults
  refine ⟨fun r hr x s i f hc hi hf => ?_, fun x s i f hc hi hf => ?_⟩
  · simp only [List.mem_cons, List.not_mem_nil, or_false] at hr
    have hn := regs_one_or_two x.ty
    rcases hr with rfl | rfl | rfl | rfl | rfl | rfl | rfl | rfl | rfl <;>
      exact row_result rfl rfl hn hc hi hf fun l _ _ => packElems_hasElems ..
  · refine row_result (r := .imadw) rfl rfl (.inr rfl) hc hi hf fun l _ _ => ⟨rfl, ?_⟩
    simp only [imadwOp, BitVec.ofInt_add]
    rw [ofInt_elemOf_wide]

end Sys2Proof.Machine
end

section
/-! PROOF of O4: fields, counts of bits, addresses and SEL (06 R131, R133-R135). -/

namespace Sys2Proof.Machine

open Sys2Proof.Claims

/-! ### Numbers given bit by bit -/

/-- The number whose bit `k` is `b k`, `n` bits long. -/
def bitSum (b : Nat → Bool) (n : Nat) : Nat := digitSum 2 (fun k => (b k).toNat) n

theorem bitSum_lt (b : Nat → Bool) (n : Nat) : bitSum b n < 2 ^ n := digitSum_lt (fun k => Bool.toNat_lt (b k)) n

theorem testBit_bitSum (b : Nat → Bool) (n k : Nat) : (bitSum b n).testBit k = (decide (k < n) && b k) := by
  by_cases hk : k < n
  · have hdigit : bitSum b n / 2 ^ k % 2 = (b k).toNat := digitSum_digit (fun k => Bool.toNat_lt (b k)) hk
    rw [Nat.testBit_eq_decide_div_mod_eq, hdigit]
    cases b k <;> simp [hk]
  · have hbound : bitSum b n < 2 ^ k := (bitSum_lt b n).trans_le (Nat.pow_le_pow_right (by omega) (by omega))
    simp [Nat.testBit_lt_two_pow hbound, hk]

/-! ### Fields (06 R133) -/

/-- An element read as signed is the bit vector's own integer. -/
theorem elemInt_signed {w : Nat} (hw : 0 < w) (v : Nat) : elemInt true w v = (BitVec.ofNat w v).toInt := by
  obtain ⟨n, rfl⟩ : ∃ n, w = n + 1 := ⟨w - 1, by omega⟩
  have hdouble : 2 ^ (n + 1) = 2 * 2 ^ n := pow_succ' 2 n
  rw [BitVec.toInt_eq_toNat_cond, BitVec.toNat_ofNat]
  simp only [elemInt, Nat.add_sub_cancel, Bool.true_and, decide_eq_true_eq, hdouble]
  by_cases h : 2 ^ n ≤ v % (2 * 2 ^ n)
  · rw [if_pos h, if_neg (by omega)]
  · rw [if_neg h, if_pos (by omega)]

/-- Bit `j` of the field that BFX takes out of a word: past bit 31 the sign, or zero. -/
def fieldBit (signed : Bool) (a : Word) (pos j : Nat) : Bool := if pos + j < 32 then a.getLsbD (pos + j) else signed && a.getLsbD 31

theorem bfx32_eq (signed : Bool) (a b : Word) :
    bfx32 signed a b =
      if fieldWidth b = 0 then 0
      else if signed then BitVec.ofInt 32 (elemInt true (fieldWidth b) (bitSum (fieldBit signed a (fieldPos b)) (fieldWidth b)))
      else BitVec.ofNat 32 (bitSum (fieldBit signed a (fieldPos b)) (fieldWidth b)) := by
  have hsum : bitSum (fieldBit signed a (fieldPos b)) (fieldWidth b) =
      (List.range (fieldWidth b)).foldl (fun n k => n + (if fieldBit signed a (fieldPos b) k then 2 ^ k else 0)) 0 := by
    unfold bitSum digitSum
    congr 1
    funext n k
    cases h : fieldBit signed a (fieldPos b) k <;> simp [h]
  rw [hsum]
  rfl

theorem getLsbD_bfx32 (signed : Bool) (a b : Word) {k : Nat} (hk : k < 32) :
    (bfx32 signed a b).getLsbD k =
      if k < fieldWidth b then fieldBit signed a (fieldPos b) k
      else signed && decide (0 < fieldWidth b) && fieldBit signed a (fieldPos b) (fieldWidth b - 1) := by
  rw [bfx32_eq]
  by_cases h0 : fieldWidth b = 0
  · simp [h0]
  · have hpos : 0 < fieldWidth b := by omega
    rw [if_neg h0]
    cases signed
    · simp only [Bool.false_eq_true, if_false, Bool.false_and, BitVec.getLsbD_ofNat, testBit_bitSum, hk, decide_true, Bool.true_and]
      by_cases hw : k < fieldWidth b <;> simp [hw]
    · rw [if_pos rfl, elemInt_signed hpos]
      change (BitVec.signExtend 32 _).getLsbD k = _
      have hlast : fieldWidth b - 1 < fieldWidth b := by omega
      rw [BitVec.getLsbD_signExtend, BitVec.msb_eq_getLsbD_last]
      simp only [BitVec.getLsbD_ofNat, testBit_bitSum, hk, hpos, hlast, decide_true, Bool.true_and]
      by_cases hw : k < fieldWidth b <;> simp [hw]

theorem getLsbD_bfi32 (a b c : Word) {k : Nat} (hk : k < 32) :
    (bfi32 a b c).getLsbD k =
      if fieldPos b ≤ k ∧ k < fieldPos b + fieldWidth b then a.getLsbD (k - fieldPos b) else c.getLsbD k := by
  have hones : ∀ j < 32, (BitVec.ofNat 32 (2 ^ fieldWidth b - 1)).getLsbD j = decide (j < fieldWidth b) := fun j hj => by
    rw [BitVec.getLsbD_ofNat, Nat.testBit_two_pow_sub_one, decide_eq_true hj, Bool.true_and]
  unfold bfi32
  by_cases hp : fieldPos b < 32
  · by_cases hle : fieldPos b ≤ k
    · simp only [hp, if_true, BitVec.getLsbD_or, BitVec.getLsbD_and, BitVec.getLsbD_not, BitVec.getLsbD_shiftLeft, hk, decide_true,
        Bool.true_and, hones (k - fieldPos b) (by omega), show ¬ k < fieldPos b by omega, decide_false, Bool.not_false, hle, true_and]
      by_cases hw : k - fieldPos b < fieldWidth b
      · simp [hw, show k < fieldPos b + fieldWidth b by omega]
      · simp [hw, show ¬ k < fieldPos b + fieldWidth b by omega]
    · simp [hp, hk, hle, show k < fieldPos b by omega]
  · simp only [hp, if_false, BitVec.getLsbD_or, BitVec.getLsbD_and, BitVec.getLsbD_not, hk, show ¬ fieldPos b ≤ k by omega, false_and]
    simp

theorem getLsbD_setWidth64 (w : Word) {k : Nat} (hk : k < 32) : (w.setWidth 64).getLsbD k = w.getLsbD k := by
  rw [BitVec.getLsbD_setWidth, decide_eq_true (by omega), Bool.true_and]

/-! ### Counts -/

theorem popCount_eq (n : Nat) (v : DWord) : popCount n v = ((List.range n).filter fun k => v.getLsbD k).length := by
  have hcount : ∀ (ls : List Nat) (a : Nat), ls.foldl (fun k j => k + (if v.getLsbD j then 1 else 0)) a =
      a + (ls.filter fun k => v.getLsbD k).length := by
    intro ls
    induction ls with
    | nil => simp
    | cons j ls ih =>
      intro a
      rw [List.foldl_cons, ih, List.filter_cons]
      split <;> simp [Nat.add_assoc, Nat.add_comm 1]
  exact (hcount _ 0).trans (Nat.zero_add _)

theorem popCount_le (n : Nat) (v : DWord) : popCount n v ≤ n := by
  rw [popCount_eq]
  exact (List.length_filter_le ..).trans List.length_range.le

theorem leadZeros_le (v : DWord) (n : Nat) : leadZeros v n ≤ n := by
  induction n with
  | zero => simp [leadZeros]
  | succ n ih => rw [leadZeros]; split <;> omega

/-- The leading zero bits are zero. -/
theorem leadZeros_zeros (v : DWord) (n : Nat) : ∀ k < n, n - leadZeros v n ≤ k → v.getLsbD k = false := by
  induction n with
  | zero => simp
  | succ n ih =>
    intro k hk hle
    rw [leadZeros] at hle
    split at hle
    · omega
    · rename_i hbit
      rcases Nat.lt_succ_iff_lt_or_eq.1 hk with hlt | rfl
      · exact ih k hlt (by omega)
      · simpa using hbit

/-- The bit after the leading zero bits is one. -/
theorem leadZeros_one (v : DWord) (n : Nat) : leadZeros v n < n → v.getLsbD (n - 1 - leadZeros v n) = true := by
  induction n with
  | zero => simp
  | succ n ih =>
    rw [leadZeros]
    split
    · simpa using ‹_›
    · intro hlt
      have := ih (by omega)
      rwa [show n + 1 - 1 - (1 + leadZeros v n) = n - 1 - leadZeros v n by omega]

theorem tyBits_le (ty : Ty) : tyBits ty ≤ 64 := by cases ty <;> decide

/-- A count of at most 64 is itself in 64 bits. -/
theorem toNat_ofNat_count {n : Nat} (h : n ≤ 64) : (BitVec.ofNat 64 n).toNat = n := by
  rw [BitVec.toNat_ofNat]
  omega

/-! ### LEA (06 R134) -/

theorem shiftLeft_leaShift (v : DWord) {sc : Nat} (h : sc ≤ 4) : v <<< leaShift sc = v * BitVec.ofNat 64 ([4, 1, 2, 8, 16].getD sc 0) := by
  rw [BitVec.shiftLeft_eq_mul_twoPow]
  interval_cases sc <;> rfl

/-! ### SEL (06 R135) -/

/-- SEL takes A in a lane. -/
def selTakesA (x : LArgs) (act : LaneMask) (c : Src) (l : Nat) : Bool :=
  let m := c.view.predMask (x.modx.extractLsb' 0 5).toNat
  if x.d.isScalar then (if act &&& m = act then true else if act &&& m = 0 then false else Config.freeBool c.seed) else m.getLsbD l

theorem selOp_val (x : LArgs) (act : LaneMask) (c : Src) (l : Nat) :
    (selOp x act c l).val = if selTakesA x act c l = true then c.read x.a x.ty l else c.read x.b x.ty l := rfl

section
variable {x : LArgs} {act : LaneMask} {c : Src} {l : Nat}

theorem selTakesA_vector (h : x.d.isScalar = false) :
    selTakesA x act c l = (c.view.predMask (x.modx.extractLsb' 0 5).toNat).getLsbD l := if_neg (by simp [h])

theorem selTakesA_all (h : x.d.isScalar = true) (hm : act &&& c.view.predMask (x.modx.extractLsb' 0 5).toNat = act) :
    selTakesA x act c l = true := (if_pos h).trans (if_pos hm)

theorem selTakesA_none (h : x.d.isScalar = true) (hm : act &&& c.view.predMask (x.modx.extractLsb' 0 5).toNat = 0) (h0 : act ≠ 0) :
    selTakesA x act c l = false := (if_pos h).trans ((if_neg fun e => h0 (e.symm.trans hm)).trans (if_pos hm))

end

/-! ### The rows -/

/-- Settles O4, row by row: each value has the bits, the count, the sum or the operand that its rule names. -/
theorem fieldCountAddressResults : Obligations.FieldCountAddressResults := by
  unfold Obligations.FieldCountAddressResults
  intro x s i f hi hf
  have hn := regs_one_or_two x.ty
  refine ⟨fun hc => ?bfx, fun hc => ?bfi, fun hc => ?popc, fun hc => ?clz, fun hc => ?lea, fun hc => ?sel⟩
  case bfx =>
    refine row_result rfl rfl (.inl rfl) hc hi hf fun l _ _ => ⟨rfl, fun k hk => ?_⟩
    simp only [bfxOp, getLsbD_setWidth64 _ hk, getLsbD_bfx32 _ _ _ hk, fieldBit, fieldPos, fieldWidth]
    rfl
  case bfi =>
    refine row_result rfl rfl (.inl rfl) hc hi hf fun l _ _ => ⟨rfl, fun k hk => ?_⟩
    simp only [bfiOp, getLsbD_setWidth64 _ hk, getLsbD_bfi32 _ _ _ hk, fieldPos, fieldWidth]
    rfl
  case popc =>
    refine row_result rfl rfl (.inl rfl) hc hi hf fun l _ _ => ⟨rfl, ?_⟩
    exact (toNat_ofNat_count ((popCount_le ..).trans (tyBits_le x.ty))).trans (popCount_eq ..)
  case clz =>
    refine row_result rfl rfl (.inl rfl) hc hi hf fun l _ _ => ⟨rfl, ?_⟩
    have hz : (clzOp x (i.src x.lit) l).val.toNat = leadZeros ((i.src x.lit).read x.a x.ty l) (tyBits x.ty) :=
      toNat_ofNat_count ((leadZeros_le ..).trans (tyBits_le x.ty))
    rw [hz]
    exact ⟨leadZeros_le _ _, leadZeros_zeros _ _, leadZeros_one _ _⟩
  case lea =>
    obtain ⟨-, -, -, -, -, -, hmodx, -⟩ := LRow.check_none hc
    have hsc : (x.modx.extractLsb' 0 3).toNat ≤ 4 := by
      simp only [LRow.form, mxLea, Bool.and_eq_true, decide_eq_true_eq] at hmodx
      exact hmodx.1.2
    refine row_result rfl rfl hn hc hi hf fun l _ _ => ⟨rfl, ?_⟩
    simp only [leaOp, shiftLeft_leaShift _ hsc]
    simp
  case sel =>
    refine row_result rfl rfl hn hc hi hf fun l _ _ => ⟨rfl, ?_⟩
    rw [selOp_val]
    refine ⟨ite_eq_or_eq .., fun hs => ?_, fun hs hall => ?_, fun hs hnone h0 => ?_⟩
    · rw [selTakesA_vector hs]
      rfl
    · rw [if_pos (selTakesA_all hs hall)]
    · rw [selTakesA_none hs hnone h0]
      rfl

end Sys2Proof.Machine
end

section
/-! PROOF of O6 and O7: comparisons and predicate instructions (06 R136-R138, R147, R148). -/

namespace Sys2Proof.Machine

open Sys2Proof.Claims

/-! ### Instructions that write predicates -/

theorem raiseAll_zero (f : Flue) (ls : List Nat) : f.raiseAll ls (fun _ => 0) = f := by
  unfold Flue.raiseAll
  induction ls with
  | nil => rfl
  | cons a ls ih => exact ih

/-- Predicates are written, flags rise, and the group steps past. -/
theorem predWrite_result (s : State) (i : Issue) {f f1 : Flue} (gd : Guard) {w : Nat → Nat → Option Bool} (fl : Nat → FlagSet)
    (hp : f1 = { f with p := f1.p })
    (hw : ∀ n l, l < 32 → f1.pred n l =
      if (i.active gd).getLsbD l = true ∧ n ≠ 0 then (w n l).getD (f.pred n l) else f.pred n l) :
    PredResult s (s.setFlue i.stove i.slot ((f1.raiseAll (lanesOf (i.active gd)) fl).finish i 0)) i f gd w fl := by
  let f2 := f1.raiseAll (lanesOf (i.active gd)) fl
  have hf2 : f2 = { f1 with fpst := f2.fpst } := raiseAll_only ..
  obtain ⟨pc, hpc⟩ := finish_only f2 i 0
  refine ⟨f2.finish i 0, rfl, ?_, fun l hl => ?_, fun n l hl => ?_, fun l hl => ?_⟩
  · rw [hpc, hf2, hp]
  · rw [pcOf_finish _ _ _ _ hl, hf2, hp]
    simp [Flue.pcOf]
  · rw [← hw n l hl, hpc, hf2]
    rfl
  · have h1 : (f2.finish i 0).fpst = f2.fpst := by rw [hpc]
    have h2 : f1.fpst = f.fpst := by rw [hp]
    rw [h1, get_fpst_raiseAll _ _ _ _ (lanesOf_nodup _), h2]
    simp only [mem_lanesOf, hl, true_and]

/-- Predicates are written and no flag rises. -/
theorem predWrite_quiet (s : State) (i : Issue) {f f1 : Flue} (gd : Guard) {w : Nat → Nat → Option Bool} (hp : f1 = { f with p := f1.p })
    (hw : ∀ n l, l < 32 → f1.pred n l =
      if (i.active gd).getLsbD l = true ∧ n ≠ 0 then (w n l).getD (f.pred n l) else f.pred n l) :
    PredResult s (s.setFlue i.stove i.slot (f1.finish i 0)) i f gd w fun _ => 0 := by
  have h := predWrite_result s i gd (fun _ => 0) hp hw
  rwa [raiseAll_zero] at h

/-- Two masked predicates, the second written after the first. -/
theorem twoPreds_result (s : State) (i : Issue) (f : Flue) (gd : Guard) (d e : Nat) (dm em : LaneMask) {w : Nat → Nat → Option Bool}
    (fl : Nat → FlagSet)
    (hw : ∀ n l, l < 32 → n ≠ 0 → w n l = if n = e then some (em.getLsbD l) else if n = d then some (dm.getLsbD l) else none) :
    PredResult s (s.setFlue i.stove i.slot
      ((((f.setPred d (i.active gd) dm).setPred e (i.active gd) em).raiseAll (lanesOf (i.active gd)) fl).finish i 0)) i f gd w fl := by
  refine predWrite_result s i gd fl ?_ fun n l hl => ?_
  · rw [setPred_only _ e, setPred_only f d]
  · rw [pred_setPred _ _ _ _ _ _ hl, pred_setPred _ _ _ _ _ _ hl]
    by_cases hact : (i.active gd).getLsbD l = true ∧ n ≠ 0
    · rw [if_pos hact, hw n l hl hact.2]
      obtain ⟨ha, hn⟩ := hact
      by_cases he : n = e
      · subst he
        simp [ha, hn]
      · by_cases hd : n = d
        · subst hd
          simp [ha, hn, he]
        · simp [he, hd]
    · have hkept : ∀ m, ¬(n = m ∧ m ≠ 0 ∧ (i.active gd).getLsbD l = true) := by
        rintro m ⟨rfl, h0, ha⟩
        exact hact ⟨ha, h0⟩
      rw [if_neg hact, if_neg (hkept e), if_neg (hkept d)]

/-- Two masked predicates, and no flag. -/
theorem twoPreds_quiet (s : State) (i : Issue) (f : Flue) (gd : Guard) (d e : Nat) (dm em : LaneMask) {w : Nat → Nat → Option Bool}
    (hw : ∀ n l, l < 32 → n ≠ 0 → w n l = if n = e then some (em.getLsbD l) else if n = d then some (dm.getLsbD l) else none) :
    PredResult s (s.setFlue i.stove i.slot (((f.setPred d (i.active gd) dm).setPred e (i.active gd) em).finish i 0)) i f gd w fun _ => 0 := by
  have h := twoPreds_result s i f gd d e dm em (fun _ => 0) hw
  rwa [raiseAll_zero] at h

/-- A predicate field names the number it holds. -/
theorem pred_ofNat_iff (d : BitVec 5) (n : Nat) : (Opnd.pred d = Opnd.pred (BitVec.ofNat 5 n) ∧ n < 32) ↔ n = d.toNat := by
  constructor
  · rintro ⟨h, hn⟩
    rw [Opnd.pred.inj h, BitVec.toNat_ofNat, Nat.mod_eq_of_lt hn]
  · rintro rfl
    exact ⟨by simp, d.isLt⟩

/-- Rows with two predicate destinations refuse one other than `p0` for both (06 R138, R148). -/
theorem check_samePredicate {r : LRow} {x : LArgs} {n : BitVec 5} (hr : r ∈ [LRow.icmp, .fcmp, .mpred]) (h0 : n ≠ 0) (hd : x.d = .pred n)
    (he : x.modx.extractLsb' 0 5 = n) : r.check x ≠ none := by
  intro hc
  obtain ⟨-, -, -, -, -, -, -, -, -, -, hpreds, -⟩ := LRow.check_none hc
  simp only [List.mem_cons, List.not_mem_nil, or_false] at hr
  rcases hr with rfl | rfl | rfl <;> exact h0 (by simpa [predsOk, hd, he] using hpreds)

/-! ### Comparisons -/

/-- What a comparison does in the flue that issues it (06 R137, R138). -/
theorem writeCmp_result {s : State} {i : Issue} {f : Flue} {x : LArgs} {truth : Nat → Bool × FlagSet} {w : Nat → Nat → Option Bool}
    {d : BitVec 5} (hd : x.d = .pred d)
    (hw : ∀ n l, w n l =
      let c := fun b => cmpCombine (x.modx.extractLsb' 5 2).toNat b (i.view.pred (x.modx.extractLsb' 7 4).toNat l)
      if n = (x.modx.extractLsb' 0 5).toNat then some (c (!(truth l).1))
      else if x.d = .pred (BitVec.ofNat 5 n) ∧ n < 32 then some (c (truth l).1) else none) :
    PredResult s (s.setFlue i.stove i.slot (writeCmp i f x truth)) i f x.guard w fun l => (truth l).2 := by
  refine twoPreds_result s i f x.guard _ _ _ _ _ fun n l hl _ => ?_
  rw [hw]
  simp only [maskOf_getLsbD, hl, decide_true, Bool.true_and, hd, predNum, pred_ofNat_iff, Flue.pred]

theorem intCond_eq (c : Cond) (a b : Int) :
    intCond c a b = match c with
      | .eq => decide (a = b) | .ne => decide (a ≠ b) | .lt => decide (a < b) | .le => decide (a ≤ b)
      | .gt => decide (a > b) | .ge => decide (a ≥ b) | _ => false := by
  cases c
  case ne => by_cases h : a = b <;> simp [intCond, h]
  all_goals rfl

/-- An operand of a predicate field is a predicate. -/
theorem predDest_of_check {r : LRow} {x : LArgs} (hr : r ∈ [LRow.icmp, .fcmp, .plop, .mpred]) (hc : r.check x = none) :
    ∃ d, x.d = .pred d := by
  have hd := (LRow.check_none hc).1
  simp only [List.mem_cons, List.not_mem_nil, or_false] at hr
  rcases hr with rfl | rfl | rfl | rfl <;> (cases hx : x.d <;> simp_all [LRow.form, Kind.ok])

/-- The truth and the flag of a floating comparison (06 R136). -/
theorem fCmp_unordered {m : Fmt} {a b : Nat} (h : ((m.decode a).isNan || (m.decode b).isNan) = true) :
    (∀ c ∈ [Cond.eq, .lt, .le, .gt, .ge, .ord, .qlt, .qle, .qgt, .qge], (fCmp m c a b).1 = false) ∧
    (∀ c ∈ [Cond.ne, .uno], (fCmp m c a b).1 = true) ∧ (∀ c ∈ [Cond.lt, .le, .gt, .ge], (fCmp m c a b).2 = flagNV) := by
  simp only [List.forall_mem_cons, List.not_mem_nil, false_implies, implies_true, and_true, fCmp, h]
  simp [flagIf]

theorem fCmp_quiet_flag (m : Fmt) (a b : Nat) :
    ∀ c ∈ [Cond.eq, .ne, .ord, .uno, .qlt, .qle, .qgt, .qge],
      (fCmp m c a b).2 = if ((m.decode a).isSnan || (m.decode b).isSnan) = true then flagNV else 0 := by
  simp only [List.forall_mem_cons, List.not_mem_nil, false_implies, implies_true, and_true]
  exact ⟨rfl, rfl, rfl, rfl, rfl, rfl, rfl, rfl⟩

theorem fCmp_ordered_flag {m : Fmt} {a b : Nat} (h : ((m.decode a).isNan || (m.decode b).isNan) = false) (c : Cond) :
    (fCmp m c a b).2 = 0 ∨ c ∈ [Cond.eq, .ne, .ord, .uno, .qlt, .qle, .qgt, .qge] := by
  cases c
  case lt | le | gt | ge => exact .inl (by simp [fCmp, h, flagIf])
  all_goals exact .inr (by decide)

/-- Settles O6: both comparisons write the pair of predicates of `writeCmp`; the rest is how `fCmp` treats NaNs. -/
theorem comparisonResults : Obligations.ComparisonResults := by
  unfold Obligations.ComparisonResults
  refine ⟨fun x s i f hi => ⟨fun cond hcond hc => ?icmp, fun cond hcond hc => ?fcmp⟩,
    fun x n h0 hd he => ⟨check_samePredicate (by decide) h0 hd he, check_samePredicate (by decide) h0 hd he⟩,
    fun m a b => ⟨fCmp_unordered, fCmp_quiet_flag m a b, fun h => ⟨fCmp_ordered_flag h, ?ordered⟩⟩⟩
  case icmp =>
    obtain ⟨d, hd⟩ := predDest_of_check (by decide) hc
    obtain rfl : cond = condOfArg x.c := by rw [hcond]; rfl
    refine ⟨_, onFlue_next hi _, writeCmp_result hd fun n l => ?_⟩
    simp only [intCond_eq]
    rfl
  case fcmp =>
    obtain ⟨d, hd⟩ := predDest_of_check (by decide) hc
    obtain rfl : cond = condOfArg x.c := by rw [hcond]; rfl
    exact ⟨_, onFlue_next hi _, writeCmp_result hd fun n l => rfl⟩
  case ordered => simp [fCmp, h]

/-! ### PLOP, MPRED, PMOV -/

theorem setPredWord_only (f : Flue) (l : Nat) (v m : Word) : setPredWord f l v m = { f with p := (setPredWord f l v m).p } := by
  unfold setPredWord
  generalize List.range 31 = ks
  induction ks generalizing f with
  | nil => rfl
  | cons k ks ih =>
    rw [List.foldl_cons, ih]
    split
    · rw [setPred_only]
    · rfl

/-- Reading a predicate of a lane after a word of predicates was written to one. -/
theorem pred_setPredWord (f : Flue) {l : Nat} (v m : Word) (n : Nat) {j : Nat} (hl : l < 32) (hj : j < 32) :
    (setPredWord f l v m).pred n j =
      if j = l ∧ n ≠ 0 ∧ n < 32 ∧ m.getLsbD n = true then v.getLsbD n else f.pred n j := by
  have upTo : ∀ k, ((List.range k).foldl (fun (g : Flue) j =>
      if m.getLsbD (j + 1) then g.setPred (j + 1) (laneBit l) (if v.getLsbD (j + 1) then laneBit l else 0) else g) f).pred n j =
      if j = l ∧ n ≠ 0 ∧ n < k + 1 ∧ m.getLsbD n = true then v.getLsbD n else f.pred n j := by
    intro k
    induction k with
    | zero => simp; omega
    | succ k ih =>
      rw [List.range_succ, List.foldl_append, List.foldl_cons, List.foldl_nil]
      by_cases hn : n = k + 1
      · subst hn
        split
        · rename_i hm
          rw [pred_setPred _ _ _ _ _ _ hj, laneBit_getLsbD _ _ hl, ih]
          by_cases hlj : j = l
          · subst hlj
            by_cases hv : v.getLsbD (k + 1) = true
            · simp [hm, hv, laneBit_getLsbD _ _ hl]
            · simp [hm, hv]
          · simp [hlj]
        · rename_i hm
          rw [ih]
          simp [hm]
      · have hrange : n < k + 1 + 1 ↔ n < k + 1 := by omega
        simp only [hrange, ← ih]
        split
        · rw [pred_setPred _ _ _ _ _ _ hj, if_neg (by omega)]
        · rfl
  exact upTo 31

/-- The lanes of a list take their words of predicates. -/
theorem pred_setPredWords (v m : Nat → Word) (n : Nat) {j : Nat} (hj : j < 32) :
    ∀ (ls : List Nat) (f : Flue), (∀ l ∈ ls, l < 32) →
      (ls.foldl (fun g l => setPredWord g l (v l) (m l)) f).pred n j =
        if j ∈ ls ∧ n ≠ 0 ∧ n < 32 ∧ (m j).getLsbD n = true then (v j).getLsbD n else f.pred n j := by
  intro ls
  induction ls with
  | nil => simp
  | cons l ls ih =>
    intro f hls
    rw [List.foldl_cons, ih _ fun a ha => hls a (List.mem_cons_of_mem _ ha), pred_setPredWord _ _ _ _ (hls l List.mem_cons_self) hj]
    by_cases hjl : j = l
    · subst hjl
      by_cases hw : n ≠ 0 ∧ n < 32 ∧ (m j).getLsbD n = true <;> simp [hw]
    · simp [hjl]

theorem setPredWords_only (v m : Nat → Word) (ls : List Nat) (f : Flue) :
    ls.foldl (fun g l => setPredWord g l (v l) (m l)) f = { f with p := (ls.foldl (fun g l => setPredWord g l (v l) (m l)) f).p } := by
  induction ls generalizing f with
  | nil => rfl
  | cons l ls ih => rw [List.foldl_cons, ih, setPredWord_only]

/-! ### Counts and masks of predicates -/

theorem laneCount_eq (m : LaneMask) : laneCount m = ((List.range 32).filter fun l => m.getLsbD l).length := rfl

theorem laneCount_le (m : LaneMask) : laneCount m ≤ 32 := (List.length_filter_le ..).trans List.length_range.le

/-- The lanes that PCNT and PMASK take. -/
theorem getLsbD_countedLanes (i : Issue) {x : LArgs} {p : BitVec 5} (hp : x.a = .pred p) (l : Nat) :
    (countedLanes i x).getLsbD l = ((i.active x.guard).getLsbD l && i.view.pred p.toNat l) := by
  rw [countedLanes, hp, BitVec.getLsbD_and]
  rfl

/-- PMOV.GET takes no scalar. -/
theorem pmovGet_scalar {x : LArgs} (h : x.d.isScalar = true) : LRow.pmovGet.check x ≠ none := by
  intro hc
  have hd := (LRow.check_none hc).1
  cases hx : x.d <;> simp_all [LRow.form, Kind.ok, Opnd.isScalar]

/-- Settles O7. -/
theorem predicateResults : Obligations.PredicateResults := by
  unfold Obligations.PredicateResults
  intro x s i f hi
  refine ⟨fun d a b e hd ha hb he => ?plop, fun d hd => ?mpred, ?pmovSet, fun hf hc => ?pmovGet, fun hf p hp hc => ?pcnt,
    fun hf p hp hc => ?pmask, fun n h0 hd he => check_samePredicate (by decide) h0 hd he, pmovGet_scalar⟩
  case plop =>
    refine ⟨_, onFlue_next hi _, predWrite_quiet s i x.guard (setPred_only ..) fun n l hl => ?_⟩
    rw [pred_setPred _ _ _ _ _ _ hl, lutMask, maskOf_getLsbD, decide_eq_true hl, Bool.true_and, hd, ha, hb, he]
    by_cases hn : n = d.toNat
    · simp only [hn, predNum, true_and, if_true, Option.getD_some, and_comm]
      rfl
    · simp [hn, predNum]
  case mpred =>
    refine ⟨_, onFlue_next hi _, twoPreds_quiet s i f x.guard _ _ _ _ fun n l hl _ => ?_⟩
    simp only [BitVec.getLsbD_not, maskOf_getLsbD, hl, decide_true, Bool.true_and, hd, predNum]
  case pmovSet =>
    refine ⟨_, onFlue_next hi _, predWrite_quiet s i x.guard (setPredWords_only ..) fun n l hl => ?_⟩
    rw [pred_setPredWords _ _ n hl _ _ fun a ha => ((mem_lanesOf ..).1 ha).1]
    simp only [mem_lanesOf, hl, true_and]
    by_cases hact : (i.active x.guard).getLsbD l = true ∧ n ≠ 0
    · by_cases hm : n < 32 ∧ ((i.src x.lit).word x.b l).getLsbD n = true <;> simp [hact, hm]
    · rw [if_neg hact, if_neg fun h => hact ⟨h.1, h.2.1⟩]
  case pmovGet =>
    refine row_result rfl rfl (.inl rfl) hc hi hf fun l _ _ => ⟨rfl, fun k hk => ?_⟩
    rw [getLsbD_setWidth64 _ hk, predWord, maskOf_getLsbD, decide_eq_true hk, Bool.true_and]
  case pcnt =>
    refine row_result rfl rfl (.inl rfl) hc hi hf fun l _ _ => ⟨rfl, ?_⟩
    rw [toNat_ofNat_count ((laneCount_le _).trans (by omega)), laneCount_eq]
    simp only [getLsbD_countedLanes i hp]
  case pmask =>
    refine row_result rfl rfl (.inl rfl) hc hi hf fun l _ _ => ⟨rfl, fun k hk => ?_⟩
    rw [getLsbD_setWidth64 _ hk, getLsbD_countedLanes i hp]

end Sys2Proof.Machine
end

section
/-! PROOF of O8, first part: the exact fractions of the model as rational numbers, their binade, and rounding them to an integer (02 R30). -/

namespace Sys2Proof.Machine

open Sys2Proof.Claims

/-! ### Fractions as rational numbers -/

theorem rational_abs (q : Q) : |Rational q| = (q.num.natAbs : ℚ) / (q.den : ℚ) := by
  rw [Rational, abs_div, Nat.abs_cast, ← Int.cast_abs, Int.abs_eq_natAbs, Int.cast_natCast]

section
variable {q : Q} (hd : 0 < q.den)
include hd

theorem rational_eq_zero : Rational q = 0 ↔ q.num = 0 := by
  have hd' : (q.den : ℚ) ≠ 0 := by exact_mod_cast hd.ne'
  rw [Rational, div_eq_zero_iff, or_iff_left hd', Int.cast_eq_zero]

theorem rational_neg : Rational q < 0 ↔ q.num < 0 := by
  have hd' : (0 : ℚ) < q.den := by exact_mod_cast hd
  rw [Rational, div_lt_iff₀ hd', zero_mul, Int.cast_lt_zero]

/-- A fraction is its magnitude with its sign. -/
theorem rational_signed : Rational q = if q.isNeg = true then -((q.num.natAbs : ℚ) / q.den) else (q.num.natAbs : ℚ) / q.den := by
  rw [← rational_abs]
  have hneg := rational_neg hd
  by_cases h : q.num < 0
  · rw [if_pos (by simpa [Q.isNeg] using h), abs_of_neg (hneg.2 h), neg_neg]
  · rw [if_neg (by simpa [Q.isNeg] using h), abs_of_nonneg (not_lt.1 fun h' => h (hneg.1 h'))]

end

theorem rational_ofInt (n : Int) : Rational (Q.ofInt n) = n := by simp [Rational, Q.ofInt]

theorem rational_neg_eq (q : Q) : Rational q.neg = -Rational q := by simp [Rational, Q.neg, neg_div]

theorem rational_mul_pow2 (q : Q) (e : Int) : Rational (q.mul (Q.pow2 e)) = Rational q * 2 ^ e := by
  unfold Q.pow2
  split
  · rename_i h
    have he : (2 : ℚ) ^ e = 2 ^ e.toNat := by rw [← zpow_natCast, Int.toNat_of_nonneg h]
    simp [Rational, Q.mul, he]
    ring
  · rename_i h
    have he : (2 : ℚ) ^ e = (2 ^ (-e).toNat)⁻¹ := by
      rw [← zpow_natCast, Int.toNat_of_nonneg (by omega), zpow_neg, inv_inv]
    simp [Rational, Q.mul, he]
    ring

theorem den_mul_pow2 {q : Q} (h : 0 < q.den) (e : Int) : 0 < (q.mul (Q.pow2 e)).den := by
  unfold Q.pow2 Q.mul
  split
  · simpa using h
  · exact Nat.mul_pos h (by positivity)

/-! ### The binade of a fraction -/

theorem log2_bounds {n : Nat} (h : 0 < n) : (2 : ℚ) ^ (Nat.log2 n : Int) ≤ n ∧ (n : ℚ) < 2 ^ ((Nat.log2 n : Int) + 1) := by
  have hlow := Nat.log2_self_le h.ne'
  have hhigh := Nat.lt_log2_self (n := n)
  constructor
  · rw [zpow_natCast]
    exact_mod_cast hlow
  · rw [← Nat.cast_succ, zpow_natCast]
    exact_mod_cast hhigh

/-- A positive fraction is below a power of two as its numerator and denominator say. -/
theorem div_lt_zpow (num : Nat) {den : Nat} (hd : 0 < den) (k : Int) :
    (num : ℚ) / den < 2 ^ k ↔ if 0 ≤ k then num < den * 2 ^ k.toNat else num * 2 ^ (-k).toNat < den := by
  have hd' : (0 : ℚ) < den := by exact_mod_cast hd
  rw [div_lt_iff₀ hd']
  split
  · rename_i h
    have hk : (2 : ℚ) ^ k = 2 ^ k.toNat := by rw [← zpow_natCast, Int.toNat_of_nonneg h]
    rw [hk, mul_comm]
    exact_mod_cast Iff.rfl
  · rename_i h
    have hk : (2 : ℚ) ^ k = (2 ^ (-k).toNat)⁻¹ := by rw [← zpow_natCast, Int.toNat_of_nonneg (by omega), zpow_neg, inv_inv]
    rw [hk, ← div_eq_inv_mul, lt_div_iff₀ (by positivity)]
    exact_mod_cast Iff.rfl

/-- `flog2` is the exponent of the binade. -/
theorem flog2_bounds {num den : Nat} (hn : 0 < num) (hd : 0 < den) :
    (2 : ℚ) ^ flog2 num den ≤ (num : ℚ) / den ∧ (num : ℚ) / den < 2 ^ (flog2 num den + 1) := by
  obtain ⟨hn1, hn2⟩ := log2_bounds hn
  obtain ⟨hd1, hd2⟩ := log2_bounds hd
  have hd' : (0 : ℚ) < den := by exact_mod_cast hd
  have hk := div_lt_zpow num hd ((Nat.log2 num : Int) - Nat.log2 den)
  have hlow : (2 : ℚ) ^ ((Nat.log2 num : Int) - Nat.log2 den - 1) ≤ (num : ℚ) / den := by
    rw [le_div_iff₀ hd']
    calc (2 : ℚ) ^ ((Nat.log2 num : Int) - Nat.log2 den - 1) * den
        ≤ 2 ^ ((Nat.log2 num : Int) - Nat.log2 den - 1) * 2 ^ ((Nat.log2 den : Int) + 1) := by gcongr
      _ = 2 ^ (Nat.log2 num : Int) := by rw [← zpow_add₀ (by norm_num)]; congr 1; ring
      _ ≤ num := hn1
  have hhigh : (num : ℚ) / den < 2 ^ ((Nat.log2 num : Int) - Nat.log2 den + 1) := by
    rw [div_lt_iff₀ hd']
    calc (num : ℚ) < 2 ^ ((Nat.log2 num : Int) + 1) := hn2
      _ = 2 ^ ((Nat.log2 num : Int) - Nat.log2 den + 1) * 2 ^ (Nat.log2 den : Int) := by rw [← zpow_add₀ (by norm_num)]; congr 1; ring
      _ ≤ _ := by gcongr
  have hbelow : flog2 num den = if (num : ℚ) / den < 2 ^ ((Nat.log2 num : Int) - Nat.log2 den) then
      (Nat.log2 num : Int) - Nat.log2 den - 1 else (Nat.log2 num : Int) - Nat.log2 den := by
    unfold flog2
    simp only [hk]
    split <;> simp
  rw [hbelow]
  split
  · exact ⟨hlow, by simpa using ‹_›⟩
  · exact ⟨not_lt.1 ‹_›, hhigh⟩

/-! ### Rounding to an integer (02 R30) -/

/-- The magnitude goes to the integer above. -/
def roundsUp (rm : Rm) (neg : Bool) (num den : Nat) : Bool :=
  match rm with
  | .rtz => false
  | .rup => decide (0 < num % den) && !neg
  | .rdn => decide (0 < num % den) && neg
  | .rna => decide (den ≤ 2 * (num % den))
  | _ => decide (den < 2 * (num % den)) || (decide (2 * (num % den) = den) && decide (num / den % 2 = 1))

theorem roundNat_eq (rm : Rm) (neg : Bool) (num den : Nat) :
    roundNat rm neg num den = (if roundsUp rm neg num den = true then num / den + 1 else num / den, decide (num % den ≠ 0)) := by
  cases rm <;> rfl

/-- A whole number stays, and no number goes up by more than one. -/
theorem roundNat_cases (rm : Rm) (neg : Bool) (num : Nat) {den : Nat} (hd : 0 < den) :
    (roundNat rm neg num den).1 = num / den ∨ ((roundNat rm neg num den).1 = num / den + 1 ∧ 0 < num % den) := by
  rw [roundNat_eq]
  by_cases hup : roundsUp rm neg num den = true
  · refine .inr ⟨if_pos hup, ?_⟩
    cases rm <;> simp only [roundsUp, Bool.false_eq_true, Bool.and_eq_true, Bool.or_eq_true, decide_eq_true_eq] at hup <;> omega
  · exact .inl (if_neg hup)

theorem roundNat_ge (rm : Rm) (neg : Bool) {num den m : Nat} (hd : 0 < den) (h : m * den ≤ num) : m ≤ (roundNat rm neg num den).1 := by
  have := (Nat.le_div_iff_mul_le hd).2 h
  rcases roundNat_cases rm neg num hd with h | ⟨h, -⟩ <;> omega

theorem roundNat_le (rm : Rm) (neg : Bool) {num den m : Nat} (hd : 0 < den) (h : num < m * den) : (roundNat rm neg num den).1 ≤ m := by
  have := (Nat.div_lt_iff_lt_mul hd).2 h
  rcases roundNat_cases rm neg num hd with h | ⟨h, -⟩ <;> omega

section
variable (num : Nat) {den : Nat} (hd : 0 < den)
include hd

/-- A fraction is its whole part and a rest. -/
theorem div_eq_floor_add : (num : ℚ) / den = (num / den : Nat) + ((num % den : Nat) : ℚ) / den := by
  have hd' : (den : ℚ) ≠ 0 := by exact_mod_cast hd.ne'
  have hsplit : (num : ℚ) = den * (num / den : Nat) + (num % den : Nat) := by exact_mod_cast (Nat.div_add_mod num den).symm
  field_simp
  rw [← hsplit]

/-- The second part says whether the integer is not the fraction. -/
theorem roundNat_exact (rm : Rm) (neg : Bool) :
    (roundNat rm neg num den).2 = false ↔ ((roundNat rm neg num den).1 : ℚ) = (num : ℚ) / den := by
  have hd' : (0 : ℚ) < den := by exact_mod_cast hd
  have hlt : ((num % den : Nat) : ℚ) / den < 1 := by
    rw [div_lt_one hd']
    exact_mod_cast Nat.mod_lt num hd
  have hsnd : (roundNat rm neg num den).2 = false ↔ num % den = 0 := by simp [roundNat_eq]
  rw [hsnd, div_eq_floor_add num hd]
  constructor
  · intro h0
    rcases roundNat_cases rm neg num hd with h | ⟨-, hpos⟩
    · simp [h, h0]
    · omega
  · intro heq
    rcases roundNat_cases rm neg num hd with h | ⟨h, -⟩ <;> rw [h] at heq
    · simpa [hd.ne'] using heq
    · push_cast at heq
      linarith

end

/-- The mode that rounds negated values as `rm` rounds values. -/
def mirrorRm : Rm → Rm
  | .rup => .rdn
  | .rdn => .rup
  | rm => rm

theorem roundsUp_mirror (rm : Rm) (num den : Nat) : roundsUp rm true num den = roundsUp (mirrorRm rm) false num den := by
  cases rm <;> simp [roundsUp, mirrorRm]

theorem nearestInt_neg (rm : Rm) (v : ℚ) (z : Int) : NearestInt rm (-v) (-z) ↔ NearestInt (mirrorRm rm) v z := by
  have habs : |-v - -(z : ℚ)| = |v - z| := by rw [show -v - -(z : ℚ) = -(v - z) by ring, abs_neg]
  cases rm <;> simp only [NearestInt, mirrorRm, Int.cast_neg, abs_neg, neg_mul_neg, habs]
  case rup => constructor <;> rintro ⟨h1, h2⟩ <;> constructor <;> linarith
  case rdn => constructor <;> rintro ⟨h1, h2⟩ <;> constructor <;> linarith
  all_goals simp [Int.neg_emod_two]

/-- Rounding half to even: down below the half, up above it. -/
theorem nearestEven (n : Nat) (t : ℚ) (h0 : 0 ≤ t) (h1 : t < 1) {up : Bool}
    (hup : up = true ↔ 1 / 2 < t ∨ t = 1 / 2 ∧ n % 2 = 1) :
    |(n + t : ℚ) - ((if up = true then n + 1 else n : Nat) : Int)| ≤ 1 / 2 ∧
      (|(n + t : ℚ) - ((if up = true then n + 1 else n : Nat) : Int)| = 1 / 2 → ((if up = true then n + 1 else n : Nat) : Int) % 2 = 0) := by
  by_cases h : up = true
  · have hdist : |(n + t : ℚ) - ((n + 1 : Nat) : Int)| = 1 - t := by
      rw [abs_of_nonpos (by push_cast; linarith)]
      push_cast
      ring
    simp only [if_pos h, hdist]
    rcases hup.1 h with hgt | ⟨heq, hodd⟩
    · exact ⟨by linarith, fun htie => by linarith⟩
    · exact ⟨by linarith, fun _ => by omega⟩
  · have hdist : |(n + t : ℚ) - ((n : Nat) : Int)| = t := by
      rw [abs_of_nonneg (by push_cast; linarith)]
      push_cast
      ring
    have hle : t ≤ 1 / 2 := not_lt.1 fun hgt => h (hup.2 (.inl hgt))
    simp only [if_neg h, hdist]
    refine ⟨hle, fun htie => ?_⟩
    have : ¬ n % 2 = 1 := fun hodd => h (hup.2 (.inr ⟨htie, hodd⟩))
    omega

/-- A number that is not negative goes to the integer that the mode names. -/
theorem nearestInt_floor (rm : Rm) (num : Nat) {den : Nat} (hd : 0 < den) :
    NearestInt rm ((num : ℚ) / den) ((if roundsUp rm false num den = true then num / den + 1 else num / den : Nat) : Int) := by
  have hd' : (0 : ℚ) < den := by exact_mod_cast hd
  have hpos : 0 < num % den ↔ 0 < ((num % den : Nat) : ℚ) / den := by rw [lt_div_iff₀ hd']; simp
  have hhalf : (2 * (num % den : Nat) : ℚ) / den = 2 * (((num % den : Nat) : ℚ) / den) := by ring
  have hgt : den < 2 * (num % den) ↔ 1 / 2 < ((num % den : Nat) : ℚ) / den := by
    rw [← Nat.cast_lt (α := ℚ), ← one_lt_div₀ hd']
    push_cast
    rw [hhalf]
    constructor <;> intro h <;> linarith
  have heq : 2 * (num % den) = den ↔ ((num % den : Nat) : ℚ) / den = 1 / 2 := by
    rw [← Nat.cast_inj (R := ℚ), ← div_eq_one_iff_eq hd'.ne']
    push_cast
    rw [hhalf]
    constructor <;> intro h <;> linarith
  have h1 : ((num % den : Nat) : ℚ) / den < 1 := by
    rw [div_lt_one hd']
    exact_mod_cast Nat.mod_lt num hd
  have h0 : 0 ≤ ((num % den : Nat) : ℚ) / den := by positivity
  have hn : (0 : ℚ) ≤ (num / den : Nat) := by positivity
  have heven : roundsUp .rne false num den = true ↔
      1 / 2 < ((num % den : Nat) : ℚ) / den ∨ ((num % den : Nat) : ℚ) / den = 1 / 2 ∧ num / den % 2 = 1 := by
    simp [roundsUp, hgt, heq]
  rw [div_eq_floor_add num hd]
  cases rm
  case rtz =>
    simp only [roundsUp, Bool.false_eq_true, if_false, NearestInt, Int.cast_natCast]
    rw [abs_of_nonneg hn, abs_of_nonneg (by linarith)]
    exact ⟨by linarith, by linarith, by positivity⟩
  case rup =>
    simp only [roundsUp, hpos, Bool.not_false, Bool.and_true, decide_eq_true_eq, NearestInt, Int.cast_natCast]
    split
    · push_cast
      constructor <;> linarith
    · constructor <;> linarith
  case rdn =>
    simp only [roundsUp, Bool.and_false, Bool.false_eq_true, if_false, NearestInt, Int.cast_natCast]
    constructor <;> linarith
  case rna =>
    simp only [roundsUp, decide_eq_true_eq, NearestInt, Int.cast_natCast]
    split
    · rename_i h
      have hge : 1 / 2 ≤ ((num % den : Nat) : ℚ) / den := by
        rcases h.lt_or_eq with h | h
        · exact (hgt.1 h).le
        · exact (heq.1 h.symm).ge
      push_cast
      rw [abs_of_nonpos (by linarith), abs_of_nonneg (by linarith), abs_of_nonneg (by linarith)]
      exact ⟨by linarith, fun _ => by linarith⟩
    · rename_i h
      have hlt : ((num % den : Nat) : ℚ) / den < 1 / 2 := by
        by_contra hle
        rcases (not_lt.1 hle).lt_or_eq with h' | h'
        · exact h (hgt.2 h').le
        · exact h (heq.2 h'.symm).ge
      rw [abs_of_nonneg (by linarith)]
      exact ⟨by linarith, fun htie => by linarith⟩
  all_goals exact nearestEven _ _ h0 h1 heven

/-- The integer of `roundNat`, with the sign of the value, is the one that the mode names. -/
theorem roundNat_nearest (rm : Rm) (neg : Bool) (num : Nat) {den : Nat} (hd : 0 < den) :
    NearestInt rm (if neg then -((num : ℚ) / den) else (num : ℚ) / den)
      (if neg then -((roundNat rm neg num den).1 : Int) else ((roundNat rm neg num den).1 : Int)) := by
  rw [roundNat_eq]
  cases neg
  · exact nearestInt_floor rm num hd
  · simp only [if_true, nearestInt_neg, roundsUp_mirror]
    exact nearestInt_floor (mirrorRm rm) num hd

end Sys2Proof.Machine
end

section
/-! PROOF of O8, second part: `roundTo` rounds once (02 R30-R32). A value is rounded at the place of its own last bit or at the last place of the
least numbers, whichever is higher; the bits of the result are those of a significand and the steps of the exponent above that place. -/

namespace Sys2Proof.Machine

open Sys2Proof.Claims

/-! ### Rounding to a multiple of a power of two -/

/-- Rounding to a multiple of `2^q` is rounding the quotient to an integer. -/
theorem roundAt_eq (rm : Rm) (neg : Bool) (num : Nat) {den : Nat} (hd : 0 < den) (q : Int) :
    ∃ n d : Nat, 0 < d ∧ roundAt rm neg num den q = roundNat rm neg n d ∧ (n : ℚ) / d = (num : ℚ) / den / 2 ^ q := by
  have hd' : (den : ℚ) ≠ 0 := by exact_mod_cast hd.ne'
  unfold roundAt
  split
  · rename_i h
    refine ⟨num, den * 2 ^ q.toNat, by positivity, rfl, ?_⟩
    have hq : (2 : ℚ) ^ q = 2 ^ q.toNat := by rw [← zpow_natCast, Int.toNat_of_nonneg h]
    rw [hq]
    push_cast
    field_simp
  · rename_i h
    refine ⟨num * 2 ^ (-q).toNat, den, hd, rfl, ?_⟩
    have hq : (2 : ℚ) ^ q = (2 ^ (-q).toNat)⁻¹ := by rw [← zpow_natCast, Int.toNat_of_nonneg (by omega), zpow_neg, inv_inv]
    rw [hq]
    push_cast
    field_simp

section
variable (rm : Rm) (neg : Bool) (num : Nat) {den : Nat} (hd : 0 < den) (q : Int)
include hd

theorem roundAt_nearest :
    NearestInt rm (if neg then -((num : ℚ) / den / 2 ^ q) else (num : ℚ) / den / 2 ^ q)
      (if neg then -((roundAt rm neg num den q).1 : Int) else ((roundAt rm neg num den q).1 : Int)) := by
  obtain ⟨n, d, hd, h, hv⟩ := roundAt_eq rm neg num hd q
  rw [h, ← hv]
  exact roundNat_nearest rm neg n hd

theorem roundAt_exact :
    (roundAt rm neg num den q).2 = false ↔ ((roundAt rm neg num den q).1 : ℚ) * 2 ^ q = (num : ℚ) / den := by
  obtain ⟨n, d, hd, h, hv⟩ := roundAt_eq rm neg num hd q
  rw [h, roundNat_exact n hd, hv, eq_div_iff (by positivity)]

theorem roundAt_ge {m : Nat} (hm : (m : ℚ) ≤ (num : ℚ) / den / 2 ^ q) : m ≤ (roundAt rm neg num den q).1 := by
  obtain ⟨n, d, hd, h, hv⟩ := roundAt_eq rm neg num hd q
  rw [h]
  rw [← hv, le_div_iff₀ (by exact_mod_cast hd)] at hm
  exact roundNat_ge rm neg hd (by exact_mod_cast hm)

theorem roundAt_le {m : Nat} (hm : (num : ℚ) / den / 2 ^ q < m) : (roundAt rm neg num den q).1 ≤ m := by
  obtain ⟨n, d, hd, h, hv⟩ := roundAt_eq rm neg num hd q
  rw [h]
  rw [← hv, div_lt_iff₀ (by exact_mod_cast hd)] at hm
  exact roundNat_le rm neg hd (by exact_mod_cast hm)

end

/-! ### Formats with infinities (02 R25, R26) -/

/-- A format with infinities: the exponent field has two bits or more, and its greatest value is left to infinities and NaNs. -/
structure Binary (m : Fmt) : Prop where
  hasInf : m.hasInf = true
  exponent : m.mant + 2 ≤ m.width - 1
  maxBits : m.maxBits + 1 = (2 ^ (m.width - 1 - m.mant) - 1) * 2 ^ m.mant

theorem binary_of_mem : ∀ m ∈ [fp64, fp32, fp16, bf16, e5m2], Binary m := by
  simp only [List.forall_mem_cons, List.not_mem_nil, false_implies, implies_true, and_true]
  exact ⟨⟨rfl, by decide, by decide⟩, ⟨rfl, by decide, by decide⟩, ⟨rfl, by decide, by decide⟩, ⟨rfl, by decide, by decide⟩,
    ⟨rfl, by decide, by decide⟩⟩

/-- The exponent of the last place of the least numbers. -/
def lastPlace (m : Fmt) : Int := m.emin - (m.mant : Int)

/-- The value that the bits below the sign stand for. -/
def magnitude (m : Fmt) (n : Nat) : ℚ :=
  if n / 2 ^ m.mant = 0 then ((n % 2 ^ m.mant : Nat) : ℚ) * 2 ^ lastPlace m
  else ((2 ^ m.mant + n % 2 ^ m.mant : Nat) : ℚ) * 2 ^ (((n / 2 ^ m.mant : Nat) : Int) - 1 + lastPlace m)

/-- `d` steps of the exponent and a significand make the significand times its power of two. -/
theorem magnitude_scaled (m : Fmt) {d r : Nat} (hnormal : 2 ^ m.mant ≤ r ∨ d = 0) (hr : r ≤ 2 * 2 ^ m.mant) :
    magnitude m (d * 2 ^ m.mant + r) = r * 2 ^ ((d : Int) + lastPlace m) := by
  have hM : 0 < 2 ^ m.mant := by positivity
  have hdiv : (d * 2 ^ m.mant + r) / 2 ^ m.mant = d + r / 2 ^ m.mant := by rw [Nat.add_comm, Nat.add_mul_div_right _ _ hM, Nat.add_comm]
  have hmod : (d * 2 ^ m.mant + r) % 2 ^ m.mant = r % 2 ^ m.mant := by rw [Nat.add_comm, Nat.add_mul_mod_self_right]
  unfold magnitude
  rw [hdiv, hmod]
  generalize 2 ^ m.mant = M at *
  have hcases : r < M ∨ (M ≤ r ∧ r < 2 * M) ∨ r = 2 * M := by omega
  rcases hcases with hlt | ⟨hge, hlt⟩ | rfl
  · obtain rfl : d = 0 := hnormal.resolve_left (by omega)
    rw [Nat.div_eq_of_lt hlt, Nat.mod_eq_of_lt hlt]
    simp
  · have hone : r / M = 1 := Nat.div_eq_of_lt_le (by omega) (by omega)
    have hrest : M + r % M = r := by rw [Nat.mod_eq_sub_mod hge, Nat.mod_eq_of_lt (by omega)]; omega
    rw [hone, if_neg (by omega), hrest]
    congr 2
    push_cast
    ring
  · rw [Nat.mul_div_cancel _ hM, Nat.mul_mod_left, if_neg (by omega), show ((d + 2 : Nat) : Int) - 1 + lastPlace m = (d + lastPlace m) + 1 by
      push_cast; ring, zpow_add_one₀ (by norm_num)]
    push_cast
    ring

/-- An encoding up to the largest finite number decodes to its magnitude with its sign. -/
theorem decode_finite {m : Fmt} (hm : Binary m) (neg : Bool) {n : Nat} (hn : n ≤ m.maxBits) :
    ∃ q, m.decode (m.signBit neg + n) = .fin neg q ∧ Rational q = if neg then -magnitude m n else magnitude m n := by
  obtain ⟨hinf, hexp, hmax⟩ := hm
  have hM : 0 < 2 ^ m.mant := by positivity
  have hwidth : 2 ^ (m.width - 1) = 2 ^ (m.width - 1 - m.mant) * 2 ^ m.mant := by rw [← pow_add]; congr 1; omega
  have hE : n / 2 ^ m.mant < 2 ^ (m.width - 1 - m.mant) - 1 := by
    rw [Nat.div_lt_iff_lt_mul hM]
    omega
  have hsign : m.signBit neg = neg.toNat * 2 ^ (m.width - 1 - m.mant) * 2 ^ m.mant := by
    rw [Nat.mul_assoc, ← hwidth]
    cases neg <;> simp [Fmt.signBit]
  have hlt : n < 2 ^ (m.width - 1) := by
    rw [hwidth, ← Nat.div_lt_iff_lt_mul hM]
    exact hE.trans_le (Nat.sub_le ..)
  have htop : decide ((m.signBit neg + n) / 2 ^ (m.width - 1) % 2 = 1) = neg := by
    rw [hsign, Nat.mul_assoc, ← hwidth, Nat.add_comm, Nat.add_mul_div_right _ _ (by positivity), Nat.div_eq_of_lt hlt]
    cases neg <;> rfl
  have he : (m.signBit neg + n) / 2 ^ m.mant % 2 ^ (m.width - 1 - m.mant) = n / 2 ^ m.mant := by
    rw [hsign, Nat.add_comm, Nat.add_mul_div_right _ _ hM, Nat.add_mul_mod_self_right, Nat.mod_eq_of_lt (hE.trans_le (Nat.sub_le ..))]
  have hfr : (m.signBit neg + n) % 2 ^ m.mant = n % 2 ^ m.mant := by
    rw [hsign, Nat.add_comm, Nat.add_mul_mod_self_right]
  have hvalue : ∀ (k : Nat) (e : Int), Rational (if neg = true then ((Q.ofInt k).mul (Q.pow2 e)).neg else (Q.ofInt k).mul (Q.pow2 e)) =
      if neg = true then -((k : ℚ) * 2 ^ e) else (k : ℚ) * 2 ^ e := by
    intro k e
    split <;> simp [rational_neg_eq, rational_mul_pow2, rational_ofInt]
  have hne : (n / 2 ^ m.mant == 2 ^ (m.width - 1 - m.mant) - 1) = false := by simpa using hE.ne
  unfold Fmt.decode magnitude
  simp only [htop, he, hfr, hinf, hne, Bool.and_false, Bool.false_eq_true, if_false, Bool.not_true, Bool.false_and, beq_iff_eq]
  by_cases h0 : n / 2 ^ m.mant = 0
  · rw [if_pos h0, if_pos h0]
    exact ⟨_, rfl, hvalue _ _⟩
  · rw [if_neg h0, if_neg h0]
    refine ⟨_, rfl, (hvalue _ _).trans ?_⟩
    have hplace : ((n / 2 ^ m.mant : Nat) : Int) - (m.bias : Int) - (m.mant : Int) = ((n / 2 ^ m.mant : Nat) : Int) - 1 + lastPlace m := by
      unfold lastPlace Fmt.emin
      ring
    rw [hplace]

theorem valueIs_finite {m : Fmt} (hm : Binary m) (neg : Bool) {n : Nat} (hn : n ≤ m.maxBits) :
    ValueIs m (m.signBit neg + n) (if neg then -magnitude m n else magnitude m n) := by
  obtain ⟨q, hq, hv⟩ := decode_finite hm neg hn
  exact ⟨neg, q, hq, hv⟩

/-- The sign bit of an encoding. -/
theorem signBit_top {m : Fmt} (hm : Binary m) (neg : Bool) {n : Nat} (hn : n ≤ m.inf) :
    (m.signBit neg + n) / 2 ^ (m.width - 1) % 2 = if neg then 1 else 0 := by
  obtain ⟨-, hexp, hmax⟩ := hm
  have hwidth : 2 ^ (m.width - 1) = 2 ^ (m.width - 1 - m.mant) * 2 ^ m.mant := by rw [← pow_add]; congr 1; omega
  have hlt : n < 2 ^ (m.width - 1) := by
    have hM : 0 < 2 ^ m.mant := by positivity
    have : (2 ^ (m.width - 1 - m.mant) - 1) * 2 ^ m.mant < 2 ^ (m.width - 1 - m.mant) * 2 ^ m.mant :=
      Nat.mul_lt_mul_of_pos_right (Nat.sub_lt (by positivity) (by omega)) hM
    unfold Fmt.inf at hn
    omega
  have hsign : m.signBit neg = neg.toNat * 2 ^ (m.width - 1) := by cases neg <;> simp [Fmt.signBit]
  rw [hsign, Nat.add_comm, Nat.add_mul_div_right _ _ (by positivity), Nat.div_eq_of_lt hlt]
  cases neg <;> rfl

/-! ### `roundTo` -/

theorem overflowBits_eq {m : Fmt} (hm : Binary m) (rm : Rm) (neg : Bool) :
    ∃ n ≤ m.inf, overflowBits m rm false neg = m.signBit neg + n := by
  have hmax : m.maxBits ≤ m.inf := Nat.le_succ _
  have either : ∀ toInf : Bool, ∃ n ≤ m.inf, (if toInf = true then m.signBit neg + m.inf else m.signBit neg + m.maxBits) = m.signBit neg + n := by
    intro toInf
    cases toInf
    · exact ⟨_, hmax, rfl⟩
    · exact ⟨_, le_rfl, rfl⟩
  unfold overflowBits
  simp only [Bool.false_eq_true, if_false, hm.hasInf, if_true]
  exact either _

section
variable {m : Fmt} (hm : Binary m)
include hm

/-- The largest finite number: the longest significand at the greatest exponent. -/
theorem magnitude_maxBits : ∃ d : Nat, m.maxBits = d * 2 ^ m.mant + (2 * 2 ^ m.mant - 1) ∧
    magnitude m m.maxBits = ((2 * 2 ^ m.mant - 1 : Nat) : ℚ) * 2 ^ ((d : Int) + lastPlace m) := by
  obtain ⟨-, hexp, hmax⟩ := hm
  have hM : 0 < 2 ^ m.mant := by positivity
  have htwo : 2 ^ 2 ≤ 2 ^ (m.width - 1 - m.mant) := Nat.pow_le_pow_right (by omega) (by omega)
  obtain ⟨d, hd⟩ : ∃ d, 2 ^ (m.width - 1 - m.mant) = d + 3 := ⟨2 ^ (m.width - 1 - m.mant) - 3, by omega⟩
  have heq : m.maxBits = d * 2 ^ m.mant + (2 * 2 ^ m.mant - 1) := by
    rw [hd, show d + 3 - 1 = d + 2 by omega, Nat.add_mul] at hmax
    omega
  exact ⟨d, heq, by rw [heq, magnitude_scaled m (.inl (by omega)) (by omega)]⟩

/-- A significand of full length is beyond the largest finite number exactly when its bits are. -/
theorem maxBits_lt_iff {e u : Nat} (hu : 2 ^ m.mant ≤ u) (hu' : u ≤ 2 * 2 ^ m.mant) :
    magnitude m m.maxBits < u * 2 ^ ((e : Int) + lastPlace m) ↔ m.maxBits < e * 2 ^ m.mant + u := by
  obtain ⟨d, hbits, hval⟩ := magnitude_maxBits hm
  have hM : 0 < 2 ^ m.mant := by positivity
  have hscale : magnitude m m.maxBits < u * 2 ^ ((e : Int) + lastPlace m) ↔ (2 * 2 ^ m.mant - 1) * 2 ^ d < u * 2 ^ e := by
    have hp : (0 : ℚ) < 2 ^ lastPlace m := by positivity
    rw [hval, zpow_add₀ (by norm_num), zpow_add₀ (by norm_num), ← mul_assoc, ← mul_assoc, mul_lt_mul_iff_left₀ hp, zpow_natCast, zpow_natCast]
    exact_mod_cast Iff.rfl
  rw [hscale, hbits]
  generalize 2 ^ m.mant = M at *
  rcases Nat.lt_trichotomy e d with hlt | rfl | hgt
  · obtain ⟨c, rfl⟩ : ∃ c, d = e + 1 + c := ⟨d - e - 1, by omega⟩
    have h1 : u * 2 ^ e ≤ (2 * M - 1) * 2 ^ (e + 1 + c) :=
      calc u * 2 ^ e ≤ (2 * M) * 2 ^ e := Nat.mul_le_mul_right _ hu'
        _ ≤ (2 * M - 1) * 2 * 2 ^ e := Nat.mul_le_mul_right _ (by omega)
        _ = (2 * M - 1) * 2 ^ (e + 1) := by rw [pow_succ]; ring
        _ ≤ (2 * M - 1) * 2 ^ (e + 1 + c) := Nat.mul_le_mul_left _ (Nat.pow_le_pow_right (by omega) (by omega))
    have h2 : e * M + u ≤ (e + 1 + c) * M + (2 * M - 1) := by
      have : (e + 1 + c) * M = e * M + M + c * M := by ring
      omega
    omega
  · have hp : 0 < 2 ^ e := by positivity
    rw [Nat.mul_lt_mul_right hp]
    omega
  · obtain ⟨c, rfl⟩ : ∃ c, e = d + 1 + c := ⟨e - d - 1, by omega⟩
    have h1 : (2 * M - 1) * 2 ^ d < u * 2 ^ (d + 1 + c) :=
      calc (2 * M - 1) * 2 ^ d < (2 * M) * 2 ^ d := Nat.mul_lt_mul_of_pos_right (by omega) (by positivity)
        _ = M * 2 ^ (d + 1) := by rw [pow_succ]; ring
        _ ≤ M * 2 ^ (d + 1 + c) := Nat.mul_le_mul_left _ (Nat.pow_le_pow_right (by omega) (by omega))
        _ ≤ u * 2 ^ (d + 1 + c) := Nat.mul_le_mul_right _ hu
    have h2 : d * M + (2 * M - 1) < (d + 1 + c) * M + u := by
      have : (d + 1 + c) * M = d * M + M + c * M := by ring
      omega
    omega

/-- Below the normal range nothing overflows. -/
theorem scaled_le_max {u : Nat} {j : Int} (hu : u ≤ 2 * 2 ^ m.mant) (hj : j < lastPlace m) : (u : ℚ) * 2 ^ j ≤ magnitude m m.maxBits := by
  obtain ⟨d, -, hval⟩ := magnitude_maxBits hm
  have hM : 0 < 2 ^ m.mant := by positivity
  rw [hval]
  calc (u : ℚ) * 2 ^ j ≤ ((2 * 2 ^ m.mant : Nat) : ℚ) * 2 ^ j := by gcongr
    _ ≤ ((2 * (2 * 2 ^ m.mant - 1) : Nat) : ℚ) * 2 ^ j := by gcongr; omega
    _ = ((2 * 2 ^ m.mant - 1 : Nat) : ℚ) * 2 ^ (j + 1) := by rw [zpow_add_one₀ (by norm_num)]; push_cast; ring
    _ ≤ _ := mul_le_mul_of_nonneg_left (zpow_le_zpow_right₀ (by norm_num) (by omega)) (by positivity)

end

section
variable (rm : Rm) {q : Q} (hd : 0 < q.den)
include hd

/-- A quotient of a value by a power of two, by sign and magnitude. -/
theorem rational_div_pow (j : Int) : Rational q / 2 ^ j =
    if q.isNeg then -((q.num.natAbs : ℚ) / q.den / 2 ^ j) else (q.num.natAbs : ℚ) / q.den / 2 ^ j := by
  rw [rational_signed hd]
  split
  · rw [neg_div]
  · rfl

theorem rounded_nearest (j : Int) : NearestInt rm (Rational q / 2 ^ j)
    (if q.isNeg then -((roundAt rm q.isNeg q.num.natAbs q.den j).1 : Int) else ((roundAt rm q.isNeg q.num.natAbs q.den j).1 : Int)) := by
  rw [rational_div_pow hd]
  exact roundAt_nearest rm _ _ hd j

/-- The rounded value is the value itself exactly when the rounding says that it is exact. -/
theorem rounded_exact (k : Int) :
    ((if q.isNeg then -((roundAt rm q.isNeg q.num.natAbs q.den k).1 : Int) else ((roundAt rm q.isNeg q.num.natAbs q.den k).1 : Int) : Int) : ℚ)
      * 2 ^ k = Rational q ↔ (roundAt rm q.isNeg q.num.natAbs q.den k).2 = false := by
  rw [roundAt_exact rm _ _ hd, rational_signed hd]
  split
  · push_cast
    rw [neg_mul, neg_inj]
  · push_cast
    rfl

end

/-- The place of the last bit of a value's significand, were there no bound on the exponent. -/
def fullPlace (m : Fmt) (q : Q) : Int := q.flog2 - (m.mant : Int)
/-- The significand of a value rounded with no bound on the exponent. -/
def fullSignificand (m : Fmt) (rm : Rm) (q : Q) : Nat := (roundAt rm q.isNeg q.num.natAbs q.den (fullPlace m q)).1
/-- The place that a value is rounded at. -/
def roundPlace (m : Fmt) (q : Q) : Int := max (fullPlace m q) (lastPlace m)
/-- The bits of a rounded value that does not overflow, below the sign. -/
def roundedBits (m : Fmt) (rm : Rm) (q : Q) : Nat :=
  (roundPlace m q - lastPlace m).toNat * 2 ^ m.mant + (roundAt rm q.isNeg q.num.natAbs q.den (roundPlace m q)).1

/-- `roundTo` in these terms (02 R30-R32). -/
theorem roundTo_eq (m : Fmt) (rm : Rm) (zeroNeg : Bool) {q : Q} (hz : q.isZero = false) :
    roundTo m rm false zeroNeg q =
      if lastPlace m ≤ fullPlace m q ∧ m.maxBits < (fullPlace m q - lastPlace m).toNat * 2 ^ m.mant + fullSignificand m rm q then
        { bits := overflowBits m rm false q.isNeg, flags := overflowFlags }
      else
        { bits := m.signBit q.isNeg + roundedBits m rm q,
          flags := roundFlags (decide (q.flog2 < m.emin) && !(decide (q.flog2 = m.emin - 1) && decide (fullSignificand m rm q = 2 ^ (m.mant + 1))))
            (roundAt rm q.isNeg q.num.natAbs q.den (roundPlace m q)).2 } := by
  have hplace : (if fullPlace m q < lastPlace m then lastPlace m else fullPlace m q) = roundPlace m q := by
    unfold roundPlace
    split <;> omega
  unfold roundTo roundedBits
  rw [hz, ← hplace]
  simp only [Bool.false_eq_true, if_false, Bool.and_eq_true, decide_eq_true_eq, ge_iff_le, gt_iff_lt]
  rfl

theorem natAbs_pos_of_isZero {q : Q} (hz : q.isZero = false) : 0 < q.num.natAbs := by
  simp only [Q.isZero, decide_eq_false_iff_not] at hz
  omega

section
variable {m : Fmt} (hm : Binary m) (rm : Rm) {q : Q} (hd : 0 < q.den) (hz : q.isZero = false)
include hd hz

/-- The significand has its full length. -/
theorem fullPlace_bounds (m : Fmt) : (2 : ℚ) ^ m.mant ≤ (q.num.natAbs : ℚ) / q.den / 2 ^ fullPlace m q ∧
    (q.num.natAbs : ℚ) / q.den / 2 ^ fullPlace m q < 2 ^ (m.mant + 1) := by
  obtain ⟨hlow, hhigh⟩ := flog2_bounds (natAbs_pos_of_isZero hz) hd
  have hp : (0 : ℚ) < 2 ^ fullPlace m q := by positivity
  constructor
  · rw [le_div_iff₀ hp, ← zpow_natCast, ← zpow_add₀ (by norm_num), fullPlace, add_sub_cancel]
    exact hlow
  · rw [div_lt_iff₀ hp, ← zpow_natCast, ← zpow_add₀ (by norm_num), fullPlace]
    have hplace : ((m.mant + 1 : Nat) : Int) + (q.flog2 - m.mant) = q.flog2 + 1 := by push_cast; ring
    rw [hplace]
    exact hhigh

theorem fullSignificand_bounds (m : Fmt) : 2 ^ m.mant ≤ fullSignificand m rm q ∧ fullSignificand m rm q ≤ 2 * 2 ^ m.mant := by
  obtain ⟨hlow, hhigh⟩ := fullPlace_bounds hd hz m
  refine ⟨roundAt_ge rm _ _ hd _ (by exact_mod_cast hlow), roundAt_le rm _ _ hd _ ?_⟩
  rw [← pow_succ']
  exact_mod_cast hhigh

/-- Underflow: the value rounded with no bound on the exponent lies below the normal range (02 R32). -/
theorem tiny_iff (m : Fmt) :
    (decide (q.flog2 < m.emin) && !(decide (q.flog2 = m.emin - 1) && decide (fullSignificand m rm q = 2 ^ (m.mant + 1)))) = true ↔
      (fullSignificand m rm q : ℚ) * 2 ^ fullPlace m q < 2 ^ m.emin := by
  obtain ⟨hlow, hhigh⟩ := fullSignificand_bounds rm hd hz m
  have hp : (0 : ℚ) < 2 ^ fullPlace m q := by positivity
  have hbinade : (2 : ℚ) ^ q.flog2 = 2 ^ m.mant * 2 ^ fullPlace m q := by
    rw [← zpow_natCast, ← zpow_add₀ (by norm_num), fullPlace, add_sub_cancel]
  have hnext : (2 : ℚ) ^ (q.flog2 + 1) = (2 * 2 ^ m.mant : Nat) * 2 ^ fullPlace m q := by
    rw [zpow_add_one₀ (by norm_num), hbinade]
    push_cast
    ring
  simp only [Bool.and_eq_true, decide_eq_true_eq, Bool.not_eq_true', Bool.and_eq_false_iff, decide_eq_false_iff_not]
  have hcases : m.emin ≤ q.flog2 ∨ q.flog2 + 1 = m.emin ∨ q.flog2 + 1 < m.emin := by omega
  rcases hcases with h | h | h
  · have hge : (2 : ℚ) ^ m.emin ≤ fullSignificand m rm q * 2 ^ fullPlace m q :=
      calc (2 : ℚ) ^ m.emin ≤ 2 ^ q.flog2 := zpow_le_zpow_right₀ (by norm_num) h
        _ = 2 ^ m.mant * 2 ^ fullPlace m q := hbinade
        _ ≤ _ := mul_le_mul_of_nonneg_right (by exact_mod_cast hlow) hp.le
    exact ⟨fun h' => by omega, fun h' => absurd h' (not_lt.2 hge)⟩
  · rw [← h, hnext, mul_lt_mul_iff_left₀ hp, Nat.cast_lt, ← pow_succ']
    rw [← pow_succ'] at hhigh
    omega
  · have hlt : (fullSignificand m rm q : ℚ) * 2 ^ fullPlace m q < 2 ^ m.emin :=
      calc (fullSignificand m rm q : ℚ) * 2 ^ fullPlace m q ≤ (2 * 2 ^ m.mant : Nat) * 2 ^ fullPlace m q :=
            mul_le_mul_of_nonneg_right (by exact_mod_cast hhigh) hp.le
        _ = 2 ^ (q.flog2 + 1) := hnext.symm
        _ < 2 ^ m.emin := zpow_lt_zpow_right₀ (by norm_num) h
    exact ⟨fun _ => hlt, fun _ => by omega⟩

include hm

theorem overflow_iff : magnitude m m.maxBits < (fullSignificand m rm q : ℚ) * 2 ^ fullPlace m q ↔
    lastPlace m ≤ fullPlace m q ∧ m.maxBits < (fullPlace m q - lastPlace m).toNat * 2 ^ m.mant + fullSignificand m rm q := by
  obtain ⟨hlow, hhigh⟩ := fullSignificand_bounds rm hd hz m
  by_cases hp : lastPlace m ≤ fullPlace m q
  · rw [and_iff_right hp, ← maxBits_lt_iff hm hlow hhigh, Int.toNat_of_nonneg (by omega), sub_add_cancel]
  · have := scaled_le_max hm hhigh (not_le.1 hp)
    exact ⟨fun h => absurd h (not_lt.2 this), fun h => absurd h.1 hp⟩

/-- What does not overflow is an encoding of the rounded value. -/
theorem roundedBits_value (hno : ¬(lastPlace m ≤ fullPlace m q ∧
      m.maxBits < (fullPlace m q - lastPlace m).toNat * 2 ^ m.mant + fullSignificand m rm q)) :
    roundedBits m rm q ≤ m.maxBits ∧
      magnitude m (roundedBits m rm q) = ((roundAt rm q.isNeg q.num.natAbs q.den (roundPlace m q)).1 : ℚ) * 2 ^ roundPlace m q := by
  obtain ⟨hlow, hhigh⟩ := fullSignificand_bounds rm hd hz m
  by_cases hp : lastPlace m ≤ fullPlace m q
  · have hplace : roundPlace m q = fullPlace m q := max_eq_left hp
    unfold roundedBits
    rw [hplace]
    refine ⟨not_lt.1 fun h => hno ⟨hp, h⟩, ?_⟩
    refine (magnitude_scaled m (.inl hlow) hhigh).trans ?_
    rw [Int.toNat_of_nonneg (by omega), sub_add_cancel]
    rfl
  · have hplace : roundPlace m q = lastPlace m := max_eq_right (by omega)
    have hsmall : (roundAt rm q.isNeg q.num.natAbs q.den (lastPlace m)).1 ≤ 2 ^ m.mant := by
      refine roundAt_le rm _ _ hd _ ?_
      have hv := (fullPlace_bounds hd hz m).2
      rw [div_lt_iff₀ (by positivity)] at hv ⊢
      calc (q.num.natAbs : ℚ) / q.den < 2 ^ (m.mant + 1) * 2 ^ fullPlace m q := hv
        _ = (2 ^ m.mant : Nat) * 2 ^ (fullPlace m q + 1) := by rw [zpow_add_one₀ (by norm_num)]; push_cast; ring
        _ ≤ (2 ^ m.mant : Nat) * 2 ^ lastPlace m := by gcongr; norm_num; omega
    obtain ⟨d, hbits, -⟩ := magnitude_maxBits hm
    unfold roundedBits
    rw [hplace, sub_self, Int.toNat_zero, magnitude_scaled m (.inr rfl) (by omega)]
    refine ⟨?_, by simp⟩
    have : 0 < 2 ^ m.mant := by positivity
    omega

/-- A value that is not zero is rounded once (02 R30-R32). -/
theorem roundTo_nonzero (zeroNeg : Bool) : ∃ (j u : Int) (vmax : ℚ), ValueIs m m.maxBits vmax ∧
    2 ^ m.mant ≤ |Rational q / 2 ^ j| ∧ |Rational q / 2 ^ j| < 2 ^ (m.mant + 1) ∧ NearestInt rm (Rational q / 2 ^ j) u ∧
    (roundTo m rm false zeroNeg q).bits / 2 ^ (m.width - 1) % 2 = (if Rational q < 0 then 1 else 0) ∧
    if vmax < |(u : ℚ) * 2 ^ j| then
      roundTo m rm false zeroNeg q = { bits := overflowBits m rm false (decide (Rational q < 0)), flags := overflowFlags }
    else ∃ (z : Int) (w : ℚ), let k := max j (m.emin - (m.mant : Int))
      NearestInt rm (Rational q / 2 ^ k) z ∧ w = z * 2 ^ k ∧ ValueIs m (roundTo m rm false zeroNeg q).bits w ∧
        (roundTo m rm false zeroNeg q).flags =
          if w = Rational q then 0 else if |(u : ℚ) * 2 ^ j| < 2 ^ m.emin then flagUF ||| flagNX else flagNX := by
  have hneg : decide (Rational q < 0) = q.isNeg := by simp [Q.isNeg, rational_neg hd]
  have hsign : (if Rational q < 0 then 1 else 0) = if q.isNeg = true then 1 else 0 := by simp [← hneg]
  obtain ⟨hlow, hhigh⟩ := fullPlace_bounds hd hz m
  have habs : |Rational q / 2 ^ fullPlace m q| = (q.num.natAbs : ℚ) / q.den / 2 ^ fullPlace m q := by
    rw [abs_div, rational_abs, abs_of_pos (by positivity : (0 : ℚ) < 2 ^ fullPlace m q)]
  have hfull : |((if q.isNeg then -(fullSignificand m rm q : Int) else (fullSignificand m rm q : Int) : Int) : ℚ) * 2 ^ fullPlace m q| =
      fullSignificand m rm q * 2 ^ fullPlace m q := by
    rw [abs_mul, abs_of_pos (by positivity : (0 : ℚ) < 2 ^ fullPlace m q)]
    split <;> simp
  refine ⟨fullPlace m q, if q.isNeg then -(fullSignificand m rm q : Int) else (fullSignificand m rm q : Int), magnitude m m.maxBits, ?max,
    habs ▸ hlow, habs ▸ hhigh, rounded_nearest rm hd _, ?top, ?rest⟩
  case max => simpa [Fmt.signBit] using valueIs_finite hm false le_rfl
  case top =>
    rw [hsign, roundTo_eq m rm zeroNeg hz]
    split
    · obtain ⟨n, hn, heq⟩ := overflowBits_eq hm rm q.isNeg
      rw [heq]
      exact signBit_top hm _ hn
    · rename_i hno
      exact signBit_top hm _ ((roundedBits_value hm rm hd hz hno).1.trans (Nat.le_succ _))
  case rest =>
    rw [hfull, roundTo_eq m rm zeroNeg hz, hneg]
    simp only [overflow_iff hm rm hd hz]
    split
    · rfl
    · rename_i hno
      obtain ⟨hle, hvalue⟩ := roundedBits_value hm rm hd hz hno
      refine ⟨_, _, rounded_nearest rm hd _, rfl, ?_, ?_⟩
      · have hv := valueIs_finite hm q.isNeg hle
        rw [hvalue] at hv
        convert hv using 1
        split <;> simp [roundPlace, lastPlace]
      · have hexact := rounded_exact rm hd (roundPlace m q)
        have htiny := tiny_iff rm hd hz m
        cases hrest : (roundAt rm q.isNeg q.num.natAbs q.den (roundPlace m q)).2
        · refine Eq.trans ?_ (if_pos (hexact.2 hrest)).symm
          simp [roundFlags, flagIf]
        · have hne : ¬ _ = Rational q := fun e => Bool.false_ne_true ((hexact.1 e).symm.trans hrest)
          refine Eq.trans ?_ (if_neg hne).symm
          by_cases ht : (fullSignificand m rm q : ℚ) * 2 ^ fullPlace m q < 2 ^ m.emin
          · rw [if_pos ht, htiny.2 ht]
            rfl
          · rw [if_neg ht, Bool.eq_false_iff.2 fun h => ht (htiny.1 h)]
            rfl

end

theorem roundTo_roundedTo {m : Fmt} (hm : Binary m) (rm : Rm) (zeroNeg : Bool) {q : Q} (hd : 0 < q.den) :
    RoundedTo m rm zeroNeg (Rational q) (roundTo m rm false zeroNeg q) := by
  have hzero := rational_eq_zero hd
  refine ⟨fun h => ?_, fun h => roundTo_nonzero hm rm hd ?_ zeroNeg⟩
  · unfold roundTo
    rw [if_pos (by simpa [Q.isZero] using hzero.1 h)]
  · simpa [Q.isZero] using fun h' => h (hzero.2 h')

end Sys2Proof.Machine
end

section
/-! PROOF of O8: floating arithmetic (06 R139-R141). Each operation of the model is what its rule names, operand by operand, and the one rounding
is that of 02 R30. -/

namespace Sys2Proof.Machine

open Sys2Proof.Claims

/-! ### Sums and products (06 R139, R140) -/

theorem fAdd_nan (f : Fmt) (rm : Rm) {x y : FVal} (h : x.isNan = true ∨ y.isNan = true) :
    fAdd f rm x y = nanRes f (x.isSnan || y.isSnan) := by
  cases x <;> cases y <;> simp_all [fAdd, FVal.isNan, FVal.isSnan]

theorem fAdd_sumOf (f : Fmt) (rm : Rm) (x y : FVal) : SumOf f rm x y (fAdd f rm x y) := by
  refine ⟨fAdd_nan f rm, ?_, ?_, ?_⟩
  · rintro a b rfl rfl
    simp [fAdd]
  · rintro a n q (⟨rfl, rfl⟩ | ⟨rfl, rfl⟩) <;> rfl
  · rintro a p b q rfl rfl
    rfl

theorem fMul_nan (f : Fmt) (rm : Rm) {x y : FVal} (h : x.isNan = true ∨ y.isNan = true) :
    fMul f rm x y = nanRes f (x.isSnan || y.isSnan) := by
  cases x <;> cases y <;> simp_all [fMul, FVal.isNan, FVal.isSnan]

/-- The product with an infinity. -/
theorem fMul_inf (f : Fmt) (rm : Rm) {x y : FVal} (hx : x.isNan = false) (hy : y.isNan = false) (h : x.isInf = true ∨ y.isInf = true) :
    fMul f rm x y = if x.isZero || y.isZero then nanRes f true else infRes f false (x.negSign != y.negSign) := by
  cases x <;> cases y <;> simp_all [fMul, FVal.isNan, FVal.isInf, FVal.isZero, FVal.negSign] <;> rfl

theorem FVal.not_nan_of_inf {x : FVal} (h : x.isInf = true) : x.isNan = false := by cases x <;> simp_all [FVal.isInf, FVal.isNan]

theorem FVal.not_nan_of_zero {x : FVal} (h : x.isZero = true) : x.isNan = false := by cases x <;> simp_all [FVal.isZero, FVal.isNan]

theorem FVal.not_zero_of_inf {x : FVal} (h : x.isInf = true) : x.isZero = false := by cases x <;> simp_all [FVal.isInf, FVal.isZero]

theorem fMul_productOf (f : Fmt) (rm : Rm) (x y : FVal) : ProductOf f rm x y (fMul f rm x y) := by
  refine ⟨fMul_nan f rm, ?_, ?_, ?_⟩
  · rintro (⟨hx, hy⟩ | ⟨hx, hy⟩)
    · simp [fMul_inf f rm (FVal.not_nan_of_inf hx) (FVal.not_nan_of_zero hy) (.inl hx), hy]
    · rw [fMul_inf f rm (FVal.not_nan_of_zero hx) (FVal.not_nan_of_inf hy) (.inr hy)]
      simp [hx]
  · rintro (⟨hx, hny, hzy⟩ | ⟨hy, hnx, hzx⟩)
    · simp [fMul_inf f rm (FVal.not_nan_of_inf hx) hny (.inl hx), FVal.not_zero_of_inf hx, hzy]
    · simp [fMul_inf f rm hnx (FVal.not_nan_of_inf hy) (.inr hy), FVal.not_zero_of_inf hy, hzx]
  · rintro a p b q rfl rfl
    rfl

theorem fFma_fusedOf (f : Fmt) (rm : Rm) (x y z : FVal) : FusedOf f rm x y z (fFma f rm x y z) := by
  refine ⟨fun h => ?_, fun hn hb => ?_, fun hn hb hi => ?_, ?_, ?_⟩
  · exact if_pos h
  · unfold fFma
    simp only [hn, hb, Bool.false_eq_true, if_false, if_true]
  · have hi' : (x.isInf || y.isInf) = true := by simpa using hi
    unfold fFma
    simp only [hn, hb, hi', Bool.false_eq_true, if_false, if_true]
    have hz : (z.isInf && z.negSign != (x.negSign != y.negSign)) = true ↔ z = .inf (!(x.negSign != y.negSign)) := by
      generalize (x.negSign != y.negSign) = n
      cases z <;> simp [FVal.isInf, FVal.negSign, Bool.eq_not_iff]
    simp only [hz]
  · rintro a p b q c rfl rfl rfl
    simp [fFma, FVal.isNan, FVal.isInf, FVal.isZero, FVal.negSign]
  · rintro a p b q c u rfl rfl rfl
    simp [fFma, FVal.isNan, FVal.isInf, FVal.isZero, FVal.negSign, FVal.q]

/-! ### The lesser and the greater number (06 R141) -/

theorem FVal.lt_asymm {x y : FVal} (h : x.lt y = true) : y.lt x = false := by
  cases x <;> cases y <;> simp_all [FVal.lt, Q.lt]
  omega

theorem FVal.not_lt_of_eqv {x y : FVal} (h : x.eqv y = true) : x.lt y = false := by
  cases x <;> cases y <;> simp_all [FVal.lt, FVal.eqv, Q.lt, Q.eqv]

theorem FVal.eqv_symm {x y : FVal} (h : x.eqv y = true) : y.eqv x = true := by
  cases x <;> cases y <;> simp_all [FVal.eqv, Q.eqv]

theorem fMinMax_flags (f : Fmt) (max : Bool) (a b : Nat) :
    (fMinMax f max a b).flags = flagIf ((f.decode a).isSnan || (f.decode b).isSnan) flagNV := by
  unfold fMinMax
  simp only
  split
  · rfl
  · split
    · rfl
    · split <;> rfl

/-- The first operand is the lesser one. -/
def lessFirst (x y : FVal) : Bool := x.lt y || (x.eqv y && x.negSign && !y.negSign)

theorem fMinMax_numbers {f : Fmt} (max : Bool) {a b : Nat} (hx : (f.decode a).isNan = false) (hy : (f.decode b).isNan = false) :
    (fMinMax f max a b).bits = if lessFirst (f.decode a) (f.decode b) != max then a else b := by
  have hpick : (fMinMax f max a b).bits =
      if max then (if lessFirst (f.decode a) (f.decode b) then b else a) else (if lessFirst (f.decode a) (f.decode b) then a else b) := by
    simp only [fMinMax, hx, hy, Bool.and_false, Bool.false_eq_true, if_false]
    rfl
  rw [hpick]
  cases max <;> cases lessFirst (f.decode a) (f.decode b) <;> rfl

theorem fMinMax_pickOf (f : Fmt) (max : Bool) (a b : Nat) : PickOf f max a b (fMinMax f max a b) := by
  refine ⟨fMinMax_flags f max a b, fun hx hy => ?_, fun hx hy => ?_, fun hx hy => ?_, fun hx hy => ?_⟩
  · simp [fMinMax, hx, hy]
  · simp [fMinMax, hx, hy]
  · simp [fMinMax, hx, hy]
  · rw [fMinMax_numbers max hx hy]
    refine ⟨ite_eq_or_eq .., fun hlt => ?_, fun hgt => ?_, fun heq hs => ?_⟩
    · have : lessFirst (f.decode a) (f.decode b) = true := by simp [lessFirst, hlt]
      cases max <;> simp [this]
    · have : lessFirst (f.decode a) (f.decode b) = false := by
        have hne : (f.decode a).eqv (f.decode b) = false := by
          by_contra h
          have := FVal.not_lt_of_eqv (FVal.eqv_symm (by simpa using h))
          simp_all
        simp [lessFirst, FVal.lt_asymm hgt, hne]
      cases max <;> simp [this]
    · have : lessFirst (f.decode a) (f.decode b) = (f.decode a).negSign := by
        cases ha : (f.decode a).negSign <;> cases hb : (f.decode b).negSign <;> simp_all [lessFirst, FVal.not_lt_of_eqv heq]
      cases ha : (f.decode a).negSign <;> cases hb : (f.decode b).negSign <;> cases max <;> simp_all

/-! ### The rows -/

/-- Settles O8: each row packs its elements' results, and each rounding is one. -/
theorem floatArithmeticResults : Obligations.FloatArithmeticResults := by
  unfold Obligations.FloatArithmeticResults
  refine ⟨fun x s i f hi hf => ?_, fun m hm rm zeroNeg q hd => roundTo_roundedTo (binary_of_mem m hm) rm zeroNeg hd⟩
  have hn := regs_one_or_two x.ty
  exact ⟨fun hc => row_result rfl rfl hn hc hi hf fun l _ _ => ⟨_, rfl, rfl, fun k => fAdd_sumOf ..⟩,
    fun hc => row_result rfl rfl hn hc hi hf fun l _ _ => ⟨_, rfl, rfl, fun k => fAdd_sumOf ..⟩,
    fun hc => row_result rfl rfl hn hc hi hf fun l _ _ => ⟨_, rfl, rfl, fun k => fMul_productOf ..⟩,
    fun hc => row_result rfl rfl hn hc hi hf fun l _ _ => ⟨_, rfl, rfl, fun k => fFma_fusedOf ..⟩,
    fun hc => row_result rfl rfl hn hc hi hf fun l _ _ => ⟨_, rfl, rfl, fun k => fMinMax_pickOf ..⟩,
    fun hc => row_result rfl rfl hn hc hi hf fun l _ _ => ⟨_, rfl, rfl, fun k => fMinMax_pickOf ..⟩⟩

end Sys2Proof.Machine
end

section
/-! PROOF of O9: classes, rounding, scaling, dot products and conversions (06 R142-R146). -/

namespace Sys2Proof.Machine

open Sys2Proof.Claims

/-! ### Decoded numbers -/

theorem decode_den {m : Fmt} {b : Nat} {n : Bool} {q : Q} (h : m.decode b = .fin n q) : 0 < q.den := by
  have hpos : ∀ (neg : Bool) (k : Nat) (e : Int),
      0 < (if neg = true then ((Q.ofInt k).mul (Q.pow2 e)).neg else (Q.ofInt k).mul (Q.pow2 e)).den := by
    intro neg k e
    have hden := den_mul_pow2 (q := Q.ofInt k) Nat.one_pos e
    split
    · exact hden
    · exact hden
  unfold Fmt.decode at h
  simp only at h
  split at h
  · split at h <;> cases h
  · split at h
    · cases h
    · split at h
      · obtain ⟨-, rfl⟩ := FVal.fin.inj h
        exact hpos ..
      · obtain ⟨-, rfl⟩ := FVal.fin.inj h
        exact hpos ..

/-- A number lies below the normal range when its binade does. -/
theorem flog2_lt_iff {q : Q} (hd : 0 < q.den) (hz : q.isZero = false) (e : Int) : q.flog2 < e ↔ |Rational q| < 2 ^ e := by
  obtain ⟨hlow, hhigh⟩ := flog2_bounds (natAbs_pos_of_isZero hz) hd
  rw [rational_abs]
  constructor
  · exact fun h => hhigh.trans_le (zpow_le_zpow_right₀ (by norm_num) h)
  · exact fun h => (zpow_lt_zpow_iff_right₀ (by norm_num : (1 : ℚ) < 2)).1 (hlow.trans_lt h)

theorem isZero_iff {q : Q} (hd : 0 < q.den) : q.isZero = true ↔ Rational q = 0 := by
  rw [rational_eq_zero hd, Q.isZero, decide_eq_true_eq]

/-! ### Classes (06 R142) -/

theorem fClass_number {m : Fmt} {a : Nat} {n : Bool} {q : Q} (h : m.decode a = .fin n q) :
    BitVec.ofNat 64 (fClass m a) = if Rational q = 0 then (if n then 2 ^ 3 else 2 ^ 4)
      else if |Rational q| < 2 ^ m.emin then (if n then 2 ^ 2 else 2 ^ 5) else if n then 2 else 2 ^ 6 := by
  have hd := decode_den h
  unfold fClass
  rw [h]
  by_cases hz : q.isZero = true
  · rw [if_pos ((isZero_iff hd).1 hz)]
    simp only [hz, if_true]
    cases n <;> rfl
  · have hlt := flog2_lt_iff hd (by simpa using hz) m.emin
    rw [if_neg fun h' => hz ((isZero_iff hd).2 h')]
    simp only [hz, Bool.false_eq_true, if_false, hlt]
    split <;> cases n <;> rfl

/-! ### Rounding to an integer (06 R143, R146) -/

theorem roundInt_nearest (rm : Rm) {q : Q} (hd : 0 < q.den) : NearestInt rm (Rational q) (roundInt rm q).1 := by
  rw [rational_signed hd]
  exact roundNat_nearest rm q.isNeg q.num.natAbs hd

theorem roundInt_exact (rm : Rm) {q : Q} (hd : 0 < q.den) : (roundInt rm q).2 = false ↔ ((roundInt rm q).1 : ℚ) = Rational q := by
  rw [rational_signed hd]
  refine (roundNat_exact q.num.natAbs hd rm q.isNeg).trans ?_
  unfold roundInt
  simp only
  split
  · push_cast
    rw [neg_inj]
  · push_cast
    rfl

theorem fRnd_nan {m : Fmt} (rm : Rm) (nx : Bool) {a : Nat} {sn : Bool} (h : m.decode a = .nan sn) : fRnd m rm nx a = nanRes m sn := by
  rw [fRnd, h]

theorem fRnd_inf {m : Fmt} (rm : Rm) (nx : Bool) {a : Nat} (h : (m.decode a).isInf = true) : fRnd m rm nx a = { bits := a } := by
  unfold fRnd
  cases hx : m.decode a <;> simp_all [FVal.isInf]

theorem fRnd_number (m : Fmt) (rm : Rm) (nx : Bool) {a : Nat} {n : Bool} {q : Q} (h : m.decode a = .fin n q) :
    ∃ z, NearestInt rm (Rational q) z ∧ (fRnd m rm nx a).bits = (roundTo m .rne false n (Q.ofInt z)).bits ∧
      (fRnd m rm nx a).flags = if nx = true ∧ (z : ℚ) ≠ Rational q then flagNX else 0 := by
  have hd := decode_den h
  have hexact := roundInt_exact rm hd
  refine ⟨(roundInt rm q).1, roundInt_nearest rm hd, ?_, ?_⟩
  · unfold fRnd
    rw [h]
  · unfold fRnd
    rw [h]
    simp only [ne_eq, ← hexact, flagIf]
    cases nx <;> cases (roundInt rm q).2 <;> rfl

theorem fToInt_integerOf (rm : Rm) (lo hi : Int) (m : Fmt) (b : Nat) :
    IntegerOf rm lo hi (m.decode b) (fToInt rm lo hi (m.decode b)).1 (fToInt rm lo hi (m.decode b)).2 := by
  refine ⟨fun h => ?_, fun n h => ?_, fun n q h => ?_⟩
  · cases hx : m.decode b <;> simp_all [FVal.isNan, fToInt]
  · rw [h]
    exact ⟨rfl, rfl⟩
  · have hd := decode_den h
    have hexact := roundInt_exact rm hd
    rw [h]
    refine ⟨(roundInt rm q).1, roundInt_nearest rm hd, fun hlo => ?_, fun hlo hhi => ?_, fun hlo hhi => ?_⟩
    · simp [fToInt, hlo]
    · simp [fToInt, not_lt.2 hlo, hhi]
    · simp only [fToInt, not_lt.2 hlo, not_lt.2 hhi, if_false, true_and, ← hexact, flagIf]
      cases (roundInt rm q).2 <;> rfl

/-! ### Scaling and conversion (06 R143, R145) -/

theorem fScale_number (m : Fmt) (rm : Rm) {a : Nat} (b : Int) {n : Bool} {q : Q} (h : m.decode a = .fin n q) (hz : q.isZero = false) :
    fScale m rm a b = roundTo m rm false n (q.mul (Q.pow2 (max (-5000) (min 5000 b)))) := by
  have hclamp : (if b > 5000 then 5000 else if b < -5000 then -5000 else b) = max (-5000) (min 5000 b) := by
    split
    · omega
    · split <;> omega
  unfold fScale
  rw [h]
  simp only [hz, hclamp, Bool.false_eq_true, if_false]

theorem fScale_nan {m : Fmt} (rm : Rm) {a : Nat} (b : Int) {sn : Bool} (h : m.decode a = .nan sn) : fScale m rm a b = nanRes m sn := by
  rw [fScale, h]

theorem fScale_special (m : Fmt) (rm : Rm) {a : Nat} (b : Int) (h : (m.decode a).isInf = true ∨ (m.decode a).isZero = true) :
    fScale m rm a b = { bits := a } := by
  unfold fScale
  cases hx : m.decode a <;> simp_all [FVal.isInf, FVal.isZero]

theorem convertTo_convertedTo (m : Fmt) (rm : Rm) (sat : Bool) (x : FVal) : ConvertedTo m rm sat x (convertTo m rm sat x) := by
  refine ⟨?_, ?_, ?_⟩
  · rintro sn rfl
    rfl
  · rintro n rfl
    rfl
  · rintro n q rfl
    rfl

/-! ### Dot products (06 R144) -/

section
variable (a0 b0 a1 b1 c : FVal)

/-- One of the three terms is the infinity of a sign. -/
def dotInf (n : Bool) : Bool :=
  (infTerm a0 b0 && (a0.negSign != b0.negSign) == n) || (infTerm a1 b1 && (a1.negSign != b1.negSign) == n) || c == .inf n

/-- A product has no value, or infinite terms of both signs meet. -/
def dotBad : Bool :=
  (a0.isInf && b0.isZero) || (a0.isZero && b0.isInf) || (a1.isInf && b1.isZero) || (a1.isZero && b1.isInf) ||
    (dotInf a0 b0 a1 b1 c true && dotInf a0 b0 a1 b1 c false)

/-- The sign of a zero sum. -/
def dotZeroNeg (rm : Rm) : Bool :=
  let zeros := (a0.q.mul b0.q).isZero && (a1.q.mul b1.q).isZero && c.isZero
  (zeros && (a0.negSign != b0.negSign) && (a1.negSign != b1.negSign) && c.negSign) ||
    (!(zeros && !(a0.negSign != b0.negSign) && !(a1.negSign != b1.negSign) && !c.negSign) && rm == .rdn)

theorem inf_beq (x : FVal) (n : Bool) : (x == .inf n) = (x.isInf && (x.negSign == n)) := by
  rw [Bool.eq_iff_iff]
  cases x <;> simp [FVal.isInf, FVal.negSign]

theorem fDot2_eq (rm : Rm) : fDot2 rm a0 b0 a1 b1 c =
    if [a0, b0, a1, b1, c].any FVal.isNan then nanRes fp32 ([a0, b0, a1, b1, c].any FVal.isSnan || dotBad a0 b0 a1 b1 c)
    else if dotBad a0 b0 a1 b1 c then nanRes fp32 true
    else if dotInf a0 b0 a1 b1 c false || dotInf a0 b0 a1 b1 c true then infRes fp32 false (dotInf a0 b0 a1 b1 c true)
    else roundTo fp32 rm false (dotZeroNeg a0 b0 a1 b1 c rm) (((a0.q.mul b0.q).add (a1.q.mul b1.q)).add c.q) := by
  have hpos : ((infTerm a0 b0 && !(a0.negSign != b0.negSign)) || (infTerm a1 b1 && !(a1.negSign != b1.negSign)) || (c.isInf && !c.negSign)) =
      dotInf a0 b0 a1 b1 c false := by simp only [dotInf, inf_beq, beq_false]
  have hneg : ((infTerm a0 b0 && (a0.negSign != b0.negSign)) || (infTerm a1 b1 && (a1.negSign != b1.negSign)) || (c.isInf && c.negSign)) =
      dotInf a0 b0 a1 b1 c true := by simp only [dotInf, inf_beq, beq_true]
  have hany : ∀ p : FVal → Bool, [a0, b0, a1, b1, c].any p = (p a0 || p b0 || p a1 || p b1 || p c) := fun p => by simp [Bool.or_assoc]
  unfold fDot2
  simp only [hpos, hneg, hany, dotBad, Bool.or_assoc, Bool.and_comm (dotInf a0 b0 a1 b1 c false)]
  rfl

end

/-- Three zeros of one sign keep it (assumption 44). -/
theorem zeroSign_eq : ∀ z0 z1 zu x0 x1 k down : Bool,
    (((z0 && z1 && zu) && x0 && x1 && k) || (!((z0 && z1 && zu) && !x0 && !x1 && !k) && down)) =
      if z0 = true ∧ z1 = true ∧ zu = true ∧ x0 = x1 ∧ x0 = k then k else down := by decide

theorem isZero_mul {p q : Q} (hp : 0 < p.den) (hq : 0 < q.den) : (p.mul q).isZero = true ↔ Rational p * Rational q = 0 := by
  rw [mul_eq_zero, ← isZero_iff hp, ← isZero_iff hq]
  simp [Q.isZero, Q.mul]

theorem fDot2_dotOf (rm : Rm) {a0 b0 a1 b1 c : FVal} (hden : ∀ x ∈ [a0, b0, a1, b1, c], ∀ n q, x = .fin n q → 0 < q.den) :
    DotOf rm a0 b0 a1 b1 c (fDot2 rm a0 b0 a1 b1 c) := by
  rw [fDot2_eq]
  refine ⟨fun hn => if_pos hn, fun hn hb => ?nonan, fun hn hb n hinf => ?inf, ?fin⟩
  case nonan => exact (if_neg (by simpa using hn)).trans (if_pos hb)
  case inf =>
    have hb' : dotBad a0 b0 a1 b1 c = false := hb
    have hinf' : dotInf a0 b0 a1 b1 c n = true := hinf
    have hone : (dotInf a0 b0 a1 b1 c true && dotInf a0 b0 a1 b1 c false) = false := ((Bool.or_eq_false_iff ..).1 hb').2
    rw [hn, hb']
    cases n
    · simp_all
    · simp_all
  case fin =>
    rintro n0 p0 m0 q0 n1 p1 m1 q1 k u rfl rfl rfl rfl rfl
    simp only [List.forall_mem_cons, List.not_mem_nil, false_implies, implies_true, and_true, FVal.fin.injEq, and_imp] at hden
    obtain ⟨hp0, hq0, hp1, hq1, hu⟩ := hden
    have hsign : dotZeroNeg (.fin n0 p0) (.fin m0 q0) (.fin n1 p1) (.fin m1 q1) (.fin k u) rm = _ := zeroSign_eq ..
    have hbad : dotBad (.fin n0 p0) (.fin m0 q0) (.fin n1 p1) (.fin m1 q1) (.fin k u) = false := by
      simp [dotBad, dotInf, infTerm, FVal.isInf]
    have hinf : ∀ n, dotInf (.fin n0 p0) (.fin m0 q0) (.fin n1 p1) (.fin m1 q1) (.fin k u) n = false := fun n => by
      simp [dotInf, infTerm, FVal.isInf]
    simp only [hsign, hbad, hinf, List.any_cons, List.any_nil, FVal.isNan, FVal.isZero, FVal.negSign, FVal.q, Bool.or_self, Bool.false_eq_true,
      if_false, isZero_mul (hp0 _ _ rfl rfl) (hq0 _ _ rfl rfl), isZero_mul (hp1 _ _ rfl rfl) (hq1 _ _ rfl rfl), isZero_iff (hu _ _ rfl rfl)]

/-! ### The rows -/

/-- Settles O9. -/
theorem floatConversionResults : Obligations.FloatConversionResults := by
  unfold Obligations.FloatConversionResults
  intro x s i f hi hf
  have hn := regs_one_or_two x.ty
  refine ⟨fun hc => ?fclass, fun hc => ?frnd, fun hc => ?fscale, fun hc => ?fdot2, fun hc => ?fcvt, fun hc => ?icvtf, fun hc => ?fcvti⟩
  case fclass =>
    refine row_result rfl rfl (.inl rfl) hc hi hf fun l _ _ => ⟨rfl, fun sn h => ?_, fun n h => ?_, fun n q h => fClass_number h⟩
    · simp only [fclassOp, fClass, h]
      cases sn <;> rfl
    · simp only [fclassOp, fClass, h]
      cases n <;> rfl
  case frnd =>
    exact row_result rfl rfl hn hc hi hf fun l _ _ =>
      ⟨_, rfl, rfl, fun k => ⟨fun sn h => fRnd_nan _ _ h, fRnd_inf _ _, fun n q h => fRnd_number _ _ _ h⟩⟩
  case fscale =>
    exact row_result rfl rfl hn hc hi hf fun l _ _ =>
      ⟨_, rfl, rfl, fun k => ⟨fun sn h => fScale_nan _ _ h, fScale_special _ _ _, fun n q h hz => fScale_number _ _ _ h hz⟩⟩
  case fdot2 =>
    refine row_result rfl rfl (.inl rfl) hc hi hf fun l _ _ => ⟨_, rfl, rfl, fDot2_dotOf _ ?_⟩
    simp only [List.forall_mem_cons, List.not_mem_nil, false_implies, implies_true, and_true]
    exact ⟨fun _ _ => decode_den, fun _ _ => decode_den, fun _ _ => decode_den, fun _ _ => decode_den, fun _ _ => decode_den⟩
  case fcvt => exact row_result rfl rfl hn hc hi hf fun l _ _ => ⟨_, rfl, rfl, convertTo_convertedTo ..⟩
  case icvtf => exact row_result rfl rfl hn hc hi hf fun l _ _ => ⟨rfl, rfl⟩
  case fcvti => exact row_result rfl rfl hn hc hi hf fun l _ _ => ⟨_, rfl, fToInt_integerOf ..⟩

end Sys2Proof.Machine
end

section
/-! PROOF of O60: every register form completes (06 R124-R148, 07 R151-R158, R166-R174, 03 R70, R72). -/

namespace Sys2Proof.Machine

open Sys2Proof.Claims

/-! ### Rows that deliver a value at once -/

/-- The rows that deliver one value to each active lane, and the registers that it takes. -/
def valueRows (ty : Ty) : List (LRow × Nat) :=
  [(.iadd, ty.regs), (.isub, ty.regs), (.imul, ty.regs), (.imulh, ty.regs), (.imad, ty.regs), (.imadw, 2),
   (.ineg, ty.regs), (.iabs, ty.regs), (.imin, ty.regs), (.imax, ty.regs), (.andBits, ty.regs), (.orBits, ty.regs),
   (.xorBits, ty.regs), (.andn, ty.regs), (.notBits, ty.regs), (.shl, ty.regs), (.shr, ty.regs), (.sar, ty.regs),
   (.rotl, ty.regs), (.brev, ty.regs), (.mov, ty.regs), (.bfx, 1), (.bfi, 1), (.popc, 1), (.clz, 1), (.lea, ty.regs),
   (.sel, ty.regs), (.pmovGet, 1), (.pcnt, 1), (.pmask, 1), (.fadd, ty.regs), (.fsub, ty.regs), (.fmul, ty.regs), (.ffma, ty.regs),
   (.fmin, ty.regs), (.fmax, ty.regs), (.fclass, 1), (.frnd, ty.regs), (.fscale, ty.regs), (.fcvt, ty.regs), (.icvtf, ty.regs),
   (.fcvti, ty.regs), (.fdot2, 1), (.cvtw, 1), (.bscale, 1), (.pack, 1), (.packI4x, 1), (.unpack, 1), (.resrd, 1)]

theorem valueRows_regs (ty : Ty) : ∀ p ∈ valueRows ty, p.2 = 1 ∨ p.2 = 2 := by cases ty <;> decide

theorem valueRows_deliver (ty : Ty) : ∀ p ∈ valueRows ty, deliversValue p.1 = true := by cases ty <;> decide

/-- Each of these rows is a plain vector instruction of its number of registers. -/
theorem exec_valueRows (x : LArgs) : ∀ p ∈ valueRows x.ty, ∃ op : Issue → Nat → LaneRes, ∀ s,
    exec (p.1.instr x) s = onFlue s fun i f => runLanes i f x.guard x.d p.2 (op i) := by
  simp only [valueRows, List.forall_mem_cons, List.not_mem_nil, false_implies, implies_true, and_true]
  and_intros <;> exact ⟨_, fun _ => rfl⟩

theorem valueRow_result {x : LArgs} {s : State} {i : Issue} {f : Flue} (hi : Issuing s i f) (hf : FrameStands i f) :
    ∀ p ∈ valueRows x.ty, p.1.check x = none →
      ∃ t, exec (p.1.instr x) s = .next t ∧ LaneResult s t i f x.guard x.d p.2 fun _ _ _ => True := by
  intro p hp hc
  obtain ⟨op, hexec⟩ := exec_valueRows x p hp
  exact row_result (hexec s) (valueRows_deliver _ p hp) (valueRows_regs _ p hp) hc hi hf fun _ _ _ => trivial

/-! ### Rows that write predicates -/

theorem cmp_pred (s : State) (i : Issue) (f : Flue) (x : LArgs) (truth : Nat → Bool × FlagSet) :
    ∃ w fl, PredResult s (s.setFlue i.stove i.slot (writeCmp i f x truth)) i f x.guard w fl :=
  ⟨_, _, twoPreds_result s i f x.guard _ _ _ _ _ fun _ _ _ _ => rfl⟩

theorem predRow_result {x : LArgs} {s : State} {i : Issue} {f : Flue} (hi : Issuing s i f) :
    ∀ r ∈ [LRow.icmp, .fcmp, .plop, .mpred, .pmovSet],
      ∃ t w fl, exec (r.instr x) s = .next t ∧ PredResult s t i f x.guard w fl := by
  simp only [List.forall_mem_cons, List.not_mem_nil, false_implies, implies_true, and_true]
  refine ⟨?icmp, ?fcmp, ?plop, ?mpred, ?pmovSet⟩
  case icmp =>
    obtain ⟨w, fl, h⟩ := cmp_pred s i f x _
    exact ⟨_, w, fl, onFlue_next hi _, h⟩
  case fcmp =>
    obtain ⟨w, fl, h⟩ := cmp_pred s i f x _
    exact ⟨_, w, fl, onFlue_next hi _, h⟩
  case plop =>
    let m := lutMask x.modx (i.view.predMask (predNum x.a)) (i.view.predMask (predNum x.b)) (i.view.predMask (predNum x.c))
    refine ⟨_, fun n l => if n = predNum x.d then some (m.getLsbD l) else none, _, onFlue_next hi _,
      predWrite_quiet s i x.guard (setPred_only ..) fun n l hl => ?_⟩
    rw [pred_setPred _ _ _ _ _ _ hl]
    by_cases hn : n = predNum x.d <;> simp [hn, m, and_comm]
  case mpred => exact ⟨_, _, _, onFlue_next hi _, twoPreds_quiet s i f x.guard _ _ _ _ fun _ _ _ _ => rfl⟩
  case pmovSet =>
    let c := i.src x.lit
    refine ⟨_, fun n l => if n < 32 ∧ (c.word x.b l).getLsbD n = true then some ((c.word x.a l).getLsbD n) else none, _, onFlue_next hi _,
      predWrite_quiet s i x.guard (setPredWords_only ..) fun n l hl => ?_⟩
    rw [pred_setPredWords _ _ n hl _ _ fun a ha => ((mem_lanesOf ..).1 ha).1]
    simp only [mem_lanesOf, hl, true_and]
    by_cases hm : n < 32 ∧ (c.word x.b l).getLsbD n = true <;> simp [hm, c]

/-! ### Residues -/

theorem setResidues_only {k : Flue → Nat → Flue} (hk : ∀ g l, k g l = { g with e := (k g l).e }) (ls : List Nat) (f : Flue) :
    ls.foldl k f = { f with e := (ls.foldl k f).e } := by
  induction ls generalizing f with
  | nil => rfl
  | cons l ls ih =>
    rw [List.foldl_cons, ih, hk]

theorem reswr_result {x : LArgs} {s : State} {i : Issue} {f : Flue} (hi : Issuing s i f) :
    ∃ (t : State) (g : Flue), exec (.reswr x) s = .next t ∧ t = s.setFlue i.stove i.slot g ∧
      g = { f with e := g.e, pc := g.pc } ∧ StepsPast i f g := by
  let h := (lanesOf (i.active x.guard)).foldl (fun g l => g.setResidue (cvRes x) l ((i.src x.lit).word x.a l)) f
  have hh : h = { f with e := h.e } := setResidues_only (fun _ _ => rfl) _ f
  obtain ⟨pc, hpc⟩ := finish_only h i 0
  refine ⟨_, h.finish i 0, onFlue_next hi _, rfl, ?_, fun l hl => ?_⟩
  · rw [hpc, hh]
  · rw [pcOf_finish _ _ _ _ hl, hh]
    simp [Flue.pcOf]

theorem frameStands_of_frames {i : Issue} {f g : Flue} (hf : FrameStands i f) (h : g.frames = f.frames) : FrameStands i g := by
  unfold FrameStands
  rw [h]
  exact hf

/-- CVTN leaves residues and then delivers as a plain vector instruction. -/
theorem exec_cvtn {s : State} {i : Issue} {f : Flue} (hi : Issuing s i f) (x : LArgs) :
    ∃ (h : Flue) (op : Nat → LaneRes), exec (.cvtn x) s = .next (s.setFlue i.stove i.slot (runLanes i h x.guard x.d 1 op)) ∧
      h = { f with e := h.e } :=
  ⟨_, _, onFlue_next hi _, setResidues_only (fun _ _ => by dsimp only; split <;> rfl) _ f⟩

theorem cvtn_result {x : LArgs} {s : State} {i : Issue} {f : Flue} (hi : Issuing s i f) (hf : FrameStands i f)
    (hc : LRow.cvtn.check x = none) :
    ∃ (t : State) (h : Flue), exec (.cvtn x) s = .next t ∧ h = { f with e := h.e } ∧
      LaneResult s t i h x.guard x.d 1 fun _ _ _ => True := by
  obtain ⟨h, op, hexec, hh⟩ := exec_cvtn hi x
  have frames : h.frames = f.frames := by rw [hh]
  exact ⟨_, h, hexec, hh,
    runLanes_result s i h x.guard x.d 1 op _ (.inl rfl) (plainDest_of_check rfl hc) (frameStands_of_frames hf frames) fun _ _ _ => trivial⟩

/-! ### Results that arrive late (03 R70, R72) -/

/-- Only the first register of a `v` or `o` destination is the first. -/
theorem loc_first {view : Flue} {d : Opnd} (hd : d.latches = true) (k : Nat) : view.loc d k = view.loc d 0 ↔ k = 0 := by
  cases d <;> simp [Opnd.latches] at hd
  · unfold Flue.loc
    simp only
    split <;> simp
  · simp [Flue.loc]

theorem resultWrites_latchFirst (view : Flue) (x : LArgs) {n : Nat} (act : LaneMask) (v : Nat → DWord) (hn : n = 1 ∨ n = 2) :
    LatchesFirst view x (resultWrites view x.d n (x.f == .none) (lanesOf act) v) := by
  intro w hw
  by_cases hs : x.d.isScalar = true
  · obtain ⟨-, k, -, rfl⟩ := (mem_resultWrites_scalar hn hs).1 hw
    have hlat : x.d.latches = false := by cases hd : x.d <;> simp_all [Opnd.isScalar, Opnd.latches]
    simp [hlat]
  · obtain ⟨l, k, -, -, -, rfl⟩ := (mem_resultWrites hn (by simpa using hs)).1 hw
    by_cases hlat : x.d.latches = true
    · simp [hlat, loc_first hlat]
    · simp [hlat]

theorem resultWrites_scalar_writesOf (view : Flue) {d : Opnd} {n : Nat} (latch : Bool) {act : LaneMask} (v : Nat → DWord) (hn : n = 1 ∨ n = 2)
    (hs : d.isScalar = true) (ha : act ≠ 0) :
    WritesOf view d n (resultWrites view d n latch (lanesOf act) v) fun l => if l = 0 then some (v (lowLane act)) else none := by
  intro r l w
  simp only [mem_resultWrites_scalar hn hs]
  constructor
  · rintro ⟨y, ⟨-, k, hk, rfl⟩, rfl, rfl, rfl⟩
    exact ⟨k, hk, Nat.zero_lt_succ _, rfl, _, rfl, rfl⟩
  · rintro ⟨k, hk, -, rfl, y, hy, rfl⟩
    obtain ⟨rfl, rfl⟩ : l = 0 ∧ v (lowLane act) = y := by simpa using hy
    exact ⟨_, ⟨ha, k, hk, rfl⟩, rfl, rfl, rfl⟩

theorem resultWrites_writesOf (view : Flue) {d : Opnd} {n : Nat} (latch : Bool) (act : LaneMask) (v : Nat → DWord) (hn : n = 1 ∨ n = 2)
    (hs : d.isScalar = false) :
    WritesOf view d n (resultWrites view d n latch (lanesOf act) v) fun l => if act.getLsbD l = true then some (v l) else none := by
  intro r l w
  simp only [mem_resultWrites hn hs]
  constructor
  · rintro ⟨y, ⟨l', k, hl, ha, hk, rfl⟩, rfl, rfl, rfl⟩
    exact ⟨k, hk, hl, rfl, _, if_pos ha, rfl⟩
  · rintro ⟨k, hk, hl, rfl, y, hy, rfl⟩
    obtain ⟨ha, rfl⟩ : act.getLsbD l = true ∧ v l = y := by simpa using hy
    exact ⟨_, ⟨l, k, hl, ha, hk, rfl⟩, rfl, rfl, rfl⟩

/-- What `await` does, with or without an acting lane. -/
theorem await_awaits (f : Flue) (i : Issue) (x : LArgs) (ws : List LaneWrite) :
    f.await i x.f (i.active x.guard) ws = { f with
      flags := (f.await i x.f (i.active x.guard) ws).flags, lown := (f.await i x.f (i.active x.guard) ws).lown,
      outs := (f.await i x.f (i.active x.guard) ws).outs } ∧ Awaits i f (f.await i x.f (i.active x.guard) ws) x ws := by
  by_cases h : i.active x.guard = 0
  · rw [h, await_none]
    exact ⟨rfl, fun _ => ⟨rfl, rfl, rfl⟩, fun hn => absurd h hn⟩
  · obtain ⟨fl, lo, he, hfl, hlo⟩ := await_some f i x.f (i.active x.guard) ws [] h
    rw [he]
    exact ⟨rfl, fun h0 => absurd h0 h, fun _ => ⟨rfl, hfl, hlo⟩⟩

/-- What `runLate` does. -/
theorem runLate_result (s : State) (i : Issue) (f : Flue) (x : LArgs) (n : Nat) (op : Nat → LaneRes) (P : Nat → DWord → FlagSet → Prop)
    (hn : n = 1 ∨ n = 2) (hP : ∀ l < 32, (i.active x.guard).getLsbD l = true → P l (op l).val (op l).flags) :
    LateResult s (s.setFlue i.stove i.slot (runLate i f x.f x.guard x.d n op)) i f x n P := by
  let act := i.active x.guard
  let ws := resultWrites i.view x.d n (x.f == .none) (lanesOf act) fun l => (op l).val
  obtain ⟨honly, haw⟩ := await_awaits f i x ws
  let f1 := f.await i x.f act ws
  let f2 := f1.raiseAll (lanesOf act) fun l => (op l).flags
  have hf1 : f1 = { f with flags := f1.flags, lown := f1.lown, outs := f1.outs } := honly
  have hf2 : f2 = { f1 with fpst := f2.fpst } := raiseAll_only ..
  obtain ⟨pc, hpc⟩ := finish_only f2 i 0
  refine ⟨f2.finish i 0, fun l => (op l).val, fun l => (op l).flags, ws, rfl, ?_, fun l hl => ?_, hP, fun l hl => ?_, ?_,
    resultWrites_latchFirst i.view x act _ hn, ?_⟩
  · rw [hpc, hf2, hf1]
  · rw [pcOf_finish _ _ _ _ hl, hf2, hf1]
    simp [Flue.pcOf]
  · have h1 : (f2.finish i 0).fpst = f2.fpst := by rw [hpc]
    have h2 : f1.fpst = f.fpst := by rw [hf1]
    rw [h1, get_fpst_raiseAll _ _ _ _ (lanesOf_nodup _), h2]
    simp only [mem_lanesOf, hl, true_and]
    rfl
  · rw [hpc, hf2]
    exact haw
  · split
    case isTrue hs => exact fun ha => resultWrites_scalar_writesOf i.view _ _ hn hs ha
    case isFalse hs => exact resultWrites_writesOf i.view _ act _ hn (by simpa using hs)

theorem lateRow_result {x : LArgs} {s : State} {i : Issue} {f : Flue} (hi : Issuing s i f) :
    ∀ r ∈ [LRow.rcp, .rsq, .sqrt, .exp2, .log2, .sin, .cos, .tanh, .fdiv],
      ∃ t, exec (r.instr x) s = .next t ∧ LateResult s t i f x x.ty.regs fun _ _ _ => True := by
  have done (op : Src → Nat → LaneRes) : ∃ t, late x x.ty.regs op s = .next t ∧ LateResult s t i f x x.ty.regs fun _ _ _ => True :=
    ⟨_, onFlue_next hi _, runLate_result s i f x x.ty.regs _ _ (regs_one_or_two x.ty) fun _ _ _ => trivial⟩
  simp only [List.forall_mem_cons, List.not_mem_nil, false_implies, implies_true, and_true]
  and_intros <;> exact done _

end Sys2Proof.Machine
end

section
/-! PROOF of O60, continued: the geometric instructions and the escalation unit (07 R166-R174). -/

namespace Sys2Proof.Machine

open Sys2Proof.Claims

/-! ### The order of the escalation unit (07 R171) -/

theorem EscEntry.first_iff (a b : EscEntry) : a.first b = true ↔
    a.key < b.key ∨ a.key = b.key ∧ (a.slot < b.slot ∨ a.slot = b.slot ∧ a.lane < b.lane) := by
  simp [EscEntry.first]

theorem EscEntry.first_false_iff (a b : EscEntry) : a.first b = false ↔
    ¬(a.key < b.key ∨ a.key = b.key ∧ (a.slot < b.slot ∨ a.slot = b.slot ∧ a.lane < b.lane)) := by
  rw [← EscEntry.first_iff, Bool.not_eq_true]

theorem insertEsc_perm (e : EscEntry) (q : List EscEntry) : (insertEsc e q).Perm (e :: q) := by
  induction q with
  | nil => exact .refl _
  | cons y q ih =>
    unfold insertEsc
    split
    · exact .refl _
    · exact (ih.cons y).trans (.swap ..)

/-- No entry of the unit goes before an earlier one. -/
def EscOrdered (q : List EscEntry) : Prop := q.Pairwise fun a b => b.first a = false

theorem insertEsc_ordered {q : List EscEntry} (e : EscEntry) (h : EscOrdered q) : EscOrdered (insertEsc e q) := by
  unfold EscOrdered at *
  induction q with
  | nil => exact List.pairwise_singleton ..
  | cons y q ih =>
    obtain ⟨hy, hq⟩ := List.pairwise_cons.1 h
    unfold insertEsc
    split
    case isTrue he =>
      refine List.pairwise_cons.2 ⟨fun b hb => ?_, h⟩
      rw [EscEntry.first_iff] at he
      rw [EscEntry.first_false_iff]
      rcases List.mem_cons.1 hb with rfl | hb
      · omega
      · have := (EscEntry.first_false_iff ..).1 (hy b hb)
        omega
    case isFalse he =>
      refine List.pairwise_cons.2 ⟨fun b hb => ?_, ih hq⟩
      rcases List.mem_cons.1 ((insertEsc_perm e q).mem_iff.1 hb) with rfl | hb
      · simpa using he
      · exact hy b hb

/-- The unit's queue with the entries put in. -/
def insertAll (q es : List EscEntry) : List EscEntry := es.foldl (fun t e => insertEsc e t) q

theorem insertAll_perm (q es : List EscEntry) : (insertAll q es).Perm (q ++ es) := by
  unfold insertAll
  induction es generalizing q with
  | nil => simp
  | cons e es ih => exact (ih _).trans (((insertEsc_perm e q).append_right es).trans List.perm_middle.symm)

theorem insertAll_ordered {q : List EscEntry} (es : List EscEntry) (h : EscOrdered q) : EscOrdered (insertAll q es) := by
  unfold insertAll
  induction es generalizing q with
  | nil => exact h
  | cons e es ih => exact ih (insertEsc_ordered e h)

theorem escalate_eq (s : State) (n : Nat) (es : List EscEntry) :
    s.escalate n es = s.setStove n { s.stove n with esc := insertAll (s.stove n).esc es } := rfl

/-- Nothing put in, nothing changed. -/
theorem setFlue_escalate_nil (s : State) (n m : Nat) (g : Flue) : (s.escalate n []).setFlue n m g = s.setFlue n m g := by
  have hst : (s.escalate n []).stove n = s.stove n := by rw [escalate_eq, State.stove_setStove, if_pos rfl]; rfl
  rw [State.setFlue, hst, escalate_eq, setStove_setStove, State.setFlue]

/-! ### The last lane of a mask -/

theorem lanesOf_sorted (m : LaneMask) : (lanesOf m).Pairwise (· < ·) := List.pairwise_lt_range.filter _

theorem le_getLastD {ls : List Nat} (h : ls.Pairwise (· < ·)) {l : Nat} (hl : l ∈ ls) : l ≤ ls.getLastD 0 := by
  have hne : ls ≠ [] := List.ne_nil_of_mem hl
  have hlast : ls.getLastD 0 = ls.getLast hne := by rw [List.getLastD_eq_getLast?, List.getLast?_eq_some_getLast hne]; rfl
  rw [hlast]
  exact (h.imp Nat.le_of_lt).rel_getLast hl

theorem getLastD_mem {ls : List Nat} (h : ls ≠ []) : ls.getLastD 0 ∈ ls := by
  have hlast : ls.getLastD 0 = ls.getLast h := by rw [List.getLastD_eq_getLast?, List.getLast?_eq_some_getLast h]; rfl
  rw [hlast]
  exact List.getLast_mem h

/-! ### Elements that do not go to the latch -/

theorem writeAll_keeps_latch {ws : List LaneWrite} (f : Flue) (h : ∀ w ∈ ws, w.toLatch = false) :
    (f.writeAll ws).l = f.l ∧ (f.writeAll ws).lown = f.lown := by
  unfold Flue.writeAll
  induction ws generalizing f with
  | nil => exact ⟨rfl, rfl⟩
  | cons w ws ih =>
    have hw : f.write1 w = f.writeLoc w.loc w.lane w.val := by simp [Flue.write1, h w List.mem_cons_self]
    have hloc : (f.writeLoc w.loc w.lane w.val).l = f.l ∧ (f.writeLoc w.loc w.lane w.val).lown = f.lown := by
      cases w.loc
      case p n => simp only [Flue.writeLoc]; rw [setPred_only]; exact ⟨rfl, rfl⟩
      all_goals exact ⟨rfl, rfl⟩
    rw [List.foldl_cons, hw, ← hloc.1, ← hloc.2]
    exact ih _ fun y hy => h y (List.mem_cons_of_mem _ hy)

/-- A location in a frame, the handler frame or the outbox, or none. -/
def RegLoc.perLane : RegLoc → Bool
  | .s _ => false
  | .p _ => false
  | _ => true

theorem writeAll_keeps_shared {ws : List LaneWrite} (f : Flue) (h : ∀ w ∈ ws, w.loc.perLane = true) :
    (f.writeAll ws).s = f.s ∧ (f.writeAll ws).p = f.p := by
  unfold Flue.writeAll
  induction ws generalizing f with
  | nil => exact ⟨rfl, rfl⟩
  | cons w ws ih =>
    have hw : (f.write1 w).s = f.s ∧ (f.write1 w).p = f.p := by
      have hloc := h w List.mem_cons_self
      unfold Flue.write1
      cases hw : w.loc <;> simp_all [RegLoc.perLane, Flue.writeLoc] <;> split <;> exact ⟨rfl, rfl⟩
    rw [List.foldl_cons, ← hw.1, ← hw.2]
    exact ih _ fun y hy => h y (List.mem_cons_of_mem _ hy)

theorem claimLatch_none {ws : List LaneWrite} (f : Flue) (seed : Nat) (h : ∀ w ∈ ws, w.toLatch = false) : f.claimLatch seed ws = f := by
  have : ws.filter (fun w => w.toLatch) = [] := List.filter_eq_nil_iff.2 fun w hw => by simp [h w hw]
  rw [Flue.claimLatch, this]
  rfl

/-- With F not 00 a result of elements that do not go to the latch is outstanding, and the flag counts it. -/
theorem await_flagged {ws : List LaneWrite} (f : Flue) (i : Issue) {x : FSel} {m : LaneMask} (hx : x ≠ .none) (hm : m ≠ 0)
    (h : ∀ w ∈ ws, w.toLatch = false) :
    f.await i x m ws = { f.setFlag (i.flag x) with outs := f.outs ++ [{ flag := i.flag x, writes := ws, seed := i.seed }] } := by
  have hflag : (i.flag x).isNone = false := by
    cases x
    case none => exact absurd rfl hx
    all_goals rfl
  unfold Flue.await
  rw [if_neg hm]
  simp only [claimLatch_none _ _ h, hflag]
  rfl

end Sys2Proof.Machine
end

section
/-! PROOF of O60, continued: what a geometric instruction does (07 R169-R174). -/

namespace Sys2Proof.Machine

open Sys2Proof.Claims

/-! ### A geometric instruction, by what its lanes find -/

/-- What a lane finds: its word and the stage that resolves it; none for coordinates that are not finite and raise. -/
def geomFound (x : LArgs) (na nb : Nat) (op : Bool → List Q → GRes) (c : Src) (l : Nat) : Option (Word × Nat) :=
  match coords c x.a x.ty na l, coords c x.b x.ty nb l with
  | some a, some b => let r := op (x.modx.getLsbD 0) (a ++ b); some (BitVec.ofInt 32 r.1, r.2)
  | _, _ => if x.modx.getLsbD 1 then some (0x80000000#32, 0) else none

theorem geomFound_eq (x : LArgs) (na nb : Nat) (op : Bool → List Q → GRes) (c : Src) (l : Nat) :
    geomFound x na nb op c l = (geomValue x na nb op c l).map fun r => (BitVec.ofInt 32 r.1, r.2) := by
  unfold geomFound geomValue
  cases coords c x.a x.ty na l <;> cases coords c x.b x.ty nb l <;> cases x.modx.getLsbD 1 <;> rfl

/-- The lanes with what they find. -/
def geomLanes (act : LaneMask) (found : Nat → Option (Word × Nat)) : List (Nat × Option (Word × Nat)) :=
  (lanesOf act).map fun l => (l, found l)
/-- The lanes that find nothing. -/
def geomBad (act : LaneMask) (found : Nat → Option (Word × Nat)) : LaneMask :=
  maskOf fun l => (geomLanes act found).any fun r => r.1 == l && r.2.isNone
/-- The lanes that stage 0 does not resolve. -/
def geomEsc (act : LaneMask) (found : Nat → Option (Word × Nat)) : LaneMask :=
  maskOf fun l => (geomLanes act found).any fun r => r.1 == l && (r.2.map (·.2)).getD 0 != 0
/-- The results go to the latch along with the register. -/
def geomLatch (i : Issue) (x : LArgs) (found : Nat → Option (Word × Nat)) : Bool :=
  x.f == .none && (geomEsc (i.active x.guard) found == 0 || laneCount i.lanes == 1)
/-- The elements of the results of the lanes of a mask. -/
def geomWrites (i : Issue) (x : LArgs) (found : Nat → Option (Word × Nat)) (m : LaneMask) : List LaneWrite :=
  (((geomLanes (i.active x.guard) found).filter fun r => m.getLsbD r.1).map fun r =>
    match r.2 with
    | some v => destWrites i.view x.d (geomLatch i x found) r.1 0 [v.1]
    | none => []).flatten

/-- The entries of the lanes that wait at the instruction. -/
def geomWaiting (i : Issue) (x : LArgs) (found : Nat → Option (Word × Nat)) (key : Nat) : List EscEntry :=
  (lanesOf (geomEsc (i.active x.guard) found)).map fun l => ⟨i.slot, l, geomWrites i x found (laneBit l), none, some i.next, key, i.seed⟩
/-- The entries of the lanes that a flag counts, which falls with the last. -/
def geomCounted (i : Issue) (x : LArgs) (found : Nat → Option (Word × Nat)) (key : Nat) : List EscEntry :=
  let last := (lanesOf (geomEsc (i.active x.guard) found)).getLastD 0
  (lanesOf (geomEsc (i.active x.guard) found)).map fun l => ⟨i.slot, l, [], if l = last then i.flag x.f else none, none, key, i.seed⟩

/-- The flue after a geometric instruction with F = 00. -/
def geomHeld (i : Issue) (f : Flue) (x : LArgs) (found : Nat → Option (Word × Nat)) : Flue :=
  let bad := geomBad (i.active x.guard) found
  let esc := geomEsc (i.active x.guard) found
  let g1 := (f.raise i cGEOMNF bad).writeAll (geomWrites i x found (~~~esc))
  let stay := esc ||| (if f.phase = .handler then 0 else bad)
  { g1.setPc (i.lanes &&& ~~~stay) i.next with escLanes := g1.escLanes ||| esc, escs := g1.escs + laneCount esc }

/-- The flue after one with F not 00 and no lane that escalates. -/
def geomAwaited (i : Issue) (f : Flue) (x : LArgs) (found : Nat → Option (Word × Nat)) : Flue :=
  let act := i.active x.guard
  let bad := geomBad act found
  ((f.raise i cGEOMNF bad).await i x.f (act &&& ~~~bad) (geomWrites i x found (~~~geomEsc act found))).finish i bad

/-- The flue after one with F not 00 and lanes that escalate. -/
def geomFlagged (i : Issue) (f : Flue) (x : LArgs) (found : Nat → Option (Word × Nat)) : Flue :=
  let bad := geomBad (i.active x.guard) found
  let esc := geomEsc (i.active x.guard) found
  let g := f.raise i cGEOMNF bad
  { (g.setFlag (i.flag x.f)).finish i bad with
    escs := g.escs + laneCount esc
    outs := g.outs ++ [{ writes := geomWrites i x found (~~~esc) ++ geomWrites i x found esc, seed := i.seed }] }

/-- The state after a geometric instruction. -/
def geomState (s : State) (i : Issue) (f : Flue) (x : LArgs) (found : Nat → Option (Word × Nat)) (key : Nat) : State :=
  if x.f == .none then (s.escalate i.stove (geomWaiting i x found key)).setFlue i.stove i.slot (geomHeld i f x found)
  else if geomEsc (i.active x.guard) found = 0 then s.setFlue i.stove i.slot (geomAwaited i f x found)
  else (s.escalate i.stove (geomCounted i x found key)).setFlue i.stove i.slot (geomFlagged i f x found)

theorem geom_next {s : State} {i : Issue} {f : Flue} (hi : Issuing s i f) (x : LArgs) (na nb : Nat) (lat : Nat × Nat)
    (op : Bool → List Q → GRes) : ∃ key, geom x na nb lat op s = .next (geomState s i f x (geomFound x na nb op (i.src x.lit)) key) :=
  ⟨(s.hearth (hearthOf i.stove)).cycles.toNat + (if x.ty == .f64 then lat.2 else lat.1), onIssue_next hi _⟩

/-! ### The masks and the elements -/

section
variable {act : LaneMask} {found : Nat → Option (Word × Nat)}

theorem geomLanes_any (p : Option (Word × Nat) → Bool) {l : Nat} (hl : l < 32) :
    ((geomLanes act found).any fun r => r.1 == l && p r.2) = (act.getLsbD l && p (found l)) := by
  rw [Bool.eq_iff_iff]
  simp only [geomLanes, List.any_map, List.any_eq_true, mem_lanesOf, Function.comp_apply, Bool.and_eq_true, beq_iff_eq]
  constructor
  · rintro ⟨a, ⟨-, ha⟩, rfl, hp⟩
    exact ⟨ha, hp⟩
  · rintro ⟨ha, hp⟩
    exact ⟨l, ⟨hl, ha⟩, rfl, hp⟩

theorem geomBad_eq : geomBad act found = maskOf fun l => act.getLsbD l && (found l).isNone :=
  maskOf_congr fun _ hl => geomLanes_any (fun r => r.isNone) hl

theorem geomEsc_eq : geomEsc act found = maskOf fun l => act.getLsbD l && ((found l).map (·.2)).getD 0 != 0 :=
  maskOf_congr fun _ hl => geomLanes_any (fun r => (r.map (·.2)).getD 0 != 0) hl

theorem getLsbD_geomBad {l : Nat} (hl : l < 32) : (geomBad act found).getLsbD l = (act.getLsbD l && (found l).isNone) := by
  rw [geomBad_eq, maskOf_getLsbD, decide_eq_true hl, Bool.true_and]

/-- A lane that escalates acts and finds a word. -/
theorem escalates_found {l : Nat} (h : (geomEsc act found).getLsbD l = true) : act.getLsbD l = true ∧ ∃ v, found l = some v := by
  rw [geomEsc_eq, maskOf_getLsbD] at h
  cases hf : found l with
  | none => simp [hf] at h
  | some v =>
    simp only [Bool.and_eq_true] at h
    exact ⟨h.2.1, v, rfl⟩

end

section
variable {i : Issue} {x : LArgs} {found : Nat → Option (Word × Nat)}

theorem mem_geomWrites {m : LaneMask} {w : LaneWrite} : w ∈ geomWrites i x found m ↔
    ∃ l < 32, (i.active x.guard).getLsbD l = true ∧ m.getLsbD l = true ∧ ∃ v, found l = some v ∧
      w = ⟨i.view.loc x.d 0, l, v.1, geomLatch i x found && x.d.latches⟩ := by
  unfold geomWrites geomLanes
  simp only [List.mem_flatten, List.mem_map, List.mem_filter, mem_lanesOf, exists_exists_and_eq_and]
  constructor
  · rintro ⟨r, ⟨⟨l, ⟨hl, ha⟩, rfl⟩, hm⟩, hw⟩
    dsimp only at hw hm
    cases hf : found l with
    | none => simp [hf] at hw
    | some v =>
      refine ⟨l, hl, ha, hm, v, hf, ?_⟩
      simpa [hf, destWrites] using hw
  · rintro ⟨l, hl, ha, hm, v, hf, rfl⟩
    exact ⟨_, ⟨⟨l, ⟨hl, ha⟩, rfl⟩, hm⟩, by simp [hf, destWrites]⟩

end

end Sys2Proof.Machine
end

section
/-! PROOF of O60, continued: what lanes find, and the elements of their results (07 R169, R170). -/

namespace Sys2Proof.Machine

open Sys2Proof.Claims

/-! ### What lanes find, by the result that it stands for -/

/-- The word of a predicate's sign, with the stage. -/
def geomWord (val : Nat → Option GRes) (l : Nat) : Option (Word × Nat) := (val l).map fun r => (BitVec.ofInt 32 r.1, r.2)

/-- The value that a lane delivers. -/
def geomOut (val : Nat → Option GRes) (l : Nat) : Option DWord := (val l).map fun r => (BitVec.ofInt 32 r.1).setWidth 64

theorem geomBad_word (act : LaneMask) (val : Nat → Option GRes) :
    geomBad act (geomWord val) = maskOf fun l => act.getLsbD l && (val l).isNone := by
  simp only [geomBad_eq, geomWord, Option.isNone_map]

theorem geomEsc_word (act : LaneMask) (val : Nat → Option GRes) :
    geomEsc act (geomWord val) = maskOf fun l => act.getLsbD l && ((val l).map (·.2)).getD 0 != 0 := by
  simp only [geomEsc_eq, geomWord, Option.map_map, Function.comp_def]

/-- The acting lanes that find something. -/
def geomGood (act : LaneMask) (val : Nat → Option GRes) : LaneMask := act &&& ~~~geomBad act (geomWord val)

theorem getLsbD_geomGood {act : LaneMask} {val : Nat → Option GRes} {l : Nat} (hl : l < 32) :
    (geomGood act val).getLsbD l = (act.getLsbD l && (val l).isSome) := by
  simp only [geomGood, BitVec.getLsbD_and, BitVec.getLsbD_not, getLsbD_geomBad hl, geomWord, Option.isNone_map, hl, decide_true, Bool.true_and]
  cases act.getLsbD l <;> cases val l <;> rfl

theorem geomGood_iff {act : LaneMask} {val : Nat → Option GRes} {l : Nat} (hl : l < 32) :
    (geomGood act val).getLsbD l = true ↔ act.getLsbD l = true ∧ ∃ r, val l = some r := by
  rw [getLsbD_geomGood hl, Bool.and_eq_true, Option.isSome_iff_exists]

theorem geomEsc_good {act : LaneMask} {val : Nat → Option GRes} {l : Nat} (h : (geomEsc act (geomWord val)).getLsbD l = true) :
    (geomGood act val).getLsbD l = true := by
  obtain ⟨ha, v, hv⟩ := escalates_found h
  obtain ⟨r, hr, -⟩ := Option.map_eq_some_iff.1 hv
  exact (geomGood_iff (BitVec.lt_of_getLsbD h)).2 ⟨ha, r, hr⟩

theorem wordAt_setWidth (w : Word) : wordAt (w.setWidth 64) 0 = w := by
  simp [wordAt]

/-! ### The elements -/

section
variable {i : Issue} {x : LArgs} {val : Nat → Option GRes}

theorem mem_geomWrites_word {m : LaneMask} {w : LaneWrite} : w ∈ geomWrites i x (geomWord val) m ↔
    ∃ l < 32, (i.active x.guard).getLsbD l = true ∧ m.getLsbD l = true ∧ ∃ r, val l = some r ∧
      w = ⟨i.view.loc x.d 0, l, BitVec.ofInt 32 r.1, geomLatch i x (geomWord val) && x.d.latches⟩ := by
  simp only [mem_geomWrites, geomWord, Option.map_eq_some_iff, exists_exists_and_eq_and]

theorem geomWrites_lane {m : LaneMask} : ∀ w ∈ geomWrites i x (geomWord val) m, w.lane < 32 := by
  intro w hw
  obtain ⟨l, hl, -, -, r, -, rfl⟩ := mem_geomWrites_word.1 hw
  exact hl

theorem geomWrites_loc {m : LaneMask} : ∀ w ∈ geomWrites i x (geomWord val) m, w.loc = i.view.loc x.d 0 := by
  intro w hw
  obtain ⟨l, -, -, -, r, -, rfl⟩ := mem_geomWrites_word.1 hw
  rfl

theorem geomWrites_noLatch {m : LaneMask} (h : geomLatch i x (geomWord val) = false) :
    ∀ w ∈ geomWrites i x (geomWord val) m, w.toLatch = false := by
  intro w hw
  obtain ⟨l, -, -, -, r, -, rfl⟩ := mem_geomWrites_word.1 hw
  simp [h]

/-- The elements are the results of the lanes of the mask. -/
theorem geomWrites_writesOf (m : LaneMask) : WritesOf i.view x.d 1 (geomWrites i x (geomWord val) m) fun l =>
    if (i.active x.guard).getLsbD l = true ∧ m.getLsbD l = true then geomOut val l else none := by
  intro r l w
  simp only [mem_geomWrites_word]
  constructor
  · rintro ⟨y, ⟨l', hl, ha, hm, v, hv, rfl⟩, rfl, rfl, rfl⟩
    exact ⟨0, Nat.one_pos, hl, rfl, _, (if_pos ⟨ha, hm⟩).trans (congrArg _ hv), (wordAt_setWidth _).symm⟩
  · rintro ⟨j, hj, hl, rfl, y, hy, rfl⟩
    obtain rfl : j = 0 := by omega
    split at hy
    case isTrue h =>
      obtain ⟨v, hv, rfl⟩ := Option.map_eq_some_iff.1 hy
      exact ⟨_, ⟨l, hl, h.1, h.2, v, hv, rfl⟩, rfl, rfl, (wordAt_setWidth _).symm⟩
    case isFalse h => cases hy

theorem writesOf_congr {view : Flue} {d : Opnd} {n : Nat} {ws : List LaneWrite} {u v : Nat → Option DWord} (h : WritesOf view d n ws u)
    (e : ∀ l < 32, u l = v l) : WritesOf view d n ws v := by
  intro r l w
  rw [h r l w]
  refine exists_congr fun j => and_congr_right fun _ => and_congr_right fun hl => ?_
  rw [e l hl]

/-- Elements of two parts of the lanes together. -/
theorem writesOf_append {view : Flue} {d : Opnd} {n : Nat} {ws ys : List LaneWrite} {u v : Nat → Option DWord} (hu : WritesOf view d n ws u)
    (hv : WritesOf view d n ys v) (e : ∀ l, u l = none ∨ v l = none) : WritesOf view d n (ws ++ ys) fun l => (u l).or (v l) := by
  intro r l w
  have hor : (∃ y ∈ ws ++ ys, y.loc = r ∧ y.lane = l ∧ y.val = w) ↔
      (∃ y ∈ ws, y.loc = r ∧ y.lane = l ∧ y.val = w) ∨ ∃ y ∈ ys, y.loc = r ∧ y.lane = l ∧ y.val = w := by
    simp only [List.mem_append, or_and_right, exists_or]
  rw [hor, hu r l w, hv r l w]
  rcases e l with h | h <;> simp [h]

end

end Sys2Proof.Machine
end

section
/-! PROOF of O60, continued: the entries of the escalation unit, and the results that are written at once (07 R169-R172). -/

namespace Sys2Proof.Machine

open Sys2Proof.Claims

/-! ### The entries of the unit -/

section
variable {i : Issue} {x : LArgs} {val : Nat → Option GRes}

theorem geomWaiting_lanes (found : Nat → Option (Word × Nat)) (key : Nat) :
    (geomWaiting i x found key).map (·.lane) = lanesOf (geomEsc (i.active x.guard) found) := by
  simp [geomWaiting, Function.comp_def]

theorem geomCounted_lanes (found : Nat → Option (Word × Nat)) (key : Nat) :
    (geomCounted i x found key).map (·.lane) = lanesOf (geomEsc (i.active x.guard) found) := by
  simp [geomCounted, Function.comp_def]

/-- A lane that waits at the instruction takes its result and steps. -/
theorem geomWaiting_entry (key : Nat) : ∀ e ∈ geomWaiting i x (geomWord val) key, e.slot = i.slot ∧ e.seed = i.seed ∧
    e.step = some i.next ∧ e.flag = none ∧ WritesOf i.view x.d 1 e.writes fun l => if l = e.lane then geomOut val l else none := by
  intro e he
  obtain ⟨l, hl, rfl⟩ := List.mem_map.1 he
  obtain ⟨hl, hesc⟩ := (mem_lanesOf ..).1 hl
  refine ⟨rfl, rfl, rfl, rfl, writesOf_congr (geomWrites_writesOf (laneBit l)) fun k _ => ?_⟩
  refine if_congr ?_ rfl rfl
  rw [laneBit_getLsbD _ _ hl, decide_eq_true_eq]
  refine ⟨And.right, ?_⟩
  rintro rfl
  exact ⟨(escalates_found hesc).1, rfl⟩

/-- The flag falls with the last lane. -/
theorem geomCounted_entry (found : Nat → Option (Word × Nat)) (key : Nat) : ∀ e ∈ geomCounted i x found key,
    let esc := geomEsc (i.active x.guard) found
    e.slot = i.slot ∧ e.seed = i.seed ∧ e.step = none ∧ e.writes = [] ∧
      ((∀ l, esc.getLsbD l = true → l ≤ e.lane) → e.flag = i.flag x.f) ∧ ((∃ l, esc.getLsbD l = true ∧ e.lane < l) → e.flag = none) := by
  intro e he
  obtain ⟨a, ha, rfl⟩ := List.mem_map.1 he
  have hle {l : Nat} (h : (geomEsc (i.active x.guard) found).getLsbD l = true) : l ≤ (lanesOf (geomEsc (i.active x.guard) found)).getLastD 0 :=
    le_getLastD (lanesOf_sorted _) ((mem_lanesOf ..).2 ⟨BitVec.lt_of_getLsbD h, h⟩)
  refine ⟨rfl, rfl, rfl, rfl, fun hmax => if_pos (Nat.le_antisymm (hle ((mem_lanesOf ..).1 ha).2) (hmax _ ?_)), fun ⟨l, hl, hlt⟩ => if_neg ?_⟩
  · exact ((mem_lanesOf ..).1 (getLastD_mem (List.ne_nil_of_mem ha))).2
  · have := hle hl
    dsimp only at hlt
    omega

end

/-! ### F = 00: results are written at once -/

/-- The flue with the cause held and the results of the lanes that stage 0 resolves written. -/
def geomDone (i : Issue) (f : Flue) (x : LArgs) (found : Nat → Option (Word × Nat)) : Flue :=
  (f.raise i cGEOMNF (geomBad (i.active x.guard) found)).writeAll (geomWrites i x found (~~~geomEsc (i.active x.guard) found))

section
variable {i : Issue} {f : Flue} {x : LArgs} {val : Nat → Option GRes}

theorem raise_sameRegs (f : Flue) (i : Issue) (c : Nat) (m : LaneMask) : SameRegs f (f.raise i c m) := by
  obtain ⟨t, ht⟩ := raise_only f i c m
  rw [ht]
  exact ⟨rfl, rfl, rfl, rfl, rfl⟩

theorem geomDone_only (found : Nat → Option (Word × Nat)) : geomDone i f x found = { f.withRegs (geomDone i f x found) with
    pending := (f.raise i cGEOMNF (geomBad (i.active x.guard) found)).pending } := by
  obtain ⟨t, ht⟩ := raise_only f i cGEOMNF (geomBad (i.active x.guard) found)
  conv_lhs => rw [geomDone, writeAll_withRegs, ht]
  rw [geomDone, ht]
  rfl

theorem geomDone_shape (found : Nat → Option (Word × Nat)) : (geomDone i f x found).frames.map Frame.shape = f.frames.map Frame.shape := by
  rw [geomDone, writeAll_shape, (raise_sameRegs ..).1]

theorem geomDone_shared (hd : (i.view.loc x.d 0).perLane = true) :
    (geomDone i f x (geomWord val)).s = f.s ∧ (geomDone i f x (geomWord val)).p = f.p := by
  obtain ⟨-, -, -, hs, hp⟩ := raise_sameRegs f i cGEOMNF (geomBad (i.active x.guard) (geomWord val))
  rw [← hs, ← hp]
  exact writeAll_keeps_shared _ fun w hw => by rw [geomWrites_loc w hw, hd]

/-- The lanes that deliver at once. -/
theorem mem_geomWrites_now {w : LaneWrite} :
    w ∈ geomWrites i x (geomWord val) (~~~geomEsc (i.active x.guard) (geomWord val)) ↔
    ∃ l < 32, (i.active x.guard).getLsbD l = true ∧ (geomEsc (i.active x.guard) (geomWord val)).getLsbD l = false ∧ ∃ r, val l = some r ∧
      w = ⟨i.view.loc x.d 0, l, BitVec.ofInt 32 r.1, geomLatch i x (geomWord val) && x.d.latches⟩ := by
  rw [mem_geomWrites_word]
  refine exists_congr fun l => and_congr_right fun hl => and_congr_right fun _ => and_congr_left' ?_
  simp [hl]

theorem geomDone_keeps : Claims.KeepsOthers i f (geomDone i f x (geomWord val)) x.d 1
    (geomGood (i.active x.guard) val &&& ~~~geomEsc (i.active x.guard) (geomWord val)) := by
  intro r l hl hno
  rw [geomDone, readLoc_writeAll_other _ _ _ _ hl geomWrites_lane, (raise_sameRegs ..).readLoc]
  intro w hw
  obtain ⟨k, hk, ha, he, v, hv, rfl⟩ := mem_geomWrites_now.1 hw
  refine hno 0 Nat.one_pos k hk ?_
  rw [BitVec.getLsbD_and, (geomGood_iff hk).2 ⟨ha, v, hv⟩, BitVec.getLsbD_not, he]
  simp [hk]

theorem geomDone_delivers (hd : plainDest x.d = true) (hs : x.d.isScalar = false) (hf : FrameStands i f) {l : Nat} (hl : l < 32)
    (ha : (i.active x.guard).getLsbD l = true) (he : (geomEsc (i.active x.guard) (geomWord val)).getLsbD l = false)
    (hreal : (i.view.loc x.d 0).isReal = true) {r : GRes} (hr : val l = some r) :
    (geomDone i f x (geomWord val)).readLoc (i.view.loc x.d 0) l = BitVec.ofInt 32 r.1 := by
  have hroom : (f.raise i cGEOMNF (geomBad (i.active x.guard) (geomWord val))).hasLoc (i.view.loc x.d 0) = true := by
    cases hx : x.d
    case v n =>
      simp only [Flue.loc]
      split
      · rfl
      · rw [Flue.hasLoc, (raise_sameRegs ..).1]
        exact hf ‹_›
    all_goals rfl
  refine readLoc_writeAll_hit _ _ _ _ _ hl geomWrites_lane hroom
    ⟨_, mem_geomWrites_now.2 ⟨l, hl, ha, he, r, hr, rfl⟩, hits_self _ _ _ _ hreal⟩ ?_
  intro w hw hhit
  obtain ⟨k, -, -, -, v, hv, rfl⟩ := mem_geomWrites_now.1 hw
  obtain ⟨rfl, -⟩ := hits_of_loc hs hreal hhit
  rw [holds_of_plain hd, Option.some.inj (hv.symm.trans hr)]

theorem geomDone_keeps_latch (h : geomLatch i x (geomWord val) = false) :
    (geomDone i f x (geomWord val)).l = f.l ∧ (geomDone i f x (geomWord val)).lown = f.lown := by
  obtain ⟨t, ht⟩ := raise_only f i cGEOMNF (geomBad (i.active x.guard) (geomWord val))
  have := writeAll_keeps_latch (f.raise i cGEOMNF (geomBad (i.active x.guard) (geomWord val)))
    (geomWrites_noLatch (m := ~~~geomEsc (i.active x.guard) (geomWord val)) h)
  rw [geomDone]
  rwa [ht] at this ⊢

theorem geomDone_latched (hx : x.f = .none) (he : geomEsc (i.active x.guard) (geomWord val) = 0) :
    Latched f (geomDone i f x (geomWord val)) x.d (geomGood (i.active x.guard) val) fun l => (geomOut val l).getD 0 := by
  intro l hl
  obtain ⟨t, ht⟩ := raise_only f i cGEOMNF (geomBad (i.active x.guard) (geomWord val))
  have hlatch : geomLatch i x (geomWord val) = true := by simp [geomLatch, hx, he]
  have taken : (∃ w ∈ geomWrites i x (geomWord val) (~~~geomEsc (i.active x.guard) (geomWord val)), w.toLatch = true ∧ w.lane = l) ↔
      (geomGood (i.active x.guard) val).getLsbD l = true ∧ x.d.latches = true := by
    rw [geomGood_iff hl]
    constructor
    · rintro ⟨w, hw, hto, rfl⟩
      obtain ⟨k, -, ha, -, r, hr, rfl⟩ := mem_geomWrites_now.1 hw
      exact ⟨⟨ha, r, hr⟩, by simpa [hlatch] using hto⟩
    · rintro ⟨⟨ha, r, hr⟩, hlat⟩
      exact ⟨_, mem_geomWrites_now.2 ⟨l, hl, ha, by simp [he], r, hr, rfl⟩, by simp [hlatch, hlat], rfl⟩
  have agree : ∀ w ∈ geomWrites i x (geomWord val) (~~~geomEsc (i.active x.guard) (geomWord val)), w.toLatch = true → w.lane = l →
      w.val = wordAt ((geomOut val l).getD 0) 0 := by
    rintro w hw - rfl
    obtain ⟨k, -, -, -, r, hr, rfl⟩ := mem_geomWrites_now.1 hw
    simp [geomOut, hr, wordAt_setWidth]
  dsimp only
  rw [geomDone, get_l_writeAll _ _ _ _ agree, get_lown_writeAll, ht]
  simp only [taken, and_self]

end

end Sys2Proof.Machine
end

section
/-! PROOF of O60, continued: how a geometric instruction ends with each F (07 R169-R174). -/

namespace Sys2Proof.Machine

open Sys2Proof.Claims

/-! ### The three ends -/

section
variable {i : Issue} {f : Flue} {x : LArgs} {val : Nat → Option GRes}

/-- Lanes that step past: those of the group but the failing ones outside handler mode and those that wait for the unit. -/
theorem pcOf_geomHeld {l : Nat} (hl : l < 32) : (geomHeld i f x (geomWord val)).pcOf l =
    if i.lanes.getLsbD l = true ∧ ((geomBad (i.active x.guard) (geomWord val)).getLsbD l = true → f.phase = .handler) ∧
      (geomEsc (i.active x.guard) (geomWord val)).getLsbD l = false then i.next else f.pcOf l := by
  have hpc : (geomDone i f x (geomWord val)).pcOf l = f.pcOf l := by
    rw [geomDone_only]
    rfl
  refine (pcOf_setPc (geomDone i f x (geomWord val)) _ _ l).trans ?_
  rw [hpc]
  refine if_congr ?_ rfl rfl
  rw [BitVec.getLsbD_and, BitVec.getLsbD_not, BitVec.getLsbD_or]
  by_cases hp : f.phase = .handler
  · simp [hl, hp]
  · simp [hl, hp, and_comm]

/-- All that changes. -/
theorem geomHeld_only (hd : (i.view.loc x.d 0).perLane = true) : ∃ pc, geomHeld i f x (geomWord val) =
    let d := geomDone i f x (geomWord val)
    { f with pc := pc, frames := d.frames, hframe := d.hframe, o := d.o, l := d.l, lown := d.lown
             pending := (f.raise i cGEOMNF (geomBad (i.active x.guard) (geomWord val))).pending
             escLanes := f.escLanes ||| geomEsc (i.active x.guard) (geomWord val)
             escs := f.escs + laneCount (geomEsc (i.active x.guard) (geomWord val)) } := by
  obtain ⟨hs, hp⟩ := geomDone_shared (f := f) (val := val) hd
  have hdone := geomDone_only (i := i) (f := f) (x := x) (geomWord val)
  have held : geomHeld i f x (geomWord val) = { geomDone i f x (geomWord val) with
      pc := (geomHeld i f x (geomWord val)).pc
      escLanes := (geomDone i f x (geomWord val)).escLanes ||| geomEsc (i.active x.guard) (geomWord val)
      escs := (geomDone i f x (geomWord val)).escs + laneCount (geomEsc (i.active x.guard) (geomWord val)) } := rfl
  refine ⟨(geomHeld i f x (geomWord val)).pc, held.trans ?_⟩
  generalize geomDone i f x (geomWord val) = d at *
  rw [hdone]
  simp only [Flue.withRegs, hs, hp]

theorem geomHeld_result (s : State) (key : Nat) (hx : x.f = .none) (hplain : plainDest x.d = true) (hs : x.d.isScalar = false)
    (hd : (i.view.loc x.d 0).perLane = true) (hf : FrameStands i f) :
    GeomResult s ((s.escalate i.stove (geomWaiting i x (geomWord val) key)).setFlue i.stove i.slot (geomHeld i f x (geomWord val)))
      i f x val := by
  unfold GeomResult
  simp only [← geomBad_word, ← geomEsc_word, hx, if_true, ne_eq, not_true_eq_false, imp_false, false_implies, true_implies, and_true,
    Bool.not_eq_true]
  obtain ⟨pc, only⟩ := geomHeld_only (f := f) (val := val) hd
  have hread (r : RegLoc) (l : Nat) : (geomHeld i f x (geomWord val)).readLoc r l = (geomDone i f x (geomWord val)).readLoc r l :=
    SameRegs.readLoc (f := geomDone i f x (geomWord val)) ⟨rfl, rfl, rfl, rfl, rfl⟩ r l
  refine ⟨geomHeld i f x (geomWord val), geomWaiting i x (geomWord val) key, insertAll (s.stove i.stove).esc _, insertAll_perm ..,
    insertAll_ordered _, rfl, ?pending, ?only, fun l hl => pcOf_geomHeld hl, geomWaiting_lanes .., geomWaiting_entry key,
    ?outs, ?flags, geomDone_shape _, ?keeps, ?value, ?latched, ?kept⟩
  case pending => rw [only]
  case only => rw [only]
  case outs => rw [only]
  case flags => rw [only]
  case keeps =>
    intro r l hl hno
    rw [hread]
    exact geomDone_keeps r l hl hno
  case value =>
    intro l hl ha he hreal r hr
    rw [hread]
    exact geomDone_delivers hplain hs hf hl ha he hreal hr
  case latched => exact fun he => geomDone_latched hx he
  case kept =>
    intro he hn
    exact geomDone_keeps_latch
      (Bool.and_eq_false_iff.2 (.inr (Bool.or_eq_false_iff.2 ⟨beq_eq_false_iff_ne.2 he, beq_eq_false_iff_ne.2 hn⟩)))

/-! ### F not 00: the results are under way -/

theorem geomWrites_flagged (hx : x.f ≠ .none) (m : LaneMask) : ∀ w ∈ geomWrites i x (geomWord val) m, w.toLatch = false :=
  geomWrites_noLatch (by simp [geomLatch, hx])

theorem getLsbD_not_lane (m : LaneMask) {l : Nat} (hl : l < 32) : (~~~m).getLsbD l = !m.getLsbD l := by
  rw [BitVec.getLsbD_not, decide_eq_true hl, Bool.true_and]

/-- The results of all lanes that find something, when none escalates. -/
theorem geomWrites_all (he : geomEsc (i.active x.guard) (geomWord val) = 0) :
    WritesOf i.view x.d 1 (geomWrites i x (geomWord val) (~~~geomEsc (i.active x.guard) (geomWord val))) fun l =>
      if (geomGood (i.active x.guard) val).getLsbD l = true then geomOut val l else none := by
  refine writesOf_congr (geomWrites_writesOf _) fun l hl => ?_
  simp only [he, getLsbD_not_lane _ hl, getLsbD_geomGood hl]
  cases hv : val l <;> simp [geomOut, hv]

/-- The results of the lanes that escalate along with the others. -/
theorem geomWrites_both :
    WritesOf i.view x.d 1 (geomWrites i x (geomWord val) (~~~geomEsc (i.active x.guard) (geomWord val)) ++
        geomWrites i x (geomWord val) (geomEsc (i.active x.guard) (geomWord val))) fun l =>
      if (geomGood (i.active x.guard) val).getLsbD l = true then geomOut val l else none := by
  refine writesOf_congr (writesOf_append (geomWrites_writesOf _) (geomWrites_writesOf _) fun l => ?_) fun l hl => ?_
  · by_cases he : (geomEsc (i.active x.guard) (geomWord val)).getLsbD l = true <;> simp [he]
  · simp only [getLsbD_not_lane _ hl, getLsbD_geomGood hl]
    by_cases he : (geomEsc (i.active x.guard) (geomWord val)).getLsbD l = true <;> cases hv : val l <;> simp [geomOut, hv, he]

/-- With F not 00 it is enough that registers and latch stay, the group steps past, and the results are under way. -/
theorem geomUnderWay_result (s : State) {g : Flue} {es : List EscEntry} (hx : x.f ≠ .none)
    (hg : ∃ pc outs flags, g = { f with
      pc := pc, outs := outs, flags := flags, escs := f.escs + laneCount (geomEsc (i.active x.guard) (geomWord val))
      pending := (f.raise i cGEOMNF (geomBad (i.active x.guard) (geomWord val))).pending })
    (hpc : ∀ l < 32, g.pcOf l = if i.lanes.getLsbD l = true ∧
      ((geomBad (i.active x.guard) (geomWord val)).getLsbD l = true → f.phase = .handler) then i.next else f.pcOf l)
    (hlanes : es.map (·.lane) = lanesOf (geomEsc (i.active x.guard) (geomWord val)))
    (hes : ∀ e ∈ es, e.slot = i.slot ∧ e.seed = i.seed ∧ e.step = none ∧ e.writes = [] ∧
      ((∀ l, (geomEsc (i.active x.guard) (geomWord val)).getLsbD l = true → l ≤ e.lane) → e.flag = i.flag x.f) ∧
      ((∃ l, (geomEsc (i.active x.guard) (geomWord val)).getLsbD l = true ∧ e.lane < l) → e.flag = none))
    (hnone : geomGood (i.active x.guard) val = 0 → g.outs = f.outs ∧ g.flags = f.flags)
    (hsome : geomGood (i.active x.guard) val ≠ 0 →
      (∀ k, SMap.get g.flags k = SMap.get f.flags k + if i.flag x.f = some k then 1 else 0) ∧
      ∃ ws, g.outs = f.outs ++ [{ flag := if geomEsc (i.active x.guard) (geomWord val) = 0 then i.flag x.f else none, writes := ws,
                                  seed := i.seed }] ∧
        (∀ w ∈ ws, w.toLatch = false) ∧
        WritesOf i.view x.d 1 ws fun l => if (geomGood (i.active x.guard) val).getLsbD l = true then geomOut val l else none) :
    GeomResult s ((s.escalate i.stove es).setFlue i.stove i.slot g) i f x val := by
  unfold GeomResult
  simp only [← geomBad_word, ← geomEsc_word, hx, ne_eq, not_false_eq_true, false_implies, true_implies, true_and, implies_true,
    and_true]
  obtain ⟨pc, outs, flags, rfl⟩ := hg
  exact ⟨_, es, insertAll (s.stove i.stove).esc es, insertAll_perm .., insertAll_ordered _, rfl, rfl, rfl, hpc, hlanes, hes, rfl, rfl, rfl, rfl,
    rfl, hnone, hsome⟩

/-- Lanes that raise a cause stay, but in handler mode. -/
theorem pcOf_finish_iff (f : Flue) (i : Issue) (stay : LaneMask) {l : Nat} (hl : l < 32) : (f.finish i stay).pcOf l =
    if i.lanes.getLsbD l = true ∧ (stay.getLsbD l = true → f.phase = .handler) then i.next else f.pcOf l := by
  rw [pcOf_finish _ _ _ _ hl]
  refine if_congr (and_congr_right fun _ => ?_) rfl rfl
  rw [← Bool.not_eq_true, or_comm, imp_iff_not_or]

theorem setFlag_counts (f : Flue) (n : Option Nat) : ∃ fl, f.setFlag n = { f with flags := fl } ∧
    ∀ k, SMap.get fl k = SMap.get f.flags k + if n = some k then 1 else 0 := by
  obtain ⟨fl, hfl⟩ := setFlag_only f n
  exact ⟨fl, hfl, fun k => by rw [← get_setFlag, hfl]⟩

/-- With no lane that finds something nothing is under way; else one result that the flag counts. -/
theorem await_geom (f : Flue) (hx : x.f ≠ .none) {ws : List LaneWrite} (hws : ∀ w ∈ ws, w.toLatch = false) (m : LaneMask) : ∃ outs fl,
    f.await i x.f m ws = { f with outs := outs, flags := fl } ∧ (m = 0 → outs = f.outs ∧ fl = f.flags) ∧
    (m ≠ 0 → (∀ k, SMap.get fl k = SMap.get f.flags k + if i.flag x.f = some k then 1 else 0) ∧
      outs = f.outs ++ [{ flag := i.flag x.f, writes := ws, seed := i.seed }]) := by
  by_cases hm : m = 0
  · subst hm
    exact ⟨f.outs, f.flags, await_none .., fun _ => ⟨rfl, rfl⟩, fun h => absurd rfl h⟩
  · obtain ⟨fl, hfl, hget⟩ := setFlag_counts f (i.flag x.f)
    exact ⟨_, fl, by rw [await_flagged f i hx hm hws, hfl], fun h => absurd h hm, fun _ => ⟨hget, rfl⟩⟩

theorem geomAwaited_result (s : State) (hx : x.f ≠ .none) (he : geomEsc (i.active x.guard) (geomWord val) = 0) :
    GeomResult s (s.setFlue i.stove i.slot (geomAwaited i f x (geomWord val))) i f x val := by
  let bad := geomBad (i.active x.guard) (geomWord val)
  obtain ⟨t, ht⟩ := raise_only f i cGEOMNF bad
  obtain ⟨outs, fl, hb, hnone, hsome⟩ := await_geom (i := i) (f.raise i cGEOMNF bad) hx
    (geomWrites_flagged (val := val) hx (~~~geomEsc (i.active x.guard) (geomWord val))) (geomGood (i.active x.guard) val)
  obtain ⟨pc, hpc⟩ := finish_only { f.raise i cGEOMNF bad with outs := outs, flags := fl } i bad
  have done : geomAwaited i f x (geomWord val) = ({ f.raise i cGEOMNF bad with outs := outs, flags := fl } : Flue).finish i bad := by
    rw [← hb]
    rfl
  rw [← setFlue_escalate_nil, done]
  refine geomUnderWay_result s hx ⟨pc, outs, fl, ?only⟩ (fun l hl => ?pcOf) ?lanes (fun e h => absurd h List.not_mem_nil)
    (fun h0 => ?none) fun h0 => ?some
  case only =>
    rw [hpc, ht, he]
    rfl
  case pcOf =>
    rw [pcOf_finish_iff _ _ _ hl, ht]
    rfl
  case lanes =>
    rw [he, lanesOf_zero]
    rfl
  case none =>
    rw [hpc]
    rw [ht] at hnone
    exact hnone h0
  case some =>
    rw [hpc, if_pos he]
    rw [ht] at hsome
    exact ⟨(hsome h0).1, _, (hsome h0).2, geomWrites_flagged hx _, geomWrites_all he⟩

theorem geomGood_ne_zero (he : geomEsc (i.active x.guard) (geomWord val) ≠ 0) : geomGood (i.active x.guard) val ≠ 0 := by
  intro h0
  have hgood := geomEsc_good ((mem_lanesOf ..).1 (lowLane_mem he)).2
  rw [h0] at hgood
  simp at hgood

/-- The results are under way without a flag of their own; the flag is counted and falls with the last lane of the unit. -/
theorem geomFlagged_result (s : State) (key : Nat) (hx : x.f ≠ .none) (he : geomEsc (i.active x.guard) (geomWord val) ≠ 0) :
    GeomResult s ((s.escalate i.stove (geomCounted i x (geomWord val) key)).setFlue i.stove i.slot (geomFlagged i f x (geomWord val)))
      i f x val := by
  let bad := geomBad (i.active x.guard) (geomWord val)
  let ws := geomWrites i x (geomWord val) (~~~geomEsc (i.active x.guard) (geomWord val)) ++
    geomWrites i x (geomWord val) (geomEsc (i.active x.guard) (geomWord val))
  obtain ⟨t, ht⟩ := raise_only f i cGEOMNF bad
  obtain ⟨fl, hb, hget⟩ := setFlag_counts (f.raise i cGEOMNF bad) (i.flag x.f)
  obtain ⟨pc, hpc⟩ := finish_only { f.raise i cGEOMNF bad with flags := fl } i bad
  have done : geomFlagged i f x (geomWord val) = { ({ f.raise i cGEOMNF bad with flags := fl } : Flue).finish i bad with
      escs := (f.raise i cGEOMNF bad).escs + laneCount (geomEsc (i.active x.guard) (geomWord val))
      outs := (f.raise i cGEOMNF bad).outs ++ [{ writes := ws, seed := i.seed }] } := by
    rw [← hb]
    rfl
  rw [done]
  refine geomUnderWay_result s hx ⟨pc, f.outs ++ [{ writes := ws, seed := i.seed }], fl, ?only⟩ (fun l hl => ?pcOf)
    (geomCounted_lanes ..) (geomCounted_entry _ key) (fun h0 => absurd h0 (geomGood_ne_zero he)) fun _ => ?some
  case only =>
    rw [hpc, ht]
  case pcOf =>
    refine (pcOf_finish_iff { f.raise i cGEOMNF bad with flags := fl } i bad hl).trans ?_
    rw [ht]
    rfl
  case some =>
    rw [hpc, if_neg he]
    rw [ht] at hget ⊢
    refine ⟨hget, ws, rfl, fun w hw => ?_, geomWrites_both⟩
    exact (List.mem_append.1 hw).elim (geomWrites_flagged hx _ w) (geomWrites_flagged hx _ w)

end

end Sys2Proof.Machine
end

section
/-! PROOF of O60, concluded: the rows (06 R124-R148, 07 R151-R158, R166-R174, 03 R70, R72). -/

namespace Sys2Proof.Machine

open Sys2Proof.Claims

/-! ### The rows -/

/-- A vector destination is no scalar and no predicate. -/
theorem vectorDest_of_dstV {w : Width} {ty : Ty} {m : BitVec 11} {o : Opnd} (h : (Kind.dstV w).ok ty m o = true) :
    o.isScalar = false ∧ ∀ (view : Flue) (j : Nat), (view.loc o j).perLane = true := by
  cases o
  case v n =>
    refine ⟨rfl, fun view j => ?_⟩
    unfold Flue.loc
    dsimp only
    split <;> rfl
  case o | zero => exact ⟨rfl, fun _ _ => rfl⟩
  all_goals simp [Kind.ok] at h

theorem geomState_result {s : State} {i : Issue} {f : Flue} {x : LArgs} (val : Nat → Option GRes) (key : Nat) {w : Width}
    (hok : (Kind.dstV w).ok x.ty x.modx x.d = true) (hf : FrameStands i f) :
    GeomResult s (geomState s i f x (geomWord val) key) i f x val := by
  obtain ⟨hs, hd⟩ := vectorDest_of_dstV hok
  unfold geomState
  split
  case isTrue hx => exact geomHeld_result s key (by simpa using hx) (plainDest_of_dstV hok) hs (hd i.view 0) hf
  case isFalse hx =>
    have hx : x.f ≠ .none := by simpa using hx
    split
    case isTrue he => exact geomAwaited_result s hx he
    case isFalse he => exact geomFlagged_result s key hx he

/-- What a geometric instruction does, whatever its predicate. -/
theorem geom_result {s : State} {i : Issue} {f : Flue} {x : LArgs} (hi : Issuing s i f) (hf : FrameStands i f) {w : Width}
    (hok : (Kind.dstV w).ok x.ty x.modx x.d = true) (na nb : Nat) (lat : Nat × Nat) (op : Bool → List Q → GRes) :
    ∃ t, geom x na nb lat op s = .next t ∧ GeomResult s t i f x (geomValue x na nb op (i.src x.lit)) := by
  obtain ⟨key, hnext⟩ := geom_next hi x na nb lat op
  have found : geomFound x na nb op (i.src x.lit) = geomWord (geomValue x na nb op (i.src x.lit)) := funext (geomFound_eq x na nb op _)
  rw [found] at hnext
  exact ⟨_, hnext, geomState_result _ key hok hf⟩

/-- Each of these rows is a geometric instruction. -/
theorem exec_geomRows (x : LArgs) (s : State) : ∀ r ∈ [LRow.gori2, .gori3, .ginc, .gins, .gsegx],
    ∃ na nb lat op, exec (r.instr x) s = geom x na nb lat op s := by
  simp only [List.forall_mem_cons, List.not_mem_nil, false_implies, implies_true, and_true]
  exact ⟨⟨_, _, _, _, show execGori2 x s = _ from rfl⟩, ⟨_, _, _, _, show execGori3 x s = _ from rfl⟩,
    ⟨_, _, _, _, show execGinc x s = _ from rfl⟩, ⟨_, _, _, _, show execGins x s = _ from rfl⟩, ⟨_, _, _, _, show execGsegx x s = _ from rfl⟩⟩

theorem geomRows_vector : ∀ r ∈ [LRow.gori2, .gori3, .ginc, .gins, .gsegx], r.form.d = .dstV w1 := by
  simp only [List.forall_mem_cons, List.not_mem_nil, false_implies, implies_true, and_true]
  exact ⟨rfl, rfl, rfl, rfl, rfl⟩

theorem geomRow_result {x : LArgs} {s : State} {i : Issue} {f : Flue} (hi : Issuing s i f) (hf : FrameStands i f) :
    ∀ r ∈ [LRow.gori2, .gori3, .ginc, .gins, .gsegx], r.check x = none →
      ∃ t val, exec (r.instr x) s = .next t ∧ GeomResult s t i f x val := by
  intro r hr hc
  obtain ⟨na, nb, lat, op, hexec⟩ := exec_geomRows x s r hr
  have hd := (LRow.check_none hc).1
  rw [geomRows_vector r hr] at hd
  obtain ⟨t, hnext, h⟩ := geom_result hi hf hd na nb lat op
  exact ⟨t, _, hexec.trans hnext, h⟩

/-- Settles O60: the rows by the kind of their result. -/
theorem registerFormsComplete : Obligations.RegisterFormsComplete := fun _ _ _ _ hi hf =>
  ⟨valueRow_result hi hf, fun r hr _ => predRow_result hi r hr, geomRow_result hi hf, fun _ => reswr_result hi, cvtn_result hi hf,
    fun r hr _ => lateRow_result hi r hr⟩

end Sys2Proof.Machine
end
